-- ==== Sys2Proof/Word.lean ====
section
/-! DEFINITION. The word types of the Nymnar N9 and their plainest helpers (R3, R4, R66). -/

namespace Sys2Proof

/-- A byte (R4). -/
abbrev Byte := BitVec 8
/-- A lane word of a vector register, or a lane mask: bit i is lane i (R66). -/
abbrev W32 := BitVec 32
/-- A scalar register, an instruction word, a code or data address (R56, R66). -/
abbrev W64 := BitVec 64
/-- An accumulator element in Q63.64 (R40). -/
abbrev W128 := BitVec 128
/-- A vector register: 32 lanes of 32 bits (R66). -/
abbrev VReg := Vector W32 32
/-- An accumulator tile: 32 rows of 16 elements (R66). -/
abbrev ATile := Vector (Vector W128 16) 32

end Sys2Proof
end

