-- ==== Sys2Proof/Syntax.lean ====
section
/-! DEFINITION. The instruction formats of R71 to R80, the operands of the device's own events, and Instr: one
constructor for each row of the opcode table. An instruction's constructor holds the fields of its format as they stand
in the word; an event's constructor holds what the outside world or the unit that makes the event supplies. -/

namespace Sys2Proof

/-- Fields of the format of vector operations with up to three sources (R71), from bit 55 down. -/
structure V3 where
  pred : BitVec 4 := 0
  pneg : BitVec 1 := 0
  d : BitVec 8 := 0
  a : BitVec 8 := 0
  b : BitVec 8 := 0
  c : BitVec 8 := 0
  ty : BitVec 4 := 0
  rnd : BitVec 3 := 0
  sat : BitVec 1 := 0
  md : BitVec 6 := 0
  sub : BitVec 5 := 0
  deriving DecidableEq, Repr, Inhabited

/-- Fields of the format of vector operations with a 32-bit immediate (R72), from bit 55 down. -/
structure VI where
  pred : BitVec 4 := 0
  d : BitVec 8 := 0
  a : BitVec 8 := 0
  ty : BitVec 4 := 0
  imm : BitVec 32 := 0
  deriving DecidableEq, Repr, Inhabited

/-- Fields of the format of scalar operations (R73), from bit 55 down. -/
structure S3 where
  d : BitVec 6 := 0
  a : BitVec 6 := 0
  b : BitVec 6 := 0
  c : BitVec 6 := 0
  ty : BitVec 4 := 0
  fn : BitVec 4 := 0
  sat : BitVec 1 := 0
  f1 : BitVec 6 := 0
  f2 : BitVec 6 := 0
  rsv : BitVec 11 := 0
  deriving DecidableEq, Repr, Inhabited

/-- Fields of the format of scalar operations with an immediate (R73), from bit 55 down. -/
structure SI where
  d : BitVec 6 := 0
  a : BitVec 6 := 0
  fn : BitVec 4 := 0
  imm : BitVec 40 := 0
  deriving DecidableEq, Repr, Inhabited

/-- Fields of the format of branches and mask control, format B (R74), from bit 55 down. -/
structure FB where
  hint : BitVec 2 := 0
  s : BitVec 6 := 0
  p : BitVec 4 := 0
  pneg : BitVec 1 := 0
  cond : BitVec 3 := 0
  rsv : BitVec 8 := 0
  off : BitVec 32 := 0
  deriving DecidableEq, Repr, Inhabited

/-- Fields of the format of loads, stores and cache control, format M (R75), from bit 55 down. -/
structure FM where
  pred : BitVec 4 := 0
  d : BitVec 8 := 0
  sb : BitVec 6 := 0
  vx : BitVec 6 := 0
  scale : BitVec 2 := 0
  width : BitVec 2 := 0
  scope : BitVec 4 := 0
  cache : BitVec 2 := 0
  off : BitVec 22 := 0
  deriving DecidableEq, Repr, Inhabited

/-- Fields of the format of atomics, the atomic layout of format M (R75), from bit 55 down. -/
structure MA where
  pred : BitVec 4 := 0
  d : BitVec 8 := 0
  sb : BitVec 6 := 0
  vx : BitVec 6 := 0
  scale : BitVec 2 := 0
  width : BitVec 2 := 0
  scope : BitVec 4 := 0
  ord : BitVec 2 := 0
  aop : BitVec 4 := 0
  off : BitVec 18 := 0
  deriving DecidableEq, Repr, Inhabited

/-- Fields of the format of tiles, copies and link transfers, format T (R77), from bit 55 down. -/
structure FT where
  pred : BitVec 4 := 0
  d : BitVec 8 := 0
  h : BitVec 6 := 0
  i : BitVec 6 := 0
  j : BitVec 8 := 0
  ty : BitVec 4 := 0
  mode : BitVec 2 := 0
  lvl : BitVec 1 := 0
  b : BitVec 6 := 0
  imm : BitVec 11 := 0
  deriving DecidableEq, Repr, Inhabited

/-- Fields of the format of the matrix engine, format X (R78), from bit 55 down. -/
structure FX where
  pred : BitVec 4 := 0
  ad : BitVec 2 := 0
  as_ : BitVec 2 := 0
  va : BitVec 8 := 0
  vb : BitVec 8 := 0
  sh : BitVec 6 := 0
  km1 : BitVec 5 := 0
  wf : BitVec 4 := 0
  vs : BitVec 8 := 0
  bsel : BitVec 2 := 0
  rnd : BitVec 3 := 0
  adv : BitVec 1 := 0
  sat : BitVec 1 := 0
  osc : BitVec 1 := 0
  rsv : BitVec 1 := 0
  deriving DecidableEq, Repr, Inhabited

/-- Fields of the format of scene, marcher and visibility instructions, format K (R79), from bit 55 down. -/
structure FK where
  pred : BitVec 4 := 0
  vd : BitVec 8 := 0
  va : BitVec 8 := 0
  sa : BitVec 6 := 0
  sb : BitVec 6 := 0
  mode : BitVec 4 := 0
  imm : BitVec 20 := 0
  deriving DecidableEq, Repr, Inhabited

/-- Fields of the format of fences, barriers, launch, queue and system instructions, format Y (R80), from bit 55 down. -/
structure FY where
  d : BitVec 6 := 0
  a : BitVec 6 := 0
  b : BitVec 6 := 0
  scope : BitVec 4 := 0
  fn : BitVec 4 := 0
  cls1 : BitVec 6 := 0
  cls2 : BitVec 6 := 0
  ord : BitVec 2 := 0
  imm : BitVec 16 := 0
  deriving DecidableEq, Repr, Inhabited

/-- Where a soft error lies (R422). Memory places are physical keys of a byte in the 32-byte sector. -/
inductive ErrPlace where
  | memSector (key : Nat)
  | sliceSector (key : Nat)
  | scalar (core slot n : Nat)
  | pred (core slot n : Nat)
  | trapScalar (core slot n : Nat)
  | trapVector (core slot n lane : Nat)
  | vector (core slot n lane : Nat)
  | acc (core slot n row col : Nat)
  | scratch (core idx word : Nat)
  | firstLevel (core line : Nat)
  | brickCache (core line : Nat)
  deriving DecidableEq, Repr

/-- A sequence of R267: a queue of a context (walk 0), or a graph walk of that queue (walk id above 0). -/
structure SeqRef where
  ctx : Nat
  q : Nat
  walk : Nat := 0
  deriving DecidableEq, Repr, Inhabited

/-- A policy-table entry (R286). -/
structure Policy where
  valid : Bool := false
  pclass : BitVec 2 := 0
  sect : BitVec 8 := 0
  sbud : W32 := 0
  age : W32 := 0
  sdl : BitVec 16 := 0
  deriving DecidableEq, Repr, Inhabited

/-- A watchpoint of a context (R423): number 0 to 3, a virtual range and what it watches; an empty range clears it. -/
structure WatchArg where
  n : Nat
  lo : Nat
  hi : Nat
  read : Bool
  write : Bool
  deriving DecidableEq, Repr, Inhabited

/-- A bind request (R402, R446): first sector, log2 of the sectors, and the DisplayPort outputs it assigns. -/
structure BindArg where
  fsect : Nat
  psize : Nat
  outs : List Nat
  erase : Bool := false
  deriving DecidableEq, Repr, Inhabited

/-- A master of R450: a host requester or a pod peer. An access to the management page names its master; none is the board, whose
sideband path (R442) no access table guards (log 100). -/
inductive Master where
  | host (n : Nat)
  | peer (n : Nat)
  deriving DecidableEq, Repr

/-- A target that holds an access table (R450). -/
inductive AccTarget where
  | hostLink
  | port (n : Nat)
  | mgmt
  deriving DecidableEq, Repr

/-- One entry of an access table: a master's rights to one partition position (R450). -/
structure AccessEntry where
  target : AccTarget
  master : Master
  fsect : Nat
  read : Bool
  write : Bool
  deriving DecidableEq, Repr

/-- What an inbound access does (R434): a read of n bytes, a write, or one lane of an atomic of R182: AOP, the width in bytes, the
operand, and the compare value of .cas. -/
inductive InboundOp where
  | read (n : Nat)
  | write (bytes : List Byte)
  | atomic (aop width : Nat) (x cmp : W64)
  deriving DecidableEq, Repr

/-- An inbound access of a peer or the host (R434): the target it arrives at, its master, a physical address of this
device's memory, and the operation. -/
structure InboundArg where
  target : AccTarget
  master : Master
  addr : Nat
  op : InboundOp
  deriving DecidableEq, Repr

/-- The end of one training attempt of the host link (R436): none is a failed attempt, otherwise the rate in GT/s and the
width in lanes. -/
inductive HostTraining where
  | start
  | failed
  | trained (rate width : Nat)
  | lost
  | disable
  deriving DecidableEq, Repr

/-- A value that an access brings to the management window, and the master of that access: none is the board's sideband controller, which
is no target of an access table (R442, R450; log 100). -/
structure ByMaster (α : Type) where
  master : Option Master
  value : α
  deriving DecidableEq, Repr

/-- The access that wakes the device and is held until the exit completes (R448). -/
inductive HeldAccess where
  | doorbell (ctx q : Nat) (value : W64)
  | inbound (a : InboundArg)
  | mgmt (offset : Nat) (value : ByMaster W64)
  | alarm (fsect addr : Nat)
  | timer
  deriving DecidableEq, Repr

/-- The instructions and the events of the opcode table, in its order: one constructor per row. -/
inductive Instr where
  /-- SADD (R113): Adds two scalar registers, optionally saturating to the type. -/
  | sadd (f : S3)
  /-- SSUB (R113): Subtracts one scalar register from another, optionally saturating. -/
  | ssub (f : S3)
  /-- SMUL (R113): Multiplies two scalar registers, optionally saturating. -/
  | smul (f : S3)
  /-- SMULH (R113): Writes the high half of the 128-bit product of two scalar registers. -/
  | smulh (f : S3)
  /-- SDIV (R113): Divides scalar registers with truncation, giving all ones and DZ for a zero divisor. -/
  | sdiv (f : S3)
  /-- SREM (R113): Writes the remainder of a truncating scalar division. -/
  | srem (f : S3)
  /-- SMIN (R113): Writes the smaller of two scalar registers. -/
  | smin (f : S3)
  /-- SMAX (R113): Writes the larger of two scalar registers. -/
  | smax (f : S3)
  /-- SABS (R113): Writes the absolute value of a signed scalar register. -/
  | sabs (f : S3)
  /-- SLEA (R113): Adds a scalar register shifted left by F1 to another scalar register. -/
  | slea (f : S3)
  /-- SAND (R113): Bitwise AND of two scalar registers. -/
  | sand (f : S3)
  /-- SOR (R113): Bitwise OR of two scalar registers. -/
  | sor (f : S3)
  /-- SXOR (R113): Bitwise XOR of two scalar registers. -/
  | sxor (f : S3)
  /-- SANDN (R113): Bitwise AND of one scalar register with the complement of another. -/
  | sandn (f : S3)
  /-- SSHL (R113): Shifts a scalar register left by a register count modulo 64. -/
  | sshl (f : S3)
  /-- SSHR (R113): Shifts a scalar register right logically by a register count. -/
  | sshr (f : S3)
  /-- SSRA (R113): Shifts a scalar register right arithmetically by a register count. -/
  | ssra (f : S3)
  /-- SROT (R113): Rotates a scalar register left by a register count. -/
  | srot (f : S3)
  /-- SCLZ (R113): Counts the leading zero bits of a scalar register. -/
  | sclz (f : S3)
  /-- SPOP (R113): Counts the one bits of a scalar register. -/
  | spop (f : S3)
  /-- SBFX (R113): Extracts a bit field of a scalar register, sign- or zero-extended. -/
  | sbfx (f : S3)
  /-- SBFI (R113): Inserts the low bits of one scalar register into a field of another. -/
  | sbfi (f : S3)
  /-- SSEL (R113): Selects one of two scalar registers by whether a third is nonzero. -/
  | ssel (f : S3)
  /-- SMOV (R113): Copies one scalar register to another. -/
  | smov (f : S3)
  /-- SCMP (R113): Writes 1 or 0 from a signed or unsigned comparison of two scalar registers. -/
  | scmp (f : S3)
  /-- SADD_IMM (R115): Adds a sign-extended 40-bit immediate to a scalar register. -/
  | saddImm (f : SI)
  /-- SMUL_IMM (R115): Multiplies a scalar register by an immediate, keeping the low 64 bits. -/
  | smulImm (f : SI)
  /-- SMIN_IMM (R115): Writes the signed minimum of a scalar register and an immediate. -/
  | sminImm (f : SI)
  /-- SMAX_IMM (R115): Writes the signed maximum of a scalar register and an immediate. -/
  | smaxImm (f : SI)
  /-- SAND_IMM (R115): Bitwise AND of a scalar register with an immediate. -/
  | sandImm (f : SI)
  /-- SOR_IMM (R115): Bitwise OR of a scalar register with an immediate. -/
  | sorImm (f : SI)
  /-- SXOR_IMM (R115): Bitwise XOR of a scalar register with an immediate. -/
  | sxorImm (f : SI)
  /-- SSHL_IMM (R115): Shifts a scalar register left by an immediate count. -/
  | sshlImm (f : SI)
  /-- SSHR_IMM (R115): Shifts a scalar register right logically by an immediate count. -/
  | sshrImm (f : SI)
  /-- SSRA_IMM (R115): Shifts a scalar register right arithmetically by an immediate count. -/
  | ssraImm (f : SI)
  /-- SROT_IMM (R115): Rotates a scalar register left by an immediate count. -/
  | srotImm (f : SI)
  /-- SLI (R116): Loads a sign-extended 40-bit immediate into a scalar register. -/
  | sli (f : SI)
  /-- SLIH (R116): Replaces bits 63:40 of a scalar register with a 24-bit immediate. -/
  | slih (f : SI)
  /-- SCMP_IMM (R116): Writes 1 or 0 from a signed comparison of a scalar register with an immediate. -/
  | scmpImm (f : SI)
  /-- BR (R119): Branches unconditionally to a block header. -/
  | br (f : FB)
  /-- BRC (R120): Branches when a scalar register meets a signed condition against 0. -/
  | brc (f : FB)
  /-- BRM (R121): Branches on a whole-mask test of a predicate over the active lanes. -/
  | brm (f : FB)
  /-- CALL (R122): Writes the fall-through header address to a link register and branches. -/
  | call (f : FB)
  /-- RET (R123): Transfers control to the address held in a scalar register. -/
  | ret (f : FB)
  /-- JT (R124): Loads an 8-byte code address from a table and transfers control to it. -/
  | jt (f : FB)
  /-- MIF (R125): Pushes an IF frame and narrows the active mask by a predicate. -/
  | mif (f : FB)
  /-- MELSE (R126): Switches the active mask to the other lanes of the top IF frame. -/
  | melse (f : FB)
  /-- MEND (R127): Restores the top frame's mask and pops the frame. -/
  | mend (f : FB)
  /-- MLOOP (R128): Narrows the mask for the next loop pass, pushing a LOOP frame on first use, and branches back while lanes remain. -/
  | mloop (f : FB)
  /-- EXIT (R129): Ends the group after draining its stores and work, freeing its tiles, rays and barriers and releasing the slot. -/
  | exit (f : FB)
  /-- YIELD (R130): Ranks the slot last in issue selection for the next 64 cycles. -/
  | yield (f : FB)
  /-- NOP (R130): Does nothing. -/
  | nop (f : FB)
  /-- VADD (R136): Adds vector elements, optionally saturating. -/
  | vadd (f : V3)
  /-- VSUB (R136): Subtracts vector elements, optionally saturating. -/
  | vsub (f : V3)
  /-- VMUL (R136): Multiplies vector elements, optionally saturating. -/
  | vmul (f : V3)
  /-- VMULH (R136): Writes the high half of each element product. -/
  | vmulh (f : V3)
  /-- VMAD (R136): Multiplies two vector elements and adds a third. -/
  | vmad (f : V3)
  /-- VDIV (R136): Divides 32-bit vector elements with truncation. -/
  | vdiv (f : V3)
  /-- VREM (R136): Writes the remainder of 32-bit element division. -/
  | vrem (f : V3)
  /-- VMIN (R136): Writes the smaller of two integer elements. -/
  | vmin (f : V3)
  /-- VMAX (R136): Writes the larger of two integer elements. -/
  | vmax (f : V3)
  /-- VABS (R136): Writes the absolute value of signed integer elements. -/
  | vabs (f : V3)
  /-- VNEG (R136): Negates signed integer elements. -/
  | vneg (f : V3)
  /-- VAND (R136): Bitwise AND of vector registers. -/
  | vand (f : V3)
  /-- VOR (R136): Bitwise OR of vector registers. -/
  | vor (f : V3)
  /-- VXOR (R136): Bitwise XOR of vector registers. -/
  | vxor (f : V3)
  /-- VANDN (R136): Bitwise AND with the complement of a second vector register. -/
  | vandn (f : V3)
  /-- VNOT (R136): Complements a vector register. -/
  | vnot (f : V3)
  /-- VSHL (R136): Shifts vector elements left by per-element counts. -/
  | vshl (f : V3)
  /-- VSHR (R136): Shifts vector elements right logically. -/
  | vshr (f : V3)
  /-- VSRA (R136): Shifts vector elements right arithmetically. -/
  | vsra (f : V3)
  /-- VCLZ (R136): Counts leading zero bits of each element. -/
  | vclz (f : V3)
  /-- VPOP (R136): Counts one bits of each element. -/
  | vpop (f : V3)
  /-- VBREV (R136): Reverses the bits of each element. -/
  | vbrev (f : V3)
  /-- VSAD (R138): Adds the sum of absolute byte differences to a 32-bit accumulator. -/
  | vsad (f : V3)
  /-- VDOT4 (R138): Adds a four-byte dot product to a 32-bit accumulator, optionally saturating. -/
  | vdot4 (f : V3)
  /-- VMOV (R139): Copies a vector register, optionally changing sign bits. -/
  | vmov (f : V3)
  /-- VSEL (R139): Selects per lane between two vector registers by a predicate. -/
  | vsel (f : V3)
  /-- VBCAST (R139): Broadcasts a scalar register into every active lane. -/
  | vbcast (f : V3)
  /-- VLANE (R140): Writes each active lane's number into a vector register. -/
  | vlane (f : V3)
  /-- VLANE_GET (R140): Reads one lane of a vector register into a scalar register. -/
  | vlaneGet (f : V3)
  /-- VLANE_PUT (R140): Writes a scalar value into one active lane of a vector register. -/
  | vlanePut (f : V3)
  /-- VLI (R141): Loads a 32-bit immediate into every active lane. -/
  | vli (f : VI)
  /-- VADD_IMM (R141): Adds an immediate to each element of a vector register. -/
  | vaddImm (f : VI)
  /-- VAND_IMM (R141): ANDs an immediate into each lane of a vector register. -/
  | vandImm (f : VI)
  /-- VCMP (R142): Writes a predicate from an integer comparison, zero in inactive lanes. -/
  | vcmp (f : V3)
  /-- FADD (R143): Adds floating-point elements with one rounding. -/
  | fadd (f : V3)
  /-- FSUB (R143): Subtracts floating-point elements with one rounding. -/
  | fsub (f : V3)
  /-- FMUL (R143): Multiplies floating-point elements with one rounding. -/
  | fmul (f : V3)
  /-- FFMA (R143): Fused multiply-add with one rounding. -/
  | ffma (f : V3)
  /-- FMIN (R145): Writes the smaller floating-point operand under the NaN and signed-zero rules. -/
  | fmin (f : V3)
  /-- FMAX (R145): Writes the larger floating-point operand under the NaN and signed-zero rules. -/
  | fmax (f : V3)
  /-- FDIV (R143): Divides floating-point elements with one rounding. -/
  | fdiv (f : V3)
  /-- FSQRT (R143): Correctly rounded square root. -/
  | fsqrt (f : V3)
  /-- FRCP (R143): Correctly rounded reciprocal. -/
  | frcp (f : V3)
  /-- FRSQ (R143): Correctly rounded reciprocal square root. -/
  | frsq (f : V3)
  /-- FEXP2 (R143): Correctly rounded base-2 exponential. -/
  | fexp2 (f : V3)
  /-- FLOG2 (R143): Correctly rounded base-2 logarithm. -/
  | flog2 (f : V3)
  /-- FSIN (R143): Correctly rounded sine of an argument in radians. -/
  | fsin (f : V3)
  /-- FCOS (R143): Correctly rounded cosine of an argument in radians. -/
  | fcos (f : V3)
  /-- FRND (R146): Rounds elements to integral values in their own format. -/
  | frnd (f : V3)
  /-- FCMP (R147): Writes a predicate from an FP32 comparison. -/
  | fcmp (f : V3)
  /-- FCLASS (R148): Writes a class mask for each floating-point element. -/
  | fclass (f : V3)
  /-- FSCALE (R149): Multiplies each element by two to an integer power with one rounding. -/
  | fscale (f : V3)
  /-- FSGN (R150): Builds a result from one operand's magnitude and a sign chosen from another. -/
  | fsgn (f : V3)
  /-- CVT (R152): Converts one element per lane between formats. -/
  | cvt (f : V3)
  /-- VPACK (R153): Converts a group of registers and packs the results into one lane. -/
  | vpack (f : V3)
  /-- VUNPK (R154): Unpacks the narrow elements of a lane into consecutive registers exactly. -/
  | vunpk (f : V3)
  /-- VDITH (R155): Rounds FP32 elements to a narrower grid with ordered dither and keeps them as FP32. -/
  | vdith (f : V3)
  /-- VSHFL (R157): Permutes lanes by per-lane source indices. -/
  | vshfl (f : V3)
  /-- VSHFL_XOR (R157): Permutes lanes by XOR of the lane number with an index. -/
  | vshflXor (f : V3)
  /-- VROT (R157): Rotates lanes by a scalar count. -/
  | vrot (f : V3)
  /-- VRED (R158): Reduces a vector register over the active lanes into a scalar. -/
  | vred (f : V3)
  /-- VSCAN (R159): Writes running inclusive or exclusive reductions across active lanes. -/
  | vscan (f : V3)
  /-- VBALLOT (R160): Writes a predicate ANDed with the active mask to a scalar. -/
  | vballot (f : V3)
  /-- VBALLOT_CNT (R160): Writes the number of active lanes set in a predicate to a scalar. -/
  | vballotCnt (f : V3)
  /-- VCOMPRESS (R161): Packs predicate-selected lanes into the active lanes in ascending order. -/
  | vcompress (f : V3)
  /-- VEXPAND (R162): Spreads the low lanes of a register across the active lanes. -/
  | vexpand (f : V3)
  /-- PAND (R163): ANDs two predicates in all 32 bits. -/
  | pand (f : V3)
  /-- POR (R163): ORs two predicates in all 32 bits. -/
  | por (f : V3)
  /-- PXOR (R163): XORs two predicates in all 32 bits. -/
  | pxor (f : V3)
  /-- PNOT (R163): Complements a predicate in all 32 bits. -/
  | pnot (f : V3)
  /-- PSET (R164): Sets a predicate to an immediate in all 32 bits. -/
  | pset (f : VI)
  /-- LD (R173): Loads and zero-extends one element per active lane, gathering by index. -/
  | ld (f : FM)
  /-- LD_SIGNED (R173): Loads and sign-extends one 1- or 2-byte element per active lane. -/
  | ldSigned (f : FM)
  /-- LDU (R174): Loads one zero-extended value into a scalar register. -/
  | ldu (f : FM)
  /-- LDU_SIGNED (R174): Loads one sign-extended value into a scalar register. -/
  | lduSigned (f : FM)
  /-- ST (R177): Stores one element per active lane, scattering by index. -/
  | st (f : FM)
  /-- STU (R177): Stores the low bytes of a scalar register once. -/
  | stu (f : FM)
  /-- PREF (R179): Prefetches lines into the first-level cache or home slice, dropping failures silently. -/
  | pref (f : FM)
  /-- CWB (R180): Writes dirty sectors of named lines back to backing memory. -/
  | cwb (f : FM)
  /-- CINV (R180): Drops named lines from caches, discarding dirty data at de. -/
  | cinv (f : FM)
  /-- CWBI (R180): Writes back and then drops named lines. -/
  | cwbi (f : FM)
  /-- ATOM (R183): Performs a read-modify-write per active lane and returns each old value. -/
  | atom (f : MA)
  /-- ATOMU (R183): Performs one scalar read-modify-write and returns the old value. -/
  | atomu (f : MA)
  /-- RED (R183): Performs a read-modify-write per active lane without returning a value. -/
  | red (f : MA)
  /-- STORE_DRAIN (R178): A retired store leaves the store queue and is performed at its serialisation point. -/
  | storeDrain (core slot : Nat)
  /-- LINE_OWNERSHIP_GRANT (R186): The home slice grants a core ownership of a line for local atomics at the predictor's request. -/
  | lineOwnershipGrant (core line : Nat)
  /-- LINE_EVICTION (R223): A home slice evicts a line, first splitting regions that hold snare tokens there. -/
  | lineEviction (line : Nat)
  /-- FENCE (R225): Ends the region and orders class-g accesses at a scope. -/
  | fence (f : FY)
  /-- XFENCE (R226): Orders older accesses of named engine classes against younger ones of other named classes. -/
  | xfence (f : FY)
  /-- TALLOC (R200): Allocates a scratchpad or global tile and returns its handle. -/
  | talloc (f : FT)
  /-- TFREE (R200): Frees a tile, waiting for outbound copies and draining inbound ones. -/
  | tfree (f : FT)
  /-- TINFO (R201): Returns a tile's state and description, or its stale state. -/
  | tinfo (f : FT)
  /-- TSET_FULL (R200): Sets the tags of whole tile rows to full. -/
  | tsetFull (f : FT)
  /-- TSET_EMPTY (R200): Sets the tags of whole tile rows to empty. -/
  | tsetEmpty (f : FT)
  /-- TWAIT (R200): Waits until a tile is Full. -/
  | twait (f : FT)
  /-- TLD (R199): Reads tile elements without touching tags. -/
  | tld (f : FT)
  /-- TST (R199): Writes tile elements and sets their words full. -/
  | tst (f : FT)
  /-- TLDW (R199): Waits until named words are full and reads them. -/
  | tldw (f : FT)
  /-- TLDC (R199): Waits until named words are full, reads them and empties them. -/
  | tldc (f : FT)
  /-- TSTW (R199): Waits until named words are empty, then writes and fills them. -/
  | tstw (f : FT)
  /-- TCPI (R202): Starts a copy of memory rows into a scratchpad tile, emptying their tags. -/
  | tcpi (f : FT)
  /-- TCPO (R202): Starts a copy of tile rows out to memory. -/
  | tcpo (f : FT)
  /-- TCPM (R204): Starts a peal copy of tile rows into the cluster peer's tile. -/
  | tcpm (f : FT)
  /-- INBOUND_WRITE (R204): A copy word lands in a tile and becomes full, or is dropped on a generation mismatch. -/
  | inboundWrite (copy : Nat)
  /-- COPY_COMPLETE (R195): A copy finishes, lowering inbound or outbound counts and moving the tile's state. -/
  | copyComplete (copy : Nat)
  /-- MAC (R322): Accumulates signed-digit products of register weights into accumulator rows. -/
  | mac (f : FX)
  /-- MACG (R322): Accumulates signed-digit products of global-tile weights into accumulator rows. -/
  | macg (f : FX)
  /-- AZERO (R323): Sets the active rows of an accumulator tile to zero. -/
  | azero (f : FX)
  /-- AMOV (R323): Copies active rows from one accumulator tile to another. -/
  | amov (f : FX)
  /-- APUT (R324): Converts lane values into one column of an accumulator tile. -/
  | aput (f : FX)
  /-- AREAD (R326): Reads eight accumulator columns out with one rounding and an optional outer scale. -/
  | aread (f : FX)
  /-- SDFE (R345): Evaluates a field program per lane at points or over intervals. -/
  | sdfe (f : FK)
  /-- SDFPRUNE (R347): Specialises a field program to a tile frustum and writes the pruned program to a tile. -/
  | sdfprune (f : FK)
  /-- MARCH (R368): Starts one ray per active lane on the core's marcher. -/
  | march (f : FK)
  /-- MRES (R369): Waits until each active lane's result record is full and reads it. -/
  | mres (f : FK)
  /-- MRESUME (R370): Supplies a callable's interval to suspended rays and resumes them. -/
  | mresume (f : FK)
  /-- MCANCEL (R371): Ends the rays of the active lanes, landing ERROR CANCELLED. -/
  | mcancel (f : FK)
  /-- BSAMPLE (R372): Samples a brick map and its gradient at each active lane's point. -/
  | bsample (f : FK)
  /-- RAY_STEP (R356): The marcher advances a ray by one node visit, leaf test or evaluation. -/
  | rayStep (core slot lane : Nat)
  /-- VIS (R377): Merges one depth key per active lane into a visibility buffer. -/
  | vis (f : FK)
  /-- VIS_MERGE (R376): A key merge is performed as an unsigned minimum at the key's home slice. -/
  | visMerge (merge : Nat)
  /-- RAST (R381): Hands a draw to the sector's rasteriser, parking while it holds 64 draws. -/
  | rast (f : FK)
  /-- TRIANGLE_RASTER (R380): The rasteriser tests one triangle at pixel centres and merges its fragments. -/
  | triangleRaster (draw : Nat)
  /-- DRAW_COMPLETE (R381): Every merge of a draw is performed and CTR is incremented with release. -/
  | drawComplete (draw : Nat)
  /-- RPROJ (R384): Reprojects one pixel per lane from the previous buffer or appends it to the redo list. -/
  | rproj (f : FK)
  /-- FETCH (R244): Ends the current unit and takes the next coordinate from the tambour, or END. -/
  | fetch (f : FY)
  /-- LAUNCH (R245): Copies a launch record into the pool and returns its join token. -/
  | launch (f : FY)
  /-- JOIN (R246): Waits for a child launch to be Done and writes its status. -/
  | join (f : FY)
  /-- HPASS (R247): Hands a scratchpad tile to a Held task record. -/
  | hpass (f : FY)
  /-- LINFO (R248): Reads a selected value of the group's launch. -/
  | linfo (f : FY)
  /-- BAR_INIT (R258): Makes a barrier entry Live with an expected count. -/
  | barInit (f : FY)
  /-- BAR_ARR (R252): Arrives at a home barrier entry and returns a phase token. -/
  | barArr (f : FY)
  /-- BAR_WAIT (R258): Waits until the phase of a token is complete. -/
  | barWait (f : FY)
  /-- BAR_SYNC (R258): Arrives at a home barrier entry and waits on its token. -/
  | barSync (f : FY)
  /-- BAR_SYNC_PEER (R258): Arrives at the peer's barrier entry and waits on its token. -/
  | barSyncPeer (f : FY)
  /-- BAR_DROP (R252): Drops the group's membership from a home barrier entry. -/
  | barDrop (f : FY)
  /-- BAR_DROP_PEER (R252): Drops the group's membership from the peer's barrier entry. -/
  | barDropPeer (f : FY)
  /-- BAR_PEER (R258): Arrives at the peer's barrier entry and returns a token. -/
  | barPeer (f : FY)
  /-- BAR_GRID (R260): Arrives and waits at the grid barrier of a GRIDSYNC launch. -/
  | barGrid (f : FY)
  /-- ENQ (R281): Places a packet in a device-fed queue within the group's reservation. -/
  | enq (f : FY)
  /-- QFENCE (R282): Waits until every older enq of the group is placed. -/
  | qfence (f : FY)
  /-- CNT (R283): Reads a level's completion counter or a 64-bit word. -/
  | cnt (f : FY)
  /-- CNT_WAIT (R283): Parks until a counter reaches a target or has its CANCEL mark. -/
  | cntWait (f : FY)
  /-- CANCEL (R284): Cancels a unit, launch, graph, phase or job and writes a status. -/
  | cancel (f : FY)
  /-- MFS (R425): Reads a system register into a scalar register. -/
  | mfs (f : FY)
  /-- MTS (R425): Writes a scalar register to a system register, raising PRIV where not allowed. -/
  | mts (f : FY)
  /-- TRAP (R426): Raises SWTRAP with a trap code. -/
  | trap (f : FY)
  /-- BRK (R426): Raises WATCH with a breakpoint code. -/
  | brk (f : FY)
  /-- TRET (R427): Returns from the handler to retry the trapping instruction. -/
  | tret (f : FY)
  /-- TRET_SKIP (R427): Returns from the handler to the word after the trapping one. -/
  | tretSkip (f : FY)
  /-- FWCALL_SYS (R428): Hands two values to system software and parks until it replies. -/
  | fwcallSys (f : FY)
  /-- FWCALL_XZ (R428): Exchanges the trap scratch registers with s56-s63 and v252-v255. -/
  | fwcallXz (f : FY)
  /-- FWCALL_REPLY (R428): System software replies to a parked fwcall.sys. -/
  | fwcallReply (core slot : Nat) (reply : W64)
  /-- LPUT (R439): Starts a bulk copy from local memory to a peer's memory. -/
  | lput (f : FT)
  /-- LGET (R439): Starts a bulk copy from a peer's memory to local memory. -/
  | lget (f : FT)
  /-- LINK_UNIT_COMPLETE (R439): One 128-byte unit of an lput or lget is performed at its destination. -/
  | linkUnitComplete (xfer : Nat)
  /-- SERVE (R419): System software serves a fault and the instruction replays. -/
  | serve (core slot : Nat)
  /-- FORWARD (R419): System software forwards a cause to the group's handler. -/
  | forward (core slot : Nat)
  /-- FAIL (R419): System software fails the context with FCAUSE and FADDR. -/
  | fail (core slot : Nat)
  /-- CONDITION_MET (R96): A parked wait's condition becomes true and the wait retires. -/
  | conditionMet (core slot : Nat)
  /-- LOAD_COMPLETE (R96): A fresh or restored group finishes loading and starts running. -/
  | loadComplete (core slot : Nat)
  /-- SAVE_COMPLETE (R96): A group's precise save completes and its slot is released. -/
  | saveComplete (core slot : Nat)
  /-- DISCARD_COMPLETE (R96): A discarded group ends or is recorded Saved at its region header. -/
  | discardComplete (core slot : Nat)
  /-- RESTORE (R411): A saved group is loaded into a free slot of its own core. -/
  | restore (gid slot : Nat)
  /-- SWAP_OUT_AT_JOIN (R246): The scheduler saves a group parked at join to make room for a record. -/
  | swapOutAtJoin (core slot : Nat)
  /-- SERVICE_COMPLETE (R393): Page service completes and every requester of the record retries. -/
  | serviceComplete (record : Nat)
  /-- SERVICE_FAILS (R396): Page service fails and every requester takes the failure. -/
  | serviceFails (record : Nat)
  /-- INVALIDATION (R392): System software requests invalidation of a virtual range's translations. -/
  | invalidation (ctx lo len : Nat)
  /-- INVALIDATION_COMPLETE (R392): Translations of the range are gone and old accesses are performed. -/
  | invalidationComplete (ctx lo len : Nat)
  /-- WATCHPOINT_SET (R423): System software sets a watchpoint of a context. -/
  | watchpointSet (ctx : Nat) (w : WatchArg)
  /-- UNCORRECTABLE_ERROR (R422): An uncorrectable soft error poisons a sector or item, or drops a cache copy. -/
  | uncorrectableError (at_ : ErrPlace)
  /-- DOORBELL_WRITE (R265): A doorbell write sets a host-fed queue's WIDX or stops it. -/
  | doorbellWrite (ctx q : Nat) (value : W64)
  /-- QUEUE_CREATE (R266): System software creates a queue from its descriptor. -/
  | queueCreate (ctx q : Nat)
  /-- QUEUE_RESTART (R266): System software writes STATE = 1 to resume a Stopped queue. -/
  | queueRestart (ctx q : Nat) (ridx : W64)
  /-- QUEUE_DESTROY (R266): System software destroys a queue, cancelling its uncompleted packets. -/
  | queueDestroy (ctx q : Nat)
  /-- LAUNCH_PACKET (R270): The command core consumes a LAUNCH packet and copies its record into the pool. -/
  | launchPacket (seq : SeqRef)
  /-- TASK_PACKET (R270): The command core consumes a TASK packet and builds a task record. -/
  | taskPacket (seq : SeqRef)
  /-- COPY_PACKET (R270): The command core starts a COPY of LEN bytes at de. -/
  | copyPacket (seq : SeqRef)
  /-- GRAPH_PACKET (R274): The command core starts a walk of a graph descriptor. -/
  | graphPacket (seq : SeqRef)
  /-- COND_PACKET (R275): Evaluates WORD and runs or skips its range. -/
  | condPacket (seq : SeqRef)
  /-- LOOP_PACKET (R275): Starts a loop that runs its range until the test fails or MAXIT is reached. -/
  | loopPacket (seq : SeqRef)
  /-- LOOP_ITERATION_END (R275): A loop body completes, PCTR is increased and the test is re-evaluated. -/
  | loopIterationEnd (run : Nat)
  /-- SIGNAL_PACKET (R270): Performs a store or atomic add with release at its scope. -/
  | signalPacket (seq : SeqRef)
  /-- WAIT_PACKET (R270): Waits until a word reaches a value or has bit 63 set. -/
  | waitPacket (seq : SeqRef)
  /-- COPY_RECORD_WRITE (R272): A finished COPY writes its completion record when the ring has room. -/
  | copyRecordWrite (run : Nat)
  /-- PACKET_COMPLETE (R276): A packet completes, releasing later packets and counters. -/
  | packetComplete (run : Nat)
  /-- POLICY_WRITE (R286): The command core replaces a policy-table entry whole. -/
  | policyWrite (ctx : Nat) (p : Policy)
  /-- ADMISSION (R290): The staging scheduler admits an admissible record to a core. -/
  | admission (die entry : Nat)
  /-- AGE_LIMIT (R291): A record waiting past its context's AGE is raised one class. -/
  | ageLimit (die entry : Nat)
  /-- STAGING_LANDING (R296): A staging request's bytes land, filling and pinning lines or tile rows. -/
  | stagingLanding (req : Nat)
  /-- STAGING_PROMOTION (R298): A staging request waiting 20 us in a queue is promoted to demand class. -/
  | stagingPromotion (req : Nat)
  /-- DISPATCH (R299): A bound group is dispatched once its working set is staged. -/
  | dispatch (core slot : Nat)
  /-- STAGING_DEADLINE (R300): SDL expires and the group is dispatched with staging still in flight. -/
  | stagingDeadline (core slot : Nat)
  /-- ISSUE_STARVATION (R303): An instruction ready for 64 cycles takes issue priority. -/
  | issueStarvation (core slot : Nat)
  /-- YIELD_EXPIRY (R130): The 64-cycle window after yield ends and the slot ranks normally again. -/
  | yieldExpiry (core slot : Nat)
  /-- HOT_FLAG_SET (R294): The management controller sets a core's hot flag on temperature or droop. -/
  | hotFlagSet (core : Nat)
  /-- HOT_FLAG_CLEAR (R294): The hot flag clears after 200 us below T_hot minus 6 C. -/
  | hotFlagClear (core : Nat)
  /-- SENSOR_SAMPLE (R22): The management controller publishes hot flags on the sensor feed every 1 us. -/
  | sensorSample
  /-- POWER_CAP_STEP (R449): Every 1 ms the controller lowers or raises core clocks by 100 MHz against package power. -/
  | powerCapStep (milliwatts : Nat)
  /-- BIND (R402): System software binds a partition of sectors. -/
  | bind (b : BindArg)
  /-- UNBIND (R402): System software unbinds a partition, scrubbing its state and optionally erasing memory. -/
  | unbind (fsect : Nat) (erase : Bool)
  /-- CREATE (R404): System software creates a context from its record. -/
  | create (ctx : Nat)
  /-- CONTEXT_BIND (R404): A created context is bound to its partition. -/
  | contextBind (ctx : Nat)
  /-- PRE_EMPT (R410): A pre-empt request saves or kills every group of a context and suspends its queues. -/
  | preEmpt (ctx : Nat)
  /-- SWITCH_COMPLETE (R404): A context's switch completes and it becomes Saved. -/
  | switchComplete (ctx : Nat)
  /-- RESUME (R404): A resume makes a Saved or Faulted context Runnable. -/
  | resume (ctx : Nat)
  /-- DESTROY (R405): A destroy discards all of a context's groups, records and objects. -/
  | destroy (ctx : Nat)
  /-- TEARDOWN_COMPLETE (R404): A destroyed context's teardown completes and it becomes Free. -/
  | teardownComplete (ctx : Nat)
  /-- PORT_ENABLE (R432): System software enables a fabric port and training starts. -/
  | portEnable (port : Nat)
  /-- PORT_DISABLE (R432): System software disables a fabric port. -/
  | portDisable (port : Nat)
  /-- TRAINING_ATTEMPT_END (R432): A training attempt succeeds or fails within 10 ms. -/
  | trainingAttemptEnd (port : Nat) (lanes : BitVec 4)
  /-- LANE_FAILURE (R432): A lane fails and the port retrains, resending flits on another port. -/
  | laneFailure (port : Nat) (lane : Nat)
  /-- CRC_RETRY_LIMIT (R432): More than 64 CRC retries in 1 ms send the port back to training. -/
  | crcRetryLimit (port : Nat)
  /-- FLIT_RETRY (R432): A flit that fails its CRC is sent again on the same port. -/
  | flitRetry (port : Nat)
  /-- ROUTING_TABLE_WRITE (R433): System software writes the pod number and routing table. -/
  | routingTableWrite (pod peer : Nat) (ports : BitVec 36)
  /-- HOST_LINK_TRAINING (R436): The host link trains to a rate and width or enters Fault. -/
  | hostLinkTraining (r : HostTraining)
  /-- INBOUND_ACCESS (R434): A peer or host access arrives as class l and is checked against the access table. -/
  | inboundAccess (a : InboundArg)
  /-- LINK_TIMEOUT (R437): A remote access gets no response within 50 us and fails with LINK. -/
  | linkTimeout (xfer : Nat)
  /-- ACCESS_TABLE_WRITE (R450): System software writes a target's access table. -/
  | accessTableWrite (e : AccessEntry)
  /-- ALARM (R451): A refused access or sensor raises an alarm that sets ALARM and acts under ALPOL. -/
  | alarm (fsect : Nat) (addr : Nat)
  /-- TAMPER_SENSOR (R450): A tamper, voltage or clock sensor raises an alarm for every bound partition. -/
  | tamperSensor
  /-- QUOTE (R452): A host requests a signed attestation quote over a nonce. -/
  | quote (nonce : ByMaster (List Byte))
  /-- CHECKPOINT (R453): System software checkpoints partitions' memory to host memory with a manifest. -/
  | checkpoint (parts : List (Nat × Nat))
  /-- CHECKPOINT_RESTORE (R453): System software copies a checkpoint back into a partition's memory. -/
  | checkpointRestore (fsect target : Nat)
  /-- COLD_RESET (R442): A cold reset sets the management page to its reset values. -/
  | coldReset
  /-- IMAGE_CHECK (R443): The device verifies a firmware image and starts the command cores if it passes. -/
  | imageCheck (image : ByMaster (List Byte)) (key : List Byte)
  /-- LTOL_WRITE (R448): A write of the latency tolerance changes the deepest power state allowed. -/
  | ltolWrite (value : ByMaster W32)
  /-- THOT_WRITE (R442): A write sets T_hot, ignoring values outside 70-105. -/
  | thotWrite (value : ByMaster Byte)
  /-- ALPOL_WRITE (R442): A write sets the alarm policy. -/
  | alpolWrite (value : ByMaster (BitVec 2))
  /-- ALARM_WRITE (R442): A write of ones clears ALARM bits. -/
  | alarmWrite (ones : ByMaster Byte)
  /-- MGMT_REGISTER_WRITE (R442): A write to a management register without its own row lands whole or is ignored. -/
  | mgmtRegisterWrite (offset : Nat) (value : ByMaster W64)
  /-- POWER_STATE_ENTRY (R448): The device enters the deepest power state whose condition and latency allow. -/
  | powerStateEntry
  /-- WAKE (R448): A wake event holds its access and starts exit from a power state. -/
  | wake (held : HeldAccess)
  /-- POWER_STATE_EXIT_COMPLETE (R448): Exit completes and the held access is performed. -/
  | powerStateExitComplete
  /-- VERTICAL_BLANK (R445): A head latches its descriptor and increments FLIPCTR at the start of a blank. -/
  | verticalBlank (head : Nat)
  /-- HEAD_DESCRIPTOR_SET (R445): System software names a head's descriptor address. -/
  | headDescriptorSet (head addr : Nat)
  /-- ENCODE_JOB (R447): System software submits an encode job to a sector's encoder. -/
  | encodeJob (sector addr : Nat)
  /-- ENCODE_COMPLETE (R447): An encode job ends and writes its completion record. -/
  | encodeComplete (sector : Nat) (bits : List Byte)
  /-- CORRECTABLE_SOFT_ERROR (R422): A correctable soft error in memory, a home slice, a unified store or an accumulator store is corrected and the telemetry counts change. -/
  | correctableSoftError (at_ : ErrPlace)
  deriving DecidableEq, Repr

/-- Whether a constructor is one of the device's own events, which no instruction word encodes. -/
def Instr.isEvent : Instr → Bool
  | .sadd _ => false
  | .ssub _ => false
  | .smul _ => false
  | .smulh _ => false
  | .sdiv _ => false
  | .srem _ => false
  | .smin _ => false
  | .smax _ => false
  | .sabs _ => false
  | .slea _ => false
  | .sand _ => false
  | .sor _ => false
  | .sxor _ => false
  | .sandn _ => false
  | .sshl _ => false
  | .sshr _ => false
  | .ssra _ => false
  | .srot _ => false
  | .sclz _ => false
  | .spop _ => false
  | .sbfx _ => false
  | .sbfi _ => false
  | .ssel _ => false
  | .smov _ => false
  | .scmp _ => false
  | .saddImm _ => false
  | .smulImm _ => false
  | .sminImm _ => false
  | .smaxImm _ => false
  | .sandImm _ => false
  | .sorImm _ => false
  | .sxorImm _ => false
  | .sshlImm _ => false
  | .sshrImm _ => false
  | .ssraImm _ => false
  | .srotImm _ => false
  | .sli _ => false
  | .slih _ => false
  | .scmpImm _ => false
  | .br _ => false
  | .brc _ => false
  | .brm _ => false
  | .call _ => false
  | .ret _ => false
  | .jt _ => false
  | .mif _ => false
  | .melse _ => false
  | .mend _ => false
  | .mloop _ => false
  | .exit _ => false
  | .yield _ => false
  | .nop _ => false
  | .vadd _ => false
  | .vsub _ => false
  | .vmul _ => false
  | .vmulh _ => false
  | .vmad _ => false
  | .vdiv _ => false
  | .vrem _ => false
  | .vmin _ => false
  | .vmax _ => false
  | .vabs _ => false
  | .vneg _ => false
  | .vand _ => false
  | .vor _ => false
  | .vxor _ => false
  | .vandn _ => false
  | .vnot _ => false
  | .vshl _ => false
  | .vshr _ => false
  | .vsra _ => false
  | .vclz _ => false
  | .vpop _ => false
  | .vbrev _ => false
  | .vsad _ => false
  | .vdot4 _ => false
  | .vmov _ => false
  | .vsel _ => false
  | .vbcast _ => false
  | .vlane _ => false
  | .vlaneGet _ => false
  | .vlanePut _ => false
  | .vli _ => false
  | .vaddImm _ => false
  | .vandImm _ => false
  | .vcmp _ => false
  | .fadd _ => false
  | .fsub _ => false
  | .fmul _ => false
  | .ffma _ => false
  | .fmin _ => false
  | .fmax _ => false
  | .fdiv _ => false
  | .fsqrt _ => false
  | .frcp _ => false
  | .frsq _ => false
  | .fexp2 _ => false
  | .flog2 _ => false
  | .fsin _ => false
  | .fcos _ => false
  | .frnd _ => false
  | .fcmp _ => false
  | .fclass _ => false
  | .fscale _ => false
  | .fsgn _ => false
  | .cvt _ => false
  | .vpack _ => false
  | .vunpk _ => false
  | .vdith _ => false
  | .vshfl _ => false
  | .vshflXor _ => false
  | .vrot _ => false
  | .vred _ => false
  | .vscan _ => false
  | .vballot _ => false
  | .vballotCnt _ => false
  | .vcompress _ => false
  | .vexpand _ => false
  | .pand _ => false
  | .por _ => false
  | .pxor _ => false
  | .pnot _ => false
  | .pset _ => false
  | .ld _ => false
  | .ldSigned _ => false
  | .ldu _ => false
  | .lduSigned _ => false
  | .st _ => false
  | .stu _ => false
  | .pref _ => false
  | .cwb _ => false
  | .cinv _ => false
  | .cwbi _ => false
  | .atom _ => false
  | .atomu _ => false
  | .red _ => false
  | .storeDrain _ _ => true
  | .lineOwnershipGrant _ _ => true
  | .lineEviction _ => true
  | .fence _ => false
  | .xfence _ => false
  | .talloc _ => false
  | .tfree _ => false
  | .tinfo _ => false
  | .tsetFull _ => false
  | .tsetEmpty _ => false
  | .twait _ => false
  | .tld _ => false
  | .tst _ => false
  | .tldw _ => false
  | .tldc _ => false
  | .tstw _ => false
  | .tcpi _ => false
  | .tcpo _ => false
  | .tcpm _ => false
  | .inboundWrite _ => true
  | .copyComplete _ => true
  | .mac _ => false
  | .macg _ => false
  | .azero _ => false
  | .amov _ => false
  | .aput _ => false
  | .aread _ => false
  | .sdfe _ => false
  | .sdfprune _ => false
  | .march _ => false
  | .mres _ => false
  | .mresume _ => false
  | .mcancel _ => false
  | .bsample _ => false
  | .rayStep _ _ _ => true
  | .vis _ => false
  | .visMerge _ => true
  | .rast _ => false
  | .triangleRaster _ => true
  | .drawComplete _ => true
  | .rproj _ => false
  | .fetch _ => false
  | .launch _ => false
  | .join _ => false
  | .hpass _ => false
  | .linfo _ => false
  | .barInit _ => false
  | .barArr _ => false
  | .barWait _ => false
  | .barSync _ => false
  | .barSyncPeer _ => false
  | .barDrop _ => false
  | .barDropPeer _ => false
  | .barPeer _ => false
  | .barGrid _ => false
  | .enq _ => false
  | .qfence _ => false
  | .cnt _ => false
  | .cntWait _ => false
  | .cancel _ => false
  | .mfs _ => false
  | .mts _ => false
  | .trap _ => false
  | .brk _ => false
  | .tret _ => false
  | .tretSkip _ => false
  | .fwcallSys _ => false
  | .fwcallXz _ => false
  | .fwcallReply _ _ _ => true
  | .lput _ => false
  | .lget _ => false
  | .linkUnitComplete _ => true
  | .serve _ _ => true
  | .forward _ _ => true
  | .fail _ _ => true
  | .conditionMet _ _ => true
  | .loadComplete _ _ => true
  | .saveComplete _ _ => true
  | .discardComplete _ _ => true
  | .restore _ _ => true
  | .swapOutAtJoin _ _ => true
  | .serviceComplete _ => true
  | .serviceFails _ => true
  | .invalidation _ _ _ => true
  | .invalidationComplete _ _ _ => true
  | .watchpointSet _ _ => true
  | .uncorrectableError _ => true
  | .doorbellWrite _ _ _ => true
  | .queueCreate _ _ => true
  | .queueRestart _ _ _ => true
  | .queueDestroy _ _ => true
  | .launchPacket _ => true
  | .taskPacket _ => true
  | .copyPacket _ => true
  | .graphPacket _ => true
  | .condPacket _ => true
  | .loopPacket _ => true
  | .loopIterationEnd _ => true
  | .signalPacket _ => true
  | .waitPacket _ => true
  | .copyRecordWrite _ => true
  | .packetComplete _ => true
  | .policyWrite _ _ => true
  | .admission _ _ => true
  | .ageLimit _ _ => true
  | .stagingLanding _ => true
  | .stagingPromotion _ => true
  | .dispatch _ _ => true
  | .stagingDeadline _ _ => true
  | .issueStarvation _ _ => true
  | .yieldExpiry _ _ => true
  | .hotFlagSet _ => true
  | .hotFlagClear _ => true
  | .sensorSample => true
  | .powerCapStep _ => true
  | .bind _ => true
  | .unbind _ _ => true
  | .create _ => true
  | .contextBind _ => true
  | .preEmpt _ => true
  | .switchComplete _ => true
  | .resume _ => true
  | .destroy _ => true
  | .teardownComplete _ => true
  | .portEnable _ => true
  | .portDisable _ => true
  | .trainingAttemptEnd _ _ => true
  | .laneFailure _ _ => true
  | .crcRetryLimit _ => true
  | .flitRetry _ => true
  | .routingTableWrite _ _ _ => true
  | .hostLinkTraining _ => true
  | .inboundAccess _ => true
  | .linkTimeout _ => true
  | .accessTableWrite _ => true
  | .alarm _ _ => true
  | .tamperSensor => true
  | .quote _ => true
  | .checkpoint _ => true
  | .checkpointRestore _ _ => true
  | .coldReset => true
  | .imageCheck _ _ => true
  | .ltolWrite _ => true
  | .thotWrite _ => true
  | .alpolWrite _ => true
  | .alarmWrite _ => true
  | .mgmtRegisterWrite _ _ => true
  | .powerStateEntry => true
  | .wake _ => true
  | .powerStateExitComplete => true
  | .verticalBlank _ => true
  | .headDescriptorSet _ _ => true
  | .encodeJob _ _ => true
  | .encodeComplete _ _ => true
  | .correctableSoftError _ => true

end Sys2Proof
end

