-- ==== Sys2Proof/Decode.lean ====
section
/-! DEFINITION. The decoder: a total function from a word to an instruction or to the low bit of the field that fails
(R70 to R91), the checks of each instruction's fields, and the encoder. -/

namespace Sys2Proof

/-- The fields of format V3, read from a word. -/
def V3.ofWord (w : W64) : V3 where
  pred := w.extractLsb' 52 4
  pneg := w.extractLsb' 51 1
  d := w.extractLsb' 43 8
  a := w.extractLsb' 35 8
  b := w.extractLsb' 27 8
  c := w.extractLsb' 19 8
  ty := w.extractLsb' 15 4
  rnd := w.extractLsb' 12 3
  sat := w.extractLsb' 11 1
  md := w.extractLsb' 5 6
  sub := w.extractLsb' 0 5

/-- The word with major opcode op and these fields. -/
def V3.toWord (op : Byte) (f : V3) : W64 :=
  op ++ f.pred ++ f.pneg ++ f.d ++ f.a ++ f.b ++ f.c ++ f.ty ++ f.rnd ++ f.sat ++ f.md ++ f.sub

/-- The fields of format VI, read from a word. -/
def VI.ofWord (w : W64) : VI where
  pred := w.extractLsb' 52 4
  d := w.extractLsb' 44 8
  a := w.extractLsb' 36 8
  ty := w.extractLsb' 32 4
  imm := w.extractLsb' 0 32

/-- The word with major opcode op and these fields. -/
def VI.toWord (op : Byte) (f : VI) : W64 :=
  op ++ f.pred ++ f.d ++ f.a ++ f.ty ++ f.imm

/-- The fields of format S3, read from a word. -/
def S3.ofWord (w : W64) : S3 where
  d := w.extractLsb' 50 6
  a := w.extractLsb' 44 6
  b := w.extractLsb' 38 6
  c := w.extractLsb' 32 6
  ty := w.extractLsb' 28 4
  fn := w.extractLsb' 24 4
  sat := w.extractLsb' 23 1
  f1 := w.extractLsb' 17 6
  f2 := w.extractLsb' 11 6
  rsv := w.extractLsb' 0 11

/-- The word with major opcode op and these fields. -/
def S3.toWord (op : Byte) (f : S3) : W64 :=
  op ++ f.d ++ f.a ++ f.b ++ f.c ++ f.ty ++ f.fn ++ f.sat ++ f.f1 ++ f.f2 ++ f.rsv

/-- The fields of format SI, read from a word. -/
def SI.ofWord (w : W64) : SI where
  d := w.extractLsb' 50 6
  a := w.extractLsb' 44 6
  fn := w.extractLsb' 40 4
  imm := w.extractLsb' 0 40

/-- The word with major opcode op and these fields. -/
def SI.toWord (op : Byte) (f : SI) : W64 :=
  op ++ f.d ++ f.a ++ f.fn ++ f.imm

/-- The fields of format FB, read from a word. -/
def FB.ofWord (w : W64) : FB where
  hint := w.extractLsb' 54 2
  s := w.extractLsb' 48 6
  p := w.extractLsb' 44 4
  pneg := w.extractLsb' 43 1
  cond := w.extractLsb' 40 3
  rsv := w.extractLsb' 32 8
  off := w.extractLsb' 0 32

/-- The word with major opcode op and these fields. -/
def FB.toWord (op : Byte) (f : FB) : W64 :=
  op ++ f.hint ++ f.s ++ f.p ++ f.pneg ++ f.cond ++ f.rsv ++ f.off

/-- The fields of format FM, read from a word. -/
def FM.ofWord (w : W64) : FM where
  pred := w.extractLsb' 52 4
  d := w.extractLsb' 44 8
  sb := w.extractLsb' 38 6
  vx := w.extractLsb' 32 6
  scale := w.extractLsb' 30 2
  width := w.extractLsb' 28 2
  scope := w.extractLsb' 24 4
  cache := w.extractLsb' 22 2
  off := w.extractLsb' 0 22

/-- The word with major opcode op and these fields. -/
def FM.toWord (op : Byte) (f : FM) : W64 :=
  op ++ f.pred ++ f.d ++ f.sb ++ f.vx ++ f.scale ++ f.width ++ f.scope ++ f.cache ++ f.off

/-- The fields of format MA, read from a word. -/
def MA.ofWord (w : W64) : MA where
  pred := w.extractLsb' 52 4
  d := w.extractLsb' 44 8
  sb := w.extractLsb' 38 6
  vx := w.extractLsb' 32 6
  scale := w.extractLsb' 30 2
  width := w.extractLsb' 28 2
  scope := w.extractLsb' 24 4
  ord := w.extractLsb' 22 2
  aop := w.extractLsb' 18 4
  off := w.extractLsb' 0 18

/-- The word with major opcode op and these fields. -/
def MA.toWord (op : Byte) (f : MA) : W64 :=
  op ++ f.pred ++ f.d ++ f.sb ++ f.vx ++ f.scale ++ f.width ++ f.scope ++ f.ord ++ f.aop ++ f.off

/-- The fields of format FT, read from a word. -/
def FT.ofWord (w : W64) : FT where
  pred := w.extractLsb' 52 4
  d := w.extractLsb' 44 8
  h := w.extractLsb' 38 6
  i := w.extractLsb' 32 6
  j := w.extractLsb' 24 8
  ty := w.extractLsb' 20 4
  mode := w.extractLsb' 18 2
  lvl := w.extractLsb' 17 1
  b := w.extractLsb' 11 6
  imm := w.extractLsb' 0 11

/-- The word with major opcode op and these fields. -/
def FT.toWord (op : Byte) (f : FT) : W64 :=
  op ++ f.pred ++ f.d ++ f.h ++ f.i ++ f.j ++ f.ty ++ f.mode ++ f.lvl ++ f.b ++ f.imm

/-- The fields of format FX, read from a word. -/
def FX.ofWord (w : W64) : FX where
  pred := w.extractLsb' 52 4
  ad := w.extractLsb' 50 2
  as_ := w.extractLsb' 48 2
  va := w.extractLsb' 40 8
  vb := w.extractLsb' 32 8
  sh := w.extractLsb' 26 6
  km1 := w.extractLsb' 21 5
  wf := w.extractLsb' 17 4
  vs := w.extractLsb' 9 8
  bsel := w.extractLsb' 7 2
  rnd := w.extractLsb' 4 3
  adv := w.extractLsb' 3 1
  sat := w.extractLsb' 2 1
  osc := w.extractLsb' 1 1
  rsv := w.extractLsb' 0 1

/-- The word with major opcode op and these fields. -/
def FX.toWord (op : Byte) (f : FX) : W64 :=
  op ++ f.pred ++ f.ad ++ f.as_ ++ f.va ++ f.vb ++ f.sh ++ f.km1 ++ f.wf ++ f.vs ++ f.bsel ++ f.rnd ++ f.adv ++ f.sat ++ f.osc ++ f.rsv

/-- The fields of format FK, read from a word. -/
def FK.ofWord (w : W64) : FK where
  pred := w.extractLsb' 52 4
  vd := w.extractLsb' 44 8
  va := w.extractLsb' 36 8
  sa := w.extractLsb' 30 6
  sb := w.extractLsb' 24 6
  mode := w.extractLsb' 20 4
  imm := w.extractLsb' 0 20

/-- The word with major opcode op and these fields. -/
def FK.toWord (op : Byte) (f : FK) : W64 :=
  op ++ f.pred ++ f.vd ++ f.va ++ f.sa ++ f.sb ++ f.mode ++ f.imm

/-- The fields of format FY, read from a word. -/
def FY.ofWord (w : W64) : FY where
  d := w.extractLsb' 50 6
  a := w.extractLsb' 44 6
  b := w.extractLsb' 38 6
  scope := w.extractLsb' 34 4
  fn := w.extractLsb' 30 4
  cls1 := w.extractLsb' 24 6
  cls2 := w.extractLsb' 18 6
  ord := w.extractLsb' 16 2
  imm := w.extractLsb' 0 16

/-- The word with major opcode op and these fields. -/
def FY.toWord (op : Byte) (f : FY) : W64 :=
  op ++ f.d ++ f.a ++ f.b ++ f.scope ++ f.fn ++ f.cls1 ++ f.cls2 ++ f.ord ++ f.imm

/-! ## Type codes and register fields (R25, R66, R67, R132) -/

/-- Set W: .i32 and .n32. -/
def tyW (t : BitVec 4) : Bool := t == 2 || t == 6
/-- Set H: .i16 and .n16. -/
def tyH (t : BitVec 4) : Bool := t == 1 || t == 5
/-- Set B: .i8 and .n8. -/
def tyB (t : BitVec 4) : Bool := t == 0 || t == 4
/-- Set L: .i64 and .n64. -/
def tyL (t : BitVec 4) : Bool := t == 3 || t == 7
/-- Set F: .f32, .f16 and .bf16. -/
def tyF (t : BitVec 4) : Bool := t == 8 || t == 9 || t == 10
/-- Sets W and H. -/
def tyWH (t : BitVec 4) : Bool := tyW t || tyH t
/-- Sets W and L. -/
def tyWL (t : BitVec 4) : Bool := tyW t || tyL t
/-- Sets W, H and L. -/
def tyWHL (t : BitVec 4) : Bool := tyW t || tyH t || tyL t
/-- The signed types of vabs and vneg (R136). -/
def tyS (t : BitVec 4) : Bool := t == 1 || t == 2 || t == 3
/-- Sets M and L. -/
def tyML (t : BitVec 4) : Bool := tyW t || tyH t || tyF t || tyL t
/-- The types of vli (R141). -/
def liTy (t : BitVec 4) : Bool := tyW t || tyH t || tyF t
/-- The types of S3: .i64 and .n64 (R73). -/
def sTy (t : BitVec 4) : Bool := t == 3 || t == 7
/-- 64-bit types. -/
def is64 (t : BitVec 4) : Bool := t == 3 || t == 7
/-- Floating-point type codes 0x8 to 0xC. -/
def isFl (t : BitVec 4) : Bool := 8 ≤ t.toNat && t.toNat ≤ 12
/-- Width of a type in bits (R25); .t5 counts 8 bits for 5 elements and is not a width of one element. -/
def tyBits (t : BitVec 4) : Nat :=
  match t.toNat with
  | 0 => 8 | 1 => 16 | 2 => 32 | 3 => 64 | 4 => 8 | 5 => 16 | 6 => 32 | 7 => 64
  | 8 => 32 | 9 => 16 | 10 => 16 | 11 => 8 | 12 => 8 | 13 => 4 | 14 => 2 | _ => 8

/-- A 6-bit field that must be 0. -/
def z6 (x : BitVec 6) : Bool := x == 0
/-- An 8-bit field that must be 0. -/
def z8 (x : Byte) : Bool := x == 0
/-- An 8-bit field that names a predicate (R66). -/
def isP (x : Byte) : Bool := x.toNat < 16
/-- An 8-bit field that names a scalar register (R66). -/
def isS (x : Byte) : Bool := x.toNat < 64
/-- An aligned pair where c holds (R67). -/
def evenIf (c : Bool) (x : Byte) : Bool := !c || x.toNat % 2 == 0
/-- Under set L every vector operand is an aligned pair (R132). The pair rule is applied only where the entry accepts set L, so that
an unaccepted TYPE is itself the field that fails (DEDUCED: log 5). -/
def pr2 (ty : BitVec 4) (x : Byte) : Bool := evenIf (tyL ty) x
/-- A rounding code other than dither and the reserved ones (R43). -/
def rndOk (r : BitVec 3) : Bool := r.toNat < 4
/-- F1 + L is at most 64, with L = 64 for F2 = 0 (R113, R114). -/
def fieldFits (f1 f2 : BitVec 6) : Bool := f1.toNat + (if f2 == 0 then 64 else f2.toNat) ≤ 64
/-- Scope codes gp to sy (R171). -/
def scGp (s : BitVec 4) : Bool := 1 ≤ s.toNat && s.toNat < 12

/-! ## Checks that take several fields together (R91: they fail at the highest of them) -/

/-- The source type of cvt, vpack and vunpk: SUB[3:0] (R151, R153, R154). -/
def srcTy (f : V3) : BitVec 4 := f.sub.extractLsb' 0 4
/-- A floating-point destination at least as wide in both exponent and fraction: an exact conversion (R152). -/
def widens (s d : BitVec 4) : Bool := tyBits s < tyBits d
/-- TYPE of cvt: codes 0 to 12, not equal to the source, and a rounding or .sat that the kind of conversion accepts
(R151, R152). DEDUCED: a rounding or .sat refused only by the kind fails at TYPE (log 5). A conversion to .q4 rounds in RND from an
integer source too (R153). DESIGN CHOICE: SAT = 1 is accepted with a .q4 destination of vpack, and of vdith, where it changes nothing, since
the conversion clamps in any case and R153 has no SAT column (log 66). -/
def cvtKindOk (f : V3) : Bool :=
  let s := srcTy f; let d := f.ty
  let exact := (!isFl s && !isFl d && d != 13) || (isFl s && isFl d && widens s d)
  let satOk := (!isFl s && !isFl d) || (isFl s && (!isFl d || !widens s d))
  (f.rnd == 0 || f.rnd.toNat ≥ 5 || !exact) && (f.sat == 0 || satOk)
/-- As cvtKindOk, when TYPE and SUB are both conversion codes. -/
def cvtTyOk (f : V3) : Bool := f.ty.toNat < 13 && ((srcTy f).toNat ≥ 13 || (f.ty != srcTy f && cvtKindOk f))
/-- RND of cvt and vpack: a mode of R43, and dither where SUB[4], .adv, is 1 (R156). -/
def rndAdvOk (f : V3) : Bool := f.rnd.toNat < 5 && (f.sub.toNat < 16 || f.rnd == 4)
/-- MOD of cvt and vpack: on A, and only for a floating-point source (R134). -/
def cvtMdOk (f : V3) : Bool := f.md &&& 0x0F == 0 && (f.md == 0 || isFl (srcTy f))
/-- Number of source registers of vpack by destination (R153). -/
def packN (t : BitVec 4) : Nat :=
  match t.toNat with
  | 1 => 2 | 5 => 2 | 9 => 2 | 10 => 2 | 0 => 4 | 4 => 4 | 11 => 4 | 12 => 4 | 13 => 8 | _ => 1
/-- Destinations of vpack (R153). -/
def packDst (t : BitVec 4) : Bool := packN t != 1
/-- Sources of vpack (R153). -/
def packSrc (t : BitVec 4) : Bool := t == 2 || t == 6 || t == 8
/-- TYPE of vpack (R153). -/
def packTyOk (f : V3) : Bool := packDst f.ty && (!packSrc (srcTy f) || cvtKindOk f)
/-- TYPE of vunpk (R154). -/
def unpkTyOk (f : V3) : Bool :=
  let s := srcTy f
  f.ty == 8 || (tyW f.ty && (!packDst s || s == 0 || s == 1 || s == 4 || s == 5 || s == 13))
/-- TYPE of vdith (R155). DESIGN CHOICE: MOD is accepted on vdith's A, an .f32 source (R134), and not on vunpk's, whose entry
decodes packed elements (log 66). -/
def dithTy (t : BitVec 4) : Bool := t == 0 || t == 1 || t == 4 || t == 5 || (9 ≤ t.toNat && t.toNat ≤ 13)
/-- TYPE of vred and vscan (R158, R159): an .f32 takes no bitwise operation and no SAT, an integer no rounding and no MOD.
DESIGN CHOICE: MOD on A is accepted for vscan as R158 states it for vred; any rounding of R43 is accepted on .f32 .min and .max, which do
not round; and a nonzero RND is rejected for an integer type, whose sums are exact, where the entry names rounding and does not say that
RND must be 0 there (log 66). -/
def redTyOk (f : V3) (op : BitVec 5) (scan : Bool) : Bool :=
  if f.ty == 8 then !(3 ≤ op.toNat && op.toNat ≤ 5) && !(scan && f.sat == 1)
  else tyW f.ty && (f.rnd == 0 || !rndOk f.rnd) && f.md &&& 0x30 == 0
/-- WIDTH of an atomic: 4 or 8 bytes, and 4 for the FP32 operations (R75, R87). -/
def atomW (f : MA) : Bool := f.width == 2 || (f.width == 3 && !(10 ≤ f.aop.toNat && f.aop.toNat ≤ 12))
/-- Data registers of atom and red (R182), under an AOP and a WIDTH that the instruction accepts. cas: it accepts .cas. -/
def atomD (f : MA) (cas : Bool) : Bool :=
  f.d.toNat % ((if cas && f.aop == 9 then 2 else 1) * (if f.width == 3 && atomW f then 2 else 1)) == 0
/-- TYPE of talloc (R192). -/
def tallocTy (f : FT) : Bool :=
  (f.ty != 15 || f.lvl == 1) && (f.mode != 1 || f.ty == 2 || f.ty == 6 || f.ty == 8)
/-- TYPE of tld, tst and aread (R199, R321). -/
def tileTy (t : BitVec 4) : Bool := t.toNat < 13 && t != 3 && t != 7
/-- TYPE of the tagged forms and aput (R199, R321). -/
def wordTy (t : BitVec 4) : Bool := t == 2 || t == 6 || t == 8
/-- Weight types of mac and macg (R78). -/
def wfOk (t : BitVec 4) : Bool := t == 0 || t == 13 || t == 14 || t == 15
/-- Alignment of the weight fragment (R310). -/
def fragN (t : BitVec 4) : Nat := match t.toNat with | 0 => 4 | 13 => 2 | _ => 1
/-- Alignment of aread's destination (R325), under a WF that aread accepts. -/
def areadN (t : BitVec 4) : Nat := if !tileTy t then 1 else match tyBits t with | 8 => 2 | 16 => 4 | _ => 8
/-- IMM16 of cnt and cancel: a level of 0 to 4, and no bit at or above the bound (R281). -/
def cntImm (f : FY) (bound : Nat) : Bool := (f.imm &&& 7).toNat < 5 && f.imm.toNat < bound

/-! ## The checks of a format, field by field in descending order of their low bit (R91) -/

/-- Low bit of the first failing field. -/
def firstBad : List (Nat × Bool) → Option Nat
  | [] => none
  | (b, ok) :: rest => if ok then firstBad rest else some b

/-- Checks of format V3. pr: the instruction takes a predicate. -/
def chkV3 (f : V3) (pr d a b c ty rnd sat md sub : Bool) : List (Nat × Bool) :=
  [(52, pr || f.pred == 0), (51, pr || f.pneg == 0), (43, d), (35, a), (27, b), (19, c), (15, ty), (12, rnd), (11, sat), (5, md), (0, sub)]
/-- Checks of format VI. -/
def chkVI (f : VI) (pr d a ty : Bool) : List (Nat × Bool) := [(52, pr || f.pred == 0), (44, d), (36, a), (32, ty)]
/-- Checks of format S3. -/
def chkS3 (f : S3) (a b c ty fn sat f1 f2 : Bool) : List (Nat × Bool) :=
  [(44, a), (38, b), (32, c), (28, ty), (24, fn), (23, sat), (17, f1), (11, f2), (0, f.rsv == 0)]
/-- Checks of format SI. -/
def chkSI (_f : SI) (a fn imm : Bool) : List (Nat × Bool) := [(44, a), (40, fn), (0, imm)]
/-- Checks of format B (R118). -/
def chkFB (f : FB) (hint s p cond off : Bool) : List (Nat × Bool) :=
  [(54, hint || f.hint == 0), (48, s || f.s == 0), (44, p || f.p == 0), (43, p || f.pneg == 0), (40, cond), (32, f.rsv == 0), (0, off || f.off == 0)]
/-- Checks of format M. -/
def chkFM (f : FM) (pr d vx scale width scope cache : Bool) : List (Nat × Bool) :=
  [(52, pr || f.pred == 0), (44, d), (32, vx), (30, scale), (28, width), (24, scope), (22, cache)]
/-- Checks of the atomic layout. -/
def chkMA (f : MA) (pr d vx scale width ord aop : Bool) : List (Nat × Bool) :=
  [(52, pr || f.pred == 0), (44, d), (32, vx), (30, scale), (28, width), (24, scGp f.scope), (22, ord), (18, aop)]
/-- Checks of format T. -/
def chkFT (f : FT) (pr d h i j ty mode lvl b imm : Bool) : List (Nat × Bool) :=
  [(52, pr || f.pred == 0), (44, d), (38, h), (32, i), (24, j), (20, ty), (18, mode), (17, lvl), (11, b), (0, imm)]
/-- Checks of format X (R321). -/
def chkFX (f : FX) (as_ va vb sh km1 wf vs bsel rnd adv sat osc : Bool) : List (Nat × Bool) :=
  [(48, as_), (40, va), (32, vb), (26, sh), (21, km1), (17, wf), (9, vs), (7, bsel), (4, rnd), (3, adv), (2, sat), (1, osc), (0, f.rsv == 0)]
/-- Checks of format K. -/
def chkFK (f : FK) (pr vd va sa sb mode imm : Bool) : List (Nat × Bool) :=
  [(52, pr || f.pred == 0), (44, vd), (36, va), (30, sa), (24, sb), (20, mode), (0, imm)]
/-- Checks of format Y. -/
def chkFY (_f : FY) (d a b scope fn cls1 cls2 ord imm : Bool) : List (Nat × Bool) :=
  [(50, d), (44, a), (38, b), (34, scope), (30, fn), (24, cls1), (18, cls2), (16, ord), (0, imm)]

/-- Low bit of the first field that breaks the instruction's entry (R70, R90, R91 stage 2); none for a well-formed one.
Events are no words and have none. -/
def Instr.badField : Instr → Option Nat
  | .sadd f => firstBad (chkS3 f true true (z6 f.c) (sTy f.ty) (f.fn == 0) true (z6 f.f1) (z6 f.f2))
  | .ssub f => firstBad (chkS3 f true true (z6 f.c) (sTy f.ty) (f.fn == 1) true (z6 f.f1) (z6 f.f2))
  | .smul f => firstBad (chkS3 f true true (z6 f.c) (sTy f.ty) (f.fn == 2) true (z6 f.f1) (z6 f.f2))
  | .smulh f => firstBad (chkS3 f true true (z6 f.c) (sTy f.ty) (f.fn == 3) (f.sat == 0) (z6 f.f1) (z6 f.f2))
  | .sdiv f => firstBad (chkS3 f true true (z6 f.c) (sTy f.ty) (f.fn == 4) (f.sat == 0) (z6 f.f1) (z6 f.f2))
  | .srem f => firstBad (chkS3 f true true (z6 f.c) (sTy f.ty) (f.fn == 5) (f.sat == 0) (z6 f.f1) (z6 f.f2))
  | .smin f => firstBad (chkS3 f true true (z6 f.c) (sTy f.ty) (f.fn == 6) (f.sat == 0) (z6 f.f1) (z6 f.f2))
  | .smax f => firstBad (chkS3 f true true (z6 f.c) (sTy f.ty) (f.fn == 7) (f.sat == 0) (z6 f.f1) (z6 f.f2))
  | .sabs f => firstBad (chkS3 f true (z6 f.b) (z6 f.c) (f.ty == 3) (f.fn == 8) true (z6 f.f1) (z6 f.f2))
  | .slea f => firstBad (chkS3 f true true (z6 f.c) (sTy f.ty) (f.fn == 9) (f.sat == 0) (true) (z6 f.f2))
  | .sand f => firstBad (chkS3 f true true (z6 f.c) (sTy f.ty) (f.fn == 0) (f.sat == 0) (z6 f.f1) (z6 f.f2))
  | .sor f => firstBad (chkS3 f true true (z6 f.c) (sTy f.ty) (f.fn == 1) (f.sat == 0) (z6 f.f1) (z6 f.f2))
  | .sxor f => firstBad (chkS3 f true true (z6 f.c) (sTy f.ty) (f.fn == 2) (f.sat == 0) (z6 f.f1) (z6 f.f2))
  | .sandn f => firstBad (chkS3 f true true (z6 f.c) (sTy f.ty) (f.fn == 3) (f.sat == 0) (z6 f.f1) (z6 f.f2))
  | .sshl f => firstBad (chkS3 f true true (z6 f.c) (sTy f.ty) (f.fn == 4) (f.sat == 0) (z6 f.f1) (z6 f.f2))
  | .sshr f => firstBad (chkS3 f true true (z6 f.c) (sTy f.ty) (f.fn == 5) (f.sat == 0) (z6 f.f1) (z6 f.f2))
  | .ssra f => firstBad (chkS3 f true true (z6 f.c) (sTy f.ty) (f.fn == 6) (f.sat == 0) (z6 f.f1) (z6 f.f2))
  | .srot f => firstBad (chkS3 f true true (z6 f.c) (sTy f.ty) (f.fn == 7) (f.sat == 0) (z6 f.f1) (z6 f.f2))
  | .sclz f => firstBad (chkS3 f true (z6 f.b) (z6 f.c) (sTy f.ty) (f.fn == 8) (f.sat == 0) (z6 f.f1) (z6 f.f2))
  | .spop f => firstBad (chkS3 f true (z6 f.b) (z6 f.c) (sTy f.ty) (f.fn == 9) (f.sat == 0) (z6 f.f1) (z6 f.f2))
  | .sbfx f => firstBad (chkS3 f true (z6 f.b) (z6 f.c) (sTy f.ty) (f.fn == 10) (f.sat == 0) (fieldFits f.f1 f.f2) (true))
  | .sbfi f => firstBad (chkS3 f true true (z6 f.c) (sTy f.ty) (f.fn == 11) (f.sat == 0) (fieldFits f.f1 f.f2) (true))
  | .ssel f => firstBad (chkS3 f true true true (sTy f.ty) (f.fn == 12) (f.sat == 0) (z6 f.f1) (z6 f.f2))
  | .smov f => firstBad (chkS3 f true (z6 f.b) (z6 f.c) (sTy f.ty) (f.fn == 13) (f.sat == 0) (z6 f.f1) (z6 f.f2))
  | .scmp f => firstBad (chkS3 f true true (z6 f.c) (sTy f.ty) (f.fn.toNat < 6) (f.sat == 0) (z6 f.f1) (z6 f.f2))
  | .saddImm f => firstBad (chkSI f true (f.fn == 0) true)
  | .smulImm f => firstBad (chkSI f true (f.fn == 1) true)
  | .sminImm f => firstBad (chkSI f true (f.fn == 2) true)
  | .smaxImm f => firstBad (chkSI f true (f.fn == 3) true)
  | .sandImm f => firstBad (chkSI f true (f.fn == 4) true)
  | .sorImm f => firstBad (chkSI f true (f.fn == 5) true)
  | .sxorImm f => firstBad (chkSI f true (f.fn == 6) true)
  | .sshlImm f => firstBad (chkSI f true (f.fn == 7) (f.imm.toNat < 64))
  | .sshrImm f => firstBad (chkSI f true (f.fn == 8) (f.imm.toNat < 64))
  | .ssraImm f => firstBad (chkSI f true (f.fn == 9) (f.imm.toNat < 64))
  | .srotImm f => firstBad (chkSI f true (f.fn == 10) (f.imm.toNat < 64))
  | .sli f => firstBad (chkSI f (z6 f.a) (f.fn == 0) true)
  | .slih f => firstBad (chkSI f true (f.fn == 0) (f.imm.toNat < 2 ^ 24))
  | .scmpImm f => firstBad (chkSI f true (f.fn.toNat < 6) true)
  | .br f => firstBad (chkFB f true false false (f.cond == 0) true)
  | .brc f => firstBad (chkFB f true true false (f.cond.toNat < 6) true)
  | .brm f => firstBad (chkFB f true false true (f.cond.toNat < 4) true)
  | .call f => firstBad (chkFB f true true false (f.cond == 0) true)
  | .ret f => firstBad (chkFB f true true false (f.cond == 0) false)
  | .jt f => firstBad (chkFB f true true false (f.cond == 0) true)
  | .mif f => firstBad (chkFB f false false true (f.cond == 0) false)
  | .melse f => firstBad (chkFB f false false false (f.cond == 0) false)
  | .mend f => firstBad (chkFB f false false false (f.cond == 0) false)
  | .mloop f => firstBad (chkFB f true false true (f.cond == 0) true)
  | .exit f => firstBad (chkFB f false false false (f.cond == 0) false)
  | .yield f => firstBad (chkFB f false false false (f.cond == 0) false)
  | .nop f => firstBad (chkFB f false false false (f.cond == 0) false)
  | .vadd f => firstBad (chkV3 f true (pr2 f.ty f.d) (pr2 f.ty f.a) (pr2 f.ty f.b) (z8 f.c) (tyWHL f.ty) (f.rnd == 0) true (f.md == 0) (f.sub == 0))
  | .vsub f => firstBad (chkV3 f true (pr2 f.ty f.d) (pr2 f.ty f.a) (pr2 f.ty f.b) (z8 f.c) (tyWHL f.ty) (f.rnd == 0) true (f.md == 0) (f.sub == 0))
  | .vmul f => firstBad (chkV3 f true true true true (z8 f.c) (tyWH f.ty) (f.rnd == 0) true (f.md == 0) (f.sub == 0))
  | .vmulh f => firstBad (chkV3 f true true true true (z8 f.c) (tyWH f.ty) (f.rnd == 0) (f.sat == 0) (f.md == 0) (f.sub == 0))
  | .vmad f => firstBad (chkV3 f true true true true true (tyWH f.ty) (f.rnd == 0) true (f.md == 0) (f.sub == 0))
  | .vdiv f => firstBad (chkV3 f true true true true (z8 f.c) (tyW f.ty) (f.rnd == 0) (f.sat == 0) (f.md == 0) (f.sub == 0))
  | .vrem f => firstBad (chkV3 f true true true true (z8 f.c) (tyW f.ty) (f.rnd == 0) (f.sat == 0) (f.md == 0) (f.sub == 0))
  | .vmin f => firstBad (chkV3 f true (pr2 f.ty f.d) (pr2 f.ty f.a) (pr2 f.ty f.b) (z8 f.c) (tyWHL f.ty) (f.rnd == 0) (f.sat == 0) (f.md == 0) (f.sub == 0))
  | .vmax f => firstBad (chkV3 f true (pr2 f.ty f.d) (pr2 f.ty f.a) (pr2 f.ty f.b) (z8 f.c) (tyWHL f.ty) (f.rnd == 0) (f.sat == 0) (f.md == 0) (f.sub == 0))
  | .vabs f => firstBad (chkV3 f true (evenIf (f.ty == 3) f.d) (evenIf (f.ty == 3) f.a) (z8 f.b) (z8 f.c) (tyS f.ty) (f.rnd == 0) true (f.md == 0) (f.sub == 0))
  | .vneg f => firstBad (chkV3 f true (evenIf (f.ty == 3) f.d) (evenIf (f.ty == 3) f.a) (z8 f.b) (z8 f.c) (tyS f.ty) (f.rnd == 0) true (f.md == 0) (f.sub == 0))
  | .vand f => firstBad (chkV3 f true (pr2 f.ty f.d) (pr2 f.ty f.a) (pr2 f.ty f.b) (z8 f.c) (tyWL f.ty) (f.rnd == 0) (f.sat == 0) (f.md == 0) (f.sub == 0))
  | .vor f => firstBad (chkV3 f true (pr2 f.ty f.d) (pr2 f.ty f.a) (pr2 f.ty f.b) (z8 f.c) (tyWL f.ty) (f.rnd == 0) (f.sat == 0) (f.md == 0) (f.sub == 0))
  | .vxor f => firstBad (chkV3 f true (pr2 f.ty f.d) (pr2 f.ty f.a) (pr2 f.ty f.b) (z8 f.c) (tyWL f.ty) (f.rnd == 0) (f.sat == 0) (f.md == 0) (f.sub == 0))
  | .vandn f => firstBad (chkV3 f true (pr2 f.ty f.d) (pr2 f.ty f.a) (pr2 f.ty f.b) (z8 f.c) (tyWL f.ty) (f.rnd == 0) (f.sat == 0) (f.md == 0) (f.sub == 0))
  | .vnot f => firstBad (chkV3 f true (pr2 f.ty f.d) (pr2 f.ty f.a) (z8 f.b) (z8 f.c) (tyWL f.ty) (f.rnd == 0) (f.sat == 0) (f.md == 0) (f.sub == 0))
  | .vshl f => firstBad (chkV3 f true (pr2 f.ty f.d) (pr2 f.ty f.a) (pr2 f.ty f.b) (z8 f.c) (tyWHL f.ty) (f.rnd == 0) (f.sat == 0) (f.md == 0) (f.sub == 0))
  | .vshr f => firstBad (chkV3 f true (pr2 f.ty f.d) (pr2 f.ty f.a) (pr2 f.ty f.b) (z8 f.c) (tyWHL f.ty) (f.rnd == 0) (f.sat == 0) (f.md == 0) (f.sub == 0))
  | .vsra f => firstBad (chkV3 f true (pr2 f.ty f.d) (pr2 f.ty f.a) (pr2 f.ty f.b) (z8 f.c) (tyWHL f.ty) (f.rnd == 0) (f.sat == 0) (f.md == 0) (f.sub == 0))
  | .vclz f => firstBad (chkV3 f true true true (z8 f.b) (z8 f.c) (tyWH f.ty) (f.rnd == 0) (f.sat == 0) (f.md == 0) (f.sub == 0))
  | .vpop f => firstBad (chkV3 f true true true (z8 f.b) (z8 f.c) (tyWH f.ty) (f.rnd == 0) (f.sat == 0) (f.md == 0) (f.sub == 0))
  | .vbrev f => firstBad (chkV3 f true true true (z8 f.b) (z8 f.c) (tyWH f.ty) (f.rnd == 0) (f.sat == 0) (f.md == 0) (f.sub == 0))
  | .vsad f => firstBad (chkV3 f true true true true true (tyB f.ty) (f.rnd == 0) (f.sat == 0) (f.md == 0) (f.sub == 0))
  | .vdot4 f => firstBad (chkV3 f true true true true true (tyB f.ty) (f.rnd == 0) true (f.md == 0) (f.sub == 0))
  | .vmov f => firstBad (chkV3 f true (pr2 f.ty f.d) (pr2 f.ty f.a) (z8 f.b) (z8 f.c) (tyML f.ty && (f.md &&& 0x30 == 0 || tyF f.ty)) (f.rnd == 0) (f.sat == 0) (f.md &&& 0x0F == 0) (f.sub == 0))
  | .vsel f => firstBad (chkV3 f true (pr2 f.ty f.d) (pr2 f.ty f.a) (pr2 f.ty f.b) (isP f.c) (tyML f.ty) (f.rnd == 0) (f.sat == 0) (f.md == 0) (f.sub == 0))
  | .vbcast f => firstBad (chkV3 f true (pr2 f.ty f.d) (isS f.a) (z8 f.b) (z8 f.c) (tyW f.ty || f.ty == 8 || tyL f.ty) (f.rnd == 0) (f.sat == 0) (f.md == 0) (f.sub == 0))
  | .vlane f => firstBad (chkV3 f true true (z8 f.a) (z8 f.b) (z8 f.c) (f.ty == 0) (f.rnd == 0) (f.sat == 0) (f.md == 0) (f.sub == 0))
  | .vlaneGet f => firstBad (chkV3 f true (isS f.d) true (isS f.b) (z8 f.c) (f.ty == 0) (f.rnd == 0) (f.sat == 0) (f.md == 0) (f.sub == 1))
  | .vlanePut f => firstBad (chkV3 f true true (isS f.a) (isS f.b) (z8 f.c) (f.ty == 0) (f.rnd == 0) (f.sat == 0) (f.md == 0) (f.sub == 2))
  | .vli f => firstBad (chkVI f true true (z8 f.a) (liTy f.ty))
  | .vaddImm f => firstBad (chkVI f true true true (tyWH f.ty))
  | .vandImm f => firstBad (chkVI f true true true (tyW f.ty))
  | .vcmp f => firstBad (chkV3 f true (isP f.d) (pr2 f.ty f.a) (pr2 f.ty f.b) (z8 f.c) (tyWL f.ty) (f.rnd == 0) (f.sat == 0) (f.md == 0) (f.sub.toNat < 6))
  | .fadd f => firstBad (chkV3 f true true true true (z8 f.c) (tyF f.ty) (rndOk f.rnd) (f.sat == 0) (f.md &&& 0x03 == 0) (f.sub == 0))
  | .fsub f => firstBad (chkV3 f true true true true (z8 f.c) (tyF f.ty) (rndOk f.rnd) (f.sat == 0) (f.md &&& 0x03 == 0) (f.sub == 0))
  | .fmul f => firstBad (chkV3 f true true true true (z8 f.c) (tyF f.ty) (rndOk f.rnd) (f.sat == 0) (f.md &&& 0x03 == 0) (f.sub == 0))
  | .ffma f => firstBad (chkV3 f true true true true true (tyF f.ty) (rndOk f.rnd) (f.sat == 0) true (f.sub == 0))
  | .fmin f => firstBad (chkV3 f true true true true (z8 f.c) (tyF f.ty) (f.rnd == 0) (f.sat == 0) (f.md &&& 0x03 == 0) (f.sub == 0))
  | .fmax f => firstBad (chkV3 f true true true true (z8 f.c) (tyF f.ty) (f.rnd == 0) (f.sat == 0) (f.md &&& 0x03 == 0) (f.sub == 0))
  | .fdiv f => firstBad (chkV3 f true true true true (z8 f.c) (tyF f.ty) (rndOk f.rnd) (f.sat == 0) (f.md &&& 0x03 == 0) (f.sub == 0))
  | .fsqrt f => firstBad (chkV3 f true true true (z8 f.b) (z8 f.c) (tyF f.ty) (rndOk f.rnd) (f.sat == 0) (f.md &&& 0x0F == 0) (f.sub == 0))
  | .frcp f => firstBad (chkV3 f true true true (z8 f.b) (z8 f.c) (tyF f.ty) (rndOk f.rnd) (f.sat == 0) (f.md &&& 0x0F == 0) (f.sub == 0))
  | .frsq f => firstBad (chkV3 f true true true (z8 f.b) (z8 f.c) (tyF f.ty) (rndOk f.rnd) (f.sat == 0) (f.md &&& 0x0F == 0) (f.sub == 0))
  | .fexp2 f => firstBad (chkV3 f true true true (z8 f.b) (z8 f.c) (tyF f.ty) (rndOk f.rnd) (f.sat == 0) (f.md &&& 0x0F == 0) (f.sub == 0))
  | .flog2 f => firstBad (chkV3 f true true true (z8 f.b) (z8 f.c) (tyF f.ty) (rndOk f.rnd) (f.sat == 0) (f.md &&& 0x0F == 0) (f.sub == 0))
  | .fsin f => firstBad (chkV3 f true true true (z8 f.b) (z8 f.c) (tyF f.ty) (rndOk f.rnd) (f.sat == 0) (f.md &&& 0x0F == 0) (f.sub == 0))
  | .fcos f => firstBad (chkV3 f true true true (z8 f.b) (z8 f.c) (tyF f.ty) (rndOk f.rnd) (f.sat == 0) (f.md &&& 0x0F == 0) (f.sub == 0))
  | .frnd f => firstBad (chkV3 f true true true (z8 f.b) (z8 f.c) (tyF f.ty) (rndOk f.rnd) (f.sat == 0) (f.md &&& 0x0F == 0) (f.sub == 0))
  | .fcmp f => firstBad (chkV3 f true (isP f.d) true true (z8 f.c) (f.ty == 8) (f.rnd == 0) (f.sat == 0) (f.md &&& 0x03 == 0) (f.sub.toNat < 8))
  | .fclass f => firstBad (chkV3 f true true true (z8 f.b) (z8 f.c) (tyF f.ty) (f.rnd == 0) (f.sat == 0) (f.md &&& 0x0F == 0) (f.sub == 0))
  | .fscale f => firstBad (chkV3 f true true true true (z8 f.c) (tyF f.ty) (rndOk f.rnd) (f.sat == 0) (f.md &&& 0x0F == 0) (f.sub == 0))
  | .fsgn f => firstBad (chkV3 f true true true true (z8 f.c) (tyF f.ty) (f.rnd == 0) (f.sat == 0) (f.md &&& 0x03 == 0) (f.sub.toNat < 3))
  | .cvt f => firstBad (chkV3 f true (evenIf (is64 f.ty) f.d) (evenIf (is64 (srcTy f)) f.a) (z8 f.b) (z8 f.c) (cvtTyOk f) (rndAdvOk f) true (cvtMdOk f) ((srcTy f).toNat < 13))
  | .vpack f => firstBad (chkV3 f true true (f.a.toNat % packN f.ty == 0) (z8 f.b) (z8 f.c) (packTyOk f) (rndAdvOk f) true (cvtMdOk f) (packSrc (srcTy f)))
  | .vunpk f => firstBad (chkV3 f true (f.d.toNat % packN (srcTy f) == 0) true (z8 f.b) (z8 f.c) (unpkTyOk f) (f.rnd == 0) (f.sat == 0) (f.md == 0) (f.sub.toNat < 16 && packDst (srcTy f)))
  | .vdith f => firstBad (chkV3 f true true true (z8 f.b) (z8 f.c) (dithTy f.ty) (f.rnd == 4) true (f.md &&& 0x0F == 0) (f.sub &&& 0x0F == 0))
  | .vshfl f => firstBad (chkV3 f true (pr2 f.ty f.d) (pr2 f.ty f.a) true (z8 f.c) (tyML f.ty) (f.rnd == 0) (f.sat == 0) (f.md == 0) (f.sub == 0))
  | .vshflXor f => firstBad (chkV3 f true (pr2 f.ty f.d) (pr2 f.ty f.a) true (z8 f.c) (tyML f.ty) (f.rnd == 0) (f.sat == 0) (f.md == 0) (f.sub == 1))
  | .vrot f => firstBad (chkV3 f true (pr2 f.ty f.d) (pr2 f.ty f.a) (isS f.b) (z8 f.c) (tyML f.ty) (f.rnd == 0) (f.sat == 0) (f.md == 0) (f.sub == 0))
  | .vred f => firstBad (chkV3 f true (isS f.d) true (z8 f.b) (z8 f.c) (redTyOk f f.sub false) (rndOk f.rnd) (f.sat == 0) (f.md &&& 0x0F == 0) (f.sub.toNat < 6))
  | .vscan f => firstBad (chkV3 f true true true (z8 f.b) (z8 f.c) (redTyOk f (f.sub &&& 7) true) (rndOk f.rnd) (f.sat == 0 || f.sub &&& 7 == 0) (f.md &&& 0x0F == 0) (f.sub.toNat < 16 && (f.sub &&& 7).toNat < 6))
  | .vballot f => firstBad (chkV3 f true (isS f.d) (isP f.a) (z8 f.b) (z8 f.c) (f.ty == 0) (f.rnd == 0) (f.sat == 0) (f.md == 0) (f.sub == 0))
  | .vballotCnt f => firstBad (chkV3 f true (isS f.d) (isP f.a) (z8 f.b) (z8 f.c) (f.ty == 0) (f.rnd == 0) (f.sat == 0) (f.md == 0) (f.sub == 1))
  | .vcompress f => firstBad (chkV3 f true (pr2 f.ty f.d) (pr2 f.ty f.a) (z8 f.b) (isP f.c) (tyML f.ty) (f.rnd == 0) (f.sat == 0) (f.md == 0) (f.sub == 0))
  | .vexpand f => firstBad (chkV3 f true (pr2 f.ty f.d) (pr2 f.ty f.a) (z8 f.b) (z8 f.c) (tyML f.ty) (f.rnd == 0) (f.sat == 0) (f.md == 0) (f.sub == 0))
  | .pand f => firstBad (chkV3 f false (isP f.d) (isP f.a) (isP f.b) (z8 f.c) (f.ty == 0) (f.rnd == 0) (f.sat == 0) (f.md == 0) (f.sub == 0))
  | .por f => firstBad (chkV3 f false (isP f.d) (isP f.a) (isP f.b) (z8 f.c) (f.ty == 0) (f.rnd == 0) (f.sat == 0) (f.md == 0) (f.sub == 1))
  | .pxor f => firstBad (chkV3 f false (isP f.d) (isP f.a) (isP f.b) (z8 f.c) (f.ty == 0) (f.rnd == 0) (f.sat == 0) (f.md == 0) (f.sub == 2))
  | .pnot f => firstBad (chkV3 f false (isP f.d) (isP f.a) (z8 f.b) (z8 f.c) (f.ty == 0) (f.rnd == 0) (f.sat == 0) (f.md == 0) (f.sub == 3))
  | .pset f => firstBad (chkVI f false (isP f.d) (z8 f.a) (f.ty == 0))
  | .ld f => firstBad (chkFM f true (evenIf (f.width == 3) f.d) true true true (scGp f.scope) true)
  | .ldSigned f => firstBad (chkFM f true true true true (f.width.toNat < 2) (scGp f.scope) true)
  | .ldu f => firstBad (chkFM f false (isS f.d) (f.vx == 63) (f.scale == 0) true (scGp f.scope) true)
  | .lduSigned f => firstBad (chkFM f false (isS f.d) (f.vx == 63) (f.scale == 0) (f.width.toNat < 3) (scGp f.scope) true)
  | .st f => firstBad (chkFM f true (evenIf (f.width == 3) f.d) true true true (scGp f.scope) true)
  | .stu f => firstBad (chkFM f false (isS f.d) (f.vx == 63) (f.scale == 0) true (scGp f.scope) true)
  | .pref f => firstBad (chkFM f true (z8 f.d) true true (f.width == 0) (f.scope == 2 || f.scope == 7) (f.cache != 3))
  | .cwb f => firstBad (chkFM f true (z8 f.d) true true (f.width == 0) (f.scope == 7) (f.cache == 0))
  | .cinv f => firstBad (chkFM f true (z8 f.d) true true (f.width == 0) (f.scope == 2 || f.scope == 7) (f.cache == 0))
  | .cwbi f => firstBad (chkFM f true (z8 f.d) true true (f.width == 0) (f.scope == 2 || f.scope == 7) (f.cache == 0))
  | .atom f => firstBad (chkMA f true (atomD f true) true true (atomW f) true (f.aop.toNat < 13))
  | .atomu f => firstBad (chkMA f false (isS f.d && (f.aop != 9 || f.d.toNat % 2 == 0)) (f.vx == 63) (f.scale == 0) (atomW f) true (f.aop.toNat < 13))
  | .red f => firstBad (chkMA f true (atomD f false) true true (atomW f) (f.ord == 0 || f.ord == 2) (f.aop.toNat < 13 && f.aop != 8 && f.aop != 9))
  | .storeDrain _ _ => none
  | .lineOwnershipGrant _ _ => none
  | .lineEviction _ => none
  | .fence f => firstBad (chkFY f (z6 f.d) (z6 f.a) (z6 f.b) (f.scope.toNat < 12) (f.fn == 0) (z6 f.cls1) (z6 f.cls2) (f.ord.toNat < 3) (f.imm == 0))
  | .xfence f => firstBad (chkFY f (z6 f.d) (z6 f.a) (z6 f.b) (f.scope.toNat < 12) (f.fn == 0) (f.cls1 != 0) (f.cls2 != 0) (f.ord == 0) (f.imm == 0))
  | .talloc f => firstBad (chkFT f false (isS f.d) (z6 f.h) true (z8 f.j) (tallocTy f) (f.mode == 0 || f.mode == 1 && f.lvl == 0) (f.lvl == 1 || z6 f.b) true (f.imm == 0))
  | .tfree f => firstBad (chkFT f false (z8 f.d) true (z6 f.i) (z8 f.j) (f.ty == 0) (f.mode == 0) (f.lvl == 0) (z6 f.b) (f.imm == 0))
  | .tinfo f => firstBad (chkFT f false (isS f.d) true (z6 f.i) (z8 f.j) (f.ty == 0) (f.mode == 0) (f.lvl == 0) (z6 f.b) (f.imm == 0))
  | .tsetFull f => firstBad (chkFT f false (z8 f.d) true true (z8 f.j) (f.ty == 0) (f.mode == 0) (f.lvl == 0) true (f.imm == 1))
  | .tsetEmpty f => firstBad (chkFT f false (z8 f.d) true true (z8 f.j) (f.ty == 0) (f.mode == 0) (f.lvl == 0) true (f.imm == 0))
  | .twait f => firstBad (chkFT f false (z8 f.d) true (z6 f.i) (z8 f.j) (f.ty == 0) (f.mode == 0) (f.lvl == 0) (z6 f.b) (f.imm == 0))
  | .tld f => firstBad (chkFT f true true true true true (tileTy f.ty) (f.mode == 0) (f.lvl == 0) (z6 f.b) (f.imm &&& 0x3FF == 0))
  | .tst f => firstBad (chkFT f true true true true true (tileTy f.ty) (f.mode == 0) (f.lvl == 0) (z6 f.b) (f.imm &&& 0x3FF == 0))
  | .tldw f => firstBad (chkFT f true true true true true (wordTy f.ty) (f.mode == 0) (f.lvl == 0) (z6 f.b) (f.imm &&& 0x3FF == 0))
  | .tldc f => firstBad (chkFT f true true true true true (wordTy f.ty) (f.mode == 0) (f.lvl == 0) (z6 f.b) (f.imm &&& 0x3FF == 0))
  | .tstw f => firstBad (chkFT f true true true true true (wordTy f.ty) (f.mode == 0) (f.lvl == 0) (z6 f.b) (f.imm &&& 0x3FF == 0))
  | .tcpi f => firstBad (chkFT f false (isS f.d) true true (z8 f.j) (f.ty == 0) (f.mode.toNat < 2) (f.lvl == 0) true true)
  | .tcpo f => firstBad (chkFT f false (isS f.d) true true (z8 f.j) (f.ty == 0) (f.mode == 0 || f.mode == 2) (f.lvl == 0) true true)
  | .tcpm f => firstBad (chkFT f false (isS f.d) true true (z8 f.j) (f.ty == 0) (f.mode == 0) (f.lvl == 0) (z6 f.b) true)
  | .inboundWrite _ => none
  | .copyComplete _ => none
  | .mac f => firstBad (chkFX f (f.as_ == 0) (f.va.toNat % 8 == 0) (f.vb.toNat % fragN f.wf == 0) (z6 f.sh) true (wfOk f.wf) (f.vs.toNat % 2 == 0) true (f.rnd == 0) (f.adv == 0) (f.sat == 0) (f.osc == 0))
  | .macg f => firstBad (chkFX f (f.as_ == 0) (f.va.toNat % 8 == 0) (z8 f.vb) (f.sh.toNat % 4 == 0 && f.sh != 0) true (wfOk f.wf) true true (f.rnd == 0) (f.adv == 0) (f.sat == 0) (f.osc == 0))
  | .azero f => firstBad (chkFX f (f.as_ == 0) (z8 f.va) (z8 f.vb) (z6 f.sh) (f.km1 == 0) (f.wf == 0) (z8 f.vs) (f.bsel == 0) (f.rnd == 0) (f.adv == 0) (f.sat == 0) (f.osc == 0))
  | .amov f => firstBad (chkFX f true (z8 f.va) (z8 f.vb) (z6 f.sh) (f.km1 == 0) (f.wf == 0) (z8 f.vs) (f.bsel == 0) (f.rnd == 0) (f.adv == 0) (f.sat == 0) (f.osc == 0))
  | .aput f => firstBad (chkFX f (f.as_ == 0) true (z8 f.vb) true (f.km1 == 0) (wordTy f.wf && (f.wf == 8 || f.rnd == 0 || !(rndOk f.rnd))) (z8 f.vs) (f.bsel == 0) (rndOk f.rnd) (f.adv == 0) (f.sat == 0) (f.osc == 0))
  | .aread f => firstBad (chkFX f (f.as_ == 0) (z8 f.va) (f.vb.toNat % areadN f.wf == 0) true (f.km1 == 0) (tileTy f.wf) (f.osc == 1 || z8 f.vs) (f.bsel == 0) (f.rnd.toNat < 5 && (f.adv == 0 || f.rnd == 4)) true true true)
  | .sdfe f => firstBad (chkFK f true (evenIf (f.mode &&& 3 == 1) f.vd) (f.va.toNat % (if f.mode &&& 3 == 1 then 8 else 4) == 0) true (z6 f.sb) (f.mode &&& 0xA == 0) (f.imm == 0))
  | .sdfprune f => firstBad (chkFK f false true true true true (f.mode &&& 0xB == 0) (f.imm == 0))
  | .march f => firstBad (chkFK f true (z8 f.vd) (f.va.toNat % 8 == 0) true true (f.mode.toNat < 2) true)
  | .mres f => firstBad (chkFK f true (f.vd.toNat % 4 == 0) (z8 f.va) true (z6 f.sb) (f.mode == 0) (f.imm.toNat < 4096))
  | .mresume f => firstBad (chkFK f true (z8 f.vd) (f.va.toNat % 2 == 0) (z6 f.sa) (z6 f.sb) (f.mode == 0) (f.imm == 0))
  | .mcancel f => firstBad (chkFK f true (z8 f.vd) (z8 f.va) (z6 f.sa) (z6 f.sb) (f.mode == 0) (f.imm == 0))
  | .bsample f => firstBad (chkFK f true (f.vd.toNat % 4 == 0) (f.va.toNat % 4 == 0) true (z6 f.sb) (f.mode == 0) (f.imm == 0))
  | .rayStep _ _ _ => none
  | .vis f => firstBad (chkFK f true (f.vd.toNat % 2 == 0) true true (z6 f.sb) (f.mode == 0) (f.imm == 0))
  | .visMerge _ => none
  | .rast f => firstBad (chkFK f false (z8 f.vd) (z8 f.va) true (z6 f.sb) (f.mode == 0) (f.imm == 0))
  | .triangleRaster _ => none
  | .drawComplete _ => none
  | .rproj f => firstBad (chkFK f false true true true (z6 f.sb) (f.mode == 0) (f.imm == 0))
  | .fetch f => firstBad (chkFY f true (z6 f.a) (z6 f.b) (f.scope == 0) (f.fn == 0) (z6 f.cls1) (z6 f.cls2) (f.ord == 0) (f.imm == 0))
  | .launch f => firstBad (chkFY f true true (z6 f.b) (f.scope == 0) (f.fn == 0) (z6 f.cls1) (z6 f.cls2) (f.ord == 0) (f.imm == 0))
  | .join f => firstBad (chkFY f true true (z6 f.b) (f.scope == 0) (f.fn == 0) (z6 f.cls1) (z6 f.cls2) (f.ord == 0) (f.imm == 0))
  | .hpass f => firstBad (chkFY f (z6 f.d) true true (f.scope == 0) (f.fn == 0) (z6 f.cls1) (z6 f.cls2) (f.ord == 0) (f.imm == 0))
  | .linfo f => firstBad (chkFY f true (z6 f.a) (z6 f.b) (f.scope == 0) (f.fn == 0) (z6 f.cls1) (z6 f.cls2) (f.ord == 0) (f.imm.toNat < 8))
  | .barInit f => firstBad (chkFY f (z6 f.d) true (z6 f.b) (f.scope == 2 || f.scope == 3) (f.fn == 0) (z6 f.cls1) (z6 f.cls2) (f.ord == 0) (f.imm.toNat < 64))
  | .barArr f => firstBad (chkFY f true (z6 f.a) (z6 f.b) (f.scope == 0) (f.fn == 0) (z6 f.cls1) (z6 f.cls2) (f.ord == 0) (f.imm.toNat < 64))
  | .barWait f => firstBad (chkFY f (z6 f.d) true (z6 f.b) (f.scope == 0) (f.fn == 0) (z6 f.cls1) (z6 f.cls2) (f.ord == 0) (f.imm == 0))
  | .barSync f => firstBad (chkFY f (z6 f.d) (z6 f.a) (z6 f.b) (f.scope == 0) (f.fn == 0) (z6 f.cls1) (z6 f.cls2) (f.ord == 0) (f.imm.toNat < 64))
  | .barSyncPeer f => firstBad (chkFY f (z6 f.d) (z6 f.a) (z6 f.b) (f.scope == 0) (f.fn == 1) (z6 f.cls1) (z6 f.cls2) (f.ord == 0) (f.imm.toNat < 64))
  | .barDrop f => firstBad (chkFY f (z6 f.d) (z6 f.a) (z6 f.b) (f.scope == 0) (f.fn == 0) (z6 f.cls1) (z6 f.cls2) (f.ord == 0) (f.imm.toNat < 64))
  | .barDropPeer f => firstBad (chkFY f (z6 f.d) (z6 f.a) (z6 f.b) (f.scope == 0) (f.fn == 1) (z6 f.cls1) (z6 f.cls2) (f.ord == 0) (f.imm.toNat < 64))
  | .barPeer f => firstBad (chkFY f true (z6 f.a) (z6 f.b) (f.scope == 0) (f.fn == 0) (z6 f.cls1) (z6 f.cls2) (f.ord == 0) (f.imm.toNat < 64))
  | .barGrid f => firstBad (chkFY f (z6 f.d) (z6 f.a) (z6 f.b) (f.scope == 0) (f.fn == 1) (z6 f.cls1) (z6 f.cls2) (f.ord == 0) (f.imm == 0))
  | .enq f => firstBad (chkFY f true true true (f.scope == 0) (f.fn == 0) (z6 f.cls1) (z6 f.cls2) (f.ord == 0) (f.imm == 0))
  | .qfence f => firstBad (chkFY f (z6 f.d) (z6 f.a) (z6 f.b) (f.scope == 0) (f.fn == 0) (z6 f.cls1) (z6 f.cls2) (f.ord == 0) (f.imm == 0))
  | .cnt f => firstBad (chkFY f true (z6 f.a || f.imm &&& 7 == 0) (z6 f.b) (f.scope == 0) (f.fn == 0) (z6 f.cls1) (z6 f.cls2) (f.ord == 0) (cntImm f 16 && f.imm &&& 8 == 0))
  | .cntWait f => firstBad (chkFY f true (z6 f.a || f.imm &&& 7 == 0) true (f.scope == 0) (f.fn == 0) (z6 f.cls1) (z6 f.cls2) (f.ord == 0) (cntImm f 16 && f.imm &&& 8 == 8))
  | .cancel f => firstBad (chkFY f true (z6 f.a || f.imm &&& 7 == 1) (z6 f.b) (f.scope == 0) (f.fn == 1) (z6 f.cls1) (z6 f.cls2) (f.ord == 0) (cntImm f 8))
  | .mfs f => firstBad (chkFY f true (z6 f.a) (z6 f.b) (f.scope == 0) (f.fn == 0) (z6 f.cls1) (z6 f.cls2) (f.ord == 0) (f.imm.toNat < 0x12))
  | .mts f => firstBad (chkFY f (z6 f.d) true (z6 f.b) (f.scope == 0) (f.fn == 0) (z6 f.cls1) (z6 f.cls2) (f.ord == 0) (f.imm.toNat < 0x12))
  | .trap f => firstBad (chkFY f (z6 f.d) (z6 f.a) (z6 f.b) (f.scope == 0) (f.fn == 0) (z6 f.cls1) (z6 f.cls2) (f.ord == 0) true)
  | .brk f => firstBad (chkFY f (z6 f.d) (z6 f.a) (z6 f.b) (f.scope == 0) (f.fn == 0) (z6 f.cls1) (z6 f.cls2) (f.ord == 0) true)
  | .tret f => firstBad (chkFY f (z6 f.d) (z6 f.a) (z6 f.b) (f.scope == 0) (f.fn == 0) (z6 f.cls1) (z6 f.cls2) (f.ord == 0) (f.imm == 0))
  | .tretSkip f => firstBad (chkFY f (z6 f.d) (z6 f.a) (z6 f.b) (f.scope == 0) (f.fn == 1) (z6 f.cls1) (z6 f.cls2) (f.ord == 0) (f.imm == 0))
  | .fwcallSys f => firstBad (chkFY f true true true (f.scope == 0) (f.fn == 0) (z6 f.cls1) (z6 f.cls2) (f.ord == 0) (f.imm == 0))
  | .fwcallXz f => firstBad (chkFY f (z6 f.d) (z6 f.a) (z6 f.b) (f.scope == 0) (f.fn == 0) (z6 f.cls1) (z6 f.cls2) (f.ord == 0) (f.imm == 1))
  | .fwcallReply _ _ _ => none
  | .lput f => firstBad (chkFT f false (isS f.d) true true (z8 f.j) (f.ty == 0) (f.mode == 0) (f.lvl == 0) true (f.imm == 0))
  | .lget f => firstBad (chkFT f false (isS f.d) true true (z8 f.j) (f.ty == 0) (f.mode == 0) (f.lvl == 0) true (f.imm == 0))
  | .linkUnitComplete _ => none
  | .serve _ _ => none
  | .forward _ _ => none
  | .fail _ _ => none
  | .conditionMet _ _ => none
  | .loadComplete _ _ => none
  | .saveComplete _ _ => none
  | .discardComplete _ _ => none
  | .restore _ _ => none
  | .swapOutAtJoin _ _ => none
  | .serviceComplete _ => none
  | .serviceFails _ => none
  | .invalidation _ _ _ => none
  | .invalidationComplete _ _ _ => none
  | .watchpointSet _ _ => none
  | .uncorrectableError _ => none
  | .doorbellWrite _ _ _ => none
  | .queueCreate _ _ => none
  | .queueRestart _ _ _ => none
  | .queueDestroy _ _ => none
  | .launchPacket _ => none
  | .taskPacket _ => none
  | .copyPacket _ => none
  | .graphPacket _ => none
  | .condPacket _ => none
  | .loopPacket _ => none
  | .loopIterationEnd _ => none
  | .signalPacket _ => none
  | .waitPacket _ => none
  | .copyRecordWrite _ => none
  | .packetComplete _ => none
  | .policyWrite _ _ => none
  | .admission _ _ => none
  | .ageLimit _ _ => none
  | .stagingLanding _ => none
  | .stagingPromotion _ => none
  | .dispatch _ _ => none
  | .stagingDeadline _ _ => none
  | .issueStarvation _ _ => none
  | .yieldExpiry _ _ => none
  | .hotFlagSet _ => none
  | .hotFlagClear _ => none
  | .sensorSample => none
  | .powerCapStep _ => none
  | .bind _ => none
  | .unbind _ _ => none
  | .create _ => none
  | .contextBind _ => none
  | .preEmpt _ => none
  | .switchComplete _ => none
  | .resume _ => none
  | .destroy _ => none
  | .teardownComplete _ => none
  | .portEnable _ => none
  | .portDisable _ => none
  | .trainingAttemptEnd _ _ => none
  | .laneFailure _ _ => none
  | .crcRetryLimit _ => none
  | .flitRetry _ => none
  | .routingTableWrite _ _ _ => none
  | .hostLinkTraining _ => none
  | .inboundAccess _ => none
  | .linkTimeout _ => none
  | .accessTableWrite _ => none
  | .alarm _ _ => none
  | .tamperSensor => none
  | .quote _ => none
  | .checkpoint _ => none
  | .checkpointRestore _ _ => none
  | .coldReset => none
  | .imageCheck _ _ => none
  | .ltolWrite _ => none
  | .thotWrite _ => none
  | .alpolWrite _ => none
  | .alarmWrite _ => none
  | .mgmtRegisterWrite _ _ => none
  | .powerStateEntry => none
  | .wake _ => none
  | .powerStateExitComplete => none
  | .verticalBlank _ => none
  | .headDescriptorSet _ _ => none
  | .encodeJob _ _ => none
  | .encodeComplete _ _ => none
  | .correctableSoftError _ => none

/-- Stage 1 of R91: the instruction that the major opcode and its selecting field name, with the word's fields, or the
low bit of the field that names none. -/
def select (w : W64) : Except Nat Instr :=
  match (w.extractLsb' 56 8).toNat with
  | 0x00 =>
    match (w.extractLsb' 24 4).toNat with
    | 0 => .ok (.sadd (.ofWord w))
    | 1 => .ok (.ssub (.ofWord w))
    | 2 => .ok (.smul (.ofWord w))
    | 3 => .ok (.smulh (.ofWord w))
    | 4 => .ok (.sdiv (.ofWord w))
    | 5 => .ok (.srem (.ofWord w))
    | 6 => .ok (.smin (.ofWord w))
    | 7 => .ok (.smax (.ofWord w))
    | 8 => .ok (.sabs (.ofWord w))
    | 9 => .ok (.slea (.ofWord w))
    | _ => .error 24
  | 0x01 =>
    match (w.extractLsb' 24 4).toNat with
    | 0 => .ok (.sand (.ofWord w))
    | 1 => .ok (.sor (.ofWord w))
    | 2 => .ok (.sxor (.ofWord w))
    | 3 => .ok (.sandn (.ofWord w))
    | 4 => .ok (.sshl (.ofWord w))
    | 5 => .ok (.sshr (.ofWord w))
    | 6 => .ok (.ssra (.ofWord w))
    | 7 => .ok (.srot (.ofWord w))
    | 8 => .ok (.sclz (.ofWord w))
    | 9 => .ok (.spop (.ofWord w))
    | 10 => .ok (.sbfx (.ofWord w))
    | 11 => .ok (.sbfi (.ofWord w))
    | 12 => .ok (.ssel (.ofWord w))
    | 13 => .ok (.smov (.ofWord w))
    | _ => .error 24
  | 0x02 => if (w.extractLsb' 24 4).toNat < 6 then .ok (.scmp (.ofWord w)) else .error 24
  | 0x03 =>
    match (w.extractLsb' 40 4).toNat with
    | 0 => .ok (.saddImm (.ofWord w))
    | 1 => .ok (.smulImm (.ofWord w))
    | 2 => .ok (.sminImm (.ofWord w))
    | 3 => .ok (.smaxImm (.ofWord w))
    | 4 => .ok (.sandImm (.ofWord w))
    | 5 => .ok (.sorImm (.ofWord w))
    | 6 => .ok (.sxorImm (.ofWord w))
    | 7 => .ok (.sshlImm (.ofWord w))
    | 8 => .ok (.sshrImm (.ofWord w))
    | 9 => .ok (.ssraImm (.ofWord w))
    | 10 => .ok (.srotImm (.ofWord w))
    | _ => .error 40
  | 0x04 =>
    match (w.extractLsb' 40 4).toNat with
    | 0 => .ok (.sli (.ofWord w))
    | _ => .error 40
  | 0x05 =>
    match (w.extractLsb' 40 4).toNat with
    | 0 => .ok (.slih (.ofWord w))
    | _ => .error 40
  | 0x06 => if (w.extractLsb' 40 4).toNat < 6 then .ok (.scmpImm (.ofWord w)) else .error 40
  | 0x10 => .ok (.br (.ofWord w))
  | 0x11 => .ok (.brc (.ofWord w))
  | 0x12 => .ok (.brm (.ofWord w))
  | 0x13 => .ok (.call (.ofWord w))
  | 0x14 => .ok (.ret (.ofWord w))
  | 0x15 => .ok (.jt (.ofWord w))
  | 0x16 => .ok (.mif (.ofWord w))
  | 0x17 => .ok (.melse (.ofWord w))
  | 0x18 => .ok (.mloop (.ofWord w))
  | 0x19 => .ok (.mend (.ofWord w))
  | 0x1a => .ok (.exit (.ofWord w))
  | 0x1b => .ok (.yield (.ofWord w))
  | 0x1c => .ok (.nop (.ofWord w))
  | 0x20 => .ok (.vadd (.ofWord w))
  | 0x21 => .ok (.vsub (.ofWord w))
  | 0x22 => .ok (.vmul (.ofWord w))
  | 0x23 => .ok (.vmulh (.ofWord w))
  | 0x24 => .ok (.vmad (.ofWord w))
  | 0x25 => .ok (.vdiv (.ofWord w))
  | 0x26 => .ok (.vrem (.ofWord w))
  | 0x27 => .ok (.vmin (.ofWord w))
  | 0x28 => .ok (.vmax (.ofWord w))
  | 0x29 => .ok (.vabs (.ofWord w))
  | 0x2a => .ok (.vneg (.ofWord w))
  | 0x2b => .ok (.vand (.ofWord w))
  | 0x2c => .ok (.vor (.ofWord w))
  | 0x2d => .ok (.vxor (.ofWord w))
  | 0x2e => .ok (.vandn (.ofWord w))
  | 0x2f => .ok (.vnot (.ofWord w))
  | 0x30 => .ok (.vshl (.ofWord w))
  | 0x31 => .ok (.vshr (.ofWord w))
  | 0x32 => .ok (.vsra (.ofWord w))
  | 0x33 => .ok (.vclz (.ofWord w))
  | 0x34 => .ok (.vpop (.ofWord w))
  | 0x35 => .ok (.vbrev (.ofWord w))
  | 0x36 => .ok (.vcmp (.ofWord w))
  | 0x37 => .ok (.vsel (.ofWord w))
  | 0x38 => .ok (.vmov (.ofWord w))
  | 0x39 => .ok (.vli (.ofWord w))
  | 0x3a => .ok (.vbcast (.ofWord w))
  | 0x3b =>
    match (w.extractLsb' 0 5).toNat with
    | 0 => .ok (.vlane (.ofWord w))
    | 1 => .ok (.vlaneGet (.ofWord w))
    | 2 => .ok (.vlanePut (.ofWord w))
    | _ => .error 0
  | 0x3c => .ok (.vsad (.ofWord w))
  | 0x3d => .ok (.vdot4 (.ofWord w))
  | 0x3e => .ok (.fadd (.ofWord w))
  | 0x3f => .ok (.fsub (.ofWord w))
  | 0x40 => .ok (.fmul (.ofWord w))
  | 0x41 => .ok (.ffma (.ofWord w))
  | 0x42 => .ok (.fmin (.ofWord w))
  | 0x43 => .ok (.fmax (.ofWord w))
  | 0x44 => .ok (.fdiv (.ofWord w))
  | 0x45 => .ok (.fsqrt (.ofWord w))
  | 0x46 => .ok (.frcp (.ofWord w))
  | 0x47 => .ok (.frsq (.ofWord w))
  | 0x48 => .ok (.fexp2 (.ofWord w))
  | 0x49 => .ok (.flog2 (.ofWord w))
  | 0x4a => .ok (.fsin (.ofWord w))
  | 0x4b => .ok (.fcos (.ofWord w))
  | 0x4c => .ok (.frnd (.ofWord w))
  | 0x4d => .ok (.fcmp (.ofWord w))
  | 0x4e => .ok (.fclass (.ofWord w))
  | 0x4f => .ok (.fscale (.ofWord w))
  | 0x50 => .ok (.fsgn (.ofWord w))
  | 0x51 => .ok (.cvt (.ofWord w))
  | 0x52 => .ok (.vpack (.ofWord w))
  | 0x53 => .ok (.vunpk (.ofWord w))
  | 0x54 => .ok (.vdith (.ofWord w))
  | 0x55 => if w.extractLsb' 0 5 == 1 then .ok (.vshflXor (.ofWord w)) else .ok (.vshfl (.ofWord w))
  | 0x56 => .ok (.vrot (.ofWord w))
  | 0x57 => .ok (.vred (.ofWord w))
  | 0x58 => .ok (.vscan (.ofWord w))
  | 0x59 => if w.extractLsb' 0 5 == 1 then .ok (.vballotCnt (.ofWord w)) else .ok (.vballot (.ofWord w))
  | 0x5a => .ok (.vcompress (.ofWord w))
  | 0x5b => .ok (.vexpand (.ofWord w))
  | 0x5c =>
    match (w.extractLsb' 0 5).toNat with
    | 0 => .ok (.pand (.ofWord w))
    | 1 => .ok (.por (.ofWord w))
    | 2 => .ok (.pxor (.ofWord w))
    | 3 => .ok (.pnot (.ofWord w))
    | _ => .error 0
  | 0x5d => .ok (.pset (.ofWord w))
  | 0x5e => .ok (.vaddImm (.ofWord w))
  | 0x5f => .ok (.vandImm (.ofWord w))
  | 0x60 => .ok (.ld (.ofWord w))
  | 0x61 => .ok (.ldSigned (.ofWord w))
  | 0x62 => .ok (.st (.ofWord w))
  | 0x63 => .ok (.ldu (.ofWord w))
  | 0x64 => .ok (.lduSigned (.ofWord w))
  | 0x65 => .ok (.stu (.ofWord w))
  | 0x66 => .ok (.pref (.ofWord w))
  | 0x67 => .ok (.cwb (.ofWord w))
  | 0x68 => .ok (.cinv (.ofWord w))
  | 0x69 => .ok (.cwbi (.ofWord w))
  | 0x70 => .ok (.atom (.ofWord w))
  | 0x71 => .ok (.atomu (.ofWord w))
  | 0x72 => .ok (.red (.ofWord w))
  | 0x78 => .ok (.fence (.ofWord w))
  | 0x79 => .ok (.xfence (.ofWord w))
  | 0x7a => .ok (.barInit (.ofWord w))
  | 0x7b => .ok (.barArr (.ofWord w))
  | 0x7c => .ok (.barWait (.ofWord w))
  | 0x7d => if w.extractLsb' 30 4 == 1 then .ok (.barSyncPeer (.ofWord w)) else .ok (.barSync (.ofWord w))
  | 0x7e => if w.extractLsb' 30 4 == 1 then .ok (.barDropPeer (.ofWord w)) else .ok (.barDrop (.ofWord w))
  | 0x7f =>
    match (w.extractLsb' 30 4).toNat with
    | 0 => .ok (.barPeer (.ofWord w))
    | 1 => .ok (.barGrid (.ofWord w))
    | _ => .error 30
  | 0x80 => .ok (.talloc (.ofWord w))
  | 0x81 => .ok (.tfree (.ofWord w))
  | 0x82 => .ok (.tinfo (.ofWord w))
  | 0x83 => .ok (.tld (.ofWord w))
  | 0x84 => .ok (.tst (.ofWord w))
  | 0x85 => .ok (.tldw (.ofWord w))
  | 0x86 => .ok (.tldc (.ofWord w))
  | 0x87 => .ok (.tstw (.ofWord w))
  | 0x88 => if w.extractLsb' 0 1 == 1 then .ok (.tsetFull (.ofWord w)) else .ok (.tsetEmpty (.ofWord w))
  | 0x89 => .ok (.twait (.ofWord w))
  | 0x8a => .ok (.tcpi (.ofWord w))
  | 0x8b => .ok (.tcpo (.ofWord w))
  | 0x8c => .ok (.tcpm (.ofWord w))
  | 0x8d => .ok (.lput (.ofWord w))
  | 0x8e => .ok (.lget (.ofWord w))
  | 0x90 => .ok (.mac (.ofWord w))
  | 0x91 => .ok (.macg (.ofWord w))
  | 0x92 => .ok (.azero (.ofWord w))
  | 0x93 => .ok (.aread (.ofWord w))
  | 0x94 => .ok (.amov (.ofWord w))
  | 0x95 => .ok (.aput (.ofWord w))
  | 0xa0 => .ok (.sdfe (.ofWord w))
  | 0xa1 => .ok (.sdfprune (.ofWord w))
  | 0xa2 => .ok (.march (.ofWord w))
  | 0xa3 => .ok (.mres (.ofWord w))
  | 0xa4 => .ok (.mresume (.ofWord w))
  | 0xa5 => .ok (.mcancel (.ofWord w))
  | 0xa6 => .ok (.bsample (.ofWord w))
  | 0xb0 => .ok (.vis (.ofWord w))
  | 0xb1 => .ok (.rast (.ofWord w))
  | 0xb2 => .ok (.rproj (.ofWord w))
  | 0xb8 => .ok (.fetch (.ofWord w))
  | 0xb9 => .ok (.launch (.ofWord w))
  | 0xba => .ok (.join (.ofWord w))
  | 0xbb => .ok (.hpass (.ofWord w))
  | 0xbc => .ok (.linfo (.ofWord w))
  | 0xbd => .ok (.enq (.ofWord w))
  | 0xbe => .ok (.qfence (.ofWord w))
  | 0xbf =>
    match (w.extractLsb' 30 4).toNat with
    | 0 => if w.extractLsb' 3 1 == 1 then .ok (.cntWait (.ofWord w)) else .ok (.cnt (.ofWord w))
    | 1 => .ok (.cancel (.ofWord w))
    | _ => .error 30
  | 0xc0 => .ok (.trap (.ofWord w))
  | 0xc1 => if w.extractLsb' 30 4 == 1 then .ok (.tretSkip (.ofWord w)) else .ok (.tret (.ofWord w))
  | 0xc2 => .ok (.mfs (.ofWord w))
  | 0xc3 => .ok (.mts (.ofWord w))
  | 0xc4 => .ok (.brk (.ofWord w))
  | 0xc5 => if w.extractLsb' 0 16 == 1 then .ok (.fwcallXz (.ofWord w)) else .ok (.fwcallSys (.ofWord w))
  | _ => .error 56

/-- The instruction a word holds, or the low bit that ILLEGAL reports in sys.einfo (R91). -/
def decode (w : W64) : Except Nat Instr :=
  match select w with
  | .error b => .error b
  | .ok i =>
    match i.badField with
    | some b => .error b
    | none => .ok i

/-- The word of an instruction; an event has none and gives the word 0. -/
def encode : Instr → W64
  | .sadd f => f.toWord 0x00
  | .ssub f => f.toWord 0x00
  | .smul f => f.toWord 0x00
  | .smulh f => f.toWord 0x00
  | .sdiv f => f.toWord 0x00
  | .srem f => f.toWord 0x00
  | .smin f => f.toWord 0x00
  | .smax f => f.toWord 0x00
  | .sabs f => f.toWord 0x00
  | .slea f => f.toWord 0x00
  | .sand f => f.toWord 0x01
  | .sor f => f.toWord 0x01
  | .sxor f => f.toWord 0x01
  | .sandn f => f.toWord 0x01
  | .sshl f => f.toWord 0x01
  | .sshr f => f.toWord 0x01
  | .ssra f => f.toWord 0x01
  | .srot f => f.toWord 0x01
  | .sclz f => f.toWord 0x01
  | .spop f => f.toWord 0x01
  | .sbfx f => f.toWord 0x01
  | .sbfi f => f.toWord 0x01
  | .ssel f => f.toWord 0x01
  | .smov f => f.toWord 0x01
  | .scmp f => f.toWord 0x02
  | .saddImm f => f.toWord 0x03
  | .smulImm f => f.toWord 0x03
  | .sminImm f => f.toWord 0x03
  | .smaxImm f => f.toWord 0x03
  | .sandImm f => f.toWord 0x03
  | .sorImm f => f.toWord 0x03
  | .sxorImm f => f.toWord 0x03
  | .sshlImm f => f.toWord 0x03
  | .sshrImm f => f.toWord 0x03
  | .ssraImm f => f.toWord 0x03
  | .srotImm f => f.toWord 0x03
  | .sli f => f.toWord 0x04
  | .slih f => f.toWord 0x05
  | .scmpImm f => f.toWord 0x06
  | .br f => f.toWord 0x10
  | .brc f => f.toWord 0x11
  | .brm f => f.toWord 0x12
  | .call f => f.toWord 0x13
  | .ret f => f.toWord 0x14
  | .jt f => f.toWord 0x15
  | .mif f => f.toWord 0x16
  | .melse f => f.toWord 0x17
  | .mend f => f.toWord 0x19
  | .mloop f => f.toWord 0x18
  | .exit f => f.toWord 0x1a
  | .yield f => f.toWord 0x1b
  | .nop f => f.toWord 0x1c
  | .vadd f => f.toWord 0x20
  | .vsub f => f.toWord 0x21
  | .vmul f => f.toWord 0x22
  | .vmulh f => f.toWord 0x23
  | .vmad f => f.toWord 0x24
  | .vdiv f => f.toWord 0x25
  | .vrem f => f.toWord 0x26
  | .vmin f => f.toWord 0x27
  | .vmax f => f.toWord 0x28
  | .vabs f => f.toWord 0x29
  | .vneg f => f.toWord 0x2a
  | .vand f => f.toWord 0x2b
  | .vor f => f.toWord 0x2c
  | .vxor f => f.toWord 0x2d
  | .vandn f => f.toWord 0x2e
  | .vnot f => f.toWord 0x2f
  | .vshl f => f.toWord 0x30
  | .vshr f => f.toWord 0x31
  | .vsra f => f.toWord 0x32
  | .vclz f => f.toWord 0x33
  | .vpop f => f.toWord 0x34
  | .vbrev f => f.toWord 0x35
  | .vsad f => f.toWord 0x3c
  | .vdot4 f => f.toWord 0x3d
  | .vmov f => f.toWord 0x38
  | .vsel f => f.toWord 0x37
  | .vbcast f => f.toWord 0x3a
  | .vlane f => f.toWord 0x3b
  | .vlaneGet f => f.toWord 0x3b
  | .vlanePut f => f.toWord 0x3b
  | .vli f => f.toWord 0x39
  | .vaddImm f => f.toWord 0x5e
  | .vandImm f => f.toWord 0x5f
  | .vcmp f => f.toWord 0x36
  | .fadd f => f.toWord 0x3e
  | .fsub f => f.toWord 0x3f
  | .fmul f => f.toWord 0x40
  | .ffma f => f.toWord 0x41
  | .fmin f => f.toWord 0x42
  | .fmax f => f.toWord 0x43
  | .fdiv f => f.toWord 0x44
  | .fsqrt f => f.toWord 0x45
  | .frcp f => f.toWord 0x46
  | .frsq f => f.toWord 0x47
  | .fexp2 f => f.toWord 0x48
  | .flog2 f => f.toWord 0x49
  | .fsin f => f.toWord 0x4a
  | .fcos f => f.toWord 0x4b
  | .frnd f => f.toWord 0x4c
  | .fcmp f => f.toWord 0x4d
  | .fclass f => f.toWord 0x4e
  | .fscale f => f.toWord 0x4f
  | .fsgn f => f.toWord 0x50
  | .cvt f => f.toWord 0x51
  | .vpack f => f.toWord 0x52
  | .vunpk f => f.toWord 0x53
  | .vdith f => f.toWord 0x54
  | .vshfl f => f.toWord 0x55
  | .vshflXor f => f.toWord 0x55
  | .vrot f => f.toWord 0x56
  | .vred f => f.toWord 0x57
  | .vscan f => f.toWord 0x58
  | .vballot f => f.toWord 0x59
  | .vballotCnt f => f.toWord 0x59
  | .vcompress f => f.toWord 0x5a
  | .vexpand f => f.toWord 0x5b
  | .pand f => f.toWord 0x5c
  | .por f => f.toWord 0x5c
  | .pxor f => f.toWord 0x5c
  | .pnot f => f.toWord 0x5c
  | .pset f => f.toWord 0x5d
  | .ld f => f.toWord 0x60
  | .ldSigned f => f.toWord 0x61
  | .ldu f => f.toWord 0x63
  | .lduSigned f => f.toWord 0x64
  | .st f => f.toWord 0x62
  | .stu f => f.toWord 0x65
  | .pref f => f.toWord 0x66
  | .cwb f => f.toWord 0x67
  | .cinv f => f.toWord 0x68
  | .cwbi f => f.toWord 0x69
  | .atom f => f.toWord 0x70
  | .atomu f => f.toWord 0x71
  | .red f => f.toWord 0x72
  | .storeDrain _ _ => 0
  | .lineOwnershipGrant _ _ => 0
  | .lineEviction _ => 0
  | .fence f => f.toWord 0x78
  | .xfence f => f.toWord 0x79
  | .talloc f => f.toWord 0x80
  | .tfree f => f.toWord 0x81
  | .tinfo f => f.toWord 0x82
  | .tsetFull f => f.toWord 0x88
  | .tsetEmpty f => f.toWord 0x88
  | .twait f => f.toWord 0x89
  | .tld f => f.toWord 0x83
  | .tst f => f.toWord 0x84
  | .tldw f => f.toWord 0x85
  | .tldc f => f.toWord 0x86
  | .tstw f => f.toWord 0x87
  | .tcpi f => f.toWord 0x8a
  | .tcpo f => f.toWord 0x8b
  | .tcpm f => f.toWord 0x8c
  | .inboundWrite _ => 0
  | .copyComplete _ => 0
  | .mac f => f.toWord 0x90
  | .macg f => f.toWord 0x91
  | .azero f => f.toWord 0x92
  | .amov f => f.toWord 0x94
  | .aput f => f.toWord 0x95
  | .aread f => f.toWord 0x93
  | .sdfe f => f.toWord 0xa0
  | .sdfprune f => f.toWord 0xa1
  | .march f => f.toWord 0xa2
  | .mres f => f.toWord 0xa3
  | .mresume f => f.toWord 0xa4
  | .mcancel f => f.toWord 0xa5
  | .bsample f => f.toWord 0xa6
  | .rayStep _ _ _ => 0
  | .vis f => f.toWord 0xb0
  | .visMerge _ => 0
  | .rast f => f.toWord 0xb1
  | .triangleRaster _ => 0
  | .drawComplete _ => 0
  | .rproj f => f.toWord 0xb2
  | .fetch f => f.toWord 0xb8
  | .launch f => f.toWord 0xb9
  | .join f => f.toWord 0xba
  | .hpass f => f.toWord 0xbb
  | .linfo f => f.toWord 0xbc
  | .barInit f => f.toWord 0x7a
  | .barArr f => f.toWord 0x7b
  | .barWait f => f.toWord 0x7c
  | .barSync f => f.toWord 0x7d
  | .barSyncPeer f => f.toWord 0x7d
  | .barDrop f => f.toWord 0x7e
  | .barDropPeer f => f.toWord 0x7e
  | .barPeer f => f.toWord 0x7f
  | .barGrid f => f.toWord 0x7f
  | .enq f => f.toWord 0xbd
  | .qfence f => f.toWord 0xbe
  | .cnt f => f.toWord 0xbf
  | .cntWait f => f.toWord 0xbf
  | .cancel f => f.toWord 0xbf
  | .mfs f => f.toWord 0xc2
  | .mts f => f.toWord 0xc3
  | .trap f => f.toWord 0xc0
  | .brk f => f.toWord 0xc4
  | .tret f => f.toWord 0xc1
  | .tretSkip f => f.toWord 0xc1
  | .fwcallSys f => f.toWord 0xc5
  | .fwcallXz f => f.toWord 0xc5
  | .fwcallReply _ _ _ => 0
  | .lput f => f.toWord 0x8d
  | .lget f => f.toWord 0x8e
  | .linkUnitComplete _ => 0
  | .serve _ _ => 0
  | .forward _ _ => 0
  | .fail _ _ => 0
  | .conditionMet _ _ => 0
  | .loadComplete _ _ => 0
  | .saveComplete _ _ => 0
  | .discardComplete _ _ => 0
  | .restore _ _ => 0
  | .swapOutAtJoin _ _ => 0
  | .serviceComplete _ => 0
  | .serviceFails _ => 0
  | .invalidation _ _ _ => 0
  | .invalidationComplete _ _ _ => 0
  | .watchpointSet _ _ => 0
  | .uncorrectableError _ => 0
  | .doorbellWrite _ _ _ => 0
  | .queueCreate _ _ => 0
  | .queueRestart _ _ _ => 0
  | .queueDestroy _ _ => 0
  | .launchPacket _ => 0
  | .taskPacket _ => 0
  | .copyPacket _ => 0
  | .graphPacket _ => 0
  | .condPacket _ => 0
  | .loopPacket _ => 0
  | .loopIterationEnd _ => 0
  | .signalPacket _ => 0
  | .waitPacket _ => 0
  | .copyRecordWrite _ => 0
  | .packetComplete _ => 0
  | .policyWrite _ _ => 0
  | .admission _ _ => 0
  | .ageLimit _ _ => 0
  | .stagingLanding _ => 0
  | .stagingPromotion _ => 0
  | .dispatch _ _ => 0
  | .stagingDeadline _ _ => 0
  | .issueStarvation _ _ => 0
  | .yieldExpiry _ _ => 0
  | .hotFlagSet _ => 0
  | .hotFlagClear _ => 0
  | .sensorSample => 0
  | .powerCapStep _ => 0
  | .bind _ => 0
  | .unbind _ _ => 0
  | .create _ => 0
  | .contextBind _ => 0
  | .preEmpt _ => 0
  | .switchComplete _ => 0
  | .resume _ => 0
  | .destroy _ => 0
  | .teardownComplete _ => 0
  | .portEnable _ => 0
  | .portDisable _ => 0
  | .trainingAttemptEnd _ _ => 0
  | .laneFailure _ _ => 0
  | .crcRetryLimit _ => 0
  | .flitRetry _ => 0
  | .routingTableWrite _ _ _ => 0
  | .hostLinkTraining _ => 0
  | .inboundAccess _ => 0
  | .linkTimeout _ => 0
  | .accessTableWrite _ => 0
  | .alarm _ _ => 0
  | .tamperSensor => 0
  | .quote _ => 0
  | .checkpoint _ => 0
  | .checkpointRestore _ _ => 0
  | .coldReset => 0
  | .imageCheck _ _ => 0
  | .ltolWrite _ => 0
  | .thotWrite _ => 0
  | .alpolWrite _ => 0
  | .alarmWrite _ => 0
  | .mgmtRegisterWrite _ _ => 0
  | .powerStateEntry => 0
  | .wake _ => 0
  | .powerStateExitComplete => 0
  | .verticalBlank _ => 0
  | .headDescriptorSet _ _ => 0
  | .encodeJob _ _ => 0
  | .encodeComplete _ _ => 0
  | .correctableSoftError _ => 0

/-- The word whose bytes are stored at the eight addresses from the lowest (R4, R56). -/
def wordOfBytes (b : List Byte) : W64 :=
  BitVec.ofNat 64 (b.foldr (fun x acc => x.toNat + 256 * acc) 0)

/-- The eight bytes of a word, lowest address first (R4). -/
def bytesOfWord (w : W64) : List Byte :=
  (List.range 8).map fun i => w.extractLsb' (8 * i) 8

/-- The instruction of the bits w, numbered as the opcode table numbers them: every instruction is one 64-bit word (R56),
and the bits at and above nbits are 0. -/
def decodeTableWord (nbits w : Nat) : Option Instr :=
  if nbits ≤ 64 then
    match decode (wordOfBytes (bytesOfWord (BitVec.ofNat 64 (w % 2 ^ nbits)))) with
    | .ok i => some i
    | .error _ => none
  else none

end Sys2Proof
end

