-- ==== Sys2Proof/Config.lean ====
section
/-! DEFINITION. What one implementation fixes and what the manual leaves open: opaque constants without a body
(free values, applied to the counter State.fresh), and the sizes the manual states. -/

namespace Sys2Proof.Config

/-- Nanoseconds that pass between two readings of sys.clock (R416, R425): free, one per reading. -/
opaque elapsed : Nat → Nat
/-- A choice the manual leaves between two allowed outcomes (R202, R444, R448): free, one per choice. -/
opaque freeBit : Nat → Bool
/-- A word that the manual gives no value (R348): free, one per use. -/
opaque freeWord : Nat → BitVec 32
/-- A byte of a saved part whose layout the manual keeps to the device (R406, R407): free, by use and place in the part. -/
opaque savedByte : Nat → Nat → BitVec 8
/-- How many 32-byte sectors a checkpoint that fails had copied (R453): free, one per failure. -/
opaque copied : Nat → Nat
/-- Whether an SLH-DSA-SHA2-128s signature verifies (R443): public key, message digest, signature. -/
opaque signatureVerifies : List Byte → List Byte → List Byte → Bool
/-- An SLH-DSA-SHA2-128s signature under a private key (R452): key, digest. -/
opaque sign : List Byte → List Byte → List Byte
/-- The attestation key pair derived at boot from the fused secret and the image digest (R451). -/
opaque attestPrivate : List Byte → List Byte
/-- The public half of that pair (R451, R452). -/
opaque attestPublic : List Byte → List Byte
/-- The SHA-256 digest of the firmware key, held in fuses (R443). -/
opaque fusedKeyDigest : List Byte
/-- MINVER, the lowest firmware version the device accepts, held in fuses (R442). -/
opaque minVersion : BitVec 32
/-- The map from lines to home slices that the device fixes at a bind (R19): the number of the bind, the line. Free: the manual
leaves the map to the device, one for each bind (log 67); the partition's own slices take the result as a remainder. -/
opaque homeSlice : Nat → Nat → Nat
/-- The byte address of the device-memory page a partition's memory begins at (R19, R388): base and size in bytes of
the memory of the partition with first sector f and 2^p sectors. The manual gives each sector three channels, that is
one eighth of 192 GiB; that the parts lie in sector order is the model's choice. -/
def partMemBase (f : Nat) : Nat := f * (24 * 2 ^ 30)
/-- Size in bytes of the memory of a partition of 2^p sectors (R18, R20). -/
def partMemSize (p : Nat) : Nat := 2 ^ p * (24 * 2 ^ 30)

end Sys2Proof.Config
end

