-- ==== Sys2Proof/Machine/State.lean ====
section
/-! DEFINITION. Everything the manual gives the machine, as plain data, and the machine after reset. -/

namespace Sys2Proof.Machine

/-- Bytes by physical key, in canonical form: keys strictly rising, no byte 0 (what an unlisted key reads as; log 1).
A key is a device physical address below 2^52, 2^52 + a host physical address, or (2 + p)·2^52 + an address of peer p:
the three separate spaces of R387. -/
abbrev Memory := List Host.Cell

/-- Sparse data by key, in the same canonical form: keys strictly rising, no entry equal to the default. -/
abbrev Sparse (α : Type) := List (Nat × α)

/-! ## The group (R93, R94) -/

/-- Where a group stands in the table of R96. Running with HMODE 1 is the state Handler; bound is the group-to-be of R296,
admitted and not yet dispatched. -/
inductive Phase where
  | bound | loading | running | parked | faulted | saving | discardingPreempt | discardingCancel | saved | ended
  deriving DecidableEq, Repr, Inhabited

/-- Kind of a mask-stack frame (R106). -/
inductive FrameKind where
  | ifFrame | loopFrame
  deriving DecidableEq, Repr, Inhabited

/-- A mask-stack frame (R106). -/
structure Frame where
  m : W32
  kind : FrameKind
  point : Option W64
  origin : W64
  deriving DecidableEq, Repr, Inhabited

/-- The five trap registers a cause writes (R103, R416). -/
structure TrapRegs where
  tcause : Byte := 0
  epc : W64 := 0
  elanes : W32 := 0
  eaddr : W64 := 0
  einfo : W64 := 0
  deriving DecidableEq, Repr, Inhabited

/-- A register item that can carry a poison mark (R422). -/
inductive Item where
  | s (n : Nat)
  | p (n : Nat)
  | z (n : Nat)
  | v (n lane : Nat)
  | zv (n lane : Nat)
  | acc (n row col : Nat)
  deriving DecidableEq, Repr, Inhabited

/-- The part of a group that kill and replay restores to its value at region entry (R410): registers, system registers
and mask state. -/
structure Arch where
  s : Vector W64 64 := Vector.replicate 64 0
  v : Vector VReg 256 := Vector.replicate 256 (Vector.replicate 32 0)
  p : Vector W32 16 := Vector.replicate 16 0
  a : Vector ATile 4 := Vector.replicate 4 (Vector.replicate 32 (Vector.replicate 16 0))
  z : Vector W64 8 := Vector.replicate 8 0
  zv : Vector VReg 4 := Vector.replicate 4 (Vector.replicate 32 0)
  /-- Poisoned register and accumulator items (R422). -/
  poison : List Item := []
  mask : W32 := 0xFFFFFFFF
  stack : List Frame := []
  pend : Option W64 := none
  fflags : BitVec 5 := 0
  fenable : BitVec 5 := 0
  qflags : BitVec 6 := 0
  dphase : BitVec 5 := 0
  tvec : BitVec 52 := 0
  trap : TrapRegs := { }
  deriving DecidableEq, Repr, Inhabited

/-- What the five trap registers do not say of a cause: whether it was raised at a header (HDR, R427), and the block of
the interrupted instruction with its pending point. -/
structure Interrupted where
  hdr : Bool := false
  blkHdr : W64 := 0
  blkEnd : W64 := 0
  xferFrom : W64 := 0
  pend : Option W64 := none
  /-- The cause is a LINK of a host page, whose PEER 0 does not tell it from pod 0 (R437). -/
  viaHost : Bool := false
  deriving DecidableEq, Repr, Inhabited

/-- A store that has retired and is not yet performed (R178, R409): physical key of its first byte, its bytes, the
region it belongs to (R218), the 32-byte sectors whose poison mark goes with it, because its instruction writes them
whole (R176), and the place of its instruction in program order. -/
structure PStore where
  key : Nat
  bytes : List Byte
  seq : BitVec 16
  clears : List Nat := []
  no : Nat := 0
  deriving DecidableEq, Repr, Inhabited

/-- An open idempotent region (R64, R408): its header, and what kill and replay restores beside the registers: HMODE, the
trap state of the slot that is not a register, and SPLT of sys.region (R410). -/
structure Region where
  header : W64
  entry : Arch
  replayable : Bool
  hmode : Bool := false
  entryDepth : Nat := 0
  epcw : Bool := false
  intr : Interrupted := { }
  hidden : Option (TrapRegs × Interrupted) := none
  splt : Bool := false
  deriving DecidableEq, Repr, Inhabited

/-- An atomic that has started (R185): the instruction, lanes and keys still to perform, and the old values of the lanes
performed. whole: a lane of it lies on a RACECHECK page, so that no other group's access comes between two lanes (R221). -/
structure AtomicRun where
  i : Instr
  left : List (Nat × Nat)
  olds : List (Nat × Nat) := []
  whole : Bool := false
  deriving DecidableEq, Repr

/-- What a bounded segment test of a field leaf waits for (R357). -/
inductive LeafStage where
  | segment (a b : W32)
  | refineA (a b : W32)
  | refineB (a b : W32)
  | bisect (a b m : W32) (n : Nat)
  deriving DecidableEq, Repr, Inhabited

/-- The test of one FIELD, BRICKS or CALL leaf (R357, R358). -/
structure LeafRun where
  leaf : Nat
  kind : Nat
  inst : Option Nat
  leafIdx : Nat
  shidx : Nat
  a0 : W32
  b0 : W32
  pending : List (W32 × W32)
  steps : Nat
  stage : LeafStage
  deriving DecidableEq, Repr, Inhabited

/-- One entry of a ray's to-do list (R356): a node to visit, an instance to enter or a leaf to test, with the entry
and exit of its span. inst is the address of the instance record the frame belongs to, none in the world frame. -/
inductive RayWork where
  | node (addr : Nat) (inst : Option Nat) (top : Bool) (e : W32)
  | instance_ (addr : Nat) (e : W32)
  | leaf (addr : Nat) (inst : Option Nat) (idx : Nat) (e x : W32)
  deriving DecidableEq, Repr, Inhabited

/-- A candidate hit of a ray (R353, R356). -/
structure Hit where
  t : W32
  id : W32
  prim : W32
  shidx : Nat
  deriving DecidableEq, Repr, Inhabited

/-- Where a ray entry stands (R351); a Free entry is not listed. -/
inductive RayPhase where
  | marching | suspended | faultwait
  deriving DecidableEq, Repr, Inhabited

/-- A ray entry (R350). -/
structure Ray where
  lane : Nat
  phase : RayPhase
  started : Bool := false
  o : List W32
  tmin : W32
  d : List W32
  tmax : W32
  scene : W64
  handle : W64
  row : Nat
  mask : Byte
  any : Bool
  tb : W32
  best : Option Hit := none
  work : List RayWork := []
  leaf : Option LeafRun := none
  /-- The interval mresume supplied for the evaluation due (R370). -/
  supplied : Option (W32 × W32) := none
  /-- The fault record a Faultwait ray waits on (R394), and the address that failed. -/
  record : Nat := 0
  failedAt : W64 := 0
  /-- The number of the move after the one in which its last CALL record landed (R352). -/
  landedAt : Nat := 0
  /-- EPSABS and EPSREL of the scene, once its descriptor has been read (R330). -/
  epsAbs : W32 := 0
  epsRel : W32 := 0
  ninst : Nat := 0
  ibase : Nat := 0
  deriving DecidableEq, Repr, Inhabited

/-- The levels a piece of work belongs to (R263): the queue and the number of the job in it, the innermost graph walk with its
counter's address (0 for none), the LOOPs it stands in, innermost first, each by its run and iteration, with the innermost
one's counter, and the unit that created it (group and unit number; 0 for none). -/
structure Member where
  q : Nat := 0
  job : Nat := 0
  walk : Nat := 0
  gctr : Nat := 0
  loops : List (Nat × Nat) := []
  pctr : Nat := 0
  ugid : Nat := 0
  uno : Nat := 0
  deriving DecidableEq, Repr, Inhabited

/-- A parked wait for words of a tile (R196): its place among the waits, the lowest number waiting longest, the entry, its words,
whether it waits for them to be empty, and whether it then changes their tags. -/
structure TileWait where
  no : Nat
  core : Nat
  idx : Nat
  words : List Nat
  empty : Bool
  changes : Bool := true
  deriving DecidableEq, Repr, Inhabited

/-- What a group owes once its started atomic has retired (R185): a pre-emption's precise save, or a cancel's discard. -/
inductive Owed where
  | save | discard
  deriving DecidableEq, Repr, Inhabited

/-- A group: the smallest unit that owns a program counter (R93), with what its slot holds for it (R94). -/
structure Group where
  /-- The model's own name of the group, 0 for the placeholder that stands while no group exists. -/
  gid : Nat := 0
  core : Nat := 0
  slot : Nat := 0
  ctx : Nat := 0
  phase : Phase := .ended
  /-- Address of the next word (R56). -/
  pc : W64 := 0
  /-- The next word is treated as a header (R57). -/
  entering : Bool := false
  /-- Header of the block that runs, and the address after its last word. -/
  blkHdr : W64 := 0
  blkEnd : W64 := 0
  /-- Address of the instruction that transferred control, or of the preceding block's last word (R58). -/
  xferFrom : W64 := 0
  r : Arch := { }
  hmode : Bool := false
  entryDepth : Nat := 0
  epcw : Bool := false
  /-- HDR and the interrupted block (R427). -/
  intr : Interrupted := { }
  /-- The trap state kept while a cause raised in handler mode is served (R420). -/
  hidden : Option (TrapRegs × Interrupted) := none
  /-- Fault records the faulted instruction waits on (R394). -/
  records : List Nat := []
  /-- The cause of the oldest instruction, which waits for a free fault record (R394). -/
  noRecord : Option TrapRegs := none
  /-- Watch checks are off for the replay of a served WATCH (R423). -/
  watchOff : Bool := false
  seq : BitVec 16 := 0
  splt : Bool := false
  /-- The split of its region that comes once its started atomic has retired (R223). -/
  splitDue : Bool := false
  idem : Option Region := none
  storeQ : List PStore := []
  relBuf : List PStore := []
  /-- The place in program order that its next store instruction takes (R178, R409). -/
  storeNo : Nat := 0
  /-- The oldest instruction has started and ended its region, and waits (R216). -/
  begun : Bool := false
  /-- The oldest instruction is an atomic that has started (R185). -/
  atomic : Option AtomicRun := none
  /-- A pre-emption or cancel that waits for that atomic. -/
  owes : Option Owed := none
  /-- The shadow tile: the accumulator tile as the last mac or macg found it (R17, R316). -/
  shadow : ATile := Vector.replicate 32 (Vector.replicate 16 0)
  /-- The tile words that its oldest instruction waits for (R196). -/
  waits : Option TileWait := none
  /-- The tile that its parked twait waits for (R195): its core, entry and generation. -/
  twait : Option (Nat × Nat × BitVec 16) := none
  /-- The token of the arrival that its parked bar.sync or bar.grid has made (R258, R260). -/
  arrived : Option W64 := none
  /-- The token that its parked bar.wait waits on (R254, R258). -/
  awaits : Option W64 := none
  /-- Barrier entries it is a member of: home core and number (R93, R251). -/
  bars : List (Nat × Nat) := []
  /-- The two values a parked fwcall.sys handed over, and the reply (R428). -/
  fwReq : Option (W64 × W64) := none
  fwReply : Option W64 := none
  /-- The launch of the group: die and entry of its pool record; none for a group without one. -/
  launch : Option (Nat × Nat) := none
  /-- GEN of that record and SLOTS of its kernel, which outlive the entry (R239, R242). -/
  lgen : BitVec 16 := 0
  slots : Nat := 1
  ordinal : Nat := 0
  /-- Not yet started: its load gives it the state of R95 and R238. -/
  fresh : Bool := false
  /-- The token of a join it has begun and that has not retired (R239, R246). -/
  joining : Option W64 := none
  /-- Swapped out at that join (R246). -/
  atJoin : Bool := false
  /-- Slot whose block of the save area holds the image of its last save (R407). -/
  imaged : Option Nat := none
  /-- The tile coordinate number the group holds as its unit (R234, R244). -/
  unit : Option Nat := none
  /-- Number of units begun, which names the current unit (R263). -/
  unitNo : Nat := 0
  inherit : W64 := 0
  /-- Ring slots reserved in QA and QB (R278). -/
  resA : Nat := 0
  resB : Nat := 0
  /-- Class of the record at admission (R303). -/
  pclass : Nat := 0
  /-- Scratchpad granules and table entries reserved at admission (R190, R242). -/
  granules : Nat := 0
  handles : Nat := 0
  rays : List Ray := []
  /-- Job, graph walk, LOOP run and creating unit of its launch (R263). -/
  mem : Member := { }
  /-- Ranked last in issue selection (R130). -/
  yielded : Bool := false
  /-- The state at the moment of a pre-emption that a restore returns to: Running, Parked or Faulted. -/
  savedFrom : Phase := .running
  /-- The save in progress is that of an abandoned load, which leaves the save area as it is (R96). -/
  abandoned : Bool := false
  deriving DecidableEq, Repr, Inhabited

/-! ## Memory, caches, translation (chapters 06, 08, 21, 23) -/

/-- A cached entry of one core (R390): the range of addresses it serves, the entry, where it lies and its level. -/
structure TlbEntry where
  core : Nat
  ctx : Nat
  base : Nat
  size : Nat
  leaf : W64
  leafAt : Nat
  lvl : Nat := 0
  deriving DecidableEq, Repr, Inhabited

/-- A snare token (R218); tentative: a reader token of a load that has not retired (R219). -/
structure Token where
  sector : Nat
  ctx : Nat
  core : Nat
  slot : Nat
  seq : BitVec 16
  writer : Bool
  tentative : Bool := false
  /-- Ended regions of the same group whose writer tokens on the sector it stands for too, until their stores are performed (log 105). -/
  also : List (BitVec 16) := []
  deriving DecidableEq, Repr, Inhabited

/-- A translation: the physical key, KIND, PEER, the entry, and where the leaf lies. -/
structure Leaf where
  key : Nat
  pa : Nat
  kind : Nat
  peer : Nat
  e : Nat
  leafAt : Nat
  /-- Size of the page. -/
  size : Nat := 65536
  deriving DecidableEq, Repr, Inhabited

/-- What an instruction that translates lane by lane has found for a page (R390): the address, and its leaf, or the level and the CODE
where the walk stopped. -/
structure Seen where
  va : Nat
  leaf : Option Leaf
  lvl : Nat := 0
  code : Nat := 0
  deriving DecidableEq, Repr, Inhabited

/-- Memory, the home slices and the caches. -/
structure MemSys where
  /-- Each location's value at its serialisation point (R19, R166). -/
  mem : Memory := []
  /-- The value the backing memory holds (R167, R180). -/
  backing : Memory := []
  /-- 32-byte sectors of home slices whose data the backing memory does not hold yet, rising. -/
  dirty : List Nat := []
  /-- Sectors of which a home slice holds a clean copy older than the backing memory, after an encoder's write (R444). -/
  stale : List Nat := []
  /-- Poisoned sectors as the home slices see them, and as the backing memory carries them (R422). -/
  poison : List Nat := []
  poisonBack : List Nat := []
  tlb : List TlbEntry := []
  /-- Leaves that a translation cache has lost without an invalidation: lines of their ranges may still be held (R392). -/
  past : List TlbEntry := []
  /-- The translations that the instruction in hand has taken, while it translates lane by lane (R390). -/
  reuse : Option (List Seen) := none
  /-- Lines of home slices marked first for replacement (R172), rising. -/
  first : List Nat := []
  /-- Lines held by first-level caches: core and line number (R167), the last one of a core to be replaced first. -/
  l1 : List (Nat × Nat) := []
  /-- Brick-cache lines: core and line number (R364). -/
  brick : List (Nat × Nat) := []
  /-- Lines owned for local atomics: line number and core (R186). -/
  owned : List (Nat × Nat) := []
  tokens : List Token := []
  /-- Lines pinned by staging, with the die and entry of the record (R296). -/
  pins : List (Nat × Nat × Nat) := []
  /-- Ranges written in the present move, the newest first: key and length. The command core looks among them for doorbell
  words (R22). -/
  wrote : List (Nat × Nat) := []
  deriving DecidableEq, Repr, Inhabited

/-! ## Tiles, barriers, copies, draws (chapters 07, 11, 20) -/

/-- State of a tile-table entry (R195); a Free entry is not listed. -/
inductive TileState where
  | open_ | filling | full | draining | global
  deriving DecidableEq, Repr, Inhabited

/-- A live tile-table entry (R190). -/
structure Tile where
  core : Nat
  idx : Nat
  st : TileState
  gen : BitVec 16
  ty : BitVec 4
  skew : Bool
  rows : Nat
  cols : Nat
  base : Nat := 0
  stride : Nat := 0
  /-- Reservation that holds the granules: the owner's, until hpass (R247); first granule within it and their number. -/
  res : Nat := 0
  gran : Nat := 0
  ngran : Nat := 0
  owner : Nat
  ctx : Nat
  /-- The launch of the owner, whose cancel ends the generation of a tile still Draining (R195): die and entry of its pool record, and
  its generation. -/
  launch : Option (Nat × Nat × BitVec 16) := none
  /-- Of a saved tile, the number of its first granule image in the save area (R406). -/
  img : Nat := 0
  inbound : Nat := 0
  outbound : Nat := 0
  err : Bool := false
  meta_ : Bool := false
  ecause : Byte := 0
  /-- Words by index row·rowWords + word: value and tag; an unlisted word is 0 and empty (R193, R197). -/
  words : Sparse (W32 × Bool) := []
  /-- Poisoned words (R422), and words that a failed copy left unfilled, which raise ECAUSE (R202). -/
  poison : List Nat := []
  failed : List Nat := []
  deriving DecidableEq, Repr, Inhabited

/-- State of a barrier entry (R251); a Free entry is not listed. -/
inductive BarState where
  | live | spilled
  deriving DecidableEq, Repr, Inhabited

/-- A barrier-table entry (R251). -/
structure Barrier where
  core : Nat
  idx : Nat
  st : BarState
  ctx : Nat
  cl : Bool
  exp : Nat
  cnt : Nat := 0
  phase : BitVec 16 := 0
  memb : BitVec 16 := 0
  arr : BitVec 16 := 0
  /-- Bits held for members that are saved (R251). -/
  held : BitVec 16 := 0
  deriving DecidableEq, Repr, Inhabited

/-- Kind of a copy in flight. -/
inductive CopyKind where
  | tcpi | tcpo | tcpm | staging
  deriving DecidableEq, Repr, Inhabited

/-- A copy in flight (R202, R204, R296): its tile, its memory side, and the words it still has to land. -/
structure Copy where
  id : Nat
  kind : CopyKind
  gid : Nat
  ctx : Nat
  core : Nat
  /-- Source tile of tcpo and tcpm, destination tile of tcpi and staging. -/
  idx : Nat
  gen : BitVec 16
  /-- Destination of a tcpm on the peer. -/
  dcore : Nat := 0
  didx : Nat := 0
  dgen : BitVec 16 := 0
  row : Nat
  nrows : Nat
  addr : Nat := 0
  stride : Nat := 0
  compressed : Bool := false
  /-- Translations made at the start: number of a 64 KiB page, KIND, PEER and physical address of the page. -/
  map : List (Nat × Nat × Nat × Nat) := []
  /-- Words landed so far, counted over the copied rows. -/
  pos : Nat := 0
  /-- The source rows as they stood when the copy started (R205): for tcpo as memory rows, for tcpm as tile words. -/
  image : List (List Byte) := []
  /-- Copied rows of tcpo, or copied words of tcpm, that held a poisoned word at the start (R202). -/
  bad : List Nat := []
  deriving DecidableEq, Repr, Inhabited

/-- A key merge handed to a home slice and not yet performed (R376, R378). -/
structure Merge where
  id : Nat
  gid : Nat
  ctx : Nat
  key : Nat
  value : W64
  deriving DecidableEq, Repr, Inhabited

/-- A draw held by a sector's rasteriser (R379, R382). -/
structure Draw where
  id : Nat
  ctx : Nat
  gid : Nat
  core : Nat
  sector : Nat
  desc : Nat
  vtx : Nat
  idx : Nat
  ntri : Nat
  w : Nat
  h : Nat
  vbuf : Nat
  pbase : W32
  cull : Nat
  ctr : Nat
  next : Nat := 0
  saved : Bool := false
  record : Nat := 0
  deriving DecidableEq, Repr, Inhabited

/-- What the cores share outside their groups. -/
structure CoreSys where
  tiles : List Tile := []
  /-- Tiles of saved groups (R195). -/
  savedTiles : List Tile := []
  /-- Generation of each tile-table entry, by 256·core + idx (R190). -/
  tileGens : Sparse (BitVec 16) := []
  bars : List Barrier := []
  copies : List Copy := []
  merges : List Merge := []
  draws : List Draw := []
  /-- Cores whose hot flag is set by the sensors, and as the last sample published it (R294, R22). -/
  hotNow : List Nat := []
  hot : List Nat := []
  /-- Core clock in MHz that the power cap allows (R449), and the clock setting of each core, as the last sample gave it; an
  unlisted core runs at 2100 MHz (R22). -/
  clockMHz : Nat := 2100
  clocks : Sparse Nat := []
  nextId : Nat := 1
  /-- The next place among the waits for tile words (R196). -/
  nextWait : Nat := 1
  deriving DecidableEq, Repr, Inhabited

/-! ## Launches, policy, staging (chapters 09, 13) -/

/-- State of a pool entry (R239); a Free entry is not listed. -/
inductive EntryState where
  | held | waiting | admissible | running | doneCompleted | doneCancelled
  deriving DecidableEq, Repr, Inhabited

/-- A working-set entry as read at admission (R287). -/
structure WsEntry where
  va : Nat
  bytes : Nat
  level : Nat
  mode : Nat
  prio : Nat
  shape : W32 := 0
  ty : BitVec 4 := 0
  skew : Bool := false
  stride : Nat := 0
  hout : Nat := 0
  deriving DecidableEq, Repr, Inhabited

/-- A launch record (R230). -/
structure Record where
  kobj : Nat
  xm1 : Nat
  ym1 : Nat
  zm1 : Nat
  txl : Nat
  tyl : Nat
  tzl : Nat
  pclass : Nat
  grid : Bool
  hold : Bool
  ncore : Nat
  pred : Nat
  succ0 : W64
  succ1 : W64
  arg : Nat
  wsva : Nat
  wsn : Nat
  ctrva : Nat
  deriving DecidableEq, Repr, Inhabited

/-- A code object descriptor (R228). -/
structure KernelDesc where
  entry : Nat
  slots : Nat
  scrg : Nat
  handles : Nat
  child : Nat
  qout : BitVec 16
  deriving DecidableEq, Repr, Inhabited

/-- A pool entry: a launch or a task (R239). -/
structure PoolEntry where
  die : Nat
  entry : Nat
  gen : BitVec 16
  st : EntryState
  ctx : Nat
  rc : Record
  kd : KernelDesc
  /-- PRED as the device has decremented it. -/
  pred : Nat
  /-- The launching group, 0 when a command core wrote the record. -/
  launcher : Nat := 0
  mem : Member := { }
  /-- The packet run this record came from, 0 for none (R276). -/
  run : Nat := 0
  /-- Next number of the tambour (R234). -/
  next : Nat := 0
  /-- Groups bound so far and groups ended so far (R237). -/
  bound : Nat := 0
  ended : Nat := 0
  /-- Ordinals of withdrawn bindings, given to the next ones (R237, R301). -/
  holes : List Nat := []
  /-- Cores it has been bound to: a launch has at most one group on any core (R237). -/
  cores : List Nat := []
  /-- Grid barrier: arrivals and phase (R260). -/
  gridCnt : Nat := 0
  gridPhase : BitVec 16 := 0
  /-- Tile handed by hpass: its handle and core (R247). -/
  inherit : Option (W64 × Nat) := none
  /-- Order in which the entry first became Admissible, 0 before; whether its class was raised by aging (R291). -/
  age : Nat := 0
  raised : Bool := false
  /-- Class at its admission, which a running record keeps (R286). -/
  cls : Nat := 0
  /-- The other entry of a spanning record (R233): die 1's for the die-0 entry, and the die-0 entry for die 1's. -/
  twin : Option Nat := none
  ws : List WsEntry := []
  /-- An increase of UNITS has failed (R465). -/
  unitsFailed : Bool := false
  /-- Staging of the record stopped with lines that are not in their slices (R300, R301). -/
  unstaged : Bool := false
  deriving DecidableEq, Repr, Inhabited

/-- A staging request (R295, R296, R298): a LEVEL 0 entry's action, a LEVEL 1 entry, of which pos lines have landed, or the fill of a
LEVEL 2 tile by a copy. -/
structure StageReq where
  id : Nat
  die : Nat
  entry : Nat
  gid : Nat
  core : Nat
  ctx : Nat
  level : Nat
  va : Nat
  bytes : Nat
  prio : Nat
  copy : Nat := 0
  pos : Nat := 0
  /-- Place of its entry in the working set, and whether it makes the entry's coherence action. -/
  ord : Nat := 0
  inv : Bool := false
  /-- Its action is made, and its tile allocated. -/
  begun : Bool := false
  /-- Lines or words sent, and of how many of them a promotion has made demand requests (R298). -/
  sent : Nat := 0
  promoted : Nat := 0
  /-- A LEVEL 2 fill that goes on past the deadline as an inbound copy of its group's tile, at demand class (R300). -/
  asCopy : Bool := false
  /-- The places in their queue of what was sent: the first line or word sent together, and the number of its place. -/
  waves : List (Nat × Nat) := []
  deriving DecidableEq, Repr, Inhabited

/-- One of the eight bind records of the policy table (R286). -/
structure BindRec where
  bound : Bool := false
  fsect : Nat := 0
  psize : Nat := 0
  erase : Bool := false
  seqNo : Nat := 0
  deriving DecidableEq, Repr, Inhabited

/-- Pools, policy table and staging schedulers. -/
structure LaunchSys where
  pool : List PoolEntry := []
  /-- Generation of each pool entry, by 4096·die + entry (R232). -/
  poolGens : Sparse (BitVec 16) := []
  /-- The policy table by context number; an unlisted entry is all zero (R286). -/
  policy : Sparse Policy := []
  binds : List BindRec := List.replicate 8 { }
  bindSeq : Nat := 0
  staging : List StageReq := []
  nextAge : Nat := 1
  deriving DecidableEq, Repr, Inhabited

/-! ## Queues (chapter 12) -/

/-- A queue of a context (R264, R266); a Free queue is not listed. st: 1 Active, 2 Stopped, 3 Suspended. The descriptor in
memory shows RIDX, WIDX, STATE, ERR and EIDX as they stand here. -/
structure Queue where
  ctx : Nat
  q : Nat
  base : Nat
  log2n : Nat
  feed : Bool
  jctr : Nat
  ridx : Nat
  widx : Nat
  st : Nat := 1
  err : Nat := 0
  eidx : Nat := 0
  /-- Index of the next packet to start: RIDX, or below it in a later iteration of a LOOP (R275). -/
  pos : Nat
  /-- Packets consumed within an open LOOP range, which its later iterations start again (R275). -/
  body : List (Nat × List Byte) := []
  /-- Number of the job whose packets are being consumed (R262), and whether it is cancelled (R279). -/
  job : Nat := 0
  skipJob : Bool := false
  /-- Whether a packet of that job has been cancelled without the job, or skipped at a restart, so that the job never completes (R262,
  R266, R276). -/
  lost : Bool := false
  /-- Jobs cancelled since their JEND packet was consumed, whose packets a later iteration of a LOOP would start again (R275, R279). -/
  gone : List Nat := []
  /-- Jobs whose JEND packet has been consumed and that are not counted yet, with that packet's index. -/
  jends : List (Nat × Nat) := []
  /-- The newest doorbell value that came while the queue was not Active (R23). -/
  bell : Option Nat := none
  deriving DecidableEq, Repr, Inhabited

/-- A COND or LOOP range that is open in a sequence (R275): the run of its packet, the range's first index and length. skip: a
range that a COND passes over, whose COND has completed (run 0). -/
structure Range where
  run : Nat
  loop : Bool
  skip : Bool := false
  first : Nat
  len : Nat
  deriving DecidableEq, Repr, Inhabited

/-- A packet that has started and not completed (R267, R276): its bytes, and what it has done so far. -/
structure PacketRun where
  id : Nat
  seq : SeqRef
  index : Nat
  kind : Nat
  body : List Byte
  mem : Member
  /-- The job of its queue that it counts for. -/
  job : Nat
  die : Nat := 0
  entry : Nat := 0
  /-- Of a LOOP packet, the iterations ended; of a GRAPH or COPY packet, 1 once its counter or record is being written. -/
  it : Nat := 0
  moved : Nat := 0
  /-- Of a COPY packet, the status of R273. Of a LOOP packet, 0 in an iteration, 1 at the test after one, 2 from an iteration's end
  until PCTR is counted, which a failed write never ends (R465). -/
  status : Nat := 0
  cause : Byte := 0
  walk : Nat := 0
  /-- Its work is performed: it may complete. -/
  ready : Bool := false
  cancelled : Bool := false
  /-- Of a COPY packet, its place among the requests of its queue (R298). -/
  no : Nat := 0
  deriving DecidableEq, Repr, Inhabited

/-- A walk of a graph descriptor (R274): its nodes as read when the GRAPH packet started. -/
structure Walk where
  id : Nat
  ctx : Nat
  q : Nat
  run : Nat
  nodes : List (List Byte)
  gctr : Nat
  pos : Nat := 0
  cancelled : Bool := false
  deriving DecidableEq, Repr, Inhabited

/-- A packet placed by enq keeps the levels of the group that placed it (R263): its queue, its ring index, and they. -/
structure Placed where
  ctx : Nat
  q : Nat
  index : Nat
  mem : Member
  cancelled : Bool := false
  deriving DecidableEq, Repr, Inhabited

/-- Queues, packets and graph walks. -/
structure QueueSys where
  queues : List Queue := []
  runs : List PacketRun := []
  walks : List Walk := []
  /-- Open COND and LOOP ranges of each sequence, innermost first. -/
  ranges : List (SeqRef × List Range) := []
  placed : List Placed := []
  nextRun : Nat := 1
  nextWalk : Nat := 1
  /-- The number of a new queue's first job: no queue that was freed has had a job of that number or a higher one (R263). -/
  nextJob : Nat := 0
  deriving DecidableEq, Repr, Inhabited

/-! ## Contexts, partitions, faults (chapters 21, 22, 23) -/

/-- STATE of a context record (R403, R404); a Free context is not listed. -/
inductive CtxState where
  | created | bound | runnable | running | preempting | saved | faulted | destroyed
  deriving DecidableEq, Repr, Inhabited

/-- A context: the fields the device reads at create and bind, and what it keeps in the record (R403). -/
structure Ctx where
  n : Nat
  st : CtxState
  fsect : Nat
  psize : Nat
  ptroot : Nat
  save : Nat
  dbell : Nat
  qtab : Nat
  svsz : Nat
  fcause : Byte := 0
  faddr : BitVec 52 := 0
  /-- A resume that reached the context while Pre-empting (R404). -/
  resumeDue : Bool := false
  deriving DecidableEq, Repr, Inhabited

/-- A bound partition (R402), its outputs (R446) and whether it is quarantined (R451). -/
structure Part where
  fsect : Nat
  psize : Nat
  /-- Which of the device's binds made it: the map from its lines to its home slices is fixed with it (R19). -/
  bindNo : Nat := 0
  outs : List Nat := []
  quarantined : Bool := false
  /-- The target of a checkpoint in progress, while which inbound fabric writes are refused (R453). -/
  ckpt : Option Nat := none
  deriving DecidableEq, Repr, Inhabited

/-- Who waits on a fault record (R394, R396). -/
inductive Requester where
  | group (gid : Nat)
  | ray (gid lane : Nat)
  | draw (id : Nat)
  | write (id : Nat)
  | xfer (id : Nat)
  /-- The next packet of a sequence, which has not started. -/
  | packet (seq : SeqRef)
  /-- A WAIT or LOOP packet that has started. -/
  | started (run : Nat)
  | copy (run : Nat)
  deriving DecidableEq, Repr, Inhabited

/-- A fault record (R394): context, page and level, and its requesters. -/
structure FaultRec where
  id : Nat
  die : Nat
  ctx : Nat
  page : Nat
  level : Nat
  reqs : List Requester
  deriving DecidableEq, Repr, Inhabited

/-- What a write on behalf of work does (R262, R272, R381, R439): an atomic add, an OR of the CANCEL mark, a
compare-and-swap from 0, or a store of bytes. -/
inductive DevOp where
  | add (v : W64)
  | mark
  | first (v : W64)
  | store (b : List Byte)
  deriving DecidableEq, Repr, Inhabited

/-- What its rule places after a write on behalf of work (R465). -/
inductive DevAfter where
  | nothing
  /-- The launch may have become complete (R236). -/
  | unit (die entry : Nat)
  /-- Successor references still to act on (R239, R240). -/
  | succ (refs : List W64)
  /-- The packet run's work is performed (R276): GCTR of a GRAPH packet, WCNT of a COPY packet. -/
  | ready (run : Nat)
  /-- The completion record is written; WCNT follows (R272). -/
  | count (run ring : Nat)
  /-- PCTR is counted; the LOOP tests its word (R275). -/
  | test (run : Nat)
  /-- The transfer's status word is written (R439). -/
  | xfer (id : Nat)
  deriving DecidableEq, Repr, Inhabited

/-- A write on behalf of work that waits for service (R465): the context, the die whose command core makes it, the address,
the operation, and what is placed after it; record 0 while it waits for a free fault record (R394). pod: whether a pod page
admits it. launch: the pool entry whose unit it counts. -/
structure DevWrite where
  id : Nat := 0
  ctx : Nat
  die : Nat
  addr : Nat
  op : DevOp
  after : DevAfter := .nothing
  pod : Bool := true
  launch : Option (Nat × Nat) := none
  record : Nat := 0
  deriving DecidableEq, Repr, Inhabited

/-- What the command core notifies system software of (R96, R419). -/
inductive Notice where
  | cause (gid : Nat) (cause : Byte)
  | record (id : Nat)
  | fwcall (gid : Nat)
  deriving DecidableEq, Repr, Inhabited

/-- A watchpoint (R423). -/
structure Watch where
  ctx : Nat
  w : WatchArg
  deriving DecidableEq, Repr, Inhabited

/-- Contexts, partitions and fault service. -/
structure CtxSys where
  /-- Context-table base (R403). -/
  tab : Nat := 0
  ctxs : List Ctx := []
  parts : List Part := []
  recs : List FaultRec := []
  nextRec : Nat := 1
  writes : List DevWrite := []
  nextWrite : Nat := 1
  notices : List Notice := []
  watch : List Watch := []
  /-- Invalidations requested and not complete: context, first address, length (R392). -/
  invals : List (Nat × Nat × Nat) := []
  deriving DecidableEq, Repr, Inhabited

/-! ## The link (chapter 25) -/

/-- State of a fabric port or of the host link (R432, R436). -/
inductive PortState where
  | down | training (failures : Nat) | up | narrowed (low : Bool) | fault
  deriving DecidableEq, Repr, Inhabited

/-- State of the host link (R436), with the trained rate and width. -/
inductive HostState where
  | down | training (failures : Nat) | up | degraded (rate width : Nat) | fault
  deriving DecidableEq, Repr, Inhabited

/-- An lput or lget that has started and whose status is not fixed (R439). -/
structure Xfer where
  id : Nat
  gid : Nat
  ctx : Nat
  core : Nat
  put : Bool
  loc : Nat
  rem : Nat
  len : Nat
  /-- Address of its status word, none for none. -/
  status : Option Nat
  pos : Nat := 0
  /-- Its status is fixed, and its status word is being written. -/
  ended : Bool := false
  record : Nat := 0
  deriving DecidableEq, Repr, Inhabited

/-- What is known of a pod peer (R400, R434, R437): the address ranges that lie in no bound partition of it, those its
access table refuses, and whether it gives no response. -/
structure Peer where
  pod : Nat
  unbound : List (Nat × Nat) := []
  silent : Bool := false
  refuse : List (Nat × Nat) := []
  deriving DecidableEq, Repr, Inhabited

/-- The fabric, the host link and transfers. -/
structure LinkSys where
  ports : Vector PortState 36 := Vector.replicate 36 .down
  pod : Nat := 0
  /-- Routing table by peer: mask of ports (R433); an unlisted peer has none. -/
  routes : Sparse (BitVec 36) := []
  host : HostState := .up
  xfers : List Xfer := []
  peers : List Peer := []
  access : List AccessEntry := []
  /-- Refused accesses of this device to its own pod number whose alarm is due: partition and address (R433, R450). -/
  due : List (Nat × Nat) := []
  deriving DecidableEq, Repr, Inhabited

/-- What moves next: an event of the device or the outside world; the group named; what is known of a pod peer changes; the host
or a peer writes memory of its own, named by its key; system software supplies the context-table base (R403); or an access that was held
while the device slept is made (R448). -/
inductive Turn where
  | event (i : Instr)
  | group (gid : Nat)
  | peer (p : Peer)
  | remote (key : Nat) (bytes : List Byte)
  | contextTable (base : Nat)
  | access (h : HeldAccess)
  deriving DecidableEq, Repr, Inhabited

/-! ## The management controller, heads and encoders (chapter 26) -/

/-- A latched head descriptor (R445). -/
structure HeadDesc where
  base : Nat
  stride : Nat
  w : Nat
  h : Nat
  fmt : Nat
  out : Nat
  hz : Nat
  flipctr : Nat
  deriving DecidableEq, Repr, Inhabited

/-- A display head (R445): its descriptor's address, the descriptor latched for the frame, and whether it outputs black. -/
structure Head where
  addr : Option Nat := none
  latched : Option HeadDesc := none
  black : Bool := true
  deriving DecidableEq, Repr, Inhabited

/-- An encode job (R447). -/
structure EncJob where
  sector : Nat
  recAt : Nat
  src : Nat
  stride : Nat
  w : Nat
  h : Nat
  codec : Nat
  depth : Nat
  rc : Nat
  qp : Nat
  key : Bool
  kbps : Nat
  dst : Nat
  dlen : Nat
  cring : Nat
  tag : W64
  cancelled : Bool := false
  deriving DecidableEq, Repr, Inhabited

/-- The management page (R442) and what the management controller holds. -/
structure Mgmt where
  ltol : W32 := 0
  pstate : BitVec 3 := 0
  thot : Byte := 95
  alpol : BitVec 2 := 1
  alarm : Byte := 0
  boot : BitVec 2 := 0
  minver : W32 := Config.minVersion
  /-- The accepted firmware image, its VERSION and whether the key store holds its pair (R443, R451). -/
  image : List Byte := []
  keyStore : List Byte := []
  /-- The last quote returned, empty when none or refused (R452). -/
  quote : List Byte := []
  /-- The device is leaving its power state (R448). -/
  leaving : Bool := false
  /-- What has reached the sleeping device and is held until the exit completes, in the order of its arrival (R448). -/
  held : List Turn := []
  heads : Vector Head 8 := Vector.replicate 8 { }
  jobs : List EncJob := []
  /-- Counts of corrected soft errors (R422). -/
  corrected : Nat := 0
  /-- An access table refused or a sensor fired: last event per partition, for the alarm (R22). -/
  events : List (Nat × Nat) := []
  deriving DecidableEq, Repr, Inhabited

/-! ## The machine -/

/-- The machine. g is the group whose turn it is; others are all the rest, by rising gid. -/
structure State where
  g : Group := { }
  others : List Group := []
  /-- The interleaving of groups, engines and the outside world: whose move each coming step is (log 2). -/
  turns : List Turn := []
  /-- Choices between an old translation and the page table (R392, log 3): true uses the cached one. -/
  choices : List Bool := []
  /-- After how many of its lanes each coming atomic lets others move (R183, log 2); an atomic that finds none performs them all. -/
  pauses : List Nat := []
  /-- The model's own counter of moves, which tells what may fall in one cycle with the move before (R352). -/
  moves : Nat := 0
  /-- The model's own counter: how many free values have been taken (log 4). -/
  fresh : Nat := 0
  /-- Nanoseconds since device reset, as last read (R416). -/
  clock : Nat := 0
  nextGid : Nat := 1
  ms : MemSys := { }
  cs : CoreSys := { }
  ls : LaunchSys := { }
  qs : QueueSys := { }
  cx : CtxSys := { }
  lk : LinkSys := { }
  mg : Mgmt := { }
  deriving DecidableEq, Repr, Inhabited

/-- Why the machine stops with a fault. No instruction of this model does: every cause of R414 is taken as a trap, and
an event that does not apply changes nothing (R6). The constructor is here because the interface asks for a type; nothing
raises it, which is safe. -/
inductive Fault where
  /-- Raised by nothing; safe. -/
  | none_
  deriving DecidableEq, Repr, Inhabited

/-- Why an instruction has no meaning. -/
inductive Refusal where
  /-- An instruction rejected by name because the model gives it no meaning yet; safe: the run ends there. -/
  | notModelled (mnemonic : String)
  deriving DecidableEq, Repr, Inhabited

/-- The machine right after a cold reset (R442): nothing bound, no context, no group, memory with nothing listed. -/
def State.reset : State := { }

/-- The outcome of one step. -/
abbrev Out := Host.Outcome State Fault Refusal

end Sys2Proof.Machine
end

