-- ==== Sys2Proof/Machine/Base.lean ====
section
/-! DEFINITION. The named operations over sparse memory, registers, groups, regions and stores that every meaning uses. -/

namespace Sys2Proof.Machine

/-! ## Sparse data in canonical form -/

/-- The value at key k; an unlisted key reads as d. -/
def sparseGet {α : Type} (d : α) : Sparse α → Nat → α
  | [], _ => d
  | (j, w) :: r, k => if k < j then d else if k = j then w else sparseGet d r k

/-- Write v at key k, keeping keys rising and no entry equal to d. -/
def sparseSet {α : Type} [DecidableEq α] (d : α) (k : Nat) (v : α) : Sparse α → Sparse α
  | [] => if v = d then [] else [(k, v)]
  | (j, w) :: r =>
    if j < k then (j, w) :: sparseSet d k v r
    else if j = k then (if v = d then r else (k, v) :: r)
    else (if v = d then (j, w) :: r else (k, v) :: (j, w) :: r)

/-- The canonical form: keys above lo, strictly rising, and no entry equal to d. -/
def sparseWfFrom {α : Type} [DecidableEq α] (d : α) : Nat → Sparse α → Bool
  | _, [] => true
  | lo, (j, w) :: r => lo ≤ j && w != d && sparseWfFrom d (j + 1) r

/-- The canonical form of a memory. -/
def Memory.wf (m : Memory) : Bool := sparseWfFrom (0 : Byte) 0 m

/-- What a byte reads as (an unlisted one reads 0, log 1). -/
def memGet (m : Memory) (k : Nat) : Byte := sparseGet 0 m k
/-- Write one byte. -/
def memSet (m : Memory) (k : Nat) (b : Byte) : Memory := sparseSet 0 k b m
/-- Write bytes at rising keys from k. -/
def memSetAll (m : Memory) (k : Nat) : List Byte → Memory
  | [] => m
  | b :: r => memSetAll (memSet m k b) (k + 1) r
/-- n bytes from k. -/
def memRead (m : Memory) (k n : Nat) : List Byte := (List.range n).map fun i => memGet m (k + i)

/-! ## Rising lists of numbers (dirty and poisoned sectors) -/

/-- Insert into a rising list. -/
def insertNat (k : Nat) : List Nat → List Nat
  | [] => [k]
  | j :: r => if j < k then j :: insertNat k r else if j = k then j :: r else k :: j :: r

/-! ## Bytes and words (R4: little-endian) -/

/-- The number whose bytes these are, lowest first. -/
def leNat : List Byte → Nat
  | [] => 0
  | b :: r => b.toNat + 256 * leNat r

/-- The low n bytes of v, lowest first. -/
def leBytes : Nat → Nat → List Byte
  | 0, _ => []
  | n + 1, v => BitVec.ofNat 8 v :: leBytes n (v / 256)

/-- Bits hi:lo of a number. -/
def natBits (v lo n : Nat) : Nat := v / 2 ^ lo % 2 ^ n

/-- The 64-bit pattern of an integer. -/
def w64 (x : Int) : W64 := BitVec.ofInt 64 x

/-! ## Lanes (R105, R131) -/

/-- The 32 lane numbers. -/
def lanes : List Nat := List.range 32
/-- The mask of the lanes that satisfy q. -/
def maskOf (q : Nat → Bool) : W32 := lanes.foldl (fun m i => if q i then m ||| BitVec.twoPow 32 i else m) 0
/-- The mask that holds the listed lanes. -/
def maskOfList (l : List Nat) : W32 := l.foldl (fun m i => m ||| BitVec.twoPow 32 i) 0
/-- The lanes of a mask in ascending order. -/
def activeLanes (m : W32) : List Nat := lanes.filter fun i => m.getLsbD i
/-- The lowest lane of a mask. -/
def lowLane (m : W32) : Nat := (activeLanes m).headD 0

/-! ## Registers (R66, R109, R418, R422) -/

/-- Whether a scalar number names a trap scratch register z0 to z7. -/
def Group.zAlias (g : Group) (n : BitVec 6) : Bool := g.hmode && 56 ≤ n.toNat
/-- Whether a vector number names a trap scratch register zv0 to zv3. -/
def Group.zvAlias (g : Group) (n : Byte) : Bool := g.hmode && 252 ≤ n.toNat

/-- S[n]: s0 reads 0, and numbers 56 to 63 name z0 to z7 in handler mode. -/
def Group.sget (g : Group) (n : BitVec 6) : W64 :=
  if n = 0 then 0
  else if g.zAlias n then g.r.z[(n.toNat - 56) % 8]!
  else g.r.s[n.toNat]'n.isLt

/-- The poison item of a scalar number. -/
def Group.sitem (g : Group) (n : BitVec 6) : Item := if g.zAlias n then .z (n.toNat - 56) else .s n.toNat

/-- Write S[n]: a write to s0 is discarded; a write of the whole item clears its poison mark. -/
def Group.sput (g : Group) (n : BitVec 6) (x : W64) : Group :=
  if n = 0 then g
  else if g.zAlias n then
    { g with r := { g.r with z := g.r.z.set! (n.toNat - 56) x, poison := g.r.poison.filter (· ≠ .z (n.toNat - 56)) } }
  else { g with r := { g.r with s := g.r.s.set n.toNat x n.isLt, poison := g.r.poison.filter (· ≠ .s n.toNat) } }

/-- V[n], all 32 lanes. -/
def Group.vreg (g : Group) (n : Byte) : VReg :=
  if g.zvAlias n then g.r.zv[(n.toNat - 252) % 4]! else g.r.v[n.toNat]'n.isLt
/-- V[n][i]. -/
def Group.vget (g : Group) (n : Byte) (i : Nat) : W32 := (g.vreg n)[i % 32]!
/-- The poison item of a lane of a vector number. -/
def Group.vitem (g : Group) (n : Byte) (i : Nat) : Item := if g.zvAlias n then .zv (n.toNat - 252) i else .v n.toNat i

/-- Write V[n][i] := f i in the lanes of m, and no other lane. -/
def Group.vput (g : Group) (n : Byte) (m : W32) (f : Nat → W32) : Group :=
  let old := g.vreg n
  let new : VReg := Vector.ofFn fun i => if m.getLsbD i.val then f i.val else old[i]
  let keep := fun (t : Item) => !(activeLanes m).any (fun i => t == g.vitem n i)
  let poison := if g.r.poison = [] then [] else g.r.poison.filter keep
  if g.zvAlias n then { g with r := { g.r with zv := g.r.zv.set! (n.toNat - 252) new, poison := poison } }
  else { g with r := { g.r with v := g.r.v.set n.toNat new n.isLt, poison := poison } }

/-- Lane i of the pair n, n + 1 (R67): the lower register holds the low word. -/
def Group.vpair (g : Group) (n : Byte) (i : Nat) : W64 := g.vget (n + 1) i ++ g.vget n i
/-- Write a pair in the lanes of m. -/
def Group.vputPair (g : Group) (n : Byte) (m : W32) (f : Nat → W64) : Group :=
  (g.vput n m fun i => (f i).setWidth 32).vput (n + 1) m fun i => (f i).extractLsb' 32 32

/-- P[n]: p0 reads all ones. -/
def Group.pget (g : Group) (n : BitVec 4) : W32 := if n = 0 then 0xFFFFFFFF else g.r.p[n.toNat]'n.isLt
/-- Write P[n]; a write to p0 is discarded; a write of the whole item clears its poison mark. -/
def Group.pput (g : Group) (n : BitVec 4) (x : W32) : Group :=
  if n = 0 then g
  else { g with r := { g.r with p := g.r.p.set n.toNat x n.isLt, poison := g.r.poison.filter (· ≠ .p n.toNat) } }
/-- The poison item of a predicate; p0 holds nothing. -/
def pitem (n : BitVec 4) : List Item := if n = 0 then [] else [.p n.toNat]
/-- An 8-bit field as a predicate number. -/
def pnum (x : Byte) : BitVec 4 := x.setWidth 4
/-- An 8-bit field as a scalar number. -/
def snum (x : Byte) : BitVec 6 := x.setWidth 6

/-- A[n][row][col]. -/
def Group.aget (g : Group) (n : BitVec 2) (row col : Nat) : W128 := ((g.r.a[n.toNat]'n.isLt)[row % 32]!)[col % 16]!

/-- The active mask of an instruction under a predicate of true or complemented sense (R71). -/
def Group.active (g : Group) (pred : BitVec 4) (pneg : BitVec 1) : W32 :=
  g.r.mask &&& (if pneg = 1 then ~~~ g.pget pred else g.pget pred)

/-- Of the items read, the poisoned ones. -/
def Group.poisoned (g : Group) (items : List Item) : List Item :=
  if g.r.poison = [] then [] else items.filter fun t => g.r.poison.contains t
/-- The lane an item belongs to, if any. -/
def itemLane : Item → Option Nat
  | .v _ i => some i
  | .zv _ i => some i
  | _ => none

/-! ## Groups and the machine -/

/-- Whether the group holds a slot (R96). -/
def Phase.holdsSlot : Phase → Bool
  | .bound | .loading | .running | .parked | .faulted | .saving | .discardingPreempt | .discardingCancel => true
  | .saved | .ended => false

/-- Every group there is. -/
def State.groups (s : State) : List Group := if s.g.gid = 0 then s.others else s.g :: s.others

/-- Insert a group by rising gid. -/
def insertGroup (g : Group) : List Group → List Group
  | [] => [g]
  | h :: r => if h.gid < g.gid then h :: insertGroup g r else g :: h :: r

/-- Put the group back among the others; the placeholder and an ended group are dropped. -/
def keepGroup (g : Group) (l : List Group) : List Group :=
  if g.gid = 0 || g.phase = .ended then l else insertGroup g l

/-- Give group gid the turn; nothing changes when there is none. -/
def State.focus (s : State) (gid : Nat) : State :=
  if s.g.gid = gid then s
  else match s.others.find? (·.gid = gid) with
    | none => s
    | some h => { s with g := h, others := keepGroup s.g (s.others.filter (·.gid ≠ gid)) }

/-- Do k with the group gid in the turn, then give the turn back. -/
def State.onGroup (s : State) (gid : Nat) (k : State → State) : State :=
  if s.g.gid = gid then k s
  else if (s.others.any (·.gid = gid)) then
    let back := s.g
    let s1 := k (s.focus gid)
    if back.gid = 0 then { s1 with g := back, others := keepGroup s1.g s1.others } else s1.focus back.gid
  else s

/-- The group that holds a slot of a core. -/
def State.groupAt (s : State) (core slot : Nat) : Option Group :=
  s.groups.find? fun g => g.core = core && g.slot = slot && g.phase.holdsSlot

/-- The group named gid. -/
def State.groupOf (s : State) (gid : Nat) : Option Group := s.groups.find? (·.gid = gid)

/-- Do k with the group in this slot in the turn; nothing changes when the slot is free. -/
def State.onSlot (s : State) (core slot : Nat) (k : State → State) : State :=
  match s.groupAt core slot with
  | none => s
  | some g => s.onGroup g.gid k

/-- Replace one group by a function of it. -/
def State.mapGroup (s : State) (gid : Nat) (f : Group → Group) : State :=
  if s.g.gid = gid then { s with g := f s.g }
  else { s with others := s.others.map fun g => if g.gid = gid then f g else g }

/-- Replace every group by a function of it. -/
def State.mapGroups (s : State) (f : Group → Group) : State :=
  { s with g := if s.g.gid = 0 then s.g else f s.g, others := s.others.map f }

/-- Replace the registers of the group whose turn it is. -/
def State.mapR (s : State) (f : Arch → Arch) : State := { s with g := { s.g with r := f s.g.r } }

/-- A free bit (log 4): the next value of the opaque source. -/
def State.takeBit (s : State) : Bool × State := (Config.freeBit s.fresh, { s with fresh := s.fresh + 1 })

/-- The first n entries that q holds of, and every other entry: what a store of n entries keeps, the newest standing first. -/
def keepFirst {α : Type} (q : α → Bool) : Nat → List α → List α
  | _, [] => []
  | n, x :: r => if q x then (match n with | 0 => keepFirst q 0 r | k + 1 => x :: keepFirst q k r) else x :: keepFirst q n r

/-- The next name for a copy, merge, draw, transfer, ray record or staging request. -/
def State.newId (s : State) : Nat × State := (s.cs.nextId, { s with cs := { s.cs with nextId := s.cs.nextId + 1 } })

/-! ## Topology (R14, R15) -/

/-- The die of a core. -/
def coreDie (c : Nat) : Nat := c / 128
/-- The global sector of a core. -/
def coreSector (c : Nat) : Nat := c / 32
/-- The peer core of the cluster. -/
def corePeer (c : Nat) : Nat := if c % 2 = 0 then c + 1 else c - 1

/-! ## Physical memory (R19, R166, R167, R178, R180, R422) -/

/-- First key of host memory; peer p begins at (2 + p) times this. -/
def spaceSize : Nat := 2 ^ 52
/-- Key of a physical address: kind 0 device, 1 host, 2 pod. A PEER equal to the device's own pod number reaches this
device's memory (R433). -/
def physKey (s : State) (kind peer a : Nat) : Nat :=
  match kind with
  | 0 => a
  | 1 => spaceSize + a
  | _ => if peer = s.lk.pod then a else (2 + peer) * spaceSize + a
/-- Whether a key lies in device or host memory, which the home slices hold. -/
def isLocalKey (k : Nat) : Bool := k < 2 * spaceSize

/-- Sectors and lines of a range of keys. -/
def sectorsOf (k n : Nat) : List Nat := if n = 0 then [] else (List.range ((k + n - 1) / 32 - k / 32 + 1)).map (· + k / 32)
/-- Lines of a range of keys. -/
def linesOf (k n : Nat) : List Nat := if n = 0 then [] else (List.range ((k + n - 1) / 128 - k / 128 + 1)).map (· + k / 128)

/-- Recall the ownership of the lines of a range (R186): the value is at the serialisation point already, so only the
ownership ends. -/
def MemSys.recall (ms : MemSys) (k n : Nat) : MemSys :=
  if ms.owned = [] then ms else { ms with owned := ms.owned.filter fun o => !(linesOf k n).contains o.1 }

/-- Drop the first-level and brick-cache copies of the lines of a range (R167, R364). -/
def MemSys.dropCopies (ms : MemSys) (k n : Nat) : MemSys :=
  { ms with l1 := ms.l1.filter fun o => !(linesOf k n).contains o.2
            brick := ms.brick.filter fun o => !(linesOf k n).contains o.2 }

/-- Perform a write at the serialisation point: bytes, dirty sectors of the home slices, copies dropped, ownership
recalled, and the poison of the listed sectors cleared. -/
def MemSys.write (ms : MemSys) (k : Nat) (b : List Byte) (clears : List Nat := []) : MemSys :=
  let ms := (ms.recall k b.length).dropCopies k b.length
  { ms with
    mem := memSetAll ms.mem k b
    dirty := if isLocalKey k then (sectorsOf k b.length).foldl (fun l x => insertNat x l) ms.dirty else ms.dirty
    stale := if ms.stale = [] then [] else ms.stale.filter fun x => !(sectorsOf k b.length).contains x
    backing := if isLocalKey k then ms.backing else memSetAll ms.backing k b
    wrote := (k, b.length) :: ms.wrote
    poison := if ms.poison = [] then [] else ms.poison.filter (!clears.contains ·) }

/-- Perform a write by a device engine: sectors it covers whole lose their poison mark (R176). -/
def State.memWrite (s : State) (k : Nat) (b : List Byte) : State :=
  { s with ms := s.ms.write k b ((sectorsOf k b.length).filter fun x => k ≤ 32 * x && 32 * x + 32 ≤ k + b.length) }

/-- Bytes at the serialisation point. -/
def State.memBytes (s : State) (k n : Nat) : List Byte := memRead s.ms.mem k n
/-- A little-endian number at the serialisation point. -/
def State.memNat (s : State) (k n : Nat) : Nat := leNat (s.memBytes k n)
/-- Write the low n bytes of v. -/
def State.memPut (s : State) (k n v : Nat) : State := s.memWrite k (leBytes n v)

/-- Write dirty sectors of a range back to the backing memory, with their marks (R180, R422). -/
def MemSys.writeBack (ms : MemSys) (secs : List Nat) : MemSys :=
  let d := ms.dirty.filter fun x => secs.contains x
  { ms with
    backing := d.foldl (fun m x => memSetAll m (32 * x) (memRead ms.mem (32 * x) 32)) ms.backing
    poisonBack := d.foldl (fun l x => if ms.poison.contains x then insertNat x l else l.filter (· ≠ x)) ms.poisonBack
    dirty := ms.dirty.filter fun x => !secs.contains x }

/-- Drop sectors from the home slices: dirty data is discarded, and the location reads as its backing memory holds it, with the
backing memory's own mark if it has one and no other (R180, R422). -/
def MemSys.discard (ms : MemSys) (secs : List Nat) : MemSys :=
  let d := (ms.dirty ++ ms.stale).filter fun x => secs.contains x
  { ms with
    mem := d.foldl (fun m x => memSetAll m (32 * x) (memRead ms.backing (32 * x) 32)) ms.mem
    poison := if ms.poison = [] && ms.poisonBack = [] then []
      else secs.foldl (fun l x => if ms.poisonBack.contains x then insertNat x l else l.filter (· ≠ x)) ms.poison
    dirty := ms.dirty.filter fun x => !secs.contains x
    stale := ms.stale.filter fun x => !secs.contains x }

/-- Ownership of the lines that a core owns ends: a group of it is saved or discarded (R186). -/
def MemSys.giveUp (ms : MemSys) (core : Nat) : MemSys := { ms with owned := ms.owned.filter fun o => o.2 != core }
/-- The host or a peer writes memory of its own: dirty data goes there first, and no copy of it stays (R166). -/
def MemSys.remoteWrite (ms : MemSys) (k : Nat) (b : List Byte) : MemSys :=
  let ms := (ms.writeBack (sectorsOf k b.length)).dropCopies k b.length
  let whole := (sectorsOf k b.length).filter fun x => k ≤ 32 * x && 32 * x + 32 ≤ k + b.length
  { ms with
    mem := memSetAll ms.mem k b
    backing := memSetAll ms.backing k b
    poison := ms.poison.filter (!whole.contains ·)
    poisonBack := ms.poisonBack.filter (!whole.contains ·) }

/-- Write every dirty sector back (R211, scope sy). -/
def MemSys.writeBackAll (ms : MemSys) : MemSys := ms.writeBack ms.dirty

/-! ## Regions and tokens (R216 to R218, R408, R409) -/

/-- Whether a token is held by the group. -/
def Token.heldBy (t : Token) (g : Group) : Bool := t.ctx = g.ctx && t.core = g.core && t.slot = g.slot

/-- Tokens of the group's ended regions go once every store of the region is performed (R218). -/
def State.settleTokens (s : State) : State :=
  if s.ms.tokens = [] then s
  else
    let g := s.g
    let gone := fun (t : Token) => t.heldBy g && t.seq != g.seq && !(g.storeQ ++ g.relBuf).any fun p => p.seq == t.seq || t.also.contains p.seq
    { s with ms := { s.ms with tokens := s.ms.tokens.filter fun t => !gone t } }

/-- End the current region (R216, R217). -/
def State.endRegion (s : State) : State := State.settleTokens { s with g := { s.g with seq := s.g.seq + 1 } }

/-- End the region at the start of the oldest instruction, once, however often the instruction is tried (R216). -/
def State.endAtStart (s : State) : State :=
  if s.g.begun then s else { s.endRegion with g := { s.endRegion.g with begun := true } }

/-- Put a store among others that stand in program order. -/
def insertStore (p : PStore) : List PStore → List PStore
  | [] => [p]
  | q :: r => if q.no ≤ p.no then q :: insertStore p r else p :: q :: r
/-- The stores of a group that have retired and are not yet performed, in program order (R178, R409). -/
def Group.retired (g : Group) : List PStore := g.relBuf.foldl (fun l p => insertStore p l) g.storeQ
/-- Close any open idempotent region: its buffered stores move to the store queue in program order, ahead of every younger store
(R64, R409). -/
def Group.closeIdem (g : Group) : Group := { g with idem := none, storeQ := g.retired, relBuf := [] }
/-- Close any open idempotent region. -/
def State.closeIdem (s : State) : State := { s with g := s.g.closeIdem }

/-- Make an open idempotent region not replayable (R408): it stays open and its stores move to the store queue. -/
def Group.unreplayable (g : Group) : Group :=
  { g with idem := g.idem.map fun r => { r with replayable := false }, storeQ := g.retired, relBuf := [] }
/-- Make an open idempotent region not replayable. -/
def State.unreplayable (s : State) : State := { s with g := s.g.unreplayable }

/-- Whether stores go to the release buffer (R409). -/
def Group.buffering (g : Group) : Bool := match g.idem with | some r => r.replayable | none => false

/-- Whether a queued store waits for an older one that the release buffer holds: stores of one group are performed in program order
(R208, R214), so a private store passes no older buffered one (log 85). -/
def Group.blocked (g : Group) (p : PStore) : Bool := g.relBuf.any fun q => q.no < p.no
/-- Perform the oldest store of the store queue (R178). -/
def State.drainOne (s : State) : State :=
  match s.g.storeQ with
  | [] => s
  | p :: r =>
    if s.g.blocked p then s else State.settleTokens { s with g := { s.g with storeQ := r }, ms := s.ms.write p.key p.bytes p.clears }

/-- Perform the store queue's first n stores. -/
def drainN : Nat → State → State
  | 0, s => s
  | n + 1, s => drainN n s.drainOne

/-- Room in the store queue for n more entries: it has 48, a full one stalls issue until entries free, so the oldest are performed first
(R94, R104, R178). One that waits behind the release buffer frees none (log 40). -/
def State.roomFor (n : Nat) (s : State) : State := drainN (s.g.storeQ.length + n - 48) s

/-- Perform the store queue, in program order. -/
def State.drain (s : State) : State := drainN s.g.storeQ.length s

/-- Bytes as the group's own class-g loads see them: the serialisation point with its older stores laid over (R169). -/
def State.ownByte (s : State) (k : Nat) : Byte :=
  s.g.retired.foldl (fun b p => if p.key ≤ k && k < p.key + p.bytes.length then p.bytes.getD (k - p.key) 0 else b)
    (memGet s.ms.mem k)
/-- n bytes as the group's own class-g loads see them. -/
def State.ownBytes (s : State) (k n : Nat) : List Byte := (List.range n).map fun i => s.ownByte (k + i)

/-! ## Contexts and partitions (R388, R398, R402, R403) -/

/-- The context numbered n. -/
def State.ctxOf (s : State) (n : Nat) : Option Ctx := s.cx.ctxs.find? (·.n = n)
/-- Whether a context's records may be admitted and its groups dispatched or restored; DEDUCED from R404 (log 21). -/
def Ctx.live (c : Ctx) : Bool := c.st = .runnable || c.st = .running
/-- Whether context n is Runnable or Running. -/
def State.ctxLive (s : State) (n : Nat) : Bool := match s.ctxOf n with | some c => c.live | none => false
/-- Replace context n by a function of it. -/
def State.mapCtx (s : State) (n : Nat) (f : Ctx → Ctx) : State :=
  { s with cx := { s.cx with ctxs := s.cx.ctxs.map fun c => if c.n = n then f c else c } }
/-- Address of the record of context n (R403). -/
def State.ctxRec (s : State) (n : Nat) : Nat := s.cx.tab + 128 * n
/-- Read n bytes of device memory as the device itself does, at their home slice: a core that owns a line of them gives it up (R186). -/
def State.seen (s : State) (k n : Nat) : State := { s with ms := s.ms.recall k n }
/-- The reading of a context's private window in its record. -/
def State.readWindow (s : State) (n : Nat) : State := s.seen (s.ctxRec n + 16) 24
/-- Whether [a, a + n) lies in the memory of the partition of a context (R388). -/
def Ctx.inMemory (c : Ctx) (a n : Nat) : Bool :=
  Config.partMemBase c.fsect ≤ a && a + n ≤ Config.partMemBase c.fsect + Config.partMemSize c.psize
/-- HWM and PLIM of the private window (R398), read from the context's record. -/
def State.priv (s : State) (n : Nat) : Nat × Nat × Nat :=
  let r := s.ctxRec n
  (s.memNat (r + 16) 8 % 2 ^ 52, s.memNat (r + 24) 8 % 2 ^ 52, s.memNat (r + 32) 8 % 2 ^ 52)
/-- Whether a range lies in the memory of the partition that a context is bound to: a Created one has none (R2, R404). -/
def Ctx.owns (c : Ctx) (a n : Nat) : Bool := c.st != .created && c.inMemory a n
/-- Write to a place that a context's record names, once it lies in the partition's memory (R2). DESIGN CHOICE: a write outside it is not
made, since a breach never changes another partition's state (log 78). -/
def State.ctxWrite (s : State) (c : Ctx) (a : Nat) (b : List Byte) : State := if c.owns a b.length then s.memWrite a b else s
/-- The same for the low n bytes of a number. -/
def State.ctxPut (s : State) (c : Ctx) (a n v : Nat) : State := s.ctxWrite c a (leBytes n v)
/-- What reaches the sleeping device (R448): it is held, and the exit begins. -/
def State.hold (s : State) (t : Turn) : State := { s with mg := { s.mg with leaving := true, held := s.mg.held ++ [t] } }
/-- The effect of an access from outside, or its holding while the device is in a power state (R448). -/
def State.whenAwake (s : State) (h : HeldAccess) (k : State → State) : State := if s.mg.pstate = 0 then k s else s.hold (.access h)
/-- Whether a core belongs to the partition of a context. -/
def Ctx.hasCore (c : Ctx) (core : Nat) : Bool := c.fsect ≤ core / 32 && core / 32 < c.fsect + 2 ^ c.psize

end Sys2Proof.Machine
end

