-- ==== Sys2Proof/Machine/Float.lean ====
section
/-! DEFINITION. The number formats of chapter 02: exact values, the one rounding RoundTo (R9, R43), and conversions. -/

namespace Sys2Proof.Machine

/-! ## Flags (R50) -/

/-- NX, UF, OF, DZ and NV in the layout of sys.fflags. -/
def fNX : BitVec 5 := 1
def fUF : BitVec 5 := 2
def fOF : BitVec 5 := 4
def fDZ : BitVec 5 := 8
def fNV : BitVec 5 := 16

/-- Rounding codes (R43). -/
def rRNE : Nat := 0
def rRTZ : Nat := 1
def rRDN : Nat := 2
def rRUP : Nat := 3
def rDTH : Nat := 4

/-! ## Floating-point formats (R28, R31) -/

/-- A floating-point format: exponent and fraction bits, and whether it is E4M3, which has no infinities. -/
structure Fmt where
  ebits : Nat
  fbits : Nat
  e4m3 : Bool := false
  deriving DecidableEq, Repr

/-- binary32, binary16, brain float, FP8 E4M3 and FP8 E5M2. -/
def f32 : Fmt := { ebits := 8, fbits := 23 }
def f16 : Fmt := { ebits := 5, fbits := 10 }
def bf16 : Fmt := { ebits := 8, fbits := 7 }
def f8e4 : Fmt := { ebits := 4, fbits := 3, e4m3 := true }
def f8e5 : Fmt := { ebits := 5, fbits := 2 }

/-- The format of a floating-point type code. -/
def fmtOf (t : BitVec 4) : Fmt :=
  match t.toNat with
  | 8 => f32 | 9 => f16 | 10 => bf16 | 11 => f8e4 | _ => f8e5

/-- Width of the format. -/
def Fmt.width (f : Fmt) : Nat := 1 + f.ebits + f.fbits
/-- Exponent bias. -/
def Fmt.bias (f : Fmt) : Nat := 2 ^ (f.ebits - 1) - 1
/-- The sign bit's weight. -/
def Fmt.sign (f : Fmt) : Nat := 2 ^ (f.ebits + f.fbits)
/-- The bits of an infinity, without its sign. -/
def Fmt.infBits (f : Fmt) : Nat := (2 ^ f.ebits - 1) * 2 ^ f.fbits
/-- The bits of the largest finite value. -/
def Fmt.maxBits (f : Fmt) : Nat := if f.e4m3 then f.infBits + 2 ^ f.fbits - 2 else f.infBits - 1
/-- The canonical quiet NaN (R30). -/
def Fmt.nan (f : Fmt) : Nat := if f.e4m3 then f.infBits + 2 ^ f.fbits - 1 else f.infBits + 2 ^ (f.fbits - 1)
/-- The exponent of the smallest normal value. -/
def Fmt.emin (f : Fmt) : Int := 1 - (f.bias : Int)

/-- A value read from a format: a NaN, quiet or signalling; an infinity; or a finite value, its sign and its magnitude
num / den. -/
inductive FV where
  | nan (sig : Bool)
  | inf (neg : Bool)
  | fin (neg : Bool) (num den : Nat)
  deriving DecidableEq, Repr

/-- m·2^e as a fraction. -/
def dyadic (m : Nat) (e : Int) : Nat × Nat := match e with
  | .ofNat k => (m * 2 ^ k, 1)
  | .negSucc k => (m, 2 ^ (k + 1))

/-- Read a value of a format (R28, R31). -/
def Fmt.read (f : Fmt) (bits : Nat) : FV :=
  let neg := natBits bits (f.ebits + f.fbits) 1 = 1
  let e := natBits bits f.fbits f.ebits
  let m := natBits bits 0 f.fbits
  if e = 2 ^ f.ebits - 1 && (!f.e4m3 || m = 2 ^ f.fbits - 1) then
    if f.e4m3 then .nan false
    else if m = 0 then .inf neg
    else .nan (m < 2 ^ (f.fbits - 1))
  else
    let d := if e = 0 then dyadic m (f.emin - f.fbits) else dyadic (m + 2 ^ f.fbits) (f.emin + (e - 1 : Nat) - f.fbits)
    .fin neg d.1 d.2

/-- Whether a value is a NaN. -/
def FV.isNan : FV → Bool
  | .nan _ => true | _ => false
/-- Whether a value is a signalling NaN. -/
def FV.isSig : FV → Bool
  | .nan s => s | _ => false
/-- Whether a value is zero. -/
def FV.isZero : FV → Bool
  | .fin _ n _ => n = 0 | _ => false
/-- Whether a value is infinite. -/
def FV.isInf : FV → Bool
  | .inf _ => true | _ => false
/-- The sign of a value that is not a NaN. -/
def FV.neg : FV → Bool
  | .inf s => s | .fin s _ _ => s | .nan _ => false
/-- NV for a signalling NaN among the operands (R30). -/
def sigNV (l : List FV) : BitVec 5 := if l.any FV.isSig then fNV else 0

/-! ## Exact results and RoundTo (R9, R29, R32, R43, R44) -/

/-- An exact result before rounding: a NaN, an infinity, a signed zero, or a nonzero value ±num / den. -/
inductive Exact where
  | nan
  | inf (neg : Bool)
  | zero (neg : Bool)
  | val (neg : Bool) (num den : Nat)
  deriving DecidableEq, Repr

/-- An exact result with the exceptions met in forming it. -/
structure Ex where
  x : Exact
  fl : BitVec 5 := 0
  deriving DecidableEq, Repr

/-- A rounded result: its bits, the exceptions met, and whether a saturating clamp set SAT. -/
structure Rounded where
  bits : Nat
  fl : BitVec 5 := 0
  sat : Bool := false
  deriving DecidableEq, Repr, Inhabited

/-- The exact value of a value read, which is finite or infinite or a NaN. -/
def FV.exact : FV → Exact
  | .nan _ => .nan
  | .inf s => .inf s
  | .fin s n d => if n = 0 then .zero s else .val s n d

/-- ±n/d as an exact result, d positive; an exact zero takes the sign given. -/
def exactOf (n : Int) (d : Nat) (zneg : Bool) : Exact := if n = 0 then .zero zneg else .val (n < 0) n.natAbs d

/-- Floor of log2 (num / den), num and den positive. -/
def log2Frac (num den : Nat) : Int :=
  let e : Int := (Nat.log2 num : Int) - Nat.log2 den
  -- num/den lies in (2^(e-1), 2^(e+1))
  let below := if 0 ≤ e then num < den * 2 ^ e.toNat else num * 2 ^ (-e).toNat < den
  if below then e - 1 else e

/-- t_k of R44, in 64ths. -/
def dither64 (k : Nat) : Nat :=
  2 * (16 * (k % 2) + 8 * (k / 2 % 2) + 4 * (k / 4 % 2) + 2 * (k / 8 % 2) + k / 16 % 2) + 1

/-- Whether the magnitude lo + rem/den, lo its integer part, rounds away from zero in a mode; th is the threshold of
R44 in 64ths. -/
def roundsUp (mode th : Nat) (neg : Bool) (lo rem den : Nat) : Bool :=
  if rem = 0 then false
  else match mode with
    | 0 => 2 * rem > den || (2 * rem = den && lo % 2 = 1)
    | 1 => false
    | 2 => neg
    | 3 => !neg
    | _ => if neg then 64 * (den - rem) < th * den else 64 * rem ≥ th * den

/-- Integer part, and remainder over a denominator, of num / den divided by 2^q. -/
def scaleDiv (num den : Nat) (q : Int) : Nat × Nat × Nat :=
  match q with
  | .ofNat k => (num / (den * 2 ^ k), num % (den * 2 ^ k), den * 2 ^ k)
  | .negSucc k => (num * 2 ^ (k + 1) / den, num * 2 ^ (k + 1) % den, den)

/-- Round the magnitude num / den to a multiple of 2^q. -/
def roundAt (mode th : Nat) (neg : Bool) (num den : Nat) (q : Int) : Nat × Bool :=
  let r := scaleDiv num den q
  (r.1 + (if roundsUp mode th neg r.1 r.2.1 r.2.2 then 1 else 0), r.2.1 != 0)

/-- The overflow result of R29 and R32: the largest finite value or an infinity (in E4M3 a NaN), by mode. -/
def Fmt.overflow (f : Fmt) (mode : Nat) (neg : Bool) : Nat :=
  let toMax := mode = 1 || (mode = 2 && !neg) || (mode = 3 && neg)
  (if neg then f.sign else 0) + (if toMax then f.maxBits else if f.e4m3 then f.nan else f.infBits)

/-- RoundTo of a nonzero exact value to a floating-point format, with its exceptions: tininess is detected after
rounding (R29); dither holds up to the largest finite value and beyond it gives what rne gives (R43); under sat an
overflow clamps and sets SAT (R32, R464). -/
def Fmt.roundVal (f : Fmt) (mode th : Nat) (sat neg : Bool) (num den : Nat) : Rounded :=
  let e := log2Frac num den
  let mode := if mode = 4 then
      (match f.read f.maxBits with
        | .fin _ m d => if num * d > m * den then 0 else 4
        | _ => 4)
    else mode
  let eq := if e < f.emin then f.emin else e
  let r := roundAt mode th neg num den (eq - f.fbits)
  let bits := (eq - f.emin).toNat * 2 ^ f.fbits + r.1
  let sign := if neg then f.sign else 0
  if bits > f.maxBits then
    if sat then { bits := sign + f.maxBits, fl := fNX, sat := true }
    else { bits := f.overflow mode neg, fl := fOF ||| fNX }
  else
    let tiny := e < f.emin && !(e + 1 = f.emin && (roundAt mode th neg num den (e - f.fbits)).1 = 2 ^ (f.fbits + 1))
    { bits := sign + bits, fl := (if r.2 then fNX else 0) ||| (if r.2 && tiny then fUF else 0) }

/-- RoundTo of an exact result to a floating-point format. An infinite source under sat gives the largest finite value and
sets SAT alone; without it E4M3 gives a NaN and sets NV (R32). -/
def Fmt.round (f : Fmt) (mode th : Nat) (sat : Bool) (x : Exact) : Rounded :=
  match x with
  | .nan => { bits := f.nan }
  | .zero neg => { bits := if neg then f.sign else 0 }
  | .inf neg =>
    let sign := if neg then f.sign else 0
    if sat then { bits := sign + f.maxBits, sat := true }
    else if f.e4m3 then { bits := sign + f.nan, fl := fNV }
    else { bits := sign + f.infBits }
  | .val neg n d => f.roundVal mode th sat neg n d

/-- Round an exact result to an integer, exactly as a signed integer, with whether it was inexact. -/
def roundInt (mode th : Nat) (neg : Bool) (num den : Nat) : Int × Bool :=
  let r := roundAt mode th neg num den 0
  (if neg then -(r.1 : Int) else r.1, r.2)

/-- Bounds of an integer type of w bits. -/
def intLo (signed : Bool) (w : Nat) : Int := if signed then -(2 ^ (w - 1) : Int) else 0
/-- The largest value of an integer type. -/
def intHi (signed : Bool) (w : Nat) : Int := if signed then 2 ^ (w - 1) - 1 else 2 ^ w - 1
/-- Clamp to an interval, and whether it clamped. -/
def clamp (lo hi x : Int) : Int × Bool := if x < lo then (lo, true) else if hi < x then (hi, true) else (x, false)

/-- A floating-point value to an integer type under R33: the invalid clamp of R464. For dither beyond the range the clamp
holds (R43). -/
def toIntInvalid (signed : Bool) (w mode th : Nat) (x : Exact) : Rounded :=
  let lo := intLo signed w
  let hi := intHi signed w
  let put (v : Int) (fl : BitVec 5) : Rounded := { bits := (v % 2 ^ w).toNat, fl := fl }
  match x with
  | .nan => put 0 fNV
  | .zero _ => put 0 0
  | .inf neg => put (if neg then lo else hi) fNV
  | .val neg n d =>
    let r := roundInt mode th neg n d
    let beyond := mode = 4 && (if neg then lo * d > -(n : Int) else (n : Int) > hi * d)
    if beyond then put (if neg then lo else hi) fNV
    else if r.1 < lo then put lo fNV
    else if hi < r.1 then put hi fNV
    else put r.1 (if r.2 then fNX else 0)

/-- A finite value to an integer range by the saturating clamp of R464: SAT when it clamps, NX when the rounding before
the clamp was inexact. An infinite value sets SAT alone; a NaN gives 0 and NV. Dither beyond the range rounds as rne
before the clamp (R43). -/
def toIntSat (lo hi : Int) (w mode th : Nat) (x : Exact) : Rounded :=
  let put (v : Int) (fl : BitVec 5) (s : Bool) : Rounded := { bits := (v % 2 ^ w).toNat, fl := fl, sat := s }
  match x with
  | .nan => put 0 fNV false
  | .zero _ => put 0 0 false
  | .inf neg => put (if neg then lo else hi) 0 true
  | .val neg n d =>
    let beyond := mode = 4 && (if neg then lo * d > -(n : Int) else (n : Int) > hi * d)
    let r := roundInt (if beyond then 0 else mode) th neg n d
    let c := clamp lo hi r.1
    put c.1 (if r.2 then fNX else 0) (c.2 || beyond)

/-! ## Arithmetic on exact values (R29, R143, R144) -/

/-- A finite value as a signed fraction. -/
def sgn (neg : Bool) (n : Nat) : Int := if neg then -(n : Int) else n

/-- Sum of two finite values; the sign of an exact zero follows IEEE 754 (R29). -/
def addFin (mode : Nat) (s1 : Bool) (n1 d1 : Nat) (s2 : Bool) (n2 d2 : Nat) : Exact :=
  exactOf (sgn s1 n1 * d2 + sgn s2 n2 * d1) (d1 * d2)
    (if n1 = 0 && n2 = 0 && s1 = s2 then s1 else mode = 2)

/-- a + b. -/
def fvAdd (mode : Nat) (a b : FV) : Ex :=
  match a, b with
  | .fin s1 n1 d1, .fin s2 n2 d2 => { x := addFin mode s1 n1 d1 s2 n2 d2 }
  | .nan _, _ => { x := .nan, fl := sigNV [a, b] }
  | _, .nan _ => { x := .nan, fl := sigNV [a, b] }
  | .inf s1, .inf s2 => if s1 = s2 then { x := .inf s1 } else { x := .nan, fl := fNV }
  | .inf s, .fin _ _ _ => { x := .inf s }
  | .fin _ _ _, .inf s => { x := .inf s }

/-- −a. -/
def FV.negate : FV → FV
  | .nan s => .nan s | .inf s => .inf !s | .fin s n d => .fin (!s) n d

/-- The exact product of two values that are not NaN, as a value; none when it is 0 × ∞. -/
def fvProd (a b : FV) : Option FV :=
  match a, b with
  | .fin s1 n1 d1, .fin s2 n2 d2 => some (.fin (s1 != s2) (n1 * n2) (d1 * d2))
  | _, _ => if a.isZero || b.isZero then none else some (.inf (a.neg != b.neg))

/-- a · b. -/
def fvMul (a b : FV) : Ex :=
  if a.isNan || b.isNan then { x := .nan, fl := sigNV [a, b] }
  else match fvProd a b with
    | none => { x := .nan, fl := fNV }
    | some p => { x := p.exact }

/-- a · b + c with one rounding; 0 × ∞ sets NV whatever c holds (R144). -/
def fvFma (mode : Nat) (a b c : FV) : Ex :=
  if a.isNan || b.isNan then { x := .nan, fl := sigNV [a, b, c] }
  else match fvProd a b with
    | none => { x := .nan, fl := fNV }
    | some p => fvAdd mode p c

/-- a / b. -/
def fvDiv (a b : FV) : Ex :=
  match a, b with
  | .nan _, _ => { x := .nan, fl := sigNV [a, b] }
  | _, .nan _ => { x := .nan, fl := sigNV [a, b] }
  | .inf _, .inf _ => { x := .nan, fl := fNV }
  | .inf s1, .fin s2 _ _ => { x := .inf (s1 != s2) }
  | .fin s1 _ _, .inf s2 => { x := .zero (s1 != s2) }
  | .fin s1 n1 d1, .fin s2 n2 d2 =>
    if n2 = 0 then (if n1 = 0 then { x := .nan, fl := fNV } else { x := .inf (s1 != s2), fl := fDZ })
    else if n1 = 0 then { x := .zero (s1 != s2) }
    else { x := .val (s1 != s2) (n1 * d2) (d1 * n2) }

/-- a < b for values that are not NaN; −0 counts as less than +0 when strict is set (R145). -/
def fvLt (strict : Bool) (a b : FV) : Bool :=
  match a, b with
  | .inf s1, .inf s2 => s1 && !s2
  | .inf s, _ => s
  | _, .inf s => !s
  | .fin s1 n1 d1, .fin s2 n2 d2 =>
    if n1 = 0 && n2 = 0 then strict && s1 && !s2 else sgn s1 n1 * d2 < sgn s2 n2 * d1
  | _, _ => false
/-- a = b for values that are not NaN; +0 equals −0. -/
def fvEq (a b : FV) : Bool :=
  match a, b with
  | .inf s1, .inf s2 => s1 = s2
  | .fin s1 n1 d1, .fin s2 n2 d2 => sgn s1 n1 * d2 = sgn s2 n2 * d1
  | _, _ => false

/-- fmin and fmax on bits of a format (R145): the result keeps the bits of the operand chosen. -/
def fmtMinMax (f : Fmt) (max : Bool) (a b : Nat) : Rounded :=
  let x := f.read a
  let y := f.read b
  let fl := sigNV [x, y]
  if x.isNan && y.isNan then { bits := f.nan, fl := fl }
  else if x.isNan then { bits := b, fl := fl }
  else if y.isNan then { bits := a, fl := fl }
  else if max then { bits := if fvLt true x y then b else a, fl := fl }
  else { bits := if fvLt true y x then b else a, fl := fl }

/-! ## Modifiers and signs (R30, R71) -/

/-- Clear and flip the sign bit of an element: the absolute value is taken first. -/
def signMod (f : Fmt) (abs neg : Bool) (bits : Nat) : Nat :=
  let b := if abs then bits % f.sign else bits
  if neg then (if b < f.sign then b + f.sign else b - f.sign) else b

/-- The MOD bits of operand k: 0 A, 1 B, 2 C. -/
def modOf (md : BitVec 6) (k : Nat) (f : Fmt) (bits : Nat) : Nat := signMod f (md.getLsbD (4 - 2 * k)) (md.getLsbD (5 - 2 * k)) bits

/-! ## Integer square root by bits -/

/-- The largest r ≤ acc + 2^k − 1 with the square at most n, given that acc² ≤ n. -/
def isqrtFrom : Nat → Nat → Nat → Nat
  | 0, _, acc => acc
  | k + 1, n, acc => isqrtFrom k n (if (acc + 2 ^ k) * (acc + 2 ^ k) ≤ n then acc + 2 ^ k else acc)
/-- ⌊√n⌋. -/
def isqrt (n : Nat) : Nat := isqrtFrom (Nat.log2 n / 2 + 1) n 0

/-- √(num/den) for a positive fraction: exact where it is rational on the grid of 2^-512, otherwise a value strictly
between two neighbours of that grid, which lies in the same rounding cell of every format because every boundary of a
cell lies on the grid. -/
def sqrtExact (num den : Nat) : Nat × Nat :=
  let s := isqrt (num * 2 ^ 1024 / den)
  if s * s * den = num * 2 ^ 1024 then (s, 2 ^ 512) else (2 * s + 1, 2 ^ 513)

end Sys2Proof.Machine
end

