-- ==== Sys2Proof/Machine/Translate.lean ====
section
/-! DEFINITION. Page-table walks, the checks of R170, watchpoints, and the snare (chapters 06, 08, 21). -/

namespace Sys2Proof.Machine

/-- Engine classes (R168), and the code path, which is none of them (R61). -/
inductive Cls where
  | g | c | x | m | v | l | code
  deriving DecidableEq, Repr

/-- What an access needs (R170, R389, R395): its class, the ACC code, the rights, the element width that ALIGN checks
(none skips the check), whether it is cache control, and whether it reads data, so that poison stops it. -/
structure AccSpec where
  cls : Cls
  acc : Nat
  needR : Bool
  needW : Bool
  needX : Bool := false
  align : Option Nat := none
  size : Nat
  cacheCtl : Bool := false
  reads : Bool := false
  reach : Bool := true
  /-- Whether an unreachable page raises LINK; a copy meets that only after its start (R202). -/
  link : Bool := true
  /-- Whether POISON names the byte's address and not its sector's (R317). -/
  exact : Bool := false
  /-- The side of a transfer: a pod page, or none (R439). -/
  pod : Option Bool := none

/-- A class-g load of size bytes. -/
def AccSpec.load (size : Nat) : AccSpec :=
  { cls := .g, acc := 0, needR := true, needW := false, align := some size, size := size, reads := true }
/-- A class-g store. -/
def AccSpec.store (size : Nat) : AccSpec :=
  { cls := .g, acc := 1, needR := false, needW := true, align := some size, size := size }
/-- atom, atomu and red. -/
def AccSpec.atomic (size : Nat) : AccSpec :=
  { cls := .g, acc := 2, needR := true, needW := true, align := some size, size := size, reads := true }
/-- A read by an engine. -/
def AccSpec.eread (cls : Cls) (size : Nat) : AccSpec :=
  { cls := cls, acc := 0, needR := true, needW := false, size := size, reads := true }
/-- A write by an engine. -/
def AccSpec.ewrite (cls : Cls) (size : Nat) : AccSpec := { cls := cls, acc := 1, needR := false, needW := true, size := size }
/-- A key merge or an append (R389). -/
def AccSpec.merge (size : Nat) : AccSpec :=
  { cls := .v, acc := 2, needR := true, needW := true, align := some size, size := size, reads := true }
/-- An instruction fetch (R61). -/
def AccSpec.fetch : AccSpec := { cls := .code, acc := 3, needR := false, needW := false, needX := true, size := 8, reads := true }

/-! ## Table entries (R386 to R388) -/

/-- Lowest address bit that indexes a level. -/
def levelShift : Nat → Nat
  | 0 => 16 | 1 => 21 | 2 => 30 | _ => 39
/-- Index bits of a level. -/
def levelBits : Nat → Nat
  | 0 => 5 | 1 => 9 | 2 => 9 | _ => 13
/-- Size and alignment of a level's table. -/
def tableSize (lvl : Nat) : Nat := 8 * 2 ^ levelBits lvl

/-- ADDR of an entry. -/
def entryAddr (e : Nat) : Nat := natBits e 8 44 * 256
/-- KIND of an entry. -/
def entryKind (e : Nat) : Nat := natBits e 6 2

/-- Whether an entry with V = 1 at a level is malformed (R388). -/
def malformed (c : Ctx) (lvl e : Nat) : Bool :=
  if natBits e 1 1 = 0 then
    lvl = 0 || natBits e 2 6 != 0 || natBits e 52 12 != 0 || entryAddr e % tableSize (lvl - 1) != 0
      || !c.inMemory (entryAddr e) (tableSize (lvl - 1))
  else
    lvl = 3 || natBits e 54 2 != 0 || entryKind e = 3 || (entryKind e != 2 && natBits e 56 8 != 0)
      || (entryKind e = 2 && natBits e 5 1 = 1) || entryAddr e % 2 ^ levelShift lvl != 0
      || (entryKind e = 0 && !c.inMemory (entryAddr e) (2 ^ levelShift lvl))

/-- How a walk ends: at a leaf (entry, its address, its level), or stopped (level, CODE of R395). -/
inductive Walked where
  | leaf (e leafAt lvl : Nat)
  | stop (lvl code : Nat)
  deriving DecidableEq, Repr

/-- Walk the table from a level down (R386). The next-table entries it passed come with the end: entry, address, level. -/
def walkFrom (s : State) (c : Ctx) (va : Nat) : Nat → Nat → Walked × List (Nat × Nat × Nat)
  | 0, table =>
    let a := table + 8 * (va / 2 ^ levelShift 0 % 2 ^ levelBits 0)
    let e := s.memNat a 8
    (if e % 2 = 0 then .stop 0 1 else if malformed c 0 e then .stop 0 2 else .leaf e a 0, [])
  | lvl + 1, table =>
    let a := table + 8 * (va / 2 ^ levelShift (lvl + 1) % 2 ^ levelBits (lvl + 1))
    let e := s.memNat a 8
    if e % 2 = 0 then (.stop (lvl + 1) 1, [])
    else if malformed c (lvl + 1) e then (.stop (lvl + 1) 2, [])
    else if natBits e 1 1 = 1 then (.leaf e a (lvl + 1), [])
    else
      let below := walkFrom s c va lvl (entryAddr e)
      (below.1, (e, a, lvl + 1) :: below.2)

/-- RACECHECK of a leaf (R387). -/
def Leaf.rc (l : Leaf) : Bool := natBits l.e 5 1 = 1

/-- The translation that a leaf entry gives an address. -/
def leafOf (s : State) (e leafAt size va : Nat) : Leaf :=
  let pa := entryAddr e / size * size + va % size
  { key := physKey s (entryKind e) (natBits e 56 8) pa, pa := pa, kind := entryKind e, peer := natBits e 56 8, e := e, leafAt := leafAt, size := size }

/-- Set bit b of a leaf entry by an atomic OR at its home slice (R391). -/
def State.orEntry (s : State) (leafAt b : Nat) : State :=
  let e := s.memNat leafAt 8
  if natBits e b 1 = 1 then s else s.memPut leafAt 8 (e + 2 ^ b)

/-- Whether a cached entry serves an address. -/
def TlbEntry.serves (t : TlbEntry) (core ctx va : Nat) : Bool := t.core = core && t.ctx = ctx && t.base ≤ va && va < t.base + t.size
/-- Whether it is a leaf. -/
def TlbEntry.isLeaf (t : TlbEntry) : Bool := t.leaf.getLsbD 1
/-- The entries of a core that serve an address, the newest first (R390). -/
def State.cached (s : State) (core ctx va : Nat) : List TlbEntry := s.ms.tlb.filter fun t => t.serves core ctx va

/-- Cache one entry: a core holds 2,048 of them, and a leaf that makes room for another is remembered until its range is
invalidated (R390, R392). -/
def MemSys.cacheOne (ms : MemSys) (t : TlbEntry) : MemSys :=
  if ms.tlb.contains t then ms
  else
    let held := t :: ms.tlb
    if (held.filter fun u => u.core = t.core).length ≤ 2048 then { ms with tlb := held }
    else
      let kept := keepFirst (fun u : TlbEntry => u.core = t.core) 2048 held
      { ms with tlb := kept, past := ms.past ++ held.filter fun u => u.isLeaf && !kept.contains u }

/-- The cached form of an entry that a walk for an address met. -/
def tlbOf (core ctx va e at_ lvl : Nat) : TlbEntry :=
  let size := 2 ^ levelShift lvl
  { core := core, ctx := ctx, base := va / size * size, size := size, leaf := BitVec.ofNat 64 e, leafAt := at_, lvl := lvl }
/-- Cache a leaf's translation, after setting A (R390, R391). -/
def State.cacheLeaf (s : State) (core ctx va e leafAt lvl : Nat) : State :=
  let s := s.orEntry leafAt 52
  { s with ms := s.ms.cacheOne (tlbOf core ctx va e leafAt lvl) }
/-- Cache the next-table entries a walk passed. -/
def State.cacheTables (s : State) (core ctx va : Nat) (es : List (Nat × Nat × Nat)) : State :=
  { s with ms := es.foldl (fun ms e => ms.cacheOne (tlbOf core ctx va e.1 e.2.1 e.2.2)) s.ms }

/-- How one access translates a page: by a cached leaf, or by a walk from a cached next-table entry or from the root. -/
inductive Source where
  | leaf (t : TlbEntry)
  | table (t : TlbEntry)
  | root
  deriving DecidableEq, Repr

/-- Take a cached entry or pass it over, one choice each, until the choices or the entries run out (R392, log 3). -/
def pickSource : List Bool → List TlbEntry → Source × List Bool
  | true :: r, t :: _ => (if t.isLeaf then .leaf t else .table t, r)
  | false :: r, _ :: ts => pickSource r ts
  | bs, _ => (.root, bs)

/-- The address of the last entry that a walk from a level's table read. -/
def lastRead (va lvl table : Nat) (es : List (Nat × Nat × Nat)) : Nat :=
  let p := match es.getLast? with | some (e, _, l) => (entryAddr e, l - 1) | none => (table, lvl)
  p.1 + 8 * (va / 2 ^ levelShift p.2 % 2 ^ levelBits p.2)
/-- A walk reads its entries at their home slices (R386): their lines are recalled from a core that owns them (R186). -/
def MemSys.walked (ms : MemSys) (va lvl table : Nat) (es : List (Nat × Nat × Nat)) : MemSys :=
  if ms.owned = [] then ms else (es.map (·.2.1) ++ [lastRead va lvl table es]).foldl (fun ms a => ms.recall a 8) ms
/-- Walk the table of an address from a level down, caching what the walk meets (R386, R390). -/
def State.walk (s : State) (core : Nat) (c : Ctx) (va lvl table : Nat) : State × Except (Nat × Nat) Leaf :=
  let w := walkFrom s c va lvl table
  let s := State.cacheTables { s with ms := s.ms.walked va lvl table w.2 } core c.n va w.2
  match w.1 with
  | .stop lvl code => (s, .error (lvl, code))
  | .leaf e a lvl => (s.cacheLeaf core c.n va e a lvl, .ok (leafOf s e a (2 ^ levelShift lvl) va))
/-- Translate an address of a context for a core anew: while an invalidation is not complete an old entry may be used, which
State.choices decides (R392, log 3); otherwise the table is walked. -/
def State.translateNew (s : State) (core : Nat) (c : Ctx) (va : Nat) : State × Except (Nat × Nat) Leaf :=
  let p := pickSource s.choices (s.cached core c.n va)
  let s := { s with choices := p.2 }
  match p.1 with
  | .leaf t => (s, .ok (leafOf s t.leaf.toNat t.leafAt t.size va))
  | .table t => s.walk core c va (t.lvl - 1) (entryAddr t.leaf.toNat)
  | .root => s.walk core c va 3 c.ptroot

/-- Whether an address lies in the page of a translation taken already. -/
def inPage (va : Nat) (t : Nat × Except (Nat × Nat) Leaf) : Bool :=
  let n := match t.2 with | .ok l => l.size | .error _ => 65536
  t.1 / n = va / n
/-- A translation taken for address a, carried over to another address of its page. -/
def carryOver (a va : Nat) (t : Except (Nat × Nat) Leaf) : Except (Nat × Nat) Leaf :=
  match t with
  | .ok l => .ok { l with key := l.key - a % l.size + va % l.size, pa := l.pa - a % l.size + va % l.size }
  | .error e => .error e
/-- What is kept of a translation while its instruction translates lane by lane, and the translation that it says. -/
def Seen.of (va : Nat) (t : Except (Nat × Nat) Leaf) : Seen :=
  match t with
  | .ok l => { va := va, leaf := some l }
  | .error (lvl, code) => { va := va, leaf := none, lvl := lvl, code := code }
def Seen.entry (u : Seen) : Nat × Except (Nat × Nat) Leaf :=
  (u.va, match u.leaf with | some l => .ok l | none => .error (u.lvl, u.code))
/-- Translate an address of a context for a core; an instruction that translates lane by lane takes one translation for each page (R390). -/
def State.translate (s : State) (core : Nat) (c : Ctx) (va : Nat) : State × Except (Nat × Nat) Leaf :=
  match s.ms.reuse with
  | none => s.translateNew core c va
  | some l => match l.find? fun u => inPage va u.entry with
    | some u => (s, carryOver u.va va u.entry.2)
    | none =>
      let r := s.translateNew core c va
      ({ r.1 with ms := { r.1.ms with reuse := some (Seen.of va r.2 :: l) } }, r.2)

/-! ## Links (R433, R437) -/

/-- Whether a port carries traffic (R432). -/
def PortState.usable : PortState → Bool
  | .up => true | .narrowed _ => true | _ => false
/-- Whether the host link carries traffic (R436). -/
def HostState.usable : HostState → Bool
  | .up => true | .degraded _ _ => true | _ => false
/-- Whether a usable port leads to a peer. -/
def LinkSys.carriesTo (lk : LinkSys) (peer p : Nat) : Bool := (sparseGet 0 lk.routes peer).getLsbD p && lk.ports[p]!.usable
/-- Whether the route to a peer has a usable port. -/
def LinkSys.routed (lk : LinkSys) (peer : Nat) : Bool := (List.range 36).any fun p => lk.carriesTo peer p

/-- The partition position whose memory holds an address (R434, R450). -/
def State.partAt (s : State) (a : Nat) : Option Part :=
  s.cx.parts.find? fun p => Config.partMemBase p.fsect ≤ a && a < Config.partMemBase p.fsect + Config.partMemSize p.psize
/-- Whether a target's access table lets a master read or write the partition of an address (R450). -/
def State.mayAccess (s : State) (t : AccTarget) (m : Master) (fsect : Nat) (write : Bool) : Bool :=
  s.lk.access.any fun e => e.target = t && e.master = m && e.fsect = fsect && (if write then e.write else e.read)

/-- What stops a remote access: a LINK code, or a refusal (R400, R434, R437). -/
inductive Reach where
  | ok
  | link (code peer : Nat)
  | refused
  deriving DecidableEq, Repr

/-- Whether two ranges of addresses meet. -/
def meets (r : Nat × Nat) (a n : Nat) : Bool := r.1 < a + n && a < r.2

/-- Whether a usable port that leads to this device's own pod number gives that number the rights to a partition that an access needs
(R433, R450). -/
def State.selfAllowed (s : State) (peer fsect : Nat) (read write : Bool) : Bool :=
  (List.range 36).any fun q => s.lk.carriesTo peer q &&
    (!read || s.mayAccess (.port q) (.peer peer) fsect false) && (!write || s.mayAccess (.port q) (.peer peer) fsect true)
/-- An access of this device to its own pod number is an inbound class-l access over the link path (R433): it needs a usable
port of its route, a bound partition, and the rights that the access table of such a port gives (R434, R450); a quarantine
refuses it (R451), and a checkpoint refuses its writes (R453). -/
def State.reachSelf (s : State) (l : Leaf) (read write : Bool) : Reach :=
  if !s.lk.routed l.peer then .link 1 l.peer
  else match s.partAt l.pa with
    | none => .link 3 l.peer
    | some p => if p.quarantined || (p.ckpt.isSome && write) || !s.selfAllowed l.peer p.fsect read write then .refused else .ok

/-- Whether a pod or host page can be reached (R176, R434, R437). -/
def State.reach (s : State) (l : Leaf) (size : Nat) (read write : Bool) : Reach :=
  match l.kind with
  | 0 => .ok
  | 1 => if s.lk.host.usable then .ok else .link 2 0
  | _ =>
    if l.peer = s.lk.pod then s.reachSelf l read write
    else if !s.lk.routed l.peer then .link 1 l.peer
    else match s.lk.peers.find? (·.pod = l.peer) with
      | none => .ok
      | some p =>
        if p.silent then .link 2 l.peer
        else if p.unbound.any (meets · l.pa size) then .link 3 l.peer
        else if p.refuse.any (meets · l.pa size) then .refused
        else .ok

/-- Whether a class reaches a kind of page (R166, R180, R400, R439). -/
def AccSpec.admits (a : AccSpec) (kind : Nat) : Bool :=
  (kind != 2 || ((a.cls = .g || a.cls = .c || a.cls = .l) && !a.cacheCtl)) && a.pod.all (· == (kind = 2))
/-- Whether an entry grants the rights (R389). -/
def AccSpec.granted (a : AccSpec) (e : Nat) : Bool :=
  (!a.needR || natBits e 2 1 = 1) && (!a.needW || natBits e 3 1 = 1) && (!a.needX || natBits e 4 1 = 1)
/-- Whether any byte of a range of keys lies in a poisoned sector. -/
def State.isPoisoned (s : State) (k n : Nat) : Bool := s.ms.poison != [] && (sectorsOf k n).any (s.ms.poison.contains ·)
/-- The same for a class-g access of the group whose turn it is: a sector that an older store of its own, not yet performed,
writes whole carries no mark for it (R169, R176). -/
def State.ownPoisoned (s : State) (k n : Nat) : Bool :=
  s.ms.poison != [] && (sectorsOf k n).any fun x =>
    s.ms.poison.contains x && !(s.g.storeQ ++ s.g.relBuf).any (·.clears.contains x)

/-! ## Causes (R414, R415) -/

/-- A cause about to be raised: its code, what the trap registers get, the address sys.epc gets when it is not the
instruction's, whether it was raised at a header, and the pages it failed on, with the level where each walk stopped. -/
structure Trap where
  cause : Byte
  elanes : W32 := 0
  eaddr : W64 := 0
  einfo : W64 := 0
  epc : Option W64 := none
  atHdr : Bool := false
  pages : List (Nat × Nat) := []
  /-- A LINK of a host page. -/
  viaHost : Bool := false
  deriving DecidableEq, Repr, Inhabited

/-- The cause codes of R414. -/
def cILLEGAL : Byte := 0x01
def cBADHDR : Byte := 0x02
def cPRIV : Byte := 0x03
def cALIGN : Byte := 0x04
def cPAGE : Byte := 0x05
def cPROT : Byte := 0x06
def cCONFLICT : Byte := 0x07
def cFPEXC : Byte := 0x08
def cSWTRAP : Byte := 0x09
def cTILEBND : Byte := 0x0A
def cTILESTATE : Byte := 0x0B
def cBUDGET : Byte := 0x0C
def cGRIDRES : Byte := 0x0D
def cRELOVF : Byte := 0x0E
def cSTACK : Byte := 0x0F
def cBARRIER : Byte := 0x10
def cMASKOVF : Byte := 0x11
def cPOISON : Byte := 0x12
def cLINK : Byte := 0x13
def cWATCH : Byte := 0x14

/-- Whether a cause goes to the user handler (R414). -/
def userCause (c : Byte) : Bool := c == cCONFLICT || c == cFPEXC || c == cSWTRAP || c == cTILEBND || c == cBUDGET
/-- Whether an instruction replays after its cause is served (R414). -/
def replayable (c : Byte) : Bool := c == cPAGE || c == cSTACK || c == cLINK || c == cWATCH

/-! ## The checks of R170 -/

/-- The cause of a check that the listed lanes failed: none when no lane did. scalar: sys.elanes is 0. -/
def failed (scalar : Bool) (cause : Byte) (einfo : Nat) (bad : List (Nat × Int)) : Option Trap :=
  match bad with
  | [] => none
  | (_, va) :: _ =>
    some { cause := cause, elanes := if scalar then 0 else maskOfList (bad.map (·.1)), eaddr := w64 va, einfo := BitVec.ofNat 64 einfo }

/-- Translate every lane's address in turn; the lanes that fall in one page take one translation (R390). -/
def translateAll (core : Nat) (c : Ctx) (seen : List (Nat × Except (Nat × Nat) Leaf)) :
    List (Nat × Int) → State → State × List (Nat × Int × Except (Nat × Nat) Leaf)
  | [], s => (s, [])
  | (i, va) :: r, s =>
    match seen.find? (inPage va.toNat) with
    | some u =>
      let (s, ts) := translateAll core c seen r s
      (s, (i, va, carryOver u.1 va.toNat u.2) :: ts)
    | none =>
      let (s, t) := s.translate core c va.toNat
      let (s, ts) := translateAll core c ((va.toNat, t) :: seen) r s
      (s, (i, va, t) :: ts)

/-- A lane, its virtual address and its translation. -/
abbrev Hit3 := Nat × Int × Leaf

/-- The lanes whose translation q holds of, as lane and address. -/
def lanesWhere (ts : List Hit3) (q : Leaf → Bool) : List (Nat × Int) := (ts.filter fun t => q t.2.2).map fun t => (t.1, t.2.1)

/-- Checks 1 to 3 of R170, before any translation. -/
def checkEarly (s : State) (ctx : Nat) (a : AccSpec) (scalar : Bool) (accs : List (Nat × Int)) : Option Trap :=
  let p := s.priv ctx
  (match a.align with
    | some n => failed scalar cALIGN 0 (accs.filter fun t => t.2 % n != 0)
    | none => none) <|>
  failed scalar cPROT (2 + 64 * a.acc) (accs.filter fun t => t.2 < 0 || t.2 ≥ 2 ^ 52) <|>
  failed scalar cSTACK (1 + 64 * a.acc) (accs.filter fun t => (p.2.1 : Int) ≤ t.2 && t.2 < p.2.2)

/-- Checks 5 and 6 of R170, on translated lanes. -/
def checkLate (s : State) (a : AccSpec) (scalar : Bool) (ts : List Hit3) : Option Trap :=
  let reached (l : Leaf) : Reach := s.reach l a.size (a.acc = 0 || a.acc = 2) (a.acc != 0)
  let marked (l : Leaf) : Bool := a.reads && (if a.cls = .g then s.ownPoisoned l.key a.size else s.isPoisoned l.key a.size)
  let last := if a.reach then ts.filterMap fun t =>
      if marked t.2.2 then some (t.1, t.2.1, cPOISON, 1, false)
      else match reached t.2.2 with
        | .link code peer => if a.link then some (t.1, t.2.1, cLINK, code + 256 * peer, t.2.2.kind = 1) else none
        | _ => none
    else []
  failed scalar cPROT (3 + 64 * a.acc) (lanesWhere ts fun l => !a.admits l.kind) <|>
  failed scalar cPROT (1 + 64 * a.acc) (lanesWhere ts fun l => !a.granted l.e) <|>
  (if a.reach then failed scalar cPROT (4 + 64 * a.acc) (lanesWhere ts fun l => reached l = .refused) else none) <|>
  (match last with
    | [] => none
    | (_, va, cause, info, host) :: _ =>
      (failed scalar cause info ((last.filter fun t => t.2.2.1 == cause).map fun t => (t.1, t.2.1))).map fun t =>
        if cause == cPOISON then (if a.exact then t else { t with eaddr := w64 (va / 32 * 32) }) else { t with viaHost := host })

/-- Refused accesses to this device's own pod number: partition and address, whose alarm is due (R450). One that a checkpoint alone
refuses leaves none, as an inbound one does (log 35). -/
def State.selfRefused (s : State) (read write : Bool) (ls : List Leaf) : List (Nat × Nat) :=
  ls.filterMap fun l =>
    if l.kind = 2 && l.peer = s.lk.pod && s.reach l 1 read write = .refused then
      (s.partAt l.pa).bind fun p => if p.quarantined || !s.selfAllowed l.peer p.fsect read write then some (p.fsect, l.pa) else none
    else none
/-- Leave those alarms due. -/
def State.noteRefused (s : State) (read write : Bool) (ls : List Leaf) : State :=
  { s with lk := { s.lk with due := s.lk.due ++ s.selfRefused read write ls } }

/-- The pages of failed translations, each once, with the level where its walk stopped (R393, R394). -/
def failedPages : List (Nat × Int × Except (Nat × Nat) Leaf) → List (Nat × Nat)
  | [] => []
  | (_, va, .error (lvl, _)) :: r =>
    let p := (va.toNat / 65536 * 65536, lvl)
    let rest := failedPages r
    if rest.contains p then rest else p :: rest
  | _ :: r => failedPages r

/-- The lanes that a check let through, or the cause and the state it is raised in: a refused access may still have
cached a translation and set A (R391). -/
inductive Checked where
  | ok (s : State) (ts : List Hit3)
  | bad (t : Trap) (s : State)

/-- What an access that passes every check does before it is performed: D is set for a write (R391), and the lines it touches
are recalled from a core that owns them, unless it is an atomic of class g to a device page, which such a core may serve itself
(R186); one through a pod page of this device's own number arrives as class l (R433). -/
def State.beforeAccess (s : State) (a : AccSpec) (hits : List Hit3) : State :=
  let s := if a.acc = 1 || a.acc = 2 then hits.foldl (fun s t => s.orEntry t.2.2.leafAt 53) s else s
  let far := if a.cls = .g && a.acc = 2 then hits.filter fun t => t.2.2.kind != 0 else hits
  { s with ms := far.foldl (fun ms t => ms.recall t.2.2.key a.size) s.ms }

/-- All the checks of R170 on every lane's address, stage by stage, for a group's context and core, after the context's private window
has been read. A refusal by this device's own access table leaves an alarm due. -/
def checkAccess (s : State) (core ctx : Nat) (a : AccSpec) (scalar : Bool) (accs : List (Nat × Int)) : Checked :=
  match checkEarly s ctx a scalar accs with
  | some t => .bad t (s.readWindow ctx)
  | none =>
    let c := (s.ctxOf ctx).getD default
    let (s, ts) := translateAll core c [] accs (s.readWindow ctx)
    let bad := ts.filterMap fun t => match t.2.2 with | .error (lvl, code) => some (t.1, t.2.1, lvl, code) | .ok _ => none
    match bad with
    | (_, _, lvl, code) :: _ =>
      let t := (failed scalar cPAGE (code + 16 * lvl + 64 * a.acc) (bad.map fun t => (t.1, t.2.1))).getD default
      .bad { t with pages := failedPages ts } s
    | [] =>
      let hits := ts.filterMap fun t => match t.2.2 with | .ok l => some (t.1, t.2.1, l) | .error _ => none
      match checkLate s a scalar hits with
      | some t =>
        if t.cause == cPROT && t.einfo.extractLsb' 0 4 == 4 then .bad t (s.noteRefused (a.acc = 0 || a.acc = 2) (a.acc != 0) (hits.map (·.2.2)))
        else .bad t s
      | none => .ok (s.beforeAccess a hits) hits

/-! ## Watchpoints (R423) -/

/-- The watchpoint that an access of a context touches. -/
def State.watched (s : State) (ctx : Nat) (va : Int) (size acc : Nat) : Option Nat :=
  (s.cx.watch.find? fun w => w.ctx = ctx && (w.w.lo : Int) < va + size && va < w.w.hi &&
    ((w.w.read && acc != 1) || (w.w.write && acc != 0))).map fun w => w.w.n

/-- WATCH for the lanes that touch a watched range. -/
def checkWatch (s : State) (g : Group) (a : AccSpec) (scalar : Bool) (accs : List (Nat × Int)) : Option Trap :=
  if s.cx.watch = [] || g.watchOff then none
  else
    let bad := accs.filter fun t => (s.watched g.ctx t.2 a.size a.acc).isSome
    match bad with
    | [] => none
    | (_, va) :: _ => failed scalar cWATCH (1 + 16 * (s.watched g.ctx va a.size a.acc).getD 0) bad

/-! ## The snare (R218 to R223) -/

/-- sys.einfo of a CONFLICT (R222). -/
def conflictInfo (g : Group) (t : Token) (write : Bool) : Nat :=
  (if t.writer then 2 ^ 28 else 0) + (if write then 2 ^ 29 else 0) +
  (if t.ctx = g.ctx then t.core + 512 * t.slot + 4096 * t.seq.toNat else 2 ^ 30)

/-- The group whose turn it is ends its region in a split, and SPLT is set (R223): at its next instruction boundary, which comes at once
unless an atomic that it has started is still performed. -/
def State.splitRegion (s : State) : State :=
  if s.g.atomic.isSome then { s with g := { s.g with splitDue := true } }
  else { s.endRegion with g := { s.endRegion.g with splt := true, splitDue := false } }
/-- Split the region that holds a token, unless it has ended already (R223). -/
def State.splitHolder (s : State) (t : Token) : State :=
  match s.groups.find? (fun g => t.heldBy g && g.seq == t.seq && g.phase.holdsSlot) with
  | none => s
  | some g => s.onGroup g.gid State.splitRegion

/-- The load that holds a tentative token is squashed: it waits still, and its tentative tokens go (R102, R219). -/
def State.squash (s : State) (t : Token) : State :=
  { s with ms := { s.ms with tokens := s.ms.tokens.filter fun u => !(u.tentative && u.ctx = t.ctx && u.core = t.core && u.slot = t.slot) } }
/-- The tokens of the region of the group whose turn it is are firm: its load retires (R219). -/
def State.firmTokens (s : State) : State :=
  { s with ms := { s.ms with tokens := s.ms.tokens.map fun t => if t.tentative && t.heldBy s.g && t.seq == s.g.seq then { t with tentative := false } else t } }
/-- The reader tokens of a sector, the oldest first. -/
def State.readers (s : State) (sec : Nat) : List Token := s.ms.tokens.filter fun t => t.sector = sec && !t.writer
/-- A fifth reader makes room (R223): the load of the oldest tentative token is squashed, or else the region of the oldest token splits. -/
def State.makeRoom (s : State) (sec : Nat) : State :=
  let rs := s.readers sec
  if rs.length < 4 then s
  else match rs.find? (·.tentative), rs.head? with
    | some t, _ => s.squash t
    | none, some t => s.splitHolder t
    | none, none => s
/-- Split every region that holds a token on one of the sectors (R181, R223). -/
def State.splitSectors (s : State) (secs : List Nat) : State :=
  (s.ms.tokens.filter fun t => secs.contains t.sector).foldl (fun s t => s.splitHolder t) s
/-- Whether a sector is not dropped yet, since the split of a region that holds a token on it is still due (R223). -/
def State.splitWaits (s : State) (secs : List Nat) : Bool :=
  s.ms.tokens.any fun t => secs.contains t.sector && s.groups.any fun g => t.heldBy g && g.seq == t.seq && g.splitDue

/-- What the snare answers one lane. -/
inductive Snared where
  | ok | wait
  | conflict (info : Nat)
  deriving DecidableEq, Repr

/-- A class-g access reaches a sector of a RACECHECK page (R218, R219). DESIGN CHOICE: of several foreign tokens the partner that
sys.einfo names is the writer, or else the oldest firm reader (R222, log 87). DESIGN CHOICE: a writer token of an ended region of the
group itself, some stores of which are not performed yet, gives the sector's one writer slot to the region that now asks for it, so that
a later CONFLICT names that one; the slot stands for the ended region too until its stores are performed (log 105). -/
def State.snareOne (s : State) (sec : Nat) (write atomic : Bool) : State × Snared :=
  let g := s.g
  let here := s.ms.tokens.filter fun t => t.sector = sec
  let foreign := here.filter fun t => !t.heldBy g
  let firm := foreign.filter fun t => !t.tentative
  let own := here.filter fun t => t.heldBy g && t.seq == g.seq
  let mine (w : Bool) : Token := { sector := sec, ctx := g.ctx, core := g.core, slot := g.slot, seq := g.seq, writer := w, tentative := !w }
  let add (s : State) (t : Token) : State := { s with ms := { s.ms with tokens := s.ms.tokens ++ [t] } }
  match firm.find? (·.writer), firm.head?, write || atomic with
  | some t, _, w => (s, .conflict (conflictInfo g t w))
  | none, some t, true => (s, .conflict (conflictInfo g t true))
  | _, _, true =>
    let s := foreign.foldl State.squash s
    if atomic || own.any (·.writer) then (s, .ok)
    else
      let old := s.ms.tokens.filter fun t => t.sector = sec && t.writer
      (add { s with ms := { s.ms with tokens := s.ms.tokens.filter fun t => !(t.sector = sec && t.writer) } }
        { mine true with also := old.flatMap fun t => t.seq :: t.also }, .ok)
  | _, _, false =>
    if own != [] then (s, .ok)
    else
      let s := s.makeRoom sec
      if (s.readers sec).length < 4 then (add s (mine false), .ok) else (s, .wait)

/-- Every lane of an instruction in ascending order; an answer per lane on a RACECHECK page. -/
def snareAll (write atomic : Bool) : List Hit3 → State → State × List (Nat × Int × Snared)
  | [], s => (s, [])
  | (i, va, l) :: r, s =>
    if !l.rc then snareAll write atomic r s
    else
      let (s, a) := s.snareOne (l.key / 32) write atomic
      let (s, as_) := snareAll write atomic r s
      (s, (i, va, a) :: as_)

/-- What the snare answers an instruction. -/
inductive SnareRes where
  | ok (s : State)
  | wait (s : State)
  | conflict (t : Trap) (s : State)

/-- A load that waited while its region split belongs to the new region: the tentative tokens that it took in the old one go (R219,
R223). -/
def State.dropStale (s : State) : State :=
  { s with ms := { s.ms with tokens := s.ms.tokens.filter fun t => !(t.tentative && t.heldBy s.g && t.seq != s.g.seq) } }
/-- CONFLICT names every lane that met a token, and the lowest one's partner (R222); tokens that the other lanes were
granted stay (R219). Those of a load that waits are tentative until it retires. -/
def State.snare (s : State) (write atomic scalar : Bool) (ts : List Hit3) : SnareRes :=
  let (s, as_) := snareAll write atomic ts s.dropStale
  let bad := as_.filterMap fun a => match a.2.2 with | .conflict info => some (a.1, a.2.1, info) | _ => none
  match bad with
  | (_, _, info) :: _ => .conflict ((failed scalar cCONFLICT info (bad.map fun b => (b.1, b.2.1))).getD default) s.firmTokens
  | [] => if as_.any (fun a => a.2.2 = .wait) then .wait s else .ok s.firmTokens

end Sys2Proof.Machine
end

