-- ==== Sys2Proof/Machine/Ops.lean ====
section
/-! DEFINITION. Taking a cause and returning from it, block entry, instruction fetch, how an instruction ends, and the
class-g access that the memory meanings share. -/

namespace Sys2Proof.Machine

/-! ## Headers (R58, R62) -/

/-- LEN of a header. -/
def hdrLen (w : W64) : Nat := (w.extractLsb' 50 6).toNat
/-- KIND of a header. -/
def hdrKind (w : W64) : Nat := (w.extractLsb' 48 2).toNat
/-- LIVE of a header. -/
def hdrLive (w : W64) : BitVec 16 := w.extractLsb' 32 16
/-- RECONV of a header. -/
def hdrReconv (w : W64) : BitVec 20 := w.extractLsb' 12 20

/-- The first check of R58 that a header word fails, as the code of R415; 7 and 8 are not checks of the word alone. DESIGN CHOICE: of several
that fail at once, the first in the order of R58's list is reported, which gives none (log 116). -/
def hdrCode (w : W64) : Option Nat :=
  if w.extractLsb' 56 8 != 0xFF then some 1
  else if hdrLen w = 0 then some 2
  else if hdrKind w = 3 then some 3
  else if 4 ≤ (w.extractLsb' 8 4).toNat then some 4
  else if w.extractLsb' 0 8 != 0 then some 5
  else if (hdrKind w = 2) != (hdrReconv w != 0) then some 6
  else none

/-- A word fetched, or the cause that stopped the fetch. -/
inductive Fetched where
  | ok (s : State) (w : W64)
  | bad (t : Trap) (s : State)

/-- Fetch the word at an address through the code path (R61); DEDUCED: the range and STACK checks of R170 come first
(log 9). DESIGN CHOICE: of the old and the new value that R61 allows a word of stored-to code, the fetch takes the one at the
serialisation point (log 88). -/
def State.fetchWord (s : State) (va : W64) : Fetched :=
  match checkAccess s s.g.core s.g.ctx .fetch true [(0, (va.toNat : Int))] with
  | .bad t s => .bad { t with epc := some va } s
  | .ok s ts =>
    match ts with
    | (_, _, l) :: _ => .ok s (wordOfBytes (s.memBytes l.key 8))
    | [] => .bad { cause := cPAGE, epc := some va } s

/-- The address a kind-10 header records (R60). -/
def reconvAddr (va w : W64) : Int := va.toNat + 8 * (hdrReconv w).toInt

/-- Check a word that control reaches as a header (R58, R61). from_ is the transferring instruction or the preceding
block's last word. DEDUCED: a target that is misaligned and outside the address space raises BADHDR (log 9). -/
def State.checkHeader (s : State) (va from_ : W64) : Fetched :=
  let bad := fun (code : Nat) (ea : W64) => ({ cause := cBADHDR, eaddr := ea, einfo := BitVec.ofNat 64 code, epc := some va, atHdr := true } : Trap)
  if va.toNat % 8 != 0 then .bad (bad 8 from_) s
  else match s.fetchWord va with
    | .bad t s => .bad { t with atHdr := true } s
    | .ok s w =>
      match hdrCode w with
      | some code => .bad (bad code from_) s
      | none =>
        if hdrKind w = 2 then
          let r := w64 (reconvAddr va w)
          match s.fetchWord r with
          | .bad t s => .bad { t with atHdr := true, epc := some va, eaddr := r } s
          | .ok s w' => if (hdrCode w').isSome then .bad (bad 7 r) s else .ok s w
        else .ok s w

/-! ## Taking a cause (R103, R394, R417 to R420) -/

/-- The registers that a cause would write (R103). -/
def Trap.regs (t : Trap) (pc : W64) : TrapRegs :=
  { tcause := t.cause, epc := t.epc.getD pc, elanes := t.elanes, eaddr := t.eaddr, einfo := t.einfo }

/-- Write the trap registers (R103). In handler mode a cause that goes to system software first keeps the trap state in
the slot's hidden copy (R420). -/
def State.writeTrap (s : State) (t : Trap) : State :=
  let g := s.g
  { s with g := { g with
    hidden := if g.hmode then some (g.r.trap, g.intr) else none
    r := { g.r with trap := t.regs g.pc }
    intr := { hdr := t.atHdr, blkHdr := g.blkHdr, blkEnd := g.blkEnd, xferFrom := g.xferFrom, pend := g.r.pend, viaHost := t.viaHost } } }

/-- Whether a die has room for the records that these pages need (R394). -/
def State.recordRoom (s : State) (die ctx : Nat) (pages : List (Nat × Nat)) : Bool :=
  let new := pages.filter fun p => !s.cx.recs.any fun r => r.ctx = ctx && r.page = p.1
  (s.cx.recs.filter (·.die = die)).length + new.length ≤ 512

/-- Make a fault record for a page, or join the one there is (R394); the record's name comes with it. -/
def State.joinRecord (s : State) (die ctx : Nat) (q : Requester) (p : Nat × Nat) : State × Nat :=
  match s.cx.recs.find? fun r => r.ctx = ctx && r.page = p.1 with
  | some r =>
    ({ s with cx := { s.cx with recs := s.cx.recs.map fun x => if x.id = r.id then { x with reqs := x.reqs ++ [q] } else x } }, r.id)
  | none =>
    let r : FaultRec := { id := s.cx.nextRec, die := die, ctx := ctx, page := p.1, level := p.2, reqs := [q] }
    ({ s with cx := { s.cx with recs := s.cx.recs ++ [r], nextRec := s.cx.nextRec + 1, notices := s.cx.notices ++ [.record r.id] } }, r.id)

/-- Take the requesters that q holds of off every fault record; a record left with none is still served (R397). -/
def State.dropReqs (s : State) (q : Requester → Bool) : State :=
  { s with cx := { s.cx with recs := s.cx.recs.map fun r => { r with reqs := r.reqs.filter fun x => !q x } } }
/-- Whether a requester waits on a fault record. -/
def State.waitsOn (s : State) (q : Requester) : Bool := s.cx.recs.any fun r => r.reqs.contains q

/-- Join the records of every failing page, up to 32. -/
def State.joinAll (s : State) (die ctx : Nat) (q : Requester) : List (Nat × Nat) → State × List Nat
  | [] => (s, [])
  | p :: r =>
    let (s, id) := s.joinRecord die ctx q p
    let (s, ids) := s.joinAll die ctx q r
    (s, id :: ids)

/-- A cause goes to system software: the region ends (R216, log 74), the group is Faulted and the command core is notified
(R96, R419); a PAGE makes or joins its fault records (R394). -/
def State.systemCause (s : State) (t : Trap) : State :=
  let s := s.endRegion
  let (s, ids) := s.joinAll (coreDie s.g.core) s.g.ctx (.group s.g.gid) (t.pages.take 32)
  { s with
    g := { s.g with phase := .faulted, records := ids }
    cx := { s.cx with notices := if ids = [] then s.cx.notices ++ [.cause s.g.gid t.cause] else s.cx.notices } }

/-- Enter the user handler (R417). -/
def State.enterHandler (s : State) : State :=
  let s := s.closeIdem.endRegion
  { s with g := { s.g with
    entryDepth := s.g.r.stack.length, epcw := false, hmode := true, phase := .running, hidden := none
    pc := s.g.r.tvec.setWidth 64, entering := true, xferFrom := s.g.r.trap.epc, arrived := none } }

/-- Whether a user-delivered cause can enter the handler (R417): not in handler mode, a handler set and aligned, and its
header passing R58 and R61. The check may cache translations. -/
def State.handlerReady (s : State) : Bool × State :=
  let h : W64 := s.g.r.tvec.setWidth 64
  if s.g.hmode || h = 0 || h.toNat % 8 != 0 then (false, s)
  else match s.checkHeader h s.g.r.trap.epc with
    | .ok s _ => (true, s)
    | .bad _ s => (false, s)

/-- What the slot holds of an instruction only while it is the oldest goes with its end: whether it has begun, waits for a word, for a
barrier's phase or for a fault record, or replays with watch checks off. -/
def Group.restart (g : Group) : Group := { g with begun := false, waits := none, twait := none, awaits := none, noRecord := none, watchOff := false }

/-- TAKING A CAUSE, the one operation every meaning uses (R103, R417, R419, R420): the trap registers are written, then a
user-delivered cause enters the handler, and any other cause leaves the group Faulted. A PAGE that finds no free fault
record leaves the requester waiting, parked, and writes nothing (R394). -/
def takeTrap (t : Trap) (s : State) : State :=
  if t.cause == cPAGE && !s.recordRoom (coreDie s.g.core) s.g.ctx (t.pages.take 32) then
    { s with g := { s.g with phase := .parked, noRecord := some (t.regs s.g.pc) } }
  else
    let s := { s with g := s.g.restart }
    if userCause t.cause && !s.g.hmode then
      match (s.writeTrap t).handlerReady with
      | (true, s) => s.enterHandler
      | (false, s) => s.systemCause t
    else (s.writeTrap t).systemCause t

/-! ## Returning (R419, R427) -/

/-- Go to a word of the interrupted block, or past its last word to the next header. -/
def Group.resumeIn (g : Group) (pc : W64) : Group :=
  if g.intr.hdr then { g with pc := pc, entering := true, xferFrom := g.intr.xferFrom }
  else if pc = g.intr.blkEnd then
    { g with pc := pc, entering := true, xferFrom := pc - 8, blkHdr := g.intr.blkHdr, blkEnd := g.intr.blkEnd, r := { g.r with pend := none } }
  else { g with pc := pc, entering := false, blkHdr := g.intr.blkHdr, blkEnd := g.intr.blkEnd, xferFrom := g.intr.xferFrom
                r := { g.r with pend := g.intr.pend } }

/-- RETURNING FROM THE HANDLER (R427), once its checks have passed: end the region, leave handler mode, and go where EPCW,
HDR and FN say. DEDUCED: the pending point of the interrupted block is the one it had (log 10). -/
def returnFromHandler (skip : Bool) (s : State) : State :=
  let s := s.endRegion
  let g := { s.g.restart with hmode := false, phase := .running }
  let epc := g.r.trap.epc
  if g.epcw then { s with g := { g with pc := epc, entering := true, xferFrom := s.g.pc, r := { g.r with pend := none } } }
  else if g.intr.hdr then
    { s with g := { g with pc := if skip then epc + 8 else epc, entering := true, xferFrom := s.g.pc, r := { g.r with pend := none } } }
  else { s with g := g.resumeIn (if skip then epc + 8 else epc) }

/-- Take the notices and records of a group away once its cause has ended. -/
def State.clearCause (s : State) : State :=
  let gid := s.g.gid
  let s := s.dropReqs (· = .group gid)
  { s with
    g := { s.g with records := [] }
    cx := { s.cx with notices := s.cx.notices.filter fun n => match n with | .cause q _ => q != gid | _ => true } }

/-- Give the trap state back that a cause raised in handler mode hid (R420). -/
def Group.unhide (g : Group) : Group :=
  match g.hidden with
  | none => g
  | some (t, i) => { g with r := { g.r with trap := t }, intr := i, hidden := none }

/-- System software serves the cause (R96, R419): the instruction replays at sys.epc, or the header is entered again;
a brk resumes at the word after it (R423). -/
def State.replay (s : State) (skip : Bool) : State :=
  let s := s.clearCause
  let epc := s.g.r.trap.epc
  let g := { s.g with phase := .running }
  { s with g := (g.resumeIn (if skip then epc + 8 else epc)).unhide }

/-! ## How an instruction ends -/

/-- The phase of a group whose instruction retires: a parked one runs again, and one that a failure is saving or a cancel
discarding stays so (R97, R404). -/
def Phase.go (p : Phase) : Phase := if p = .parked then .running else p

/-- The end of an instruction: it retires and control goes to the next word (next) or to a target (jump); it raises a
cause (trap); it waits, to be tried again (park); or control is as the state says (stay). -/
inductive Res where
  | next (s : State)
  | jump (target : W64) (s : State)
  | trap (t : Trap) (s : State)
  | park (s : State)
  | stay (s : State)

/-- Control goes to the next word; past the block's last word it is a header, and an unused pending point goes (R57, R64). -/
def Group.advance (g : Group) : Group :=
  let pc := g.pc + 8
  let g := { g.restart with phase := g.phase.go }
  if pc = g.blkEnd then { g with pc := pc, entering := true, xferFrom := g.pc, r := { g.r with pend := none } }
  else { g with pc := pc }

/-- Control goes to a target, to be entered as a header (R57). -/
def Group.jumpTo (g : Group) (target : W64) : Group :=
  { g.restart with pc := target, entering := true, xferFrom := g.pc, phase := g.phase.go, r := { g.r with pend := none } }

/-- The state an instruction leaves. -/
def Res.state : Res → State
  | .next s => { s with g := s.g.advance }
  | .jump t s => { s with g := s.g.jumpTo t }
  | .trap t s => takeTrap t s
  | .park s => { s with g := { s.g with phase := if s.g.phase = .running then .parked else s.g.phase } }
  | .stay s => s

/-- Every instruction and event of this machine answers a next state. -/
def settle (r : Res) : Out := .next r.state
/-- An event answers the state it leaves. -/
def done (s : State) : Out := .next s

/-- Raise a cause, or go on. -/
@[inline] def orTrap (o : Option Trap) (s : State) (k : Res) : Res := match o with | some t => .trap t s | none => k

/-- POISON for the poisoned items among those read (R422). -/
def readPoison (g : Group) (items : List Item) : Option Trap :=
  match g.poisoned items with
  | [] => none
  | bad => some { cause := cPOISON, einfo := 2, elanes := maskOfList (bad.filterMap itemLane) }

/-- A sequence of checks: the first that fails decides. -/
def firstTrap : List (Option Trap) → Option Trap
  | [] => none
  | some t :: _ => some t
  | none :: r => firstTrap r

/-- A cause with a code in sys.einfo and no lane. -/
def trapCode (cause : Byte) (code : Nat) : Trap := { cause := cause, einfo := BitVec.ofNat 64 code }
/-- The cause when c holds. -/
def trapIf (c : Bool) (t : Trap) : Option Trap := if c then some t else none
/-- The same, with the lanes concerned. -/
def Trap.lanes_ (t : Trap) (m : W32) : Trap := { t with elanes := m }

/-! ## Block entry (R107) -/

/-- Pop every frame on top whose POINT is the header's address; the mask becomes the last popped frame's M. -/
def popAt (a : W64) : List Frame → W32 → List Frame × W32
  | [], m => ([], m)
  | f :: r, m => if f.point = some a then popAt a r f.m else (f :: r, m)

/-- LIVE (R63): dead vector registers read 0. DESIGN CHOICE: LIVE names v0 to v255 in handler mode too, so bit 15 = 0 zeroes
v252 to v255 and leaves zv0 to zv3, which stand in their numbers there (log 68). -/
def applyLive (live : BitVec 16) (r : Arch) : Arch :=
  if live = 0xFFFF then r
  else { r with
    v := Vector.ofFn fun n => if live.getLsbD (n.val / 16) then r.v[n] else Vector.replicate 32 0
    poison := r.poison.filter fun t => match t with | .v n _ => live.getLsbD (n / 16) | _ => true }

/-- The idempotent region that a kind-01 header opens (R64), with what kill and replay restores (R410). -/
def State.openRegion (s : State) (va : W64) (r : Arch) : Region :=
  let g := s.g
  { header := va, entry := r, replayable := true, hmode := g.hmode, entryDepth := g.entryDepth, epcw := g.epcw, intr := g.intr
    hidden := g.hidden, splt := g.splt }

/-- Enter the block at the program counter (R57, R58, R107): pop, apply LIVE, apply KIND; or raise what its checks raise. -/
def enterBlock (s : State) : State :=
  match s.checkHeader s.g.pc s.g.xferFrom with
  | .bad t s => takeTrap t s
  | .ok s w =>
    let va := s.g.pc
    let (stack, mask) := popAt va s.g.r.stack s.g.r.mask
    let r := applyLive (hdrLive w) { s.g.r with stack := stack, mask := mask, pend := none }
    let g := if hdrKind w = 2 then s.g else s.g.closeIdem
    let idem := if hdrKind w = 1 then some (s.openRegion va r) else g.idem
    { s with g := { g with
      r := { r with pend := if hdrKind w = 2 then some (w64 (reconvAddr va w)) else none }
      idem := idem, pc := va + 8, entering := false, blkHdr := va, blkEnd := va + 8 + 8 * BitVec.ofNat 64 (hdrLen w)
      phase := .running } }

/-- ILLEGAL with the low bit of the failing field (R91). -/
def illegal (bit : Nat) : Trap := trapCode cILLEGAL bit

/-- Whether the instruction at the program counter is the last word of its block. -/
def Group.atLast (g : Group) : Bool := g.pc + 8 = g.blkEnd

/-- A transfer must stand last in its block (R59); DEDUCED: ILLEGAL then names the opcode's low bit, 56 (log 9). -/
def mustBeLast (s : State) (k : Res) : Res := if s.g.atLast then k else .trap (illegal 56) s

/-! ## Class-g accesses (R170, R176, R218, R423) -/

/-- Check an access of the group whose turn it is: the checks of R170, watchpoints, then the snare. -/
def accessG (s : State) (a : AccSpec) (scalar atomic : Bool) (accs : List (Nat × Int)) (k : State → List Hit3 → Res) : Res :=
  match checkAccess s s.g.core s.g.ctx a scalar accs with
  | .bad t s => .trap t s
  | .ok s ts =>
    match checkWatch s s.g a scalar accs with
    | some t => .trap t s
    | none =>
      if a.cacheCtl || ts.all (fun t => !t.2.2.rc) then k s ts
      else match s.snare (a.acc = 1) atomic scalar ts with
        | .ok s => k s ts
        | .wait s => .stay s
        | .conflict t s => .trap t s

/-- Groups in the slots of a core. -/
def State.residents (s : State) (core : Nat) : List Group := s.groups.filter fun g => g.core = core && g.phase.holdsSlot
/-- Whether a tile stands on its core in no reservation there: its group has left (R247). -/
def State.isLoose (s : State) (t : Tile) : Bool := t.st != .global && !(s.residents t.core).any (·.gid = t.res)
/-- Granules of the loose tiles on a core that q holds of. -/
def State.looseTiles (s : State) (core : Nat) (q : Tile → Bool) : Nat :=
  ((s.cs.tiles.filter fun t => t.core = core && s.isLoose t && q t).map (·.ngran)).sum
/-- Granules of a core's scratchpad region: the reservations of its residents, and the loose tiles. -/
def State.granulesOn (s : State) (core : Nat) (q : Tile → Bool := fun _ => true) : Nat :=
  ((s.residents core).map (·.granules)).sum + s.looseTiles core q
/-- The first granule of a reservation in the scratchpad region of its core (R188, R189): a release moves the ones above it down.
DESIGN CHOICE: reservations stand in the order in which their groups were bound (log 42). -/
def State.granuleBase (s : State) (core res : Nat) : Nat := (((s.residents core).filter (·.gid < res)).map (·.granules)).sum
/-- The first granule of a tile in that region. DESIGN CHOICE: the loose tiles stand above the reservations, one after the other without
a gap, in the order of their reservations and their places there (log 42). -/
def State.tileBase (s : State) (t : Tile) : Nat :=
  if s.isLoose t then ((s.residents t.core).map (·.granules)).sum + s.looseTiles t.core fun u => u.res < t.res || (u.res = t.res && u.gran < t.gran)
  else s.granuleBase t.core t.res + t.gran
/-- The bank of a core's unified store that holds granule j of a tile (R188): three banks a resident slot come first. -/
def State.bankOf (s : State) (t : Tile) (j : Nat) : Nat := 3 * (s.residents t.core).length + s.tileBase t + j
/-- Banks of a core's unified store that its resident slots and its scratchpad take (R17, R188). -/
def State.usedBanks (s : State) (core : Nat) : Nat := 3 * (s.residents core).length + s.granulesOn core
/-- Lines that a core's first-level cache holds: the banks left, 128 lines each (R188). -/
def State.l1Lines (s : State) (core : Nat) : Nat := 128 * (96 - s.usedBanks core)
/-- Drop the first-level lines of a core that the banks left to its cache cannot hold (R189), and the ownership of lines that it
evicts (R186). DESIGN CHOICE: the oldest go first, but for those marked first for replacement (log 86). -/
def State.fitL1 (s : State) (core : Nat) : State :=
  { s with ms := { s.ms with
    l1 := keepFirst (fun o => o.1 = core) (s.l1Lines core) s.ms.l1
    owned := keepFirst (fun o => o.2 = core) (s.l1Lines core) s.ms.owned } }

/-- The mark that CACHE leaves on the home-slice copy of a line (R172): .cs and .cl mark it first for replacement, a plain access takes
the mark away. -/
def MemSys.hint (ms : MemSys) (cache : BitVec 2) (line : Nat) : MemSys :=
  if cache = 1 || cache = 3 then { ms with first := insertNat line ms.first }
  else if cache = 0 then { ms with first := ms.first.filter (· ≠ line) }
  else ms
/-- The mark that an access leaves at its home slice; a pod page's line lies in another device's. -/
def State.noteHome (s : State) (cache : BitVec 2) (l : Leaf) : State :=
  if l.kind = 2 then s else { s with ms := s.ms.hint cache (l.key / 128) }
/-- A class-g read of a line: the first-level cache gains or loses its copy, within its banks; one marked first for replacement stands
last among its core's (R172). -/
def State.noteLoad (s : State) (cache : BitVec 2) (l : Leaf) : State :=
  let s := s.noteHome cache l
  let ms := s.ms
  let here := (s.g.core, l.key / 128)
  let rest := ms.l1.filter (· ≠ here)
  if cache = 3 then { s with ms := { ms with l1 := rest } }
  else if cache = 2 || l.rc || l.kind = 2 then s
  else if cache = 1 then { s with ms := { ms with l1 := keepFirst (fun o => o.1 = s.g.core) (s.l1Lines s.g.core - 1) rest ++ [here] } }
  else if ms.l1.contains here then s
  else State.fitL1 { s with ms := { ms with l1 := here :: ms.l1 } } s.g.core
/-- A store's hint: .cl drops the first-level copy, and the home slice's copy is marked (R172). -/
def State.noteStore (s : State) (cache : BitVec 2) (l : Leaf) : State :=
  let s := s.noteHome cache l
  if cache = 3 then { s with ms := { s.ms with l1 := s.ms.l1.filter (· ≠ (s.g.core, l.key / 128)) } } else s

/-- The hints of every lane of a store. -/
def State.noteStores (s : State) (cache : BitVec 2) (hits : List Hit3) : State := hits.foldl (fun s t => s.noteStore cache t.2.2) s

/-- Sectors that a store instruction's elements cover whole (R176). -/
def wholeSectors (ps : List PStore) : List Nat :=
  let secs := (ps.map fun p => p.key / 32).eraseDups
  secs.filter fun x => (List.range 32).all fun i => ps.any fun p => p.key ≤ 32 * x + i && 32 * x + i < p.key + p.bytes.length

/-- Mark, on the last element that touches it, each sector that the instruction covers whole. -/
def markClears (ps : List PStore) : List PStore :=
  match wholeSectors ps with
  | [] => ps
  | secs => (ps.reverse.foldl (fun (acc : List PStore × List Nat) p =>
      if acc.2.contains (p.key / 32) then ({ p with clears := [p.key / 32] } :: acc.1, acc.2.filter (· ≠ p.key / 32)) else (p :: acc.1, acc.2))
      ([], secs)).1

/-- Whether a range lies in the private window below HWM (R409). -/
def State.isPrivate (s : State) (va : Int) (n : Nat) : Bool :=
  let p := s.priv s.g.ctx
  (p.1 : Int) ≤ va && va + n ≤ p.2.1

/-- Put the elements of one store instruction into the store queue, or into the release buffer of a replayable region,
which raises RELOVF past 64 entries (R178, R409); the queue makes room first; only an instruction whose every byte lies in the private window goes to the
store queue there. Every store takes its instruction's place in program order. m is what sys.elanes gets. A pod page's store is performed before the instruction retires; DEDUCED: one that
goes to the release buffer has been accepted once its path has passed the checks, and is performed when the buffer moves
(log 72). -/
def State.queueStores (s : State) (m : W32) (cache : BitVec 2) (es : List (Hit3 × List Byte)) : Res :=
  let ps := markClears (es.map fun e => ({ key := e.1.2.2.key, bytes := e.2, seq := s.g.seq, no := s.g.storeNo } : PStore))
  if s.g.buffering && !es.all (fun e => s.isPrivate e.1.2.1 e.2.length) then
    if s.g.relBuf.length + ps.length > 64 then
      .trap { cause := cRELOVF, elanes := m, eaddr := w64 ((es.map (·.1.2.1)).headD 0) } s
    else
      let s := s.noteStores cache (es.map (·.1))
      .next { s with g := { s.g with relBuf := s.g.relBuf ++ ps, storeNo := s.g.storeNo + 1 } }
  else
    let s := (s.roomFor ps.length).noteStores cache (es.map (·.1))
    let s := { s with g := { s.g with storeQ := s.g.storeQ ++ ps, storeNo := s.g.storeNo + 1 } }
    .next (if es.any (fun e => e.1.2.2.kind = 2) then s.drain else s)

/-- A write event on behalf of a group's engine at a checked leaf: older stores of the group are left where they are. -/
def State.engineWrite (s : State) (l : Leaf) (b : List Byte) : State := s.memWrite l.key b

end Sys2Proof.Machine
end

