-- ==== Sys2Proof/Machine/Flags.lean ====
section
/-! DEFINITION. The flag registers and the precise floating-point trap (R50 to R55). -/

namespace Sys2Proof.Machine

/-- Bits of sys.qflags (R52). -/
def qRSV : BitVec 6 := 1
def qTRSV : BitVec 6 := 2
def qT5RSV : BitVec 6 := 4
def qSCRNG : BitVec 6 := 8
def qACCOV : BitVec 6 := 16
def qSAT : BitVec 6 := 32

/-- OR exceptions into sys.fflags. -/
def State.orF (s : State) (fl : BitVec 5) : State := s.mapR fun r => { r with fflags := r.fflags ||| fl }
/-- OR bits into sys.qflags. -/
def State.orQ (s : State) (q : BitVec 6) : State := s.mapR fun r => { r with qflags := r.qflags ||| q }
/-- Set SAT when c holds. -/
def State.orSat (s : State) (c : Bool) : State := if c then s.orQ qSAT else s

/-- The OR over the lanes of a mask. -/
def orLanes {n : Nat} (m : W32) (x : Nat → BitVec n) : BitVec n := (activeLanes m).foldl (fun a i => a ||| x i) 0
/-- Whether any lane of a mask satisfies q. -/
def anyLane (m : W32) (q : Nat → Bool) : Bool := (activeLanes m).any q

/-- FPEXC when a lane of the mask meets an enabled exception (R55): sys.elanes names those lanes, sys.einfo every exception
any active lane met. -/
def fpTrap (g : Group) (m : W32) (exc : Nat → BitVec 5) : Option Trap :=
  let bad := maskOf fun i => m.getLsbD i && exc i &&& g.r.fenable != 0
  if g.r.fenable = 0 || bad = 0 then none
  else some { cause := cFPEXC, elanes := bad, einfo := (orLanes m exc).setWidth 64 }

/-- FPEXC of the control thread: no lane is concerned (R117). -/
def fpTrapScalar (g : Group) (exc : BitVec 5) : Option Trap :=
  if exc &&& g.r.fenable = 0 then none else some { cause := cFPEXC, einfo := exc.setWidth 64 }

/-- The phase of R45 advances by one, modulo 32. -/
def State.advancePhase (s : State) (c : Bool) : State := if c then s.mapR fun r => { r with dphase := r.dphase + 1 } else s
/-- The dither threshold of position p under the group's phase (R44). -/
def Group.threshold (g : Group) (p : Nat) : Nat := dither64 ((p + g.r.dphase.toNat) % 32)

end Sys2Proof.Machine
end

