-- ==== Sys2Proof/Machine/Operands.lean ====
section
/-! DEFINITION. The operand forms: scalar values, lane layouts, memory addresses, and the common forms of scalar and vector
instructions (R75, R112, R131 to R133, R170). -/

namespace Sys2Proof.Machine

/-! ## Scalar operands (R112) -/

/-- Write a scalar register of the group whose turn it is. -/
def State.setS (s : State) (n : BitVec 6) (x : W64) : State := { s with g := s.g.sput n x }
/-- Write a predicate. -/
def State.setP (s : State) (n : BitVec 4) (x : W32) : State := { s with g := s.g.pput n x }

/-- val(x): signed under .i64, unsigned otherwise. -/
def sval (ty : BitVec 4) (x : W64) : Int := if ty = 3 then x.toInt else x.toNat

/-- A scalar instruction: its sources are checked for poison, then x goes to S[d] and SAT is set when c holds. -/
def scalarOp (s : State) (reads : List (BitVec 6)) (d : BitVec 6) (x : W64) (c : Bool := false) : Res :=
  orTrap (readPoison s.g (reads.map s.g.sitem)) s (.next ((s.setS d x).orSat c))

/-- The common form of R112: the exact result r, clamped under SAT and narrowed to 64 bits. -/
def s3Write (s : State) (f : S3) (reads : List (BitVec 6)) (r : Int) : Res :=
  let c := clamp (intLo (f.ty == 3) 64) (intHi (f.ty == 3) 64) r
  if f.sat = 1 then scalarOp s reads f.d (w64 c.1) c.2 else scalarOp s reads f.d (w64 r)

/-! ## Lane layouts (R132) -/

/-- Elements per lane of a type. -/
def elemN (t : BitVec 4) : Nat := if is64 t then 1 else 32 / tyBits t
/-- Whether an integer type is signed. -/
def isSigned (t : BitVec 4) : Bool := t.toNat < 4
/-- Element e of a lane. -/
def elemOf (t : BitVec 4) (x e : Nat) : Nat := natBits x (tyBits t * e) (tyBits t)
/-- An element as an integer, signed or unsigned by its type. -/
def elemInt (t : BitVec 4) (b : Nat) : Int :=
  if isSigned t && b ≥ 2 ^ (tyBits t - 1) then (b : Int) - 2 ^ tyBits t else b
/-- Join elements of w bits, element 0 lowest. -/
def joinElems (w : Nat) : List Nat → Nat
  | [] => 0
  | x :: r => x + 2 ^ w * joinElems w r

/-- The lane value of a register, or of a pair under set L. -/
def Group.lane (g : Group) (t : BitVec 4) (n : Byte) (i : Nat) : Nat := if is64 t then (g.vpair n i).toNat else (g.vget n i).toNat
/-- The poison items of the lanes of m in a register, or a pair. -/
def Group.vitems (g : Group) (wide : Bool) (m : W32) (n : Byte) : List Item :=
  if g.r.poison = [] then []
  else (activeLanes m).flatMap fun i => if wide then [g.vitem n i, g.vitem (n + 1) i] else [g.vitem n i]

/-- What a lane of a vector instruction comes to. -/
structure LaneOut where
  val : Nat
  exc : BitVec 5 := 0
  sat : Bool := false
  deriving DecidableEq, Repr, Inhabited

/-- Write the lanes of m into D, or a pair. -/
def State.setV (s : State) (wide : Bool) (d : Byte) (m : W32) (val : Nat → Nat) : State :=
  { s with g := if wide then s.g.vputPair d m fun i => BitVec.ofNat 64 (val i) else s.g.vput d m fun i => BitVec.ofNat 32 (val i) }

/-- The common form of a vector instruction (R105, R131, R133): with no active lane nothing happens; poisoned sources and
enabled exceptions raise; otherwise the active lanes are written and flags are set. DESIGN CHOICE: an instruction that meets both a poisoned
source and an enabled exception raises POISON, since R414 leaves their order to entries that give none (log 98). -/
def vectorOp (s : State) (m : W32) (reads : List Item) (d : Byte) (wide : Bool) (out : Nat → LaneOut) : Res :=
  if m = 0 then .next s
  else orTrap (readPoison s.g reads) s <| orTrap (fpTrap s.g m fun i => (out i).exc) s <|
    .next (((s.setV wide d m fun i => (out i).val).orF (orLanes m fun i => (out i).exc)).orSat (anyLane m fun i => (out i).sat))

/-- The active mask of a V3 instruction. -/
def v3mask (f : V3) (g : Group) : W32 := g.active f.pred f.pneg
/-- The active mask of a VI instruction. -/
def viMask (f : VI) (g : Group) : W32 := g.active f.pred 0

/-! ## Memory operands (R75, R170) -/

/-- The address of lane i: S[SB] + idx·2^SCALE + offset, exactly. -/
def laneAddr (g : Group) (sb vx : BitVec 6) (scale : BitVec 2) (off : Int) (i : Nat) : Int :=
  (g.sget sb).toNat + (if vx = 63 then i else (g.vget (vx.setWidth 8) i).toNat) * 2 ^ scale.toNat + off

/-- The lanes of a mask with their addresses. -/
def laneAccs (g : Group) (m : W32) (sb vx : BitVec 6) (scale : BitVec 2) (off : Int) : List (Nat × Int) :=
  (activeLanes m).map fun i => (i, laneAddr g sb vx scale off i)

/-- The address of a scalar form. -/
def scalarAddr (g : Group) (sb : BitVec 6) (off : Int) : Int := (g.sget sb).toNat + off

/-- The items an address reads. -/
def addrItems (g : Group) (m : W32) (sb vx : BitVec 6) : List Item :=
  g.sitem sb :: (if vx = 63 then [] else g.vitems false m (vx.setWidth 8))

end Sys2Proof.Machine
end

