-- ==== Sys2Proof/Machine/Scalar.lean ====
section
/-! DEFINITION. Scalar instructions (R112 to R117). -/

namespace Sys2Proof.Machine

/-- a, b of an S3 instruction as TYPE reads them, and as bits. -/
def s3va (f : S3) (s : State) : Int := sval f.ty (s.g.sget f.a)
def s3vb (f : S3) (s : State) : Int := sval f.ty (s.g.sget f.b)
def s3xa (f : S3) (s : State) : W64 := s.g.sget f.a
def s3xb (f : S3) (s : State) : W64 := s.g.sget f.b
/-- The shift count b mod 64. -/
def s3count (f : S3) (s : State) : Nat := (s3xb f s).toNat % 64
/-- The field length of sbfx and sbfi: F2, or 64 when F2 is 0. -/
def s3len (f : S3) : Nat := if f.f2 = 0 then 64 else f.f2.toNat
/-- The immediate of an SI instruction, sign-extended. -/
def siVal (f : SI) : Int := f.imm.toInt
/-- a of an SI instruction. -/
def sixa (f : SI) (s : State) : W64 := s.g.sget f.a

/-- Truncating quotient and remainder; the zero divisor gives all ones and the dividend (R27). -/
def quotient (a b : Int) : Int := if b = 0 then -1 else a.tdiv b
def remainder (a b : Int) : Int := if b = 0 then a else a.tmod b

/-- sdiv and srem: a zero divisor sets DZ, or raises FPEXC when DZ is enabled (R27, R117). -/
def scalarDiv (s : State) (f : S3) (r : Int) : Res :=
  let exc := if s3xb f s = 0 then fDZ else 0
  orTrap (readPoison s.g [s.g.sitem f.a, s.g.sitem f.b]) s <| orTrap (fpTrapScalar s.g exc) s <|
    .next ((s.setS f.d (w64 r)).orF exc)

/-- Number of leading zero bits of a value of w bits. -/
def clz (w x : Nat) : Nat := if x = 0 then w else w - 1 - Nat.log2 x
/-- Number of one bits among the low w bits. -/
def popCount : Nat → Nat → Nat
  | 0, _ => 0
  | w + 1, x => x % 2 + popCount w (x / 2)
/-- The six comparisons of R82 and R142. -/
def compareInt (c : Nat) (a b : Int) : Bool :=
  match c with
  | 0 => a == b | 1 => a != b | 2 => a < b | 3 => a ≤ b | 4 => a > b | _ => a ≥ b
/-- 1 or 0. -/
def bit64 (c : Bool) : W64 := if c then 1 else 0

/-- SADD (R113): val(a) + val(b). -/
def execSadd (f : S3) (s : State) : Out := settle (s3Write s f [f.a, f.b] (s3va f s + s3vb f s))
/-- SSUB (R113): val(a) − val(b). -/
def execSsub (f : S3) (s : State) : Out := settle (s3Write s f [f.a, f.b] (s3va f s - s3vb f s))
/-- SMUL (R113): val(a) · val(b). -/
def execSmul (f : S3) (s : State) : Out := settle (s3Write s f [f.a, f.b] (s3va f s * s3vb f s))
/-- SMULH (R113): the high half of the 128-bit product. -/
def execSmulh (f : S3) (s : State) : Out := settle (scalarOp s [f.a, f.b] f.d (w64 (s3va f s * s3vb f s / 2 ^ 64)))
/-- SDIV (R27, R113). -/
def execSdiv (f : S3) (s : State) : Out := settle (scalarDiv s f (quotient (s3va f s) (s3vb f s)))
/-- SREM (R27, R113). -/
def execSrem (f : S3) (s : State) : Out := settle (scalarDiv s f (remainder (s3va f s) (s3vb f s)))
/-- SMIN (R113). -/
def execSmin (f : S3) (s : State) : Out := settle (scalarOp s [f.a, f.b] f.d (w64 (min (s3va f s) (s3vb f s))))
/-- SMAX (R113). -/
def execSmax (f : S3) (s : State) : Out := settle (scalarOp s [f.a, f.b] f.d (w64 (max (s3va f s) (s3vb f s))))
/-- SABS (R113, R114). -/
def execSabs (f : S3) (s : State) : Out := settle (s3Write s f [f.a] (s3va f s).natAbs)
/-- SLEA (R113): a + b · 2^F1. -/
def execSlea (f : S3) (s : State) : Out := settle (scalarOp s [f.a, f.b] f.d (s3xa f s + s3xb f s <<< f.f1.toNat))
/-- SAND (R113). -/
def execSand (f : S3) (s : State) : Out := settle (scalarOp s [f.a, f.b] f.d (s3xa f s &&& s3xb f s))
/-- SOR (R113). -/
def execSor (f : S3) (s : State) : Out := settle (scalarOp s [f.a, f.b] f.d (s3xa f s ||| s3xb f s))
/-- SXOR (R113). -/
def execSxor (f : S3) (s : State) : Out := settle (scalarOp s [f.a, f.b] f.d (s3xa f s ^^^ s3xb f s))
/-- SANDN (R113): a AND NOT b. -/
def execSandn (f : S3) (s : State) : Out := settle (scalarOp s [f.a, f.b] f.d (s3xa f s &&& ~~~ s3xb f s))
/-- SSHL (R113). -/
def execSshl (f : S3) (s : State) : Out := settle (scalarOp s [f.a, f.b] f.d (s3xa f s <<< s3count f s))
/-- SSHR (R113). -/
def execSshr (f : S3) (s : State) : Out := settle (scalarOp s [f.a, f.b] f.d (s3xa f s >>> s3count f s))
/-- SSRA (R113). -/
def execSsra (f : S3) (s : State) : Out := settle (scalarOp s [f.a, f.b] f.d ((s3xa f s).sshiftRight (s3count f s)))
/-- SROT (R113). -/
def execSrot (f : S3) (s : State) : Out := settle (scalarOp s [f.a, f.b] f.d ((s3xa f s).rotateLeft (s3count f s)))
/-- SCLZ (R113). -/
def execSclz (f : S3) (s : State) : Out := settle (scalarOp s [f.a] f.d (BitVec.ofNat 64 (clz 64 (s3xa f s).toNat)))
/-- SPOP (R113). -/
def execSpop (f : S3) (s : State) : Out := settle (scalarOp s [f.a] f.d (BitVec.ofNat 64 (popCount 64 (s3xa f s).toNat)))
/-- SBFX (R113): a[F1+L−1:F1], sign-extended for .i64 and zero-extended for .n64. -/
def execSbfx (f : S3) (s : State) : Out :=
  let v := natBits (s3xa f s).toNat f.f1.toNat (s3len f)
  let r : Int := if f.ty = 3 && v ≥ 2 ^ ((s3len f) - 1) then (v : Int) - 2 ^ (s3len f) else v
  settle (scalarOp s [f.a] f.d (w64 r))
/-- SBFI (R113): b with bits [F1+L−1:F1] replaced by a[L−1:0]. -/
def execSbfi (f : S3) (s : State) : Out :=
  let ones := BitVec.ofNat 64 (2 ^ (s3len f) - 1)
  settle (scalarOp s [f.a, f.b] f.d ((s3xb f s &&& ~~~ (ones <<< f.f1.toNat)) ||| ((s3xa f s &&& ones) <<< f.f1.toNat)))
/-- SSEL (R113): a if c ≠ 0, otherwise b. -/
def execSsel (f : S3) (s : State) : Out :=
  settle (scalarOp s [f.a, f.b, f.c] f.d (if s.g.sget f.c ≠ 0 then s3xa f s else s3xb f s))
/-- SMOV (R113). -/
def execSmov (f : S3) (s : State) : Out := settle (scalarOp s [f.a] f.d (s3xa f s))
/-- SCMP (R113): FN is the condition. -/
def execScmp (f : S3) (s : State) : Out := settle (scalarOp s [f.a, f.b] f.d (bit64 (compareInt f.fn.toNat (s3va f s) (s3vb f s))))

/-- SADD_IMM (R115). -/
def execSaddImm (f : SI) (s : State) : Out := settle (scalarOp s [f.a] f.d (w64 ((sixa f s).toInt + (siVal f))))
/-- SMUL_IMM (R115). -/
def execSmulImm (f : SI) (s : State) : Out := settle (scalarOp s [f.a] f.d (w64 ((sixa f s).toInt * (siVal f))))
/-- SMIN_IMM (R115). -/
def execSminImm (f : SI) (s : State) : Out := settle (scalarOp s [f.a] f.d (w64 (min (sixa f s).toInt (siVal f))))
/-- SMAX_IMM (R115). -/
def execSmaxImm (f : SI) (s : State) : Out := settle (scalarOp s [f.a] f.d (w64 (max (sixa f s).toInt (siVal f))))
/-- SAND_IMM (R115). -/
def execSandImm (f : SI) (s : State) : Out := settle (scalarOp s [f.a] f.d (sixa f s &&& w64 (siVal f)))
/-- SOR_IMM (R115). -/
def execSorImm (f : SI) (s : State) : Out := settle (scalarOp s [f.a] f.d (sixa f s ||| w64 (siVal f)))
/-- SXOR_IMM (R115). -/
def execSxorImm (f : SI) (s : State) : Out := settle (scalarOp s [f.a] f.d (sixa f s ^^^ w64 (siVal f)))
/-- SSHL_IMM (R115). -/
def execSshlImm (f : SI) (s : State) : Out := settle (scalarOp s [f.a] f.d (sixa f s <<< f.imm.toNat))
/-- SSHR_IMM (R115). -/
def execSshrImm (f : SI) (s : State) : Out := settle (scalarOp s [f.a] f.d (sixa f s >>> f.imm.toNat))
/-- SSRA_IMM (R115). -/
def execSsraImm (f : SI) (s : State) : Out := settle (scalarOp s [f.a] f.d ((sixa f s).sshiftRight f.imm.toNat))
/-- SROT_IMM (R115). -/
def execSrotImm (f : SI) (s : State) : Out := settle (scalarOp s [f.a] f.d ((sixa f s).rotateLeft f.imm.toNat))
/-- SLI (R116): the sign-extended immediate. -/
def execSli (f : SI) (s : State) : Out := settle (scalarOp s [] f.d (w64 (siVal f)))
/-- SLIH (R116): bits [63:40] replaced by IMM40[23:0]. -/
def execSlih (f : SI) (s : State) : Out :=
  settle (scalarOp s [f.a] f.d (f.imm.extractLsb' 0 24 ++ (sixa f s).extractLsb' 0 40))
/-- SCMP_IMM (R116): a signed comparison. -/
def execScmpImm (f : SI) (s : State) : Out := settle (scalarOp s [f.a] f.d (bit64 (compareInt f.fn.toNat (sixa f s).toInt (siVal f))))

end Sys2Proof.Machine
end

