-- ==== Sys2Proof/Machine/Mem.lean ====
section
/-! DEFINITION. Loads, stores, prefetch and cache control (R173 to R181). -/

namespace Sys2Proof.Machine

/-- The active mask of a format-M instruction. -/
def fmMask (f : FM) (g : Group) : W32 := g.active f.pred 0
/-- The width of an element in bytes. -/
def fmBytes (f : FM) : Nat := 2 ^ f.width.toNat
/-- The lanes and addresses of a vector form. -/
def fmAccs (f : FM) (g : Group) : List (Nat × Int) := laneAccs g (fmMask f g) f.sb f.vx f.scale f.off.toInt

/-- Sign-extend a value of n bytes to w bits. -/
def signExt (n w v : Nat) : Nat := if v ≥ 2 ^ (8 * n - 1) then v + 2 ^ w - 2 ^ (8 * n) else v

/-- The value listed for a lane. -/
def laneValue (vs : List (Nat × Nat)) (i : Nat) : Nat := ((vs.find? (·.1 = i)).map (·.2)).getD 0

/-- A vector load (R173): every lane is checked, then each reads its element and extends it. -/
def vectorLoad (s : State) (f : FM) (signed : Bool) : Res :=
  let m := fmMask f s.g
  let n := fmBytes f
  if m = 0 then .next s
  else orTrap (readPoison s.g (addrItems s.g m f.sb f.vx)) s <|
    accessG s (.load n) false false (fmAccs f s.g) fun s ts =>
      let vs := ts.map fun t =>
        let v := leNat (s.ownBytes t.2.2.key n)
        (t.1, if signed then signExt n 32 v else v)
      let s := ts.foldl (fun s t => s.noteLoad f.cache t.2.2) s
      .next (s.setV (n = 8) f.d m (laneValue vs))

/-- A scalar load (R174): performed whatever the active mask; a write to s0 is discarded. -/
def scalarLoad (s : State) (f : FM) (signed : Bool) : Res :=
  let n := fmBytes f
  orTrap (readPoison s.g [s.g.sitem f.sb]) s <|
    accessG s (.load n) true false [(0, scalarAddr s.g f.sb f.off.toInt)] fun s ts =>
      match ts with
      | (_, _, l) :: _ =>
        let v := leNat (s.ownBytes l.key n)
        .next ((s.noteLoad f.cache l).setS (snum f.d) (BitVec.ofNat 64 (if signed then signExt n 64 v else v)))
      | [] => .stay s

/-- LD (R173). -/
def execLd (f : FM) (s : State) : Out := settle (vectorLoad s f false)
/-- LD_SIGNED (R173). -/
def execLdSigned (f : FM) (s : State) : Out := settle (vectorLoad s f true)
/-- LDU (R174). -/
def execLdu (f : FM) (s : State) : Out := settle (scalarLoad s f false)
/-- LDU_SIGNED (R174). -/
def execLduSigned (f : FM) (s : State) : Out := settle (scalarLoad s f true)

/-- ST (R177, R178): the elements enter the store queue in ascending lane order. -/
def execSt (f : FM) (s : State) : Out :=
  let g := s.g
  let m := fmMask f g
  let n := fmBytes f
  let wide := n = 8
  settle <| if m = 0 then .next s
    else orTrap (readPoison g (addrItems g m f.sb f.vx ++ g.vitems wide m f.d)) s <|
      accessG s (.store n) false false (fmAccs f g) fun s ts =>
        s.queueStores m f.cache (ts.map fun t => (t, leBytes n (if wide then (g.vpair f.d t.1).toNat else (g.vget f.d t.1).toNat)))

/-- STU (R177). -/
def execStu (f : FM) (s : State) : Out :=
  let g := s.g
  let n := fmBytes f
  settle <| orTrap (readPoison g [g.sitem f.sb, g.sitem (snum f.d)]) s <|
    accessG s (.store n) true false [(0, scalarAddr g f.sb f.off.toInt)] fun s ts =>
      s.queueStores 0 f.cache (ts.map fun t => (t, leBytes n (g.sget (snum f.d)).toNat))

/-- The access of a prefetch (R179). -/
def prefSpec : AccSpec := { AccSpec.load 1 with align := none }
/-- The lanes of a prefetch that the checks before translation let through. -/
def prefAccs (f : FM) (s : State) : List (Nat × Int) :=
  (fmAccs f s.g).filter fun a => (checkEarly s s.g.ctx prefSpec false [a]).isNone
/-- The translations of those lanes: the lanes of one page take one (R390). -/
def prefTranslated (f : FM) (s : State) : State × List (Nat × Int × Except (Nat × Nat) Leaf) :=
  translateAll s.g.core ((s.ctxOf s.g.ctx).getD default) [] (prefAccs f s) (s.readWindow s.g.ctx)
/-- A prefetch of one lane's line: a lane that fails a check is dropped (R179). -/
def prefetchOne (f : FM) (s : State) (t : Nat × Int × Except (Nat × Nat) Leaf) : State :=
  match t.2.2 with
  | .error _ => s
  | .ok l =>
    if l.kind = 2 || (checkLate s prefSpec false [(t.1, t.2.1, l)]).isSome then s
    else
      let s := s.beforeAccess prefSpec [(t.1, t.2.1, l)]
      if f.scope = 2 then s.noteLoad f.cache l else s.noteHome f.cache l

/-- PREF (R179): fills caches, writes no register, raises nothing; the translations it cached stay (R391). -/
def execPref (f : FM) (s : State) : Out :=
  let m := fmMask f s.g
  settle <| if m = 0 then .next s
    else orTrap (readPoison s.g (addrItems s.g m f.sb f.vx)) s <|
      let p := prefTranslated f s
      .next (p.2.foldl (prefetchOne f) p.1)

/-- The sectors of the lines that the lanes name, each line once (R180). -/
def namedLines (ts : List Hit3) : List Nat := (ts.map fun t => t.2.2.key / 128).eraseDups
/-- The four sectors of a line. -/
def lineSectors (l : Nat) : List Nat := [4 * l, 4 * l + 1, 4 * l + 2, 4 * l + 3]

/-- Drop this core's first-level copies of lines. -/
def State.dropL1 (s : State) (ls : List Nat) : State :=
  { s with ms := { s.ms with l1 := s.ms.l1.filter fun o => !(o.1 = s.g.core && ls.contains o.2) } }

/-- A line action: ownership is recalled first, and regions that hold tokens split before a drop (R181). -/
def State.lineAction (s : State) (wb drop : Bool) (ls : List Nat) : State :=
  let secs := ls.flatMap lineSectors
  let s := { s with ms := ls.foldl (fun ms l => ms.recall (128 * l) 128) s.ms }
  let s := if wb then { s with ms := s.ms.writeBack secs } else s
  if drop then
    let s := s.splitSectors secs
    { s with ms := ls.foldl (fun ms l => ms.dropCopies (128 * l) 128) (s.ms.discard secs) }
  else s

/-- Cache control (R180): the lanes are checked without ALIGN, the region becomes not replayable, the group's older stores
are performed, then the action is made on each named line; one that drops lines waits for the splits that are due (R181, R223). DESIGN CHOICE: with an empty active mask it has no effect at all
(R105), so that an open region stays replayable, though it retires inside it (R408; log 70). -/
def cacheControl (s : State) (f : FM) (a : AccSpec) (drops : Bool) (act : State → List Nat → State) : Res :=
  let m := fmMask f s.g
  if m = 0 then .next s
  else orTrap (readPoison s.g (addrItems s.g m f.sb f.vx)) s <|
    accessG s a false false (fmAccs f s.g) fun s ts =>
      let s := s.unreplayable.drain
      let secs := (namedLines ts).flatMap lineSectors
      if drops && (s.splitSectors secs).splitWaits secs then .stay (s.splitSectors secs) else .next (act s (namedLines ts))

/-- The access of cwb and cwbi (R180, R389). At de the host link must take what goes to host memory (R437). DESIGN CHOICE: ACC
of a cause they raise is 0, read, after the right they need (log 71). -/
def wbSpec (scope : BitVec 4) : AccSpec :=
  { cls := .g, acc := 0, needR := true, needW := false, size := 1, cacheCtl := true, link := scope = 7 }
/-- The access of cinv (R180, R389). DESIGN CHOICE: it counts as a write, ACC 1, after the right it needs, and sets D (log 71). -/
def invSpec : AccSpec := { cls := .g, acc := 1, needR := false, needW := true, size := 1, cacheCtl := true, reach := false }

/-- CWB (R180): dirty sectors are written back; the line stays. -/
def execCwb (f : FM) (s : State) : Out := settle (cacheControl s f (wbSpec f.scope) false fun s ls => s.lineAction true false ls)
/-- CINV (R180): at co the first-level copy goes; at de the line goes and dirty sectors are discarded. -/
def execCinv (f : FM) (s : State) : Out :=
  settle (cacheControl s f invSpec (f.scope != 2) fun s ls => if f.scope = 2 then s.dropL1 ls else s.lineAction false true ls)
/-- CWBI (R180): at co the first-level copy goes; at de the line is written back and goes. -/
def execCwbi (f : FM) (s : State) : Out :=
  settle (cacheControl s f (wbSpec f.scope) (f.scope != 2) fun s ls => if f.scope = 2 then s.dropL1 ls else s.lineAction true true ls)

end Sys2Proof.Machine
end

