-- ==== Sys2Proof/Machine/Atomics.lean ====
section
/-! DEFINITION. Atomics, line ownership and fences (R182 to R187, R225, R226). -/

namespace Sys2Proof.Machine

/-- A value of w bytes as a signed integer. -/
def signedOf (w v : Nat) : Int := if v ≥ 2 ^ (8 * w - 1) then (v : Int) - 2 ^ (8 * w) else v

/-- The new value of an atomic operation (R87, R183, R184); cmp is the compare value of .cas. -/
def aopNew (aop w old x cmp : Nat) : Nat :=
  match aop with
  | 0 => (old + x) % 2 ^ (8 * w)
  | 1 => if signedOf w x < signedOf w old then x else old
  | 2 => if signedOf w old < signedOf w x then x else old
  | 3 => min old x
  | 4 => max old x
  | 5 => old &&& x
  | 6 => old ||| x
  | 7 => old ^^^ x
  | 8 => x
  | 9 => if old = cmp then x else old
  | 10 => (f32.round 0 0 false (fvAdd 0 (f32.read old) (f32.read x)).x).bits
  | 11 => (fmtMinMax f32 false old x).bits
  | _ => (fmtMinMax f32 true old x).bits

/-- One indivisible read-modify-write at the serialisation point. Every copy of the line goes, also for a .cas that fails and writes
nothing (R167), and any ownership of it is recalled (R186). -/
def MemSys.atomic (ms : MemSys) (k w aop x cmp : Nat) : MemSys :=
  let old := leNat (memRead ms.mem k w)
  if aop = 9 && old != cmp then (ms.recall k w).dropCopies k w else ms.write k (leBytes w (aopNew aop w old x cmp))
/-- One by the group whose turn it is: the old value comes with the state. A line that this core owns is served at the core and stays
owned (R186). -/
def State.atomicAt (s : State) (k w : Nat) (aop x cmp : Nat) : State × Nat :=
  let old := s.memNat k w
  let mine := s.ms.owned.contains (k / 128, s.g.core)
  let ms := s.ms.atomic k w aop x cmp
  ({ s with ms := if mine then { ms with owned := s.ms.owned } else ms }, old)

/-- Perform the lanes in ascending order; each lane's old value reflects the lanes below it (R183). -/
def atomicLanes (w aop : Nat) (x cmp : Nat → Nat) : List (Nat × Nat) → State → State × List (Nat × Nat)
  | [], s => (s, [])
  | (i, k) :: r, s =>
    let (s, old) := s.atomicAt k w aop (x i) (cmp i)
    let (s, olds) := atomicLanes w aop x cmp r s
    (s, (i, old) :: olds)

/-- How many lanes an atomic performs before others may move: all, unless State.pauses says fewer (R183, log 2). -/
def State.takePause (s : State) (all : Nat) : Nat × State :=
  match s.pauses with
  | [] => (all, s)
  | n :: r => (n, { s with pauses := r })

/-- Perform a started atomic's lanes: each is one indivisible access, and others may move between two of them (R183, R185). It
retires when its last lane is performed; k gets what its lanes read. DEDUCED: with a lane on a RACECHECK page nothing comes between its
lanes, since its tokens are checked as it starts and an access between would be in no order of R221 (log 113). -/
def atomicRun (w aop : Nat) (x cmp : Nat → Nat) (run : AtomicRun) (s : State) (k : State → List (Nat × Nat) → Res) : Res :=
  let (n, s) := if run.whole then (run.left.length, s) else s.takePause run.left.length
  let (s, olds) := atomicLanes w aop x cmp (run.left.take n) s
  let olds := run.olds ++ olds
  if run.left.length ≤ n then k { s with g := { s.g with atomic := none } } olds
  else .stay { s with g := { s.g with atomic := some { run with left := run.left.drop n, olds := olds } } }

/-- What an atomic does before it is performed: the region becomes not replayable, older stores are performed, and an ORD
other than .rlx ends the region (R185, R208, R216). -/
def State.beforeAtomic (s : State) (ord : BitVec 2) : State :=
  let s := s.unreplayable.drain
  if ord = 0 then s else s.endRegion

/-- The lanes and keys of an atomic that starts. -/
def runOf (i : Instr) (ts : List Hit3) : AtomicRun := { i := i, left := ts.map fun t => (t.1, t.2.2.key), whole := ts.any (·.2.2.rc) }
/-- An atomic that has started goes on where it stands, since it is never replayed (R185); another makes its checks first. -/
def startedOr (s : State) (go : State → AtomicRun → Res) (check : (State → AtomicRun → Res) → Res) : Res :=
  match s.g.atomic with
  | some run => go s run
  | none => check go

/-- Width in bytes of an atomic. -/
def maBytes (f : MA) : Nat := 2 ^ f.width.toNat
/-- The active mask. -/
def maMask (f : MA) (g : Group) : W32 := g.active f.pred 0
/-- The first register of the operand: the swap registers of .cas, otherwise D (R182). -/
def maOperand (f : MA) : Byte := if f.aop = 9 then f.d + (if f.width = 3 then 2 else 1) else f.d

/-- The vector form that atom and red share (R182, R183): olds gets what the lanes read. DESIGN CHOICE: with an empty active mask
it has no effect at all (R105), so that an open region stays replayable, though it retires inside it (R408; log 70). -/
def vectorAtomic (s : State) (i : Instr) (f : MA) (olds : State → W32 → List (Nat × Nat) → State) : Res :=
  let g := s.g
  let m := maMask f g
  let w := maBytes f
  let wide := w = 8
  let val (n : Byte) (i : Nat) : Nat := if wide then (g.vpair n i).toNat else (g.vget n i).toNat
  let reads := addrItems g m f.sb f.vx ++ g.vitems wide m f.d ++ g.vitems wide m (maOperand f)
  startedOr s (fun s run => atomicRun w f.aop.toNat (val (maOperand f)) (val f.d) run s fun s os => .next (olds s m os)) fun go =>
    if m = 0 then .next s
    else orTrap (readPoison g reads) s <|
      accessG s (.atomic w) false true (laneAccs g m f.sb f.vx f.scale f.off.toInt) fun s ts =>
        go (s.beforeAtomic f.ord) (runOf i ts)

/-- ATOM (R182, R183): the old values go to D. -/
def execAtom (f : MA) (s : State) : Out :=
  settle (vectorAtomic s (.atom f) f fun s m os => s.setV (maBytes f = 8) f.d m (laneValue os))
/-- RED (R182, R183): nothing is returned. -/
def execRed (f : MA) (s : State) : Out := settle (vectorAtomic s (.red f) f fun s _ _ => s)

/-- ATOMU (R182, R183): one access whatever the mask; the old value is zero-extended. -/
def execAtomu (f : MA) (s : State) : Out :=
  let g := s.g
  let w := maBytes f
  let d := snum f.d
  let x := (g.sget (if f.aop = 9 then d + 1 else d)).toNat % 2 ^ (8 * w)
  let cmp := (g.sget d).toNat % 2 ^ (8 * w)
  settle <| startedOr s (fun s run => atomicRun w f.aop.toNat (fun _ => x) (fun _ => cmp) run s fun s os =>
      .next (s.setS d (BitVec.ofNat 64 (laneValue os 0)))) fun go =>
    orTrap (readPoison g ([g.sitem f.sb, g.sitem d] ++ if f.aop = 9 then [g.sitem (d + 1)] else [])) s <|
      accessG s (.atomic w) true true [(0, scalarAddr g f.sb f.off.toInt)] fun s ts =>
        go (s.beforeAtomic f.ord) (runOf (.atomu f) ts)

/-- Whether a line of device memory lies in a page that this device reaches through its own pod number. DEDUCED: the pages that R186
calls pod-mapped are those a translation in use maps so (log 91). -/
def State.podMapped (s : State) (line : Nat) : Bool :=
  (s.ms.tlb ++ s.ms.past).any fun t => t.isLeaf && entryKind t.leaf.toNat = 2 &&
    let l := leafOf s t.leaf.toNat t.leafAt t.size t.base
    l.key < 128 * line + 128 && 128 * line < l.key + t.size
/-- LINE_OWNERSHIP_GRANT (R186): the home slice grants a line of device memory to one core; another owner's is recalled first, and
nothing changes for a line that this core owns already, is no device-memory line or is pod-mapped. The core's cache holds the line,
and evicts one for it when it is full. -/
def execLineOwnershipGrant (core line : Nat) (s : State) : Out :=
  done (if 128 * line < spaceSize && core < 256 && !s.podMapped line && !s.ms.owned.contains (line, core)
    then
      let ms := s.ms.recall (128 * line) 128
      State.fitL1 { s with ms := { ms with owned := (line, core) :: ms.owned } } core
    else s)

/-! ## Fences -/

/-- Scopes co or wider (R225). -/
def scopeCo (sc : BitVec 4) : Bool := 2 ≤ sc.toNat
/-- Every older class-g store of the group is performed at a scope; at sy its backing memory holds it (R211). -/
def State.performAt (s : State) (sc : BitVec 4) : State :=
  let s := s.drain
  if sc = 11 then { s with ms := s.ms.writeBackAll } else s

/-- FENCE (R225): the region ends; at co or wider with .ar or .rel every older store is performed first. -/
def execFence (f : FY) (s : State) : Out :=
  let s := s.unreplayable
  let s := if scopeCo f.scope && f.ord.toNat != 1 then s.performAt f.scope else s
  settle (.next s.endRegion)

/-- Whether an older access of the group on a class is not performed yet (R226): copies, marching rays, merges and draws,
transfers. An operand fetch has its values once its macg has retired. -/
def State.pendingOn (s : State) (cls : BitVec 6) : Bool :=
  let gid := s.g.gid
  (cls.getLsbD 4 && s.cs.copies.any (·.gid = gid)) ||
  (cls.getLsbD 2 && s.g.rays.any (fun r => r.phase != .suspended)) ||
  (cls.getLsbD 1 && (s.cs.merges.any (·.gid = gid) || s.cs.draws.any (·.gid = gid))) ||
  (cls.getLsbD 0 && s.lk.xfers.any (·.gid = gid))

/-- XFENCE (R226): ends the region, then waits while an access of a class of CLS1 is not performed. -/
def execXfence (f : FY) (s : State) : Out :=
  let s := s.endAtStart
  settle (if s.pendingOn f.cls1 then .stay s
    else
      let s := s.unreplayable
      let s := if f.cls1.getLsbD 5 then s.performAt f.scope else if f.scope = 11 then { s with ms := s.ms.writeBackAll } else s
      .next s)

end Sys2Proof.Machine
end

