-- ==== Sys2Proof/Machine/Barrier.lean ====
section
/-! DEFINITION. The barrier table, and the barrier instructions (R251 to R261). -/

namespace Sys2Proof.Machine

/-! ## Entries (R251, R255) -/

/-- Address of an entry's memory-resident form in the save area of its context (R406); DEDUCED: SAVE is a physical address
(log 20). -/
def barForm (c : Ctx) (core idx : Nat) : Nat := c.save + 1024 * (core - 32 * c.fsect) + 16 * idx
/-- The memory-resident form (R255). -/
def Barrier.form (b : Barrier) : Nat :=
  b.phase.toNat + 2 ^ 16 * b.cnt + 2 ^ 21 * b.exp + (if b.cl then 2 ^ 26 else 0) + 2 ^ 32 * b.memb.toNat + 2 ^ 48 * b.arr.toNat +
  2 ^ 64 * b.idx + 2 ^ 73 * b.core
/-- An entry with what its memory-resident form says of it. -/
def Barrier.ofForm (b : Barrier) (x : Nat) : Barrier :=
  { b with
    phase := BitVec.ofNat 16 x, cnt := natBits x 16 5, exp := natBits x 21 5, cl := natBits x 26 1 = 1
    memb := BitVec.ofNat 16 (x / 2 ^ 32), arr := BitVec.ofNat 16 (x / 2 ^ 48) }
/-- An entry as it stands: a Spilled one stands in its memory-resident form (R254), within the partition (log 78). -/
def State.barNow (s : State) (b : Barrier) : Barrier :=
  match b.st, s.ctxOf b.ctx with
  | .spilled, some c => if c.inMemory (barForm c b.core b.idx) 16 then b.ofForm (s.memNat (barForm c b.core b.idx) 16) else b
  | _, _ => b
/-- A core's barrier entry that is not Free. -/
def State.barAt (s : State) (core idx : Nat) : Option Barrier := (s.cs.bars.find? fun b => b.core = core && b.idx = idx).map s.barNow
/-- The device reads an entry: the memory-resident form of a Spilled one, at its home slice (R186). -/
def State.readBar (s : State) (core idx : Nat) : State :=
  match s.cs.bars.find? fun b => b.core = core && b.idx = idx with
  | some b => match b.st, s.ctxOf b.ctx with
    | .spilled, some c => s.seen (barForm c core idx) 16
    | _, _ => s
  | none => s
/-- It reads every entry that a group belongs to. -/
def State.readBars (s : State) (g : Group) : State := g.bars.foldl (fun s e => s.readBar e.1 e.2) s
/-- Write the form of a Spilled entry to memory. -/
def State.writeForm (s : State) (b : Barrier) : State :=
  match b.st, s.ctxOf b.ctx with
  | .spilled, some c => s.ctxPut c (barForm c b.core b.idx) 16 b.form
  | _, _ => s
/-- The token of an arrival (R253). -/
def Barrier.token (b : Barrier) : W64 := BitVec.ofNat 64 (b.phase.toNat + 2 ^ 16 * b.idx + 2 ^ 32 * b.core)
/-- A parked wait whose phase has passed retires (R254, R256). -/
def Group.retireWait (g : Group) : Group := ({ g.unreplayable with arrived := none, awaits := none } : Group).advance
/-- Whether a group is parked on a token: that of its own arrival, or that of its bar.wait. -/
def Group.waitsOn (g : Group) (t : W64) : Bool := g.phase = .parked && (g.arrived = some t || g.awaits = some t)
/-- Every parked wait on a token retires. -/
def State.passWaits (s : State) (q : Group → Bool) (t : W64) : State :=
  s.mapGroups fun g => if g.waitsOn t && q g then g.retireWait else g
/-- Replace an entry: a Spilled one is performed on its memory-resident form, and the parked waits whose phase has passed
retire. -/
def State.putBar (s : State) (b : Barrier) : State :=
  let old := s.barAt b.core b.idx
  let s := ({ s with cs := { s.cs with bars := s.cs.bars.map fun (x : Barrier) => if x.core = b.core && x.idx = b.idx then b else x } }).writeForm b
  match old with
  | some a => if a.phase != b.phase then s.passWaits (fun g => g.ctx = a.ctx) a.token else s
  | none => s
/-- An entry becomes Free. -/
def State.freeBar (s : State) (core idx : Nat) : State :=
  { s with cs := { s.cs with bars := s.cs.bars.filter fun b => !(b.core = core && b.idx = idx) } }

/-- The bit of MEMB and ARR that stands for a group at an entry of a core (R251). -/
def Group.barBit (g : Group) (core : Nat) : BitVec 16 := BitVec.twoPow 16 (if g.core = core then g.slot % 8 else 8 + g.slot % 8)
/-- Complete the phase when every arrival is in (R252). -/
def Barrier.complete (b : Barrier) : Barrier :=
  if b.cnt = b.exp then { b with phase := b.phase + 1, cnt := 0, arr := 0 } else b
/-- Number of one bits. -/
def ones16 (x : BitVec 16) : Nat := popCount 16 x.toNat

/-- The checks of an arrival or a drop in the order of R259: the code of the first that fails, or the entry. -/
def State.checkBar (s : State) (core idx : Nat) (arrival : Bool) : Except Nat Barrier :=
  let g := s.g
  match s.barAt core idx with
  | none => .error 2
  | some b =>
    let bit := g.barBit core
    let member := g.bars.contains (core, idx)
    if b.ctx != g.ctx then .error 2
    else if core != g.core && !b.cl then .error 6
    else if arrival && member && b.arr &&& bit != 0 then .error 3
    else if arrival && !member && (ones16 b.memb = b.exp || b.held &&& bit != 0) then .error 4
    else .ok b

/-- An arrival (R252), once its checks have passed. -/
def Barrier.arrive (b : Barrier) (bit : BitVec 16) : Barrier :=
  ({ b with memb := b.memb ||| bit, arr := b.arr ||| bit, cnt := b.cnt + 1 }).complete
/-- Record the membership of a group. -/
def Group.joinBar (g : Group) (core idx : Nat) : Group :=
  if g.bars.contains (core, idx) then g else { g with bars := g.bars ++ [(core, idx)] }

/-- A drop by a member (R252); with EXP 0 the entry becomes Free. -/
def Barrier.drop (b : Barrier) (bit : BitVec 16) : Barrier :=
  let b := if b.arr &&& bit = 0 then b.arrive bit else b
  let b := { b with memb := b.memb &&& ~~~ bit, held := b.held &&& ~~~ bit, exp := b.exp - 1 }
  if b.exp != 0 && b.cnt > 0 then b.complete else b

/-- Drop the group whose turn it is from one entry; a group that is no member, or of another context, changes nothing. -/
def State.dropBar (s : State) (e : Nat × Nat) : State :=
  if !s.g.bars.contains e then s
  else
    let bit := s.g.barBit e.1
    let s := { s with g := { s.g with bars := s.g.bars.filter (· ≠ e) } }
    match s.barAt e.1 e.2 with
    | none => s
    | some b =>
      if b.ctx != s.g.ctx then s
      else
        let b := b.drop bit
        let s := s.putBar b
        if b.exp = 0 then s.freeBar e.1 e.2 else s
/-- Drop it from every entry it belongs to (R129, R261). -/
def State.dropAllBars (s : State) : State := s.g.bars.foldl State.dropBar s

/-! ## Spill, reload and saved members (R251, R254) -/

/-- Whether a context has a group in a slot of a core. -/
def State.residentOn (s : State) (ctx core : Nat) : Bool :=
  s.groups.any fun g => g.ctx = ctx && g.core = core && g.phase.holdsSlot && g.phase != .bound
/-- Spill the entries of a context on a core none of whose groups is resident there. -/
def State.spillBars (s : State) (ctx core : Nat) : State :=
  if s.residentOn ctx core then s
  else (s.cs.bars.filter fun b => b.core = core && b.ctx = ctx && b.st = .live && b.memb != 0).foldl
    (fun s b => s.putBar { b with st := .spilled }) s
/-- Spill every entry of a context that has no group of it resident on its home core, as a pre-emption does (R410). -/
def State.spillIdle (s : State) (ctx : Nat) : State :=
  ((s.cs.bars.filter fun b => b.ctx = ctx).map (·.core)).eraseDups.foldl (fun s k => s.spillBars ctx k) s
/-- Read the spilled entries of a context on a core back from their forms. -/
def State.reloadBars (s : State) (ctx core : Nat) : State :=
  let s := (s.cs.bars.filter fun b => b.core = core && b.ctx = ctx).foldl (fun s b => s.readBar b.core b.idx) s
  { s with cs := { s.cs with bars := s.cs.bars.map fun b => if b.core = core && b.ctx = ctx then { s.barNow b with st := .live } else b } }
/-- Hold the bits of the group whose turn it is while it is saved. -/
def State.holdBars (s : State) : State :=
  s.g.bars.foldl (fun s e => match s.barAt e.1 e.2 with
    | some b => s.putBar { b with held := b.held ||| s.g.barBit e.1 }
    | none => s) s
/-- Whether an entry of a group's context at which it may arrive, and of which it is no member, holds the bit of a slot for a saved
member. -/
def State.slotHeld (s : State) (g : Group) (slot : Nat) : Bool :=
  s.cs.bars.any fun b => b.ctx = g.ctx && (b.core = g.core || (b.cl && b.core = corePeer g.core)) && !g.bars.contains (b.core, b.idx) &&
    b.held &&& ({ g with slot := slot } : Group).barBit b.core != 0
/-- Whether a group may be restored into a slot: its bits there are clear or its own. DEDUCED from R430: it does not take a slot whose bit
an entry that it has not yet joined holds for a saved member, where its first arrival would raise BARRIER (log 93). -/
def State.slotSuits (s : State) (g : Group) (slot : Nat) : Bool :=
  (g.bars.all fun e => match s.barAt e.1 e.2 with
    | some b => slot = g.slot || (b.memb ||| b.arr) &&& ({ g with slot := slot } : Group).barBit e.1 = 0
    | none => true) && !s.slotHeld g slot
/-- Move the bits of the group whose turn it is to the slot it is restored into. -/
def State.moveBars (s : State) (slot : Nat) : State :=
  let move (old new x : BitVec 16) : BitVec 16 := if x &&& old = 0 then x else (x &&& ~~~ old) ||| new
  s.g.bars.foldl (fun s e => match s.barAt e.1 e.2 with
    | some b =>
      let old := s.g.barBit e.1
      let new := ({ s.g with slot := slot } : Group).barBit e.1
      s.putBar { b with memb := move old new b.memb, arr := move old new b.arr, held := b.held &&& ~~~ old }
    | none => s) s

/-! ## Instructions (R257 to R260) -/

/-- BARRIER with its code. -/
def barrier (code : Nat) : Trap := trapCode cBARRIER code
/-- The entry number of a barrier instruction. -/
def barIdx (f : FY) : Nat := (f.imm.extractLsb' 0 6).toNat
/-- Whether the phase of a token has been passed (R253). -/
def State.barPassed (s : State) (t : W64) : Bool :=
  match s.barAt (t.extractLsb' 32 9).toNat (t.extractLsb' 16 6).toNat with
  | some b => b.phase != t.extractLsb' 0 16
  | none => true

/-- BAR_INIT (R254, R258). DESIGN CHOICE: a poisoned S[A] is found before the state of the entry, an order that R259 and R422 leave
open (log 109). -/
def execBarInit (f : FY) (s : State) : Out :=
  let g := s.g
  let n := (g.sget f.a).toNat
  let cl := f.scope == 3
  settle <| orTrap (readPoison g [g.sitem f.a]) s <|
    if (s.barAt g.core (barIdx f)).isSome then .trap (barrier 1) s
    else if n = 0 || n > (if cl then 16 else 8) then .trap (barrier 5) s
    else
      let s := s.unreplayable.endRegion
      .next { s with cs := { s.cs with bars := s.cs.bars ++ [{ core := g.core, idx := barIdx f, st := .live, ctx := g.ctx, cl := cl, exp := n }] } }

/-- An arrival at an entry of this core or of its peer, once every older store is performed (R257); k gets the token. -/
def arriveOp (s : State) (core idx : Nat) (k : State → W64 → Res) : Res :=
  let s := s.readBar core idx
  match s.checkBar core idx true with
  | .error code => .trap (barrier code) s
  | .ok b =>
    let s := s.unreplayable.drain.endRegion
    k { s.putBar (b.arrive (s.g.barBit core)) with g := s.g.joinBar core idx } b.token

/-- BAR_ARR (R252, R258). -/
def execBarArr (f : FY) (s : State) : Out :=
  settle (arriveOp s s.g.core (barIdx f) fun s t => .next (s.setS f.d t))
/-- BAR_PEER (R258). -/
def execBarPeer (f : FY) (s : State) : Out :=
  settle (arriveOp s (corePeer s.g.core) (barIdx f) fun s t => .next (s.setS f.d t))

/-- BAR_WAIT (R253, R258): waits until the phase of the token is complete. -/
def execBarWait (f : FY) (s : State) : Out :=
  let g := s.g
  let t := g.sget f.a
  let core := (t.extractLsb' 32 9).toNat
  settle <| orTrap (readPoison g [g.sitem f.a]) s <|
    if t.extractLsb' 22 10 != 0 || t.extractLsb' 41 23 != 0 || !(core = g.core || core = corePeer g.core) then .trap (barrier 7) s
    else
      let s := s.readBar core (t.extractLsb' 16 6).toNat
      match s.barAt core (t.extractLsb' 16 6).toNat with
      | none => .trap (barrier 2) s
      | some b =>
        if b.ctx != g.ctx then .trap (barrier 2) s
        else
          let s := s.endAtStart
          if s.barPassed t then .next { s.unreplayable with g := { s.unreplayable.g with awaits := none } }
          else .park { s with g := { s.g with awaits := some t } }

/-- Wait on the token of an arrival already made. -/
def syncWait (s : State) (t : W64) : Res :=
  let s := s.readBar (t.extractLsb' 32 9).toNat (t.extractLsb' 16 6).toNat
  if s.barPassed t then .next { s with g := { s.g with arrived := none } }
  else .park { s with g := { s.g with arrived := some t } }
/-- An arrival, then a wait on its token. -/
def syncOp (s : State) (core idx : Nat) : Res :=
  match s.g.arrived with
  | some t => syncWait s t
  | none => arriveOp s core idx syncWait

/-- BAR_SYNC (R258). -/
def execBarSync (f : FY) (s : State) : Out := settle (syncOp s s.g.core (barIdx f))
/-- BAR_SYNC_PEER (R258). -/
def execBarSyncPeer (f : FY) (s : State) : Out := settle (syncOp s (corePeer s.g.core) (barIdx f))

/-- A drop (R252), once every older store is performed. -/
def dropOp (s : State) (core idx : Nat) : Res :=
  let s := s.readBar core idx
  match s.checkBar core idx false with
  | .error code => .trap (barrier code) s
  | .ok _ => .next (s.unreplayable.drain.endRegion.dropBar (core, idx))
/-- BAR_DROP (R258). -/
def execBarDrop (f : FY) (s : State) : Out := settle (dropOp s s.g.core (barIdx f))
/-- BAR_DROP_PEER (R258). -/
def execBarDropPeer (f : FY) (s : State) : Out := settle (dropOp s (corePeer s.g.core) (barIdx f))

/-! ## The pool entry, and the grid barrier (R239, R260) -/

/-- Tiles of the index space in one axis (R234). -/
def extent (m1 l : Nat) : Nat := (m1 + 1 + 2 ^ l - 1) / 2 ^ l
def Record.nx (r : Record) : Nat := extent r.xm1 r.txl
def Record.ny (r : Record) : Nat := extent r.ym1 r.tyl
def Record.nz (r : Record) : Nat := extent r.zm1 r.tzl
/-- Coordinates of the index space. -/
def Record.count (r : Record) : Nat := r.nx * r.ny * r.nz
/-- Whether the record is a task. -/
def Record.isTask (r : Record) : Bool := r.nx = 1 && r.ny = 1 && r.nz = 1
/-- The coordinate of a linear number, as fetch returns it (R234, R244). -/
def Record.coord (r : Record) (n : Nat) : Nat := n % r.nx + n / r.nx % r.ny * 2 ^ 21 + n / (r.nx * r.ny) * 2 ^ 42

/-- A pool entry that is not Free. -/
def State.poolAt (s : State) (die entry : Nat) : Option PoolEntry := s.ls.pool.find? fun e => e.die = die && e.entry = entry
/-- Replace a pool entry by a function of it. -/
def State.mapPool (s : State) (die entry : Nat) (f : PoolEntry → PoolEntry) : State :=
  { s with ls := { s.ls with pool := s.ls.pool.map fun e => if e.die = die && e.entry = entry then f e else e } }
/-- Whether a group belongs to an entry: its launch names it, with the entry's present generation (R239). -/
def Group.ofEntry (g : Group) (e : PoolEntry) : Bool := g.launch = some (e.die, e.entry) && g.lgen == e.gen
/-- The pool entry of a group's launch. -/
def State.entryOf (s : State) (g : Group) : Option PoolEntry := (g.launch.bind fun l => s.poolAt l.1 l.2).filter g.ofEntry
/-- The pool entry of the launch of the group whose turn it is. -/
def State.ownEntry (s : State) : Option PoolEntry := s.entryOf s.g

/-- Arrivals the grid barrier waits for: the groups bound, less those that have ended (R260). -/
def PoolEntry.gridExp (e : PoolEntry) : Nat := e.bound - e.ended
/-- Complete the grid barrier's phase when every arrival is in. -/
def PoolEntry.gridComplete (e : PoolEntry) : PoolEntry :=
  if e.gridCnt > 0 && e.gridCnt = e.gridExp then { e with gridCnt := 0, gridPhase := e.gridPhase + 1 } else e
/-- A bound group has ended. That of a GRID launch drops from the grid barrier as bar.drop does: it counts as an arrival, then
the expected count falls (R129, R252, R260; DEDUCED, log 77). -/
def PoolEntry.groupEnded (e : PoolEntry) : PoolEntry :=
  let e := if e.rc.grid then ({ e with gridCnt := e.gridCnt + 1 } : PoolEntry).gridComplete else e
  ({ e with ended := e.ended + 1 } : PoolEntry).gridComplete
/-- What a parked bar.grid waits on: the phase of its arrival, told apart from a barrier's token by bit 63. -/
def PoolEntry.gridToken (e : PoolEntry) : W64 := BitVec.ofNat 64 (2 ^ 63 + e.gridPhase.toNat)
/-- Change a pool entry; when its grid barrier's phase passes, the parked waits on it retire. -/
def State.mapGrid (s : State) (e : PoolEntry) (f : PoolEntry → PoolEntry) : State :=
  let s := s.mapPool e.die e.entry f
  if (f e).gridPhase != e.gridPhase then s.passWaits (fun g => g.ofEntry e) e.gridToken else s

/-- BAR_GRID (R260): the group arrives once, then waits until the phase of its arrival is past. -/
def execBarGrid (_f : FY) (s : State) : Out :=
  settle (match s.ownEntry with
    | none => .trap (trapCode cGRIDRES 0) s
    | some e =>
      if !e.rc.grid then .trap (trapCode cGRIDRES 0) s
      else match s.g.arrived with
        | some t =>
          if e.gridToken != t then .next { s with g := { s.g with arrived := none } } else .park s
        | none =>
          let s := s.unreplayable.drain.endRegion
          let arrive (e : PoolEntry) : PoolEntry := ({ e with gridCnt := e.gridCnt + 1 } : PoolEntry).gridComplete
          let s := s.mapGrid e arrive
          if (arrive e).gridPhase != e.gridPhase then .next s
          else .park { s with g := { s.g with arrived := some e.gridToken } })

end Sys2Proof.Machine
end

