-- ==== Sys2Proof/Machine/Tiles.lean ====
section
/-! DEFINITION. The tile table, tagged words, and the tile instructions but for copies (R188 to R201). -/

namespace Sys2Proof.Machine

/-! ## Handles (R190, R191) -/

def hIdx (h : W64) : Nat := (h.extractLsb' 0 8).toNat
def hGen (h : W64) : BitVec 16 := h.extractLsb' 8 16
def hLvl (h : W64) : Bool := h.getLsbD 24
def hSkew (h : W64) : Bool := h.getLsbD 25
def hCore (h : W64) : Nat := (h.extractLsb' 32 9).toNat
/-- Whether a reserved bit of a handle is 1. -/
def hReserved (h : W64) : Bool := h.extractLsb' 26 6 != 0 || h.extractLsb' 41 23 != 0

/-- Whether a tile is at the global level. -/
def Tile.isGlobal (t : Tile) : Bool := t.st = .global
/-- The handle of a tile. -/
def Tile.handle (t : Tile) : W64 :=
  BitVec.ofNat 64 (t.idx + 256 * t.gen.toNat + (if t.isGlobal then 2 ^ 24 else 0) + (if t.skew then 2 ^ 25 else 0) + 2 ^ 32 * t.core)

/-- The live entry of a core's tile table. -/
def State.tileAt (s : State) (core idx : Nat) : Option Tile := s.cs.tiles.find? fun t => t.core = core && t.idx = idx
/-- Replace an entry by a function of it. -/
def State.mapTile (s : State) (core idx : Nat) (f : Tile → Tile) : State :=
  { s with cs := { s.cs with tiles := s.cs.tiles.map fun t => if t.core = core && t.idx = idx then f t else t } }
/-- Generation of an entry (R190). -/
def State.tileGen (s : State) (core idx : Nat) : BitVec 16 := sparseGet 0 s.cs.tileGens (256 * core + idx)

/-- The checks of a handle in their order (R191): the code of the first that fails, or the tile. core: the core it must
name; ok: whether level and type suit the instruction. -/
def State.checkHandle (s : State) (core ctx : Nat) (h : W64) (ok : Tile → Bool) : Except Nat Tile :=
  if hReserved h then .error 6
  else if hCore h != core then .error 2
  else match s.tileAt core (hIdx h) with
    | none => .error 1
    | some t =>
      if t.st = .draining || t.gen != hGen h then .error 1
      else if t.ctx != ctx then .error 2
      else if !ok t || hLvl h != t.isGlobal || hSkew h != t.skew then .error 3
      else .ok t

/-- TILESTATE with its code. -/
def tileState (code : Nat) (m : W32 := 0) : Trap := { cause := cTILESTATE, einfo := BitVec.ofNat 64 code, elanes := m }
/-- TILEBND with its code. -/
def tileBnd (code : Nat) (m : W32 := 0) : Trap := { cause := cTILEBND, einfo := BitVec.ofNat 64 code, elanes := m }

/-- Whether a handle names a tile of a context that stands in the save area with its group: the handle stays valid (R195). -/
def State.isSavedTile (s : State) (core ctx : Nat) (h : W64) : Bool :=
  !hReserved h && s.cs.savedTiles.any fun t => t.core = core && hCore h = core && t.idx = hIdx h && t.gen == hGen h && t.ctx = ctx
/-- Check the handle in a register for the group whose turn it is, or raise TILESTATE for the lanes given. A tile that its owner's
save has taken away is waited for, since every handle stays valid over a pre-emption (R195, R249; log 75). -/
def withTile (s : State) (h : W64) (m : W32) (ok : Tile → Bool) (k : Tile → Res) : Res :=
  match s.checkHandle s.g.core s.g.ctx h ok with
  | .error c => if s.isSavedTile s.g.core s.g.ctx h then .stay s else .trap (tileState c m) s
  | .ok t => k t

/-! ## Words and tags (R193, R197) -/

/-- Words of a row of cols elements of type ty. -/
def rowWordsOf (ty : BitVec 4) (cols : Nat) : Nat := (cols * tyBits ty + 31) / 32
/-- Words of a row. -/
def Tile.rowWords (t : Tile) : Nat := rowWordsOf t.ty t.cols
/-- Words of the tile. -/
def Tile.nWords (t : Tile) : Nat := t.rows * t.rowWords
/-- A word's value and tag. -/
def Tile.word (t : Tile) (k : Nat) : W32 × Bool := sparseGet (0, false) t.words k
/-- Write a word and its tag; the write of the whole word clears its marks. -/
def Tile.putWord (t : Tile) (k : Nat) (x : W32) (full : Bool) : Tile :=
  { t with words := sparseSet (0, false) k (x, full) t.words, poison := t.poison.filter (· ≠ k), failed := t.failed.filter (· ≠ k) }
/-- Set the tag of a word; its data is unchanged. -/
def Tile.tagWord (t : Tile) (full : Bool) (k : Nat) : Tile :=
  { t with words := sparseSet (0, false) k ((t.word k).1, full) t.words, failed := if full then t.failed.filter (· ≠ k) else t.failed }
/-- Whether every word is full. -/
def Tile.allFull (t : Tile) : Bool := t.words.countP (fun w => w.2.2) = t.nWords
/-- Open or Full as the tags say, while no copy is inbound (R195). -/
def Tile.norm (t : Tile) : Tile :=
  match t.st with
  | .open_ => { t with st := if t.inbound = 0 && t.allFull then .full else .open_ }
  | .full => { t with st := if t.allFull then .full else .open_ }
  | _ => t

/-- Index of the word of element (r, c), and its bit offset. -/
def Tile.place (t : Tile) (r c : Nat) : Nat × Nat := (r * t.rowWords + c * tyBits t.ty / 32, c * tyBits t.ty % 32)
/-- An element's bits. -/
def Tile.elem (t : Tile) (r c : Nat) : Nat :=
  let p := t.place r c
  natBits (t.word p.1).1.toNat p.2 (tyBits t.ty)
/-- Write an element's bits; the tag of its word becomes full. A part of a poisoned word keeps its mark. -/
def Tile.putElem (t : Tile) (r c v : Nat) : Tile :=
  let p := t.place r c
  let w := tyBits t.ty
  let old := (t.word p.1).1.toNat
  let new := old - natBits old p.2 w * 2 ^ p.2 + v % 2 ^ w * 2 ^ p.2
  if w = 32 then t.putWord p.1 (BitVec.ofNat 32 new) true
  else { t with words := sparseSet (0, false) p.1 (BitVec.ofNat 32 new, true) t.words, failed := t.failed.filter (· ≠ p.1) }

/-- A word of which one instruction wrote every element loses its mark (R422): ps holds the places written. -/
def Tile.clearWhole (t : Tile) (ps : List (Nat × Nat)) : Tile :=
  if t.poison = [] then t
  else { t with poison := t.poison.filter fun k => !(List.range (32 / tyBits t.ty)).all fun e => ps.contains (k, e * tyBits t.ty) }

/-! ## Freeing (R195) -/

/-- An entry becomes Free: its generation has been incremented; its granules and entry are released. -/
def State.dropTile (s : State) (core idx : Nat) : State :=
  { s with cs := { s.cs with tiles := s.cs.tiles.filter fun t => !(t.core = core && t.idx = idx) } }
/-- Free a tile: generation + 1; Draining while copies are inbound, otherwise Free. -/
def State.freeTile (s : State) (t : Tile) : State :=
  let gen := s.tileGen t.core t.idx + 1
  let s := { s with cs := { s.cs with tileGens := sparseSet 0 (256 * t.core + t.idx) gen s.cs.tileGens } }
  if t.inbound = 0 then s.dropTile t.core t.idx
  else s.mapTile t.core t.idx fun u => { u with st := .draining, gen := gen }

/-! ## Allocation (R192, R194, R200) -/

/-- The fields of a shape word. -/
def shRows (x : W64) : Nat := (x.extractLsb' 0 13).toNat
def shCols (x : W64) : Nat := (x.extractLsb' 16 13).toNat
def shStride (x : W64) : Nat := (x.extractLsb' 32 32).toNat

/-- Bytes of a memory row (R194). -/
def memRowBytes (ty : BitVec 4) (cols : Nat) : Nat := if ty = 15 then (cols + 4) / 5 else (cols * tyBits ty + 7) / 8

/-- Whether a shape word suits R192, and for a global tile R194. -/
def shapeOk (ty : BitVec 4) (skew glb : Bool) (x base : W64) : Bool :=
  x.extractLsb' 13 3 == 0 && x.extractLsb' 29 3 == 0 && 1 ≤ shRows x && shRows x ≤ 4096 && 1 ≤ shCols x && shCols x ≤ 4096 &&
  (if glb then base.toNat % 4 = 0 && shStride x % 4 = 0 && memRowBytes ty (shCols x) ≤ shStride x
   else shStride x = 0 && (!skew || shCols x % 32 = 0))

/-- The lowest number below n that q holds of. -/
def lowestBelow (n : Nat) (q : Nat → Bool) : Option Nat := (List.range n).find? q

/-- Granules of a scratchpad tile. -/
def tileGranules (ty : BitVec 4) (rows cols : Nat) : Nat := (4 * rows * rowWordsOf ty cols + 16383) / 16384

/-- The lowest contiguous free run of n granules in a reservation of a core. -/
def State.freeRun (s : State) (core res size n : Nat) : Option Nat :=
  let used := s.cs.tiles.filter fun t => t.core = core && t.res = res && !t.isGlobal
  lowestBelow (size + 1) fun a => a + n ≤ size && !used.any fun t => t.gran < a + n && a < t.gran + t.ngran
/-- Granules of a reservation that tiles hold. -/
def State.usedGranules (s : State) (core res : Nat) : Nat :=
  ((s.cs.tiles.filter fun t => t.core = core && t.res = res && !t.isGlobal).map (·.ngran)).foldl (· + ·) 0
/-- The group whose HANDLES a tile counts against: its owner's; one that hpass has given to a record no group of which is dispatched
yet stays in the passing group's reservation (R190, R247). -/
def Tile.holder (t : Tile) : Nat := if t.owner = 0 then t.res else t.owner
/-- Tiles that count against a group's HANDLES, a Draining one among them, whose entry is still taken (R190). -/
def State.heldTiles (s : State) (gid : Nat) : Nat := (s.cs.tiles.filter fun t => t.holder = gid).length

/-- BUDGET with its code. -/
def budget (code : Nat) : Trap := trapCode cBUDGET code

/-- Tiles of saved groups that came from an entry. -/
def State.savedAt (s : State) (core i : Nat) : List Tile := s.cs.savedTiles.filter fun t => t.core = core && t.idx = i
/-- The generation that a new tile takes in an entry: the entry's own, or the next that no saved tile of it holds. -/
def State.newGen (s : State) (core i : Nat) : BitVec 16 :=
  let l := s.savedAt core i
  s.tileGen core i + BitVec.ofNat 16 ((lowestBelow (l.length + 1) fun d => l.all fun t => t.gen != s.tileGen core i + BitVec.ofNat 16 d).getD 0)
/-- The entry that a new tile takes: the lowest Free one that no saved tile came from, and only then one whose saved tile a later
generation tells apart. DEDUCED: every handle stays valid over a save (R195), so no new tile takes a saved one's handle (log 94). -/
def State.newEntry (s : State) (core : Nat) : Option Nat :=
  match lowestBelow 256 fun i => (s.tileAt core i).isNone && (s.savedAt core i).isEmpty with
  | some i => some i
  | none => lowestBelow 256 fun i => (s.tileAt core i).isNone
/-- Put a new tile into a free entry of a core. -/
def State.newTile (s : State) (t : Tile) : Option (State × W64) :=
  (s.newEntry t.core).map fun i =>
    let t := { t with idx := i, gen := s.newGen t.core i }
    ({ s with cs := { s.cs with tiles := s.cs.tiles ++ [t], tileGens := sparseSet 0 (256 * t.core + i) t.gen s.cs.tileGens } }, t.handle)

/-- The launch of a group, as its tiles keep it. -/
def Group.launchName (g : Group) : Option (Nat × Nat × BitVec 16) := g.launch.map fun l => (l.1, l.2, g.lgen)
/-- TALLOC (R192 to R195, R200). DESIGN CHOICE: a talloc that is short of handles and of granules at once reports the handles, code 1,
since R200 gives the codes no order (log 103). -/
def execTalloc (f : FT) (s : State) : Out :=
  let g := s.g
  let shape := g.sget f.i
  let base := g.sget f.b
  let glb := f.lvl == 1
  let skew := f.mode == 1
  let n := tileGranules f.ty (shRows shape) (shCols shape)
  let t : Tile :=
    { core := g.core, idx := 0, st := if glb then .global else .open_, gen := 0, ty := f.ty, skew := skew, rows := shRows shape
      cols := shCols shape, base := if glb then base.toNat else 0, stride := shStride shape, res := g.gid, owner := g.gid, ctx := g.ctx
      launch := g.launchName }
  settle <| orTrap (readPoison g ([g.sitem f.i] ++ if glb then [g.sitem f.b] else [])) s <|
    orTrap (firstTrap [
      trapIf (!shapeOk f.ty skew glb shape base) (tileBnd 3),
      trapIf (s.heldTiles g.gid ≥ g.handles) (budget 1),
      trapIf (!glb && s.usedGranules g.core g.gid + n > g.granules) (budget 2),
      trapIf (!glb && (s.freeRun g.core g.gid g.granules n).isNone) (budget 3)]) s <|
    let s := s.unreplayable
    match s.newTile (if glb then t else { t with gran := (s.freeRun g.core g.gid g.granules n).getD 0, ngran := n }) with
    | none => .trap (budget 1) s
    | some (s, h) => .next (s.setS (snum f.d) h)

/-- TFREE (R195): by the owner; waits for outbound copies. -/
def execTfree (f : FT) (s : State) : Out :=
  let g := s.g
  settle <| orTrap (readPoison g [g.sitem f.h]) s <| withTile s (g.sget f.h) 0 (fun _ => true) fun t =>
    if t.owner != g.gid then .trap (tileState 4) s
    else if t.outbound > 0 then .park s
    else .next (s.unreplayable.freeTile t)

/-- STATE of R201. -/
def tileStateCode : TileState → Nat
  | .open_ => 1 | .filling => 2 | .full => 3 | .draining => 4 | .global => 5

/-- The word of R201. -/
def tinfoWord (t : Tile) : Nat :=
  tileStateCode t.st + (if t.isGlobal then 8 else 0) + (if t.skew then 16 else 0) + 32 * t.ty.toNat + 2 ^ 9 * t.rows + 2 ^ 22 * t.cols +
  2 ^ 35 * min 15 (t.inbound + t.outbound) + (if t.err then 2 ^ 39 else 0) + (if t.meta_ then 2 ^ 40 else 0) + 2 ^ 41 * (t.ecause.toNat % 32)

/-- What tinfo returns (R201): it never raises TILESTATE. -/
def tinfoOf (s : State) (h : W64) : Nat :=
  if hReserved h || hCore h != s.g.core then 0
  else match s.tileAt s.g.core (hIdx h) with
    | none => 2 ^ 46
    | some t =>
      if t.ctx != s.g.ctx then 0
      else if t.st = .draining || t.gen != hGen h then tileStateCode t.st + 2 ^ 46
      else if hLvl h != t.isGlobal || hSkew h != t.skew then 0
      else tinfoWord t

/-- TINFO (R200, R201). -/
def execTinfo (f : FT) (s : State) : Out :=
  settle <| orTrap (readPoison s.g [s.g.sitem f.h]) s <|
    if s.isSavedTile s.g.core s.g.ctx (s.g.sget f.h) then .stay s
    else .next (s.setS (snum f.d) (BitVec.ofNat 64 (tinfoOf s (s.g.sget f.h))))

/-- Words of rows r0 to r0 + n − 1. -/
def Tile.rowRange (t : Tile) (r0 n : Nat) : List Nat := (List.range (n * t.rowWords)).map (· + r0 * t.rowWords)

/-- tset (R200): sets the tag of every word of the rows. -/
def tsetOp (full : Bool) (f : FT) (s : State) : Res :=
  let g := s.g
  let r0 := (g.sget f.i).toNat
  let b := (g.sget f.b).toNat
  orTrap (readPoison g [g.sitem f.h, g.sitem f.i, g.sitem f.b]) s <| withTile s (g.sget f.h) 0 (fun t => !t.isGlobal) fun t =>
    let n := if b = 0 then t.rows - r0 else b
    if r0 ≥ t.rows || r0 + n > t.rows then .trap (tileBnd 1) s
    else
      let s := s.unreplayable.drain.endRegion
      .next (s.mapTile t.core t.idx fun t => ((t.rowRange r0 n).foldl (fun t k => t.tagWord full k) t).norm)

/-- TSET_FULL (R200). -/
def execTsetFull (f : FT) (s : State) : Out := settle (tsetOp true f s)
/-- TSET_EMPTY (R200). -/
def execTsetEmpty (f : FT) (s : State) : Out := settle (tsetOp false f s)

/-- The cause that a word left unfilled by a failed copy raises when an instruction would wait on it (R202); its einfo is
the model's choice (log 13). -/
def failedWord (t : Tile) (m : W32) : Trap := { cause := t.ecause, elanes := m, einfo := 1 }

/-- A twait parks on a tile, and is known to wait for it (R195). -/
def State.parkFull (s : State) (t : Tile) : Res := .park { s with g := { s.g with twait := some (t.core, t.idx, t.gen) } }
/-- Whether the tile that a parked group's twait waits for is Full. -/
def Group.tileFull (s : State) (g : Group) : Bool :=
  g.phase = .parked && g.twait.any fun w => (s.tileAt w.1 w.2.1).any fun t => t.gen == w.2.2 && t.st = .full
/-- Every twait that waits for a tile which is Full now retires (R195). -/
def State.passTwaits (s : State) : State := s.mapGroups fun g => if g.tileFull s then g.advance else g
/-- TWAIT (R195, R200): waits until the tile is Full; once it is, it retires, whatever becomes of the tile then. -/
def execTwait (f : FT) (s : State) : Out :=
  let g := s.g
  settle <| orTrap (readPoison g [g.sitem f.h]) s <| withTile s (g.sget f.h) 0 (fun t => !t.isGlobal) fun t =>
    let s := s.endAtStart
    if t.st = .full then .next s
    else if t.failed != [] then .trap (failedWord t 0) s
    else s.parkFull t

/-! ## Access (R198, R199) -/

/-- The active mask of a format-T instruction. -/
def ftMask (f : FT) (g : Group) : W32 := g.active f.pred 0
/-- Row and column of lane i. -/
def ftPlace (f : FT) (g : Group) (i : Nat) : Nat × Nat :=
  let u := (g.sget f.i).toNat
  let v := (g.vget f.j i).toNat
  if f.imm.getLsbD 10 then (v, u) else (u, v)

/-- The word that lane i names. -/
def ftWord (f : FT) (g : Group) (t : Tile) (i : Nat) : Nat := (t.place (ftPlace f g i).1 (ftPlace f g i).2).1

/-- Lanes of a mask whose word another lane of it names too. -/
def clashing (m : W32) (w : Nat → Nat) : W32 := maskOf fun i => m.getLsbD i && (activeLanes m).any fun j => j != i && w j = w i

/-- POISON code 3 for the lanes whose word is poisoned (R422). -/
def wordPoison (t : Tile) (m : W32) (w : Nat → Nat) : Option Trap :=
  if t.poison = [] then none
  else
    let bad := maskOf fun i => m.getLsbD i && t.poison.contains (w i)
    if bad = 0 then none else some { cause := cPOISON, einfo := 3, elanes := bad }

/-- The common form of the access instructions (R199): the handle, then rows, columns and clashing lanes; k gets the mask,
the tile, and the word of each lane. DESIGN CHOICE: every lane's row is tested before any lane's column, where R199 gives no order of the
lanes (log 95). -/
def tileAccess (s : State) (f : FT) (data : Bool) (tagged : Bool) (k : W32 → Tile → (Nat → Nat) → Res) : Res :=
  let g := s.g
  let m := ftMask f g
  if m = 0 then .next s
  else
    orTrap (readPoison g ([g.sitem f.h, g.sitem f.i] ++ g.vitems false m f.j ++ if data then g.vitems false m f.d else [])) s <|
    withTile s (g.sget f.h) m (fun t => !t.isGlobal && t.ty == f.ty) fun t =>
      let badRow := maskOf fun i => m.getLsbD i && (ftPlace f g i).1 ≥ t.rows
      let badCol := maskOf fun i => m.getLsbD i && (ftPlace f g i).2 ≥ t.cols
      let w := ftWord f g t
      let clash := if tagged then clashing m w else 0
      orTrap (firstTrap [
        trapIf (badRow != 0) (tileBnd 1 badRow), trapIf (badCol != 0) (tileBnd 2 badCol),
        trapIf (clash != 0) (tileState 5 clash)]) s (k m t w)

/-- The value of element (r, c), extended to a lane (R199). -/
def Tile.laneValue (t : Tile) (r c : Nat) : Nat :=
  if isSigned t.ty then (elemInt t.ty (t.elem r c) % 2 ^ 32).toNat else t.elem r c

/-- Write the lanes' elements into D. -/
def tileRead (s : State) (f : FT) (m : W32) (t : Tile) : State :=
  s.setV false f.d m fun i => t.laneValue (ftPlace f s.g i).1 (ftPlace f s.g i).2
/-- Write the lanes' values into the tile. DESIGN CHOICE: in ascending lane order, so that of two active lanes of one tst that name the same
element the highest lane's value remains, where R199 gives no order (log 102). -/
def tileWrite (s : State) (f : FT) (m : W32) (t : Tile) : State :=
  let g := s.g
  s.mapTile t.core t.idx fun t =>
    (((activeLanes m).foldl (fun t i => t.putElem (ftPlace f g i).1 (ftPlace f g i).2 (g.vget f.d i).toNat) t).clearWhole
      ((activeLanes m).map fun i => t.place (ftPlace f g i).1 (ftPlace f g i).2)).norm

/-- Whether a parked wait could retire now. -/
def TileWait.ready (s : State) (w : TileWait) : Bool :=
  match s.tileAt w.core w.idx with
  | some t => w.words.all fun k => (t.word k).2 != w.empty
  | none => false
/-- Whether another group has waited longer for one of these words, in the same state, and could take it (R196). changes: this group's
own instruction would change the words; one that only reads them gives way to one that does. -/
def State.otherFirst (s : State) (t : Tile) (ws : List Nat) (empty changes : Bool) : Bool :=
  s.others.any fun h => h.phase = .parked && match h.waits with
    | none => false
    | some w => w.core = t.core && w.idx = t.idx && w.empty = empty && (changes || w.changes) && w.words.any ws.contains && w.ready s &&
        (match s.g.waits with | some v => w.no < v.no | none => true)
/-- Wait for words: the group takes its place among the waits, once (R196). -/
def State.parkOn (s : State) (t : Tile) (ws : List Nat) (empty changes : Bool) : Res :=
  if s.g.waits.isSome then .park s
  else .park { s with
    g := { s.g with waits := some { no := s.cs.nextWait, core := t.core, idx := t.idx, words := ws, empty := empty, changes := changes } }
    cs := { s.cs with nextWait := s.cs.nextWait + 1 } }

/-- A tagged instruction waits for its words, full or empty, and, where it or they change them, for those that have waited longer; or it
raises the cause of a failed copy's word. It has started, and ended its region (R216). -/
def waitWords (s : State) (m : W32) (t : Tile) (w : Nat → Nat) (empty changes : Bool) (k : State → Res) : Res :=
  let s := s.endAtStart
  let ws := ((activeLanes m).map w).eraseDups
  let bad := if empty then 0 else maskOf fun i => m.getLsbD i && t.failed.contains (w i)
  if bad != 0 then .trap (failedWord t bad) s
  else if anyLane m (fun i => (t.word (w i)).2 = empty) || s.otherFirst t ws empty changes then s.parkOn t ws empty changes
  else k s

/-- TLD (R199). -/
def execTld (f : FT) (s : State) : Out :=
  settle <| tileAccess s f false false fun m t w => orTrap (wordPoison t m w) s (.next (tileRead s f m t))
/-- TST (R199): a release at scope co (R198). -/
def execTst (f : FT) (s : State) : Out :=
  settle <| tileAccess s f true false fun m t _ => .next (tileWrite s.unreplayable.drain.endRegion f m t)
/-- TLDW (R199). -/
def execTldw (f : FT) (s : State) : Out :=
  settle <| tileAccess s f false false fun m t w => waitWords s m t w false false fun s =>
    orTrap (wordPoison t m w) s (.next (tileRead s f m t))
/-- TLDC (R199): reads every word and empties it in the same step. -/
def execTldc (f : FT) (s : State) : Out :=
  settle <| tileAccess s f false true fun m t w => waitWords s m t w false true fun s => orTrap (wordPoison t m w) s <|
    let s := tileRead s.unreplayable f m t
    .next (s.mapTile t.core t.idx fun t => ((activeLanes m).foldl (fun t i => t.tagWord false (w i)) t).norm)
/-- TSTW (R199): waits for empty words, then fills them in one step; a release at scope co (R198). -/
def execTstw (f : FT) (s : State) : Out :=
  settle <| tileAccess s f true true fun m t w => waitWords s m t w true true fun s => .next (tileWrite s.unreplayable.drain f m t)

end Sys2Proof.Machine
end

