-- ==== Sys2Proof/Machine/Copy.lean ====
section
/-! DEFINITION. The copies tcpi, tcpo and tcpm, the landing of their words, and their completion (R195, R202 to R205). -/

namespace Sys2Proof.Machine

/-! ## Memory rows (R194, R203) -/

/-- Bytes of a row in memory, dense or in 2:4 form. -/
def copyRowBytes (ty : BitVec 4) (cols : Nat) (z : Bool) : Nat :=
  if z then cols / 2 * (tyBits ty / 8) + cols / 8 else memRowBytes ty cols
/-- Whether a tile suits the 2:4 modes: elements of 1, 2 or 4 bytes. -/
def z24Ok (t : Tile) : Bool := t.cols % 8 = 0 && 8 ≤ tyBits t.ty && tyBits t.ty ≤ 32

/-- Magnitude of an element in its type; a NaN counts as larger than every number. -/
def magnitude (ty : BitVec 4) (bits : Nat) : Nat :=
  if isFl ty then (if ((fmtOf ty).read bits).isNan then 2 ^ tyBits ty else bits % (fmtOf ty).sign)
  else (elemInt ty bits).natAbs

/-- The two positions of four elements that .c24 keeps, in ascending order: ties go to the lower index. -/
def keep24 (ty : BitVec 4) (e : Nat → Nat) : Nat × Nat :=
  let best (skip : Nat) : Nat := ((List.range 4).filter (· ≠ skip)).foldl (fun b j =>
    if b = skip || magnitude ty (e b) < magnitude ty (e j) then j else b) (if skip = 0 then 1 else 0)
  let a := best 4
  let b := best a
  if a < b then (a, b) else (b, a)

/-- A tile row as a memory row: dense, or compressed as .c24 does. Padding bits are 0. -/
def Tile.memRow (t : Tile) (z : Bool) (r : Nat) : List Byte :=
  let w := tyBits t.ty
  if z then
    let pick := fun g => keep24 t.ty fun j => t.elem r (4 * g + j)
    let data := (List.range (t.cols / 4)).flatMap fun g =>
      leBytes (w / 8) (t.elem r (4 * g + (pick g).1)) ++ leBytes (w / 8) (t.elem r (4 * g + (pick g).2))
    let nib := fun g => (pick g).1 + 4 * (pick g).2
    data ++ (List.range (t.cols / 8)).map fun b => BitVec.ofNat 8 (nib (2 * b) + 16 * nib (2 * b + 1))
  else
    let bits := joinElems 32 ((List.range t.rowWords).map fun k => (t.word (r * t.rowWords + k)).1.toNat)
    leBytes (memRowBytes t.ty t.cols) (bits % 2 ^ (t.cols * w))

/-- Bytes of a memory row that word k of a tile row comes from: offsets within the row. -/
def rowBytesOf (t : Tile) (z : Bool) (k : Nat) : List Nat :=
  let es := tyBits t.ty / 8
  if z then
    let g := k * (4 / es) / 4
    (List.range (2 * es)).map (· + 2 * g * es) ++ [t.cols / 2 * es + g / 2]
  else (List.range 4).map (· + 4 * k) |>.filter (· < memRowBytes t.ty t.cols)

/-- Word k of a tile row from those bytes, and whether .x24 met a malformed nibble. -/
def wordOfRow (t : Tile) (z : Bool) (k : Nat) (b : List Byte) : W32 × Bool :=
  let w := tyBits t.ty
  let es := w / 8
  if z then
    let g := k * (4 / es) / 4
    let nib := natBits (b.getD (2 * es) 0).toNat (4 * (g % 2)) 4
    let i1 := nib % 4
    let i2 := nib / 4
    let bad := i2 ≤ i1
    let kept := fun (n : Nat) => leNat ((b.drop (n * es)).take es)
    let dense := fun (j : Nat) => if bad then 0 else if j = i1 then kept 0 else if j = i2 then kept 1 else 0
    (BitVec.ofNat 32 (joinElems w ((List.range (4 / es)).map fun j => dense (k * (4 / es) % 4 + j))), bad)
  else (BitVec.ofNat 32 (leNat b % 2 ^ (t.cols * w - 32 * k)), false)

/-! ## Starting (R202, R204) -/

/-- The access of a copy in and of a copy out: a page that cannot be reached does not stop the start. -/
def copySpec (out : Bool) : AccSpec :=
  { cls := .c, acc := if out then 1 else 0, needR := !out, needW := out, size := 4, link := false }

/-- The lowest address of a range of rows in each 64 KiB page it touches. -/
def pageStarts (addr stride bytes n : Nat) : List Nat :=
  let all := (List.range n).flatMap fun r =>
    let a := addr + r * stride
    (List.range ((a + bytes - 1) / 65536 - a / 65536 + 1)).map fun p => if p = 0 then a else (a / 65536 + p) * 65536
  all.foldr (fun a (l : List Nat) => match l with
    | b :: r => if a / 65536 = b / 65536 then a :: r else a :: b :: r
    | [] => [a]) []

/-- Rows that IMM11 names, from the first row to the last when it is 0. -/
def copyRows (t : Tile) (r0 imm : Nat) : Nat := if imm = 0 then t.rows - r0 else imm

/-- The lowest failing address of a copy: every page is checked in ascending order, so the first failing lane's. -/
def copyPages (ts : List Hit3) : List (Nat × Nat × Nat × Nat) :=
  ts.map fun t => (t.2.1.toNat / 65536, t.2.2.kind, t.2.2.peer, t.2.2.pa / 65536 * 65536)

/-- Count an inbound copy: an Open or Full tile becomes Filling (R195). -/
def Tile.beginIn (t : Tile) : Tile :=
  { t with inbound := t.inbound + 1, st := if t.st = .open_ || t.st = .full then .filling else t.st }

/-- Put a copy in flight. DESIGN CHOICE: the near engine takes it in the move that starts it, so that its copy slot, one of the group's four
(R94, R202), is free again at once (log 127). -/
def State.startCopy (s : State) (c : Copy) : State :=
  let (id, s) := s.newId
  { s with cs := { s.cs with copies := s.cs.copies ++ [{ c with id := id, gid := s.g.gid, ctx := s.g.ctx, core := s.g.core }] } }

/-- The checks that tcpi and tcpo share, in their order; k gets the tile, its first row, the number of rows, the address
and the stride, and the pages. -/
def copyChecks (s : State) (f : FT) (out : Bool) (k : State → Tile → Nat → Nat → List Hit3 → Res) : Res :=
  let g := s.g
  let z := f.mode != 0
  let addr := (g.sget f.i).toNat
  let stride := (g.sget f.b).toNat
  let r0 := (g.sget (snum f.d)).toNat
  orTrap (readPoison g [g.sitem f.h, g.sitem (snum f.d), g.sitem f.i, g.sitem f.b]) s <|
  withTile s (g.sget f.h) 0 (fun t => !t.isGlobal) fun t =>
    let n := copyRows t r0 f.imm.toNat
    orTrap (firstTrap [
      trapIf (r0 ≥ t.rows || r0 + n > t.rows) (tileBnd 1),
      trapIf (addr % 4 != 0 || stride % 4 != 0) { cause := cALIGN, eaddr := g.sget f.i },
      trapIf ((z && !z24Ok t) || stride < copyRowBytes t.ty t.cols z) (tileBnd 3)]) s <|
    match checkAccess s g.core g.ctx (copySpec out) true
        ((pageStarts addr stride (copyRowBytes t.ty t.cols z) n).map fun a => (0, (a : Int))) with
    | .bad t s => .trap t s
    | .ok s ts => k s t r0 n ts

/-- TCPI (R202, R203): the tags of the rows become empty, and the rows start to arrive. -/
def execTcpi (f : FT) (s : State) : Out :=
  let addr := (s.g.sget f.i).toNat
  let stride := (s.g.sget f.b).toNat
  settle <| copyChecks s f false fun s t r0 n ts =>
    let s := s.unreplayable.endRegion
    let s := s.mapTile t.core t.idx fun t =>
      let t := (t.rowRange r0 n).foldl (fun t k => t.tagWord false k) t
      { t.beginIn with failed := t.failed.filter fun k => !(t.rowRange r0 n).contains k }
    .next (s.startCopy { (default : Copy) with
      kind := .tcpi, idx := t.idx, gen := t.gen, row := r0, nrows := n, addr := addr, stride := stride
      compressed := f.mode != 0, map := copyPages ts })

/-- TCPO (R202, R203, R205): the rows are sent as they stand now. -/
def execTcpo (f : FT) (s : State) : Out :=
  let addr := (s.g.sget f.i).toNat
  let stride := (s.g.sget f.b).toNat
  let z := f.mode != 0
  settle <| copyChecks s f true fun s t r0 n ts =>
    let s := s.unreplayable.endRegion
    let s := s.mapTile t.core t.idx fun t => { t with outbound := t.outbound + 1 }
    .next (s.startCopy { (default : Copy) with
      kind := .tcpo, idx := t.idx, gen := t.gen, row := r0, nrows := n, addr := addr, stride := stride, compressed := z
      map := copyPages ts
      image := (List.range n).map fun i => t.memRow z (r0 + i)
      bad := (List.range n).filter fun i => (t.rowRange (r0 + i) 1).any (t.poison.contains ·) })

/-- The peer's tile that a tcpm names, or the cause (R204). -/
def peerTile (s : State) (h : W64) (src : Tile) : Except Trap Tile :=
  match s.checkHandle (corePeer s.g.core) s.g.ctx h (fun t => !t.isGlobal && t.ty == src.ty && t.cols = src.cols) with
  | .error c => .error (tileState c)
  | .ok t => if t.rows < src.rows then .error (tileBnd 1) else .ok t

/-- TCPM (R202, R204, R205): the peal. -/
def execTcpm (f : FT) (s : State) : Out :=
  let g := s.g
  let r0 := (g.sget (snum f.d)).toNat
  settle <| orTrap (readPoison g [g.sitem f.h, g.sitem (snum f.d), g.sitem f.i]) s <|
    withTile s (g.sget f.h) 0 (fun t => !t.isGlobal) fun t =>
      match peerTile s (g.sget f.i) t with
      | .error e =>
        if s.isSavedTile (corePeer g.core) g.ctx (g.sget f.i) then .stay s else .trap e s
      | .ok d =>
        let n := copyRows t r0 f.imm.toNat
        if r0 ≥ t.rows || r0 + n > t.rows then .trap (tileBnd 1) s
        else
          let s := s.unreplayable.endRegion
          let s := s.mapTile t.core t.idx fun t => { t with outbound := t.outbound + 1 }
          let s := s.mapTile d.core d.idx Tile.beginIn
          .next (s.startCopy { (default : Copy) with
            kind := .tcpm, idx := t.idx, gen := t.gen, dcore := d.core, didx := d.idx, dgen := d.gen, row := r0, nrows := n
            image := (List.range n).map fun i => (t.rowRange (r0 + i) 1).flatMap fun k => leBytes 4 (t.word k).1.toNat
            bad := (List.range (n * t.rowWords)).filter fun k => t.poison.contains (r0 * t.rowWords + k) })

/-! ## Landing (R195, R197, R202, R204) -/

/-- The physical key of a byte of a copy's memory side, with KIND and PEER and the physical address. -/
def Copy.keyOf (s : State) (c : Copy) (va : Nat) : Leaf :=
  match c.map.find? (·.1 = va / 65536) with
  | some (_, kind, peer, pa) => { key := physKey s kind peer (pa + va % 65536), pa := pa + va % 65536, kind := kind, peer := peer, e := 0, leafAt := 0 }
  | none => default

/-- KIND of a page that staging could not translate, beside the cause that its rows record (R297). -/
def badPage : Nat := 16
/-- What stops the reading or writing of some bytes of a copy, in the order of R170: a page that staging could not reach, PROT by a
target's access table, and then, of the lowest byte that meets one, POISON for a read or LINK. -/
def Copy.blocked (s : State) (c : Copy) (read : Bool) (vas : List Nat) : Option Byte :=
  let ls := vas.map (c.keyOf s)
  match ls.find? (badPage ≤ ·.kind) with
  | some l => some (BitVec.ofNat 8 (l.kind - badPage))
  | none =>
  if ls.any fun l => s.reach l 1 read (!read) = .refused then some cPROT
  else ls.findSome? fun l =>
    if read && s.isPoisoned l.key 1 then some cPOISON else if s.reach l 1 read (!read) = .ok then none else some cLINK

/-- A part of a copy that this device's own access table refuses, on the way to its own pod number, leaves an alarm due (R433, R450). -/
def Copy.noteBlocked (s : State) (c : Copy) (read : Bool) (vas : List Nat) : State :=
  s.noteRefused read (!read) ((vas.map (c.keyOf s)).find? fun l => s.reach l 1 read (!read) = .refused).toList

/-- The words of a row of the destination tile, whose shape a tcpm's source shares. -/
def Copy.words (c : Copy) (t : Tile) : Nat := c.nrows * t.rowWords

/-- The tile a copy writes into: core, entry and the generation its writes carry. -/
def Copy.dest (c : Copy) : Nat × Nat × BitVec 16 :=
  match c.kind with
  | .tcpm => (c.dcore, c.didx, c.dgen)
  | _ => (c.core, c.idx, c.gen)

/-- Record a failure of a copy in a tile (R202). DESIGN CHOICE: ECAUSE keeps the first cause when a later failure has another, and every
failed word raises it (log 96). -/
def Tile.fail (t : Tile) (cause : Byte) : Tile := { t with err := true, ecause := if t.err then t.ecause else cause }
/-- A word that a failed copy leaves empty. -/
def Tile.leaveEmpty (t : Tile) (k : Nat) (cause : Byte) : Tile :=
  let t := t.tagWord false k
  { t.fail cause with failed := insertNat k t.failed }

/-- The bytes of memory that the next word of a copy in comes from, and those that must be readable for it to land: a staging fill's
whole row. -/
def Copy.wordVas (c : Copy) (t : Tile) : List Nat × List Nat :=
  let a := c.addr + c.pos / t.rowWords * c.stride
  let vas := (rowBytesOf t c.compressed (c.pos % t.rowWords)).map (· + a)
  (vas, if c.kind = .staging then (List.range (memRowBytes t.ty t.cols)).map (· + a) else vas)
/-- The next word of a copy, as it lands: the value and META, or the cause that leaves it empty. -/
def Copy.nextWord (s : State) (c : Copy) (t : Tile) : Except Byte (W32 × Bool) :=
  let r := c.pos / t.rowWords
  let k := c.pos % t.rowWords
  match c.kind with
  | .tcpm => if c.bad.contains c.pos then .error cPOISON
    else .ok (BitVec.ofNat 32 (leNat (((c.image.getD r []).drop (4 * k)).take 4)), false)
  | _ =>
    let (vas, needed) := c.wordVas t
    match c.blocked s true needed with
    | some cause => .error cause
    | none => .ok (wordOfRow t c.compressed k (vas.map fun va => memGet s.ms.mem (c.keyOf s va).key))

/-- A poisoned word that a tcpm reads next is recorded in its source tile, whatever becomes of the write (R202). -/
def Copy.sourceFails (c : Copy) (s : State) : State :=
  if c.kind = .tcpm && c.bad.contains c.pos then s.mapTile c.core c.idx fun t => if t.gen == c.gen then t.fail cPOISON else t else s
/-- The reads of the next word of a copy in recall the lines they touch (R186). -/
def Copy.recallWord (c : Copy) (s : State) (t : Tile) : MemSys :=
  if c.kind = .tcpm || s.ms.owned = [] then s.ms
  else (rowBytesOf t c.compressed (c.pos % t.rowWords)).foldl
    (fun ms o => ms.recall (c.keyOf s (c.addr + c.pos / t.rowWords * c.stride + o)).key 1) s.ms

/-- One word of a copy lands in its tile. DESIGN CHOICE: the words of one tcpi or tcpm land in ascending order, which R202 leaves open and a
tldw on a partly filled tile can see (log 104). The word is dropped when the tile is Draining or its generation has changed; a word that
cannot be read is left empty. The word's tag is full once its value is there. -/
def State.landWord (s : State) (c : Copy) : State :=
  let (core, idx, gen) := c.dest
  let s1 := { s with cs := { s.cs with copies := s.cs.copies.map fun x => if x.id = c.id then { x with pos := x.pos + 1 } else x } }
  let s1 := c.sourceFails s1
  match s.tileAt core idx with
  | none => s1
  | some t =>
    if t.st = .draining || t.gen != gen then s1
    else
      let s1 := { s1 with ms := c.recallWord s t }
      let k := c.row * t.rowWords + c.pos
      match c.nextWord s t with
      | .ok (w, bad) => s1.mapTile core idx fun t => ({ t.putWord k w true with meta_ := t.meta_ || bad }).norm
      | .error cause =>
        let s1 := if c.kind != .tcpm && cause == cPROT then Copy.noteBlocked s1 c true (c.wordVas t).2 else s1
        s1.mapTile core idx fun t => t.leaveEmpty k cause

/-- Words a copy has to land: those of its rows. A tcpm sends them all, whatever becomes of its destination; a copy in from
memory has none left when its entry has gone. -/
def State.copyLeft (s : State) (c : Copy) : Nat :=
  if c.kind = .tcpm then (c.image.map (·.length / 4)).foldl (· + ·) 0 - c.pos
  else match s.tileAt c.core c.idx with
    | none => 0
    | some t => c.words t - c.pos

/-! ## Requests of staging in their queues (R295, R298) -/

/-- Lines of a LEVEL 1 request, or words of a LEVEL 2 one. DESIGN CHOICE: BYTES 0, which R287 leaves out, has no line (log 124). -/
def StageReq.total (q : StageReq) : Nat :=
  if q.level = 1 then (if q.bytes = 0 then 0 else (q.va % 128 + q.bytes + 127) / 128) else if q.level = 2 then q.bytes / 4 else 0
/-- Bytes of the first k of them. -/
def StageReq.upTo (q : StageReq) (k : Nat) : Nat := if q.level = 1 then min q.bytes (128 * k - q.va % 128) else 4 * k
/-- How many of them the first x bytes hold. -/
def StageReq.fitting (q : StageReq) (x : Nat) : Nat :=
  if q.bytes ≤ x then q.total else if q.level = 1 then (x + q.va % 128) / 128 else x / 4
/-- Whether everything of it is sent. -/
def StageReq.allSent (q : StageReq) : Bool := q.begun && q.total ≤ q.sent
/-- The place in its queue of its line or word k, which has been sent. -/
def StageReq.placeOf (q : StageReq) (k : Nat) : Nat := ((q.waves.filter fun w => w.1 ≤ k).getLast?.map (·.2)).getD 0
/-- How many of those sent stand at a place up to n. -/
def StageReq.sentBy (q : StageReq) (n : Nat) : Nat := ((q.waves.find? fun w => n < w.2).map (·.1)).getD q.sent
/-- Whether two requests belong to one record. -/
def StageReq.sameRecord (q x : StageReq) : Bool := q.die = x.die && q.entry = x.entry
/-- Whether the order of one record's entries puts a request behind another (R295): not behind the fill of another core's tile, since the
staging of a record on a core begins when it is admitted there. -/
def StageReq.follows (q x : StageReq) : Bool := x.sameRecord q && (x.level != 2 || x.core = q.core)
/-- Lines or words of a request that have landed. -/
def State.landed (s : State) (q : StageReq) : Nat :=
  if q.level = 2 && q.begun then ((s.cs.copies.find? (·.id = q.copy)).map (·.pos)).getD q.total else q.pos
/-- Whether some of what it has sent has not landed. -/
def State.inFlight (s : State) (q : StageReq) : Bool := s.landed q < q.sent
/-- Whether the next of them to land is one that a promotion has made a demand request. -/
def State.isPromoted (s : State) (q : StageReq) : Bool := s.inFlight q && s.landed q < q.promoted
/-- Whether the next of them to land is of demand class. -/
def State.isDemand (s : State) (q : StageReq) : Bool := s.inFlight q && (s.landed q < q.promoted || q.asCopy)
/-- A demand request that has reached its queue and has not been served (R298): the next word of a tcpi, a tcpo, the next bytes of a COPY
packet, a merge, the next unit of a transfer, or the next line or word of a promoted staging request, each by its name. -/
inductive Demand where
  | copyIn (id : Nat)
  | copyOut (id : Nat)
  | packet (run : Nat)
  | merge (id : Nat)
  | unit (xfer : Nat)
  | staging (req : Nat)
  deriving DecidableEq, Repr
/-- The demand requests that wait, each with its place. DESIGN CHOICE: the requests of the device meet in one queue, and what an instruction
or an event does at once is served as it arrives (log 83). -/
def State.demands (s : State) : List (Nat × Demand) :=
  ((s.cs.copies.filter fun (c : Copy) => c.kind = .tcpi && 0 < s.copyLeft c).map fun c => (c.id, .copyIn c.id)) ++
  ((s.cs.copies.filter fun (c : Copy) => c.kind = .tcpo).map fun c => (c.id, .copyOut c.id)) ++
  ((s.qs.runs.filter fun r => s.ctxLive r.seq.ctx && r.kind = 3 && r.status = 0 && r.moved < leNat ((r.body.drop 24).take 8) && !s.waitsOn (.copy r.id)).map
    fun r => (r.no, .packet r.id)) ++
  (s.cs.merges.map fun m => (m.id, .merge m.id)) ++
  ((s.lk.xfers.filter fun x => !x.ended && x.record = 0).map fun x => (x.id, .unit x.id)) ++
  (s.ls.staging.filter s.isDemand).map fun q => (q.placeOf (s.landed q), .staging q.id)
/-- Whether a demand request at a place of the queue may be served: no promoted staging request stands before it. -/
def State.demandMayLand (s : State) (n : Nat) : Bool :=
  !s.ls.staging.any fun q => s.isPromoted q && q.placeOf (s.landed q) < n
/-- Whether the next line or word of a request may land: a promoted one after the demand requests before it, one that has become a copy as
any copy, any other once there is no demand request, and after what stands before it of its record. -/
def State.mayLand (s : State) (q : StageReq) : Bool :=
  s.inFlight q &&
  (if s.isPromoted q then s.demands.all (q.placeOf (s.landed q) ≤ ·.1)
   else if q.asCopy then s.demandMayLand (q.placeOf (s.landed q))
   else s.demands = [] && ((s.ls.staging.find? fun x => q.follows x && s.inFlight x).map (·.id)) = some q.id)

/-- INBOUND_WRITE (R195, R197, R198, R202, R204, R298, R300): the next word of a tcpi, a tcpm or a staging fill of demand class. -/
def execInboundWrite (copy : Nat) (s : State) : Out :=
  done (match s.cs.copies.find? (·.id = copy) with
    | some c =>
      let may := match c.kind with
        | .tcpo => false
        | .tcpm => true
        | .tcpi => s.demandMayLand c.id
        | .staging => s.ls.staging.any fun q => q.level = 2 && q.copy = c.id && s.isDemand q && s.mayLand q
      if may && 0 < s.copyLeft c then s.landWord c else s
    | none => s)

/-- Count an inbound copy's end (R195). -/
def State.endIn (s : State) (core idx : Nat) : State :=
  match s.tileAt core idx with
  | none => s
  | some t =>
    if t.st = .draining && t.inbound ≤ 1 then s.dropTile core idx
    else s.mapTile core idx fun t =>
      let n := t.inbound - 1
      { t with inbound := n, st := if t.st = .filling && n = 0 then (if t.allFull then .full else .open_) else t.st }

/-- Write a byte or leave it: which, is a free choice (R202, log 4). -/
def State.maybeByte (s : State) (k : Nat) (b : Byte) : State :=
  let (w, s) := s.takeBit
  if w then s.memWrite k [b] else s
/-- Write one row of a copy out; each byte of a row that meets a failure is old or new, and the source tile records it
(R202): a refusal of the destination before a poisoned word of the row, as in R170. -/
def Copy.writeRow (c : Copy) (s : State) (i : Nat) : State :=
  let row := c.image.getD i []
  let vas := (List.range row.length).map (· + (c.addr + i * c.stride))
  let stop := c.blocked s false vas
  match (if stop != some cPROT && c.bad.contains i then some cPOISON else stop) with
  | some cause =>
    let s := if cause == cPROT then Copy.noteBlocked s c false vas else s
    let s := (vas.zip row).foldl (fun s p => s.maybeByte (c.keyOf s p.1).key p.2) s
    s.mapTile c.core c.idx fun t => if t.gen == c.gen then t.fail cause else t
  | none => (pageStarts (c.addr + i * c.stride) 0 row.length 1).foldl (fun s a =>
      s.memWrite (c.keyOf s a).key ((row.drop (a - (c.addr + i * c.stride))).take (65536 - a % 65536))) s

/-- The effect of a copy's end. -/
def State.endCopy (s : State) (c : Copy) : State :=
  let s := { s with
    cs := { s.cs with copies := s.cs.copies.filter (·.id ≠ c.id) }
    ls := { s.ls with staging := s.ls.staging.filter fun q => q.level != 2 || q.copy != c.id } }
  let outDone := fun (s : State) => s.mapTile c.core c.idx fun t => if t.gen == c.gen then { t with outbound := t.outbound - 1 } else t
  match c.kind with
  | .tcpo => outDone ((List.range c.nrows).foldl c.writeRow s)
  | .tcpm => outDone (s.endIn c.dcore c.didx)
  | _ => s.endIn c.core c.idx

/-- COPY_COMPLETE (R195, R202, R298): the copy is performed; a copy in ends only once its last word has landed. -/
def execCopyComplete (copy : Nat) (s : State) : Out :=
  done (match s.cs.copies.find? (·.id = copy) with
    | some c => if (if c.kind = .tcpo then s.demandMayLand c.id else s.copyLeft c = 0) then s.endCopy c else s
    | none => s)

end Sys2Proof.Machine
end

