-- ==== Sys2Proof/Machine/Engine.lean ====
section
/-! DEFINITION. Reads and writes by the engines: classes c, m, v, x and l, and the device's writes on behalf of work
(R168, R389). -/

namespace Sys2Proof.Machine

/-- Insert an address into a rising list. -/
def insertAddr (a : Nat) : List Nat → List Nat
  | [] => [a]
  | b :: r => if b < a then b :: insertAddr a r else if a = b then b :: r else a :: b :: r
/-- The lowest byte of a range in each 32-byte sector. -/
def sectorStarts (a n : Nat) : List Nat :=
  if n = 0 then []
  else (List.range ((a + n - 1) / 32 - a / 32 + 1)).map fun i => if i = 0 then a else (a / 32 + i) * 32

/-- Let a core's brick cache hold the lines that samples were read from (R364): 128 KiB of them, 1,024 lines (R17). DESIGN CHOICE: a
full one gives up its oldest line (log 86). -/
def State.noteBrick (s : State) (core : Nat) (ts : List Hit3) : State :=
  { s with ms := { s.ms with brick := ts.foldl (fun l t =>
      if l.contains (core, t.2.2.key / 128) then l else keepFirst (fun o => o.1 = core) 1024 ((core, t.2.2.key / 128) :: l)) s.ms.brick } }

/-- A byte at an address among translated sector starts. -/
def hitByte (s : State) (ts : List Hit3) (va : Nat) : Byte :=
  match ts.find? fun t => t.2.1.toNat ≤ va && t.2.1.toNat / 32 = va / 32 with
  | some t => memGet s.ms.mem (t.2.2.key + (va - t.2.1.toNat))
  | none => 0

/-- A computation that reads memory through an engine: it may stop with a cause, and it leaves what its walks cached. -/
abbrev Rd := ExceptT Trap (StateM State)

/-- Run a reading. -/
def Rd.at {α : Type} (r : Rd α) (s : State) : Except Trap α × State := (ExceptT.run r).run s

/-- Begin or end the translations of an instruction that translates lane by lane (R390). -/
def State.setReuse (s : State) (l : Option (List Seen)) : State := { s with ms := { s.ms with reuse := l } }
/-- Do the readings of one instruction: its lanes take one translation for each page (R390). -/
def Rd.once {α : Type} (r : Rd α) : Rd α := ExceptT.mk fun s => let p := r.at (s.setReuse (some [])); (p.1, p.2.setReuse none)

/-- Read n bytes from an address, for a context and a core. -/
def engineRead (core ctx : Nat) (spec : AccSpec) (addr n : Nat) : Rd (List Byte) :=
  ExceptT.mk fun s =>
    match checkAccess s core ctx spec true ((sectorStarts addr n).map fun a => (0, (a : Int))) with
    | .bad t s => (.error t, s)
    | .ok s ts => (.ok ((List.range n).map fun i => hitByte s ts (addr + i)), s)
/-- The same through a class. -/
def engineBytes (core ctx : Nat) (cls : Cls) (addr n : Nat) : Rd (List Byte) := engineRead core ctx (.eread cls 1) addr n
/-- Read a little-endian number. -/
def engineNat (core ctx : Nat) (cls : Cls) (addr n : Nat) : Rd Nat := do return leNat (← engineBytes core ctx cls addr n)

/-- Read a little-endian brick sample, which the core's brick cache then holds. -/
def sampleNat (core ctx addr n : Nat) : Rd Nat :=
  ExceptT.mk fun s =>
    match checkAccess s core ctx (.eread .m 1) true ((sectorStarts addr n).map fun a => (0, (a : Int))) with
    | .bad t s => (.error t, s)
    | .ok s ts => (.ok (leNat ((List.range n).map fun i => hitByte s ts (addr + i))), s.noteBrick core ts)

/-- Do a reading for each lane in turn, each lane whatever became of the others. When one fails, the cause is the lowest failing
lane's, for every lane it arose on, with every page that a lane failed on (R103, R394; log 76). -/
def eachLane {α : Type} (ls : List Nat) (f : Nat → Rd α) : Rd (List (Nat × α)) :=
  ExceptT.mk fun s =>
    let (rs, s) := ls.foldl (fun acc i => let r := (f i).at acc.2; (acc.1 ++ [(i, r.1)], r.2)) (([] : List (Nat × Except Trap α)), s)
    let bad := rs.filterMap fun r => match r.2 with | .error t => some (r.1, t) | .ok _ => none
    match bad with
    | [] => (.ok (rs.filterMap fun r => match r.2 with | .ok x => some (r.1, x) | .error _ => none), s)
    | (_, t) :: _ =>
      let same := bad.filter fun b => b.2.cause == t.cause
      (.error { t with elanes := maskOfList (same.map (·.1)), pages := (same.flatMap (·.2.pages)).eraseDups }, s)

/-- Perform bytes from an address at the leaves that its sector starts were checked to have. -/
def State.storeHits (s : State) (addr : Nat) (b : List Byte) (ts : List Hit3) : State :=
  ts.foldl (fun s t =>
    let a := t.2.1.toNat
    s.memWrite t.2.2.key ((b.drop (a - addr)).take (32 - a % 32))) s
/-- Check the leaf of every sector of a write through a class. -/
def checkStore (s : State) (core ctx : Nat) (spec : AccSpec) (addr n : Nat) : Checked :=
  checkAccess s core ctx { spec with size := 1 } true ((sectorStarts addr n).map fun a => (0, (a : Int)))
/-- Write bytes through a class: the leaf of every sector is checked first, then all bytes are performed. -/
def engineStore (core ctx : Nat) (spec : AccSpec) (addr : Nat) (b : List Byte) : Rd Unit :=
  ExceptT.mk fun s =>
    match checkStore s core ctx spec addr b.length with
    | .bad t s => (.error t, s)
    | .ok s ts => (.ok (), s.storeHits addr b ts)

end Sys2Proof.Machine
end

