-- ==== Sys2Proof/Machine/Transcend.lean ====
section
/-! DEFINITION. The transcendental functions of R143. Their values at rational points are irrational but for the exact
cases stated; each is replaced by a rational that differs from it by less than 2^-850, which RoundTo then rounds. That
no rounding boundary lies between the two is the model's reading (log 12). -/

namespace Sys2Proof.Machine

/-- Fraction bits of the fixed-point values below. -/
def fxBits : Nat := 896
/-- One, in fixed point. -/
def fxOne : Nat := 2 ^ fxBits
/-- Product in fixed point. -/
def fxMul (a b : Nat) : Nat := a * b / fxOne

/-- Sum of t/(2k+1), t shrinking by the divisor q each step: atanh of 1/√q·… for the series of 1/n. -/
def atanhInv : Nat → Nat → Nat → Nat → Nat
  | 0, _, _, _ => 0
  | fuel + 1, k, t, q => t / (2 * k + 1) + atanhInv fuel (k + 1) (t / q) q
/-- The alternating sum, for atan. -/
def atanInv : Nat → Nat → Nat → Nat → Int
  | 0, _, _, _ => 0
  | fuel + 1, k, t, q => (t / (2 * k + 1) : Nat) - atanInv fuel (k + 1) (t / q) q

/-- ln 2 = 2 atanh (1/3). -/
def fxLn2 : Nat := 2 * atanhInv 290 0 (fxOne / 3) 9
/-- π/2 = 8 atan (1/5) − 2 atan (1/239). -/
def fxHalfPi : Nat := (8 * atanInv 200 0 (fxOne / 5) 25 - 2 * atanInv 60 0 (fxOne / 239) 57121).toNat

/-- Sum of x^k/k!, for x below one: t is the term, k its number. -/
def expSeries : Nat → Nat → Nat → Nat → Nat
  | 0, _, _, _ => 0
  | fuel + 1, k, t, x => t + expSeries fuel (k + 1) (fxMul t x / (k + 1)) x

/-- Sum of z^(2k+1)/(2k+1): t is z^(2k+1), z2 is z². -/
def atanhSeries : Nat → Nat → Nat → Nat → Nat
  | 0, _, _, _ => 0
  | fuel + 1, k, t, z2 => t / (2 * k + 1) + atanhSeries fuel (k + 1) (fxMul t z2) z2

/-- Alternating sum of the terms t·x2^k / ((k+1)(k+2)…): sine from t = x, k = 1; cosine from t = 1, k = 0. -/
def trigSeries : Nat → Nat → Nat → Nat → Int
  | 0, _, _, _ => 0
  | fuel + 1, k, t, x2 => t - trigSeries fuel (k + 2) (fxMul t x2 / ((k + 1) * (k + 2))) x2

/-- 2^x for x = ±n/d; exact for an integer. Far outside every format's range a power of two stands in. -/
def exp2Exact (neg : Bool) (n d : Nat) : Nat × Nat :=
  if n ≥ 512 * d then (if neg then (1, 2 ^ 512) else (2 ^ 512, 1))
  else
    let x := sgn neg n
    let i := x / d
    let f := (x % d).toNat
    let m := if f = 0 then fxOne else expSeries 240 0 fxOne (fxMul (f * fxOne / d) fxLn2)
    match i with
    | .ofNat k => (m * 2 ^ k, fxOne)
    | .negSucc k => (m, fxOne * 2 ^ (k + 1))

/-- log₂ (n/d), n and d positive, as a signed fraction of fxOne; exact for a power of two. -/
def log2Exact (n d : Nat) : Int × Nat :=
  let e := log2Frac n d
  -- m = n/d / 2^e in [1, 2)
  let p : Nat × Nat := match e with
    | .ofNat k => (n, d * 2 ^ k)
    | .negSucc k => (n * 2 ^ (k + 1), d)
  if p.1 = p.2 then (e, 1)
  else
    let z := (p.1 - p.2) * fxOne / (p.1 + p.2)
    let l := 2 * atanhSeries 300 0 z (fxMul z z) * fxOne / fxLn2
    (e * fxOne + l, fxOne)

/-- Quadrant and remainder of n/d by π/2, in fixed point. -/
def reduceHalfPi (n d : Nat) : Nat × Nat := (n * fxOne / d / fxHalfPi, n * fxOne / d % fxHalfPi)
/-- sin and cos of a fixed-point value below π/2. -/
def fxSin (r : Nat) : Int := trigSeries 100 1 r (fxMul r r)
def fxCos (r : Nat) : Int := trigSeries 100 0 fxOne (fxMul r r)

/-- sin (n/d) and cos (n/d) as signed fractions of fxOne. -/
def sinExact (n d : Nat) : Int :=
  let r := reduceHalfPi n d
  match r.1 % 4 with
  | 0 => fxSin r.2 | 1 => fxCos r.2 | 2 => -fxSin r.2 | _ => -fxCos r.2
def cosExact (n d : Nat) : Int :=
  let r := reduceHalfPi n d
  match r.1 % 4 with
  | 0 => fxCos r.2 | 1 => -fxSin r.2 | 2 => -fxCos r.2 | _ => fxSin r.2

/-! ## The unary functions of R143 with the cases of R144 -/

/-- √a. -/
def fvSqrt (a : FV) : Ex :=
  match a with
  | .nan _ => { x := .nan, fl := sigNV [a] }
  | .inf s => if s then { x := .nan, fl := fNV } else { x := .inf false }
  | .fin s n d =>
    if n = 0 then { x := .zero s } else if s then { x := .nan, fl := fNV }
    else { x := .val false (sqrtExact n d).1 (sqrtExact n d).2 }
/-- 1 / a. -/
def fvRcp (a : FV) : Ex := fvDiv (.fin false 1 1) a
/-- 1 / √a. -/
def fvRsq (a : FV) : Ex :=
  match a with
  | .nan _ => { x := .nan, fl := sigNV [a] }
  | .inf s => if s then { x := .nan, fl := fNV } else { x := .zero false }
  | .fin s n d =>
    if n = 0 then { x := .inf s, fl := fDZ } else if s then { x := .nan, fl := fNV }
    else { x := .val false (sqrtExact d n).1 (sqrtExact d n).2 }
/-- 2^a. -/
def fvExp2 (a : FV) : Ex :=
  match a with
  | .nan _ => { x := .nan, fl := sigNV [a] }
  | .inf s => if s then { x := .zero false } else { x := .inf false }
  | .fin s n d => { x := .val false (exp2Exact s n d).1 (exp2Exact s n d).2 }
/-- log₂ a. -/
def fvLog2 (a : FV) : Ex :=
  match a with
  | .nan _ => { x := .nan, fl := sigNV [a] }
  | .inf s => if s then { x := .nan, fl := fNV } else { x := .inf false }
  | .fin s n d =>
    if n = 0 then { x := .inf true, fl := fDZ } else if s then { x := .nan, fl := fNV }
    else { x := exactOf (log2Exact n d).1 (log2Exact n d).2 false }
/-- sin a. -/
def fvSin (a : FV) : Ex :=
  match a with
  | .nan _ => { x := .nan, fl := sigNV [a] }
  | .inf _ => { x := .nan, fl := fNV }
  | .fin s n d => if n = 0 then { x := .zero s } else { x := exactOf (if s then -sinExact n d else sinExact n d) fxOne false }
/-- cos a. -/
def fvCos (a : FV) : Ex :=
  match a with
  | .nan _ => { x := .nan, fl := sigNV [a] }
  | .inf _ => { x := .nan, fl := fNV }
  | .fin _ n d => if n = 0 then { x := .val false 1 1 } else { x := exactOf (cosExact n d) fxOne false }
/-- a · 2^k; NaN, infinities and zeros pass (R149). -/
def fvScale (a : FV) (k : Int) : Ex :=
  match a with
  | .nan _ => { x := .nan, fl := sigNV [a] }
  | .inf s => { x := .inf s }
  | .fin s n d =>
    if n = 0 then { x := .zero s }
    else
      let k := if k > 1024 then 1024 else if k < -1024 then -1024 else k
      match k with
      | .ofNat j => { x := .val s (n * 2 ^ j) d }
      | .negSucc j => { x := .val s n (d * 2 ^ (j + 1)) }
/-- a rounded to an integral value in its own format, keeping its sign (R146): no flag but NV. -/
def fmtRndInt (f : Fmt) (mode : Nat) (bits : Nat) : Rounded :=
  match f.read bits with
  | .nan s => { bits := f.nan, fl := if s then fNV else 0 }
  | .inf _ => { bits := bits }
  | .fin s n d =>
    let r := (roundAt mode 0 s n d 0).1
    if r = 0 then { bits := if s then f.sign else 0 } else { bits := (f.roundVal 0 0 false s r 1).bits }

end Sys2Proof.Machine
end

