-- ==== Sys2Proof/Machine/Interval.lean ====
section
/-! DEFINITION. Exact arithmetic on FP32 values, interval arithmetic and affine forms (R46 to R49, R340 to R342). Numbers
are FP32 bits; a value read from them is exact, infinite or a NaN. -/

namespace Sys2Proof.Machine

/-! ## Exact values -/

/-- An exact result as a value. -/
def Exact.fv : Exact → FV
  | .nan => .nan false | .inf s => .inf s | .zero s => .fin s 0 1 | .val s n d => .fin s n d
/-- Exact sum, product and quotient, with the invalid cases a NaN. -/
def FV.add (a b : FV) : FV := (fvAdd 0 a b).x.fv
def FV.sub (a b : FV) : FV := a.add b.negate
def FV.mul (a b : FV) : FV := (fvMul a b).x.fv
def FV.div (a b : FV) : FV := (fvDiv a b).x.fv
/-- A product in which 0 × ∞ counts as 0 (R47). -/
def FV.mulZ (a b : FV) : FV := if a.isNan || b.isNan then .nan false else if a.isZero || b.isZero then .fin false 0 1 else a.mul b
/-- The same, where a zero has the sign of an IEEE 754 product (R29). -/
def FV.mulS (a b : FV) : FV := if !a.isNan && !b.isNan && (a.isZero || b.isZero) then .fin (a.neg != b.neg) 0 1 else a.mulZ b
/-- Zero, one half and a whole number. -/
def FV.zero : FV := .fin false 0 1
def FV.half : FV := .fin false 1 2
def FV.ofInt (n : Int) : FV := .fin (n < 0) n.natAbs 1
/-- Magnitude. -/
def FV.abs : FV → FV
  | .nan s => .nan s | .inf _ => .inf false | .fin _ n d => .fin false n d
/-- Ordering of values; false when either is a NaN. -/
def FV.lt (a b : FV) : Bool := fvLt false a b
def FV.le (a b : FV) : Bool := !a.isNan && !b.isNan && !(b.lt a)
/-- The smaller and the larger, the first on a tie. -/
def FV.min (a b : FV) : FV := if b.lt a then b else a
def FV.max (a b : FV) : FV := if a.lt b then b else a
/-- The same, where −0 is the smaller zero. -/
def FV.minS (a b : FV) : FV := if fvLt true b a then b else a
def FV.maxS (a b : FV) : FV := if fvLt true a b then b else a
/-- Whether a value is finite. -/
def FV.finite : FV → Bool
  | .fin _ _ _ => true | _ => false
/-- The floor of a finite value. -/
def FV.floor : FV → Int
  | .fin s n d => sgn s n / d | _ => 0
/-- The ceiling of a finite value. -/
def FV.ceil : FV → Int
  | .fin s n d => -(-(sgn s n) / d) | _ => 0

/-- FP32 bits of an exact value, rounded once in a mode: rne 0, rdn 2, rup 3. An exact zero keeps the sign it has. -/
def f32Of (mode : Nat) (x : FV) : Nat := (f32.round mode 0 false x.exact).bits
/-- The value of FP32 bits. -/
def val (b : Nat) : FV := f32.read b
/-- The canonical NaN, and the infinities (R30). -/
def cNaN : Nat := 0x7FC00000
def pInf : Nat := 0x7F800000
def nInf : Nat := 0xFF800000

/-- The exact sum of several values; the sign of an exact zero follows IEEE 754 as for two (R29). -/
def sumFV (mode : Nat) (l : List FV) : FV :=
  let s := l.foldl FV.add .zero
  if s.isZero then
    if l.all (fun v => v.isZero && v.neg) && l != [] then .fin true 0 1
    else if l.all (fun v => v.isZero && !v.neg) then .fin false 0 1
    else .fin (mode = 2) 0 1
  else s

/-- Flip the sign bit. -/
def f32Neg (b : Nat) : Nat := b ^^^ 2 ^ 31

/-! ## Intervals (R46, R47) -/

/-- An interval as its stored pair. -/
structure Iv where
  lo : Nat
  hi : Nat
  deriving DecidableEq, Repr, Inhabited

/-- The entire interval and the empty one, as the device writes them. -/
def Iv.entire : Iv := { lo := nInf, hi := pInf }
def Iv.empty : Iv := { lo := pInf, hi := nInf }
/-- Whether a pair reads as entire because of a NaN. -/
def Iv.isNan (a : Iv) : Bool := (val a.lo).isNan || (val a.hi).isNan
/-- Whether a pair reads as empty. -/
def Iv.isEmpty (a : Iv) : Bool :=
  !a.isNan && ((val a.hi).lt (val a.lo) || val a.lo = .inf false || val a.hi = .inf true)
/-- The bounds as the device writes them. -/
def Iv.canon (a : Iv) : Iv := if a.isNan then .entire else if a.isEmpty then .empty else a
/-- A bound rounded outward. -/
def ivOf (lo hi : FV) : Iv := { lo := f32Of 2 lo, hi := f32Of 3 hi }
/-- Smallest and largest of a list of values. -/
def minOf (l : List FV) : FV := l.tail.foldl FV.min (l.headD .zero)
def maxOf (l : List FV) : FV := l.tail.foldl FV.max (l.headD .zero)
/-- Whether 0 lies in an interval. -/
def Iv.hasZero (a : Iv) : Bool := (val a.lo).le .zero && FV.zero.le (val a.hi)

/-- ABS of an interval (R342). -/
def ivAbs (a : Iv) : Iv :=
  if FV.zero.le (val a.lo) then a
  else if (val a.hi).le .zero then { lo := f32Neg a.hi, hi := f32Neg a.lo }
  else { lo := 0, hi := if (val (f32Neg a.lo)).lt (val a.hi) then a.hi else f32Neg a.lo }

/-- s(a, b) = min(a, b) − k·h²/4 with h = max(k − |a − b|, 0)/k, or −s(−a, −b) = max(a, b) + k·h²/4 (R342); an exact zero takes its sign
from the rounding mode (R29). Two equal infinities are the infinity. -/
def smooth (mode : Nat) (max : Bool) (a b k : FV) : FV :=
  let m := if max then FV.max a b else FV.min a b
  if !a.finite || !b.finite then (if a.isNan || b.isNan then .nan false else m)
  else
    let h := (FV.max (k.sub (a.sub b).abs) .zero).div k
    let t := (k.mul (h.mul h)).mul (.fin false 1 4)
    (fvAdd mode m (if max then t else t.negate)).x.fv

/-- The root of a value that is not below 0. -/
def fvRoot (a : FV) : FV := (fvSqrt a).x.fv

/-- One unit in the last place toward +∞ or −∞. -/
def nextUp (b : Nat) : Nat := if b % 2 ^ 31 = 0 then 1 else if b < 2 ^ 31 then b + 1 else b - 1
def nextDown (b : Nat) : Nat := if b % 2 ^ 31 = 0 then 2 ^ 31 + 1 else if b < 2 ^ 31 then b - 1 else b + 1

/-- A finite value divided by π/2, rounded down or up to an integer. -/
def quarters (up : Bool) (x : FV) : Int :=
  match x with
  | .fin s n d =>
    let a := sgn s (n * fxOne)
    let b : Int := d * fxHalfPi
    if up then -(-a / b) else a / b
  | _ => 0

/-- Sine (odd) or cosine of an interval: rule 6 of R47. Critical points lie at odd, or even, multiples of π/2. -/
def ivTrig (sine : Bool) (a : Iv) : Iv :=
  let lo := val a.lo
  let hi := val a.hi
  let wide : Bool := match hi.sub lo with | .fin _ n d => n * fxOne ≥ 4 * fxHalfPi * d | _ => true
  let one := 0x3F800000
  if wide then { lo := f32Neg one, hi := one }
  else
    let f := fun (x : FV) => f32.round 0 0 false (if sine then fvSin x else fvCos x).x |>.bits
    let q0 := quarters true lo
    let n := (quarters false hi - q0 + 1).toNat
    let shift : Int := if sine then 0 else 1
    let crit := (List.range n).filterMap fun i =>
      match (q0 + i + shift) % 4 with | 1 => some one | 3 => some (f32Neg one) | _ => none
    let los := [nextDown (f lo), nextDown (f hi)] ++ crit
    let his := [nextUp (f lo), nextUp (f hi)] ++ crit
    { lo := f32Of 0 (FV.max (minOf (los.map val)) (val (f32Neg one))), hi := f32Of 0 (FV.min (maxOf (his.map val)) (val one)) }

/-- n(a) of MODC. -/
def modcN (a c : FV) : Int := ((a.div c).add .half).floor
/-- Whether both ends of an interval have one n. -/
def modcSame (a : Iv) (c : FV) : Bool := (val a.lo).finite && (val a.hi).finite && modcN (val a.lo) c = modcN (val a.hi) c

/-- The quotients of two endpoints that the DIV formula counts. -/
def quotients (x y : FV) : List FV :=
  if y.finite then [x.div y] else if x.finite then [.zero] else [.zero, .inf (x.neg != y.neg)]

/-- An exact zero bound has no sign of its own: +0. -/
def FV.plain (x : FV) : FV := if x.isZero then .zero else x

/-- Sum and difference of intervals; each bound is one IEEE addition. -/
def ivAdd (a b : Iv) : Iv :=
  { lo := (f32.round 2 0 false (fvAdd 2 (val a.lo) (val b.lo)).x).bits, hi := (f32.round 3 0 false (fvAdd 3 (val a.hi) (val b.hi)).x).bits }
def ivNeg (a : Iv) : Iv := { lo := f32Neg a.hi, hi := f32Neg a.lo }
def ivMul (a b : Iv) : Iv :=
  let q := [(val a.lo).mulZ (val b.lo), (val a.lo).mulZ (val b.hi), (val a.hi).mulZ (val b.lo), (val a.hi).mulZ (val b.hi)]
  ivOf (minOf q).plain (maxOf q).plain

/-- Rules 1 and 2 of R47 before a formula. -/
def ivRule (ops : List Iv) (k : Iv) : Iv := if ops.any Iv.isNan then .entire else if ops.any Iv.isEmpty then .empty else k

/-- The interval formulas of R342 for the operations that take operands; imm: FP32 immediates. Operands are in the order
named, a first. -/
def ivOp (code : Nat) (imm : List Nat) (ops : List Iv) : Iv :=
  let a := ops.getD 0 default
  let b := ops.getD 1 default
  let k := val (imm.getD 0 0)
  let h := val (imm.getD 1 0)
  let al := val a.lo; let ah := val a.hi; let bl := val b.lo; let bh := val b.hi
  let squares := ops.map ivAbs
  ivRule ops <| match code with
  | 0x10 => ivAdd a b
  | 0x11 => ivAdd a (ivNeg b)
  | 0x12 => ivMul a b
  | 0x13 => if b.hasZero then .entire
            else let q := quotients al bl ++ quotients al bh ++ quotients ah bl ++ quotients ah bh
                 ivOf (minOf q).plain (maxOf q).plain
  | 0x14 => ivNeg a
  | 0x15 => ivAbs a
  | 0x16 => let m := ivAbs a; ivOf ((val m.lo).mulZ (val m.lo)) ((val m.hi).mulZ (val m.hi))
  | 0x17 => if ah.lt .zero then .empty else ivOf (fvRoot (FV.max al .zero)).plain (fvRoot ah).plain
  | 0x18 => { lo := (fmtMinMax f32 false a.lo b.lo).bits, hi := (fmtMinMax f32 false a.hi b.hi).bits }
  | 0x19 => { lo := (fmtMinMax f32 true a.lo b.lo).bits, hi := (fmtMinMax f32 true a.hi b.hi).bits }
  | 0x1A => ivOf (smooth 2 false al bl k) (smooth 3 false ah bh k)
  | 0x1B => ivOf (smooth 2 true al bl k) (smooth 3 true ah bh k)
  | 0x1C => { lo := f32Of 0 (FV.min (FV.max al k) h), hi := f32Of 0 (FV.min (FV.max ah k) h) }
  | 0x1D | 0x1E =>
    let sq := fun (up : Bool) => (squares.map fun m => let x := val (if up then m.hi else m.lo); x.mulZ x).foldl FV.add .zero
    ivOf (fvRoot (sq false)) (fvRoot (sq true))
  | 0x1F => ivTrig true a
  | 0x20 => ivTrig false a
  | 0x21 =>
    if modcSame a k then
      let m := k.mul (.ofInt (modcN al k))
      { lo := f32Of 2 (sumFV 2 [al, m.negate]), hi := f32Of 3 (sumFV 3 [ah, m.negate]) }
    else ivOf (k.mul .half).negate (k.mul .half)
  | 0x22 => let t := ops.getD 2 default; ivAdd a (ivMul t (ivAdd b (ivNeg a)))
  | _ => a

/-- XFORM of interval coordinates (R342). -/
def ivXform (m : List Nat) (xyz : List Iv) : List Iv :=
  (List.range 3).map fun r => ivRule xyz <|
    let term := fun (f : FV → FV → FV) (j : Nat) =>
      let k := val (m.getD (4 * r + j) 0)
      let x := xyz.getD j default
      f (k.mulS (val x.lo)) (k.mulS (val x.hi))
    let off := val (m.getD (4 * r + 3) 0)
    { lo := f32Of 2 (sumFV 2 (off :: (List.range 3).map (term FV.minS))), hi := f32Of 3 (sumFV 3 (off :: (List.range 3).map (term FV.maxS))) }

/-! ## Affine forms (R48, R49, R341) -/

/-- An affine form: c, e1 to e3, rad, as FP32 bits. -/
structure Af where
  c : Nat := 0
  e1 : Nat := 0
  e2 : Nat := 0
  e3 : Nat := 0
  rad : Nat := 0
  deriving DecidableEq, Repr, Inhabited

/-- The entire form. DEDUCED: its words besides c are 0 (log 14). -/
def Af.entire : Af := { c := pInf }
/-- The words in order. -/
def Af.words (a : Af) : List Nat := [a.c, a.e1, a.e2, a.e3, a.rad]
/-- A form from its words. -/
def Af.ofWords (l : List Nat) : Af := { c := l.getD 0 0, e1 := l.getD 1 0, e2 := l.getD 2 0, e3 := l.getD 3 0, rad := l.getD 4 0 }
/-- Whether a form reads as entire. -/
def Af.isEntire (a : Af) : Bool := a.words.any (fun w => !(val w).finite) || (val a.rad).lt .zero
/-- Σ|eᵢ|. -/
def Af.spread (a : Af) : FV := ((val a.e1).abs.add (val a.e2).abs).add (val a.e3).abs
/-- A form as an interval (R49). -/
def Af.iv (a : Af) : Iv :=
  if a.isEntire then .entire
  else
    let r := a.spread.add (val a.rad)
    { lo := f32Of 2 (sumFV 2 [val a.c, r.negate]), hi := f32Of 3 (sumFV 3 [val a.c, r]) }

/-- A form from an interval (R341). -/
def Af.ofIv (a : Iv) : Af :=
  let lo := val a.lo
  let hi := val a.hi
  if a.isNan || a.isEmpty || !lo.finite || !hi.finite then .entire
  else
    let c := f32Of 0 ((lo.add hi).mul .half)
    let x := val c
    { c := c, rad := f32Of 3 (FV.max (hi.sub x) (x.sub lo)) }

/-- An exact-linear result (R341): every word is rounded once with rne by itself, and rad takes the radii r and every rounding
error. DEDUCED: the error of a word that overflows is infinite (log 14). -/
def afLinear (c e1 e2 e3 r : FV) : Af :=
  let ws := [c, e1, e2, e3]
  let bs := ws.map (f32Of 0)
  let delta := (ws.zip bs).foldl (fun x p => x.add ((val p.2).sub p.1).abs) .zero
  { c := bs.getD 0 0, e1 := bs.getD 1 0, e2 := bs.getD 2 0, e3 := bs.getD 3 0, rad := f32Of 3 (r.add delta) }

/-- Sum and difference of forms. -/
def afAdd (a b : Af) : Af :=
  if a.isEntire || b.isEntire then .entire
  else afLinear (sumFV 0 [val a.c, val b.c]) (sumFV 0 [val a.e1, val b.e1]) (sumFV 0 [val a.e2, val b.e2]) (sumFV 0 [val a.e3, val b.e3])
    ((val a.rad).add (val b.rad))
/-- NEG of a form: c and the coefficients negated, rad kept. -/
def afNeg (a : Af) : Af := { c := f32Neg a.c, e1 := f32Neg a.e1, e2 := f32Neg a.e2, e3 := f32Neg a.e3, rad := a.rad }
/-- MUL of forms. -/
def afMul (a b : Af) : Af :=
  if a.isEntire || b.isEntire then .entire
  else
    let ca := val a.c
    let cb := val b.c
    let e := fun (x y : Nat) => sumFV 0 [ca.mul (val y), cb.mul (val x)]
    afLinear (ca.mul cb) (e a.e1 b.e1) (e a.e2 b.e2) (e a.e3 b.e3)
      (((ca.abs.mul (val b.rad)).add (cb.abs.mul (val a.rad))).add ((a.spread.add (val a.rad)).mul (b.spread.add (val b.rad))))

/-- An affine operation (R342), and which operand a MIN, MAX, SMIN or SMAX copied: true for a. -/
def afOp (code : Nat) (imm : List Nat) (ops : List Af) : Af × Option Bool :=
  let a := ops.getD 0 default
  let b := ops.getD 1 default
  let ia := a.iv
  let ib := b.iv
  let al := val ia.lo; let ah := val ia.hi; let bl := val ib.lo; let bh := val ib.hi
  let k := val (imm.getD 0 0)
  let h := val (imm.getD 1 0)
  let via := Af.ofIv (ivOp code imm (ops.map Af.iv))
  let pick := fun (ca cb : Bool) => if ca then (a, some true) else if cb then (b, some false) else (via, none)
  match code with
  | 0x10 => (afAdd a b, none)
  | 0x11 => (afAdd a (afNeg b), none)
  | 0x12 => (afMul a b, none)
  | 0x14 => (afNeg a, none)
  | 0x15 => (if FV.zero.le al then a else if ah.le .zero then afNeg a else via, none)
  | 0x16 => (afMul a a, none)
  | 0x18 => pick (ah.lt bl) (bh.lt al)
  | 0x19 => pick (bh.lt al) (ah.lt bl)
  | 0x1A => pick ((ah.add k).le bl) ((bh.add k).le al)
  | 0x1B => pick ((bh.add k).le al) ((ah.add k).le bl)
  | 0x1C => (if k.le al && ah.le h then a else if ah.le k then { c := imm.getD 0 0 } else if h.le al then { c := imm.getD 1 0 } else via, none)
  | 0x21 =>
    (if modcSame ia k then
      afLinear (sumFV 0 [val a.c, (k.mul (.ofInt (modcN al k))).negate]) (val a.e1) (val a.e2) (val a.e3) (val a.rad)
    else via, none)
  | 0x22 => (afAdd a (afMul (ops.getD 2 default) (afAdd b (afNeg a))), none)
  | _ => (via, none)

/-- XFORM of affine coordinates. -/
def afXform (m : List Nat) (xyz : List Af) : List Af :=
  (List.range 3).map fun r =>
    if xyz.any Af.isEntire then .entire
    else
      let k := fun (j : Nat) => val (m.getD (4 * r + j) 0)
      let part := fun (w : Af → Nat) => (List.range 3).map fun j => (k j).mul (val (w (xyz.getD j default)))
      afLinear (sumFV 0 (part Af.c ++ [k 3])) (sumFV 0 (part Af.e1)) (sumFV 0 (part Af.e2)) (sumFV 0 (part Af.e3))
        ((List.range 3).foldl (fun x j => x.add ((k j).abs.mul (val (xyz.getD j default).rad))) .zero)

/-! ## Point mode (R340, R342) -/

/-- A point operation on FP32 bits: the exact result rounded once with rne. -/
def ptOp (code : Nat) (imm : List Nat) (ops : List Nat) : Nat :=
  let a := ops.getD 0 0
  let b := ops.getD 1 0
  let x := val a
  let y := val b
  let k := val (imm.getD 0 0)
  let r := fun (e : Exact) => (f32.round 0 0 false e).bits
  match code with
  | 0x10 => r (fvAdd 0 x y).x
  | 0x11 => r (fvAdd 0 x y.negate).x
  | 0x12 => r (fvMul x y).x
  | 0x13 => r (fvDiv x y).x
  | 0x14 => if x.isNan then cNaN else f32Neg a
  | 0x15 => if x.isNan then cNaN else a % 2 ^ 31
  | 0x16 => r (fvMul x x).x
  | 0x17 => r (fvSqrt x).x
  | 0x18 => (fmtMinMax f32 false a b).bits
  | 0x19 => (fmtMinMax f32 true a b).bits
  | 0x1A => f32Of 0 (if !x.finite && x = y then x.sub y else smooth 0 false x y k)
  | 0x1B => f32Of 0 (if !x.finite && x = y then x.sub y else smooth 0 true x y k)
  | 0x1C => if x.isNan then cNaN else (fmtMinMax f32 false (fmtMinMax f32 true a (imm.getD 0 0)).bits (imm.getD 1 0)).bits
  | 0x1D | 0x1E =>
    let sq := (ops.map fun o => (val o).mul (val o)).foldl FV.add .zero
    f32Of 0 (fvRoot sq)
  | 0x1F => r (fvSin x).x
  | 0x20 => r (fvCos x).x
  | 0x21 => if !x.finite then cNaN else f32Of 0 (sumFV 0 [x, (k.mul (.ofInt (modcN x k))).negate])
  | 0x22 => f32Of 0 (sumFV 0 [x, (val (ops.getD 2 0)).mul (y.sub x)])
  | _ => a

/-- XFORM of a point. -/
def ptXform (m : List Nat) (xyz : List Nat) : List Nat :=
  (List.range 3).map fun r =>
    f32Of 0 (sumFV 0 (((List.range 3).map fun j => (val (m.getD (4 * r + j) 0)).mul (val (xyz.getD j 0))) ++ [val (m.getD (4 * r + 3) 0)]))

end Sys2Proof.Machine
end

