-- ==== Sys2Proof/Machine/Field.lean ====
section
/-! DEFINITION. Leaves, brick maps, field bytecode and its evaluation, and sdfe, sdfprune and bsample (R334 to R348,
R372). -/

namespace Sys2Proof.Machine

/-! ## Leaves (R334) -/

/-- Fields of a leaf's 16-byte header. -/
def leafKind (h : Nat) : Nat := natBits h 0 4
def leafVst (h : Nat) : Nat := natBits h 8 8
def leafShidx (h : Nat) : Nat := natBits h 16 24
def leafLen (h : Nat) : Nat := natBits h 64 32
/-- Whether a header keeps R334: a known kind, and every reserved field 0. -/
def leafOk (h : Nat) : Bool :=
  1 ≤ leafKind h && leafKind h ≤ 4 && natBits h 4 4 = 0 && natBits h 40 24 = 0 && natBits h 96 32 = 0

/-! ## Brick maps (R336, R337) -/

/-- A brick map's header. -/
structure BrickMap where
  org : List FV
  vox : FV
  dims : List Nat
  n : Nat
  empty : FV
  map : Nat
  pool : Nat

/-- Read a brick map at a leaf; none when the leaf is not BRICKS, its header breaks R334, or its map is broken. -/
def readBrick (core ctx leaf : Nat) : Rd (Option BrickMap) := do
  let h ← engineNat core ctx .m leaf 16
  if !(leafOk h && leafKind h = 2 && leafLen h = 48) then return none
  let b ← engineNat core ctx .m (leaf + 16) 48
  let m : BrickMap :=
    { org := (List.range 3).map fun i => val (natBits b (32 * i) 32)
      vox := val (natBits b 96 32)
      dims := [natBits b 128 16, natBits b 144 16, natBits b 160 16]
      n := if natBits b 176 1 = 1 then 8 else 4
      empty := f16.read (natBits b 192 16)
      map := natBits b 256 52
      pool := natBits b 320 52 }
  let ok := natBits b 177 15 = 0 && natBits b 208 48 = 0 && natBits b 308 12 = 0 && natBits b 372 12 = 0 &&
    m.org.all FV.finite && m.vox.finite && FV.zero.lt m.vox && m.dims.all (· != 0) && m.map % 4 = 0 && m.pool % 128 = 0
  return if ok then some m else none

/-- The index of a brick; none for an empty one. -/
def BrickMap.index (m : BrickMap) (core ctx : Nat) (b : List Nat) : Rd (Option Nat) := do
  let i := b.getD 0 0 + m.dims.getD 0 0 * (b.getD 1 0 + m.dims.getD 1 0 * b.getD 2 0)
  let q ← engineNat core ctx .m (m.map + 4 * i) 4
  return if q = 0xFFFFFFFF then none else some q
/-- Sample (i, j, k) of brick q. -/
def BrickMap.sample (m : BrickMap) (core ctx q : Nat) (c : List Nat) : Rd FV := do
  let o := c.getD 0 0 + m.n * c.getD 1 0 + m.n * m.n * c.getD 2 0
  return f16.read (← sampleNat core ctx (m.pool + q * (2 * m.n ^ 3) + 2 * o) 2)

/-- Grid coordinate of an axis, and the number of cells on it. -/
def BrickMap.grid (m : BrickMap) (a : Nat) (p : FV) : FV := (p.sub (m.org.getD a .zero)).div m.vox
def BrickMap.cells (m : BrickMap) (a : Nat) : Nat := (m.n - 1) * m.dims.getD a 0

/-- Where a point falls: a NaN coordinate, outside the map or in an empty brick, or in a cell with its eight corner samples
(corner i has bits x, y, z of i) and local coordinates. -/
inductive Located where
  | nan
  | empty
  | cell (corners : List FV) (local_ : List FV)

/-- Locate a point in the map (R337). -/
def BrickMap.locate (m : BrickMap) (core ctx : Nat) (p : List FV) : Rd Located := do
  if p.any FV.isNan then return .nan
  let g := (List.range 3).map fun a => m.grid a (p.getD a .zero)
  let inside := (List.range 3).all fun a => FV.zero.le (g.getD a .zero) && (g.getD a .zero).le (.ofInt (m.cells a))
  if !inside then return .empty
  let c := (List.range 3).map fun a => min (g.getD a .zero).floor.toNat (m.cells a - 1)
  match ← m.index core ctx (c.map (· / (m.n - 1))) with
  | none => return .empty
  | some q =>
    let ss ← (List.range 8).mapM fun i =>
      m.sample core ctx q ((List.range 3).map fun a => c.getD a 0 % (m.n - 1) + i / 2 ^ a % 2)
    return .cell ss ((List.range 3).map fun a => (g.getD a .zero).sub (.ofInt (c.getD a 0)))

/-- The interpolant of R337, or its derivative on an axis (R372), before the division by VOX: a corner of weight 0 does not
count. -/
def trilinear (ss us : List FV) (axis : Option Nat) : FV :=
  let one : FV := .fin false 1 1
  let terms := (List.range 8).filterMap fun i =>
    let w := (List.range 3).foldl (fun w a =>
      let up := i / 2 ^ a % 2 = 1
      let u := us.getD a .zero
      w.mul (if axis = some a then (if up then one else one.negate) else if up then u else one.sub u)) one
    if w.isZero then none else some (w.mul (ss.getD i .zero))
  sumFV 0 terms

/-- The point value (R337). -/
def BrickMap.point (m : BrickMap) (core ctx : Nat) (p : List Nat) : Rd Nat := do
  match ← m.locate core ctx (p.map val) with
  | .nan => return cNaN
  | .empty => return f32Of 0 m.empty
  | .cell ss us => return if ss.any FV.isNan then cNaN else f32Of 0 (trilinear ss us none)

/-- The four results of bsample (R372). -/
def BrickMap.gradient (m : BrickMap) (core ctx : Nat) (p : List Nat) : Rd (List Nat) := do
  match ← m.locate core ctx (p.map val) with
  | .nan => return List.replicate 4 cNaN
  | .empty => return [f32Of 0 m.empty, 0, 0, 0]
  | .cell ss us =>
    return if ss.any FV.isNan then List.replicate 4 cNaN
    else f32Of 0 (trilinear ss us none) :: (List.range 3).map fun a => f32Of 0 ((trilinear ss us (some a)).div m.vox)

/-- Cells that a closed box meets on an axis: first and past the last; cells are taken closed. -/
def BrickMap.cellRange (m : BrickMap) (a : Nat) (lo hi : FV) : Nat × Nat :=
  let gl := m.grid a lo
  let gh := m.grid a hi
  let first := if gl.finite then (gl.ceil - 1).toNat else 0
  let last := if gh.finite then min ((gh.floor + 1).toNat) (m.cells a) else m.cells a
  (first, last)

/-- Every cell of three ranges, as bricks with the cells of them that lie within. -/
def rangeFrom (a b : Nat) : List Nat := (List.range (b - a)).map (· + a)

/-- The value over a box (R337). -/
def BrickMap.box (m : BrickMap) (core ctx : Nat) (xyz : List Iv) : Rd Iv := do
  if xyz.any Iv.isNan then return .entire
  if xyz.any Iv.isEmpty then return .empty
  let n1 := m.n - 1
  let bound (a : Nat) : FV × FV := let i := xyz.getD a default; (val i.lo, val i.hi)
  let outside := (List.range 3).any fun a =>
    (m.grid a (bound a).1).lt .zero || (FV.ofInt (m.cells a)).lt (m.grid a (bound a).2)
  let rs := (List.range 3).map fun a => m.cellRange a (bound a).1 (bound a).2
  let r (a : Nat) : Nat × Nat := rs.getD a (0, 0)
  let bricks := if rs.any (fun r => r.2 ≤ r.1) then [] else
    (rangeFrom ((r 2).1 / n1) (((r 2).2 - 1) / n1 + 1)).flatMap fun bz =>
    (rangeFrom ((r 1).1 / n1) (((r 1).2 - 1) / n1 + 1)).flatMap fun by_ =>
    (rangeFrom ((r 0).1 / n1) (((r 0).2 - 1) / n1 + 1)).map fun bx => [bx, by_, bz]
  let vals ← bricks.mapM fun b => do
    match ← m.index core ctx b with
    | none => return [m.empty]
    | some q =>
      let span (a : Nat) : List Nat :=
        let o := b.getD a 0 * n1
        rangeFrom (max (r a).1 o - o) (min (r a).2 (o + n1) - o + 1)
      ((span 2).flatMap fun k => (span 1).flatMap fun j => (span 0).map fun i => [i, j, k]).mapM (m.sample core ctx q)
  let all := (if outside then [m.empty] else []) ++ vals.flatten
  return if all.any FV.isNan then .entire else { lo := f32Of 2 (minOf all), hi := f32Of 3 (maxOf all) }

/-! ## Programs (R339, R342, R343) -/

/-- One operation of a program: where it lies, its opcode, its size in bytes, and its immediates. -/
structure FOp where
  off : Nat
  code : Nat
  size : Nat
  imm : List Nat
  deriving DecidableEq, Repr, Inhabited

/-- Whether an opcode is one of R342. -/
def opKnown (c : Nat) : Bool := c ≤ 8 || (0x10 ≤ c && c ≤ 0x22) || c = 0x30 || c = 0x31 || c = 0x38 || c = 0x39 || c = 0x3F
/-- Bytes of an opcode's immediates (R339). -/
def immBytes (c : Nat) : Nat :=
  match c with
  | 0x04 | 0x1A | 0x1B | 0x21 => 4
  | 0x1C | 0x38 => 8
  | 0x30 => 48
  | 0x39 => 3
  | _ => 0
/-- Entries an operation pops and pushes. -/
def opArity (c : Nat) : Nat × Nat :=
  match c with
  | 0x00 => (1, 0)
  | 0x01 | 0x02 | 0x03 | 0x04 | 0x38 | 0x39 => (0, 1)
  | 0x05 => (1, 2)
  | 0x06 => (2, 2)
  | 0x07 => (1, 0)
  | 0x08 => (2, 3)
  | 0x10 | 0x11 | 0x12 | 0x13 | 0x18 | 0x19 | 0x1A | 0x1B | 0x1D => (2, 1)
  | 0x1E | 0x22 => (3, 1)
  | 0x30 | 0x31 | 0x3F => (0, 0)
  | _ => (1, 1)

/-- Where a program's bytes come from: memory from an address, or row 0 of a tile, whose poisoned words are named. -/
inductive Src where
  | mem (addr : Nat)
  | tile (bytes : List Byte) (bad : List Nat)

/-- Bytes of a program. -/
def Src.read (core ctx : Nat) (src : Src) (off n : Nat) : Rd (List Byte) :=
  match src with
  | .mem a => engineBytes core ctx .m (a + off) n
  | .tile b bad =>
    if bad.any (fun w => off < 4 * w + 4 && 4 * w < off + n) then throw { cause := cPOISON, einfo := 3 }
    else return (b.drop off).take n

/-- Immediates as numbers: FP32 words, an address, or a shader index. -/
def immWords (c : Nat) (b : List Byte) : List Nat :=
  if c = 0x38 || c = 0x39 then [leNat b] else (List.range (b.length / 4)).map fun i => leNat ((b.drop (4 * i)).take 4)

/-- Read the operation at an offset; none past the bytes that may hold it, or for a reserved opcode (rules 1 and 2). -/
def readOp (core ctx : Nat) (src : Src) (len off : Nat) : Rd (Option FOp) := do
  if off ≥ min len 4096 then return none
  let c := leNat (← src.read core ctx off 1)
  if !opKnown c || off + 1 + immBytes c > len then return none
  let b ← src.read core ctx (off + 1) (immBytes c)
  return some { off := off, code := c, size := 1 + immBytes c, imm := immWords c b }

/-- Rules 3 to 6 of R343 before an operation, at a depth and with open frames. -/
def opOk (core ctx : Nat) (op : FOp) (depth frames : Nat) : Rd Bool := do
  let a := opArity op.code
  let k := val (op.imm.getD 0 0)
  let depthOk := a.1 ≤ depth && depth - a.1 + a.2 ≤ 32 && (op.code != 0 || depth = 1)
  let frameOk := (op.code != 0x31 || frames > 0) && (op.code != 0x30 || frames < 8)
  let immOk := match op.code with
    | 0x04 | 0x30 => op.imm.all fun w => (val w).finite
    | 0x1C => op.imm.all (fun w => (val w).finite) && k.le (val (op.imm.getD 1 0))
    | 0x1A | 0x1B | 0x21 => k.finite && FV.zero.lt k
    | 0x38 => op.imm.getD 0 0 % 16 = 0 && op.imm.getD 0 0 < 2 ^ 52
    | _ => true
  if !(depthOk && frameOk && immOk) then return false
  if op.code = 0x38 then return leafKind (← engineNat core ctx .m (op.imm.getD 0 0) 16) = 2
  return true

/-- Read a program operation by operation, checking each, and do step with each: none when a check fails. -/
def scan {σ : Type} (core ctx : Nat) (src : Src) (len : Nat) (step : FOp → σ → Rd σ) : Nat → Nat → Nat → Nat → σ → Rd (Option σ)
  | 0, _, _, _, _ => return none
  | fuel + 1, off, depth, frames, x => do
    match ← readOp core ctx src len off with
    | none => return none
    | some op =>
      if !(← opOk core ctx op depth frames) then return none
      let y ← step op x
      if op.code = 0 then return some y
      let a := opArity op.code
      scan core ctx src len step fuel (off + op.size) (depth - a.1 + a.2)
        (if op.code = 0x30 then frames + 1 else if op.code = 0x31 then frames - 1 else frames) y

/-- The operations of a valid program, in order; none for a rejected one (R343). -/
def readProgram (core ctx : Nat) (src : Src) (len : Nat) : Rd (Option (List FOp)) := do
  return (← scan core ctx src len (fun op l => return op :: l) 4097 0 0 0 []).map List.reverse

/-! ## Evaluation (R338, R340 to R342) -/

/-- Modes of evaluation. -/
inductive EvMode where
  | point | interval | affine
  deriving DecidableEq, Repr

/-- The evaluation machine: stack entries and coordinates as words of their mode, saved coordinates, and the nodes whose
affine result copied an operand (true for a). -/
structure Ev where
  stack : List (List Nat) := []
  xyz : List (List Nat)
  frames : List (List (List Nat)) := []
  marks : List (Nat × Bool) := []
  deriving Inhabited

def ivWords (a : Iv) : List Nat := [a.lo, a.hi]
def ivOfWords (l : List Nat) : Iv := { lo := l.getD 0 0, hi := l.getD 1 0 }

/-- The value of a brick map (R337, R342): a broken one gives the canonical NaN, or entire. -/
def brickValue (core ctx : Nat) (mode : EvMode) (m : Option BrickMap) (xyz : List (List Nat)) : Rd (List Nat) := do
  match mode with
  | .point => match m with
    | none => return [cNaN]
    | some m => return [← m.point core ctx (xyz.map fun w => w.getD 0 0)]
  | .interval => match m with
    | none => return ivWords .entire
    | some m => return ivWords (← m.box core ctx (xyz.map ivOfWords))
  | .affine => match m with
    | none => return Af.entire.words
    | some m => return (Af.ofIv (← m.box core ctx (xyz.map fun w => (Af.ofWords w).iv))).words

/-- BRICK (R342). -/
def evBrick (core ctx : Nat) (mode : EvMode) (leaf : Nat) (xyz : List (List Nat)) : Rd (List Nat) := do
  brickValue core ctx mode (← readBrick core ctx leaf) xyz

/-- Coordinates under XFORM. -/
def evXform (mode : EvMode) (m : List Nat) (xyz : List (List Nat)) : List (List Nat) :=
  match mode with
  | .point => (ptXform m (xyz.map fun w => w.getD 0 0)).map fun x => [x]
  | .interval => (ivXform m (xyz.map ivOfWords)).map ivWords
  | .affine => (afXform m (xyz.map Af.ofWords)).map Af.words

/-- What CALL pushes outside a CALL leaf (R342). -/
def evCall : EvMode → List Nat
  | .point => [cNaN] | .interval => ivWords .entire | .affine => Af.entire.words
/-- What CONST pushes. -/
def evConst (mode : EvMode) (v : Nat) : List Nat :=
  match mode with
  | .point => [v] | .interval => [v, v] | .affine => [v, 0, 0, 0, 0]

/-- A coordinate as pushed: in point mode a NaN is the canonical one (R30, R340). -/
def evCoord (mode : EvMode) (w : List Nat) : List Nat :=
  if mode = .point then w.map fun x => if (val x).isNan then cNaN else x else w

/-- One operation (R342). -/
def evStep (core ctx : Nat) (mode : EvMode) (op : FOp) (e : Ev) : Rd Ev := do
  let top := e.stack.getD 0 []
  match op.code with
  | 0x00 | 0x3F => return e
  | 0x01 | 0x02 | 0x03 => return { e with stack := evCoord mode (e.xyz.getD (op.code - 1) []) :: e.stack }
  | 0x04 => return { e with stack := evConst mode (op.imm.getD 0 0) :: e.stack }
  | 0x05 => return { e with stack := top :: e.stack }
  | 0x06 => return { e with stack := e.stack.getD 1 [] :: top :: e.stack.drop 2 }
  | 0x07 => return { e with stack := e.stack.drop 1 }
  | 0x08 => return { e with stack := e.stack.getD 1 [] :: e.stack }
  | 0x30 => return { e with frames := e.xyz :: e.frames, xyz := evXform mode op.imm e.xyz }
  | 0x31 => return { e with frames := e.frames.drop 1, xyz := e.frames.headD e.xyz }
  | 0x38 => return { e with stack := (← evBrick core ctx mode (op.imm.getD 0 0) e.xyz) :: e.stack }
  | 0x39 => return { e with stack := evCall mode :: e.stack }
  | c =>
    let n := (opArity c).1
    let args := (e.stack.take n).reverse
    let rest := e.stack.drop n
    match mode with
    | .point => return { e with stack := [ptOp c op.imm (args.map fun w => w.getD 0 0)] :: rest }
    | .interval => return { e with stack := ivWords (ivOp c op.imm (args.map ivOfWords)) :: rest }
    | .affine =>
      let r := afOp c op.imm (args.map Af.ofWords)
      return { e with stack := r.1.words :: rest, marks := match r.2 with | some a => (op.off, a) :: e.marks | none => e.marks }

/-- The result of a list of operations. -/
def evRun (core ctx : Nat) (mode : EvMode) (ops : List FOp) (xyz : List (List Nat)) : Rd Ev :=
  ops.foldlM (fun e op => evStep core ctx mode op e) { xyz := xyz }

/-! ## sdfe (R345) -/

/-- The active mask of a format-K instruction. -/
def fkMask (f : FK) (g : Group) : W32 := g.active f.pred 0

/-- Row 0 of a tile as bytes. -/
def Tile.rowBytes (t : Tile) : List Byte :=
  ((List.range t.rowWords).flatMap fun k => leBytes 4 (t.word k).1.toNat).take t.cols

/-- The source of a program: a .n8 scratchpad tile, or a FIELD leaf, whose header gives LEN; none for another kind. -/
def progSource (core ctx : Nat) (tile : Option Tile) (addr : Nat) : Rd (Option (Src × Nat)) := do
  match tile with
  | some t => return some (.tile t.rowBytes t.poison, t.cols)
  | none =>
    let h ← engineNat core ctx .m addr 16
    return if leafKind h = 1 then some (.mem (addr + 16), leafLen h) else none

/-- The operations of the program that sdfe or sdfprune names; none when it is rejected. -/
def namedProgram (core ctx : Nat) (tile : Option Tile) (addr : Nat) : Rd (Option (List FOp)) := do
  match ← progSource core ctx tile addr with
  | none => return none
  | some (src, len) => readProgram core ctx src len

/-- The result words of sdfe in a lane. -/
def sdfeLane (core ctx : Nat) (iv : Bool) (ops : Option (List FOp)) (xyz : List (List Nat)) : Rd (List Nat) := do
  match ops with
  | none => return if iv then ivWords .entire else [cNaN]
  | some ops =>
    let e ← evRun core ctx (if iv then .interval else .point) ops xyz
    let w := e.stack.getD 0 []
    return if iv then ivWords (ivOfWords w).canon else w

/-- A scratchpad tile of 8-bit unsigned elements, or TILESTATE for the lanes given. -/
def withByteTile (s : State) (h : W64) (m : W32) (k : Tile → Res) : Res := withTile s h m (fun t => !t.isGlobal && t.ty == 4) k
/-- The optional source tile that MODE[2] names. -/
def withSource (s : State) (f : FK) (m : W32) (k : Option Tile → Res) : Res :=
  if f.mode.getLsbD 2 then withByteTile s (s.g.sget f.sa) m fun t => k (some t)
  else if (s.g.sget f.sa).toNat % 16 != 0 then .trap { cause := cALIGN, elanes := m, eaddr := s.g.sget f.sa } s
  else k none

/-- SDFE (R345). -/
def execSdfe (f : FK) (s : State) : Out :=
  let g := s.g
  let m := fkMask f g
  let iv := f.mode.getLsbD 0
  let reg (k i : Nat) : Nat := (g.vget (f.va + BitVec.ofNat 8 k) i).toNat
  let coords (i : Nat) : List (List Nat) :=
    (List.range 3).map fun a => if iv then [reg (2 * a) i, reg (2 * a + 1) i] else [reg a i]
  let items := (List.range (if iv then 6 else 3)).flatMap fun k => g.vitems false m (f.va + BitVec.ofNat 8 k)
  settle <| if m = 0 then .next s
    else orTrap (readPoison g (g.sitem f.sa :: items)) s <| withSource s f m fun t =>
      let run : Rd (List (Nat × List Nat)) := do
        let ops ← namedProgram g.core g.ctx t (g.sget f.sa).toNat
        eachLane (activeLanes m) fun i => sdfeLane g.core g.ctx iv ops (coords i)
      match run.once.at s with
      | (.error t, s) => .trap (t.lanes_ m) s
      | (.ok rs, s) =>
        let word (k i : Nat) : Nat := ((rs.find? (·.1 = i)).map fun r => r.2.getD k 0).getD 0
        let s := s.setV false f.vd m (word 0)
        .next (if iv then s.setV false (f.vd + 1) m (word 1) else s)

/-! ## sdfprune (R346 to R348) -/

/-- Net stack effect +1, never below the start, XFORM and XPOP balanced: whether a run of operations is self-contained. -/
def selfContained : List FOp → Nat → Nat → Bool
  | [], depth, frames => depth = 1 && frames = 0
  | op :: r, depth, frames =>
    let a := opArity op.code
    a.1 ≤ depth && (op.code != 0x31 || frames > 0) &&
    selfContained r (depth - a.1 + a.2) (if op.code = 0x30 then frames + 1 else if op.code = 0x31 then frames - 1 else frames)

/-- The start of the shortest self-contained run that ends just before operation number e. -/
def runBefore (ops : List FOp) : Nat → Nat → Option Nat
  | 0, _ => none
  | i + 1, e => if selfContained ((ops.take e).drop i) 0 0 then some i else runBefore ops i e

/-- The range a marked node's dominated side takes, as operation numbers, first and past the last. -/
def dominated (ops : List FOp) (j : Nat) (copiedA : Bool) : Option (Nat × Nat) :=
  match runBefore ops j j with
  | none => none
  | some b => if copiedA then some (b, j) else (runBefore ops b b).map fun a => (a, b)

/-- Operation numbers deleted, and the nodes counted (R347 steps 2 to 4): marked nodes from the last to the first. -/
def pruneMarks (ops : List FOp) : List (Nat × Bool) → List Nat × Nat → List Nat × Nat
  | [], acc => acc
  | (j, a) :: r, (del, n) =>
    if del.contains j then pruneMarks ops r (del, n)
    else match dominated ops j a with
      | none => pruneMarks ops r (del, n)
      | some (x, y) => pruneMarks ops r (j :: rangeFrom x y ++ del, n + 1)

/-- The bytes of an operation. -/
def FOp.bytes (op : FOp) : List Byte :=
  BitVec.ofNat 8 op.code ::
    (if op.code = 0x38 then leBytes 8 (op.imm.getD 0 0) else if op.code = 0x39 then leBytes 3 (op.imm.getD 0 0)
     else op.imm.flatMap (leBytes 4))

/-- The output program and the number of nodes deleted. marks come latest first, as evaluation leaves them. -/
def prune (ops : List FOp) (marks : List (Nat × Bool)) : List Byte × Nat :=
  let numbered := marks.filterMap fun m => (ops.findIdx? (fun o => o.off = m.1)).map fun j => (j, m.2)
  let d := pruneMarks ops numbered ([], 0)
  (((List.range ops.length).filter (fun j => !d.1.contains j)).flatMap (fun j => (ops.getD j default).bytes), d.2)

/-- Write bytes to row 0 of a tile, the rest of the last word 0; each word becomes full. -/
def Tile.putRow0 (t : Tile) (b : List Byte) : Tile :=
  (List.range ((b.length + 3) / 4)).foldl (fun t k => t.putWord k (BitVec.ofNat 32 (leNat ((b.drop (4 * k)).take 4))) true) t

/-- SDFPRUNE (R346 to R348). The length of a rejected source is a free value (log 15). -/
def execSdfprune (f : FK) (s : State) : Out :=
  let g := s.g
  let form (a : Nat) : List Nat := (List.range 5).map fun w => (g.vget f.va (5 * a + w)).toNat
  settle <| orTrap (readPoison g ([g.sitem f.sa, g.sitem f.sb] ++ g.vitems false 0x7FFF f.va)) s <|
    withSource s f 0 fun t => withByteTile s (g.sget f.sb) 0 fun d =>
      let run : Rd (List Nat × Option (List Byte)) := do
        match ← namedProgram g.core g.ctx t (g.sget f.sa).toNat with
        | none => return ([cNaN, 0, 0, 0, 0, (Config.freeWord s.fresh).toNat, 1, 0], none)
        | some ops =>
          let e ← evRun g.core g.ctx .affine ops [form 0, form 1, form 2]
          let out := prune ops e.marks
          let fits := out.1.length ≤ d.cols
          return (e.stack.getD 0 [] ++ [out.1.length, if fits then 0 else 2, out.2], if fits then some out.1 else none)
      match run.once.at s with
      | (.error t, s) => .trap t s
      | (.ok (ws, out), s) =>
        let s := { s with fresh := s.fresh + 1 }
        let s := s.setV false f.vd 0xFF fun i => ws.getD i 0
        .next (match out with
          | none => s
          | some b => s.mapTile d.core d.idx fun t => (t.putRow0 b).norm)

/-! ## bsample (R372) -/

/-- BSAMPLE (R372). -/
def execBsample (f : FK) (s : State) : Out :=
  let g := s.g
  let m := fkMask f g
  let addr := (g.sget f.sa).toNat
  let items := (List.range 3).flatMap fun k => g.vitems false m (f.va + BitVec.ofNat 8 k)
  let point (i : Nat) : List Nat := (List.range 3).map fun k => (g.vget (f.va + BitVec.ofNat 8 k) i).toNat
  settle <| if m = 0 then .next s
    else orTrap (readPoison g (g.sitem f.sa :: items)) s <|
    orTrap (trapIf (addr % 16 != 0) { cause := cALIGN, elanes := m, eaddr := g.sget f.sa }) s <|
      let run : Rd (List (Nat × List Nat)) := do
        let b ← readBrick g.core g.ctx addr
        eachLane (activeLanes m) fun i => do
          match b with
          | none => return List.replicate 4 cNaN
          | some b => b.gradient g.core g.ctx (point i)
      match run.once.at s with
      | (.error t, s) => .trap (t.lanes_ m) s
      | (.ok rs, s) =>
        let word (k i : Nat) : Nat := ((rs.find? (·.1 = i)).map fun r => r.2.getD k 0).getD 0
        .next ((List.range 4).foldl (fun s k => s.setV false (f.vd + BitVec.ofNat 8 k) m (word k)) s)

end Sys2Proof.Machine
end

