-- ==== Sys2Proof/Machine/Ray.lean ====
section
/-! DEFINITION. Rays and the marcher: march, mres, mresume, mcancel, and one step of a ray (R330 to R333, R350 to R371). -/

namespace Sys2Proof.Machine

/-! ## Frames and boxes (R331 to R333, R355) -/

/-- FP32 word n of a record, as a value. -/
def recF (r n : Nat) : FV := val (natBits r (32 * n) 32)
/-- Fields of an instance record (R333). -/
def instInv (r : Nat) : List Nat := (List.range 12).map fun k => natBits r (384 + 32 * k) 32
def instRoot (r : Nat) : Nat := natBits r 768 52
def instLbase (r : Nat) : Nat := natBits r 832 52
def instSbt (r : Nat) : Nat := natBits r 896 52
def instMask (r : Nat) : Nat := natBits r 960 8
def instSkip (r : Nat) : Bool := natBits r 968 1 = 1
def instCull (r : Nat) : Bool := natBits r 969 1 = 1
def instId (r : Nat) : Nat := natBits r 992 32

/-- Origin and direction of a ray in a frame: the world, or an instance's, each component rounded once (R355). -/
def rayFrame (r : Ray) (inst : Option Nat) : List Nat × List Nat :=
  let o := r.o.map BitVec.toNat
  let d := r.d.map BitVec.toNat
  match inst with
  | none => (o, d)
  | some rec_ =>
    let m := instInv rec_
    (ptXform m o, (List.range 3).map fun a =>
      f32Of 0 (sumFV 0 ((List.range 3).map fun j => (val (m.getD (4 * a + j) 0)).mul (val (d.getD j 0)))))

/-- q·2^e as a value. -/
def scaled (q : Nat) (e : Int) : FV := let d := dyadic q e; .fin false d.1 d.2

/-- Bounds of child j of a node on axis a; none when the child's box is empty there (R332). -/
def childAxis (node j a : Nat) : Option (FV × FV) :=
  let e := (BitVec.ofNat 8 (natBits node (96 + 8 * a) 8)).toInt
  let lo := natBits node (128 + 48 * j + 8 * a) 8
  let hi := natBits node (128 + 48 * j + 24 + 8 * a) 8
  if hi < lo then none
  else some (val (f32Of 2 ((recF node a).add (scaled lo e))), val (f32Of 3 ((recF node a).add (scaled hi e))))

/-- Entry and exit of a ray on one axis, or none when it admits no t; an axis that admits every t gives NaNs, which bound
nothing. -/
def slabAxis (o d : FV) (box : FV × FV) : Option (FV × FV) :=
  let at_ (x : FV) : FV := (x.sub o).div d
  if FV.zero.lt d then some (val (f32Of 2 (at_ box.1)), val (f32Of 3 (at_ box.2)))
  else if d.lt .zero then some (val (f32Of 2 (at_ box.2)), val (f32Of 3 (at_ box.1)))
  else if d.isNan || (box.1.le o && o.le box.2) then some (.nan false, .nan false)
  else none

/-- The span of child j, clipped to [tmin, tb]; none when it is empty. -/
def childSpan (node j : Nat) (fr : List Nat × List Nat) (tmin tb : FV) : Option (FV × FV) :=
  let axes := (List.range 3).map fun a => (childAxis node j a).bind (slabAxis (val (fr.1.getD a 0)) (val (fr.2.getD a 0)))
  if axes.any Option.isNone then none
  else
    let e := axes.foldl (fun x a => match a with | some p => x.max p.1 | none => x) tmin
    let x := axes.foldl (fun x a => match a with | some p => x.min p.2 | none => x) tb
    if e.le x then some (e, x) else none

/-! ## Work (R356) -/

/-- A 32-bit word of a value that FP32 holds. -/
def w32F (x : FV) : W32 := BitVec.ofNat 32 (f32Of 0 x)
/-- The value of a word. -/
def wval (w : W32) : FV := val w.toNat

/-- The entry of a piece of work. -/
def RayWork.entry : RayWork → FV
  | .node _ _ _ e => wval e | .instance_ _ e => wval e | .leaf _ _ _ e _ => wval e

/-- Insert work by ascending entry, after equal entries. -/
def insertWork (w : RayWork) : List RayWork → List RayWork
  | [] => [w]
  | v :: r => if w.entry.lt v.entry then w :: v :: r else v :: insertWork w r

/-- The work of a node's children, nearest first. lbase: LBASE of the frame's instance. -/
def nodeWork (r : Ray) (node : Nat) (inst : Option Nat) (lbase : Nat) (top : Bool) (fr : List Nat × List Nat) : List RayWork :=
  (List.range 4).foldl (fun l j =>
    let kind := natBits node (120 + 2 * j) 2
    let idx := natBits node (384 + 32 * j) 32
    match childSpan node j fr (wval r.tmin) (wval r.tb) with
    | none => l
    | some (e, x) =>
      if kind = 1 then insertWork (.node (natBits node 320 52 + 64 * idx) inst top (w32F e)) l
      else if kind = 2 then
        if top then (if idx < r.ninst then insertWork (.instance_ (r.ibase + 128 * idx) (w32F e)) l else l)
        else insertWork (.leaf (lbase + 16 * idx) inst idx (w32F e) (w32F x)) l
      else l) []

/-- What one step of a ray comes to: it goes on, lands a record and ends, or lands a CALL record and waits. -/
inductive RayOut where
  | go (r : Ray)
  | land (words : List Nat)
  | suspend (r : Ray) (words : List Nat)

/-- Records of R353. -/
def hitRec (h : Hit) : List Nat := [h.t.toNat, h.id.toNat, h.prim.toNat, 0x01000000 + h.shidx]
def missRec (tmax : W32) : List Nat := [tmax.toNat, 0xFFFFFFFF, 0xFFFFFFFF, 0x02000000]
def callRec (lo hi : W32) (id shidx : Nat) : List Nat := [lo.toNat, id, hi.toNat, 0x03000000 + shidx]
def errRec (code : Nat) (w0 w1 w2 : Nat := 0) : List Nat := [w0, w1, w2, 0x04000000 + code]
def eBADBC : Nat := 1
def eBADIDX : Nat := 2
def eBADSCENE : Nat := 3
def eFAULT : Nat := 4
def eSTEPCAP : Nat := 5
def eCANCELLED : Nat := 6
def eBADRAY : Nat := 7

/-! ## The shader table (R362) -/

/-- What the shader entry of a leaf says. -/
inductive Shader where
  | proceed | null | badIdx

/-- Do a write that a failure only drops. -/
def dropped (x : Rd Unit) : Rd Unit := ExceptT.mk fun s => (.ok (), (x.at s).2)

/-- Read entry k of a table; a null entry adds 1 to NULLS, which stops at all ones. -/
def shaderEntry (core ctx sbt k : Nat) : Rd Shader := do
  let h ← engineNat core ctx .m sbt 8
  if k ≥ natBits h 0 32 then return .badIdx
  if (← engineNat core ctx .m (sbt + 8 + 8 * k) 8) != 0 then return .proceed
  let n := natBits h 32 32
  dropped (engineStore core ctx { AccSpec.merge 1 with cls := .m, align := none, reads := false } (sbt + 4)
    (leBytes 4 (if n = 2 ^ 32 - 1 then n else n + 1)))
  return .null

/-- Whether a candidate at t passes the tests of R356 that precede its shader entry. -/
def Ray.admits (r : Ray) (t : FV) : Bool :=
  (wval r.tmin).le t && t.le (wval r.tb) && (r.best.isNone || t.lt (wval r.tb))

/-- What offering a candidate comes to. -/
inductive Offered where
  | passed (r : Ray)
  | accepted (r : Ray)
  | null
  | badIdx

/-- Offer a candidate (R356, R362). -/
def offer (core ctx : Nat) (r : Ray) (rec_ t prim shidx : Nat) : Rd Offered := do
  if !r.admits (val t) then return .passed r
  match ← shaderEntry core ctx (instSbt rec_) shidx with
  | .badIdx => return .badIdx
  | .null => return .null
  | .proceed =>
    let h : Hit := { t := BitVec.ofNat 32 t, id := BitVec.ofNat 32 (instId rec_), prim := BitVec.ofNat 32 prim, shidx := shidx }
    return .accepted { r with best := some h, tb := h.t }

/-! ## Triangles (R360, R361) -/

/-- The projected vertex: X, Y, Z. -/
structure Projected where
  x : FV
  y : FV
  z : FV

/-- The shear of a ray: the axes kx, ky, kz and Sx, Sy, Sz. -/
def shear (d : List Nat) : (Nat × Nat × Nat) × (FV × FV × FV) :=
  let m (a : Nat) : FV := (val (d.getD a 0)).abs
  let kz := if (m 0).lt (m 1) then (if (m 1).lt (m 2) then 2 else 1) else if (m 0).lt (m 2) then 2 else 0
  let kx := (kz + 1) % 3
  let ky := (kx + 1) % 3
  let v (a : Nat) : FV := val (d.getD a 0)
  let r (x : FV) : FV := val (f32Of 0 x)
  ((kx, ky, kz), (r ((v kx).div (v kz)), r ((v ky).div (v kz)), r ((FV.fin false 1 1).div (v kz))))

/-- Project a vertex. -/
def project (o : List Nat) (k : Nat × Nat × Nat) (sh : FV × FV × FV) (v : List FV) : Projected :=
  let r (x : FV) : FV := val (f32Of 0 x)
  let q (a : Nat) : FV := r ((v.getD a .zero).sub (val (o.getD a 0)))
  { x := r ((q k.1).sub (sh.1.mul (q k.2.2))), y := r ((q k.2.1).sub (sh.2.1.mul (q k.2.2))), z := r (sh.2.2.mul (q k.2.2)) }

/-- Whether an edge whose E is 0 is owned (R361). -/
def edgeOwned (detNeg : Bool) (p q : Projected) : Bool :=
  let ex := if detNeg then p.x.sub q.x else q.x.sub p.x
  let ey := if detNeg then p.y.sub q.y else q.y.sub p.y
  ey.lt .zero || (ey.isZero && FV.zero.lt ex)

/-- The test of one triangle: t as FP32 bits when it is hit. -/
def triangleHit (fr : List Nat × List Nat) (cull : Bool) (vs : List (List FV)) : Option Nat :=
  let sh := shear fr.2
  let ps := vs.map (project fr.1 sh.1 sh.2)
  match ps with
  | [a, b, c] =>
    let fin := vs.all (fun v => v.all FV.finite) && sh.2.1.finite && sh.2.2.1.finite && sh.2.2.2.finite &&
      ps.all fun p => p.x.finite && p.y.finite && p.z.finite
    if !fin then none
    else
      let e (p q : Projected) : FV := (p.x.mul q.y).sub (p.y.mul q.x)
      let eab := e a b; let ebc := e b c; let eca := e c a
      let det := (eab.add ebc).add eca
      let neg := det.lt .zero
      let edge (x : FV) (p q : Projected) : Bool := if x.isZero then edgeOwned neg p q else x.lt .zero == neg
      let t := f32Of 0 ((((ebc.mul a.z).add (eca.mul b.z)).add (eab.mul c.z)).div det)
      let front := (det.mul (val (fr.2.getD sh.1.2.2 0))).lt .zero
      if !det.isZero && edge eab a b && edge ebc b c && edge eca c a && (val t).finite && (front || !cull) then some t else none
  | _ => none

/-- Triangles of a MESH leaf from number i on, in ascending order. -/
def meshLoop (core ctx : Nat) (fr : List Nat × List Nat) (rec_ vtx idx shidx : Nat) : Nat → Nat → Ray → Rd Offered
  | 0, _, r => return .passed r
  | fuel + 1, i, r => do
    let tri ← engineNat core ctx .m (idx + 12 * i) 12
    let vs ← [natBits tri 0 32, natBits tri 32 32, natBits tri 64 32].mapM fun n => do
      let v ← engineNat core ctx .m (vtx + 12 * n) 12
      return [recF v 0, recF v 1, recF v 2]
    match triangleHit fr (instCull rec_) vs with
    | none => meshLoop core ctx fr rec_ vtx idx shidx fuel (i + 1) r
    | some t =>
      match ← offer core ctx r rec_ t i shidx with
      | .passed r => meshLoop core ctx fr rec_ vtx idx shidx fuel (i + 1) r
      | .accepted r => if r.any then return .accepted r else meshLoop core ctx fr rec_ vtx idx shidx fuel (i + 1) r
      | x => return x

/-! ## Field leaves (R357, R358) -/

/-- RoundTo((a + b)/2, f32, rne). -/
def midpoint (a b : W32) : W32 := BitVec.ofNat 32 (f32Of 0 (((wval a).add (wval b)).mul .half))

/-- The pending segment with the smallest a, and the others. -/
def takeNearest : List (W32 × W32) → Option ((W32 × W32) × List (W32 × W32))
  | [] => none
  | p :: r => match takeNearest r with
    | none => some (p, [])
    | some (q, rest) => if (wval q.1).lt (wval p.1) then some (q, p :: rest) else some (p, r)

/-- What a leaf test comes to: it goes on, gives a candidate, ends without one, or has used its steps. -/
inductive LeafOut where
  | go (l : LeafRun)
  | candidate (t : W32)
  | ended
  | stepCap (a : W32)

/-- Take the next pending segment. -/
def LeafRun.nextSegment (l : LeafRun) : LeafOut :=
  match takeNearest l.pending with
  | none => .ended
  | some ((a, b), rest) =>
    if l.steps ≥ 256 then .stepCap a else .go { l with pending := rest, steps := l.steps + 1, stage := .segment a b }

/-- Bisection between a and b after n halvings: the midpoint is evaluated next, or b is the candidate. -/
def LeafRun.bisectNext (l : LeafRun) (a b : W32) (n : Nat) : LeafOut :=
  let m := midpoint a b
  if n ≥ 24 || fvEq (wval m) (wval a) || fvEq (wval m) (wval b) then .candidate b
  else .go { l with stage := .bisect a b m n }

/-- The parameter interval of the evaluation due. -/
def LeafStage.span : LeafStage → W32 × W32
  | .segment a b => (a, b) | .refineA a _ => (a, a) | .refineB _ b => (b, b) | .bisect _ _ m _ => (m, m)

/-- Go on with the value of the evaluation due, as an interval; at a point only its lower end counts: a NaN there, and a supplied
pair that is none, count as not above 0. -/
def LeafRun.feed (l : LeafRun) (epsAbs epsRel : W32) (v : Iv) : LeafOut :=
  let lo := if v.isNan then FV.inf true else if v.isEmpty then .inf false else val v.lo
  let hi := if v.isNan then FV.inf false else if v.isEmpty then .inf true else val v.hi
  let above := match l.stage with
    | .segment _ _ => FV.zero.lt lo
    | _ => if l.kind = 4 then FV.zero.lt lo else FV.zero.lt (val v.lo)
  match l.stage with
  | .segment a b =>
    if above || hi.lt .zero then l.nextSegment
    else
      let w := val (f32Of 3 (FV.max (wval epsAbs) ((wval epsRel).mul (wval a).abs)))
      let m := midpoint a b
      if ((wval b).sub (wval a)).le w || fvEq (wval m) (wval a) || fvEq (wval m) (wval b) then .go { l with stage := .refineA a b }
      else { l with pending := l.pending ++ [(a, m), (m, b)] }.nextSegment
  | .refineA a b => if above then .go { l with stage := .refineB a b } else .candidate a
  | .refineB a b => if above then l.nextSegment else l.bisectNext a b 0
  | .bisect a b m n => if above then l.bisectNext m b (n + 1) else l.bisectNext a m (n + 1)

/-- The coordinates of a ray over a segment, as affine forms (R338). -/
def segmentForms (fr : List Nat × List Nat) (a b : W32) : List (List Nat) :=
  let tmid := val (midpoint a b).toNat
  let half := val (f32Of 3 (FV.max ((wval b).sub tmid) (tmid.sub (wval a))))
  (List.range 3).map fun k =>
    let o := val (fr.1.getD k 0)
    let d := val (fr.2.getD k 0)
    (afLinear (sumFV 0 [o, d.mul tmid]) (d.mul half) .zero .zero .zero).words
/-- The coordinates of a ray at a parameter (R338). -/
def pointCoords (fr : List Nat × List Nat) (t : W32) : List (List Nat) :=
  (List.range 3).map fun k => [f32Of 0 (sumFV 0 [val (fr.1.getD k 0), (val (fr.2.getD k 0)).mul (wval t)])]

/-- Evaluate a FIELD or BRICKS leaf where its stage says; none when an operation check fails (R344). -/
def leafValue (core ctx : Nat) (l : LeafRun) (fr : List Nat × List Nat) : Rd (Option Iv) := do
  let (mode, xyz) := match l.stage with
    | .segment a b => (EvMode.affine, segmentForms fr a b)
    | st => (EvMode.point, pointCoords fr st.span.1)
  let iv (w : List Nat) : Iv := if mode = .affine then (Af.ofWords w).iv else { lo := w.getD 0 0, hi := w.getD 0 0 }
  if l.kind = 2 then return some (iv (← brickValue core ctx mode (← readBrick core ctx l.leaf) xyz))
  let h ← engineNat core ctx .m l.leaf 16
  let e ← scan core ctx (.mem (l.leaf + 16)) (leafLen h) (evStep core ctx mode) 4097 0 0 0 { xyz := xyz }
  return e.map fun e => iv (e.stack.getD 0 [])

/-- The start of a leaf test over [a, b] (R357). -/
def LeafRun.start (leaf kind : Nat) (inst : Option Nat) (idx shidx : Nat) (a b : W32) : LeafOut :=
  ({ leaf := leaf, kind := kind, inst := inst, leafIdx := idx, shidx := shidx, a0 := a, b0 := b
     pending := [(a, b)], steps := 0, stage := .segment a b } : LeafRun).nextSegment

/-- The ray after a leaf test's outcome: a candidate is offered, and the leaf ends. -/
def afterLeaf (core ctx : Nat) (r : Ray) (rec_ idx shidx : Nat) (o : LeafOut) : Rd RayOut := do
  let ended : Ray := { r with leaf := none }
  match o with
  | .go l => return .go { r with leaf := some l }
  | .ended => return .go ended
  | .stepCap a => return .land (errRec eSTEPCAP a.toNat)
  | .candidate t =>
    match ← offer core ctx ended rec_ t.toNat idx shidx with
    | .passed r => return .go r
    | .accepted r => return if r.any then .land (match r.best with | some h => hitRec h | none => []) else .go r
    | .null => return .go ended
    | .badIdx => return .land (errRec eBADIDX)

/-- One evaluation of the leaf under test; a BRICKS leaf whose map breaks meanwhile is empty (R336). -/
def leafStep (core ctx : Nat) (r : Ray) (l : LeafRun) : Rd RayOut := do
  let rec_ ← engineNat core ctx .m (l.inst.getD 0) 128
  let fr := rayFrame r (some rec_)
  if l.kind = 4 then
    match r.supplied with
    | some (lo, hi) =>
      afterLeaf core ctx { r with supplied := none } rec_ l.leafIdx l.shidx (l.feed r.epsAbs r.epsRel { lo := lo.toNat, hi := hi.toNat })
    | none =>
      match ← shaderEntry core ctx (instSbt rec_) l.shidx with
      | .badIdx => return .land (errRec eBADIDX)
      | .null => return .go { r with leaf := none }
      | .proceed => return .suspend r (callRec l.stage.span.1 l.stage.span.2 (instId rec_) l.shidx)
  else if l.kind = 2 && (← readBrick core ctx l.leaf).isNone then return .go { r with leaf := none }
  else
    match ← leafValue core ctx l fr with
    | none => return .land (errRec eBADBC)
    | some v => afterLeaf core ctx r rec_ l.leafIdx l.shidx (l.feed r.epsAbs r.epsRel v)

/-- Validate a FIELD leaf whose VST is neither 1 nor 2, and record the outcome, unless the store meets a failure, poison among them; whether
it may be evaluated (R344). -/
def validated (core ctx leaf h : Nat) : Rd Bool := do
  if leafVst h = 2 then return false
  if leafVst h = 1 then return true
  let ok := (← readProgram core ctx (.mem (leaf + 16)) (leafLen h)).isSome
  dropped (engineStore core ctx { AccSpec.ewrite .m 1 with reads := true } (leaf + 1) [if ok then 1 else 2])
  return ok

/-- Begin the test of a leaf over [a, b]. -/
def leafBegin (core ctx : Nat) (r : Ray) (addr : Nat) (inst : Option Nat) (idx : Nat) (a b : W32) : Rd RayOut := do
  let h ← engineNat core ctx .m addr 16
  if !leafOk h then return .go r
  let rec_ ← engineNat core ctx .m (inst.getD 0) 128
  let start := afterLeaf core ctx r rec_ idx (leafShidx h) (LeafRun.start addr (leafKind h) inst idx (leafShidx h) a b)
  match leafKind h with
  | 1 => if ← validated core ctx addr h then start else return .land (errRec eBADBC)
  | 2 => if (← readBrick core ctx addr).isNone then return .go r else start
  | 3 =>
    let body ← engineNat core ctx .m (addr + 16) 24
    match ← meshLoop core ctx (rayFrame r (some rec_)) rec_ (natBits body 0 64) (natBits body 64 64) (leafShidx h)
        (natBits body 128 32) 0 r with
    | .passed r => return .go r
    | .accepted r => return .land (match r.best with | some h => hitRec h | none => [])
    | .null => return .go r
    | .badIdx => return .land (errRec eBADIDX)
  | _ => start

/-! ## The scene and the procedure (R330, R355, R356) -/

/-- Whether a descriptor keeps R330. -/
def sceneOk (d : Nat) : Bool :=
  let ea := recF d 5
  let er := recF d 6
  natBits d 52 12 = 0 && natBits d 116 12 = 0 && natBits d 224 288 = 0 && natBits d 0 52 % 64 = 0 && natBits d 64 52 % 128 = 0 &&
  1 ≤ natBits d 128 32 && ea.finite && FV.zero.lt ea && er.finite && FV.zero.le er

/-- A ray's first step: its inputs, then the scene descriptor. -/
def rayStart (core ctx : Nat) (r : Ray) : Rd RayOut := do
  let ins := r.o ++ r.d ++ [r.tmin, r.tmax]
  if ins.any fun w => (wval w).isNan then return .land (errRec eBADRAY)
  if (wval r.tmax).lt (wval r.tmin) then return .land (missRec r.tmax)
  if r.scene.toNat % 64 != 0 then return .land (errRec eBADSCENE)
  let d ← engineNat core ctx .m r.scene.toNat 64
  if !sceneOk d then return .land (errRec eBADSCENE)
  return .go { r with
    started := true, tb := r.tmax
    epsAbs := BitVec.ofNat 32 (natBits d 160 32), epsRel := BitVec.ofNat 32 (natBits d 192 32)
    ninst := natBits d 128 32, ibase := natBits d 64 52
    work := [.node (natBits d 0 52) none true r.tmin] }

/-- One step of a ray: its start, one evaluation, one node visit, one instance, or one leaf. -/
def rayAdvance (core ctx : Nat) (r : Ray) : Rd RayOut := do
  if !r.started then rayStart core ctx r
  else match r.leaf with
    | some l => leafStep core ctx r l
    | none => match r.work with
      | [] => return .land (match r.best with | some h => hitRec h | none => missRec r.tmax)
      | w :: rest =>
        let r := { r with work := rest }
        if r.best.isSome && (wval r.tb).le w.entry then return .go r
        match w with
        | .node addr inst top _ =>
          let node ← engineNat core ctx .m addr 64
          match inst with
          | none => return .go { r with work := nodeWork r node none 0 top (rayFrame r none) ++ rest }
          | some i =>
            let rec_ ← engineNat core ctx .m i 128
            return .go { r with work := nodeWork r node inst (instLbase rec_) top (rayFrame r (some rec_)) ++ rest }
        | .instance_ addr e =>
          let rec_ ← engineNat core ctx .m addr 128
          if instSkip rec_ || instMask rec_ &&& r.mask.toNat = 0 then return .go r
          return .go { r with work := .node (instRoot rec_) (some addr) false e :: rest }
        | .leaf addr inst idx e x =>
          leafBegin core ctx r addr inst idx (w32F ((wval r.tmin).max (wval e))) (w32F ((wval r.tb).min (wval x)))

/-! ## Landings (R351, R352) -/

/-- Replace a tile that stands in the save area with its group by a function of it (R195). -/
def State.mapSaved (s : State) (core idx : Nat) (gen : BitVec 16) (f : Tile → Tile) : State :=
  { s with cs := { s.cs with savedTiles := s.cs.savedTiles.map fun t => if t.core = core && t.idx = idx && t.gen == gen then f t else t } }
/-- Change the four words of a ray's row, when the tile, resident or saved with its group, still has the generation of the handle. -/
def State.mapRayWords (s : State) (r : Ray) (f : Tile → Nat → Tile) : State :=
  let (core, idx, gen) := (hCore r.handle, hIdx r.handle, hGen r.handle)
  let row := fun (t : Tile) => ((List.range 4).foldl (fun t w => f t (r.row * t.rowWords + w)) t).norm
  match s.tileAt core idx with
  | none => s.mapSaved core idx gen row
  | some t => if t.st = .draining || t.gen != gen then s.mapSaved core idx gen row else s.mapTile core idx row

/-- A record lands: each word becomes full. -/
def State.landRay (s : State) (r : Ray) (words : List Nat) : State :=
  s.mapRayWords r fun t k => t.putWord k (BitVec.ofNat 32 (words.getD (k - r.row * t.rowWords) 0)) true
/-- A ray's words become empty. -/
def State.emptyRay (s : State) (r : Ray) : State := s.mapRayWords r fun t k => t.tagWord false k

/-- Replace or remove the entry of a lane of the group whose turn it is. -/
def Group.setRay (g : Group) (lane : Nat) (r : Option Ray) : Group :=
  { g with rays := g.rays.filter (·.lane ≠ lane) ++ r.toList }
/-- The live ray of a lane. -/
def Group.rayOf (g : Group) (lane : Nat) : Option Ray := g.rays.find? (·.lane = lane)

/-- A ray leaves its fault record (R397). -/
def State.detachRay (s : State) (gid lane : Nat) : State :=
  s.dropReqs (· = .ray gid lane)

/-- End a lane's ray, if it has one, with ERROR CANCELLED, and take it off its fault record. When its CALL record landed in the
move before, the two may fall in one cycle: the landing comes first, the entry is found Free, and nothing lands (R352, R373;
log 4). -/
def State.cancelRay (s : State) (lane : Nat) : State :=
  match s.g.rayOf lane with
  | none => s
  | some r =>
    let s := s.detachRay s.g.gid lane
    let (together, s) := if r.phase = .suspended && r.landedAt = s.moves then s.takeBit else (false, s)
    let s := if together then s else s.landRay r (errRec eCANCELLED)
    { s with g := s.g.setRay lane none }
/-- End every ray of the group. -/
def State.cancelRays (s : State) : State := lanes.foldl State.cancelRay s

/-- Land the error of a failed read; a translation fault makes or joins a record, or waits while the die has none free. -/
def rayFault (r : Ray) (t : Trap) (s : State) : State :=
  if t.cause == cPAGE then
    let die := coreDie s.g.core
    if !s.recordRoom die s.g.ctx (t.pages.take 1) then s
    else
      let (s, ids) := s.joinAll die s.g.ctx (.ray s.g.gid r.lane) (t.pages.take 1)
      { s with g := s.g.setRay r.lane (some { r with phase := .faultwait, record := ids.headD 0, failedAt := t.eaddr }) }
  else
    let s := s.landRay r (errRec eFAULT 0 t.cause.toNat (t.eaddr.toNat % 2 ^ 32))
    { s with g := s.g.setRay r.lane none }

/-- RAY_STEP (R351, R356, R357, R366): the marcher takes a Marching ray one step further. -/
def execRayStep (core slot lane : Nat) (s : State) : Out :=
  done (s.onSlot core slot fun s =>
    match s.g.rayOf lane with
    | none => s
    | some r =>
      if r.phase != .marching || !(s.g.phase = .running || s.g.phase = .parked || s.g.phase = .faulted) then s
      else match (rayAdvance s.g.core s.g.ctx r).at s with
        | (.error t, s) => rayFault r t s
        | (.ok (.go r), s) => { s with g := s.g.setRay lane (some r) }
        | (.ok (.land ws), s) => let s := s.landRay r ws; { s with g := s.g.setRay lane none }
        | (.ok (.suspend r ws), s) => let s := s.landRay r ws; { s with g := s.g.setRay lane (some { r with phase := .suspended, landedAt := s.moves + 1 }) })

/-! ## The instructions (R368 to R371) -/

/-- The checks of a result tile, its columns and its rows. -/
def withResultTile (s : State) (h : W64) (m : W32) (rowb : Nat) (k : Tile → Res) : Res :=
  withTile s h m (fun t => !t.isGlobal && t.ty == 6) fun t =>
    let bad := maskOf fun i => m.getLsbD i && rowb + i ≥ t.rows
    orTrap (firstTrap [trapIf (t.cols < 4) (tileBnd 2 m), trapIf (bad != 0) (tileBnd 1 bad)]) s (k t)

/-- MARCH (R351, R355, R365, R368). -/
def execMarch (f : FK) (s : State) : Out :=
  let g := s.g
  let m := fkMask f g
  let rowb := (f.imm.extractLsb' 8 12).toNat
  let reg (k i : Nat) : W32 := g.vget (f.va + BitVec.ofNat 8 k) i
  let ray (i : Nat) : Ray :=
    { lane := i, phase := .marching, o := [reg 0 i, reg 1 i, reg 2 i], tmin := reg 3 i, d := [reg 4 i, reg 5 i, reg 6 i], tmax := reg 7 i
      scene := g.sget f.sa, handle := g.sget f.sb, row := rowb + i, mask := f.imm.extractLsb' 0 8, any := f.mode.getLsbD 0, tb := reg 7 i }
  let items := (List.range 8).flatMap fun k => g.vitems false m (f.va + BitVec.ofNat 8 k)
  settle <| if m = 0 then .next s
    else orTrap (readPoison g ([g.sitem f.sa, g.sitem f.sb] ++ items)) s <| withResultTile s (g.sget f.sb) m rowb fun _ =>
      .next ((activeLanes m).foldl (fun s i =>
        let s := (s.cancelRay i).emptyRay (ray i)
        { s with g := s.g.setRay i (some (ray i)) }) s.closeIdem)

/-- MRES (R369). -/
def execMres (f : FK) (s : State) : Out :=
  let g := s.g
  let m := fkMask f g
  let rowb := (f.imm.extractLsb' 0 12).toNat
  settle <| if m = 0 then .next s
    else orTrap (readPoison g [g.sitem f.sa]) s <| withResultTile s (g.sget f.sa) m rowb fun t =>
      let word (w i : Nat) : Nat := (rowb + i) * t.rowWords + w
      if anyLane m fun i => (List.range 4).any fun w => !(t.word (word w i)).2 then .park s
      else
        let bad := maskOf fun i => m.getLsbD i && (List.range 4).any fun w => t.poison.contains (word w i)
        orTrap (trapIf (bad != 0) { cause := cPOISON, einfo := 3, elanes := bad }) s <|
          .next ((List.range 4).foldl (fun s w => s.setV false (f.vd + BitVec.ofNat 8 w) m fun i => (t.word (word w i)).1.toNat) s)

/-- MRESUME (R370). -/
def execMresume (f : FK) (s : State) : Out :=
  let g := s.g
  let m := fkMask f g
  settle <| if m = 0 then .next s
    else
      let due := (activeLanes m).filter fun i => (g.rayOf i).any fun r => r.phase = .suspended
      let dm := maskOfList due
      orTrap (readPoison g (g.vitems false dm f.va ++ g.vitems false dm (f.va + 1))) s <|
        .next (due.foldl (fun s i => match s.g.rayOf i with
          | none => s
          | some r =>
            let s := s.emptyRay r
            { s with g := s.g.setRay i (some { r with phase := .marching, supplied := some (g.vget f.va i, g.vget (f.va + 1) i) }) }) s.closeIdem)

/-- MCANCEL (R371). -/
def execMcancel (f : FK) (s : State) : Out :=
  let m := fkMask f s.g
  settle (.next (if m = 0 then s else (activeLanes m).foldl State.cancelRay s.closeIdem))

end Sys2Proof.Machine
end

