-- ==== Sys2Proof/Machine/Trap.lean ====
section
/-! DEFINITION. System registers, software traps, the return from the handler, and system software's answers to a cause
(R416 to R428). FAIL, which makes the context Faulted, stands with the contexts. -/

namespace Sys2Proof.Machine

/-- sys.region (R217). -/
def regionWord (s : State) : W64 :=
  let g := s.g
  let tok := s.ms.tokens.any fun t => t.heldBy g && t.seq == g.seq
  BitVec.ofNat 64 (g.seq.toNat + (if tok then 2 ^ 16 else 0) + (if g.idem.isSome then 2 ^ 17 else 0) + (if g.splt then 2 ^ 18 else 0))

/-- The value of a system register (R50 to R53, R69, R109 to R111, R217, R416); sys.clock is read apart. -/
def sysRead (s : State) (n : Nat) : W64 :=
  let g := s.g
  let r := g.r
  let c := (s.ctxOf g.ctx).getD default
  match n with
  | 0 => BitVec.ofNat 64 (g.slot % 8 + if g.hmode then 8 else 0)
  | 1 => BitVec.ofNat 64 g.core
  | 2 => BitVec.ofNat 64 g.ctx
  | 3 => BitVec.ofNat 64 (c.fsect % 8 + 8 * (c.psize % 4))
  | 4 => r.fflags.setWidth 64
  | 5 => r.fenable.setWidth 64
  | 6 => r.qflags.setWidth 64
  | 7 => r.dphase.setWidth 64
  | 8 => r.tvec.setWidth 64
  | 9 => r.trap.tcause.setWidth 64
  | 10 => r.trap.epc
  | 11 => r.trap.elanes.setWidth 64
  | 12 => r.trap.eaddr
  | 13 => r.trap.einfo
  | 14 => r.mask.setWidth 64
  | 15 => BitVec.ofNat 64 (r.stack.length + if r.pend.isSome then 64 else 0)
  | 16 => regionWord s
  | _ => BitVec.ofNat 64 s.clock

/-- Time passes before a reading of sys.clock: by how much is free, and never backwards (R425, log 4). -/
def State.tick (s : State) : State := { s with clock := s.clock + Config.elapsed s.fresh, fresh := s.fresh + 1 }

/-- MFS (R425): the register's 64 bits to S[D]. -/
def execMfs (f : FY) (s : State) : Out :=
  let s := if f.imm = 0x11 then s.tick else s
  settle (.next (s.setS f.d (sysRead s f.imm.toNat)))

/-- Write a system register that mts may write; the five trap registers only in handler mode, and a write of sys.epc sets
EPCW (R425). -/
def sysWrite (s : State) (n : Nat) (x : W64) : State :=
  let trap (u : TrapRegs → TrapRegs) : State := s.mapR fun r => { r with trap := u r.trap }
  match n with
  | 4 => s.mapR fun r => { r with fflags := x.setWidth 5 }
  | 5 => s.mapR fun r => { r with fenable := x.setWidth 5 }
  | 6 => s.mapR fun r => { r with qflags := x.setWidth 6 }
  | 7 => s.mapR fun r => { r with dphase := x.setWidth 5 }
  | 8 => s.mapR fun r => { r with tvec := x.setWidth 52 }
  | 9 => trap fun t => { t with tcause := x.setWidth 8 }
  | 10 => { trap fun t => { t with epc := x } with g := { (trap fun t => { t with epc := x }).g with epcw := true } }
  | 11 => trap fun t => { t with elanes := x.setWidth 32 }
  | 12 => trap fun t => { t with eaddr := x }
  | 13 => trap fun t => { t with einfo := x }
  | 16 => if x.getLsbD 18 then { s with g := { s.g with splt := false } } else s
  | _ => s

/-- Registers that mts cannot write: PRIV code 1; and those of the handler: PRIV code 2 outside it (R425). -/
def mtsPriv (g : Group) (n : Nat) : Option Nat :=
  if n ≤ 3 || n = 14 || n = 15 || n = 17 then some 1
  else if 9 ≤ n && n ≤ 13 && !g.hmode then some 2
  else none

/-- MTS (R425). -/
def execMts (f : FY) (s : State) : Out :=
  let n := f.imm.toNat
  settle <| orTrap ((mtsPriv s.g n).map (trapCode cPRIV)) s <| orTrap (readPoison s.g [s.g.sitem f.a]) s <|
    .next (sysWrite s n (s.g.sget f.a))

/-- TRAP (R426): SWTRAP with the trap code; it does not retire. -/
def execTrap (f : FY) (s : State) : Out := settle (.trap (trapCode cSWTRAP f.imm.toNat) s)
/-- BRK (R426): WATCH code 2 with the brk code. -/
def execBrk (f : FY) (s : State) : Out := settle (.trap (trapCode cWATCH (2 + 65536 * f.imm.toNat)) s)

/-- tret's checks and its return (R427). -/
def tretOp (skip : Bool) (s : State) : Res :=
  mustBeLast s <|
    if !s.g.hmode then .trap (trapCode cPRIV 2) s
    else if s.g.r.stack.length != s.g.entryDepth then .trap (maskOvfDepth) s
    else .stay (returnFromHandler skip s)
where
  /-- MASKOVF code 3: a depth other than at handler entry. -/
  maskOvfDepth : Trap := trapCode cMASKOVF 3

/-- TRET (R427). -/
def execTret (_f : FY) (s : State) : Out := settle (tretOp false s)
/-- TRET_SKIP (R427). -/
def execTretSkip (_f : FY) (s : State) : Out := settle (tretOp true s)

/-- FWCALL_SYS (R428): closes the region, performs older stores, hands the two values over, and waits for the reply. -/
def execFwcallSys (f : FY) (s : State) : Out :=
  let g := s.g
  settle (match g.fwReq, g.fwReply with
    | some _, some x => .next { s.setS f.d x with g := { (s.setS f.d x).g with fwReq := none, fwReply := none } }
    | some _, none => .park s
    | none, _ =>
      orTrap (readPoison g [g.sitem f.a, g.sitem f.b]) s <|
        let s := s.closeIdem.drain
        .park { s with
          g := { s.g with fwReq := some (s.g.sget f.a, s.g.sget f.b), fwReply := none }
          cx := { s.cx with notices := s.cx.notices ++ [.fwcall s.g.gid] } })

/-- Items that fwcall.xz reads. -/
def xzItems : List Item :=
  ((List.range 8).flatMap fun k => [Item.z k, Item.s (56 + k)]) ++
  ((List.range 4).flatMap fun k => lanes.flatMap fun i => [Item.zv k i, Item.v (252 + k) i])

/-- FWCALL_XZ (R428): exchanges z0–z7 with s56–s63 and zv0–zv3 with v252–v255, in handler mode only. -/
def execFwcallXz (_f : FY) (s : State) : Out :=
  let r := s.g.r
  settle (if !s.g.hmode then .trap (trapCode cPRIV 2) s
    else orTrap (readPoison s.g xzItems) s <| .next (s.mapR fun _ =>
      { r with
        s := Vector.ofFn fun n => if 56 ≤ n.val then r.z[(n.val - 56) % 8]! else r.s[n]
        z := Vector.ofFn fun n => r.s[56 + n.val]
        v := Vector.ofFn fun n => if 252 ≤ n.val then r.zv[(n.val - 252) % 4]! else r.v[n]
        zv := Vector.ofFn fun n => r.v[252 + n.val] }))

/-- FWCALL_REPLY (R428): system software answers a parked fwcall.sys. -/
def execFwcallReply (core slot : Nat) (reply : W64) (s : State) : Out :=
  done (s.onSlot core slot fun s =>
    if s.g.phase = .parked && s.g.fwReq.isSome && s.g.fwReply.isNone then
      { s with
        g := { s.g with fwReply := some reply }
        cx := { s.cx with notices := s.cx.notices.filter (· ≠ .fwcall s.g.gid) } }
    else s)

/-- Whether system software may serve the cause of a Faulted group (R414, R419, R437): LINK once its path is usable. -/
def mayServe (s : State) : Bool :=
  let t := s.g.r.trap
  s.g.phase = .faulted && replayable t.tcause &&
    (t.tcause != cLINK ||
      (if s.g.intr.viaHost then s.lk.host.usable else s.lk.routed (natBits t.einfo.toNat 8 8)))

/-- SERVE (R419): the instruction replays at sys.epc; after a served watchpoint it replays with watch checks off, and after
a served brk the group resumes at the word after it (R423). -/
def execServe (core slot : Nat) (s : State) : Out :=
  done (s.onSlot core slot fun s =>
    if mayServe s then
      let watch := s.g.r.trap.tcause == cWATCH
      let brk := watch && natBits s.g.r.trap.einfo.toNat 0 4 = 2
      let s := s.replay brk
      { s with g := { s.g with watchOff := watch && !brk } }
    else s)

end Sys2Proof.Machine
end

