-- ==== Sys2Proof/Machine/Save.lean ====
section
/-! DEFINITION. Saving, discarding and restoring groups, the failure of a context, and the device's writes on behalf of
work (R96, R195, R301, R404 to R412, R465). -/

namespace Sys2Proof.Machine

/-! ## The context record (R403, R404) -/

/-- The code of STATE. -/
def CtxState.code : CtxState → Nat
  | .created => 1 | .bound => 2 | .runnable => 3 | .running => 4 | .preempting => 5 | .saved => 6 | .faulted => 7 | .destroyed => 8
/-- The die of a context's partition. -/
def State.ctxDie (s : State) (n : Nat) : Nat := match s.ctxOf n with | some c => c.fsect / 4 | none => 0
/-- Put a context into a state; its record shows it. -/
def State.setCtxState (s : State) (n : Nat) (st : CtxState) : State :=
  (s.mapCtx n fun c => { c with st := st }).memPut (s.ctxRec n) 1 st.code
/-- PCNT + 1. -/
def State.bumpPcnt (s : State) (n : Nat) : State := s.memPut (s.ctxRec n + 80) 8 (s.memNat (s.ctxRec n + 80) 8 + 1)
/-- A group of the context has been dispatched or restored: Runnable becomes Running. -/
def State.ctxRuns (s : State) (n : Nat) : State :=
  match s.ctxOf n with
  | some c => if c.st = .runnable then s.setCtxState n .running else s
  | none => s
/-- Whether a context has a resident group: one that holds a slot and has been dispatched. -/
def State.hasResident (s : State) (n : Nat) : Bool := s.groups.any fun g => g.ctx = n && g.phase.holdsSlot && g.phase != .bound
/-- The last resident group has gone: Running becomes Runnable. -/
def State.ctxRests (s : State) (n : Nat) : State :=
  match s.ctxOf n with
  | some c => if c.st = .running && !s.hasResident n then s.setCtxState n .runnable else s
  | none => s

/-! ## Queue state in memory (R264, R266) -/

/-- Show a queue's RIDX, WIDX, STATE, ERR and EIDX in its descriptor; DEDUCED: QTAB is a physical address (log 20). -/
def State.showQueue (s : State) (q : Queue) : State :=
  match s.ctxOf q.ctx with
  | none => s
  | some c =>
    let a := c.qtab + 64 * q.q
    (((s.ctxPut c (a + 8) 8 q.ridx).ctxPut c (a + 16) 8 q.widx).ctxPut c (a + 24) 2 (q.st + 256 * q.err)).ctxPut c (a + 32) 8 q.eidx
/-- A context's queue that is not Free. -/
def State.queueAt (s : State) (ctx q : Nat) : Option Queue := s.qs.queues.find? fun x => x.ctx = ctx && x.q = q
/-- Replace a queue by a function of it and show it. -/
def State.mapQueue (s : State) (ctx q : Nat) (f : Queue → Queue) : State :=
  match s.queueAt ctx q with
  | none => s
  | some x =>
    ({ s with qs := { s.qs with queues := s.qs.queues.map fun (y : Queue) => if y.ctx = ctx && y.q = q then f y else y } }).showQueue (f x)
/-- Packets a queue's ring holds. -/
def Queue.size (x : Queue) : Nat := 2 ^ (x.log2n + 4)
/-- A doorbell value reaches a queue (R265): WIDX of an Active one follows it, or the queue stops with ERR 4; any other holds the
newest value until it is Active again (R23). DESIGN CHOICE: EIDX is RIDX when a doorbell value stops the queue (log 26). -/
def Queue.ring (x : Queue) (v : Nat) : Queue :=
  if x.feed then x
  else if x.st != 1 then { x with bell := some v }
  else if v < x.widx || v > x.ridx + x.size then { x with st := 2, err := 4, eidx := x.ridx }
  else { x with widx := v }
/-- A queue becomes Active: it takes the doorbell value held for it. -/
def Queue.activate (x : Queue) : Queue :=
  let y : Queue := { x with st := 1, bell := none }
  match x.bell with | some v => y.ring v | none => y
/-- A context is taken off its cores: its Active queues are Suspended (R266). -/
def State.suspendQueues (s : State) (ctx : Nat) : State :=
  (s.qs.queues.filter fun q => q.ctx = ctx && q.st = 1).foldl (fun s q => s.mapQueue ctx q.q fun q => { q with st := 3 }) s
/-- A context is resumed: its Suspended queues are Active (R266). -/
def State.resumeQueues (s : State) (ctx : Nat) : State :=
  (s.qs.queues.filter fun q => q.ctx = ctx && q.st = 3).foldl (fun s q => s.mapQueue ctx q.q Queue.activate) s

/-! ## The group block (R407) -/

/-- Address of the block of a core and slot. -/
def groupBlock (c : Ctx) (core slot : Nat) : Nat := c.save + 0x80000 + 0xA0000 * (core - 32 * c.fsect) + 0x14000 * slot
/-- Bytes of a vector register. -/
def vregBytes (v : VReg) : List Byte := v.toList.flatMap fun w => leBytes 4 w.toNat
/-- n bytes of a part that is opaque to software: free values (log 41). -/
def opaqueBytes (fresh n : Nat) : List Byte := (List.range n).map (Config.savedByte fresh)
/-- The parts of a block: offset and bytes. -/
def blockImage (s : State) : List (Nat × List Byte) :=
  let r := s.g.r
  [(0, (List.range 18).flatMap fun n => leBytes 8 (sysRead s n).toNat),
   (0x100, leBytes 8 s.g.pc.toNat),
   (0x108, opaqueBytes s.fresh 760),
   (0x400, r.s.toList.flatMap fun w => leBytes 8 w.toNat),
   (0x600, r.z.toList.flatMap fun w => leBytes 8 w.toNat),
   (0x640, (List.range 16).flatMap fun n => leBytes 4 (s.g.pget (BitVec.ofNat 4 n)).toNat),
   (0x680, opaqueBytes (s.fresh + 1) 768),
   (0x1000, r.v.toList.flatMap vregBytes),
   (0x9000, r.zv.toList.flatMap vregBytes),
   (0xA000, r.a.toList.flatMap fun t => t.toList.flatMap fun row => row.toList.flatMap fun w => leBytes 16 w.toNat),
   (0x12000, opaqueBytes (s.fresh + 2) 2048)]
/-- Write the image of the group whose turn it is. A later save of the context into the same block takes the image of an
earlier one (log 22); a block outside the partition holds none (log 78). -/
def State.writeImage (s : State) : State :=
  match s.ctxOf s.g.ctx with
  | none => s
  | some c =>
    let a := groupBlock c s.g.core s.g.slot
    let here := fun (g : Group) => g.ctx = s.g.ctx && g.core = s.g.core && g.imaged = some s.g.slot
    let s := s.mapGroups fun g => if here g then { g with imaged := none } else g
    let s := { s with g := { s.g with imaged := if c.inMemory a 0x12800 then some s.g.slot else none } }
    (blockImage s).foldl (fun s p => s.ctxWrite c (a + p.1) p.2) { s with fresh := s.fresh + 3 }

/-! ## The scratchpad block (R195, R406) -/

/-- Address of the scratchpad block of a core. -/
def scratchBlock (c : Ctx) (core : Nat) : Nat := c.save + 0xA080000 + 0x120000 * (core - 32 * c.fsect)
/-- The granule image and the tag image of granule j of a tile: 4,096 words, lowest first. DEDUCED: a word's tag is the bit of its
number in the tag image (log 41). -/
def Tile.granuleBytes (t : Tile) (j : Nat) : List Byte :=
  (List.range (min 4096 (t.nWords - 4096 * j))).flatMap fun k => leBytes 4 (t.word (4096 * j + k)).1.toNat
def Tile.tagBytes (t : Tile) (j : Nat) : List Byte :=
  (List.range 512).map fun b => BitVec.ofNat 8 ((List.range 8).foldl (fun n i => if (t.word (4096 * j + 8 * b + i)).2 then n + 2 ^ i else n) 0)
/-- Tiles of a context and a core whose images the save area holds: those of saved groups, and of groups whose load is not complete. -/
def State.imagedTiles (s : State) (ctx core : Nat) : List Tile :=
  (s.cs.savedTiles ++ s.cs.tiles.filter fun (t : Tile) => s.groups.any fun g => g.gid = t.owner && (g.phase = .loading || g.abandoned) && !g.fresh).filter
    fun t => t.ctx = ctx && t.core = core
/-- The number of a tile's first granule image (R406): its place in the scratchpad region, counted as though the saved groups of its
context on the core stood there still. DESIGN CHOICE: where images that the area holds overlap that, the lowest 69 that are free take it;
and a tile that finds no room has no image (log 41). -/
def State.imageAt (s : State) (t : Tile) : Option Nat :=
  let held := s.imagedTiles t.ctx t.core
  let free (a : Nat) : Bool := a + t.ngran ≤ 69 && !held.any fun u => u.img < a + t.ngran && a < u.img + u.ngran
  let left := s.groups.filter fun g => g.phase = .saved && g.ctx = t.ctx && g.core = t.core && g.gid < t.res
  let a := s.granuleBase t.core t.res + (left.map (·.granules)).sum + t.gran
  if free a then some a else lowestBelow 70 free
/-- Write the image of a tile: its entry's, whose layout is the device's own, and its granules' from a number up. -/
def State.writeTile (s : State) (c : Ctx) (t : Tile) (at_ : Option Nat) : State :=
  let a := scratchBlock c t.core
  let s := { s.ctxWrite c (a + 32 * t.idx) (opaqueBytes s.fresh 32) with fresh := s.fresh + 1 }
  match at_ with
  | none => s
  | some g => (List.range t.ngran).foldl (fun s j =>
    (s.ctxWrite c (a + 0x2000 + 512 * (g + j)) (t.tagBytes j)).ctxWrite c (a + 0xC000 + 16384 * (g + j)) (t.granuleBytes j)) s
/-- A tile leaves its core with its group, and its image, if one is made, is written. -/
def State.saveTile (image : Bool) (s : State) (t : Tile) : State :=
  let at_ := if image then s.imageAt t else some t.img
  let s := { s with cs := { s.cs with
    tiles := s.cs.tiles.filter fun (u : Tile) => !(u.core = t.core && u.idx = t.idx)
    savedTiles := s.cs.savedTiles ++ [{ t with img := at_.getD 69 }] } }
  match s.ctxOf t.ctx with
  | some c => if image then s.writeTile c t at_ else s
  | none => s

/-! ## Reading a block back (R407, R411) -/

/-- A mask stack of depth n: the frames below the top ones dropped, or frames of free content added, since the stack's image is
opaque (log 23). -/
def stackOfDepth (fresh n : Nat) (l : List Frame) : List Frame :=
  (List.range (n - l.length)).map (fun i =>
    { m := Config.freeWord (fresh + 4 * i), kind := if Config.freeBit (fresh + 4 * i + 1) then .ifFrame else .loopFrame
      point := if Config.freeBit (fresh + 4 * i + 2) then some ((Config.freeWord (fresh + 4 * i + 2)).setWidth 64) else none
      origin := (Config.freeWord (fresh + 4 * i + 3)).setWidth 64 }) ++ l.drop (l.length - n)
/-- A vector register from its bytes. -/
def vregOf (b : List Byte) : VReg := Vector.ofFn fun i => BitVec.ofNat 32 (leNat ((b.drop (4 * i.val)).take 4))
/-- Software has moved the PC of a saved group (R407): what the slot held of the instruction it waited at goes, and it goes on at the
new one. -/
def Group.leaveWait (g : Group) : Group :=
  { g.restart with arrived := none, joining := none, fwReq := none, fwReply := none, savedFrom := if g.savedFrom = .parked then .running else g.savedFrom }
/-- The token that a restored region holds when the image of sys.region has TOK 1 (R407): on no sector, so that it meets no access
(log 23). -/
def Group.imageToken (g : Group) : Token := { sector := 2 ^ 64, ctx := g.ctx, core := g.core, slot := g.slot, seq := g.seq, writer := false }
/-- Read the image back (R407): the PC and s, z, p, v, zv, a, and the system registers but those whose writes are ignored;
s0 and p0 stay what they are. sys.mdepth sets the depth of the stack and whether a point is pending, IDEM of sys.region whether a region is
open. DESIGN CHOICE: a region that software's IDEM opens is not replayable, and a PC that software moves to no multiple of 8 inside its block
is fetched at as it stands (log 23). -/
def readImage (s : State) (a : Nat) (g : Group) : Group :=
  let w (off n : Nat) : Nat := s.memNat (a + off) n
  let sys (n : Nat) : W64 := BitVec.ofNat 64 (w (8 * n) 8)
  let pc : W64 := BitVec.ofNat 64 (w 0x100 8)
  let r := { g.r with
    s := Vector.ofFn fun n => if n.val = 0 then 0 else BitVec.ofNat 64 (w (0x400 + 8 * n.val) 8)
    z := Vector.ofFn fun n => BitVec.ofNat 64 (w (0x600 + 8 * n.val) 8)
    p := Vector.ofFn fun n => if n.val = 0 then 0 else BitVec.ofNat 32 (w (0x640 + 4 * n.val) 4)
    v := Vector.ofFn fun n => vregOf (s.memBytes (a + 0x1000 + 128 * n.val) 128)
    zv := Vector.ofFn fun n => vregOf (s.memBytes (a + 0x9000 + 128 * n.val) 128)
    a := Vector.ofFn fun n => Vector.ofFn fun row => Vector.ofFn fun col =>
      BitVec.ofNat 128 (w (0xA000 + 8192 * n.val + 256 * row.val + 16 * col.val) 16)
    fflags := (sys 4).setWidth 5, fenable := (sys 5).setWidth 5, qflags := (sys 6).setWidth 6, dphase := (sys 7).setWidth 5
    tvec := (sys 8).setWidth 52, mask := (sys 14).setWidth 32
    trap := { tcause := (sys 9).setWidth 8, epc := sys 10, elanes := (sys 11).setWidth 32, eaddr := sys 12, einfo := sys 13 } }
  let depth := min 32 (sys 15 % 64).toNat
  let pend := if !(sys 15).getLsbD 6 then none else match g.r.pend with
    | some p => some p
    | none => some ((Config.freeWord s.fresh).setWidth 64)
  let inBlock := g.blkHdr.toNat < pc.toNat && pc.toNat < g.blkEnd.toNat
  let g' := if pc = g.pc then g else g.leaveWait
  let idem : Option Region := match (sys 16).getLsbD 17, g.idem with
    | true, none => some { header := g.blkHdr, entry := g.r, replayable := false }
    | true, x => x
    | false, _ => none
  { g' with
    idem := idem
    r := { r with stack := stackOfDepth s.fresh depth r.stack, pend := pend }, pc := pc
    seq := (sys 16).setWidth 16, splt := (sys 16).getLsbD 18
    entering := if pc = g.pc then g.entering else !inBlock }

/-! ## Beginning a save (R96, R301, R410) -/

/-- Whether a pre-emption takes a group by kill and replay (R410): Running or Parked, with a replayable region open. -/
def Group.killable (g : Group) : Bool := (g.phase = .running || g.phase = .parked) && !g.hmode && g.buffering
/-- A pre-emption reaches the group whose turn it is, dispatched and in a slot (R96): kill and replay discards the release buffer; a
precise save ends the region (R216); a started atomic is waited for, and then saved precisely (R185). -/
def State.beginSave (kill : Bool) (s : State) : State :=
  let g := s.g
  match g.phase with
  | .running | .parked | .faulted =>
    if g.atomic.isSome then { s with g := { g with owes := some (g.owes.getD .save) } }
    else if kill && g.killable then { s with g := { g with phase := .discardingPreempt, relBuf := [] } }
    else
      let s := s.unreplayable.endRegion
      { s with g := { s.g with phase := .saving, savedFrom := g.phase } }
  | _ => s

/-- Release the reservation of a group and the tiles that its record's staging allocated for it (R301). -/
def State.releaseBound (s : State) (g : Group) : State :=
  let s := (s.cs.tiles.filter fun (t : Tile) => t.owner = g.gid && t.st != .draining).foldl (fun s t => s.freeTile t) s
  let gone := fun (c : Copy) => c.kind = .staging && c.gid = g.gid
  let s := (s.cs.copies.filter gone).foldl (fun s c => s.endIn c.core c.idx) { s with cs := { s.cs with copies := s.cs.copies.filter fun c => !gone c } }
  { s with
    ls := { s.ls with staging := s.ls.staging.filter fun q => q.gid != g.gid || q.level != 2 } }

/-- Withdraw the binding of a group that has not been dispatched (R301): a record left with no group is Admissible again, unless all
its work has been handed out and its groups have ended, so that it is about to complete. -/
def State.withdraw (s : State) (g : Group) : State :=
  let s := s.releaseBound g
  let s := { s with g := if s.g.gid = g.gid then { } else s.g, others := s.others.filter fun x => x.gid != g.gid }
  match g.launch with
  | none => s
  | some l => match s.poolAt l.1 l.2 with
    | none => s
    | some e => s.mapGrid e fun e =>
        let e := ({ e with bound := e.bound - 1, holes := insertNat g.ordinal e.holes, cores := e.cores.filter (· ≠ g.core) } : PoolEntry).gridComplete
        if e.bound = e.ended && !(0 < e.ended && e.rc.count ≤ e.next) then { e with st := .admissible } else e

/-- Stop the staging of some records (R301): requests not landed are dropped and pins released. -/
def State.dropStaging (s : State) (q : Nat → Nat → Bool) : State :=
  { s with
    ls := { s.ls with staging := s.ls.staging.filter fun r => !(q r.die r.entry && r.level != 2) }
    ms := { s.ms with pins := s.ms.pins.filter fun p => !q p.2.1 p.2.2 } }

/-- Address of a saved draw (R406). -/
def drawSlot (c : Ctx) (sector d : Nat) : Nat := c.save + 0x40000 + 1024 * (sector - c.fsect) + 16 * d
/-- Save the draws of a context (R382): 16 bytes each, the descriptor's address and the next triangle. A draw whose last merge is
performed counts as complete. -/
def State.saveDraws (s : State) (n : Nat) : State :=
  match s.ctxOf n with
  | none => s
  | some c =>
    let s := (List.range 8).foldl (fun s sec =>
      let ds := s.cs.draws.filter fun d => d.ctx = n && d.sector = sec && d.next < d.ntri
      ((List.range ds.length).zip ds).foldl (fun s p => (s.ctxPut c (drawSlot c sec p.1) 8 p.2.desc).ctxPut c (drawSlot c sec p.1 + 8) 8 p.2.next) s) s
    let free := fun (d : Draw) => if d.ctx = n && d.next < d.ntri then { d with saved := true, record := 0 } else d
    let s := s.dropReqs fun q => match q with
      | .draw id => s.cs.draws.any fun d => d.id = id && d.ctx = n
      | _ => false
    { s with cs := { s.cs with draws := s.cs.draws.map free } }

/-- Records of a context. -/
def State.recordOf (s : State) (n die entry : Nat) : Bool := match s.poolAt die entry with | some e => e.ctx = n | none => false

/-! ## Leaving a slot (R195, R224, R351, R397, R410) -/

/-- Whether a copy still reads or writes a tile that a group owns. -/
def State.tilesBusy (s : State) (gid : Nat) : Bool := s.cs.tiles.any fun (t : Tile) => t.owner = gid && (t.inbound > 0 || t.outbound > 0)
/-- Take a group's requesters off the fault records (R397). -/
def State.detach (s : State) (gid : Nat) : State :=
  s.dropReqs fun q => match q with | .group x => x = gid | .ray x _ => x = gid | _ => false
/-- Rays stop where they are; one that waits for service makes its request again after the restore (R351). -/
def Group.stopRays (g : Group) : Group :=
  { g with rays := g.rays.map fun r => if r.phase = .faultwait then { r with phase := .marching, record := 0 } else r }
/-- The group whose turn it is leaves its slot, its tiles with it, and its core gives its owned lines up (R186); an abandoned load
leaves the save area as it is. A served watchpoint's replay is still to come (R423), and a twait waits still (R195). -/
def State.leaveSlot (image : Bool) (s : State) : State :=
  let g := s.g
  let s := s.detach g.gid
  let s := (s.cs.tiles.filter fun (t : Tile) => t.owner = g.gid).foldl (State.saveTile image) s
  let s := { s with
    g := { s.g.restart.stopRays with records := [], phase := .saved, yielded := false, watchOff := g.watchOff, twait := g.twait, abandoned := false }
    ms := s.ms.giveUp g.core }
  let s := if image then s.holdBars.writeImage else s.holdBars
  s.spillBars g.ctx g.core
/-- A pre-emption reaches a group that is Loading (R96): the load is abandoned, once no copy reads or writes a tile of it (R195,
R301). -/
def State.abandonLoad (s : State) : State :=
  if s.tilesBusy s.g.gid then { s with g := { s.g with phase := .saving, abandoned := true } } else s.leaveSlot false
/-- The staging of a context's records has stopped, and their lines are pinned no longer: a group bound later needs them staged again
(R299, R301). -/
def State.unstage (s : State) (n : Nat) : State :=
  { s with ls := { s.ls with pool := s.ls.pool.map fun e => if e.ctx = n then { e with unstaged := true } else e } }
/-- Take a context off its cores (R301, R410): queues Suspended, staging cancelled, bindings withdrawn, draws saved, and
every resident group begins its save. -/
def State.suspendCtx (s : State) (n : Nat) (kill : Bool) : State :=
  let s := s.suspendQueues n
  let s := s.dropStaging (s.recordOf n)
  let s := s.unstage n
  let s := (s.groups.filter fun g => g.ctx = n && g.phase = .bound).foldl State.withdraw s
  let s := (s.groups.filter fun g => g.ctx = n && g.phase = .loading).foldl (fun s g => s.onGroup g.gid State.abandonLoad) s
  let s := (s.groups.filter fun g => g.ctx = n).foldl (fun s g => s.onGroup g.gid (State.beginSave kill)) s
  let s := (s.spillIdle n).saveDraws n
  { s with ms := { s.ms with owned := s.ms.owned.filter fun o => match s.ctxOf n with | some c => !c.hasCore o.2 | none => true } }

/-- STATE, FCAUSE and FADDR of a context that becomes Faulted; a resume that has not taken effect never does. -/
def State.markFaulted (s : State) (n : Nat) (cause : Byte) (addr : Nat) : State :=
  let s := s.setCtxState n .faulted
  let s := s.mapCtx n fun c => { c with fcause := cause, faddr := BitVec.ofNat 52 addr, resumeDue := false }
  (s.memPut (s.ctxRec n + 64) 1 cause.toNat).memPut (s.ctxRec n + 72) 8 (addr % 2 ^ 52)
/-- THE CONTEXT BECOMES FAULTED (R404, R419, R465): FCAUSE and FADDR are written and every resident group is saved by
precise save. Only a Runnable or Running context does (log 24). -/
def State.failCtx (s : State) (n : Nat) (cause : Byte) (addr : Nat) : State :=
  if !s.ctxLive n then s else (s.markFaulted n cause addr).suspendCtx n false
/-- A context of a quarantined partition becomes Faulted (R451): a Runnable or Running one with its groups saved, and at once any other
but one that is being destroyed, also one that is Created, or Faulted with another cause (log 61). -/
def State.quarantineCtx (s : State) (n : Nat) (cause : Byte) (addr : Nat) : State :=
  match s.ctxOf n with
  | none => s
  | some c => match c.st with
    | .runnable => s.failCtx n cause addr
    | .running => s.failCtx n cause addr
    | .created => s.markFaulted n cause addr
    | .bound => s.markFaulted n cause addr
    | .saved => s.markFaulted n cause addr
    | .preempting => s.markFaulted n cause addr
    | .faulted => s.markFaulted n cause addr
    | .destroyed => s

/-! ## Ending a save (R195, R224, R351, R397, R410) -/

/-- A precise save ends: the stores that retired are performed, and the state of R93 is kept. -/
def State.endSave (s : State) : State :=
  let s := if s.g.abandoned then s.leaveSlot false else s.drain.leaveSlot true
  s.ctxRests s.g.ctx
/-- Kill and replay ends (R224, R409, R410): the release buffer is discarded, and the saved state is that of the region's
entry, at its header. -/
def State.endKill (s : State) : State :=
  let s := match s.g.idem with
    | none => s
    | some r => { s with g := { s.g with
        r := r.entry, hmode := r.hmode, entryDepth := r.entryDepth, epcw := r.epcw, intr := r.intr, hidden := r.hidden, splt := r.splt
        pc := r.header, entering := true, relBuf := [], idem := none, arrived := none, joining := none, savedFrom := .running, watchOff := false, twait := none } }
  s.drain.endRegion.leaveSlot true

/-! ## The end of a group (R96, R129, R195) -/

/-- The group whose turn it is ends: its slot, reservations, fault records and remaining tiles go, its core gives its owned lines up
(R186), and the placeholder takes the turn. cancelled: its launch is cancelled, which ends a Draining tile's generation too; one that
exits leaves it as it is. The tiles of a destroyed context have gone with it (R195, R405). -/
def State.dropGroup (cancelled : Bool) (s : State) : State :=
  let s := s.closeIdem.drain
  let g := s.g
  let gone := match s.ctxOf g.ctx with | some c => c.st = .destroyed | none => false
  let s := (s.cs.tiles.filter fun (t : Tile) => !gone && t.owner = g.gid && (cancelled || t.st != .draining)).foldl (fun s t => s.freeTile t) s
  let s := (s.cs.savedTiles.filter fun (t : Tile) => t.owner = g.gid).foldl (fun s t =>
    { s with cs := { s.cs with tileGens := sparseSet 0 (256 * t.core + t.idx) (s.tileGen t.core t.idx + 1) s.cs.tileGens } }) s
  let s := (s.detach g.gid).dropAllBars
  let s := { s with
    cs := { s.cs with
      savedTiles := s.cs.savedTiles.filter fun (t : Tile) => t.owner != g.gid }
    cx := { s.cx with notices := s.cx.notices.filter fun n => match n with | .cause q _ => q != g.gid | .fwcall q => q != g.gid | _ => true }
    g := { s.g with phase := .ended, storeQ := [], relBuf := [] } }
  let s := s.settleTokens
  let s := { s with ms := { s.ms.giveUp g.core with tokens := s.ms.tokens.filter fun t => !t.heldBy g } }
  ({ s with g := { } } : State).ctxRests g.ctx

/-! ## Writes on behalf of work (R465) -/

/-- The access of such a write. DEDUCED: one that is atomic needs a multiple of 8, as every atomic does, and a counter elsewhere
fails it with ALIGN (log 81). -/
def DevWrite.spec (w : DevWrite) : AccSpec :=
  let n := match w.op with | .store b => b.length | _ => 8
  let cas := match w.op with | .store _ => false | _ => true
  { cls := if w.pod then .c else .v, acc := if cas then 2 else 1, needR := cas, needW := true, size := n, reads := cas
    align := if cas then some 8 else none }
/-- What the word becomes. -/
def DevOp.bytes (op : DevOp) (old : Nat) : List Byte :=
  match op with
  | .add v => leBytes 8 (old + v.toNat)
  | .mark => leBytes 8 (if natBits old 63 1 = 1 then old else old + 2 ^ 63)
  | .first v => leBytes 8 (if old = 0 then v.toNat else old)
  | .store b => b
/-- The translation cache of a die's command core, as a core number beyond the cores. -/
def cmdCore (die : Nat) : Nat := 256 + die

/-- How such a write ends: performed, waiting for service, or failed. -/
inductive Written where
  | done | waits | failed
  deriving DecidableEq, Repr

/-- Let a write wait on the record of its page, or for a free record. -/
def State.holdWrite (s : State) (w : DevWrite) (pages : List (Nat × Nat)) : State :=
  let w := if w.id = 0 then { w with id := s.cx.nextWrite } else w
  let s := { s with cx := { s.cx with nextWrite := max s.cx.nextWrite (w.id + 1) } }
  let (s, ids) := if s.recordRoom w.die w.ctx pages then s.joinAll w.die w.ctx (.write w.id) pages else (s, [])
  { s with cx := { s.cx with writes := s.cx.writes ++ [{ w with record := ids.headD 0 }] } }

/-- Take a transfer away. -/
def State.dropXfer (s : State) (id : Nat) : State := { s with lk := { s.lk with xfers := s.lk.xfers.filter (·.id ≠ id) } }
/-- Such a write fails (R440, R465): the word is left unwritten and its context becomes Faulted. What is placed after it never is: a launch
of which a unit is not counted does not complete; a transfer whose status word it was is performed. -/
def State.writeFails (s : State) (w : DevWrite) (cause : Byte) : State :=
  let s := s.failCtx w.ctx cause w.addr
  let s := match w.launch with
    | some (d, n) => s.mapPool d n fun e => { e with unitsFailed := true }
    | none => s
  match w.after with | .xfer x => s.dropXfer x | _ => s
/-- MAKE A WRITE ON BEHALF OF WORK (R465): it is performed; or it waits on a fault record; or the word is left unwritten and
the context becomes Faulted. -/
def State.devWrite (s : State) (w : DevWrite) : State × Written :=
  match checkAccess s (cmdCore w.die) w.ctx w.spec true [(0, (w.addr : Int))] with
  | .ok s ts =>
    match ts with
    | (_, _, l) :: _ => (s.memWrite l.key (w.op.bytes (s.memNat l.key 8)), .done)
    | [] => (s, .done)
  | .bad t s =>
    if t.cause == cPAGE then (s.holdWrite w t.pages, .waits)
    else (s.writeFails w t.cause, .failed)
/-- The same, with nothing placed after it. -/
def State.devPut (s : State) (w : DevWrite) : State := (s.devWrite w).1

/-- A draw is complete (R381): CTR + 1. -/
def State.endDraw (s : State) (d : Draw) : State :=
  let s := { s with cs := { s.cs with draws := s.cs.draws.filter fun (x : Draw) => x.id != d.id } }
  if d.ctr = 0 then s else s.devPut { ctx := d.ctx, die := coreDie d.core, addr := d.ctr, op := .add 1, pod := false }

end Sys2Proof.Machine
end

