-- ==== Sys2Proof/Machine/Pool.lean ====
section
/-! DEFINITION. Descriptors, launch records, working sets, pool entries, cancellation and completion (R228 to R241, R271,
R279, R287, R288). -/

namespace Sys2Proof.Machine

/-! ## Descriptors and records (R228 to R231) -/

/-- The descriptor in 64 bytes, read as a number. -/
def kernelOf (d : Nat) : KernelDesc :=
  { entry := natBits d 0 52, slots := natBits d 52 4, scrg := natBits d 64 7, handles := natBits d 71 9, child := natBits d 80 12
    qout := BitVec.ofNat 16 (natBits d 96 16) }
/-- Whether a descriptor is valid (R229). -/
def kernelOk (d : Nat) : Bool :=
  let k := kernelOf d
  natBits d 56 8 = 0 && natBits d 92 4 = 0 && natBits d 112 400 = 0 && k.entry % 8 = 0 && 1 ≤ k.slots && k.slots ≤ 8 &&
  k.handles ≤ 256 && k.scrg ≤ 72 - 3 * k.slots

/-- The record in 64 bytes, read as a number. -/
def recordOf (r : Nat) : Record :=
  { kobj := natBits r 0 52, xm1 := natBits r 64 21, ym1 := natBits r 85 21, zm1 := natBits r 106 21, txl := natBits r 128 4
    tyl := natBits r 132 4, tzl := natBits r 136 4, pclass := natBits r 140 2, grid := natBits r 142 1 = 1, hold := natBits r 143 1 = 1
    ncore := natBits r 144 9, pred := natBits r 160 16, succ0 := BitVec.ofNat 64 (natBits r 192 64), succ1 := BitVec.ofNat 64 (natBits r 256 64)
    arg := natBits r 320 52, wsva := natBits r 384 52, wsn := natBits r 436 8, ctrva := natBits r 448 52 }
/-- KIND of a successor reference. -/
def succKind (x : W64) : Nat := (x.extractLsb' 62 2).toNat
/-- Whether a successor reference is well formed (R231). -/
def succOk (x : W64) : Bool :=
  let v := (x.extractLsb' 0 62).toNat
  match succKind x with
  | 0 => v = 0
  | 1 => v < 2 ^ 48
  | 2 => v < 2 ^ 52 && v % 8 = 0
  | _ => false
/-- Whether a record is accepted, but for its descriptor and list (R230); cores: those of the partition. DEDUCED: a KOBJ or a
WSVA that is not aligned as R228 and R287 say is rejected (log 25). DESIGN CHOICE: a task whose NCORE field exceeds the cores is rejected as any
other record is, though R234 then reads NCORE as 1 (log 107). -/
def recordOk (r cores : Nat) : Bool :=
  let c := recordOf r
  natBits r 52 12 = 0 && natBits r 127 1 = 0 && natBits r 153 7 = 0 && natBits r 176 16 = 0 && natBits r 372 12 = 0 &&
  natBits r 444 4 = 0 && natBits r 500 12 = 0 && c.txl ≤ 10 && c.tyl ≤ 10 && c.tzl ≤ 10 && c.ncore ≤ cores && c.ctrva % 16 = 0 &&
  succOk c.succ0 && succOk c.succ1 && c.kobj % 64 = 0 && (c.wsn = 0 || c.wsva % 32 = 0)

/-- The budgets of QOUT (R277): queue and packets per unit. -/
def KernelDesc.qa (k : KernelDesc) : Nat × Nat := ((k.qout.extractLsb' 4 4).toNat, (k.qout.extractLsb' 0 4).toNat)
def KernelDesc.qb (k : KernelDesc) : Nat × Nat := ((k.qout.extractLsb' 12 4).toNat, (k.qout.extractLsb' 8 4).toNat)

/-! ## Working sets (R287, R288) -/

/-- An entry of 32 bytes, read as a number, with its HOUT. -/
def wsEntry (x hout : Nat) : WsEntry :=
  { va := natBits x 0 52, bytes := natBits x 64 40, level := natBits x 104 4, mode := natBits x 108 3, prio := natBits x 112 2
    shape := BitVec.ofNat 32 (natBits x 128 32), ty := BitVec.ofNat 4 (natBits x 160 4), skew := natBits x 164 1 = 1
    stride := natBits x 192 32, hout := hout }
/-- Rows and columns of a LEVEL 2 entry. -/
def WsEntry.rows (w : WsEntry) : Nat := shRows (w.shape.setWidth 64)
def WsEntry.cols (w : WsEntry) : Nat := shCols (w.shape.setWidth 64)
/-- Granules of a LEVEL 2 entry's tile. -/
def WsEntry.granules (w : WsEntry) : Nat := if w.level = 2 then tileGranules w.ty w.rows w.cols else 0
/-- The checks of one entry. DESIGN CHOICE: R288 lists neither BYTES 0, which stages nothing (log 124), nor a LEVEL 2 VA that is no multiple
of 4, whose rows are read from where they stand (log 126), so that neither rejects the record. -/
def wsOk (x : Nat) (w : WsEntry) : Bool :=
  natBits x 52 12 = 0 && natBits x 111 1 = 0 && natBits x 114 14 = 0 && natBits x 165 27 = 0 && natBits x 224 32 = 0 &&
  w.level ≤ 2 && w.mode ≤ 4 &&
  (if w.level = 2 then
    w.hout != 0 && w.hout < 2 ^ 52 && w.hout % 8 = 0 && w.ty != 15 && (!w.skew || w.ty == 2 || w.ty == 6 || w.ty == 8) &&
    shapeOk w.ty w.skew false (w.shape.setWidth 64) 0 && w.stride % 4 = 0 && memRowBytes w.ty w.cols ≤ w.stride
  else w.shape = 0 && w.ty = 0)
/-- The entries of a list of slots, each with whether it passes its checks; a last entry of LEVEL 2 without a slot for its HOUT
has none, and so fails. -/
def wsParse : List Nat → List (WsEntry × Bool)
  | [] => []
  | [x] => [(wsEntry x 0, wsOk x (wsEntry x 0))]
  | x :: y :: r =>
    if natBits x 104 4 = 2 then (wsEntry x (natBits y 0 64), wsOk x (wsEntry x (natBits y 0 64))) :: wsParse r
    else (wsEntry x 0, wsOk x (wsEntry x 0)) :: wsParse (y :: r)
/-- A list's entries, when the device accepts the list beside a descriptor. -/
def wsList (k : KernelDesc) (slots : List Nat) : Option (List WsEntry) :=
  let l := wsParse slots
  let ws := l.map (·.1)
  let tiles := ws.filter fun w => w.level = 2
  if l.all (·.2) && (tiles.map WsEntry.granules).sum ≤ k.scrg && tiles.length ≤ k.handles then some ws else none
/-- Of entries in list order, those that fail their checks count as LEVEL 0, MODE 0, and so does a LEVEL 2 entry for which the
granules or tiles left do not suffice. -/
def wsKeep : Nat → Nat → List (WsEntry × Bool) → List WsEntry
  | _, _, [] => []
  | scrg, handles, (w, ok) :: r =>
    let ok := ok && (w.level != 2 || (w.granules ≤ scrg && 0 < handles))
    if !ok then { w with level := 0, mode := 0 } :: wsKeep scrg handles r
    else if w.level = 2 then w :: wsKeep (scrg - w.granules) (handles - 1) r
    else w :: wsKeep scrg handles r
/-- The second reading: an entry that fails its checks is ignored. DESIGN CHOICE: of LEVEL 2 entries that together exceed what an inherited
tile leaves of SCRG or HANDLES, the later ones in the list fail (log 80). -/
def wsAgain (scrg handles : Nat) (slots : List Nat) : List WsEntry := wsKeep scrg handles (wsParse slots)

/-! ## Pool entries (R232, R233, R239) -/

/-- Generation of a pool entry. -/
def State.poolGen (s : State) (die entry : Nat) : BitVec 16 := sparseGet 0 s.ls.poolGens (4096 * die + entry)
/-- The join token of an entry. -/
def PoolEntry.token (e : PoolEntry) : W64 := BitVec.ofNat 64 (e.entry + 4096 * e.die + 2 ^ 32 * e.gen.toNat)
/-- Whether an entry is Done. -/
def PoolEntry.isDone (e : PoolEntry) : Bool := e.st = .doneCompleted || e.st = .doneCancelled
/-- Whether an entry is the second of a spanning record. -/
def PoolEntry.isTwin (e : PoolEntry) : Bool := e.die = 1 && e.twin.isSome
/-- The entry a token names, none when it is stale or has a reserved bit. -/
def State.byToken (s : State) (t : W64) : Option PoolEntry :=
  if t.extractLsb' 13 19 != 0 || t.extractLsb' 48 16 != 0 then none
  else (s.poolAt (t.extractLsb' 12 1).toNat (t.extractLsb' 0 12).toNat).filter fun e => e.gen == t.extractLsb' 32 16 && !e.isTwin
/-- Whether a record spans both dies (R233). -/
def Record.spans (r : Record) (psize : Nat) : Bool := psize = 3 && !r.isTask && (r.ncore = 0 || r.ncore > 128)
/-- The Free entry of a die's pool that a new record takes. DESIGN CHOICE: the lowest, since R232 names none (log 118). -/
def State.freeEntry (s : State) (die : Nat) : Option Nat := lowestBelow 4096 fun i => (s.poolAt die i).isNone

/-- Put an entry of its own; its generation is the pool entry's. -/
def State.addEntry (s : State) (e : PoolEntry) : State :=
  { s with ls := { s.ls with pool := s.ls.pool ++ [{ e with gen := s.poolGen e.die e.entry }] } }

/-- An entry becomes Admissible: its age counts from the first time (R291). -/
def State.toAdmissible (s : State) (e : PoolEntry) : State :=
  if e.age != 0 then s.mapPool e.die e.entry fun e => { e with st := .admissible }
  else
    let a := s.ls.nextAge
    { (s.mapPool e.die e.entry fun e => { e with st := .admissible, age := a }) with
      ls := { (s.mapPool e.die e.entry fun e => { e with st := .admissible, age := a }).ls with nextAge := a + 1 } }

/-- Where a record may go: the die and entry, and for a spanning record the entry of die 1; none when a pool is full. -/
def State.entryFor (s : State) (die psize : Nat) (r : Record) : Option (Nat × Nat × Option Nat) :=
  if r.spans psize then
    match s.freeEntry 0, s.freeEntry 1 with
    | some a, some b => some (0, a, some b)
    | _, _ => none
  else (s.freeEntry die).map fun a => (die, a, none)

/-- Entries of the pool that a group holds. -/
def State.childrenOf (s : State) (gid : Nat) : Nat := (s.ls.pool.filter fun e => e.launcher = gid && !e.isTwin).length
/-- Free entries of a die's pool that no group has reserved for its children (R245). -/
def State.poolRoom (s : State) (die : Nat) : Nat :=
  let used := (s.ls.pool.filter fun e => e.die = die).length
  let held := (s.groups.map fun g => if coreDie g.core != die then 0 else match s.entryOf g with
    | some e => e.kd.child - s.childrenOf g.gid
    | none => 0).sum
  4096 - used - held

/-- Granules of an inherited tile. -/
def State.inheritGranules (s : State) (e : PoolEntry) : Nat :=
  match e.inherit with
  | some (h, core) => ((s.tileAt core (hIdx h)).map (·.ngran)).getD 0
  | none => 0
/-- Test 6 of R290: the inherited tile and the LEVEL 2 tiles fit within SCRG. DEDUCED: the same of HANDLES, which they count within
(R190), so that what a group uses never exceeds its reservation (log 114). -/
def State.fitsScrg (s : State) (e : PoolEntry) : Bool :=
  s.inheritGranules e + (e.ws.map WsEntry.granules).sum ≤ e.kd.scrg &&
  e.inherit.toList.length + (e.ws.filter (·.level = 2)).length ≤ e.kd.handles

/-! ## Freeing (R239) -/

/-- Whether a group has begun to join the entry. -/
def State.joined (s : State) (e : PoolEntry) : Bool := s.groups.any fun g => g.joining = some e.token
/-- The entries that free holds of become Free, and their twins with them; their generations rise. -/
def State.freeEntries (s : State) (free : PoolEntry → Bool) : State :=
  let gone := fun (e : PoolEntry) => free e || (e.isTwin && s.ls.pool.any fun x => x.die = 0 && some x.entry = e.twin && free x)
  let out := s.ls.pool.filter gone
  { s with ls := { s.ls with
    pool := s.ls.pool.filter fun e => !gone e
    poolGens := out.foldl (fun l e => sparseSet 0 (4096 * e.die + e.entry) (e.gen + 1) l) s.ls.poolGens } }
/-- A Done entry with no launching group left and no join pending becomes Free. -/
def State.sweepPool (s : State) : State :=
  s.freeEntries fun e => e.isDone && !e.isTwin && (e.launcher = 0 || (s.groupOf e.launcher).isNone) && !s.joined e
/-- Free one Done entry at once: a join has retired on it. Another join parked on it finds its token stale. -/
def State.freeJoined (s : State) (e : PoolEntry) : State := s.freeEntries fun x => x.die = e.die && x.entry = e.entry

/-! ## The header of a packet (R269) -/

/-- Field of n bytes at an offset of a packet. -/
def pkNat (b : List Byte) (off n : Nat) : Nat := leNat ((b.drop off).take n)
/-- KIND, ORD and JEND (R269). -/
def pkKind (b : List Byte) : Nat := pkNat b 0 8 % 16
def pkOrd (b : List Byte) : Bool := natBits (pkNat b 0 8) 4 1 = 1
def pkJend (b : List Byte) : Bool := natBits (pkNat b 0 8) 5 1 = 1
/-- Whether the header has a reserved KIND or bit. -/
def pkHeaderBad (b : List Byte) : Bool := pkKind b = 0 || 8 < pkKind b || natBits (pkNat b 0 8) 6 58 != 0
/-- A number past those of every job that the queues to be freed, and those freed before, have had: a job keeps its name for good (R263). -/
def QueueSys.jobsAfter (qs : QueueSys) (p : Queue → Bool) : Nat := ((qs.queues.filter p).map fun x => x.job + 1).foldl max qs.nextJob
/-- The job that the packet with index k belongs to (R262): of packets that a later iteration of a LOOP starts again, those up to a
JEND stand before the jobs that it began. -/
def Queue.jobAt (x : Queue) (k : Nat) : Nat := x.job - (x.body.filter fun p => k ≤ p.1 && pkJend p.2 && !pkHeaderBad p.2).length

/-! ## Cancellation (R239, R263, R279, R301) -/

/-- What a cancel acts on. up: a cancel of the launch level, which reaches the graph or job of a packet's record. -/
inductive Target where
  | entry (die e : Nat) (up : Bool)
  | run (id : Nat)
  | walk (id : Nat)
  | loop (run it : Nat)
  | job (ctx q j : Nat)
  | unit (ctx gid no : Nat)
  deriving DecidableEq, Repr

/-- The run named id. -/
def State.runOf (s : State) (id : Nat) : Option PacketRun := s.qs.runs.find? (·.id = id)
/-- Replace a run by a function of it. -/
def State.mapRun (s : State) (id : Nat) (f : PacketRun → PacketRun) : State :=
  { s with qs := { s.qs with runs := s.qs.runs.map fun (r : PacketRun) => if r.id = id then f r else r } }
/-- The walk named id. -/
def State.walkOf (s : State) (id : Nat) : Option Walk := s.qs.walks.find? (·.id = id)

/-- Whether work of a context that belongs to the levels m is reached by a cancel of a target. -/
def Target.reaches (t : Target) (ctx : Nat) (m : Member) : Bool :=
  match t with
  | .entry _ _ _ => false
  | .run _ => false
  | .walk w => m.walk = w
  | .loop l it => m.loops.contains (l, it)
  | .job c q j => ctx = c && m.q = q && m.job = j
  | .unit c gid no => ctx = c && m.ugid = gid && m.uno = no

/-- Everything a level's cancel reaches. -/
def State.under (s : State) (t : Target) : List Target :=
  ((s.ls.pool.filter fun e => !e.isDone && !e.isTwin && t.reaches e.ctx e.mem).map fun e => .entry e.die e.entry false) ++
  ((s.qs.runs.filter fun r => !r.cancelled && t.reaches r.seq.ctx r.mem).map fun r => .run r.id)
/-- Packets placed and not consumed that it reaches are passed over when their turn comes, and wait on no fault record (R397). -/
def State.dropPlaced (s : State) (t : Target) : State :=
  let mine := s.qs.placed.filter fun p => t.reaches p.ctx p.mem
  let s := { s with qs := { s.qs with placed := s.qs.placed.map fun (p : Placed) => if t.reaches p.ctx p.mem then { p with cancelled := true } else p } }
  s.dropReqs fun q => match q with
    | .packet r => r.walk = 0 && mine.any fun p => p.ctx = r.ctx && p.q = r.q && s.qs.queues.any fun x => x.ctx = p.ctx && x.q = p.q && x.pos = p.index
    | _ => false

/-- Open ranges of a sequence. -/
def State.rangesOf (s : State) (q : SeqRef) : List Range := ((s.qs.ranges.find? (·.1 = q)).map (·.2)).getD []
/-- Replace them. -/
def State.setRanges (s : State) (q : SeqRef) (l : List Range) : State :=
  { s with qs := { s.qs with ranges := (if l = [] then [] else [(q, l)]) ++ s.qs.ranges.filter fun x => x.1 != q } }
/-- Put the position of a sequence somewhere else. -/
def State.setPos (s : State) (q : SeqRef) (p : Nat) : State :=
  if q.walk = 0 then { s with qs := { s.qs with queues := s.qs.queues.map fun (x : Queue) => if x.ctx = q.ctx && x.q = q.q then { x with pos := p } else x } }
  else { s with qs := { s.qs with walks := s.qs.walks.map fun (w : Walk) => if w.id = q.walk then { w with pos := p } else w } }

/-- What the trap registers get when a cancel reaches a requester that waits for a free fault record: PAGE with code 3 (R395). -/
def TrapRegs.unrecorded (t : TrapRegs) : TrapRegs := { t with einfo := (t.einfo &&& ~~~ 15) ||| 3 }
/-- A group is discarded (R96): one that holds a slot is Discarding and leaves its fault records (R397), an undispatched one is
released, a saved one has ended; a started atomic is waited for (R185). DESIGN CHOICE: a group that is Saving, or Discarding by a
pre-emption, turns to Discarding by cancel at once (log 69). -/
def State.discardGroup (s : State) (g : Group) : State :=
  match g.phase with
  | .bound =>
    let s := s.releaseBound g
    { s with g := if s.g.gid = g.gid then { } else s.g, others := s.others.filter fun x => x.gid != g.gid }
  | .saved | .loading => s.onGroup g.gid (State.dropGroup true)
  | .ended => s
  | _ =>
    if g.atomic.isSome then s.mapGroup g.gid fun g => { g with owes := some .discard }
    else (s.detach g.gid).mapGroup g.gid fun g =>
      let r := match g.noRecord with | some t => { g.r with trap := t.unrecorded } | none => g.r
      { g with phase := .discardingCancel, rays := [], records := [], noRecord := none, r := r }

/-- An entry is cancelled (R239): its groups are discarded, its staging stops, its inherited tile is freed, the generation of a tile that an
exited group of it left Draining ends (R195), and its packet is cancelled. -/
def State.cancelEntry (s : State) (e : PoolEntry) : State :=
  let s := s.mapPool e.die e.entry fun e => { e with st := .doneCancelled }
  let s := s.dropStaging fun d n => d = e.die && n = e.entry
  let s := match e.inherit with
    | some (h, core) => match s.tileAt core (hIdx h) with
      | some t => if t.gen == hGen h && t.owner = 0 then s.freeTile t else s
      | none => s
    | none => s
  let left := s.cs.tiles.filter fun t => t.st = .draining && t.launch = some (e.die, e.entry, e.gen) && (s.groupOf t.owner).isNone
  let s := left.foldl State.freeTile s
  (s.groups.filter fun g => g.ofEntry e).foldl State.discardGroup s

/-- CANCEL mark on a counter (R262). -/
def State.cancelMark (s : State) (ctx ctr : Nat) : State :=
  if ctr = 0 then s else s.devPut { ctx := ctx, die := s.ctxDie ctx, addr := ctr, op := .mark }

/-- The position of a sequence. -/
def State.posOf (s : State) (q : SeqRef) : Nat :=
  if q.walk = 0 then ((s.queueAt q.ctx q.q).map (·.pos)).getD 0 else ((s.walkOf q.walk).map (·.pos)).getD 0
/-- Ranges open in a sequence whose end its position has reached are closed when they only pass packets over. -/
def dropSkips (pos : Nat) : List Range → List Range
  | [] => []
  | r :: l => if r.skip && r.first + r.len ≤ pos then dropSkips pos l else r :: l
/-- A COND or LOOP closes: the ranges within it are no longer open, and what is left of its own is passed over. -/
def State.closeRange (s : State) (r : PacketRun) : State :=
  match (s.rangesOf r.seq).dropWhile (·.run ≠ r.id) with
  | [] => s
  | x :: l => s.setRanges r.seq (dropSkips (s.posOf r.seq) ({ x with run := 0, loop := false, skip := true } :: l))
/-- Take a run away. -/
def State.dropRun (s : State) (id : Nat) : State := { s with qs := { s.qs with runs := s.qs.runs.filter (·.id ≠ id) } }
/-- The die whose command core consumes a queue (R233). -/
def State.queueDie (s : State) (ctx q : Nat) : Nat :=
  match s.ctxOf ctx with
  | some c => if c.psize = 3 then q % 2 else c.fsect / 4
  | none => 0
/-- Count the jobs of a queue that have completed: their JEND packet and every older one (R262). -/
def State.countJobs (s : State) (ctx q : Nat) : State :=
  match s.queueAt ctx q with
  | none => s
  | some x =>
    let ended := x.jends.filter fun j => !s.qs.runs.any fun r => r.seq.ctx = ctx && r.seq.q = q && r.seq.walk = 0 && r.job ≤ j.1
    let s := s.mapQueue ctx q fun x => { x with jends := x.jends.filter fun j => !ended.contains j }
    if x.jctr = 0 then s
    else ended.foldl (fun s _ => s.devPut { ctx := ctx, die := s.queueDie ctx q, addr := x.jctr, op := .add 1 }) s
/-- Whether a packet of a queue goes with a LOOP of the same queue whose iteration is cancelled, and which completes (R279). -/
def State.loopEnds (s : State) (r : PacketRun) : Bool := r.mem.loops.any fun l => (s.runOf l.1).any fun x => x.ready && x.seq = r.seq
/-- A cancelled packet goes; its sequence waits for it no longer. DEDUCED: it has not completed, so its own job does not complete, unless it
goes with a LOOP that does; the jobs after it do (R262, R276, log 115). -/
def State.cancelRun (s : State) (r : PacketRun) : State :=
  let s := if r.seq.walk != 0 || s.loopEnds r then s else s.mapQueue r.seq.ctx r.seq.q fun x =>
    if r.job = x.job then { x with lost := true } else { x with jends := x.jends.filter (·.1 ≠ r.job) }
  (s.dropRun r.id).countJobs r.seq.ctx r.seq.q

/-- The effect of a cancel on one target, and what it reaches (R279). -/
def State.cancelOne (s : State) : Target → State × List Target
  | .entry d n up =>
    match s.poolAt d n with
    | none => (s, [])
    | some e =>
      if e.isDone || e.isTwin then (s, [])
      else
        let succ := [e.rc.succ0, e.rc.succ1].filterMap fun x =>
          if succKind x = 1 then ((s.byToken (x.extractLsb' 0 62 |>.setWidth 64)).filter (·.ctx = e.ctx)).map fun x => Target.entry x.die x.entry true else none
        let above := match up, s.runOf e.run with
          | true, some r => if r.mem.walk != 0 then [Target.walk r.mem.walk] else [.job r.seq.ctx r.mem.q r.mem.job]
          | _, _ => []
        let s := s.cancelEntry e
        let held := s.ls.pool.filter fun x => x.st = .held && x.launcher != 0 && (s.groupOf x.launcher).isNone
        let packet := if e.run = 0 then [] else [Target.run e.run]
        (s, above ++ packet ++ succ ++ held.map fun x => Target.entry x.die x.entry true)
  | .run id =>
    match s.runOf id with
    | none => (s, [])
    | some r =>
      if r.cancelled then (s, [])
      else
        let s := s.dropReqs fun q => q = .copy id || q = .started id
        match r.kind with
        | 3 => (s.mapRun id fun r => { r with cancelled := true, status := if r.status = 0 then 3 else r.status }, [])
        | 4 => (s.mapRun id fun r => { r with cancelled := true }, [.walk r.walk])
        | 5 | 6 => ((s.closeRange r).cancelRun r, [])
        | 1 | 2 => (s.cancelRun r, if (s.poolAt r.die r.entry).any (·.run = id) then [.entry r.die r.entry false] else [])
        | _ => (s.cancelRun r, [])
  | .walk id =>
    match s.walkOf id with
    | none => (s, [])
    | some w =>
      if w.cancelled || (s.runOf w.run).any (·.it = 1) then (s, [])
      else
        let all := s.under (.walk id)
        let s := { s with qs := { s.qs with walks := s.qs.walks.map fun (w : Walk) => if w.id = id then { w with cancelled := true } else w } }
        let seq : SeqRef := { ctx := w.ctx, q := w.q, walk := id }
        let s := ((s.dropPlaced (.walk id)).setRanges seq []).dropReqs (· = .packet seq)
        (s.cancelMark w.ctx w.gctr, all)
  | .loop id it =>
    match s.runOf id with
    | none => (s, [])
    | some r =>
      if r.ready || r.it != it then (s, [])
      else
        let all := s.under (.loop id it)
        let s := if (s.rangesOf r.seq).any (·.run = id) then s.dropReqs (· = .packet r.seq) else s
        (((s.dropPlaced (.loop id it)).closeRange r).mapRun id fun r => { r with ready := true }, all)
  | .job ctx q j =>
    match s.queueAt ctx q with
    | none => (s, [])
    | some x =>
      if j = x.job && !x.skipJob then
        let all := s.under (.job ctx q j)
        let seq : SeqRef := { ctx := ctx, q := q }
        let s := (s.dropPlaced (.job ctx q j)).dropReqs (· = .packet seq)
        let s := s.setRanges seq ((s.rangesOf seq).filter fun x => !(s.runOf x.run).any fun r => r.job = j)
        let s := s.mapQueue ctx q fun x => { x with skipJob := true }
        (s.cancelMark ctx x.jctr, all)
      else if x.jends.any (·.1 = j) then
        let all := s.under (.job ctx q j)
        let next := x.jobAt x.pos = j && !s.qs.placed.any fun p => p.ctx = ctx && p.q = q && p.index = x.pos
        let s := s.dropPlaced (.job ctx q j)
        let s := if next then s.dropReqs (· = .packet { ctx := ctx, q := q }) else s
        let s := s.mapQueue ctx q fun x => { x with jends := x.jends.filter (·.1 ≠ j), gone := insertNat j x.gone }
        (s.cancelMark ctx x.jctr, all)
      else (s, [])
  | .unit ctx gid no => (s.dropPlaced (.unit ctx gid no), s.under (.unit ctx gid no))

/-- Cancel everything in a list, and what it reaches in turn. -/
def State.cancelAll : Nat → List Target → State → State
  | 0, _, s => s
  | _, [], s => s
  | fuel + 1, t :: r, s =>
    let (s, more) := s.cancelOne t
    State.cancelAll fuel (r ++ more) s
/-- CANCEL (R279): each entry, packet, walk and job is cancelled at most once, so the bound on the list is never met. -/
def State.cancel (s : State) (t : Target) : State :=
  (State.cancelAll ((s.ls.pool.length + s.qs.runs.length + s.qs.walks.length + s.qs.queues.length + 2) ^ 2) [t] s).sweepPool

/-! ## Becoming Admissible; completion (R239, R240, R271, R290) -/

/-- An entry whose PRED is 0 becomes Admissible; one that can never fit is cancelled (R290). -/
def State.becomeReady (s : State) (e : PoolEntry) : State :=
  if s.fitsScrg e then s.toAdmissible e else s.cancel (.entry e.die e.entry true)
/-- PRED of a token's entry is decremented; a stale token, or one of another context, is ignored (R240). -/
def State.decPred (s : State) (ctx : Nat) (t : W64) : State :=
  match (s.byToken t).filter fun e => e.ctx = ctx with
  | none => s
  | some e =>
    let s' := s.mapPool e.die e.entry fun e => { e with pred := e.pred - 1 }
    match e.st with
    | .held => s'
    | .waiting => if e.pred ≤ 1 then s'.becomeReady { e with pred := 0 } else s'
    | _ => s

/-- Act on successor references in order (R239, R240); one that waits keeps those after it. -/
def State.runSucc (s : State) (ctx die : Nat) : List W64 → State
  | [] => s
  | x :: r =>
    match succKind x with
    | 1 => State.runSucc (s.decPred ctx (x.extractLsb' 0 62 |>.setWidth 64)) ctx die r
    | 2 =>
      match s.devWrite { ctx := ctx, die := die, addr := (x.extractLsb' 0 52).toNat, op := .add (-1), after := .succ r } with
      | (s, .done) => State.runSucc s ctx die r
      | (s, _) => s
    | _ => State.runSucc s ctx die r

/-- The parts of a range of addresses that lie in one 64 KiB page each. -/
def pageParts (va n : Nat) : List (Nat × Nat) :=
  if n = 0 then [] else (pageStarts va 0 n 1).map fun a => (a, min (va + n) ((a / 65536 + 1) * 65536) - a)
/-- A coherence action at de on every line of a range (R271): DESIGN CHOICE: lines whose page does not
translate, or lacks a right, are passed over and the action goes on, since R271 names no reaction (log 120). It also answers whether a link that should have taken bytes was down (R437). -/
def State.rangeAction (s : State) (ctx die : Nat) (wb drop : Bool) (va n : Nat) : State × Bool :=
  (pageParts va n).foldl (fun (acc : State × Bool) p =>
    match checkAccess acc.1 (cmdCore die) ctx { (if wb then wbSpec 7 else invSpec) with cls := .c } true [(0, (p.1 : Int))] with
    | .ok s ts => match ts with
      | (_, _, l) :: _ => (s.lineAction wb drop (linesOf l.key p.2), acc.2)
      | [] => (s, acc.2)
    | .bad t s => (s, acc.2 || t.cause == cLINK)) (s, false)
/-- The action of a working-set entry before it is staged (R271, R295). -/
def State.wsBefore (s : State) (ctx die : Nat) (w : WsEntry) : State :=
  if w.mode = 1 then (s.rangeAction ctx die false true w.va w.bytes).1 else s
/-- Its action after the work completes, and whether a link was down. -/
def State.wsAfter (s : State) (ctx die : Nat) (w : WsEntry) : State × Bool :=
  match w.mode with
  | 2 | 4 => s.rangeAction ctx die true false w.va w.bytes
  | 3 => s.rangeAction ctx die true true w.va w.bytes
  | _ => (s, false)
/-- The actions of every entry after the work completes, and whether a link was down. -/
def State.wsAfterAll (s : State) (ctx die : Nat) (ws : List WsEntry) : State × Bool :=
  ws.foldl (fun (acc : State × Bool) w => let r := acc.1.wsAfter ctx die w; (r.1, acc.2 || r.2)) (s, false)

/-- Cores of a context's partition in a sector that its policy allows (R286, R290), rising. -/
def State.allowedCores (s : State) (ctx : Nat) : List Nat :=
  match s.ctxOf ctx with
  | none => []
  | some c => (List.range 256).filter fun k => c.hasCore k && (sparseGet { } s.ls.policy ctx).sect.getLsbD (k / 32)
/-- How many groups a launch binds (R234, R237). -/
def State.ncore (s : State) (e : PoolEntry) : Nat :=
  if e.rc.isTask then 1 else if e.rc.ncore = 0 then (s.allowedCores e.ctx).length else e.rc.ncore
/-- Whether further binding is over (R237). -/
def State.bindingOver (s : State) (e : PoolEntry) : Bool := e.next ≥ e.rc.count || e.bound ≥ s.ncore e

/-- Whether the work of a launch is over: its last bound group has ended, binding is over and every UNITS increase is
performed, none having failed (R465). -/
def State.workOver (s : State) (e : PoolEntry) : Bool :=
  e.st = .running && 0 < e.bound && e.bound ≤ e.ended && s.bindingOver e && !e.unitsFailed && !s.cx.writes.any fun w => w.launch = some (e.die, e.entry)
/-- A LAUNCH COMPLETES (R236, R239, R240, R271), once its work is over and every link takes what its coherence actions write back:
then DONE + 1, then SUCC0, then SUCC1. -/
def State.launchEnds (s : State) (die entry : Nat) : State :=
  match s.poolAt die entry with
  | none => s
  | some e =>
    if !s.workOver e then s
    else
      let (s, down) := s.wsAfterAll e.ctx die e.ws
      if down then s
      else
        let s := s.mapPool die entry fun e => { e with st := .doneCompleted }
        let s := s.dropStaging fun d n => d = die && n = entry
        let s := s.mapRun e.run fun r => { r with ready := true }
        let refs := [e.rc.succ0, e.rc.succ1]
        let s := if e.rc.ctrva = 0 then s.runSucc e.ctx die refs
          else match s.devWrite { ctx := e.ctx, die := die, addr := e.rc.ctrva + 8, op := .add 1, after := .succ refs } with
            | (s, .done) => s.runSucc e.ctx die refs
            | (s, _) => s
        s.sweepPool

/-- A unit of the group whose turn it is ends (R234, R236, R278): UNITS + 1 once its older stores are performed, and its
unused ring slots return. -/
def State.endUnit (s : State) : State :=
  match s.g.unit with
  | none => s
  | some _ =>
    let s := s.drain
    let s := { s with g := { s.g with unit := none, resA := 0, resB := 0 } }
    match s.ownEntry with
    | none => s
    | some e =>
      if e.rc.ctrva = 0 then s
      else s.devPut { ctx := e.ctx, die := e.die, addr := e.rc.ctrva, op := .add 1, after := .unit e.die e.entry, launch := some (e.die, e.entry) }

/-- What follows the end of a group (R239, R260): its launch may complete, records it holds for hpass are cancelled, and its
Done children become Free. -/
def State.afterGroup (s : State) (g : Group) : State :=
  let own := s.entryOf g
  let s := match own with
    | none => s
    | some e => s.mapGrid e PoolEntry.groupEnded
  let s := (s.ls.pool.filter fun e => e.launcher = g.gid && e.st = .held).foldl (fun s e => s.cancel (.entry e.die e.entry true)) s
  let s := s.sweepPool
  match own with
  | none => s
  | some e => s.launchEnds e.die e.entry

end Sys2Proof.Machine
end

