-- ==== Sys2Proof/Machine/Launch.lean ====
section
/-! DEFINITION. exit, and the launch instructions fetch, launch, join, hpass and linfo (R129, R243 to R248). -/

namespace Sys2Proof.Machine

/-- Read bytes for the group whose turn it is through class g (R245, R281): its own older stores are seen, and watchpoints
apply. DESIGN CHOICE: these reads of launch, enq and cnt are no plain loads, so they take no snare token and meet none (R218, log 92). -/
def groupBytes (addr n : Nat) : Rd (List Byte) :=
  ExceptT.mk fun s =>
    match checkAccess s s.g.core s.g.ctx (.eread .g 1) true ((sectorStarts addr n).map fun a => (0, (a : Int))) with
    | .bad t s => (.error t, s)
    | .ok s ts =>
      match checkWatch s s.g (.eread .g n) true [(0, (addr : Int))] with
      | some t => (.error t, s)
      | none => (.ok ((List.range n).map fun i => match ts.find? fun t => t.2.1.toNat ≤ addr + i && t.2.1.toNat / 32 = (addr + i) / 32 with
          | some t => s.ownByte (t.2.2.key + (addr + i - t.2.1.toNat))
          | none => 0), s)
/-- Read a little-endian number so. -/
def groupNat (addr n : Nat) : Rd Nat := do return leNat (← groupBytes addr n)

/-! ## exit (R129) -/

/-- Whether work that exit waits for is not performed yet: copies, merges, link transfers, and copies out of its tiles. -/
def State.exitWaits (s : State) : Bool :=
  s.cs.copies.any (·.gid = s.g.gid) || s.cs.merges.any (·.gid = s.g.gid) || s.lk.xfers.any (·.gid = s.g.gid) ||
  s.cs.tiles.any fun t => t.owner = s.g.gid && t.outbound > 0

/-- The group ends: rays are cancelled, its unit ends, and its slot, tiles and barriers go. -/
def State.endGroup (s : State) : State :=
  let g := s.g
  let s := s.cancelRays.endUnit.dropGroup false
  s.afterGroup g

/-- EXIT (R129): its region ends as it starts (R216); it waits, with its stores performed, until everything the group issued is
performed; then the group has ended. -/
def execExit (_f : FB) (s : State) : Out :=
  settle (mustBeLast s <|
    let s := s.closeIdem.endAtStart.drain
    if s.exitWaits then .stay s else .stay s.endGroup)

/-! ## fetch (R244) -/

/-- Slots of a queue that bound groups have reserved (R278). -/
def State.slotsReserved (s : State) (ctx q : Nat) : Nat :=
  (s.groups.map fun g => if g.ctx != ctx then 0 else match s.entryOf g with
    | some e => (if e.kd.qa.1 = q then g.resA else 0) + (if e.kd.qb.1 = q then g.resB else 0)
    | none => 0).sum
/-- Whether a queue admits a reservation of n more slots (R278). -/
def State.queueFits (s : State) (ctx q n : Nat) : Bool :=
  n = 0 || match s.queueAt ctx q with
    | some x => x.feed && x.widx - x.ridx + s.slotsReserved ctx q + n ≤ 2 ^ (x.log2n + 4)
    | none => false
/-- Whether a kernel's budgets can be reserved for n more groups. -/
def State.budgetsFit (s : State) (ctx : Nat) (k : KernelDesc) (n : Nat) : Bool :=
  if k.qa.1 = k.qb.1 then s.queueFits ctx k.qa.1 (n * (k.qa.2 + k.qb.2))
  else s.queueFits ctx k.qa.1 (n * k.qa.2) && s.queueFits ctx k.qb.1 (n * k.qb.2)

/-- The end of the index space, as fetch returns it. -/
def fetchEnd : W64 := 0x8000000000000000

/-- FETCH (R234, R244, R278): a held unit ends; then the next coordinate, or END. DEDUCED: the reservation made at binding
serves the first unit, so the one made at the first fetch takes its place (log 29). -/
def execFetch (f : FY) (s : State) : Out :=
  let s0 := s
  let s := s.closeIdem.endUnit
  settle (match s.ownEntry with
    | none => .next (s.setS f.d fetchEnd)
    | some e =>
      if e.next ≥ e.rc.count then .next (s.setS f.d fetchEnd)
      else if !({ s with g := { s.g with resA := 0, resB := 0 } } : State).budgetsFit s.g.ctx e.kd 1 then .park (if s0.g.unit.isNone then s0 else s)
      else
        let s := s.mapPool e.die e.entry fun e => { e with next := e.next + 1 }
        let s := { s with g := { s.g with unit := some e.next, unitNo := s.g.unitNo + 1, resA := e.kd.qa.2, resB := e.kd.qb.2 } }
        .next (s.setS f.d (BitVec.ofNat 64 (e.rc.coord e.next))))

/-! ## launch (R245) -/

/-- CHILD of the group's kernel. -/
def State.childLimit (s : State) : Nat := match s.ownEntry with | some e => e.kd.child | none => 0

/-- Put a record into a pool (R239): Held, Waiting or Admissible; the token comes with it. -/
def State.enterPool (s : State) (die : Nat) (c : Ctx) (rc : Record) (kd : KernelDesc) (ws : List WsEntry) (launcher run : Nat) (mem : Member) : Option (State × PoolEntry) :=
  (s.entryFor die c.psize rc).map fun p =>
    let e : PoolEntry :=
      { die := p.1, entry := p.2.1, gen := s.poolGen p.1 p.2.1, st := if rc.hold then .held else .waiting, ctx := c.n, rc := rc, kd := kd
        pred := rc.pred, launcher := launcher, mem := mem, run := run, twin := p.2.2, ws := ws }
    let s := s.addEntry e
    let s := match p.2.2 with | some b => s.addEntry { e with die := 1, entry := b, twin := some p.2.1 } | none => s
    (if !rc.hold && rc.pred = 0 then s.becomeReady e else s, e)

/-- Read a record, its descriptor and its working set for the group: none when one is rejected (R229, R230, R288). -/
def readLaunch (cores addr : Nat) : Rd (Option (Record × KernelDesc × List WsEntry)) := do
  let r ← groupNat addr 64
  let rc := recordOf r
  let d ← groupNat rc.kobj 64
  if !recordOk r cores || !kernelOk d then return none
  let slots ← (List.range rc.wsn).mapM fun i => groupNat (rc.wsva + 32 * i) 32
  return (wsList (kernelOf d) slots).map fun ws => (rc, kernelOf d, ws)

/-- LAUNCH (R245): the group's older stores are performed before the record enters the pool, so that the child sees them (R213). -/
def execLaunch (f : FY) (s : State) : Out :=
  let g := s.g
  let a := (g.sget f.a).toNat
  let c := (s.ctxOf g.ctx).getD default
  settle <| orTrap (readPoison g [g.sitem f.a]) s <|
    if a % 64 != 0 then .trap { cause := cALIGN, eaddr := g.sget f.a } s
    else match (readLaunch (32 * 2 ^ c.psize) a).at s with
      | (.error t, s) => .trap t s
      | (.ok none, s) => .trap (budget 5) s
      | (.ok (some (rc, kd, ws)), s) =>
        if s.childrenOf g.gid ≥ s.childLimit then .trap (budget 4) s
        else
          let s := s.closeIdem.drain.endRegion
          match s.enterPool (coreDie g.core) c rc kd ws g.gid 0 { g.mem with ugid := g.gid, uno := g.unitNo } with
          | none => .trap (budget 4) s
          | some (s, e) => .next (s.setS f.d e.token)

/-! ## join (R246) -/

/-- The group has done with its join. -/
def State.endJoin (s : State) (f : FY) (x : W64) : State := { s.setS f.d x with g := { (s.setS f.d x).g with joining := none } }

/-- JOIN (R246): its region ends as it starts (R216). -/
def execJoin (f : FY) (s : State) : Out :=
  let g := s.g
  let t := g.sget f.a
  settle <| orTrap (readPoison g [g.sitem f.a]) s <|
    let s' := s.unreplayable.endAtStart
    match s.byToken t with
    | none => .next (s'.endJoin f 2)
    | some e =>
      if e.ctx != g.ctx then .next (s'.endJoin f 2)
      else if g.ofEntry e then .next (s'.endJoin f 3)
      else if e.isDone then .next ((s'.endJoin f (if e.st = .doneCompleted then 0 else 1)).freeJoined e)
      else .park { s.endAtStart with g := { s.endAtStart.g with joining := some t } }

/-! ## hpass (R247) -/

/-- HPASS (R239, R247): the tile goes to the Held record, which leaves Held. DESIGN CHOICE: a token of another context's Held task is
refused as a stale one is, with BUDGET code 7, where R247 says nothing of it (log 106). -/
def execHpass (f : FY) (s : State) : Out :=
  let g := s.g
  settle <| orTrap (readPoison g [g.sitem f.a, g.sitem f.b]) s <| withTile s (g.sget f.a) 0 (fun t => !t.isGlobal) fun t =>
    if t.owner != g.gid then .trap (tileState 4) s
    else match (s.byToken (g.sget f.b)).filter fun e => e.ctx = g.ctx && e.st = .held && e.rc.isTask with
      | none => .trap (budget 7) s
      | some e =>
        let s := s.closeIdem.endRegion
        let s := s.mapTile t.core t.idx fun t => { t with owner := 0, launch := none }
        let e := { e with inherit := some (g.sget f.a, t.core), st := .waiting }
        let s := s.mapPool e.die e.entry fun _ => e
        .next (if e.pred = 0 then s.becomeReady e else s)

/-! ## linfo (R248) -/

/-- The value of a selector. -/
def linfoValue (s : State) (sel : Nat) : W64 :=
  match s.ownEntry with
  | none => 0
  | some e =>
    match sel with
    | 0 => e.token
    | 1 => BitVec.ofNat 64 (e.rc.xm1 + e.rc.ym1 * 2 ^ 21 + e.rc.zm1 * 2 ^ 42)
    | 2 => BitVec.ofNat 64 (e.rc.txl + e.rc.tyl * 2 ^ 4 + e.rc.tzl * 2 ^ 8)
    | 3 => BitVec.ofNat 64 s.g.ordinal
    | 4 => BitVec.ofNat 64 e.bound
    | 5 => BitVec.ofNat 64 e.rc.arg
    | 6 => s.g.inherit
    | _ => BitVec.ofNat 64 e.rc.kobj

/-- LINFO (R248). -/
def execLinfo (f : FY) (s : State) : Out := settle (.next (s.setS f.d (linfoValue s f.imm.toNat)))

end Sys2Proof.Machine
end

