-- ==== Sys2Proof/Machine/Queue.lean ====
section
/-! DEFINITION. Queues, packets, graph walks, and the instructions enq, qfence, cnt and cancel (R262 to R284, R465). -/

namespace Sys2Proof.Machine

/-! ## Queues (R264 to R266) -/

/-- Address of the packet with index k. -/
def Queue.slotAt (x : Queue) (k : Nat) : Nat := x.base + 64 * (k % x.size)
/-- Whether the partition of a context is quarantined (R451). -/
def State.quarantined (s : State) (ctx : Nat) : Bool :=
  match s.ctxOf ctx with
  | some c => s.cx.parts.any fun p => p.fsect = c.fsect && p.quarantined
  | none => false

/-- QUEUE_CREATE (R264, R266): system software's descriptor, when valid, makes the queue Active. A Created context has no partition whose
memory could hold one (R2, R404; log 78). -/
def execQueueCreate (ctx q : Nat) (s : State) : Out :=
  done (match s.ctxOf ctx with
    | none => s
    | some c =>
      let d := s.memNat (c.qtab + 64 * q) 64
      let s := s.seen (c.qtab + 64 * q) 64
      let ok := q < 256 && c.inMemory (c.qtab + 64 * q) 64 && (s.queueAt ctx q).isNone && c.st != .created && c.st != .destroyed && natBits d 0 52 % 64 = 0 && natBits d 57 7 = 0 &&
        natBits d 208 48 = 0 && natBits d 320 52 % 8 = 0 && natBits d 372 140 = 0
      if !ok then s
      else
        let x : Queue :=
          { ctx := ctx, q := q, base := natBits d 0 52, log2n := natBits d 52 4, feed := natBits d 56 1 = 1, jctr := natBits d 320 52
            ridx := natBits d 64 64, widx := natBits d 128 64, pos := natBits d 64 64, job := s.qs.nextJob }
        ({ s with qs := { s.qs with queues := s.qs.queues ++ [x] } }).showQueue x)

/-- A write reaches a doorbell word (R22, R265): its queue takes the word's value, which the command core reads at its home slice (R186),
unless the partition is quarantined (R23). -/
def State.ringWord (s : State) (c : Ctx) (q : Nat) : State :=
  if s.quarantined c.n then s else (s.seen (c.dbell + 8 * q) 8).mapQueue c.n q fun x => x.ring (s.memNat (c.dbell + 8 * q) 8)
/-- A doorbell write of the host (R22, R265, R451). One to a quarantined partition, to a queue without a descriptor or to a
device-fed queue is dropped, and so is one that arrives after a destroy (R268). -/
def State.doorbell (s : State) (ctx q : Nat) (value : W64) : State :=
  match s.ctxOf ctx, s.queueAt ctx q with
  | some c, some x =>
    if s.quarantined ctx || x.feed then s
    else
      let s' := s.ctxPut c (c.dbell + 8 * q) 8 value.toNat
      ({ s' with ms := { s'.ms with wrote := s.ms.wrote } } : State).mapQueue ctx q fun x => x.ring value.toNat
  | _, _ => s
/-- DOORBELL_WRITE (R265, R448). -/
def execDoorbellWrite (ctx q : Nat) (value : W64) (s : State) : Out :=
  done (s.whenAwake (.doorbell ctx q value) fun s => s.doorbell ctx q value)

/-- Free a queue (R266): every packet of it not yet completed is cancelled. A cancelled COPY still writes its record (R273), as a
packet of no sequence. DESIGN CHOICE: the STATE byte of the descriptor then shows 0, since R266 gives Free no code (log 121). -/
def State.freeQueue (s : State) (ctx q : Nat) : State :=
  let mine := fun (r : PacketRun) => r.seq.ctx = ctx && r.seq.q = q
  let s := { s with qs := { s.qs with queues := s.qs.queues.map fun (x : Queue) => if x.ctx = ctx && x.q = q then { x with jends := [] } else x } }
  let s := (s.qs.runs.filter fun r => mine r && r.seq.walk = 0).foldl (fun s r => s.cancel (.run r.id)) s
  let none_ := s.qs.nextWalk
  let s := match s.ctxOf ctx with | some c => s.ctxPut c (c.qtab + 64 * q + 24) 1 0 | none => s
  let s := s.dropReqs fun r => match r with | .packet x => x.ctx = ctx && x.q = q | _ => false
  { s with qs := { s.qs with
    nextWalk := none_ + 1
    nextJob := s.qs.jobsAfter fun x => x.ctx = ctx && x.q = q
    queues := s.qs.queues.filter fun x => !(x.ctx = ctx && x.q = q)
    runs := (s.qs.runs.filter fun r => !mine r || r.kind = 3).map fun r => if mine r then { r with seq := { r.seq with walk := none_ } } else r
    walks := s.qs.walks.filter fun w => !(w.ctx = ctx && w.q = q)
    ranges := s.qs.ranges.filter fun p => !(p.1.ctx = ctx && p.1.q = q)
    placed := s.qs.placed.filter fun p => !(p.ctx = ctx && p.q = q) } }
/-- QUEUE_DESTROY (R266). -/
def execQueueDestroy (ctx q : Nat) (s : State) : Out := done (if (s.queueAt ctx q).isSome then s.freeQueue ctx q else s)

/-! ## Reading packets -/

/-- Whether bytes lo to hi − 1 of a packet are 0. -/
def pkZero (b : List Byte) (lo hi : Nat) : Bool := ((b.drop lo).take (hi - lo)).all (· == 0)
/-- ERR 1 or 2 for a packet that breaks R269 or R270; 0 when it does not. DESIGN CHOICE: a body field out of its range (LEN, N, TEST, OP,
SCOPE, PCLASS), for which the ERR table names no code, gives 1 (log 108). -/
def pkErr (b : List Byte) : Nat :=
  let al (off m : Nat) : Bool := pkNat b off 8 % m = 0
  let two (zero aligned : Bool) : Nat := if !zero then 1 else if !aligned then 2 else 0
  if pkHeaderBad b then 1
  else match pkKind b with
    | 1 => two (pkZero b 16 64) (al 8 64)
    | 2 => two (pkZero b 34 40 && pkZero b 48 64 && pkNat b 33 1 < 4) true
    | 3 => two (pkZero b 48 64 && pkNat b 24 8 % 4 = 0 && pkNat b 24 8 ≤ 2 ^ 40) (al 8 4 && al 16 4 && al 32 64)
    | 4 => two (pkZero b 16 64) (al 8 64)
    | 5 => two (pkZero b 26 64 && pkNat b 24 1 != 0 && pkNat b 25 1 < 2) (al 8 8)
    | 6 => two (pkZero b 26 32 && pkZero b 36 40 && pkZero b 48 64 && pkNat b 24 1 != 0 && pkNat b 25 1 < 2) (al 8 8)
    | 7 => two (pkZero b 26 64 && pkNat b 24 1 < 2 && 6 ≤ pkNat b 25 1 && pkNat b 25 1 ≤ 11) (al 8 8)
    | _ => two (pkZero b 24 64) true

/-- Packets of a sequence that have started and not completed, but for the COND and LOOP packets whose range is open. -/
def State.active (s : State) (q : SeqRef) : List PacketRun :=
  s.qs.runs.filter fun r => r.seq = q && !(s.rangesOf q).any fun x => x.run = r.id

/-- Whether the next packet of a sequence can be read: the sequence goes on, it is placed, and no range ends before it. -/
def State.mayRead (s : State) (q : SeqRef) : Bool :=
  let rs := s.rangesOf q
  s.ctxLive q.ctx && (match rs with | r :: _ => s.posOf q < r.first + r.len | [] => true) &&
  !s.waitsOn (.packet q) &&
  (if q.walk = 0 then
    match s.queueAt q.ctx q.q with
    | some x => x.st = 1 && x.pos < x.widx
    | none => false
  else match s.walkOf q.walk with
    | some w => !w.cancelled && w.pos < w.nodes.length
    | none => false)

/-- The bytes of the next packet of a sequence: a node, a packet kept for a LOOP, or the ring's. -/
def State.nextPacket (s : State) (q : SeqRef) : Rd (List Byte) :=
  if q.walk = 0 then
    match s.queueAt q.ctx q.q with
    | some x => match x.body.find? (·.1 = x.pos) with
      | some p => pure p.2
      | none => engineBytes (cmdCore (s.queueDie q.ctx q.q)) q.ctx .c (x.slotAt x.pos) 64
    | none => pure []
  else pure (match s.walkOf q.walk with | some w => w.nodes.getD w.pos [] | none => [])

/-! ## Jobs (R262, R279) -/

/-- The first index that a later iteration of an open LOOP of a queue may start again, or its position. -/
def State.keepFrom (s : State) (q : SeqRef) : Nat :=
  (((s.rangesOf q).filter (·.loop)).getLast?.map (·.first)).getD (s.posOf q)
/-- The next packet of a sequence has been consumed. passed: it is passed over. -/
def State.consume (s : State) (q : SeqRef) (b : List Byte) (passed : Bool) : State :=
  if q.walk = 0 then
    let s := s.mapQueue q.ctx q.q fun x =>
      let first := x.ridx ≤ x.pos
      let x := { x with body := if first then x.body ++ [(x.pos, b)] else x.body, ridx := max x.ridx (x.pos + 1), pos := x.pos + 1 }
      if first && pkJend b && !pkHeaderBad b then
        { x with jends := if x.skipJob || x.lost then x.jends else x.jends ++ [(x.job, x.pos - 1)], job := x.job + 1, skipJob := false, lost := false }
      else x
    let s := s.setRanges q (dropSkips (s.posOf q) (s.rangesOf q))
    let from_ := s.keepFrom q
    let s := { s with qs := { s.qs with
      placed := s.qs.placed.filter fun p => !(p.ctx = q.ctx && p.q = q.q && p.index < from_)
      queues := s.qs.queues.map fun (x : Queue) => if x.ctx = q.ctx && x.q = q.q then { x with body := x.body.filter fun p => from_ ≤ p.1, gone := x.gone.filter (x.jobAt from_ ≤ ·) } else x } }
    if passed then s.countJobs q.ctx q.q else s
  else
    let s := s.setPos q (s.posOf q + 1)
    s.setRanges q (dropSkips (s.posOf q) (s.rangesOf q))

/-- The index that EIDX names for a packet of a sequence: its own, or the GRAPH packet's (R465). -/
def State.queueIndex (s : State) (q : SeqRef) (index : Nat) : Nat :=
  if q.walk = 0 then index else match s.walkOf q.walk with
    | some w => ((s.runOf w.run).map (·.index)).getD 0
    | none => 0
/-- A PACKET IS REJECTED (R266): its queue stops and its job is cancelled, and with it the walk that a node belongs to and a packet that
has started, run its name, though a packet placed by enq belongs to a job that may be over. -/
def State.reject (s : State) (q : SeqRef) (index err : Nat) (m : Member) (run : Nat := 0) : State :=
  let e := s.queueIndex q index
  let s := (s.mapQueue q.ctx q.q fun x => { x with st := 2, err := err, eidx := e }).cancel (.job q.ctx m.q m.job)
  let s := if q.walk = 0 then s else s.cancel (.walk q.walk)
  if run = 0 then s else s.cancel (.run run)

/-- The levels of the next packet of a sequence (R263). -/
def State.levelsOf (s : State) (q : SeqRef) : Member :=
  let loop := ((s.rangesOf q).find? (·.loop)).bind fun r => s.runOf r.run
  let base : Member :=
    if q.walk = 0 then
      match s.queueAt q.ctx q.q with
      | some x => match s.qs.placed.find? fun p => p.ctx = q.ctx && p.q = q.q && p.index = x.pos with
        | some p => p.mem
        | none => { q := q.q, job := x.jobAt x.pos }
      | none => { }
    else match s.walkOf q.walk with
      | some w => { ((s.runOf w.run).map (·.mem)).getD { } with walk := w.id, gctr := w.gctr }
      | none => { }
  match loop with
  | some r => { base with loops := (r.id, r.it) :: (r.mem.loops ++ base.loops), pctr := pkNat r.body 40 8 % 2 ^ 52 }
  | none => base

/-- Where a read or write by a packet goes that fails (R266, R465): a translation fault waits for service with the packet as its
requester, anything else rejects the packet with ERR 7. run: the name of a packet that has started, 0 for the next one. -/
def State.packetFault (s : State) (q : SeqRef) (who : Requester) (index : Nat) (m : Member) (t : Trap) (run : Nat := 0) : State :=
  let die := s.queueDie q.ctx q.q
  if t.cause == cPAGE then
    if s.recordRoom die q.ctx (t.pages.take 32) then (s.joinAll die q.ctx who (t.pages.take 32)).1 else s
  else s.reject q index 7 m run
/-- The same for the next packet of a sequence. -/
def State.nextFault (s : State) (q : SeqRef) (t : Trap) : State := s.packetFault q (.packet q) (s.posOf q) (s.levelsOf q) t
/-- The same for a packet that has started. -/
def State.runFault (s : State) (r : PacketRun) (t : Trap) : State := s.packetFault r.seq (.started r.id) r.index r.mem t r.id

/-- A packet that work since cancelled has placed is passed over: its queue's job never completes (R262). -/
def State.loseJob (s : State) (q : SeqRef) : State :=
  if q.walk = 0 && (s.queueAt q.ctx q.q).any (fun x => s.qs.placed.any fun p => p.ctx = q.ctx && p.q = q.q && p.index = x.pos && p.cancelled) then
    s.mapQueue q.ctx q.q fun x => if x.jobAt x.pos = x.job then { x with lost := true } else { x with jends := x.jends.filter (·.1 ≠ x.jobAt x.pos) }
  else s
/-- Whether the next packet is passed over: its job is cancelled, a COND skips it, or it was placed by work since cancelled. -/
def State.passes (s : State) (q : SeqRef) : Bool :=
  ((s.rangesOf q).head?.any (·.skip)) ||
  (q.walk = 0 && (match s.queueAt q.ctx q.q with
    | some x => (x.skipJob && x.jobAt x.pos = x.job) || x.gone.contains (x.jobAt x.pos) || s.qs.placed.any fun p => p.ctx = q.ctx && p.q = q.q && p.index = x.pos && p.cancelled
    | none => false))

/-- Start a packet: its run is recorded, and its sequence goes on (R266, R267). -/
def State.startRun (s : State) (q : SeqRef) (b : List Byte) : State × PacketRun :=
  let r : PacketRun :=
    { id := s.qs.nextRun, seq := q, index := s.posOf q, kind := pkKind b, body := b, mem := s.levelsOf q
      job := ((s.queueAt q.ctx q.q).map fun x => x.jobAt x.pos).getD 0 }
  let s := { s with qs := { s.qs with runs := s.qs.runs ++ [r], nextRun := s.qs.nextRun + 1 } }
  (s.consume q b false, r)

/-- Consume the next packet of a sequence when it is of the kind wanted (R266, R267, R270): it is passed over, rejected, or
started by start, which may find that it cannot start yet. A reserved KIND is rejected whatever kind is wanted. -/
def packetStep (kind : Nat) (q : SeqRef) (start : State → List Byte → State) (s : State) : State :=
  if !s.mayRead q then s
  else match (s.nextPacket q).at s with
    | (.error t, s) => s.nextFault q t
    | (.ok b, s) =>
      if pkKind b != kind && 1 ≤ pkKind b && pkKind b ≤ 8 then s
      else if s.passes q then (s.loseJob q).consume q b true
      else if pkErr b != 0 then s.reject q (s.posOf q) (pkErr b) (s.levelsOf q)
      else if (pkOrd b || 5 ≤ pkKind b) && s.active q != [] then s
      else start s b

/-! ## LAUNCH and TASK (R233, R270) -/

/-- The record of a TASK packet. -/
def taskRecord (b : List Byte) : Nat :=
  pkNat b 8 8 + natBits (pkNat b 33 1) 0 2 * 2 ^ 140 + 2 ^ 144 + pkNat b 16 8 * 2 ^ 320 + pkNat b 24 8 * 2 ^ 384 + pkNat b 32 1 * 2 ^ 436 +
  pkNat b 40 8 * 2 ^ 448
/-- Whether a TASK packet's fields fit those of a record. -/
def taskFits (b : List Byte) : Bool := pkNat b 8 8 < 2 ^ 52 && pkNat b 16 8 < 2 ^ 52 && pkNat b 24 8 < 2 ^ 52 && pkNat b 40 8 < 2 ^ 52

/-- Read what a record names through the command core: none when the record, its descriptor or its list is rejected. -/
def readRecord (core ctx cores r : Nat) : Rd (Option (Record × KernelDesc × List WsEntry)) := do
  let rc := recordOf r
  let d ← engineNat core ctx .c rc.kobj 64
  if !recordOk r cores || !kernelOk d then return none
  let slots ← (List.range rc.wsn).mapM fun i => engineNat core ctx .c (rc.wsva + 32 * i) 32
  return (wsList (kernelOf d) slots).map fun ws => (rc, kernelOf d, ws)

/-- Start a packet that makes a record: it waits while the pool is full. -/
def startRecord (q : SeqRef) (rec_ : Nat → Rd (Option Nat)) (s : State) (b : List Byte) : State :=
  let die := s.queueDie q.ctx q.q
  let core := cmdCore die
  match s.ctxOf q.ctx with
  | none => s
  | some c =>
    let read : Rd (Option (Record × KernelDesc × List WsEntry)) := do
      match ← rec_ core with
      | none => return none
      | some r => readRecord core q.ctx (32 * 2 ^ c.psize) r
    match read.at s with
    | (.error t, s) => s.nextFault q t
    | (.ok none, s) => s.reject q (s.posOf q) 3 (s.levelsOf q)
    | (.ok (some (rc, kd, ws)), s) =>
      match (s.entryFor die c.psize rc).filter fun p => 0 < s.poolRoom p.1 && (p.2.2.isNone || 0 < s.poolRoom 1) with
      | none => s
      | some p =>
        let (s, r) := s.startRun q b
        let s := s.mapRun r.id fun r => { r with die := p.1, entry := p.2.1 }
        match s.enterPool die c rc kd ws 0 r.id r.mem with
        | some (s, _) => s
        | none => s

/-- LAUNCH_PACKET (R270). -/
def execLaunchPacket (q : SeqRef) (s : State) : Out :=
  done (packetStep 1 q (fun s b => startRecord q (fun core => do return some (← engineNat core q.ctx .c (pkNat b 8 8) 64)) s b) s)
/-- TASK_PACKET (R270). -/
def execTaskPacket (q : SeqRef) (s : State) : Out :=
  done (packetStep 2 q (fun s b => startRecord q (fun _ => pure (if taskFits b then some (taskRecord b) else none)) s b) s)

/-! ## COPY (R270, R272, R273) -/

/-- COPY_PACKET (R270): the copy starts. -/
def execCopyPacket (q : SeqRef) (s : State) : Out :=
  done (packetStep 3 q (fun s b =>
    let (s, r) := s.startRun q b
    let (n, s) := s.newId
    s.mapRun r.id fun r => { r with no := n }) s)

/-- Move the next bytes of a copy: up to 128, within one line of source and of destination. -/
def moveUnit (core ctx src dst n : Nat) : Rd Nat := do
  let k := min n (min (128 - src % 128) (128 - dst % 128))
  let b ← engineBytes core ctx .c src k
  engineStore core ctx (.ewrite .c 1) dst b
  return k

/-- Insert a failing page by its address, once. -/
def insertPage (p : Nat × Nat) : List (Nat × Nat) → List (Nat × Nat)
  | [] => [p]
  | q :: r => if q.1 < p.1 then q :: insertPage p r else if q.1 = p.1 then q :: r else p :: q :: r
/-- The pages of the rest of a copy's ranges that fail translation, up to 32 of them, lowest first (R394). -/
def State.copyFaults (s : State) (core ctx src dst n : Nat) : List (Nat × Nat) :=
  let bad := fun (a : AccSpec) (va : Nat) => (pageStarts va 0 n 1).flatMap fun p =>
    match checkAccess s core ctx a true [(0, (p : Int))] with
    | .bad t _ => t.pages
    | .ok _ _ => []
  ((bad (.eread .c 1) src ++ bad (.ewrite .c 1) dst).foldr insertPage []).take 32

/-- The completion record is written: WCNT + 1, after which the COPY is complete (R272). -/
def State.countRecord (s : State) (run ctx die ring : Nat) : State :=
  match s.devWrite { ctx := ctx, die := die, addr := ring + 8, op := .add 1, after := .ready run } with
  | (s, .done) => s.mapRun run fun r => { r with ready := true }
  | (s, _) => s
/-- Whether a record of a ring is being written. -/
def State.ringBusy (s : State) (ctx ring : Nat) : Bool :=
  s.cx.writes.any fun w => w.ctx = ctx && (match w.after with | .count _ r => r = ring | _ => w.addr = ring + 8)
/-- A COPY cannot read its completion-ring descriptor (R266): it is rejected with ERR 7, and goes without a record. DESIGN CHOICE: one that
is cancelled already goes without stopping its queue (log 128). -/
def State.ringFails (s : State) (r : PacketRun) : State :=
  (if r.cancelled then s else s.reject r.seq r.index 7 r.mem r.id).cancelRun r
/-- A COPY whose bytes are moved, or that has ended otherwise, writes its record once its ring has room, then counts it. DESIGN CHOICE: the
BASE of a ring that is no multiple of 32 is rounded down, since R272 gives no reaction (log 110). -/
def State.copyRecord (s : State) (r : PacketRun) : State :=
  let ctx := r.seq.ctx
  let die := s.queueDie ctx r.seq.q
  let ring := pkNat r.body 32 8
  match (engineBytes (cmdCore die) ctx .c ring 64).at s with
  | (.error t, s) =>
    if t.cause == cPAGE then
      if s.recordRoom die ctx t.pages then (s.joinAll die ctx (.copy r.id) t.pages).1 else s
    else s.ringFails r
  | (.ok d, s) =>
    let w := pkNat d 8 8
    let n := 2 ^ natBits (leNat d) 52 4
    if (w + 2 ^ 64 - pkNat d 16 8) % 2 ^ 64 ≥ n || s.ringBusy ctx ring then s
    else
      let s := s.tick
      let b := leBytes 4 r.status ++ leBytes 4 r.cause.toNat ++ leBytes 8 r.moved ++ leBytes 8 s.clock ++ leBytes 8 (pkNat r.body 40 8)
      let s := s.mapRun r.id fun r => { r with it := 1 }
      let at_ := natBits (leNat d) 0 52 / 32 * 32 + 32 * (w % n)
      match s.devWrite { ctx := ctx, die := die, addr := at_, op := .store b, after := .count r.id ring } with
      | (s, .done) => s.countRecord r.id ctx die ring
      | (s, _) => s
/-- The next bytes of a started copy are moved (R270, R273, R394). -/
def State.copyStep (s : State) (r : PacketRun) : State :=
  let (src, dst, n) := (pkNat r.body 8 8 + r.moved, pkNat r.body 16 8 + r.moved, pkNat r.body 24 8 - r.moved)
  let die := s.queueDie r.seq.ctx r.seq.q
  match (moveUnit (cmdCore die) r.seq.ctx src dst n).at s with
  | (.ok n, s) => s.mapRun r.id fun r => { r with moved := r.moved + n }
  | (.error t, s) =>
    if t.cause == cPAGE then
      let pages := s.copyFaults (cmdCore die) r.seq.ctx src dst n
      if s.recordRoom die r.seq.ctx pages then (s.joinAll die r.seq.ctx (.copy r.id) pages).1 else s
    else s.mapRun r.id fun r => { r with status := 2, cause := t.cause }
/-- COPY_RECORD_WRITE (R270, R272, R273, R298): the next bytes of a started copy are moved, unless a promoted staging request stands before
them; when none are left, or it has ended otherwise, its completion record is written. The moving of bytes has no event of its own in the
table (log 27). -/
def execCopyRecordWrite (run : Nat) (s : State) : Out :=
  done (match s.runOf run with
    | none => s
    | some r =>
      if r.kind != 3 || r.it != 0 || s.waitsOn (.copy run) then s
      else if r.status != 0 then s.copyRecord r
      else if r.moved ≥ pkNat r.body 24 8 then s.copyRecord { r with status := 1 }
      else if !s.demandMayLand r.no then s
      else s.copyStep r)

/-! ## GRAPH (R274) -/

/-- Whether the COND and LOOP ranges of a graph's nodes nest and lie within it: ends are those of the open ranges. -/
def nodesNest (n : Nat) : Nat → List Nat → List (List Byte) → Bool
  | _, _, [] => true
  | i, ends, b :: r =>
    let ends := ends.filter (i < ·)
    if pkKind b = 5 || pkKind b = 6 then
      let e := i + 1 + pkNat b 24 1
      e ≤ ends.headD n && nodesNest n (i + 1) (e :: ends) r
    else nodesNest n (i + 1) ends r

/-- Read a graph: its descriptor and nodes; an ERR when it is invalid (R266, R274). DEDUCED: a range that runs past the graph
or its enclosing range is ERR 6, which names it (log 28). -/
def readGraph (core ctx a : Nat) : Rd (Except Nat (Nat × List (List Byte))) := do
  let d ← engineNat core ctx .c a 64
  let nodes := natBits d 0 52
  let gctr := natBits d 96 52
  if natBits d 52 12 != 0 || natBits d 76 20 != 0 || natBits d 148 364 != 0 || nodes % 64 != 0 || gctr % 8 != 0 then return .error 5
  let n := natBits d 64 12 + 1
  let ns ← (List.range n).mapM fun i => engineBytes core ctx .c (nodes + 64 * i) 64
  if ns.any fun b => pkKind b = 4 then return .error 5
  if !nodesNest n 0 [] ns then return .error 6
  return .ok (gctr, ns)

/-- GRAPH_PACKET (R274): the walk begins. -/
def execGraphPacket (q : SeqRef) (s : State) : Out :=
  done (packetStep 4 q (fun s b =>
    let core := cmdCore (s.queueDie q.ctx q.q)
    match (readGraph core q.ctx (pkNat b 8 8)).at s with
    | (.error t, s) => s.nextFault q t
    | (.ok (.error e), s) => s.reject q (s.posOf q) e (s.levelsOf q)
    | (.ok (.ok (gctr, ns)), s) =>
      let (s, r) := s.startRun q b
      let w : Walk := { id := s.qs.nextWalk, ctx := q.ctx, q := q.q, run := r.id, nodes := ns, gctr := gctr }
      ({ s with qs := { s.qs with walks := s.qs.walks ++ [w], nextWalk := s.qs.nextWalk + 1 } }).mapRun r.id fun r => { r with walk := w.id }) s)

/-! ## COND and LOOP (R275) -/

/-- The 64-bit word of a packet, and its test. -/
def testWord (core ctx : Nat) (b : List Byte) : Rd Bool := do
  let w ← engineNat core ctx .c (pkNat b 8 8) 8
  let same := w = pkNat b 16 8
  return if pkNat b 25 1 = 0 then same else !same

/-- Whether the range of a COND or LOOP at a position lies within the range that encloses it. -/
def State.rangeOk (s : State) (q : SeqRef) (n : Nat) : Bool :=
  match s.rangesOf q with
  | r :: _ => s.posOf q + 1 + n ≤ r.first + r.len
  | [] => true
/-- Open a range at the position of a sequence. -/
def State.openRange (s : State) (q : SeqRef) (r : Range) : State := s.setRanges q ({ r with first := s.posOf q } :: s.rangesOf q)

/-- COND_PACKET (R275): the range is run, or skipped and the COND completes at once. -/
def execCondPacket (q : SeqRef) (s : State) : Out :=
  done (packetStep 5 q (fun s b =>
    let n := pkNat b 24 1
    if !s.rangeOk q n then s.reject q (s.posOf q) 6 (s.levelsOf q)
    else match (testWord (cmdCore (s.queueDie q.ctx q.q)) q.ctx b).at s with
      | (.error t, s) => s.nextFault q t
      | (.ok true, s) =>
        let (s, r) := s.startRun q b
        s.openRange q { run := r.id, loop := false, first := 0, len := n }
      | (.ok false, s) =>
        let (s, r) := s.startRun q b
        (s.mapRun r.id fun r => { r with ready := true }).openRange q { run := 0, loop := false, skip := true, first := 0, len := n }) s)

/-- LOOP_PACKET (R275): the body begins. -/
def execLoopPacket (q : SeqRef) (s : State) : Out :=
  done (packetStep 6 q (fun s b =>
    let n := pkNat b 24 1
    if !s.rangeOk q n then s.reject q (s.posOf q) 6 (s.levelsOf q)
    else
      let (s, r) := s.startRun q b
      s.openRange q { run := r.id, loop := true, first := 0, len := n }) s)

/-- The test after an iteration (R275): another iteration, or the LOOP has completed. A word that cannot be read rejects the
LOOP packet. -/
def State.loopTest (s : State) (r : PacketRun) : State :=
  let s := s.mapRun r.id fun r => { r with status := 1 }
  let q := r.seq
  match (testWord (cmdCore (s.queueDie q.ctx q.q)) q.ctx r.body).at s with
  | (.error t, s) => s.runFault r t
  | (.ok again, s) =>
    let max := pkNat r.body 32 4
    if again && !(max != 0 && r.it = max) then
      match (s.rangesOf q).find? (·.run = r.id) with
      | some x => (s.setPos q x.first).mapRun r.id fun r => { r with status := 0 }
      | none => s
    else (s.closeRange r).mapRun r.id fun r => { r with ready := true }

/-- Whether the range of a COND or LOOP is innermost and has been run to its end, with everything in it completed. -/
def State.rangeDone (s : State) (r : PacketRun) : Bool :=
  match s.rangesOf r.seq with
  | x :: _ => x.run = r.id && s.posOf r.seq = x.first + x.len && s.active r.seq = []
  | [] => false

/-- LOOP_ITERATION_END (R275): every node of the iteration has completed: PCTR + 1, then the test. An iteration is counted once; after
a write of PCTR that fails there is no test (R465). -/
def execLoopIterationEnd (run : Nat) (s : State) : Out :=
  done (match s.runOf run with
    | none => s
    | some r =>
      if r.kind != 6 || r.ready || r.status = 2 || !s.ctxLive r.seq.ctx || !s.rangeDone r || s.waitsOn (.started run) then s
      else if r.status = 1 then s.loopTest r
      else
        let s := s.mapRun run fun r => { r with it := r.it + 1, status := 2 }
        let r := { r with it := r.it + 1, status := 2 }
        let pctr := pkNat r.body 40 8
        if pctr = 0 then s.loopTest r
        else match s.devWrite { ctx := r.seq.ctx, die := s.queueDie r.seq.ctx r.seq.q, addr := pctr, op := .add 1, after := .test run } with
          | (s, .done) => s.loopTest r
          | (s, _) => s)

/-! ## SIGNAL and WAIT (R270) -/

/-- SIGNAL_PACKET (R270): the store or add is performed at its scope. -/
def execSignalPacket (q : SeqRef) (s : State) : Out :=
  done (packetStep 7 q (fun s b =>
    let add := pkNat b 24 1 = 1
    let spec : AccSpec := { cls := .c, acc := if add then 2 else 1, needR := add, needW := true, size := 8, reads := add }
    match checkAccess s (cmdCore (s.queueDie q.ctx q.q)) q.ctx spec true [(0, (pkNat b 8 8 : Int))] with
    | .bad t s => s.nextFault q t
    | .ok s ts =>
      let k := match ts with | (_, _, l) :: _ => l.key | [] => 0
      let s := s.memPut k 8 (if add then s.memNat k 8 + pkNat b 16 8 else pkNat b 16 8)
      let s := if pkNat b 25 1 = 11 then { s with ms := s.ms.writeBackAll } else s
      let (s, r) := s.startRun q b
      s.mapRun r.id fun r => { r with ready := true }) s)

/-- WAIT_PACKET (R270): the wait starts; PACKET_COMPLETE reads its word. -/
def execWaitPacket (q : SeqRef) (s : State) : Out := done (packetStep 8 q (fun s b => (s.startRun q b).1) s)

/-! ## Completion (R276) -/

/-- A packet has completed: its run goes, and with it the walk of a GRAPH packet; jobs may be over. -/
def State.finishRun (s : State) (r : PacketRun) : State :=
  let s := s.dropRun r.id
  let s := if r.kind = 4 then { s with qs := { s.qs with walks := s.qs.walks.filter fun w => w.id != r.walk, ranges := s.qs.ranges.filter fun p => p.1.walk != r.walk || r.walk = 0 } } else s
  s.countJobs r.seq.ctx r.seq.q

/-- Whether every node of a walk has completed, or it is cancelled and none is left. -/
def State.walkDone (s : State) (w : Walk) : Bool :=
  !s.qs.runs.any (fun r => r.seq.ctx = w.ctx && r.seq.walk = w.id) &&
  (w.cancelled || (w.nodes.length ≤ w.pos && s.rangesOf { ctx := w.ctx, q := w.q, walk := w.id } = []))

/-- The end of a GRAPH packet: GCTR + 1 first, unless the walk was cancelled. -/
def State.graphEnd (s : State) (r : PacketRun) : State :=
  match s.walkOf r.walk with
  | none => s.finishRun r
  | some w =>
    if !s.walkDone w then s
    else if w.cancelled || w.gctr = 0 then s.finishRun r
    else match s.devWrite { ctx := w.ctx, die := s.queueDie w.ctx w.q, addr := w.gctr, op := .add 1, after := .ready r.id } with
      | (s, .done) => s.finishRun r
      | (s, _) => s.mapRun r.id fun r => { r with it := 1 }

/-- A WAIT reads its word: at least VALUE, or bit 63 set (R270, R279). -/
def State.waitRead (s : State) (r : PacketRun) : State :=
  match (engineNat (cmdCore (s.queueDie r.seq.ctx r.seq.q)) r.seq.ctx .c (pkNat r.body 8 8) 8).at s with
  | (.error t, s) => s.runFault r t
  | (.ok w, s) => if pkNat r.body 16 8 ≤ w || 2 ^ 63 ≤ w then s.finishRun r else s

/-- PACKET_COMPLETE (R276): a packet all of whose work is performed completes. -/
def execPacketComplete (run : Nat) (s : State) : Out :=
  done (match s.runOf run with
    | none => s
    | some r =>
      if r.ready then s.finishRun r
      else match r.kind with
        | 4 => if r.it = 0 then s.graphEnd r else s
        | 5 => if s.rangeDone r then (s.closeRange r).finishRun r else s
        | 8 => if s.waitsOn (.started run) || !s.ctxLive r.seq.ctx then s else s.waitRead r
        | _ => s)

/-- The ranges of a queue that end at or before the index where consumption resumes are over: the packets skipped are not started, and a
COND or LOOP that still runs completes (R266, R275). -/
def State.endRanges (s : State) (q : SeqRef) (ridx : Nat) : State :=
  let ended := (s.rangesOf q).filter fun x => x.first + x.len ≤ ridx
  let s := s.setRanges q ((s.rangesOf q).filter fun x => ridx < x.first + x.len)
  ended.foldl (fun s x => s.mapRun x.run fun r => { r with ready := true }) s
/-- QUEUE_RESTART (R266): system software has written RIDX above EIDX and at most WIDX, and STATE = 1. A JEND packet among those
skipped ends the job; a job some of whose packets are skipped never completes (R262). DESIGN CHOICE: a skipped packet that cannot be read
counts as no JEND packet, and one with a bad header by its JEND bit (log 122). -/
def execQueueRestart (ctx q : Nat) (ridx : W64) (s : State) : Out :=
  done (match s.queueAt ctx q with
    | none => s
    | some x =>
      if x.st != 2 || !(x.eidx < ridx.toNat && ridx.toNat ≤ x.widx) then s
      else
        let die := s.queueDie ctx q
        let skipped := (List.range (ridx.toNat - x.ridx)).map (· + x.ridx)
        let jend (s : State) (k : Nat) : Bool × State :=
          match (engineBytes (cmdCore die) ctx .c (x.slotAt k) 64).at s with
          | (.ok b, s) => (pkJend b, s)
          | (.error _, s) => (false, s)
        let (n, lost, s) := skipped.foldl (fun (p : Nat × Bool × State) k =>
          let (j, s) := jend p.2.2 k
          if j then (p.1 + 1, false, s) else (p.1, true, s)) (0, x.lost, s)
        (s.endRanges { ctx := ctx, q := q } ridx.toNat).mapQueue ctx q fun x =>
          ({ x with ridx := ridx.toNat, pos := ridx.toNat, body := [], job := x.job + n, skipJob := x.skipJob && n = 0, lost := lost } : Queue).activate)

/-! ## Instructions (R281 to R284) -/

/-- The reservation of the group in a queue: none when the queue is neither QA nor QB; which of the two, and the slots left. -/
def State.reservation (s : State) (q : W64) : Option (Bool × Nat) :=
  match s.ownEntry with
  | none => none
  | some e =>
    let a := q.toNat = e.kd.qa.1
    let b := q.toNat = e.kd.qb.1
    if a && (s.g.resA > 0 || !b) then some (true, s.g.resA) else if b then some (false, s.g.resB) else none

/-- ENQ (R281): the packet is written at WIDX and WIDX advances. DESIGN CHOICE, where R281 is silent: a slot of the ring that cannot be
written raises its cause at the enq, and a queue destroyed since the reservation raises BUDGET code 9 (log 111). -/
def execEnq (f : FY) (s : State) : Out :=
  let g := s.g
  let a := (g.sget f.b).toNat
  let q := g.sget f.a
  settle <| orTrap (readPoison g [g.sitem f.a, g.sitem f.b]) s <|
    if a % 64 != 0 then .trap { cause := cALIGN, eaddr := g.sget f.b } s
    else match (groupBytes a 64).at s with
      | (.error t, s) => .trap t s
      | (.ok b, s) =>
        if pkHeaderBad b then .trap (budget 5) s
        else match s.reservation q with
          | none => .trap (budget 10) s
          | some (isA, n) =>
            match n, s.queueAt g.ctx q.toNat with
            | 0, _ => .trap (budget 9) s
            | _, none => .trap (budget 9) s
            | _, some x =>
              match checkStore s g.core g.ctx (.ewrite .c 1) (x.slotAt x.widx) b.length with
              | .bad t s => .trap t s
              | .ok s ts =>
                let s := s.unreplayable.drain.endRegion.storeHits (x.slotAt x.widx) b ts
                let s := s.mapQueue g.ctx q.toNat fun x => { x with widx := x.widx + 1 }
                let p : Placed := { ctx := g.ctx, q := q.toNat, index := x.widx, mem := { g.mem with ugid := g.gid, uno := g.unitNo } }
                let s := { s with
                  g := { s.g with resA := if isA then n - 1 else s.g.resA, resB := if isA then s.g.resB else n - 1 }
                  qs := { s.qs with placed := s.qs.placed ++ [p] } }
                .next (s.setS f.d (BitVec.ofNat 64 x.widx))

/-- QFENCE (R282): every older enq is placed already. -/
def execQfence (_f : FY) (s : State) : Out := settle (.next s.endRegion)

/-- The counter that a level of the group has, 0 for none (R262, R283). -/
def State.levelCounter (s : State) (lvl : Nat) : Nat :=
  let ctr := match s.ownEntry with | some e => e.rc.ctrva | none => 0
  match lvl with
  | 0 => ctr
  | 1 => if ctr = 0 then 0 else ctr + 8
  | 2 => s.g.mem.gctr
  | 3 => s.g.mem.pctr
  | _ => if s.g.launch.isNone then 0 else ((s.queueAt s.g.ctx s.g.mem.q).map (·.jctr)).getD 0

/-- cnt: read a counter or a word, and for .wait park until it is reached or marked (R283); the region ends as it starts (R216, log 11). -/
def cntOp (wait : Bool) (f : FY) (s : State) : Res :=
  let g := s.g
  let a := if f.a = 0 then s.levelCounter (f.imm.extractLsb' 0 3).toNat else (g.sget f.a).toNat
  orTrap (readPoison g ([g.sitem f.a] ++ if wait then [g.sitem f.b] else [])) s <|
    if f.a = 0 && a = 0 then .trap (budget 8) s
    else if a % 8 != 0 then .trap { cause := cALIGN, eaddr := BitVec.ofNat 64 a } s
    else match (groupNat a 8).at s with
      | (.error t, s) => .trap t s
      | (.ok x, s) =>
        let s := s.endAtStart
        if wait && x < (g.sget f.b).toNat && x < 2 ^ 63 then .park s else .next (s.setS f.d (BitVec.ofNat 64 x))

/-- CNT (R283). -/
def execCnt (f : FY) (s : State) : Out := settle (cntOp false f s)
/-- CNT_WAIT (R283). -/
def execCntWait (f : FY) (s : State) : Out := settle (cntOp true f s)

/-- What a cancel of a level acts on, or the status that says why it does not (R279, R280, R284). -/
def State.cancelTarget (s : State) (lvl : Nat) (tokenGiven : Bool) (t : W64) : Except Nat Target :=
  let m := s.g.mem
  match lvl with
  | 0 => if s.g.unit.isSome then .ok (.unit s.g.ctx s.g.gid s.g.unitNo) else .error 2
  | 1 =>
    match (if tokenGiven then (s.byToken t).filter fun e => e.ctx = s.g.ctx else s.ownEntry) with
    | none => .error 2
    | some e => if e.isDone then .error 1 else .ok (.entry e.die e.entry true)
  | 2 =>
    if m.walk = 0 then .error 2
    else match s.walkOf m.walk with
      | some w => if w.cancelled || (s.runOf w.run).any (·.it = 1) then .error 1 else .ok (.walk w.id)
      | none => .error 1
  | 3 =>
    match m.loops.head? with
    | none => .error 2
    | some (run, it) => if (s.runOf run).any fun r => !r.ready && r.it = it then .ok (.loop run it) else .error 1
  | _ =>
    match s.g.launch, s.queueAt s.g.ctx m.q with
    | some _, some x => if (x.job = m.job && !x.skipJob) || x.jends.any (·.1 = m.job) then .ok (.job s.g.ctx m.q m.job) else .error 1
    | _, _ => .error 2

/-- CANCEL (R279, R284): the status is written, and the work is cancelled; a group that the cancel reaches is discarded once
it has retired. -/
def execCancel (f : FY) (s : State) : Out :=
  let g := s.g
  settle <| orTrap (readPoison g [g.sitem f.a]) s <|
    let s := s.unreplayable.endRegion
    match s.cancelTarget (f.imm.extractLsb' 0 3).toNat (f.a != 0) (g.sget f.a) with
    | .error code => .next (s.setS f.d (BitVec.ofNat 64 code))
    | .ok t => .next ((s.setS f.d 0).cancel t)

end Sys2Proof.Machine
end

