-- ==== Sys2Proof/Machine/Sched.lean ====
section
/-! DEFINITION. The staging schedulers: policy, admission, placement, staging, dispatch, issue (R286 to R304), the life of a
group in its slot (R96, R246, R411), and the clocks of the cores (R294, R449). -/

namespace Sys2Proof.Machine

/-! ## Class and order (R286, R291) -/

/-- The policy entry of a context. -/
def State.policyOf (s : State) (ctx : Nat) : Policy := sparseGet { } s.ls.policy ctx
/-- The class of a record: its PCLASS capped by the policy and raised once by aging; a running record keeps the class it was
admitted at. -/
def State.classOf (s : State) (e : PoolEntry) : Nat :=
  if e.st = .running then e.cls
  else min 3 (min e.rc.pclass (s.policyOf e.ctx).pclass.toNat + if e.raised then 1 else 0)
/-- Whether a scheduler takes e before f: by descending class, then by age. -/
def State.before (s : State) (e f : PoolEntry) : Bool :=
  s.classOf f < s.classOf e || (s.classOf e = s.classOf f && e.age < f.age)

/-- POLICY_WRITE (R286, R404): the command core's firmware, when it runs (R16), replaces the entry whole; with VALID 1 a Bound
context becomes Runnable. -/
def execPolicyWrite (ctx : Nat) (p : Policy) (s : State) : Out :=
  done (
    if 1024 ≤ ctx || s.mg.boot != 1 then s
    else
      let s := { s with ls := { s.ls with policy := sparseSet { } ctx p s.ls.policy } }
      match s.ctxOf ctx with
      | some c => if p.valid && c.st = .bound && !s.quarantined ctx then s.setCtxState ctx .runnable else s
      | none => s)

/-- AGE_LIMIT (R291): a record that has waited longer than its context's AGE is raised by one class, once. -/
def execAgeLimit (die entry : Nat) (s : State) : Out :=
  done (match s.poolAt die entry with
    | none => s
    | some e => if e.st = .admissible && (s.policyOf e.ctx).age != 0 then s.mapPool die entry fun e => { e with raised := true } else s)

/-! ## Room on a core (R188, R190, R242) -/

/-- Entries of a core's tile table that q holds of and that are in no resident group's reservation: Draining tiles, and tiles
handed on that no group owns yet (R190). -/
def State.looseEntries (s : State) (core : Nat) (q : Tile → Bool) : Nat :=
  (s.cs.tiles.filter fun t => t.core = core && q t && (t.st = .draining || !(s.residents core).any (·.gid = t.holder))).length
/-- R242: whether a core accepts a group with these needs. mine: tiles that stand on the core in no reservation there and that the
needs count in already; DEDUCED from R247 (log 30). -/
def State.coreFits (s : State) (core slots scrg handles : Nat) (mine : Tile → Bool) : Bool :=
  let rs := s.residents core
  let n := rs.length + 1
  n ≤ 8 && n ≤ slots && rs.all (fun g => n ≤ g.slots) && s.granulesOn core (fun t => !mine t) + scrg ≤ 72 - 3 * n &&
  (rs.map (·.handles)).sum + s.looseEntries core (fun t => !mine t) + handles ≤ 256

/-- The tile that a record inherits, with the core that holds it. -/
def State.inherited (s : State) (e : PoolEntry) : Option Tile :=
  e.inherit.bind fun p => (s.tileAt p.2 (hIdx p.1)).filter fun t => t.gen == hGen p.1
/-- Whether a tile is the one that a record inherits. -/
def PoolEntry.inherits (e : PoolEntry) (t : Tile) : Bool := e.inherit.any fun p => t.core = p.2 && t.idx = hIdx p.1 && t.gen == hGen p.1
/-- The slot that a group-to-be takes. DESIGN CHOICE: the lowest free one (log 32). DEDUCED from R430: none in which its first arrival at a
barrier would meet a bit held for a saved member; where every free one is such, it waits (log 93). -/
def State.freshSlot (s : State) (g : Group) : Option Nat := lowestBelow 8 fun k => (s.groupAt g.core k).isNone && !s.slotHeld g k
/-- R242 for a group of a record; mine: further tiles to leave out. -/
def State.entryFits (s : State) (e : PoolEntry) (core : Nat) (mine : Tile → Bool := fun _ => false) : Bool :=
  (s.freshSlot { core := core, ctx := e.ctx }).isSome && s.coreFits core e.kd.slots e.kd.scrg e.kd.handles fun t => e.inherits t || mine t

/-! ## Admission (R289 to R293) -/

/-- What a context may have in flight at once (R290). DESIGN CHOICE: with SBUD 0 a record admitted alone stages a line at a time
(log 82). -/
def State.stagingWindow (s : State) (ctx : Nat) : Nat := max 128 (65536 * (s.policyOf ctx).sbud.toNat)
/-- Bytes of a context's staging requests that have been sent and have not landed (R298). -/
def State.bytesInFlight (s : State) (ctx : Nat) : Nat :=
  ((s.ls.staging.filter (·.ctx = ctx)).map fun q => q.upTo q.sent - q.upTo (s.landed q)).sum
/-- The staging need of a record on n cores (R289). -/
def PoolEntry.need (e : PoolEntry) (n : Nat) : Nat :=
  (if e.st = .running && !e.unstaged then 0 else ((e.ws.filter (·.level = 1)).map (·.bytes)).sum) + n * 16384 * (e.ws.map WsEntry.granules).sum
/-- Test 3 of R290. -/
def State.budgetAllows (s : State) (e : PoolEntry) (n : Nat) : Bool :=
  let f := s.bytesInFlight e.ctx
  f = 0 || f + e.need n ≤ 65536 * (s.policyOf e.ctx).sbud.toNat

/-- Whether a core can take a saved group back: a slot that suits it, room under R242, and its tile entries free. -/
def State.canReturn (s : State) (g : Group) (slot : Nat) : Bool :=
  slot < 8 && (s.groupAt g.core slot).isNone && s.slotSuits g slot &&
  s.coreFits g.core g.slots g.granules g.handles (fun t => t.res = g.gid || t.owner = g.gid) &&
  (s.cs.savedTiles.filter fun (t : Tile) => t.owner = g.gid).all fun t => (s.tileAt t.core t.idx).isNone
/-- The lowest slot a saved group can return to. -/
def State.returnSlot (s : State) (g : Group) : Option Nat := lowestBelow 8 (s.canReturn g)
/-- Whether a child that a group joins is over: its entry Done, or its token stale. -/
def State.joinOver (s : State) (g : Group) : Bool :=
  match g.joining with
  | some t => match s.byToken t with | some e => e.isDone | none => true
  | none => true
/-- Whether a saved group waits only for room: its context runs, and a child it was swapped out for is over (R246, R411). -/
def State.awaitsRoom (s : State) (g : Group) : Bool :=
  g.phase = .saved && s.ctxLive g.ctx && (!g.atJoin || s.joinOver g)
/-- Whether these can return is decided on the barrier entries they belong to, which the device reads for it (R186). -/
def State.readSaved (s : State) : State := (s.groups.filter s.awaitsRoom).foldl State.readBars s
/-- Whether a core's saved groups come ahead of a record of a class (R291, R411). -/
def State.savedFirst (s : State) (core cls : Nat) : Bool :=
  s.groups.any fun g => g.core = core && s.awaitsRoom g && cls ≤ g.pclass && (s.returnSlot g).isSome

/-- The cores that a die's scheduler may consider for a record (R232, R233, R237, R290, R293). -/
def State.coresFor (s : State) (e : PoolEntry) (die : Nat) : List Nat :=
  (s.allowedCores e.ctx).filter fun k =>
    (coreDie k = die || (e.rc.grid && e.twin.isSome)) &&
    (match e.inherit with | some p => p.2 = k | none => true) && !e.cores.contains k
/-- Tests 2, 4 and 5 of R290 for one core. -/
def State.coreTakes (s : State) (e : PoolEntry) (k : Nat) : Bool :=
  s.entryFits e k && !s.savedFirst k (s.classOf e)
/-- Order of placement: cool before hot, then the fewest resident slots, then the lowest core (R293). -/
def State.placeKey (s : State) (k : Nat) : Nat := (if s.cs.hot.contains k then 2 ^ 20 else 0) + 1024 * (s.residents k).length + k
/-- Insert a core by its key. -/
def State.insertCore (s : State) (k : Nat) : List Nat → List Nat
  | [] => [k]
  | j :: r => if s.placeKey k < s.placeKey j then k :: j :: r else j :: s.insertCore k r
/-- R290 and R293: the cores that a decision of a die's scheduler binds a record to, none when it fails admission. DESIGN CHOICE: for a
GRID record the NCORE cores that come first in the order of R293 are picked, and the room for its children on each die is tested on that
pick alone; no other set of cores is tried (log 112). DESIGN CHOICE: a GRID record that runs is bound no more, also where a pre-emption has
withdrawn some of its bindings (log 119). -/
def State.placement (s : State) (e : PoolEntry) (die : Nat) : List Nat :=
  let ok := ((s.coresFor e die).filter (s.coreTakes e)).foldr s.insertCore []
  let n := if e.rc.grid && !e.rc.isTask then s.ncore e else 1
  let pick := ok.take n
  let child (d : Nat) : Bool := (pick.filter fun k => coreDie k = d).length * e.kd.child ≤ s.poolRoom d
  if (s.policyOf e.ctx).valid && s.ctxLive e.ctx && n != 0 && pick.length = n && child 0 && child 1 &&
      (e.st = .admissible || (e.st = .running && !e.rc.grid && !s.bindingOver e)) &&
      s.budgetsFit e.ctx e.kd n && s.budgetAllows e n && s.fitsScrg e then pick
  else []

/-- Whether a record counts among those a scheduler considers. -/
def State.considered (s : State) (e : PoolEntry) : Bool :=
  !e.isTwin && (e.st = .admissible || e.st = .running) && (s.policyOf e.ctx).valid && s.ctxLive e.ctx
/-- Whether a raised record holds another back (R291): it is of a class at least as high, and their allowed sectors overlap. -/
def State.holdsBack (s : State) (x e : PoolEntry) : Bool :=
  x.raised && x.st = .admissible && s.classOf e ≤ s.classOf x && (!e.raised || s.before x e) &&
  (s.allowedCores x.ctx).any fun k => (s.allowedCores e.ctx).contains k
/-- Whether a die's scheduler takes this record now (R291): no earlier one that it considers passes, and no raised one, of either pool,
holds it back. -/
def State.firstInOrder (s : State) (e : PoolEntry) (die : Nat) : Bool :=
  !s.ls.pool.any fun x => s.considered x && !(x.die = e.die && x.entry = e.entry) &&
    (s.holdsBack x e || ((x.die = die || x.twin.isSome) && s.before x e && s.placement x die != []))

/-! ## Binding and staging (R295 to R297) -/

/-- The accesses of staging: class c reads of whole pages. -/
def stageSpec : AccSpec := { copySpec false with size := 1 }
/-- Pages of the rows of a LEVEL 2 entry as a copy holds them: a page that cannot be reached carries its cause. -/
def State.stageMap (s : State) (core ctx : Nat) : List Nat → State × List (Nat × Nat × Nat × Nat)
  | [] => (s, [])
  | a :: r =>
    let (s, p) := match checkAccess s core ctx stageSpec true [(0, (a : Int))] with
      | .ok s ts => (s, copyPages ts)
      | .bad t s => (s, [(a / 65536, badPage + t.cause.toNat, 0, 0)])
    let (s, l) := s.stageMap core ctx r
    (s, p ++ l)

/-- Replace a request by a function of it. -/
def State.mapReq (s : State) (id : Nat) (f : StageReq → StageReq) : State :=
  { s with ls := { s.ls with staging := s.ls.staging.map fun (q : StageReq) => if q.id = id then f q else q } }
/-- Take a request away. -/
def State.dropReq (s : State) (id : Nat) : State := { s with ls := { s.ls with staging := s.ls.staging.filter fun (q : StageReq) => q.id != id } }
/-- Allocate the tile of a LEVEL 2 request, begin its fill, and write its HOUT word. DESIGN CHOICE: HOUT is written as the tile is allocated,
of the moments before the group's first instruction that R296 allows (log 123). One that finds no table entry, no handle left in the
group's reservation (R190) or no granules is passed over; a HOUT word that cannot be written is left (log 31). -/
def State.stageTile (s : State) (q : StageReq) (g : Group) (w : WsEntry) : State :=
  match (s.freeRun g.core g.gid g.granules w.granules).filter fun _ => s.heldTiles g.gid < g.handles with
  | none => s.dropReq q.id
  | some run =>
    let t : Tile :=
      { core := g.core, idx := 0, st := .filling, gen := 0, ty := w.ty, skew := w.skew, rows := w.rows, cols := w.cols, res := g.gid, gran := run
        ngran := w.granules, owner := g.gid, ctx := g.ctx, inbound := 1, launch := g.launchName }
    match s.newTile t with
    | none => s.dropReq q.id
    | some (s, h) =>
      let (s, pages) := s.stageMap g.core g.ctx (pageStarts w.va w.stride (memRowBytes w.ty w.cols) w.rows)
      let (cid, s) := s.newId
      let c : Copy := { (default : Copy) with
        id := cid, kind := .staging, gid := g.gid, ctx := g.ctx, core := g.core, idx := hIdx h, gen := hGen h, row := 0, nrows := w.rows
        addr := w.va, stride := w.stride, map := pages }
      let s := State.mapReq { s with cs := { s.cs with copies := s.cs.copies ++ [c] } } q.id fun q => { q with begun := true, copy := cid }
      ((engineStore g.core g.ctx (.ewrite .c 1) (w.hout + 8 * g.ordinal) (leBytes 8 h.toNat)).at s).2
/-- A request's turn comes (R295, R296): it makes its entry's coherence action; a LEVEL 2 one allocates its tile; a LEVEL 0 one, or one
with nothing to bring in, is done with. -/
def State.beginReq (s : State) (q : StageReq) : State :=
  match s.poolAt q.die q.entry, (s.poolAt q.die q.entry).bind (·.ws[q.ord]?) with
  | some e, some w =>
    let s := if q.inv then s.wsBefore e.ctx e.die w else s
    if q.total = 0 then s.dropReq q.id
    else if q.level = 2 then (match s.groupOf q.gid with | some g => s.stageTile q g w | none => s.dropReq q.id)
    else s.mapReq q.id fun q => { q with begun := true }
  | _, _ => s.dropReq q.id
/-- What is left of a context's window is sent of a request whose turn it is (R290, R295): an entry begins once what comes before it of its
record is staged, and goes on once what comes before it is sent. -/
def State.sendReq (s : State) (id : Nat) : State :=
  match s.ls.staging.find? (·.id = id) with
  | none => s
  | some q =>
    if (s.ls.staging.takeWhile (·.id ≠ id)).any fun x => q.follows x && !(q.begun && x.allSent) then s
    else
      let s := if q.begun then s else s.beginReq q
      match s.ls.staging.find? (·.id = id) with
      | none => s
      | some q =>
        let n := q.fitting (q.upTo q.sent + (s.stagingWindow q.ctx - s.bytesInFlight q.ctx))
        if n ≤ q.sent then s
        else
          let (k, s) := s.newId
          s.mapReq id fun q => { q with sent := n, waves := q.waves ++ [(q.sent, k)] }
/-- Every request whose turn it is sends what it may. -/
def State.sendAll (s : State) : State := s.ls.staging.foldl (fun s q => s.sendReq q.id) s

/-- Whether a request stands before another of its record (R295): descending PRIO, then list order. -/
def StageReq.ahead (q x : StageReq) : Bool := x.prio < q.prio || (q.prio = x.prio && q.ord < x.ord)
/-- Put a request among those of its record, after everything that has been sent. -/
def insertReq (q : StageReq) : List StageReq → List StageReq
  | [] => [q]
  | x :: r => if q.sameRecord x && !x.allSent && q.ahead x then q :: x :: r else x :: insertReq q r
/-- The request of a working-set entry for a group-to-be. lines: the record's LEVEL 0 and LEVEL 1 entries are to be staged; first: with
their coherence actions. A LEVEL 2 entry is staged for each group. -/
def reqOf (first lines : Bool) (e : PoolEntry) (g : Group) (ord : Nat) (w : WsEntry) : Option StageReq :=
  let inv := first && w.mode = 1
  let q : StageReq :=
    { id := 0, die := e.die, entry := e.entry, gid := g.gid, core := g.core, ctx := e.ctx, level := w.level, va := w.va
      bytes := if w.level = 2 then 4 * w.rows * rowWordsOf w.ty w.cols else w.bytes, prio := w.prio, ord := ord, inv := inv }
  if w.level = 2 || (w.level = 1 && lines) || inv then some q else none
/-- Make the requests of a record for a group-to-be (R295). -/
def State.stage (s : State) (first lines : Bool) (e : PoolEntry) (g : Group) : State :=
  e.ws.zipIdx.foldl (fun s p =>
    match reqOf first lines e g p.2 p.1 with
    | none => s
    | some q =>
      let (k, s) := s.newId
      { s with ls := { s.ls with staging := insertReq { q with id := k } s.ls.staging } }) s

/-- Bind one core to a record (R237, R296): the group-to-be takes a free slot and its reservations, whose banks the
first-level cache gives up (R189); its staging begins. first: it is the record's first. The lines of a record whose staging has stopped
are staged again (R299). -/
def State.bindCore (first : Bool) (s : State) (die entry core : Nat) : State :=
  match s.poolAt die entry with
  | none => s
  | some e =>
    let g : Group :=
      { gid := s.nextGid, core := core, ctx := e.ctx, phase := .bound
        fresh := true, launch := some (die, entry), lgen := e.gen, slots := e.kd.slots, ordinal := e.holes.headD e.bound, inherit := match e.inherit with | some p => p.1 | none => 0
        resA := e.kd.qa.2, resB := e.kd.qb.2, pclass := e.cls, granules := e.kd.scrg, handles := e.kd.handles, mem := e.mem }
    let g := { g with slot := (s.freshSlot g).getD 0 }
    let s := { s with others := insertGroup g s.others, nextGid := s.nextGid + 1 }
    let s := s.mapPool die entry fun e => { e with bound := e.bound + 1, holes := e.holes.drop 1, cores := core :: e.cores, unstaged := false }
    let s := match s.inherited e with
      | some t => s.mapTile t.core t.idx fun t => { t with res := g.gid, gran := 0 }
      | none => s
    let s := s.fitL1 core
    s.stage first (first || e.unstaged) e g

/-- The working set at its second reading (R288); one that cannot be read is left as it was at the first. -/
def State.reread (s : State) (e : PoolEntry) : State :=
  match ((List.range e.rc.wsn).mapM fun i => engineNat (cmdCore e.die) e.ctx .c (e.rc.wsva + 32 * i) 32).at s with
  | (.ok slots, s) =>
    let ws := wsAgain (e.kd.scrg - s.inheritGranules e) (e.kd.handles - e.inherit.toList.length) slots
    s.mapPool e.die e.entry fun e => { e with ws := ws }
  | (.error _, s) => s

/-- Whether an alarm that is due quarantines the partition of a context: it comes before all else that the move brings about (R23). -/
def State.alarmStops (s : State) (ctx : Nat) : Bool := s.mg.alpol != 0 && s.lk.due.any fun d => (s.ctxOf ctx).any fun c => c.fsect = d.1
/-- ADMISSION (R237, R288, R290 to R293): the scheduler of the entry's die decides on one record: it binds one core, or for a GRID record all
of them at once. DESIGN CHOICE: the list is read again while the record is Admissible, not at its admission to a further core (log 125). A launch left with nothing to bind and no group completes (R239). -/
def execAdmission (die entry : Nat) (s : State) : Out :=
  done (match s.poolAt die entry with
    | none => s
    | some x =>
      match (if x.isTwin then x.twin.bind fun a => s.poolAt 0 a else some x) with
      | none => s
      | some e0 =>
        if e0.st = .running && s.bindingOver e0 then s.launchEnds e0.die e0.entry
        else
          let first := e0.st = .admissible
          let s := if first then s.reread e0 else s
          let s := s.readSaved
          let e := (s.poolAt e0.die e0.entry).getD e0
          let pick := s.placement e die
          if (e.rc.grid && die != e.die) || pick = [] || !s.firstInOrder e die || s.alarmStops e.ctx then s
          else
            let cls := s.classOf e
            let s := if first then s.mapPool e.die e.entry fun e => { e with st := .running, cls := cls } else s
            match pick with
            | [] => s
            | k :: r => r.foldl (fun s k => s.bindCore false e.die e.entry k) (s.bindCore first e.die e.entry k))

/-! ## Landing (R296 to R298) -/

/-- The home slice of a line (R19, R20): one of the 16 of each sector of the partition whose memory holds it, by the map fixed at
the bind; a line of host memory takes any of the device's 128 (log 67). -/
def State.sliceOf (s : State) (line : Nat) : Nat :=
  match s.partAt (128 * line) with
  | some p => 16 * p.fsect + Config.homeSlice p.bindNo line % (16 * 2 ^ p.psize)
  | none => Config.homeSlice 0 line % 128
/-- Whether a slice may pin a line: one that is pinned already, or another while less than 2 MiB of the slice is pinned. -/
def State.mayPin (s : State) (line : Nat) : Bool :=
  s.ms.pins.any (·.1 = line) || ((s.ms.pins.map (·.1)).eraseDups.filter fun l => s.sliceOf l = s.sliceOf line).length < 16384
/-- The next line of a LEVEL 1 request lands and is pinned; one that meets a failure, or lies in another device, is left. A refusal by
this device's own access table leaves an alarm due (R433, R450). -/
def State.landLine (s : State) (q : StageReq) : State :=
  let a := if q.pos = 0 then q.va else (q.va / 128 + q.pos) * 128
  let s := match checkAccess s (cmdCore q.die) q.ctx stageSpec true [(0, (a : Int))] with
    | .bad _ s => s
    | .ok s ts => match ts with
      | (_, _, l) :: _ =>
        let line := l.key / 128
        let s := s.noteRefused true false [l]
        let fails := l.kind = 2 || s.reach l 128 true false ≠ Reach.ok || s.isPoisoned (128 * line) 128
        if fails || s.ms.pins.contains (line, q.die, q.entry) || !s.mayPin line then s
        else { s with ms := { s.ms with pins := s.ms.pins ++ [(line, q.die, q.entry)] } }
      | [] => s
  if q.total ≤ q.pos + 1 then s.dropReq q.id else s.mapReq q.id fun x => { x with pos := x.pos + 1 }
/-- STAGING_LANDING (R296, R298): the next line or tile word of a request lands; a fill that has landed whole ends. -/
def execStagingLanding (req : Nat) (s : State) : Out :=
  done (match s.ls.staging.find? (·.id = req) with
    | none => s
    | some q =>
      match q.level, s.cs.copies.find? (·.id = q.copy) with
      | 2, some c => if s.copyLeft c = 0 then s.endCopy c else if s.mayLand q then s.landWord c else s
      | _, _ => if q.level = 1 && s.mayLand q then s.landLine q else s)
/-- STAGING_PROMOTION (R298): the oldest of a request's lines or words in flight has waited too long, and so has everything that its
queue has held for longer: they are of demand class from then on. -/
def execStagingPromotion (req : Nat) (s : State) : Out :=
  done (match s.ls.staging.find? (·.id = req) with
    | none => s
    | some q =>
      if !s.inFlight q || q.asCopy then s
      else
        let n := q.placeOf (s.landed q)
        { s with ls := { s.ls with staging := s.ls.staging.map fun x => if x.asCopy then x else { x with promoted := max x.promoted (x.sentBy n) } } })

/-! ## Dispatch (R235, R299, R300) -/

/-- Whether every entry of a bound group's record is staged for its core: each line in its slice, each tile past Filling. -/
def State.isStaged (s : State) (g : Group) : Bool :=
  !s.ls.staging.any (fun q => (q.level != 2 && g.launch = some (q.die, q.entry)) || (q.level = 2 && q.gid = g.gid)) &&
  !s.cs.tiles.any (fun t => t.owner = g.gid && t.st = .filling) && !(s.entryOf g).any (·.unstaged)
/-- A bound group enters Loading: a task's group holds its coordinate, and an inherited tile is its own. -/
def State.dispatchGroup (s : State) (g : Group) : State :=
  match s.entryOf g with
  | none => s
  | some e =>
    let s := match s.inherited e with
      | some t => s.mapTile t.core t.idx fun t => { t with owner := g.gid, launch := g.launchName }
      | none => s
    let s := if e.rc.isTask then s.mapPool e.die e.entry fun e => { e with next := 1 } else s
    let s := s.mapGroup g.gid fun g =>
      { g with phase := .loading, unit := if e.rc.isTask then some 0 else none, unitNo := if e.rc.isTask then 1 else 0 }
    (s.reloadBars g.ctx g.core).ctxRuns g.ctx
/-- DISPATCH (R299). -/
def execDispatch (core slot : Nat) (s : State) : Out :=
  done (match s.groupAt core slot with
    | some g => if g.phase = .bound && s.isStaged g && s.ctxLive g.ctx then s.dispatchGroup g else s
    | none => s)

/-- What a deadline leaves of one request of the record of a dispatched group (R300): the coherence action of a LEVEL 0 or 1 entry is
made, and lines not yet sent are not requested; a LEVEL 2 fill of the group itself is sent whole, at demand class. -/
def State.cutReq (g : Group) (s : State) (id : Nat) : State :=
  match s.ls.staging.find? (·.id = id) with
  | none => s
  | some q =>
    if q.level = 2 && q.gid != g.gid then s
    else
      let s := if q.begun then s else s.beginReq q
      match s.ls.staging.find? (·.id = id) with
      | none => s
      | some q =>
        if q.level = 2 then
          let (k, s) := s.newId
          s.mapReq id fun q => { q with sent := q.total, asCopy := true, waves := if q.sent < q.total then q.waves ++ [(q.sent, k)] else q.waves }
        else if q.total ≤ q.sent then s
        else
          let s := s.mapPool q.die q.entry fun e => { e with unstaged := true }
          if q.sent ≤ q.pos then s.dropReq id else s.mapReq id fun q => { q with bytes := q.upTo q.sent }
/-- What it leaves of them all. -/
def State.cutRequests (s : State) (g : Group) : State :=
  (s.ls.staging.filter fun q => g.launch = some (q.die, q.entry)).foldl (fun s q => s.cutReq g q.id) s
/-- STAGING_DEADLINE (R299, R300): SDL has passed; the group is dispatched, LEVEL 1 lines not yet requested are not requested, and its
unfinished LEVEL 2 fills go on at demand class. -/
def execStagingDeadline (core slot : Nat) (s : State) : Out :=
  done (match s.groupAt core slot with
    | some g =>
      if g.phase = .bound && (s.policyOf g.ctx).sdl != 0 && s.ctxLive g.ctx then (s.cutRequests g).dispatchGroup g else s
    | none => s)

/-! ## Issue (R130, R303) -/

/-- ISSUE_STARVATION (R303): the slot's instruction takes the next issue place. -/
def execIssueStarvation (core slot : Nat) (s : State) : Out :=
  done (match s.groupAt core slot with
    | some g => if g.phase = .running then { s with turns := .group g.gid :: s.turns } else s
    | none => s)
/-- YIELD_EXPIRY (R130). -/
def execYieldExpiry (core slot : Nat) (s : State) : Out :=
  done (s.onSlot core slot fun s => { s with g := { s.g with yielded := false } })

/-! ## Heat and power (R294, R449) -/

/-- HOT_FLAG_SET (R294). -/
def execHotFlagSet (core : Nat) (s : State) : Out :=
  done (if 256 ≤ core then s else { s with cs := { s.cs with hotNow := insertNat core s.cs.hotNow } })
/-- HOT_FLAG_CLEAR (R294). -/
def execHotFlagClear (core : Nat) (s : State) : Out := done { s with cs := { s.cs with hotNow := s.cs.hotNow.filter (· ≠ core) } }
/-- The clock setting of each core: that of the power cap, but 1050 MHz for a hot core (R449); 2100 MHz is not listed. -/
def clockSettings (mhz : Nat) (hot : List Nat) : Sparse Nat :=
  (List.range 256).filterMap fun k => let m := if hot.contains k then 1050 else mhz; if m = 2100 then none else some (k, m)
/-- SENSOR_SAMPLE (R22, R294, R449): the hot flags and the clock settings are published. -/
def execSensorSample (s : State) : Out :=
  done { s with cs := { s.cs with hot := s.cs.hotNow, clocks := clockSettings s.cs.clockMHz s.cs.hotNow } }
/-- POWER_CAP_STEP (R449): the clocks go down or up by 100 MHz against the average package power. -/
def execPowerCapStep (milliwatts : Nat) (s : State) : Out :=
  let m := s.cs.clockMHz
  done { s with cs := { s.cs with clockMHz := if 1100000 < milliwatts then max 1050 (m - 100) else if milliwatts < 1050000 then min 2100 (m + 100) else m } }

/-! ## The life of a group in its slot (R95, R96, R238, R246, R411) -/

/-- CONDITION_MET (R96): the wait of a parked group is tried at the next turn, and retires if its condition holds. -/
def execConditionMet (core slot : Nat) (s : State) : Out :=
  done (match s.groupAt core slot with
    | some g => if g.phase = .parked then { s with turns := .group g.gid :: s.turns } else s
    | none => s)

/-- The state in which a group of a launch starts (R95, R238). DESIGN CHOICE: no instruction has transferred control to its entry
header, so a BADHDR there gets sys.eaddr 0 (R58, log 68). -/
def startGroup (e : PoolEntry) (g : Group) : Group :=
  let r : Arch := { }
  let s := ((r.s.set 1 (BitVec.ofNat 64 e.rc.arg)).set 2 e.token).set 3 g.inherit
  { g with fresh := false, phase := .running, pc := BitVec.ofNat 64 e.kd.entry, entering := true, r := { r with s := s } }
/-- The state in which a saved group goes on (R407, R411): the block's, with PC the next instruction; a pending fault's
instruction replays (R96, R397, R420). -/
def State.goOn (s : State) : State :=
  let s := match s.ctxOf s.g.ctx, s.g.imaged with
    | some c, some slot =>
      let s := s.seen (groupBlock c s.g.core slot) 0x12800
      let tok := natBits (s.memNat (groupBlock c s.g.core slot + 128) 8) 16 1 = 1
      let s := { s with g := { readImage s (groupBlock c s.g.core slot) s.g with imaged := none } }
      if tok then { s with ms := { s.ms with tokens := s.ms.tokens ++ [s.g.imageToken] } } else s
    | _, _ => s
  let s := { s with g := { s.g with phase := if s.g.savedFrom = .faulted then .running else s.g.savedFrom } }
  if s.g.savedFrom = .faulted then { s.clearCause with g := s.clearCause.g.unhide } else s
/-- LOAD_COMPLETE (R95, R96, R238, R411). -/
def execLoadComplete (core slot : Nat) (s : State) : Out :=
  done (s.onSlot core slot fun s =>
    if s.g.phase != .loading then s
    else if s.g.fresh then match s.ownEntry with
      | some e => { s with g := startGroup e s.g }
      | none => s
    else s.goOn)

/-- SAVE_COMPLETE (R96, R195): the save ends once no copy reads or writes a tile of the group. -/
def execSaveComplete (core slot : Nat) (s : State) : Out :=
  done (s.onSlot core slot fun s => if s.g.phase = .saving && !s.tilesBusy s.g.gid then s.endSave else s)

/-- DISCARD_COMPLETE (R96): after a kill the group is Saved at its region's header; after a cancel it has ended. -/
def execDiscardComplete (core slot : Nat) (s : State) : Out :=
  done (s.onSlot core slot fun s =>
    match s.g.phase with
    | .discardingPreempt => if s.tilesBusy s.g.gid then s else s.endKill
    | .discardingCancel =>
      let g := s.g
      (s.dropGroup true).afterGroup g
    | _ => s)

/-- Put a saved group into a slot of its core (R254, R411): its tiles return, their entries with the generations they had (R195, R249;
log 94), its barrier bits follow it, and it loads. -/
def State.returnTo (s : State) (g : Group) (slot : Nat) : State :=
  let s := s.onGroup g.gid fun s =>
    let s := s.moveBars slot
    let mine := s.cs.savedTiles.filter fun (t : Tile) => t.owner = g.gid
    { s with
      g := { s.g with slot := slot, phase := .loading, atJoin := false }
      cs := { s.cs with
        tiles := s.cs.tiles ++ mine
        tileGens := mine.foldl (fun l t => sparseSet 0 (256 * t.core + t.idx) t.gen l) s.cs.tileGens
        savedTiles := s.cs.savedTiles.filter fun (t : Tile) => t.owner != g.gid } }
  ((s.fitL1 g.core).reloadBars g.ctx g.core).ctxRuns g.ctx
/-- The groups that return with a saved one: itself, or its whole gang (R411). -/
def State.gangOf (s : State) (g : Group) : List Group :=
  match s.entryOf g with
  | some e => if e.rc.grid then s.groups.filter fun x => x.ofEntry e else [g]
  | none => [g]
/-- RESTORE (R246, R411): a saved group returns to a free slot of its core; a gang only as a whole, once every member is saved. -/
def execRestore (gid slot : Nat) (s : State) : Out :=
  done (match s.groupOf gid with
    | none => s
    | some g =>
      let gang := (s.gangOf g).filter (·.gid ≠ gid)
      let s := s.readSaved
      if !(s.awaitsRoom g && s.canReturn g slot && gang.all fun x => x.phase = .saved && (s.returnSlot x).isSome) then s
      else gang.foldl (fun s x => match s.returnSlot x with | some k => s.returnTo x k | none => s) (s.returnTo g slot))

/-- The cores that the schedulers may consider for a record: those of both dies for a spanning one (R233, R293). -/
def State.coresOf (s : State) (e : PoolEntry) : List Nat :=
  s.coresFor e e.die ++ if e.twin.isSome && !e.rc.grid then s.coresFor e (1 - e.die) else []
/-- SWAP_OUT_AT_JOIN (R246): a group parked at join is saved precisely when an admissible record fits on no allowed core and would fit
on this one without it; never a group of a GRID launch. -/
def execSwapOutAtJoin (core slot : Nat) (s : State) : Out :=
  done (match s.groupAt core slot with
    | none => s
    | some g =>
      let grid := match s.entryOf g with | some e => e.rc.grid | none => true
      let rest := (s.onGroup g.gid State.holdBars).mapGroup g.gid fun g => { g with phase := .saved }
      let wants (e : PoolEntry) : Bool :=
        s.considered e && e.st = .admissible && !(s.coresOf e).any (s.entryFits e ·) && (s.coresOf e).contains core &&
        rest.entryFits e core fun t => t.owner = g.gid
      if g.phase = .parked && g.joining.isSome && !s.joinOver g && !grid && s.ls.pool.any wants then
        s.onGroup g.gid fun s => { s.beginSave false with g := { (s.beginSave false).g with atJoin := true } }
      else s)

end Sys2Proof.Machine
end

