-- ==== Sys2Proof/Machine/Link.lean ====
section
/-! DEFINITION. The fabric ports, the host link, routing, and the transfers lput and lget (R432 to R440). -/

namespace Sys2Proof.Machine

/-! ## Ports (R432) -/

/-- Put a port into the state that f gives its present one. -/
def State.mapPort (s : State) (p : Nat) (f : PortState → PortState) : State :=
  { s with lk := { s.lk with ports := s.lk.ports.setIfInBounds p (f s.lk.ports[p]!) } }
/-- PORT_ENABLE (R432), once a firmware image is accepted: nothing else starts before (R443). -/
def execPortEnable (port : Nat) (s : State) : Out := done (if s.mg.boot != 1 then s else s.mapPort port fun x => if x = .down then .training 0 else x)
/-- PORT_DISABLE (R432). -/
def execPortDisable (port : Nat) (s : State) : Out := done (s.mapPort port fun _ => .down)
/-- The state after a failed attempt: the third in a row is Fault. -/
def failedAttempt (n : Nat) : PortState := if 2 ≤ n then .fault else .training (n + 1)
/-- TRAINING_ATTEMPT_END (R432, R443): lanes holds the good lanes. -/
def execTrainingAttemptEnd (port : Nat) (lanes : BitVec 4) (s : State) : Out :=
  done (if s.mg.boot != 1 then s else s.mapPort port fun x => match x with
    | .training n =>
      if lanes = 15 then .up
      else if lanes &&& 3 = 3 then .narrowed true
      else if lanes &&& 12 = 12 then .narrowed false
      else failedAttempt n
    | x => x)
/-- A usable port goes back to Training. -/
def PortState.retrain (x : PortState) : PortState := if x.usable then .training 0 else x
/-- LANE_FAILURE (R432). -/
def execLaneFailure (port lane : Nat) (s : State) : Out := done (if lane < 4 then s.mapPort port PortState.retrain else s)
/-- CRC_RETRY_LIMIT (R432). -/
def execCrcRetryLimit (port : Nat) (s : State) : Out := done (s.mapPort port PortState.retrain)
/-- FLIT_RETRY (R432): a retry changes only time. -/
def execFlitRetry (_port : Nat) (s : State) : Out := done s
/-- ROUTING_TABLE_WRITE (R16, R433): the command core's firmware writes the device's pod number, and one entry of the routing table. -/
def execRoutingTableWrite (pod peer : Nat) (ports : BitVec 36) (s : State) : Out :=
  done (if 256 ≤ pod || 256 ≤ peer || s.mg.boot != 1 then s else { s with lk := { s.lk with pod := pod, routes := sparseSet 0 peer ports s.lk.routes } })

/-! ## The host link (R436) -/

/-- Whether the host link trains to a rate and a width. -/
def hostRate (rate width : Nat) : Bool := (rate = 128 || rate = 64 || rate = 32) && (width = 16 || width = 8 || width = 4)
/-- HOST_LINK_TRAINING (R436): the host link follows the table of R432, with Degraded below 128 GT/s ×16. -/
def execHostLinkTraining (r : HostTraining) (s : State) : Out :=
  let next : HostState := match r, s.lk.host with
    | .start, .down => .training 0
    | .failed, .training n => if 2 ≤ n then .fault else .training (n + 1)
    | .trained rate width, .training n =>
      if !hostRate rate width then .training n else if rate = 128 && width = 16 then .up else .degraded rate width
    | .lost, .up => .training 0
    | .lost, .degraded _ _ => .training 0
    | .disable, _ => .down
    | _, x => x
  done { s with lk := { s.lk with host := next } }

/-- ACCESS_TABLE_WRITE (R16, R450): the command core's firmware, when it runs, writes one entry of a target's table. -/
def execAccessTableWrite (e : AccessEntry) (s : State) : Out :=
  let ok := s.mg.boot = 1 && e.fsect < 8 && (match e.target with | .port n => n < 36 | _ => true) && (match e.master with | .host n => n < 16 | .peer n => n < 256)
  done (if !ok then s
    else { s with lk := { s.lk with
      access := s.lk.access.filter (fun x => !(x.target = e.target && x.master = e.master && x.fsect = e.fsect)) ++ [e] } })

/-! ## lput and lget (R438 to R440) -/

/-- The three ranges of a transfer: how they are accessed, whether their pages must be pod pages, start and length. -/
def xferRanges (put : Bool) (loc rem len : Nat) (stat : Option Nat) : List (AccSpec × Bool × Nat × Nat) :=
  let src : AccSpec := .eread .l 1
  let dst : AccSpec := .ewrite .l 1
  [(if put then src else dst, false, loc, len),
   (if put then dst else src, true, rem, len),
   (dst, false, stat.getD 0, if stat.isSome then 8 else 0)]
/-- The lowest address of a range that lies in [lo, hi). -/
def lowIn (base len lo hi : Nat) : List Nat := if max base lo < min (base + len) hi then [max base lo] else []
/-- The cause of a stage, for the first address of the first range that fails it. -/
def stageFails (cause : Byte) (code : Nat) (rs : List (AccSpec × List Nat)) : Option Trap :=
  (rs.findSome? fun r => r.2.head?.map fun a => (r.1, a)).map fun p =>
    { cause := cause, eaddr := BitVec.ofNat 64 p.2, einfo := BitVec.ofNat 64 (code + 64 * p.1.acc) }
/-- Translate the pages of every range. -/
def translateRanges (core : Nat) (c : Ctx) : List (AccSpec × Bool × Nat × Nat) → State →
    State × List (AccSpec × Bool × List (Nat × Int × Except (Nat × Nat) Leaf))
  | [], s => (s, [])
  | (a, rem, base, len) :: r, s =>
    let ps := if len = 0 then [] else pageStarts base 0 len 1
    let (s, ts) := translateAll core c [] (ps.map fun p => (0, (p : Int))) s
    let (s, l) := translateRanges core c r s
    (s, (a, rem, ts) :: l)
/-- The checks of R439, each stage over every page; the state keeps what the walks cached. -/
def xferChecks (s : State) (put : Bool) (loc rem len : Nat) (stat : Option Nat) : State × Option Trap :=
  let rs := xferRanges put loc rem len stat
  let p := s.priv s.g.ctx
  let pick (lo hi : Nat) : List (AccSpec × List Nat) := rs.map fun r => (r.1, lowIn r.2.2.1 r.2.2.2 lo hi)
  let early := firstTrap [stageFails cPROT 2 (pick (2 ^ 52) (2 ^ 65)), stageFails cSTACK 1 (pick p.2.1 p.2.2)]
  match early with
  | some t => (s.readWindow s.g.ctx, some t)
  | none =>
    let (s, ts) := translateRanges s.g.core ((s.ctxOf s.g.ctx).getD default) rs (s.readWindow s.g.ctx)
    let bad := ts.findSome? fun r => r.2.2.findSome? fun t => match t.2.2 with
      | .error (lvl, code) => some ({ cause := cPAGE, eaddr := w64 t.2.1, einfo := BitVec.ofNat 64 (code + 16 * lvl + 64 * r.1.acc) } : Trap)
      | .ok _ => none
    match bad with
    | some t => (s, some { t with pages := failedPages (ts.flatMap (·.2.2)) })
    | none =>
      let hits := ts.map fun r => (r.1, r.2.1, r.2.2.filterMap fun t => match t.2.2 with | .ok l => some (t.2.1.toNat, l) | .error _ => none)
      let pickL (q : AccSpec → Bool → Leaf → Bool) : List (AccSpec × List Nat) := hits.map fun r => (r.1, (r.2.2.filter fun t => q r.1 r.2.1 t.2).map (·.1))
      (s, firstTrap [
        stageFails cPROT 3 (pickL fun _ rem l => (l.kind = 2) != rem),
        stageFails cPROT 1 (pickL fun a _ l => !a.granted l.e)])

/-- Start a transfer (R439). -/
def xferOp (put : Bool) (f : FT) (s : State) : Res :=
  let g := s.g
  let loc := (g.sget (snum f.d)).toNat
  let rem := (g.sget f.i).toNat
  let len := (g.sget f.b).toNat
  let stat := if f.h = 0 then none else some (g.sget f.h).toNat
  let unaligned := if loc % 16 != 0 then some loc else if rem % 16 != 0 then some rem else if len % 16 != 0 then some loc
    else stat.filter (· % 8 != 0)
  orTrap (readPoison g [g.sitem (snum f.d), g.sitem f.i, g.sitem f.b, g.sitem f.h]) s <|
    orTrap (unaligned.map fun a => { cause := cALIGN, eaddr := BitVec.ofNat 64 a }) s <|
    match xferChecks s put loc rem len stat with
    | (s, some t) => .trap t s
    | (s, none) =>
      let s := s.unreplayable.endRegion
      let (id, s) := s.newId
      let x : Xfer :=
        { id := id, gid := g.gid, ctx := g.ctx, core := g.core, put := put, loc := loc, rem := rem, len := len, status := stat }
      .next { s with lk := { s.lk with xfers := s.lk.xfers ++ [x] } }
/-- LPUT (R438, R439). -/
def execLput (f : FT) (s : State) : Out := settle (xferOp true f s)
/-- LGET (R438, R439). -/
def execLget (f : FT) (s : State) : Out := settle (xferOp false f s)

/-- Replace a transfer by a function of it. -/
def State.mapXfer (s : State) (id : Nat) (f : Xfer → Xfer) : State :=
  { s with lk := { s.lk with xfers := s.lk.xfers.map fun (x : Xfer) => if x.id = id then f x else x } }
/-- A transfer's status is fixed (R439, R440): its status word is written, and the transfer is then performed. -/
def State.endXfer (s : State) (x : Xfer) (cause : Byte) : State :=
  match x.status with
  | none => s.dropXfer x.id
  | some a =>
    let w := (if cause = 0 then 1 else 2) + 256 * cause.toNat + 65536 * (x.pos % 2 ^ 40)
    match s.devWrite { ctx := x.ctx, die := coreDie x.core, addr := a, op := .store (leBytes 8 w), after := .xfer x.id, pod := false } with
    | (s, .waits) => s.mapXfer x.id fun x => { x with ended := true, record := 0 }
    | (s, _) => s.dropXfer x.id
/-- Move the unit of a transfer at its position; a page of the wrong kind admits it no longer. -/
def xferUnit (x : Xfer) : Rd Unit := do
  let n := min 128 (x.len - x.pos)
  let b ← engineRead x.core x.ctx { AccSpec.eread .l 1 with pod := some !x.put } ((if x.put then x.loc else x.rem) + x.pos) n
  engineStore x.core x.ctx { AccSpec.ewrite .l 1 with pod := some x.put } ((if x.put then x.rem else x.loc) + x.pos) b
/-- Write some of the bytes from an address at the leaves of its sector starts: which, is a free choice (log 4). -/
def State.maybeHits (s : State) (addr : Nat) (b : List Byte) (ts : List Hit3) : State :=
  (List.range b.length).foldl (fun s i =>
    match ts.find? fun t => t.2.1.toNat ≤ addr + i && t.2.1.toNat / 32 = (addr + i) / 32 with
    | some t => s.maybeByte (t.2.2.key + (addr + i - t.2.1.toNat)) (b.getD i 0)
    | none => s) s
/-- A unit that a transfer's failure finds in flight: each of its bytes holds its old or its new value (R439), whether or not the path still
serves. One that meets a page, a right, poison or a refusal has not been performed. -/
def strayUnit (x : Xfer) (s : State) : State :=
  let n := min 128 (x.len - x.pos)
  let dst := (if x.put then x.rem else x.loc) + x.pos
  match (engineRead x.core x.ctx { AccSpec.eread .l 1 with pod := some !x.put, link := false } ((if x.put then x.loc else x.rem) + x.pos) n).at s with
  | (.error _, _) => s
  | (.ok b, s') => match checkStore s' x.core x.ctx { AccSpec.ewrite .l 1 with pod := some x.put, link := false } dst n with
    | .bad _ _ => s
    | .ok s' ts => s'.maybeHits dst b ts
/-- The unit that fails and the 63 that may be in flight behind it. -/
def State.straysFrom (s : State) (x : Xfer) : State :=
  (List.range 64).foldl (fun s k => if x.len ≤ x.pos + 128 * k then s else strayUnit { x with pos := x.pos + 128 * k } s) s
/-- A transfer fails at its position: bytes beyond it hold their old or their new values. -/
def State.failXfer (s : State) (x : Xfer) (cause : Byte) : State := (s.straysFrom x).endXfer x cause
/-- The next unit of a transfer, in ascending order, is performed; the last one ends the transfer (R439). -/
def State.xferStep (s : State) (x : Xfer) : State :=
  if x.len ≤ x.pos then s.endXfer x 0
  else
    let n := min 128 (x.len - x.pos)
    match (xferUnit x).at s with
    | (.ok _, s) =>
      let x := { x with pos := x.pos + n }
      let s := s.mapXfer x.id fun _ => x
      if x.len ≤ x.pos then s.endXfer x 0 else s
    | (.error t, s) =>
      if t.cause != cPAGE then s.failXfer x t.cause
      else if s.recordRoom (coreDie x.core) x.ctx (t.pages.take 1) then
        let (s, ids) := s.joinAll (coreDie x.core) x.ctx (.xfer x.id) (t.pages.take 1)
        s.mapXfer x.id fun x => { x with record := ids.headD 0 }
      else s
/-- LINK_UNIT_COMPLETE (R298, R439): the next unit of a transfer, unless a promoted staging request stands before it. -/
def execLinkUnitComplete (xfer : Nat) (s : State) : Out :=
  done (match s.lk.xfers.find? (·.id = xfer) with
    | none => s
    | some x => if x.ended || x.record != 0 || !s.demandMayLand x.id then s else s.xferStep x)
/-- LINK_TIMEOUT (R437, R439): no response to a unit in 50 µs ends the transfer with LINK. -/
def execLinkTimeout (xfer : Nat) (s : State) : Out :=
  done (match s.lk.xfers.find? (·.id = xfer) with
    | none => s
    | some x => if x.ended || x.record != 0 || x.len ≤ x.pos then s else s.failXfer x cLINK)

end Sys2Proof.Machine
end

