-- ==== Sys2Proof/Machine/Visib.lean ====
section
/-! DEFINITION. Visibility keys, the rasteriser, and reprojection (R376 to R384). -/

namespace Sys2Proof.Machine

/-! ## The merge (R376) -/

/-- A key from its depth and payload, −0 taken as +0; none when the depth is negative or NaN. -/
def keyOf (depth payload : Nat) : Option Nat :=
  let d := if depth = 2 ^ 31 then 0 else depth
  if d ≥ 2 ^ 31 || (val d).isNan then none else some (d * 2 ^ 32 + payload)
/-- The depth-keyed minimum at a physical key. -/
def State.mergeKey (s : State) (k v : Nat) : State := s.memPut k 8 (min (s.memNat k 8) v)

/-- Hand a merge to its home slice. -/
def State.queueMerge (s : State) (k v : Nat) : State :=
  let (id, s) := s.newId
  { s with cs := { s.cs with merges := s.cs.merges ++ [{ id := id, gid := s.g.gid, ctx := s.g.ctx, key := k, value := BitVec.ofNat 64 v }] } }

/-- VIS (R377, R378): it retires once every lane's request is accepted. -/
def execVis (f : FK) (s : State) : Out :=
  let g := s.g
  let m := fkMask f g
  let accs := (activeLanes m).map fun i => (i, ((g.sget f.sa).toNat + 8 * (g.vget f.va i).toNat : Int))
  let items := g.sitem f.sa :: (g.vitems false m f.va ++ g.vitems true m f.vd)
  settle <| if m = 0 then .next s
    else orTrap (readPoison g items) s <|
      match checkAccess s g.core g.ctx (.merge 8) false accs with
      | .bad t s => .trap t s
      | .ok s ts => .next (ts.foldl (fun s t =>
          match keyOf (g.vget (f.vd + 1) t.1).toNat (g.vget f.vd t.1).toNat with
          | some v => s.queueMerge t.2.2.key v
          | none => s) s)

/-- Perform the accepted merges that q holds of. -/
def State.performMerges (s : State) (q : Merge → Bool) : State :=
  let s' := (s.cs.merges.filter q).foldl (fun s m => s.mergeKey m.key m.value.toNat) s
  { s' with cs := { s.cs with merges := s.cs.merges.filter fun m => !q m } }
/-- VIS_MERGE (R298, R376): a home slice performs a merge it accepted, unless a promoted staging request stands before it. -/
def execVisMerge (merge : Nat) (s : State) : Out := done (if s.demandMayLand merge then s.performMerges fun m => m.id = merge else s)

/-! ## The rasteriser (R379 to R382) -/

/-- Whether a draw descriptor has a reserved bit, CULL 11 or a misaligned address (R379, R381). -/
def drawBad (d : Nat) : Bool :=
  natBits d 52 12 != 0 || natBits d 116 12 != 0 || natBits d 244 12 != 0 || natBits d 290 30 != 0 || natBits d 372 140 != 0 ||
  natBits d 288 2 = 3 || natBits d 0 52 % 4 != 0 || natBits d 64 52 % 4 != 0 || natBits d 192 52 % 8 != 0 || natBits d 320 52 % 8 != 0
/-- The draw of a descriptor. -/
def drawOf (g : Group) (a d : Nat) : Draw :=
  { id := 0, ctx := g.ctx, gid := g.gid, core := g.core, sector := coreSector g.core, desc := a, vtx := natBits d 0 52, idx := natBits d 64 52
    ntri := natBits d 128 32, w := natBits d 160 16, h := natBits d 176 16, vbuf := natBits d 192 52, pbase := BitVec.ofNat 32 (natBits d 256 32)
    cull := natBits d 288 2, ctr := natBits d 320 52 }

/-- Check and read a 64-byte descriptor for the group whose turn it is (R381): ALIGN, the causes of R170, then BUDGET code 5. -/
def withDesc (s : State) (a : Nat) (m : W32) (bad : Nat → Bool) (k : State → Nat → Res) : Res :=
  if a % 64 != 0 then .trap { cause := cALIGN, elanes := m, eaddr := BitVec.ofNat 64 a } s
  else match (engineNat s.g.core s.g.ctx .v a 64).at s with
    | (.error t, s) => .trap { t with elanes := m } s
    | (.ok d, s) => if bad d then .trap ((budget 5).lanes_ m) s else k s d

/-- RAST (R381): the sector's rasteriser takes the draw, once it holds fewer than 64; a draw saved by a pre-emption is not held. -/
def execRast (f : FK) (s : State) : Out :=
  let a := (s.g.sget f.sa).toNat
  settle <| orTrap (readPoison s.g [s.g.sitem f.sa]) s <| withDesc s a 0 drawBad fun s d =>
    if (s.cs.draws.filter fun x => x.sector = coreSector s.g.core && !x.saved).length ≥ 64 then .park s
    else
      let (id, s) := s.unreplayable.newId
      .next { s with cs := { s.cs with draws := s.cs.draws ++ [{ drawOf s.g a d with id := id }] } }

/-- Replace a draw by a function of it. -/
def State.mapDraw (s : State) (id : Nat) (f : Draw → Draw) : State :=
  { s with cs := { s.cs with draws := s.cs.draws.map fun (d : Draw) => if d.id = id then f d else d } }
/-- The vertices of triangle n of a draw (R380). -/
def drawTriangle (d : Draw) (n : Nat) : Rd (List (List FV)) := do
  (List.range 3).mapM fun k => do
    let i ← engineNat d.core d.ctx .v (d.idx + 12 * n + 4 * k) 4
    (List.range 3).mapM fun c => do
      let w ← engineNat d.core d.ctx .v (d.vtx + 12 * i + 4 * c) 4
      return val w

/-- The depth of a triangle at a pixel's centre as FP32 bits, none when it covers it not (R380). -/
def fragment (cull : Nat) (vs : List (List FV)) (px py : Nat) : Option Nat :=
  let at_ (v : List FV) : Projected :=
    { x := (v.getD 0 .zero).sub ((FV.ofInt px).add .half), y := (v.getD 1 .zero).sub ((FV.ofInt py).add .half), z := v.getD 2 .zero }
  match vs.map at_ with
  | [a, b, c] =>
    let fin := vs.all (fun v => v.all FV.finite)
    if !fin then none
    else
      let e (p q : Projected) : FV := (p.x.mul q.y).sub (p.y.mul q.x)
      let eab := e a b; let ebc := e b c; let eca := e c a
      let det := (eab.add ebc).add eca
      let neg := det.lt .zero
      let edge (x : FV) (p q : Projected) : Bool := if x.isZero then edgeOwned neg p q else x.lt .zero == neg
      let z := f32Of 0 ((((ebc.mul a.z).add (eca.mul b.z)).add (eab.mul c.z)).div det)
      let culled := (cull = 1 && neg) || (cull = 2 && !neg)
      if !det.isZero && edge eab a b && edge ebc b c && edge eca c a && (val z).finite && !culled then some z else none
  | _ => none

/-- The keys a triangle merges: address and key of each covered pixel. -/
def fragments (d : Draw) (n : Nat) (vs : List (List FV)) : List (Nat × Nat) :=
  (List.range d.h).flatMap fun py => (List.range d.w).filterMap fun px =>
    (fragment d.cull vs px py).bind fun z => (keyOf z ((d.pbase.toNat + n) % 2 ^ 32)).map fun k => (d.vbuf + 8 * (py * d.w + px), k)

/-- Perform merges at addresses of a context, each checked before any is made. -/
def mergeAll (core ctx : Nat) (ks : List (Nat × Nat)) : Rd Unit :=
  ExceptT.mk fun s =>
    match checkAccess s core ctx (.merge 8) true (ks.map fun k => (0, (k.1 : Int))) with
    | .bad t s => (.error t, s)
    | .ok s ts => (.ok (), (ts.zip ks).foldl (fun s p => s.mergeKey p.1.2.2.key p.2.2) s)

/-- One triangle of a draw. -/
def rasterOne (d : Draw) : Rd Unit := do
  let vs ← drawTriangle d d.next
  mergeAll d.core d.ctx (fragments d d.next vs)

/-- Skip the triangle and report its cause (R381). -/
def State.skipTriangle (s : State) (d : Draw) (cause : Byte) : State :=
  let s := s.mapDraw d.id fun d => { d with next := d.next + 1, record := 0 }
  if d.ctr = 0 then s
  else s.devPut { ctx := d.ctx, die := coreDie d.core, addr := d.ctr + 8, op := .first (cause.setWidth 64), pod := false }

/-- TRIANGLE_RASTER (R380, R381): the rasteriser draws the draw's next triangle. A translation fault waits for service of the first
page that failed, and the triangle is tried again; any other failure skips the triangle, and the cause goes to CTR + 8. -/
def execTriangleRaster (draw : Nat) (s : State) : Out :=
  done (match s.cs.draws.find? (·.id = draw) with
    | none => s
    | some d =>
      if d.saved || d.record != 0 || d.next ≥ d.ntri then s
      else
        let past := fun (s : State) => s.mapDraw draw fun d => { d with next := d.next + 1 }
        match (rasterOne d).at s with
        | (.ok _, s) => past s
        | (.error t, s) =>
          if t.cause == cPAGE then
            if s.recordRoom (coreDie d.core) d.ctx (t.pages.take 1) then
              let (s, ids) := s.joinAll (coreDie d.core) d.ctx (.draw draw) (t.pages.take 1)
              s.mapDraw draw fun d => { d with record := ids.headD 0 }
            else s
          else s.skipTriangle d t.cause)

/-- DRAW_COMPLETE (R381): every triangle has been drawn: CTR + 1. -/
def execDrawComplete (draw : Nat) (s : State) : Out :=
  done (match s.cs.draws.find? (·.id = draw) with
    | none => s
    | some d => if d.saved || d.next < d.ntri then s else s.endDraw d)

/-! ## Reprojection (R383, R384) -/

/-- Whether a reprojection descriptor has a reserved bit or a misaligned address. -/
def rprojBad (d : Nat) : Bool :=
  natBits d 52 12 != 0 || natBits d 116 12 != 0 || natBits d 180 12 != 0 || natBits d 340 12 != 0 || natBits d 384 128 != 0 ||
  natBits d 0 52 % 8 != 0 || natBits d 64 52 % 8 != 0 || natBits d 128 52 % 16 != 0 || natBits d 288 52 % 8 != 0

/-- The pixel of the previous frame that a pixel comes from, none when it has none. -/
def movedPixel (w h p : Nat) (dx dy : FV) : Option Nat :=
  let q (n : Nat) (d : FV) : FV := ((FV.ofInt n).add .half).add d
  let x := q (p % w) dx
  let y := q (p / w) dy
  if x.finite && y.finite && 0 ≤ x.floor && x.floor < w && 0 ≤ y.floor && y.floor < h then some (y.floor.toNat * w + x.floor.toNat) else none

/-- Read and write one word through class v with both rights; reads: its old value counts, so that poison stops it. -/
def vWord (core ctx addr n : Nat) (reads : Bool) (f : Nat → Nat) : Rd Nat :=
  ExceptT.mk fun s =>
    match checkAccess s core ctx { AccSpec.merge n with reads := reads } true [(0, (addr : Int))] with
    | .bad t s => (.error t, s)
    | .ok s ts => match ts with
      | (_, _, l) :: _ => let old := s.memNat l.key n; (.ok old, s.memPut l.key n (f old))
      | [] => (.ok 0, s)

/-- Check a merge at an address of the group whose turn it is, and hand it to its home slice. -/
def giveMerge (core ctx addr key : Nat) : Rd Unit :=
  ExceptT.mk fun s =>
    match checkAccess s core ctx (.merge 8) true [(0, (addr : Int))] with
    | .bad t s => (.error t, s)
    | .ok s ts => match ts with
      | (_, _, l) :: _ => (.ok (), s.queueMerge l.key key)
      | [] => (.ok (), s)

/-- Value k of a motion record. -/
def mvVal (mv k : Nat) : FV := val (natBits mv (32 * k) 32)
/-- The pixel a motion record sends a pixel back to. -/
def rprojSrc (d p mv : Nat) : Option Nat :=
  let nan := (List.range 4).any fun k => (mvVal mv k).isNan
  if nan || (mvVal mv 3).lt .zero then none else movedPixel (natBits d 192 16) (natBits d 208 16) p (mvVal mv 0) (mvVal mv 1)

/-- One lane of rproj: its result. -/
def rprojLane (core ctx d p : Nat) : Rd Nat := do
  if p ≥ natBits d 192 16 * natBits d 208 16 then return 3
  let mv ← engineNat core ctx .v (natBits d 128 52 + 16 * p) 16
  let f := mvVal mv
  let key ← match rprojSrc d p mv with
    | none => pure none
    | some q => do
      let k ← engineNat core ctx .v (natBits d 0 52 + 8 * q) 8
      let dep := val (k / 2 ^ 32)
      let tol := (val (natBits d 256 32)).add ((val (natBits d 224 32)).mul (f 2))
      pure (if dep.finite && !dep.lt .zero && (dep.sub (f 2)).abs.le tol then some (k % 2 ^ 32) else none)
  match key with
  | some pay =>
    match keyOf (natBits mv 96 32) pay with
    | some k => giveMerge core ctx (natBits d 64 52 + 8 * p) k
    | none => pure ()
    return 0
  | none =>
    let list := natBits d 288 52
    let max := natBits d 352 32
    let n ← vWord core ctx list 8 true fun n => if n < max then n + 1 else if n < 2 ^ 63 then n + 2 ^ 63 else n
    if n < max then
      let _ ← vWord core ctx (list + 8 + 4 * n) 4 false fun _ => p
      return 1
    else return 2

/-- Keep what the walks of an abandoned attempt cached, with the A bits they set (R391), and nothing else of it. -/
def State.keepWalks (s s1 : State) : State :=
  let new := s1.ms.tlb.filter fun t => !s.ms.tlb.contains t
  let s := { s with ms := { s.ms with tlb := s1.ms.tlb, past := s1.ms.past }, choices := s1.choices }
  (new.filter TlbEntry.isLeaf).foldl (fun s t => s.orEntry t.leafAt 52) s

/-- RPROJ (R384): the lanes are decided in ascending order, each access where it appears; no lane has an effect when one fails
(R103). -/
def execRproj (f : FK) (s : State) : Out :=
  let g := s.g
  let m := fkMask f g
  settle <| if m = 0 then .next s
    else orTrap (readPoison g (g.sitem f.sa :: g.vitems false m f.va)) s <|
      withDesc s (g.sget f.sa).toNat m rprojBad fun s d =>
        match (eachLane (activeLanes m) fun i => rprojLane g.core g.ctx d (g.vget f.va i).toNat).once.at s with
        | (.error t, s1) => .trap t (s.keepWalks s1)
        | (.ok rs, s) => .next (s.unreplayable.setV false f.vd m (laneValue rs))

end Sys2Proof.Machine
end

