-- ==== Sys2Proof/Machine/Context.lean ====
section
/-! DEFINITION. Partitions, contexts, page service, invalidation and watchpoints (R392 to R397, R402 to R405, R410, R419,
R423). -/

namespace Sys2Proof.Machine

/-! ## Partitions (R20, R286, R402) -/

/-- Whether a partition has a sector, or a core. -/
def Part.hasSector (p : Part) (sec : Nat) : Bool := p.fsect ≤ sec && sec < p.fsect + 2 ^ p.psize
def Part.hasCore (p : Part) (core : Nat) : Bool := p.hasSector (core / 32)
/-- The bound partition whose first sector is fsect. -/
def State.partOf (s : State) (fsect : Nat) : Option Part := s.cx.parts.find? (·.fsect = fsect)
/-- Replace a bound partition by a function of it. -/
def State.mapPart (s : State) (fsect : Nat) (f : Part → Part) : State :=
  { s with cx := { s.cx with parts := s.cx.parts.map fun p => if p.fsect = fsect then f p else p } }
/-- Contexts of a partition. -/
def State.ctxsOf (s : State) (p : Part) : List Ctx := s.cx.ctxs.filter fun c => p.hasSector c.fsect

/-- BIND (R20, R402, R446): a partition of free sectors, with outputs that no other partition has; its position's bind record is
written, and the map to its home slices is fixed (R19). The command cores start only once a firmware image is accepted (R443). -/
def execBind (b : BindArg) (s : State) : Out :=
  let p : Part := { fsect := b.fsect, psize := b.psize, bindNo := s.ls.bindSeq + 1, outs := b.outs }
  let ok := b.psize ≤ 3 && b.fsect % 2 ^ b.psize = 0 && b.fsect + 2 ^ b.psize ≤ 8 &&
    !s.cx.parts.any (fun q => (List.range 8).any fun x => p.hasSector x && q.hasSector x) &&
    b.outs.all fun o => o < 4 && !s.cx.parts.any fun q => q.outs.contains o
  done (if !ok || s.mg.boot != 1 then s
    else { s with
      cx := { s.cx with parts := s.cx.parts ++ [p] }
      ls := { s.ls with
        binds := s.ls.binds.set b.fsect { bound := true, fsect := b.fsect, psize := b.psize, erase := b.erase, seqNo := s.ls.bindSeq + 1 }
        bindSeq := s.ls.bindSeq + 1 } })

/-- Keys of a partition's memory: first and end. -/
def Part.range (p : Part) : Nat × Nat := (Config.partMemBase p.fsect, Config.partMemBase p.fsect + Config.partMemSize p.psize)
/-- Whether a key lies in it. -/
def Part.holds (p : Part) (k : Nat) : Bool := p.range.1 ≤ k && k < p.range.2
/-- Whether a line, if it is held, lies in a home slice of a partition (R19, R402). -/
def State.inSlices (s : State) (p : Part) (line : Nat) : Bool :=
  isLocalKey (128 * line) && 16 * p.fsect ≤ s.sliceOf line && s.sliceOf line < 16 * p.fsect + 16 * 2 ^ p.psize
/-- Write back the dirty lines of a partition's slices (R402, R453). Host lines are written back too, which an eviction may
do at any time (R181). -/
def State.writeBackPart (s : State) (p : Part) : State :=
  { s with ms := s.ms.writeBack (s.ms.dirty.filter fun x => p.holds (32 * x) || spaceSize ≤ 32 * x || s.inSlices p (x / 4)) }
/-- Drop the lines of a partition's slices, none of which is dirty, with the marks that only the slices hold (R402, R422). -/
def State.dropLines (s : State) (p : Part) : State :=
  let ms := s.ms.discard ((s.ms.stale ++ s.ms.poison).filter fun x => s.inSlices p (x / 4))
  { s with ms := { ms with first := ms.first.filter fun l => !s.inSlices p l } }
/-- Write 0 to every byte of a partition's memory. -/
def State.eraseMem (s : State) (p : Part) : State :=
  let out (m : Memory) : Memory := m.filter fun c => !p.holds c.1
  let keep (l : List Nat) : List Nat := l.filter fun x => !p.holds (32 * x)
  { s with ms := { s.ms with
    mem := out s.ms.mem, backing := out s.ms.backing, dirty := keep s.ms.dirty, stale := keep s.ms.stale, poison := keep s.ms.poison, poisonBack := keep s.ms.poisonBack } }
/-- Clear the stores, tables and caches of a partition's cores. -/
def State.clearCores (s : State) (p : Part) : State :=
  let other (core : Nat) : Bool := !p.hasCore core
  { s with
    cs := { s.cs with
      tiles := s.cs.tiles.filter fun (t : Tile) => other t.core
      tileGens := s.cs.tileGens.filter fun g => other (g.1 / 256)
      bars := s.cs.bars.filter fun (b : Barrier) => other b.core
      copies := s.cs.copies.filter fun (c : Copy) => other c.core }
    ms := { s.ms with
      tlb := s.ms.tlb.filter fun (t : TlbEntry) => if t.core < 256 then other t.core else !(s.ctxsOf p).any (·.n = t.ctx)
      l1 := s.ms.l1.filter fun l => other l.1
      brick := s.ms.brick.filter fun l => other l.1
      past := s.ms.past.filter fun (t : TlbEntry) => if t.core < 256 then other t.core else !(s.ctxsOf p).any (·.n = t.ctx)
      owned := s.ms.owned.filter fun l => other l.2
      pins := s.ms.pins.filter fun l => !p.holds (128 * l.1) } }
/-- Take a partition's heads and encoders back: no latched descriptor and no job reaches the next tenant (R402). -/
def State.clearOutputs (s : State) (p : Part) : State :=
  { s with mg := { s.mg with
    heads := Vector.ofFn fun n => if p.hasSector n.val then { } else s.mg.heads[n]
    jobs := s.mg.jobs.filter fun (j : EncJob) => !p.hasSector j.sector } }
/-- The ring of a job's completion records (R272, R273): whether its descriptor lies in the partition's memory, its descriptor, and whether
it has room for one more. -/
def EncJob.ring (j : EncJob) (s : State) (p : Part) : Option (Nat × Bool) :=
  let d := s.memNat j.cring 64
  if p.holds j.cring && p.holds (j.cring + 63) then some (d, (natBits d 64 64 + 2 ^ 64 - natBits d 128 64) % 2 ^ 64 < 2 ^ natBits d 52 4) else none
/-- A job ends: its record is written into its ring, whose descriptor is d, and counted (R273). DESIGN CHOICE: a BASE that is no multiple of
32 is rounded down, as in State.copyRecord (log 110). -/
def State.endJob (s : State) (p : Part) (j : EncJob) (d status cause bytes : Nat) : State :=
  let s := s.tick
  let w := natBits d 64 64
  let b := leBytes 4 status ++ leBytes 4 cause ++ leBytes 8 bytes ++ leBytes 8 s.clock ++ leBytes 8 j.tag.toNat
  let a := natBits d 0 52 / 32 * 32 + 32 * (w % 2 ^ natBits d 52 4)
  let s := if p.holds a then s.memWrite a b else s
  let s := s.memPut (j.cring + 8) 8 (w + 1)
  { s with mg := { s.mg with jobs := s.mg.jobs.erase j } }
/-- The open jobs of a partition that is unbound are cancelled, each with its record (R447). DESIGN CHOICE: one whose ring is full, or lies
outside the partition, goes without (log 62). -/
def State.cancelJobs (s : State) (p : Part) : State :=
  (s.mg.jobs.filter fun (j : EncJob) => p.hasSector j.sector).foldl (fun s j =>
    let s := s.seen j.cring 64
    match j.ring s p with
    | some (d, true) => s.endJob p j d 3 0 0
    | _ => s) s
/-- UNBIND (R402): refused while a context of the partition is not Free. -/
def execUnbind (fsect : Nat) (erase : Bool) (s : State) : Out :=
  done (match s.partOf fsect with
    | none => s
    | some p =>
      if s.ctxsOf p != [] then s
      else
        let s := s.cancelJobs p
        let s := (((s.writeBackPart p).dropLines p).clearCores p).clearOutputs p
        let s := if erase then s.eraseMem p else s
        { s with
          cx := { s.cx with parts := s.cx.parts.filter fun q => q.fsect != fsect }
          ls := { s.ls with binds := s.ls.binds.set fsect { seqNo := s.ls.bindSeq + 1, erase := erase }, bindSeq := s.ls.bindSeq + 1 } })

/-! ## The context record (R398, R403, R406) -/

/-- Bytes a save area must span. -/
def saveBytes (psize : Nat) : Nat := 0x0A080000 + 0x120000 * (32 * 2 ^ psize)
/-- Whether a record, read as a number, is valid. -/
def ctxRecordOk (r : Nat) : Bool :=
  let z (lo n : Nat) : Bool := natBits r lo n = 0
  let al (lo m : Nat) : Bool := natBits r lo 52 % m = 0
  let psize := natBits r 11 2
  z 4 4 && z 13 51 && z 116 12 && z 180 12 && z 244 12 && z 308 12 && z 372 12 && z 436 12 && z 500 12 && z 520 56 && z 628 12 && z 768 256 &&
  natBits r 8 3 % 2 ^ psize = 0 && al 64 65536 && al 128 65536 && al 192 65536 && al 256 65536 && al 320 65536 && al 384 65536 && al 448 64 &&
  natBits r 704 64 % 65536 = 0 && saveBytes psize ≤ natBits r 704 64
/-- The fields the device reads from a record at create and at bind. -/
def ctxOfRecord (n r : Nat) (st : CtxState) : Ctx :=
  { n := n, st := st, fsect := natBits r 8 3, psize := natBits r 11 2, ptroot := natBits r 64 52, save := natBits r 320 52, dbell := natBits r 384 52
    qtab := natBits r 448 52, svsz := natBits r 704 64 }

/-- CREATE (R403, R404): a Free context becomes Created; the fields that the device keeps are reset, and its policy entry is
all 0. -/
def execCreate (ctx : Nat) (s : State) : Out :=
  let r := s.memNat (s.ctxRec ctx) 128
  done (if s.mg.boot != 1 || 1024 ≤ ctx || (s.ctxOf ctx).isSome then s
    else if !ctxRecordOk r then s.seen (s.ctxRec ctx) 128
    else
      let s := s.seen (s.ctxRec ctx) 128
      let s := { s with
        cx := { s.cx with ctxs := s.cx.ctxs ++ [ctxOfRecord ctx r .created] }
        ls := { s.ls with policy := sparseSet { } ctx { } s.ls.policy } }
      let a := s.ctxRec ctx
      (((s.setCtxState ctx .created).memPut (a + 64) 1 0).memPut (a + 72) 8 0).memPut (a + 80) 8 0)
/-- CONTEXT_BIND (R404): the record names a bound partition; a quarantined one takes no context more (R451; log 61). -/
def execContextBind (ctx : Nat) (s : State) : Out :=
  done (match s.ctxOf ctx with
    | none => s
    | some c =>
      let d := ctxOfRecord ctx (s.memNat (s.ctxRec ctx) 128) .bound
      let s := if c.st = .created then s.seen (s.ctxRec ctx) 128 else s
      match s.partOf d.fsect with
      | some p => if c.st = .created && p.psize = d.psize && !p.quarantined then (s.mapCtx ctx fun _ => d).setCtxState ctx .bound else s
      | none => s)

/-! ## Pre-emption and resume (R404, R410) -/

/-- A context is Runnable again: its queues become Active, and its draws go on (R266, R382). -/
def State.wakeCtx (s : State) (n : Nat) : State :=
  let s := (s.setCtxState n .runnable).resumeQueues n
  { s with cs := { s.cs with draws := s.cs.draws.map fun d => if d.ctx = n then { d with saved := false } else d } }
/-- A resume of a Saved or Faulted context. PCNT counts both: it counts the resumes completed (R403; log 79). -/
def State.resumeNow (s : State) (n : Nat) : State := (s.wakeCtx n).bumpPcnt n

/-- Pre-empt a context (R404, R410); one that is neither Runnable nor Running is left. -/
def State.preEmpt (s : State) (n : Nat) : State :=
  match s.ctxOf n with
  | none => s
  | some c =>
    match c.st with
    | .runnable => ((s.suspendCtx n true).setCtxState n .saved).bumpPcnt n
    | .running => (s.setCtxState n .preempting).suspendCtx n true
    | _ => s
/-- PRE_EMPT (R404, R410). -/
def execPreEmpt (ctx : Nat) (s : State) : Out := done (s.preEmpt ctx)
/-- SWITCH_COMPLETE (R404): every group has left its slot; a resume that came meanwhile takes effect. -/
def execSwitchComplete (ctx : Nat) (s : State) : Out :=
  done (match s.ctxOf ctx with
    | none => s
    | some c =>
      if c.st != .preempting || s.hasResident ctx then s
      else
        let s := ((s.spillIdle ctx).setCtxState ctx .saved).bumpPcnt ctx
        if c.resumeDue && !s.quarantined ctx then (s.mapCtx ctx fun c => { c with resumeDue := false }).resumeNow ctx else s)
/-- RESUME (R404, R451). -/
def execResume (ctx : Nat) (s : State) : Out :=
  done (match s.ctxOf ctx with
    | none => s
    | some c =>
      match c.st with
      | .saved => if s.quarantined ctx then s else s.resumeNow ctx
      | .faulted => if s.quarantined ctx then s else s.resumeNow ctx
      | .preempting => if s.quarantined ctx then s else s.mapCtx ctx fun c => { c with resumeDue := true }
      | _ => s)

/-! ## Destroy (R405) -/

/-- Free every record of a context, without counters. -/
def State.freeRecords (s : State) (n : Nat) : State :=
  let out := s.ls.pool.filter fun e => e.ctx = n
  { s with ls := { s.ls with
    pool := s.ls.pool.filter fun e => e.ctx != n
    poolGens := out.foldl (fun l e => sparseSet 0 (4096 * e.die + e.entry) (e.gen + 1) l) s.ls.poolGens } }
/-- The queues of a context are Free, and their packets go without counters; STATE as in State.freeQueue (log 121). -/
def State.clearQueues (s : State) (c : Ctx) : State :=
  let s := (s.qs.queues.filter fun q => q.ctx = c.n).foldl (fun s q => s.ctxPut c (c.qtab + 64 * q.q + 24) 1 0) s
  { s with qs := { s.qs with
    nextJob := s.qs.jobsAfter fun x => x.ctx = c.n
    queues := s.qs.queues.filter fun (x : Queue) => x.ctx != c.n
    runs := s.qs.runs.filter fun r => r.seq.ctx != c.n
    walks := s.qs.walks.filter fun w => w.ctx != c.n
    ranges := s.qs.ranges.filter fun p => p.1.ctx != c.n
    placed := s.qs.placed.filter fun p => p.ctx != c.n } }
/-- Everything of a context but its groups goes: queues, barriers, tiles, draws, transfers, requesters, translations. Merges that its
vis handed over are performed, and a draw all of whose merges are performed counts as complete (R382). -/
def State.freeObjects (s : State) (n : Nat) : State :=
  let s := s.performMerges fun m => m.ctx = n
  let s := (s.cs.draws.filter fun (d : Draw) => d.ctx = n && d.ntri ≤ d.next).foldl State.endDraw s
  let s := match s.ctxOf n with | some c => s.clearQueues c | none => s
  let s := s.mapGroups fun g => if g.ctx = n then { g with bars := [] } else g
  let s := (s.cs.tiles.filter fun (t : Tile) => t.ctx = n).foldl (fun s t => s.freeTile t) s
  let s := (s.cs.savedTiles.filter fun (t : Tile) => t.ctx = n).foldl (fun s t =>
    { s with cs := { s.cs with tileGens := sparseSet 0 (256 * t.core + t.idx) (s.tileGen t.core t.idx + 1) s.cs.tileGens } }) s
  { s with
    cs := { s.cs with
      bars := s.cs.bars.filter fun (b : Barrier) => b.ctx != n
      savedTiles := s.cs.savedTiles.filter fun (t : Tile) => t.ctx != n
      draws := s.cs.draws.filter fun (d : Draw) => d.ctx != n }
    lk := { s.lk with xfers := s.lk.xfers.filter fun (x : Xfer) => x.ctx != n }
    cx := { s.cx with
      recs := s.cx.recs.filter fun r => r.ctx != n
      notices := s.cx.notices.filter fun x => match x with | .record id => !s.cx.recs.any fun r => r.id = id && r.ctx = n | _ => true
      writes := s.cx.writes.filter fun w => w.ctx != n
      watch := s.cx.watch.filter fun w => w.ctx != n
      invals := s.cx.invals.filter fun i => i.1 != n }
    ms := { s.ms with
      tlb := s.ms.tlb.filter fun (t : TlbEntry) => t.ctx != n
      past := s.ms.past.filter fun (t : TlbEntry) => t.ctx != n
      owned := s.ms.owned.filter fun o => match s.ctxOf n with | some c => !c.hasCore o.2 | none => true } }
/-- TEARDOWN_COMPLETE (R404, R405): no group and no tile entry of it is left; the context is Free. -/
def execTeardownComplete (ctx : Nat) (s : State) : Out :=
  done (match s.ctxOf ctx with
    | none => s
    | some c =>
      if c.st != .destroyed || s.groups.any (·.ctx = ctx) || s.cs.tiles.any (·.ctx = ctx) then s
      else
        let s := s.memPut (s.ctxRec ctx) 1 0
        let p := s.policyOf ctx
        { s with
          cx := { s.cx with ctxs := s.cx.ctxs.filter fun c => c.n != ctx }
          ls := { s.ls with policy := sparseSet { } ctx { p with valid := false } s.ls.policy } })

/-! ## Page service (R393 to R397) -/

/-- What a write on behalf of work leaves to do once it is performed (R465). -/
def State.afterWrite (s : State) (w : DevWrite) : State :=
  match w.after with
  | .nothing => s
  | .unit d e => s.launchEnds d e
  | .succ refs => (s.runSucc w.ctx w.die refs).sweepPool
  | .ready run => s.mapRun run fun r => { r with ready := true }
  | .count run ring => s.countRecord run w.ctx w.die ring
  | .test run => match s.runOf run with | some r => s.loopTest r | none => s
  | .xfer id => s.dropXfer id
/-- Make a waiting write again. -/
def State.retryWrite (s : State) (id : Nat) : State :=
  match s.cx.writes.find? (·.id = id) with
  | none => s
  | some w =>
    let s := { s with cx := { s.cx with writes := s.cx.writes.filter fun x => x.id != id } }
    match s.devWrite w with
    | (s, .done) => s.afterWrite w
    | (s, _) => s
/-- A requester retries (R396). -/
def State.retry (s : State) (id : Nat) : Requester → State
  | .group gid => s.onGroup gid fun s =>
    let left := s.g.records.filter (· ≠ id)
    if s.g.phase = .faulted && s.g.records.contains id && left = [] then s.replay false
    else { s with g := { s.g with records := left } }
  | .ray gid lane => s.mapGroup gid fun g =>
    match g.rayOf lane with
    | some r => g.setRay lane (some (if r.phase = .faultwait && r.record = id then { r with phase := .marching, record := 0 } else r))
    | none => g
  | .draw d => s.mapDraw d fun d => if d.record = id then { d with record := 0 } else d
  | .write w => s.retryWrite w
  | .xfer x => s.mapXfer x fun x => { x with record := 0 }
  | .packet _ => s
  | .started _ => s
  | .copy _ => s
/-- Take a record away. -/
def State.dropRecord (s : State) (id : Nat) : State :=
  { s with cx := { s.cx with recs := s.cx.recs.filter fun r => r.id != id, notices := s.cx.notices.filter (· ≠ .record id) } }
/-- Writes that found no free record try again. -/
def State.retryFree (s : State) : State := (s.cx.writes.filter fun w => w.record = 0).foldl (fun s w => s.retryWrite w.id) s
/-- DESTROY (R404, R405): the fault records of the context are free for the writes of others that wait for one (R394). -/
def execDestroy (ctx : Nat) (s : State) : Out :=
  done (match s.ctxOf ctx with
    | none => s
    | some c =>
      if c.st = .destroyed then s
      else
        let s := s.setCtxState ctx .destroyed
        let s := s.dropStaging (s.recordOf ctx)
        let s := (s.groups.filter fun g => g.ctx = ctx).foldl State.discardGroup s
        ((s.freeRecords ctx).freeObjects ctx).retryFree)
/-- The record named, when it is the oldest of its context, which is served first (R394). -/
def State.dueRecord (s : State) (record : Nat) : Option FaultRec :=
  (s.cx.recs.find? (·.id = record)).filter fun r => (s.cx.recs.find? (·.ctx = r.ctx)).map (·.id) = some record
/-- SERVICE_COMPLETE (R393, R394, R396): every requester of the record retries. -/
def execServiceComplete (record : Nat) (s : State) : Out :=
  done (match s.dueRecord record with
    | none => s
    | some r => (r.reqs.foldl (fun s q => s.retry record q) (s.dropRecord record)).retryFree)

/-- A requester takes the failure of a record (R396, R439, R465); a packet is rejected with ERR 7 (R266). -/
def State.takeFailure (s : State) (ctx id : Nat) : Requester → State
  | .group gid => match s.groupOf gid with
    | some g => s.failCtx ctx g.r.trap.tcause g.r.trap.eaddr.toNat
    | none => s
  | .ray gid lane => s.onGroup gid fun s =>
    match s.g.rayOf lane with
    | some r => if r.phase = .faultwait && r.record = id then rayFailed r s else s
    | none => s
  | .draw n => match s.cs.draws.find? (·.id = n) with
    | some d => s.skipTriangle d cPAGE
    | none => s
  | .write n => match s.cx.writes.find? (·.id = n) with
    | some w =>
      ({ s with cx := { s.cx with writes := s.cx.writes.filter fun x => x.id != n } }).writeFails w cPAGE
    | none => s
  | .xfer n => match s.lk.xfers.find? (·.id = n) with
    | some x => s.failXfer { x with record := 0 } cPAGE
    | none => s
  | .packet q => s.reject q (s.posOf q) 7 (s.levelsOf q)
  | .started run => match s.runOf run with
    | some r => s.reject r.seq r.index 7 r.mem run
    | none => s
  | .copy run => match s.runOf run with
    | some r =>
      if r.status != 0 || r.moved ≥ pkNat r.body 24 8 then s.ringFails r
      else (s.dropReqs (· = .copy run)).mapRun run fun r => { r with status := 2, cause := cPAGE }
    | none => s
where
  /-- ERROR FAULT lands for a ray whose service fails (R396). -/
  rayFailed (r : Ray) (s : State) : State :=
    let s := s.landRay r (errRec eFAULT 0 cPAGE.toNat (r.failedAt.toNat % 2 ^ 32))
    { s with g := s.g.setRay r.lane none }
/-- Whether the failure of a requester makes its context Faulted, or may: a transfer then writes its status word. -/
def Requester.failsContext : Requester → Bool
  | .group _ => true
  | .write _ => true
  | .xfer _ => true
  | _ => false
/-- SERVICE_FAILS (R393, R394, R396): every requester of the record takes the failure, those that make the context Faulted last. -/
def execServiceFails (record : Nat) (s : State) : Out :=
  done (match s.dueRecord record with
    | none => s
    | some r =>
      let reqs := r.reqs.filter (!·.failsContext) ++ r.reqs.filter (·.failsContext)
      (reqs.foldl (fun s q => s.takeFailure r.ctx record q) (s.dropRecord record)).retryFree)

/-! ## Forward and fail (R419) -/

/-- The context of the Faulted group whose turn it is becomes Faulted, with its cause. -/
def State.failGroup (s : State) : State := s.failCtx s.g.ctx s.g.r.trap.tcause s.g.r.trap.eaddr.toNat
/-- FORWARD (R417, R419): the group enters its handler; in handler mode it counts as a failure, and a handler that R417 does not
accept leaves the cause with system software. -/
def execForward (core slot : Nat) (s : State) : Out :=
  done (s.onSlot core slot fun s =>
    if s.g.phase != .faulted then s
    else if s.g.hmode then s.failGroup
    else match s.handlerReady with
      | (true, s) => s.clearCause.enterHandler
      | (false, s) => s)
/-- FAIL (R404, R419). -/
def execFail (core slot : Nat) (s : State) : Out :=
  done (s.onSlot core slot fun s => if s.g.phase = .faulted then s.failGroup else s)

/-! ## Invalidation (R392) and watchpoints (R423) -/

/-- Whether a cached translation meets a range of a context. -/
def TlbEntry.meets (t : TlbEntry) (ctx lo len : Nat) : Bool := t.ctx = ctx && t.base < lo + len && lo < t.base + t.size
/-- INVALIDATION (R392): requested; until it completes, an access may use the old translation or the new one. -/
def execInvalidation (ctx lo len : Nat) (s : State) : Out :=
  done (if (s.ctxOf ctx).isNone || s.cx.invals.contains (ctx, lo, len) then s
    else { s with cx := { s.cx with invals := s.cx.invals ++ [(ctx, lo, len)] } })
/-- Perform every retired store of a context's groups. -/
def State.drainCtx (s : State) (ctx : Nat) : State :=
  (s.groups.filter fun g => g.ctx = ctx).foldl (fun s g => s.onGroup g.gid State.drain) s
/-- INVALIDATION_COMPLETE (R392): accesses through old translations have been performed, merges among them; the translations go,
next-table entries too, and the copies of the old physical range, also those under a leaf that a cache has lost since, are
written back and dropped, pinned ones among them. It waits while a release buffer, a started atomic or a copy still uses one. -/
def execInvalidationComplete (ctx lo len : Nat) (s : State) : Out :=
  let busy := s.groups.any (fun g => g.ctx = ctx && (g.relBuf != [] || g.atomic.isSome)) ||
    s.cs.copies.any fun (c : Copy) => c.ctx = ctx && c.map.any fun p => 65536 * p.1 < lo + len && lo < 65536 * (p.1 + 1)
  done (if !s.cx.invals.contains (ctx, lo, len) || busy then s
    else
      let s := (s.drainCtx ctx).performMerges fun m => m.ctx = ctx
      let old := (s.ms.tlb ++ s.ms.past).filter fun t => t.isLeaf && t.meets ctx lo len
      let hit (k n : Nat) : Bool := old.any fun t =>
        let a := (leafOf s t.leaf.toNat t.leafAt t.size t.base).key
        k < a + t.size && a < k + n
      let ms := s.ms.writeBack (s.ms.dirty.filter fun x => hit (32 * x) 32)
      let ms := ms.discard (ms.stale.filter fun x => hit (32 * x) 32)
      { s with
        ms := { ms with
          tlb := ms.tlb.filter fun t => !t.meets ctx lo len
          past := ms.past.filter fun t => !t.meets ctx lo len
          l1 := ms.l1.filter fun l => !hit (128 * l.2) 128
          brick := ms.brick.filter fun l => !hit (128 * l.2) 128
          pins := ms.pins.filter fun p => !hit (128 * p.1) 128 }
        cx := { s.cx with invals := s.cx.invals.filter fun i => !(i = (ctx, lo, len)) } })
/-- System software supplies the context-table base (R403) as it initialises the device, through the command core: once a firmware image is
accepted (R443), and while no context is in use. -/
def State.setContextTable (s : State) (base : Nat) : State :=
  if s.mg.boot = 1 && s.cx.ctxs = [] then { s with cx := { s.cx with tab := base } } else s
/-- WATCHPOINT_SET (R423): one of the four watchpoints of a context. -/
def execWatchpointSet (ctx : Nat) (w : WatchArg) (s : State) : Out :=
  done (if (s.ctxOf ctx).isNone || 4 ≤ w.n then s
    else { s with cx := { s.cx with watch := s.cx.watch.filter (fun x => !(x.ctx = ctx && x.w.n = w.n)) ++ [{ ctx := ctx, w := w }] } })

end Sys2Proof.Machine
end

