-- ==== Sys2Proof/Machine/Control.lean ====
section
/-! DEFINITION. Control instructions but for exit: branches, the mask stack, yield and nop (R118 to R130). -/

namespace Sys2Proof.Machine

/-- Target of a format-B branch: its own address + 8·sext(OFF32), which may lie outside the address space (R60). -/
def fbTarget (f : FB) (s : State) : W64 := w64 ((s.g.pc.toNat : Int) + 8 * f.off.toInt)
/-- The address after the block, which is the fall-through header (R60). -/
def fallThrough (s : State) : W64 := s.g.pc + 8
/-- The predicate operand c: P[P] or its complement. -/
def fbPred (f : FB) (s : State) : W32 := if f.pneg = 1 then ~~~ s.g.pget f.p else s.g.pget f.p

/-- The conditions of brc (R74). -/
def brcTaken (c : BitVec 3) (x : W64) : Bool :=
  match c.toNat with
  | 0 => x == 0 | 1 => x != 0 | 2 => x.toInt < 0 | 3 => x.toInt ≥ 0 | 4 => x.toInt > 0 | _ => x.toInt ≤ 0
/-- The conditions of brm (R121). -/
def brmTaken (c : BitVec 3) (t m : W32) : Bool :=
  match c.toNat with
  | 0 => t != 0 | 1 => t == m | 2 => t == 0 | _ => t != m

/-- MASKOVF with its code (R106). -/
def maskOvf (code : Nat) : Trap := trapCode cMASKOVF code

/-- Replace the mask state. -/
def State.setMask (s : State) (stack : List Frame) (mask : W32) (pend : Option W64) : State :=
  s.mapR fun r => { r with stack := stack, mask := mask, pend := pend }

/-- BR (R119): PC = Target. -/
def execBr (f : FB) (s : State) : Out := settle (mustBeLast s (.jump (fbTarget f s) s))

/-- BRC (R120): taken when S[N], signed, meets the condition. -/
def execBrc (f : FB) (s : State) : Out :=
  settle <| mustBeLast s <| orTrap (readPoison s.g [s.g.sitem f.s]) s <|
    .jump (if brcTaken f.cond (s.g.sget f.s) then fbTarget f s else fallThrough s) s

/-- BRM (R121): a whole-mask test of the predicate over the active lanes. -/
def execBrm (f : FB) (s : State) : Out :=
  settle <| mustBeLast s <| orTrap (readPoison s.g (pitem f.p)) s <|
    .jump (if brmTaken f.cond (fbPred f s &&& s.g.r.mask) s.g.r.mask then fbTarget f s else fallThrough s) s

/-- CALL (R122): S[N] = FallThrough, PC = Target. -/
def execCall (f : FB) (s : State) : Out := settle (mustBeLast s (.jump (fbTarget f s) (s.setS f.s (fallThrough s))))

/-- RET (R123): PC = S[N]. -/
def execRet (f : FB) (s : State) : Out :=
  settle <| mustBeLast s <| orTrap (readPoison s.g [s.g.sitem f.s]) s <| .jump (s.g.sget f.s) s

/-- JT (R124): loads an 8-byte code address by a class-g load of scope gp and transfers control to it. -/
def execJt (f : FB) (s : State) : Out :=
  let a : Int := (s.g.sget f.s).toNat + 8 * f.off.toInt
  settle <| mustBeLast s <| orTrap (readPoison s.g [s.g.sitem f.s]) s <|
    accessG s (.load 8) true false [(0, a)] fun s ts =>
      match ts with
      | (_, _, l) :: _ => .jump (BitVec.ofNat 64 (leNat (s.ownBytes l.key 8))) (s.noteLoad 0 l)
      | [] => .stay s

/-- MIF (R125): push an IF frame with the pending point and narrow the mask. -/
def execMif (f : FB) (s : State) : Out :=
  let r := s.g.r
  settle <| orTrap (readPoison s.g (pitem f.p)) s (if r.stack.length ≥ 32 then .trap (maskOvf 0) s
    else .next (s.setMask ({ m := r.mask, kind := .ifFrame, point := r.pend, origin := s.g.pc } :: r.stack) (r.mask &&& fbPred f s) none))

/-- MELSE (R126): the other lanes of the top IF frame. -/
def execMelse (_f : FB) (s : State) : Out :=
  let r := s.g.r
  settle (match r.stack with
    | [] => .trap (maskOvf 1) s
    | t :: _ => if t.kind = .ifFrame then .next (s.setMask r.stack (t.m &&& ~~~ r.mask) r.pend) else .trap (maskOvf 2) s)

/-- MEND (R127): the top frame's M, and the frame is popped. -/
def execMend (_f : FB) (s : State) : Out :=
  let r := s.g.r
  settle (match r.stack with
    | [] => .trap (maskOvf 1) s
    | t :: rest => .next (s.setMask rest t.m r.pend))

/-- The pass of an mloop that leaves this mask: back to the target while a lane remains (R128). -/
def loopBack (f : FB) (s : State) (stack : List Frame) (mask : W32) : Res :=
  .jump (if mask ≠ 0 then fbTarget f s else fallThrough s) (s.setMask stack mask none)

/-- MLOOP (R128). -/
def execMloop (f : FB) (s : State) : Out :=
  let r := s.g.r
  let mask := r.mask &&& fbPred f s
  let own : Bool := match r.stack with
    | t :: _ => t.kind = .loopFrame && t.origin = s.g.pc
    | [] => false
  settle <| mustBeLast s <| orTrap (readPoison s.g (pitem f.p)) s <|
    if own then loopBack f s r.stack mask
    else if r.stack.length ≥ 32 then .trap (maskOvf 0) s
    else loopBack f s ({ m := r.mask, kind := .loopFrame, point := some (r.pend.getD (fallThrough s)), origin := s.g.pc } :: r.stack) mask

/-- YIELD (R130): no architectural state changes; the slot ranks last in issue selection until the expiry. -/
def execYield (_f : FB) (s : State) : Out := settle (.next { s with g := { s.g with yielded := true } })

/-- NOP (R130). -/
def execNop (_f : FB) (s : State) : Out := settle (.next s)

end Sys2Proof.Machine
end

