-- ==== Sys2Proof/Machine/Vector.lean ====
section
/-! DEFINITION. Integer vector instructions, moves, selection, lane values, comparisons and predicates (R136 to R142, R163,
R164). -/

namespace Sys2Proof.Machine

/-- One integer element result: clamped under SAT, or narrowed (R133). -/
def intElem (t : BitVec 4) (sat : Bool) (x : Int) : LaneOut :=
  let w := tyBits t
  let c := clamp (intLo (isSigned t) w) (intHi (isSigned t) w) x
  if sat then { val := (c.1 % 2 ^ w).toNat, sat := c.2 } else { val := (x % 2 ^ w).toNat }

/-- A lane of a packed instruction: each element on its own (R132). -/
def laneOf (t : BitVec 4) (el : Nat → LaneOut) : LaneOut :=
  let es := (List.range (elemN t)).map el
  { val := joinElems (tyBits t) (es.map (·.val)), exc := es.foldl (fun x e => x ||| e.exc) 0, sat := es.any (·.sat) }

/-- The form of R133 for integer elements: r from elements a, b and c as raw bits. -/
def intVector (s : State) (f : V3) (useB useC : Bool) (el : Nat → Nat → Nat → LaneOut) : Out :=
  let g := s.g
  let m := v3mask f g
  let wide := is64 f.ty
  let reads := g.vitems wide m f.a ++ (if useB then g.vitems wide m f.b else []) ++ (if useC then g.vitems wide m f.c else [])
  settle <| vectorOp s m reads f.d wide fun i =>
    let a := g.lane f.ty f.a i
    let b := if useB then g.lane f.ty f.b i else 0
    let c := if useC then g.lane f.ty f.c i else 0
    laneOf f.ty fun e => el (elemOf f.ty a e) (elemOf f.ty b e) (elemOf f.ty c e)

/-- An integer instruction whose exact result is a function of the typed elements. -/
def intOp (s : State) (f : V3) (useB useC : Bool) (r : Int → Int → Int → Int) : Out :=
  intVector s f useB useC fun a b c => intElem f.ty (f.sat == 1) (r (elemInt f.ty a) (elemInt f.ty b) (elemInt f.ty c))
/-- An integer instruction on raw bits of width w. -/
def bitsOp (s : State) (f : V3) (useB : Bool) (r : Nat → Nat → Nat → Nat) : Out :=
  intVector s f useB false fun a b _ => { val := r (tyBits f.ty) a b % 2 ^ tyBits f.ty }
/-- Division: a zero divisor is a DZ exception of the lane (R27, R137). -/
def divOp (s : State) (f : V3) (r : Int → Int → Int) : Out :=
  intVector s f true false fun a b _ =>
    { intElem f.ty false (r (elemInt f.ty a) (elemInt f.ty b)) with exc := if b = 0 then fDZ else 0 }

/-- The bits of a value of w bits in reverse order. -/
def bitRev : Nat → Nat → Nat
  | 0, _ => 0
  | w + 1, x => x % 2 * 2 ^ w + bitRev w (x / 2)

/-- VADD (R136). -/
def execVadd (f : V3) (s : State) : Out := intOp s f true false fun a b _ => a + b
/-- VSUB (R136). -/
def execVsub (f : V3) (s : State) : Out := intOp s f true false fun a b _ => a - b
/-- VMUL (R136). -/
def execVmul (f : V3) (s : State) : Out := intOp s f true false fun a b _ => a * b
/-- VMULH (R136, R137). -/
def execVmulh (f : V3) (s : State) : Out := intOp s f true false fun a b _ => a * b / 2 ^ tyBits f.ty
/-- VMAD (R136). -/
def execVmad (f : V3) (s : State) : Out := intOp s f true true fun a b c => a * b + c
/-- VDIV (R27, R136). -/
def execVdiv (f : V3) (s : State) : Out := divOp s f quotient
/-- VREM (R27, R136). -/
def execVrem (f : V3) (s : State) : Out := divOp s f remainder
/-- VMIN (R136). -/
def execVmin (f : V3) (s : State) : Out := intOp s f true false fun a b _ => min a b
/-- VMAX (R136). -/
def execVmax (f : V3) (s : State) : Out := intOp s f true false fun a b _ => max a b
/-- VABS (R136, R137). -/
def execVabs (f : V3) (s : State) : Out := intOp s f false false fun a _ _ => a.natAbs
/-- VNEG (R136, R137). -/
def execVneg (f : V3) (s : State) : Out := intOp s f false false fun a _ _ => -a
/-- VAND (R136). -/
def execVand (f : V3) (s : State) : Out := bitsOp s f true fun _ a b => a &&& b
/-- VOR (R136). -/
def execVor (f : V3) (s : State) : Out := bitsOp s f true fun _ a b => a ||| b
/-- VXOR (R136). -/
def execVxor (f : V3) (s : State) : Out := bitsOp s f true fun _ a b => a ^^^ b
/-- VANDN (R136): a AND NOT b. -/
def execVandn (f : V3) (s : State) : Out := bitsOp s f true fun w a b => a &&& (2 ^ w - 1 - b)
/-- VNOT (R136). -/
def execVnot (f : V3) (s : State) : Out := bitsOp s f false fun w a _ => 2 ^ w - 1 - a
/-- VSHL (R136): the count is b mod w, read as unsigned. -/
def execVshl (f : V3) (s : State) : Out := bitsOp s f true fun w a b => a * 2 ^ (b % w)
/-- VSHR (R136). -/
def execVshr (f : V3) (s : State) : Out := bitsOp s f true fun w a b => a / 2 ^ (b % w)
/-- VSRA (R136). -/
def execVsra (f : V3) (s : State) : Out :=
  bitsOp s f true fun w a b => ((if a ≥ 2 ^ (w - 1) then (a : Int) - 2 ^ w else a) / 2 ^ (b % w) % 2 ^ w).toNat
/-- VCLZ (R136). -/
def execVclz (f : V3) (s : State) : Out := bitsOp s f false fun w a _ => clz w a
/-- VPOP (R136). -/
def execVpop (f : V3) (s : State) : Out := bitsOp s f false fun w a _ => popCount w a
/-- VBREV (R136). -/
def execVbrev (f : V3) (s : State) : Out := bitsOp s f false fun w a _ => bitRev w a

/-- The form of R138: four byte elements of A and B, one 32-bit accumulator of C. -/
def byteSum (s : State) (f : V3) (term : Int → Int → Int) : Out :=
  let g := s.g
  let m := v3mask f g
  let reads := g.vitems false m f.a ++ g.vitems false m f.b ++ g.vitems false m f.c
  let wide : BitVec 4 := if f.ty = 0 then 2 else 6
  settle <| vectorOp s m reads f.d false fun i =>
    let a := (g.vget f.a i).toNat
    let b := (g.vget f.b i).toNat
    let x := (List.range 4).foldl (fun x k => x + term (elemInt f.ty (elemOf f.ty a k)) (elemInt f.ty (elemOf f.ty b k)))
      (elemInt wide (g.vget f.c i).toNat)
    intElem wide (f.sat == 1) x
/-- VSAD (R138). -/
def execVsad (f : V3) (s : State) : Out := byteSum s f fun a b => (a - b).natAbs
/-- VDOT4 (R138). -/
def execVdot4 (f : V3) (s : State) : Out := byteSum s f fun a b => a * b

/-- The sign modifiers of one operand on every element of an F-type lane (R30, R139). -/
def modLane (t : BitVec 4) (md : BitVec 6) (k x : Nat) : Nat :=
  if isFl t then joinElems (tyBits t) ((List.range (elemN t)).map fun e => modOf md k (fmtOf t) (elemOf t x e)) else x

/-- VMOV (R139): copies bits; MOD changes only sign bits. -/
def execVmov (f : V3) (s : State) : Out :=
  let g := s.g
  let m := v3mask f g
  settle <| vectorOp s m (g.vitems (is64 f.ty) m f.a) f.d (is64 f.ty) fun i => { val := modLane f.ty f.md 0 (g.lane f.ty f.a i) }

/-- VSEL (R139): P[C] chooses A or B per lane. -/
def execVsel (f : V3) (s : State) : Out :=
  let g := s.g
  let m := v3mask f g
  let p := g.pget (pnum f.c)
  let wide := is64 f.ty
  settle <| vectorOp s m (pitem (pnum f.c) ++ g.vitems wide (m &&& p) f.a ++ g.vitems wide (m &&& ~~~ p) f.b) f.d wide fun i =>
    { val := g.lane f.ty (if p.getLsbD i then f.a else f.b) i }

/-- VBCAST (R139): S[A] in every active lane. -/
def execVbcast (f : V3) (s : State) : Out :=
  let g := s.g
  let x := (g.sget (snum f.a)).toNat
  settle <| vectorOp s (v3mask f g) [g.sitem (snum f.a)] f.d (is64 f.ty) fun _ => { val := x }

/-- VLANE (R140): the lane number. -/
def execVlane (f : V3) (s : State) : Out := settle <| vectorOp s (v3mask f s.g) [] f.d false fun i => { val := i }

/-- VLANE_GET (R140): lane k of A, active or not; nothing when no lane is active. -/
def execVlaneGet (f : V3) (s : State) : Out :=
  let g := s.g
  let k := (g.sget (snum f.b)).toNat % 32
  settle (if v3mask f g = 0 then .next s
    else orTrap (readPoison g [g.sitem (snum f.b), g.vitem f.a k]) s (.next (s.setS (snum f.d) ((g.vget f.a k).setWidth 64))))

/-- VLANE_PUT (R140): the low word of S[A] into lane k when it is active; otherwise S[A] is not read (R422). -/
def execVlanePut (f : V3) (s : State) : Out :=
  let g := s.g
  let m := v3mask f g
  let k := (g.sget (snum f.b)).toNat % 32
  settle (if m = 0 then .next s
    else orTrap (readPoison g (g.sitem (snum f.b) :: if m.getLsbD k then [g.sitem (snum f.a)] else [])) s
      (.next (s.setV false f.d (m &&& BitVec.twoPow 32 k) fun _ => (g.sget (snum f.a)).toNat)))

/-- VLI (R141). -/
def execVli (f : VI) (s : State) : Out := settle <| vectorOp s (viMask f s.g) [] f.d false fun _ => { val := f.imm.toNat }
/-- VADD_IMM (R141): elements add modulo 2^w. -/
def execVaddImm (f : VI) (s : State) : Out :=
  let g := s.g
  let m := viMask f g
  settle <| vectorOp s m (g.vitems false m f.a) f.d false fun i =>
    laneOf f.ty fun e => { val := (elemOf f.ty (g.vget f.a i).toNat e + elemOf f.ty f.imm.toNat e) % 2 ^ tyBits f.ty }
/-- VAND_IMM (R141). -/
def execVandImm (f : VI) (s : State) : Out :=
  let g := s.g
  let m := viMask f g
  settle <| vectorOp s m (g.vitems false m f.a) f.d false fun i => { val := (g.vget f.a i &&& f.imm).toNat }

/-- A comparison into a predicate (R142): inactive lanes are written 0, and with no active lane P[D] is unchanged. -/
def compareOp (s : State) (m : W32) (reads : List Item) (d : BitVec 4) (exc : Nat → BitVec 5) (q : Nat → Bool) : Res :=
  if m = 0 then .next s
  else orTrap (readPoison s.g reads) s <| orTrap (fpTrap s.g m exc) s <|
    .next ((s.setP d (maskOf fun i => m.getLsbD i && q i)).orF (orLanes m exc))

/-- VCMP (R142). -/
def execVcmp (f : V3) (s : State) : Out :=
  let g := s.g
  let m := v3mask f g
  let wide := is64 f.ty
  settle <| compareOp s m (g.vitems wide m f.a ++ g.vitems wide m f.b) (pnum f.d) (fun _ => 0) fun i =>
    compareInt f.sub.toNat (elemInt f.ty (g.lane f.ty f.a i)) (elemInt f.ty (g.lane f.ty f.b i))

/-- The form of the predicate logic instructions (R163). -/
def predOp (f : V3) (s : State) (op : W32 → W32 → W32) : Out :=
  settle <| orTrap (readPoison s.g (pitem (pnum f.a) ++ pitem (pnum f.b))) s <|
    .next (s.setP (pnum f.d) (op (s.g.pget (pnum f.a)) (s.g.pget (pnum f.b))))
/-- PAND (R163): all 32 bits, whatever the active mask. -/
def execPand (f : V3) (s : State) : Out := predOp f s fun a b => a &&& b
/-- POR (R163). -/
def execPor (f : V3) (s : State) : Out := predOp f s fun a b => a ||| b
/-- PXOR (R163). -/
def execPxor (f : V3) (s : State) : Out := predOp f s fun a b => a ^^^ b
/-- PNOT (R163). -/
def execPnot (f : V3) (s : State) : Out := predOp f s fun a _ => ~~~ a
/-- PSET (R164). -/
def execPset (f : VI) (s : State) : Out := settle (.next (s.setP (pnum f.d) f.imm))

end Sys2Proof.Machine
end

