-- ==== Sys2Proof/Machine/FloatArith.lean ====
section
/-! DEFINITION. Floating-point vector instructions (R143 to R150). -/

namespace Sys2Proof.Machine

/-- An element's result as a lane result. -/
def Rounded.out (r : Rounded) : LaneOut := { val := r.bits, exc := r.fl, sat := r.sat }

/-- The form of R133 for floating-point elements, with MOD applied first; el takes the bits of the elements. -/
def fpVector (s : State) (f : V3) (useB useC : Bool) (el : Nat → Nat → Nat → Rounded) : Out :=
  let g := s.g
  let m := v3mask f g
  let reads := g.vitems false m f.a ++ (if useB then g.vitems false m f.b else []) ++ (if useC then g.vitems false m f.c else [])
  let fmt := fmtOf f.ty
  settle <| vectorOp s m reads f.d false fun i =>
    let a := (g.vget f.a i).toNat
    let b := if useB then (g.vget f.b i).toNat else 0
    let c := if useC then (g.vget f.c i).toNat else 0
    laneOf f.ty fun e =>
      (el (modOf f.md 0 fmt (elemOf f.ty a e)) (modOf f.md 1 fmt (elemOf f.ty b e)) (modOf f.md 2 fmt (elemOf f.ty c e))).out

/-- Round an exact result to TYPE in RND, with the exceptions of forming and of rounding it. -/
def finishFp (f : V3) (x : Ex) : Rounded :=
  let r := (fmtOf f.ty).round f.rnd.toNat 0 false x.x
  { r with fl := r.fl ||| x.fl }

/-- An instruction of R143 whose exact result is a function of the values read. -/
def fpOp (s : State) (f : V3) (useB useC : Bool) (x : FV → FV → FV → Ex) : Out :=
  let fmt := fmtOf f.ty
  fpVector s f useB useC fun a b c => finishFp f (x (fmt.read a) (fmt.read b) (fmt.read c))

/-- FADD (R143). -/
def execFadd (f : V3) (s : State) : Out := fpOp s f true false fun a b _ => fvAdd f.rnd.toNat a b
/-- FSUB (R143). -/
def execFsub (f : V3) (s : State) : Out := fpOp s f true false fun a b _ => fvAdd f.rnd.toNat a b.negate
/-- FMUL (R143). -/
def execFmul (f : V3) (s : State) : Out := fpOp s f true false fun a b _ => fvMul a b
/-- FFMA (R143): one rounding. -/
def execFfma (f : V3) (s : State) : Out := fpOp s f true true fun a b c => fvFma f.rnd.toNat a b c
/-- FMIN (R145). -/
def execFmin (f : V3) (s : State) : Out := fpVector s f true false fun a b _ => fmtMinMax (fmtOf f.ty) false a b
/-- FMAX (R145). -/
def execFmax (f : V3) (s : State) : Out := fpVector s f true false fun a b _ => fmtMinMax (fmtOf f.ty) true a b
/-- FDIV (R143, R144). -/
def execFdiv (f : V3) (s : State) : Out := fpOp s f true false fun a b _ => fvDiv a b
/-- FSQRT (R143, R144). -/
def execFsqrt (f : V3) (s : State) : Out := fpOp s f false false fun a _ _ => fvSqrt a
/-- FRCP (R143, R144). -/
def execFrcp (f : V3) (s : State) : Out := fpOp s f false false fun a _ _ => fvRcp a
/-- FRSQ (R143, R144). -/
def execFrsq (f : V3) (s : State) : Out := fpOp s f false false fun a _ _ => fvRsq a
/-- FEXP2 (R143, R144). -/
def execFexp2 (f : V3) (s : State) : Out := fpOp s f false false fun a _ _ => fvExp2 a
/-- FLOG2 (R143, R144). -/
def execFlog2 (f : V3) (s : State) : Out := fpOp s f false false fun a _ _ => fvLog2 a
/-- FSIN (R143, R144). -/
def execFsin (f : V3) (s : State) : Out := fpOp s f false false fun a _ _ => fvSin a
/-- FCOS (R143, R144). -/
def execFcos (f : V3) (s : State) : Out := fpOp s f false false fun a _ _ => fvCos a
/-- FRND (R146). -/
def execFrnd (f : V3) (s : State) : Out := fpVector s f false false fun a _ _ => fmtRndInt (fmtOf f.ty) f.rnd.toNat a

/-- FSCALE (R149): b is the matching integer element of B. -/
def execFscale (f : V3) (s : State) : Out :=
  let g := s.g
  let m := v3mask f g
  let fmt := fmtOf f.ty
  let ity : BitVec 4 := if f.ty = 8 then 2 else 1
  settle <| vectorOp s m (g.vitems false m f.a ++ g.vitems false m f.b) f.d false fun i =>
    laneOf f.ty fun e =>
      (finishFp f (fvScale (fmt.read (modOf f.md 0 fmt (elemOf f.ty (g.vget f.a i).toNat e)))
        (elemInt ity (elemOf ity (g.vget f.b i).toNat e)))).out

/-- The condition of fcmp and whether it sets NV (R147). -/
def fcmpCond (c : Nat) (a b : FV) : Bool × BitVec 5 :=
  let un := a.isNan || b.isNan
  let nv := if a.isSig || b.isSig || (un && 2 ≤ c && c ≤ 5) then fNV else 0
  (match c with
    | 0 => !un && fvEq a b
    | 1 => un || !fvEq a b
    | 2 => !un && fvLt false a b
    | 3 => !un && (fvLt false a b || fvEq a b)
    | 4 => !un && fvLt false b a
    | 5 => !un && (fvLt false b a || fvEq a b)
    | 6 => un
    | _ => !un, nv)

/-- FCMP (R147). -/
def execFcmp (f : V3) (s : State) : Out :=
  let g := s.g
  let m := v3mask f g
  let val (k : Nat) (n : Byte) (i : Nat) : FV := f32.read (modOf f.md k f32 (g.vget n i).toNat)
  let r (i : Nat) : Bool × BitVec 5 := fcmpCond f.sub.toNat (val 0 f.a i) (val 1 f.b i)
  settle <| compareOp s m (g.vitems false m f.a ++ g.vitems false m f.b) (pnum f.d) (fun i => (r i).2) fun i => (r i).1

/-- The class mask of an element (R148). -/
def classMask (f : Fmt) (bits : Nat) : Nat :=
  match f.read bits with
  | .nan sig => if sig then 1 else 2
  | .inf neg => if neg then 4 else 512
  | .fin neg n _ =>
    if n = 0 then (if neg then 32 else 64)
    else
      let sub := natBits bits f.fbits f.ebits = 0
      if neg then (if sub then 16 else 8) else (if sub then 128 else 256)

/-- FCLASS (R148). -/
def execFclass (f : V3) (s : State) : Out :=
  let g := s.g
  let m := v3mask f g
  let fmt := fmtOf f.ty
  settle <| vectorOp s m (g.vitems false m f.a) f.d false fun i =>
    { val := joinElems (if f.ty = 8 then 32 else 16)
        ((List.range (elemN f.ty)).map fun e => classMask fmt (modOf f.md 0 fmt (elemOf f.ty (g.vget f.a i).toNat e))) }

/-- FSGN (R150): the magnitude of a with a sign chosen by SUB; every other bit is kept. -/
def execFsgn (f : V3) (s : State) : Out :=
  let fmt := fmtOf f.ty
  fpVector s f true false fun a b _ =>
    let sa : Bool := a ≥ fmt.sign
    let sb : Bool := b ≥ fmt.sign
    let neg : Bool := match f.sub.toNat with | 0 => sb | 1 => !sb | _ => sa != sb
    { bits := a % fmt.sign + if neg then fmt.sign else 0 }

end Sys2Proof.Machine
end

