-- ==== Sys2Proof/Machine/Convert.lean ====
section
/-! DEFINITION. Conversions: cvt, vpack, vunpk and vdith (R31 to R34, R151 to R156, R464). -/

namespace Sys2Proof.Machine

/-- Whether a floating-point format is narrower than, or as wide as, another, so that a conversion rounds (R152). -/
def narrows (src dst : BitVec 4) : Bool := tyBits dst ≤ tyBits src

/-- A value as an exact result, an integer being exact. -/
def exactInt (x : Int) : Exact := exactOf x 1 false

/-- Convert the bits of one element between type codes 0x0 to 0xC (R33, R152). th is the dither threshold. -/
def convert (src dst : BitVec 4) (mode th : Nat) (sat : Bool) (bits : Nat) : Rounded :=
  let w := tyBits dst
  if !isFl src then
    let x := elemInt src bits
    if !isFl dst then
      let c := clamp (intLo (isSigned dst) w) (intHi (isSigned dst) w) x
      if sat then { bits := (c.1 % 2 ^ w).toNat, sat := c.2 } else { bits := (x % 2 ^ w).toNat }
    else (fmtOf dst).round mode th false (exactInt x)
  else
    let v := (fmtOf src).read bits
    let nv := sigNV [v]
    if !isFl dst then
      let r := toIntInvalid (isSigned dst) w mode th v.exact
      { r with fl := r.fl ||| nv }
    else
      let r := (fmtOf dst).round mode th (sat && narrows src dst) v.exact
      { r with fl := r.fl ||| nv }

/-- Convert one element to .q4: round, then clamp to ±7 (R34, R153, R464). -/
def convertQ4 (src : BitVec 4) (mode th : Nat) (bits : Nat) : Rounded :=
  if !isFl src then
    let c := clamp (-7) 7 (elemInt src bits)
    { bits := (c.1 % 16).toNat, sat := c.2 }
  else
    toIntSat (-7) 7 4 mode th ((fmtOf src).read bits).exact

/-- The 32-bit lane value of a result: an .i8 or .i16 is sign-extended (R151). -/
def extendResult (dst : BitVec 4) (bits : Nat) : Nat :=
  if dst.toNat < 2 then (elemInt dst bits % 2 ^ 32).toNat else bits

/-- MOD on A for a floating-point source element. -/
def modSrc (f : V3) (src : BitVec 4) (bits : Nat) : Nat := if isFl src then modOf f.md 0 (fmtOf src) bits else bits
/-- Whether SUB[4], .adv, is set. -/
def advBit (f : V3) : Bool := f.sub.getLsbD 4

/-- A conversion retires: the phase advances once under .adv, whatever the mask (R45). -/
def advanceAfter (adv : Bool) : Res → Res
  | .next s => .next (s.advancePhase adv)
  | r => r

/-- CVT (R151, R152). -/
def execCvt (f : V3) (s : State) : Out :=
  let g := s.g
  let m := v3mask f g
  let src := srcTy f
  settle <| advanceAfter (advBit f) <| vectorOp s m (g.vitems (is64 src) m f.a) f.d (is64 f.ty) fun i =>
    let x := if is64 src then (g.vpair f.a i).toNat else (g.vget f.a i).toNat % 2 ^ tyBits src
    let r := convert src f.ty f.rnd.toNat (g.threshold i) (f.sat == 1) (modSrc f src x)
    { r.out with val := extendResult f.ty r.bits }

/-- VPACK (R153): n source registers into one lane. -/
def execVpack (f : V3) (s : State) : Out :=
  let g := s.g
  let m := v3mask f g
  let src := srcTy f
  let n := packN f.ty
  let reads := (List.range n).flatMap fun e => g.vitems false m (f.a + BitVec.ofNat 8 e)
  settle <| advanceAfter (advBit f) <| vectorOp s m reads f.d false fun i =>
    let es := (List.range n).map fun e =>
      let x := modSrc f src (g.vget (f.a + BitVec.ofNat 8 e) i).toNat
      if f.ty = 13 then convertQ4 src f.rnd.toNat (g.threshold i) x
      else convert src f.ty f.rnd.toNat (g.threshold i) (f.sat == 1) x
    { val := joinElems (32 / n) (es.map (·.bits)), exc := es.foldl (fun x e => x ||| e.fl) 0, sat := es.any (·.sat) }

/-- Element e of a packed source lane as bits of a 32-bit result, the exceptions met, and whether a reserved q4 code was read
(R154). -/
def unpack (src dst : BitVec 4) (x e : Nat) : Rounded × Bool :=
  if src = 13 then
    let q := natBits x (4 * e) 4
    let v : Int := if q = 8 then 0 else if q > 8 then (q : Int) - 16 else q
    (if isFl dst then f32.round 0 0 false (exactInt v) else { bits := (v % 2 ^ 32).toNat }, q = 8)
  else
    let b := natBits x (tyBits src * e) (tyBits src)
    if isFl src then
      let v := (fmtOf src).read b
      let r := f32.round 0 0 false v.exact
      ({ r with fl := r.fl ||| sigNV [v] }, false)
    else if isFl dst then (f32.round 0 0 false (exactInt (elemInt src b)), false)
    else ({ bits := (elemInt src b % 2 ^ 32).toNat }, false)

/-- VUNPK (R154): element e goes to V[D+e]. -/
def execVunpk (f : V3) (s : State) : Out :=
  let g := s.g
  let m := v3mask f g
  let src := srcTy f
  let n := packN src
  let el (e i : Nat) : Rounded × Bool := unpack src f.ty (g.vget f.a i).toNat e
  let exc (i : Nat) : BitVec 5 := (List.range n).foldl (fun x e => x ||| (el e i).1.fl) 0
  settle <| if m = 0 then .next s
    else orTrap (readPoison g (g.vitems false m f.a)) s <| orTrap (fpTrap g m exc) s <|
      let s := (List.range n).foldl (fun s e => s.setV false (f.d + BitVec.ofNat 8 e) m fun i => (el e i).1.bits) s
      let s := s.orF (orLanes m exc)
      .next (if anyLane m (fun i => (List.range n).any fun e => (el e i).2) then s.orQ qRSV else s)

/-- VDITH (R155): the value that cvt.T.f32.dth, or vpack's .q4 rule, gives, converted exactly to .f32. -/
def execVdith (f : V3) (s : State) : Out :=
  let g := s.g
  let m := v3mask f g
  settle <| advanceAfter (advBit f) <| vectorOp s m (g.vitems false m f.a) f.d false fun i =>
    let x := modOf f.md 0 f32 (g.vget f.a i).toNat
    let r := if f.ty = 13 then convertQ4 8 4 (g.threshold i) x else convert 8 f.ty 4 (g.threshold i) (f.sat == 1) x
    let back := (unpack f.ty 8 r.bits 0).1.bits
    { r.out with val := back }

end Sys2Proof.Machine
end

