-- ==== Sys2Proof/Machine/Lanes.lean ====
section
/-! DEFINITION. Lane movement, reductions and scans (R157 to R162). -/

namespace Sys2Proof.Machine

/-- Move lanes: active lane i takes lane k i of A (R157). Poison counts in the source lanes selected (R422). -/
def laneMove (s : State) (f : V3) (more : List Item) (k : Nat → Nat) : Res :=
  let g := s.g
  let m := v3mask f g
  let srcs := maskOfList ((activeLanes m).map k)
  vectorOp s m (more ++ g.vitems (is64 f.ty) srcs f.a) f.d (is64 f.ty) fun i => { val := g.lane f.ty f.a (k i) }

/-- VSHFL (R157). -/
def execVshfl (f : V3) (s : State) : Out :=
  settle (laneMove s f (s.g.vitems false (v3mask f s.g) f.b) fun i => (s.g.vget f.b i).toNat % 32)
/-- VSHFL_XOR (R157). -/
def execVshflXor (f : V3) (s : State) : Out :=
  settle (laneMove s f (s.g.vitems false (v3mask f s.g) f.b) fun i => i ^^^ ((s.g.vget f.b i).toNat % 32))
/-- VROT (R157). -/
def execVrot (f : V3) (s : State) : Out :=
  settle (laneMove s f [s.g.sitem (snum f.b)] fun i => (i + (s.g.sget (snum f.b)).toNat) % 32)

/-- A reduction of .f32 bits: the exact sum of R158, rounded once, or R145 across the set. NaN elements are passed over by
.min and .max; a set of NaNs gives the canonical NaN. -/
def reduceFp (op mode : Nat) (xs : List Nat) : Rounded :=
  let vs := xs.map f32.read
  if op = 0 then
    match vs with
    | [] => { bits := 0 }
    | v :: rest =>
      let nan := vs.any FV.isNan || (vs.any (fun v => v.isInf && v.neg) && vs.any (fun v => v.isInf && !v.neg))
      let fl := if vs.any FV.isSig || (vs.any (fun v => v.isInf && v.neg) && vs.any (fun v => v.isInf && !v.neg)) then fNV else 0
      if nan then { bits := f32.nan, fl := fl }
      else match vs.find? FV.isInf with
        | some v => { bits := (f32.round mode 0 false (.inf v.neg)).bits }
        | none =>
          -- every binary32 value is a multiple of 2^-149
          let q (v : FV) : Int := match v with | .fin s n d => sgn s (n * 2 ^ 149 / d) | _ => 0
          let sum := vs.foldl (fun a v => a + q v) 0
          let zneg := if rest.all (fun w => w.isZero && w.neg = v.neg) && v.isZero then v.neg else mode = 2
          f32.round mode 0 false (exactOf sum (2 ^ 149) zneg)
  else
    let fl := sigNV vs
    match xs.filter (fun x => !(f32.read x).isNan) with
    | [] => { bits := if xs = [] then (if op = 1 then f32.infBits else f32.sign + f32.infBits) else f32.nan, fl := fl }
    | x :: rest => { bits := rest.foldl (fun a b => (fmtMinMax f32 (op = 2) a b).bits) x, fl := fl }

/-- A reduction of 32-bit integer elements: the exact result as an integer (R158, R159). -/
def reduceInt (t : BitVec 4) (op : Nat) (xs : List Nat) : Int :=
  let is := xs.map (elemInt t)
  let lo := intLo (isSigned t) 32
  let hi := intHi (isSigned t) 32
  match op with
  | 0 => is.foldl (· + ·) 0
  | 1 => is.foldl min hi
  | 2 => is.foldl max lo
  | 3 => (xs.foldl (fun a b => a &&& b) (2 ^ 32 - 1) : Nat)
  | 4 => (xs.foldl (fun a b => a ||| b) 0 : Nat)
  | _ => (xs.foldl (fun a b => a ^^^ b) 0 : Nat)

/-- The lanes that an FPEXC of vred or vscan names: those with signalling NaNs when any exist, otherwise every active lane
(R158). DESIGN CHOICE: for an exclusive vscan the highest active lane counts too, though no prefix takes its element in (R159, log 99). -/
def redLanes (m : W32) (val : Nat → Nat) : W32 :=
  let sig := maskOf fun i => m.getLsbD i && (f32.read (val i)).isSig
  if sig = 0 then m else sig

/-- FPEXC of a reduction. -/
def redTrap (g : Group) (m : W32) (val : Nat → Nat) (exc : BitVec 5) : Option Trap :=
  if exc &&& g.r.fenable = 0 then none else some { cause := cFPEXC, elanes := redLanes m val, einfo := exc.setWidth 64 }

/-- The elements of A, with MOD applied under .f32. -/
def redVal (f : V3) (g : Group) (i : Nat) : Nat :=
  if f.ty = 8 then modOf f.md 0 f32 (g.vget f.a i).toNat else (g.vget f.a i).toNat

/-- VRED (R158). -/
def execVred (f : V3) (s : State) : Out :=
  let g := s.g
  let m := v3mask f g
  let xs := (activeLanes m).map (redVal f g)
  let fp := reduceFp f.sub.toNat f.rnd.toNat xs
  let exc := if f.ty = 8 then fp.fl else 0
  let x : W64 := if f.ty = 8 then BitVec.ofNat 64 fp.bits else w64 (reduceInt f.ty f.sub.toNat xs)
  settle <| if m = 0 then .next s
    else orTrap (readPoison g (g.vitems false m f.a)) s <| orTrap (redTrap g m (redVal f g) exc) s <|
      .next ((s.setS (snum f.d) x).orF exc)

/-- The active lanes that the prefix of lane i takes in (R159). -/
def scanSet (m : W32) (excl : Bool) (i : Nat) : List Nat := (activeLanes m).filter fun j => if excl then j < i else j ≤ i

/-- The lanes whose elements some prefix takes in: in the exclusive form, all but the highest active lane (R422). -/
def scanReads (m : W32) (excl : Bool) : W32 := if excl then maskOfList (activeLanes m).dropLast else m
/-- VSCAN (R159): SUB[3] selects the exclusive form. -/
def execVscan (f : V3) (s : State) : Out :=
  let g := s.g
  let m := v3mask f g
  let op := f.sub.toNat % 8
  let out (i : Nat) : LaneOut :=
    let xs := (scanSet m (f.sub.getLsbD 3) i).map (redVal f g)
    if f.ty = 8 then (reduceFp op f.rnd.toNat xs).out
    else if op = 0 then intElem f.ty (f.sat == 1) (reduceInt f.ty 0 xs)
    else { val := (reduceInt f.ty op xs % 2 ^ 32).toNat }
  let exc := orLanes m fun i => (out i).exc
  settle <| if m = 0 then .next s
    else orTrap (readPoison g (g.vitems false (scanReads m (f.sub.getLsbD 3)) f.a)) s <| orTrap (redTrap g m (redVal f g) exc) s <|
      .next (((s.setV false f.d m fun i => (out i).val).orF exc).orSat (anyLane m fun i => (out i).sat))

/-- VBALLOT (R160). -/
def execVballot (f : V3) (s : State) : Out :=
  let m := v3mask f s.g
  settle (if m = 0 then .next s
    else orTrap (readPoison s.g (pitem (pnum f.a))) s (.next (s.setS (snum f.d) ((s.g.pget (pnum f.a) &&& m).setWidth 64))))
/-- VBALLOT_CNT (R160). -/
def execVballotCnt (f : V3) (s : State) : Out :=
  let m := v3mask f s.g
  settle (if m = 0 then .next s
    else orTrap (readPoison s.g (pitem (pnum f.a))) s
      (.next (s.setS (snum f.d) (BitVec.ofNat 64 (popCount 32 (s.g.pget (pnum f.a) &&& m).toNat)))))

/-- The pairs (destination lane, source lane) of two lists of lanes. -/
def lanePairs : List Nat → List Nat → List (Nat × Nat)
  | d :: ds, s :: ss => (d, s) :: lanePairs ds ss
  | _, _ => []

/-- Write the paired destination lanes from their source lanes; the others keep their values. -/
def pairedMove (s : State) (f : V3) (more : List Item) (ps : List (Nat × Nat)) : Res :=
  let g := s.g
  let m := v3mask f g
  if m = 0 then .next s
  else orTrap (readPoison g (more ++ g.vitems (is64 f.ty) (maskOfList (ps.map (·.2))) f.a)) s <|
    .next (s.setV (is64 f.ty) f.d (maskOfList (ps.map (·.1))) fun i =>
      g.lane f.ty f.a (((ps.find? (·.1 = i)).map (·.2)).getD 0))

/-- VCOMPRESS (R161). -/
def execVcompress (f : V3) (s : State) : Out :=
  settle (pairedMove s f (pitem (pnum f.c)) (lanePairs (activeLanes (v3mask f s.g)) (activeLanes (s.g.pget (pnum f.c)))))
/-- VEXPAND (R162). -/
def execVexpand (f : V3) (s : State) : Out :=
  settle (pairedMove s f [] (lanePairs (activeLanes (v3mask f s.g)) lanes))

end Sys2Proof.Machine
end

