-- ==== Sys2Proof/Machine/Matrix.lean ====
section
/-! DEFINITION. The sign-select matrix engine (R34 to R42, R308 to R326). -/

namespace Sys2Proof.Machine

/-! ## Weights (R34 to R39) -/

/-- The signed digits of a weight, lowest first, as sign and shift; those that are 0 are left out (R38). -/
def nafDigits : Nat → Nat → Int → List (Int × Nat)
  | 0, _, _ => []
  | fuel + 1, k, n =>
    if n = 0 then []
    else if n % 2 = 1 then (2 - n % 4, k) :: nafDigits fuel (k + 1) ((n - (2 - n % 4)) / 2)
    else nafDigits fuel (k + 1) (n / 2)
/-- The passes of a weight. -/
def passes (w : Int) : List (Int × Nat) := nafDigits 10 0 w
/-- What the passes of a weight add for an activation, before block scales. -/
def passSum (a w : Int) : Int := (passes w).foldl (fun x p => x + a * p.1 * 2 ^ p.2) 0

/-- Weights of a format per byte (R310). -/
def perByte (wf : BitVec 4) : Nat := match wf.toNat with | 0 => 1 | 13 => 2 | 14 => 4 | _ => 5

/-- Element e of a byte as a weight, with the flag that a reserved code sets (R34 to R36). -/
def weightOf (wf : BitVec 4) (b e : Nat) : Int × BitVec 6 :=
  match wf.toNat with
  | 0 => (elemInt 0 b, 0)
  | 13 => let q := natBits b (4 * e) 4
          if q = 8 then (0, qRSV) else (if q > 8 then (q : Int) - 16 else q, 0)
  | 14 => (match natBits b (2 * e) 2 with | 0 => (0, 0) | 1 => (1, 0) | 3 => (-1, 0) | _ => (0, qTRSV))
  | _ => if b > 242 then (0, qT5RSV) else ((b / 3 ^ e % 3 : Nat) - 1, 0)

/-- A block-scale byte: its exponent, and whether it sets SCRNG (R39). -/
def scaleExp (b : Nat) : Int × Bool :=
  if b < 0x60 then (-32, true) else if 0x94 < b then (20, true) else ((b : Int) - 128, false)

/-- The K weights of one column, from the bytes that hold them, and the flags that the fetched bytes set (R37, R311):
e0 is the first element's place in the first byte, and elements at or past limit are padding. -/
def columnOf (wf : BitVec 4) (k e0 limit : Nat) (bytes : List Nat) : List Int × BitVec 6 :=
  let n := perByte wf
  (((List.range k).map fun j => (weightOf wf (bytes.getD ((e0 + j) / n) 0) ((e0 + j) % n)).1),
   ((List.range bytes.length).flatMap fun b => (List.range n).map fun e =>
      if b * n + e < limit then (weightOf wf (bytes.getD b 0) e).2 else 0).foldl (· ||| ·) 0)
/-- Bytes that hold the weights below K. -/
def fetchedBytes (wf : BitVec 4) (k e0 : Nat) : Nat := (e0 + k - 1) / perByte wf + 1

/-! ## Accumulator rows -/

/-- Write A[n][i][c] in the rows of m and the columns that q holds of; the marks of the written elements go. -/
def Group.aput (g : Group) (n : BitVec 2) (m : W32) (q : Nat → Bool) (x : Nat → Nat → W128) : Group :=
  let old := g.r.a[n.toNat]'n.isLt
  let new : ATile := Vector.ofFn fun i =>
    if m.getLsbD i.val then Vector.ofFn fun c => if q c.val then x i.val c.val else (old[i])[c] else old[i]
  let gone : Item → Bool := fun t => match t with | .acc a r c => a = n.toNat && m.getLsbD r && q c | _ => false
  { g with r := { g.r with a := g.r.a.set n.toNat new n.isLt
                           poison := if g.r.poison = [] then [] else g.r.poison.filter fun t => !gone t } }

/-- The items of the rows of m. -/
def Group.accItems (g : Group) (n : BitVec 2) (m : W32) (cols : List Nat) : List Item :=
  if g.r.poison = [] then [] else (activeLanes m).flatMap fun i => cols.map fun c => .acc n.toNat i c

/-- The active mask of a format-X instruction. -/
def fxMask (f : FX) (g : Group) : W32 := g.active f.pred 0
/-- The 16 columns. -/
def cols16 : List Nat := List.range 16

/-- An accumulator writer retires: the shadow tile has taken the target as it stood at the start point (R316), and the region
becomes not replayable (R319). -/
def accWrite (s : State) (n : BitVec 2) (m : W32) (q : Nat → Bool) (x : Nat → Nat → W128) : State :=
  let s := s.unreplayable
  { s with g := { s.g with shadow := s.g.r.a[n.toNat]'n.isLt }.aput n m q x }

/-- POISON of a matrix instruction: sys.elanes is the recorded mask (R317). -/
def matrixPoison (g : Group) (m : W32) (items : List Item) : Option Trap := (readPoison g items).map fun t => t.lanes_ m

/-- The range of an accumulator element, as an integer of 2^-64 (R40). -/
def accLo : Int := -(2 ^ 127)
def accHi : Int := 2 ^ 127 - 1

/-! ## mac and macg (R309 to R317, R322) -/

/-- Byte e of a register value. -/
def byteOf (x : W32) (e : Nat) : Nat := natBits x.toNat (8 * e) 8

/-- Activation k of a row (R309). -/
def activation (g : Group) (va : Byte) (i k : Nat) : Int :=
  elemInt 0 (byteOf (g.vget (va + BitVec.ofNat 8 (k / 4)) i) (k % 4))

/-- The accumulation of R322 over the rows of m: weights and column exponents by column. -/
def accumulate (s : State) (f : FX) (m : W32) (w : List (List Int)) (ecol : List Int) (flags : BitVec 6) : State :=
  let g := s.g
  let k := f.km1.toNat + 1
  let row (i : Nat) : Int × Bool := scaleExp (byteOf (g.vget f.vs i) f.bsel.toNat)
  let sum (i c : Nat) : Int :=
    let acts := (List.range k).map (activation g f.va i)
    let dot := (acts.zip (w.getD c [])).foldl (fun x p => x + passSum p.1 p.2) 0
    (g.aget f.ad i c).toInt + dot * 2 ^ ((row i).1 + ecol.getD c 0 + 64).toNat
  let rows := (List.range 32).map fun i => if m.getLsbD i then cols16.map (sum i) else []
  let at_ (i c : Nat) : Int := (rows.getD i []).getD c 0
  let beyond := rows.any fun r => r.any fun x => x < accLo || accHi < x
  let s := accWrite s f.ad m (fun _ => true) fun i c => BitVec.ofInt 128 (clamp accLo accHi (at_ i c)).1
  s.orQ (flags ||| (if beyond then qACCOV else 0) ||| (if anyLane m fun i => (row i).2 then qSCRNG else 0))

/-- The registers that mac and macg read besides the weights. -/
def macItems (f : FX) (g : Group) (m : W32) : List Item :=
  ((List.range (f.km1.toNat / 4 + 1)).flatMap fun q => g.vitems false m (f.va + BitVec.ofNat 8 q)) ++
  g.vitems false m f.vs ++ g.accItems f.ad m cols16

/-- Where the fragment holds byte b of column c: register and lane, and the byte of the register (R310). -/
def fragByte (wf : BitVec 4) (c b : Nat) : Nat × Nat × Nat :=
  match wf.toNat with
  | 0 => (b % 16 / 4, c + 16 * (b / 16), b % 4)
  | 13 => (b % 8 / 4, c + 16 * (b / 8), b % 4)
  | _ => (0, c + 16 * (b / 4), b % 4)

/-- MAC (R309 to R312, R322). -/
def execMac (f : FX) (s : State) : Out :=
  let g := s.g
  let m := fxMask f g
  let k := f.km1.toNat + 1
  let n := fetchedBytes f.wf k 0
  let place (c b : Nat) : Byte × Nat × Nat := let p := fragByte f.wf c b; (f.vb + BitVec.ofNat 8 p.1, p.2)
  let col (c : Nat) : List Int × BitVec 6 :=
    columnOf f.wf k 0 (n * perByte f.wf) ((List.range n).map fun b => let p := place c b; byteOf (g.vget p.1 p.2.1) p.2.2)
  let cs := cols16.map fun c => scaleExp (byteOf (g.vget (f.vs + 1) c) f.bsel.toNat)
  let reads := macItems f g m ++ (if g.r.poison = [] then [] else
    cols16.flatMap (fun c => (List.range n).map fun b => let p := place c b; g.vitem p.1 p.2.1) ++
    cols16.map fun c => g.vitem (f.vs + 1) c)
  settle <| if m = 0 then .next s
    else orTrap (matrixPoison g m reads) s <|
      .next (accumulate s f m (cols16.map fun c => (col c).1) (cs.map (·.1))
        ((cols16.foldl (fun x c => x ||| (col c).2) 0) ||| if cs.any (·.2) then qSCRNG else 0))

/-- Fields of the position word (R313). -/
def posK0 (p : W64) : Nat := (p.extractLsb' 0 13).toNat
def posN0 (p : W64) : Nat := (p.extractLsb' 32 13).toNat
def posOk (p : W64) : Bool := p.extractLsb' 13 19 == 0 && p.extractLsb' 45 19 == 0 && posK0 p % 32 == 0

/-- The checks of R314 on two tiles. -/
def macgBounds (f : FX) (w sc : Tile) (p : W64) : Option Trap :=
  let k := f.km1.toNat + 1
  firstTrap [
    trapIf (!w.isGlobal || !sc.isGlobal || w.ty != f.wf || sc.ty != 4) (tileState 3),
    trapIf (!posOk p) (tileBnd 5),
    trapIf (posN0 p ≥ w.rows) (tileBnd 1),
    trapIf (posK0 p + k > w.cols) (tileBnd 2),
    trapIf (sc.rows < min (posN0 p + 16) w.rows || sc.cols ≤ posK0 p / 32) (tileBnd 4)]

/-- MACG (R311 to R317, R322). -/
def execMacg (f : FX) (s : State) : Out :=
  let g := s.g
  let m := fxMask f g
  let k := f.km1.toNat + 1
  let p := g.sget (f.sh + 2)
  settle <| if m = 0 then .next s
    else orTrap (matrixPoison g m ([g.sitem f.sh, g.sitem (f.sh + 1), g.sitem (f.sh + 2)] ++ macItems f g m)) s <|
    withTile s (g.sget f.sh) m (fun _ => true) fun w => withTile s (g.sget (f.sh + 1)) m (fun _ => true) fun sc =>
    orTrap ((macgBounds f w sc p).map fun t => t.lanes_ m) s <|
      let e0 := posK0 p % perByte f.wf
      let n := fetchedBytes f.wf k e0
      let rowAt (c : Nat) : Nat := w.base + (posN0 p + c) * w.stride + posK0 p / perByte f.wf
      let scaleAt (c : Nat) : Nat := sc.base + (posN0 p + c) * sc.stride + posK0 p / 32
      let live := cols16.filter fun c => posN0 p + c < w.rows
      let addrs := (live.flatMap (fun c => sectorStarts (rowAt c) n) ++ live.map scaleAt).foldl (fun l a => insertAddr a l) []
      match checkAccess s g.core g.ctx { AccSpec.eread .x 1 with exact := true } true (addrs.map fun a => (0, (a : Int))) with
      | .bad t s => .trap (t.lanes_ m) s
      | .ok s ts =>
        let byte (va : Nat) : Nat := (hitByte s ts va).toNat
        let limit := w.cols - posK0 p + e0
        let col (c : Nat) : List Int × BitVec 6 :=
          if posN0 p + c < w.rows then columnOf f.wf k e0 limit ((List.range n).map fun b => byte (rowAt c + b))
          else (List.replicate k 0, 0)
        let cs := cols16.map fun c => if posN0 p + c < w.rows then scaleExp (byte (scaleAt c)) else (0, false)
        .next (accumulate s f m (cols16.map fun c => (col c).1) (cs.map (·.1))
          ((cols16.foldl (fun x c => x ||| (col c).2) 0) ||| if cs.any (·.2) then qSCRNG else 0))

/-! ## Setting rows (R323, R324) -/

/-- AZERO (R323). -/
def execAzero (f : FX) (s : State) : Out :=
  let m := fxMask f s.g
  settle (.next (if m = 0 then s else accWrite s f.ad m (fun _ => true) fun _ _ => 0))

/-- AMOV (R323). -/
def execAmov (f : FX) (s : State) : Out :=
  let g := s.g
  let m := fxMask f g
  settle <| if m = 0 then .next s
    else orTrap (matrixPoison g m (g.accItems f.as_ m cols16)) s <|
      .next (accWrite s f.ad m (fun _ => true) fun i c => g.aget f.as_ i c)

/-- A lane's value as an accumulator element, its exceptions, and whether it set ACCOV (R324). -/
def toAcc (ty : BitVec 4) (mode bits : Nat) : Int × BitVec 5 × Bool :=
  if isFl ty then
    match f32.read bits with
    | .nan _ => (0, fNV, false)
    | .inf neg => (if neg then accLo else accHi, 0, true)
    | .fin neg n d =>
      let r := roundAt mode 0 neg n d (-64)
      let c := clamp accLo accHi (if neg then -(r.1 : Int) else r.1)
      (c.1, if r.2 then fNX else 0, c.2)
  else (elemInt ty bits * 2 ^ 64, 0, false)

/-- APUT (R323, R324). -/
def execAput (f : FX) (s : State) : Out :=
  let g := s.g
  let m := fxMask f g
  let col := (g.sget f.sh).toNat
  let conv (i : Nat) : Int × BitVec 5 × Bool := toAcc f.wf f.rnd.toNat (g.vget f.va i).toNat
  settle <| if m = 0 then .next s
    else orTrap (matrixPoison g m [g.sitem f.sh]) s <|
    orTrap (trapIf (col ≥ 16) (tileBnd 2 m)) s <|
    orTrap (matrixPoison g m (g.vitems false m f.va)) s <|
    orTrap (fpTrap g m fun i => (conv i).2.1) s <|
      let s := accWrite s f.ad m (fun c => c = col) fun i _ => BitVec.ofInt 128 (conv i).1
      let s := s.orF (orLanes m fun i => (conv i).2.1)
      .next (if anyLane m fun i => (conv i).2.2 then s.orQ qACCOV else s)

/-! ## Read-out (R325, R326) -/

/-- The exact product of an element and an outer scale (R42): an infinity times 0, or a NaN scale, is a NaN with NV. -/
def outerProduct (a : Int) (sc : FV) : Ex :=
  match sc with
  | .nan _ => { x := .nan, fl := fNV }
  | .inf neg => if a = 0 then { x := .nan, fl := fNV } else { x := .inf (neg != decide (a < 0)) }
  | .fin neg n d => { x := exactOf (a * sgn neg n) (2 ^ 64 * d) false }

/-- Whether a finite value lies outside an integer range, before any rounding (R326). -/
def outside (lo hi : Int) (x : Exact) : Bool :=
  match x with
  | .val neg n d => if neg then lo * d > -(n : Int) else (n : Int) > hi * d
  | _ => false
/-- One result of aread (R326, R464): an integer target clamps, with SAT, whatever lies outside its range. -/
def areadElem (ty : BitVec 4) (mode th : Nat) (sat : Bool) (e : Ex) : Rounded :=
  if isFl ty then
    let r := (fmtOf ty).round mode th sat e.x
    { r with fl := r.fl ||| e.fl }
  else
    let w := tyBits ty
    let lo := intLo (isSigned ty) w
    let hi := intHi (isSigned ty) w
    match e.x with
    | .inf neg => { bits := ((if neg then lo else hi) % 2 ^ w).toNat, fl := fNV }
    | x => let r := toIntSat lo hi w mode th x
           { r with fl := r.fl ||| e.fl, sat := r.sat || outside lo hi x }

/-- AREAD (R325, R326). -/
def execAread (f : FX) (s : State) : Out :=
  let g := s.g
  let m := fxMask f g
  let c0 := (g.sget f.sh).toNat
  let w := tyBits f.wf
  let n := 32 / w
  let cols := (List.range 8).map (· + c0)
  let res (i j : Nat) : Rounded :=
    let c := c0 + j
    areadElem f.wf f.rnd.toNat (g.threshold (i + c)) (f.sat == 1)
      (outerProduct (g.aget f.ad i c).toInt (if f.osc = 1 then f32.read (g.vget f.vs c).toNat else .fin false 1 1))
  let exc (i : Nat) : BitVec 5 := (List.range 8).foldl (fun x j => x ||| (res i j).fl) 0
  let reads := g.accItems f.ad m cols ++
    if f.osc = 1 then g.vitems false (maskOfList (cols.filter (· < 32))) f.vs else []
  settle <| advanceAfter (f.adv == 1) <| if m = 0 then .next s
    else orTrap (matrixPoison g m [g.sitem f.sh]) s <|
    orTrap (trapIf (c0 > 8) (tileBnd 2 m)) s <|
    orTrap (matrixPoison g m reads) s <|
    orTrap (fpTrap g m exc) s <|
      let s := (List.range (8 / n)).foldl (fun s r =>
        s.setV false (f.vb + BitVec.ofNat 8 r) m fun i => joinElems w ((List.range n).map fun e => (res i (r * n + e)).bits)) s
      .next ((s.orF (orLanes m exc)).orSat (anyLane m fun i => (List.range 8).any fun j => (res i j).sat))

end Sys2Proof.Machine
end

