-- ==== Sys2Proof/Machine/MemEvents.lean ====
section
/-! DEFINITION. Events of the memory system: draining of stores, eviction, and soft errors (R178, R181, R223, R422). -/

namespace Sys2Proof.Machine

/-- STORE_DRAIN (R178): the oldest retired store of a slot's group is performed. -/
def execStoreDrain (core slot : Nat) (s : State) : Out := done (s.onSlot core slot State.drainOne)

/-- A home slice evicts a line that is not pinned (R181, R223, R296): regions with tokens on it split first, and its dirty sectors are
written back. While a split is still due it keeps the line. -/
def State.evictLine (s : State) (line : Nat) : State :=
  if s.ms.pins.any (·.1 = line) then s
  else
    let secs := lineSectors line
    let s := ({ s with ms := s.ms.recall (128 * line) 128 } : State).splitSectors secs
    if s.splitWaits secs then s
    else
      let ms := (s.ms.writeBack secs).discard secs
      { s with ms := { ms with first := ms.first.filter (· ≠ line) } }
/-- LINE_EVICTION (R181). -/
def execLineEviction (line : Nat) (s : State) : Out := done (s.evictLine line)

/-- Mark a register or accumulator item of the group in a slot. -/
def State.poisonItem (s : State) (core slot : Nat) (t : Item) : State :=
  s.onSlot core slot fun s => s.mapR fun r => if r.poison.contains t then r else { r with poison := r.poison ++ [t] }

/-- UNCORRECTABLE_ERROR (R422): where it lies decides: a sector or an item is poisoned, or a cached copy is dropped. A mark
in memory shows at once unless a home slice holds newer data. -/
def execUncorrectableError (at_ : ErrPlace) (s : State) : Out :=
  done (match at_ with
    | .memSector k =>
      let x := k / 32
      if !isLocalKey k then s
      else { s with ms := { s.ms with
        poisonBack := insertNat x s.ms.poisonBack
        poison := if s.ms.dirty.contains x || s.ms.stale.contains x then s.ms.poison else insertNat x s.ms.poison } }
    | .sliceSector k => if !isLocalKey k then s else { s with ms := { s.ms with poison := insertNat (k / 32) s.ms.poison } }
    | .scalar core slot n => if n = 0 || 64 ≤ n then s else s.poisonItem core slot (.s n)
    | .pred core slot n => if n = 0 || 16 ≤ n then s else s.poisonItem core slot (.p n)
    | .trapScalar core slot n => if 8 ≤ n then s else s.poisonItem core slot (.z n)
    | .trapVector core slot n lane => if 4 ≤ n || 32 ≤ lane then s else s.poisonItem core slot (.zv n lane)
    | .vector core slot n lane => if 256 ≤ n || 32 ≤ lane then s else s.poisonItem core slot (.v n lane)
    | .acc core slot n row col => if 4 ≤ n || 32 ≤ row || 16 ≤ col then s else s.poisonItem core slot (.acc n row col)
    | .scratch core idx word => s.mapTile core idx fun t =>
        if t.isGlobal || t.nWords ≤ word || t.poison.contains word then t else { t with poison := t.poison ++ [word] }
    | .firstLevel core line => { s with ms := { s.ms with l1 := s.ms.l1.filter (· ≠ (core, line)) } }
    | .brickCache core line => { s with ms := { s.ms with brick := s.ms.brick.filter (· ≠ (core, line)) } })

/-- CORRECTABLE_SOFT_ERROR (R422): nothing but the telemetry count changes. -/
def execCorrectableSoftError (_at : ErrPlace) (s : State) : Out := done { s with mg := { s.mg with corrected := s.mg.corrected + 1 } }

end Sys2Proof.Machine
end

