-- ==== Sys2Proof/Machine/Sha.lean ====
section
/-! DEFINITION. SHA-256, which the boot check and the quotes use (R443, R452). PRESUMED: the manual names the function, and FIPS 180-4
defines it (log 33). The constants are computed from what defines them, the roots of the primes, and a block runs as two
sequences of words, each of which needs only its four latest. -/

namespace Sys2Proof.Machine

/-- The greatest r below 2^n + r0 with r^k at most x, found bit by bit from r0. -/
def rootDown (k x : Nat) : Nat → Nat → Nat
  | 0, r => r
  | n + 1, r => rootDown k x n (if (r + 2 ^ n) ^ k ≤ x then r + 2 ^ n else r)
/-- The first 32 bits of the fractional part of the k-th root of p. -/
def rootBits (k p : Nat) : W32 := BitVec.ofNat 32 (rootDown k (p * 2 ^ (32 * k)) 37 0)
/-- The primes below 312, of which there are 64. -/
def shaPrimes : List Nat := (List.range 312).filter fun p => 2 ≤ p && (List.range 18).all fun d => d < 2 || p ≤ d || p % d != 0
/-- A word turned right by each of some distances, the results combined by exclusive or. -/
def shaSpin (x : W32) (ds : List Nat) : W32 := ds.foldl (fun y d => y ^^^ x.rotateRight d) 0

/-- The two sequences that a block computes, each newest first, and the schedule words still due, at least sixteen of them
while any is computed. -/
structure ShaRun where
  up : List W32
  low : List W32
  due : List W32

/-- Word i of a list. -/
def shaWord (l : List W32) (i : Nat) : W32 := l.getD i 0
/-- One step under a round constant: a word enters each sequence and the schedule. -/
def ShaRun.turn (r : ShaRun) (k : W32) : ShaRun :=
  let e := shaWord r.low 0
  let pick := shaWord r.low 2 ^^^ (e &&& (shaWord r.low 1 ^^^ shaWord r.low 2))
  let major := (shaWord r.up 0 &&& (shaWord r.up 1 ||| shaWord r.up 2)) ||| (shaWord r.up 1 &&& shaWord r.up 2)
  let t := shaWord r.due 0 + k + pick + shaSpin e [6, 11, 25] + shaWord r.low 3
  let next := shaWord r.due 0 + shaWord r.due 9 + (shaSpin (shaWord r.due 1) [7, 18] ^^^ shaWord r.due 1 >>> 3)
    + (shaSpin (shaWord r.due 14) [17, 19] ^^^ shaWord r.due 14 >>> 10)
  { up := (t + major + shaSpin (shaWord r.up 0) [2, 13, 22]) :: r.up.take 3
    low := (t + shaWord r.up 3) :: r.low.take 3
    due := r.due.tail ++ [next] }

/-- A big-endian word. -/
def beWord (b : List Byte) : W32 := BitVec.ofNat 32 (leNat b.reverse)
/-- The hash, as the two sequences, after one more block. -/
def shaAbsorb (h : List W32 × List W32) (b : List Byte) : List W32 × List W32 :=
  let start : ShaRun := { up := h.1, low := h.2, due := (List.range 16).map fun i => beWord ((b.drop (4 * i)).take 4) }
  let r := (shaPrimes.map (rootBits 3)).foldl ShaRun.turn start
  (List.zipWith (· + ·) h.1 r.up, List.zipWith (· + ·) h.2 r.low)
/-- SHA-256 of bytes: the message, a set bit, zeros and the length in bits, in blocks of 64 bytes. -/
def sha256 (m : List Byte) : List Byte :=
  let p := m ++ 0x80 :: (List.replicate ((119 - m.length % 64) % 64) 0 ++ (leBytes 8 (8 * m.length)).reverse)
  let h0 := (shaPrimes.take 8).map (rootBits 2)
  let h := (List.range (p.length / 64)).foldl (fun h i => shaAbsorb h ((p.drop (64 * i)).take 64)) (h0.take 4, h0.drop 4)
  (h.1 ++ h.2).flatMap fun w => (leBytes 4 w.toNat).reverse

end Sys2Proof.Machine
end

