-- ==== Sys2Proof/Machine/Outside.lean ====
section
/-! DEFINITION. Inbound accesses, alarms, the management page, boot, quotes, heads, encoders, power states and checkpoints
(R434, R442 to R453). -/

namespace Sys2Proof.Machine

/-! ## Checkpoint manifests (R453) -/

/-- Replace the cells of one range by those of another, moved: both memories keep their form. -/
def moveCells (src dst : Memory) (a n b : Nat) : Memory :=
  dst.filter (fun c => c.1 < b) ++ ((src.filter fun c => a ≤ c.1 && c.1 < a + n).map fun c => (c.1 - a + b, c.2)) ++ dst.filter (fun c => b + n ≤ c.1)
/-- Copy a range of memory as it stands at scope sy: the destination's backing memory holds it too, and its marks go. -/
def State.copyRange (s : State) (a n b : Nat) : State :=
  let out (l : List Nat) : List Nat := l.filter fun x => !(b ≤ 32 * x && 32 * x < b + n)
  let away (l : Nat × Nat) : Bool := !(b ≤ 128 * l.2 && 128 * l.2 < b + n)
  let m := moveCells s.ms.mem s.ms.mem a n b
  { s with ms := { s.ms with
    mem := m, backing := moveCells m s.ms.backing b n b, dirty := out s.ms.dirty, stale := out s.ms.stale, poison := out s.ms.poison
    poisonBack := out s.ms.poisonBack, l1 := s.ms.l1.filter away, brick := s.ms.brick.filter away
    owned := s.ms.owned.filter fun o => !(b ≤ 128 * o.1 && 128 * o.1 < b + n) && !(a ≤ 128 * o.1 && 128 * o.1 < a + n) } }
/-- Write bytes that are performed at scope sy. -/
def State.writeSy (s : State) (k : Nat) (b : List Byte) : State :=
  let s := s.memWrite k b
  { s with ms := s.ms.writeBack (sectorsOf k b.length) }
/-- Write the manifest: STATUS, CAUSE, BYTES and the count of poisoned sectors, then their addresses. DESIGN CHOICE: each of the
four is a word of 8 bytes, in that order (log 34). -/
def State.writeManifest (s : State) (p : Part) (target status cause bytes : Nat) (bad : List Nat) : State :=
  let head := leBytes 8 status ++ leBytes 8 cause ++ leBytes 8 bytes ++ leBytes 8 bad.length ++ List.replicate 32 0
  s.writeSy (spaceSize + target + Config.partMemSize p.psize) (head ++ (bad.take 4088).flatMap fun x => leBytes 8 (32 * x))
/-- Whether every context of a partition is off its cores, so that its checkpoint copies. -/
def State.offCores (s : State) (p : Part) : Bool := !(s.ctxsOf p).any fun c => c.live || c.st = .preempting || s.hasResident c.n
/-- The poisoned sectors among the first n bytes of a partition's memory. -/
def State.poisonedIn (s : State) (p : Part) (n : Nat) : List Nat := s.ms.poison.filter fun x => p.holds (32 * x) && 32 * x < p.range.1 + n
/-- The copying of the first n bytes of a partition's memory to a target, after its dirty lines: a poisoned sector as zeros. -/
def State.copyPart (s : State) (p : Part) (target n : Nat) : State :=
  let s := (s.writeBackPart p).copyRange p.range.1 n (spaceSize + target)
  (s.poisonedIn p n).foldl (fun s x => s.writeSy (spaceSize + target + (32 * x - p.range.1)) (List.replicate 32 0)) s
/-- A checkpoint ends: its manifest is written. -/
def State.endCheckpoint (s : State) (p : Part) (target status cause bytes : Nat) : State :=
  ((s.copyPart p target bytes).mapPart p.fsect fun p => { p with ckpt := none }).writeManifest p target status cause bytes (s.poisonedIn p bytes)
/-- A checkpoint in progress fails, with a prefix of the memory copied; how much, is free (log 4), and nothing before its contexts are
off their cores. -/
def State.failCheckpoint (s : State) (p : Part) (cause : Nat) : State :=
  match p.ckpt with
  | none => s
  | some t =>
    if s.offCores p then
      { s with fresh := s.fresh + 1 }.endCheckpoint p t 2 cause (min (Config.partMemSize p.psize) (32 * Config.copied s.fresh))
    else (s.mapPart p.fsect fun p => { p with ckpt := none }).writeManifest p t 2 cause 0 []

/-! ## Alarms (R22, R23, R450, R451) -/

/-- Change the heads of a partition's sectors. -/
def State.mapHeads (s : State) (p : Part) (f : Head → Head) : State :=
  { s with mg := { s.mg with heads := Vector.ofFn fun i => if p.hasSector i.val then f s.mg.heads[i] else s.mg.heads[i] } }
/-- Quarantine a partition (R451). -/
def State.quarantine (s : State) (p : Part) (addr : Nat) : State :=
  let s := (s.ctxsOf p).foldl (fun s c => s.quarantineCtx c.n cPROT addr) s
  let s := (s.mapPart p.fsect fun p => { p with quarantined := true }).mapHeads p fun h => { h with black := true }
  { s with mg := { s.mg with jobs := s.mg.jobs.map fun (j : EncJob) => if p.hasSector j.sector then { j with cancelled := true } else j } }
/-- AN ALARM for the partition whose first sector is fsect (R451): its bit, the end of its checkpoint (R453), then what ALPOL says. -/
def State.raiseAlarm (s : State) (fsect addr : Nat) : State :=
  match s.partOf fsect with
  | none => s
  | some p =>
    let s : State := { s with mg := { s.mg with
      alarm := s.mg.alarm ||| BitVec.twoPow 8 fsect, events := s.mg.events.filter (fun e => e.1 != fsect) ++ [(fsect, addr)] } }
    let s := s.failCheckpoint p 6
    let s := if s.mg.alpol = 0 then s else if p.quarantined then s else s.quarantine p addr
    if 2 ≤ s.mg.alpol.toNat then { s with mg := { s.mg with keyStore := [] } } else s
/-- ALARM (R448, R451). -/
def execAlarm (fsect addr : Nat) (s : State) : Out := done (s.whenAwake (.alarm fsect addr) fun s => s.raiseAlarm fsect addr)
/-- Raise the alarms that refused accesses of this device to its own pod number left due (R433, R450). -/
def State.raiseDue (s : State) : State :=
  s.lk.due.foldl (fun s d => s.raiseAlarm d.1 d.2) { s with lk := { s.lk with due := [] } }
/-- TAMPER_SENSOR (R450): an alarm for every bound partition. -/
def execTamperSensor (s : State) : Out :=
  done (s.cx.parts.foldl (fun s' p => if s.mg.pstate = 0 then s'.raiseAlarm p.fsect 0 else s'.hold (.access (.alarm p.fsect 0))) s)

/-! ## Inbound accesses (R434, R437, R450) -/

/-- Bytes an inbound access touches, and whether it reads and writes. -/
def opSize : InboundOp → Nat
  | .read n => n | .write b => b.length | .atomic _ w _ _ => w
def opReads : InboundOp → Bool
  | .write _ => false | _ => true
def opWrites : InboundOp → Bool
  | .read _ => false | _ => true
/-- Whether an operation is one that an instruction of a peer can send: an atomic of R87 and R182 of 4 or 8 bytes, those on FP32 of 4. -/
def inboundOk (addr : Nat) : InboundOp → Bool
  | .atomic aop w _ _ => aop ≤ 12 && (w = 4 || (w = 8 && aop ≤ 9)) && addr % w = 0
  | _ => true
/-- Whether the link an access arrives on carries traffic. -/
def State.carries (s : State) (t : AccTarget) : Bool :=
  match t with | .port n => n < 36 && s.lk.ports[n]!.usable | _ => s.lk.host.usable
/-- An inbound access to memory arrives (R434): one to memory of no bound partition changes nothing; a refused one raises an alarm; one
refused because a checkpoint is in progress raises none (log 35). -/
def State.inboundMem (s : State) (a : InboundArg) : State :=
  match s.partAt a.addr with
  | none => s
  | some p =>
    let n := opSize a.op
    let allowed := (!opReads a.op || s.mayAccess a.target a.master p.fsect false) && (!opWrites a.op || s.mayAccess a.target a.master p.fsect true)
    let fabric := match a.target with | .port _ => true | _ => false
    if !s.carries a.target || !p.holds (a.addr + n - 1) || !inboundOk a.addr a.op then s
    else if !allowed || p.quarantined then s.raiseAlarm p.fsect a.addr
    else if p.ckpt.isSome && fabric && opWrites a.op then s
    else match a.op with
      | .read _ => { s with ms := s.ms.recall a.addr n }
      | .write b => s.memWrite a.addr b
      | .atomic aop w x cmp =>
        if s.isPoisoned a.addr w then s
        else { s with ms := s.ms.atomic a.addr w aop (x.toNat % 2 ^ (8 * w)) (cmp.toNat % 2 ^ (8 * w)) }

/-! ## The management page (R442, R450) -/

/-- A write of a management register lands whole; one that the page makes read-only, or does not have, is ignored. -/
def State.mgmtWrite (s : State) (offset : Nat) (value : W64) : State :=
  match offset with
  | 0x000 => { s with mg := { s.mg with ltol := value.setWidth 32 } }
  | 0x010 => if 70 ≤ (value.setWidth 8).toNat && (value.setWidth 8).toNat ≤ 105 then { s with mg := { s.mg with thot := value.setWidth 8 } } else s
  | 0x018 => { s with mg := { s.mg with alpol := value.setWidth 2 } }
  | 0x020 => { s with mg := { s.mg with alarm := s.mg.alarm &&& ~~~ (value.setWidth 8) } }
  | _ => s
/-- The bound partitions for which the management window's table lacks a master's right (R450). DESIGN CHOICE: the page serves the whole
device, so an access to it needs the right for every bound partition; the board's sideband is no target of a table (log 100). -/
def State.windowRefuses (s : State) (m : Option Master) (write : Bool) : List Nat :=
  match m with
  | none => []
  | some m => (s.cx.parts.filter fun p => !s.mayAccess .mgmt m p.fsect write).map (·.fsect)
/-- An access to the management window at an offset (R442, R450): k, or an alarm for every partition whose right lacks, and nothing else. -/
def State.throughWindow (s : State) (m : Option Master) (write : Bool) (offset : Nat) (k : State → State) : State :=
  match s.windowRefuses m write with
  | [] => k s
  | l => l.foldl (fun s f => s.raiseAlarm f offset) s
/-- The same value in 64 bits. -/
def widen {n : Nat} (x : ByMaster (BitVec n)) : ByMaster W64 := { master := x.master, value := x.value.setWidth 64 }
/-- A write of a management register is made (R442, R450). -/
def State.mgmtArrives (s : State) (offset : Nat) (value : ByMaster W64) : State :=
  s.throughWindow value.master true offset fun s => s.mgmtWrite offset value.value
/-- A write of a management register arrives (R448). -/
def State.mgmtWhenAwake (s : State) (offset : Nat) (value : ByMaster W64) : State :=
  s.whenAwake (.mgmt offset value) fun s => s.mgmtArrives offset value
/-- LTOL_WRITE (R442, R448, R450). -/
def execLtolWrite (value : ByMaster W32) (s : State) : Out :=
  done (s.mgmtWhenAwake 0x000 (widen value))
/-- THOT_WRITE (R442): a value outside 70 to 105 is ignored. -/
def execThotWrite (value : ByMaster Byte) (s : State) : Out :=
  done (s.mgmtWhenAwake 0x010 (widen value))
/-- ALPOL_WRITE (R442). -/
def execAlpolWrite (value : ByMaster (BitVec 2)) (s : State) : Out :=
  done (s.mgmtWhenAwake 0x018 (widen value))
/-- ALARM_WRITE (R442): ones clear. -/
def execAlarmWrite (ones : ByMaster Byte) (s : State) : Out :=
  done (s.mgmtWhenAwake 0x020 (widen ones))
/-- MGMT_REGISTER_WRITE (R442). -/
def execMgmtRegisterWrite (offset : Nat) (value : ByMaster W64) (s : State) : Out :=
  done (s.mgmtWhenAwake offset value)

/-- An inbound access arrives (R434): to memory, or at the management window to the register page, whose offset its address gives. No
atomic is made there. -/
def State.inbound (s : State) (a : InboundArg) : State :=
  match a.target with
  | .mgmt =>
    if !s.carries .mgmt then s
    else s.throughWindow (some a.master) (opWrites a.op) a.addr fun s =>
      match a.op with | .write b => s.mgmtWrite a.addr (BitVec.ofNat 64 (leNat b)) | _ => s
  | _ => s.inboundMem a
/-- INBOUND_ACCESS (R434, R448, R450). -/
def execInboundAccess (a : InboundArg) (s : State) : Out := done (s.whenAwake (.inbound a) fun s => s.inbound a)

/-! ## Boot (R442, R443) -/

/-- COLD_RESET (R442): the management page takes its reset values; DEDUCED: so does the whole device (log 36). The firmware image
stays, and so does what is the model's own. -/
def execColdReset (s : State) : Out :=
  done { State.reset with
    turns := s.turns, choices := s.choices, pauses := s.pauses, moves := s.moves, fresh := s.fresh, nextGid := s.nextGid
    mg := { State.reset.mg with image := s.mg.image } }

/-- Bytes of the signature. -/
def sigBytes : Nat := 7856
/-- The header and body of an image; DESIGN CHOICE: LEN counts the whole image, its signature too (log 37). -/
def imageSigned (im : List Byte) : List Byte := im.take (im.length - sigBytes)
/-- Whether an image is accepted with a public key (R443). -/
def imageOk (im key : List Byte) : Bool :=
  let f (off n : Nat) : Nat := leNat ((im.drop off).take n)
  64 + sigBytes ≤ im.length && f 0 4 = 0x4E394657 && f 8 8 = im.length && ((im.drop 16).take 48).all (· == 0) && Config.minVersion.toNat ≤ f 4 4 &&
  key.length = 32 && sha256 key = Config.fusedKeyDigest &&
  Config.signatureVerifies key (sha256 (imageSigned im)) (im.drop (im.length - sigBytes))
/-- IMAGE_CHECK (R443, R450, R451): the command cores start when the image is accepted, and the attestation pair is derived; otherwise the
device waits for a new image. -/
def execImageCheck (image : ByMaster (List Byte)) (key : List Byte) (s : State) : Out :=
  done (s.throughWindow image.master true 0 fun s =>
    if s.mg.boot = 1 then s
    else if imageOk image.value key then
      { s with mg := { s.mg with boot := 1, image := image.value, keyStore := Config.attestPrivate (sha256 (imageSigned image.value)) } }
    else { s with mg := { s.mg with boot := 2 } })

/-! ## Quotes (R452) -/

/-- A policy entry in its 32 bytes (R286). -/
def policyBytes (p : Policy) : List Byte :=
  leBytes 32 ((if p.valid then 1 else 0) + 2 * p.pclass.toNat + 2 ^ 8 * p.sect.toNat + 2 ^ 32 * p.sbud.toNat + 2 ^ 64 * p.age.toNat + 2 ^ 96 * p.sdl.toNat)
/-- A bind record in its 16 bytes; the manual gives no layout (log 34). -/
def BindRec.bytes (b : BindRec) : List Byte :=
  leBytes 1 b.fsect ++ leBytes 1 b.psize ++ leBytes 1 (if b.erase then 1 else 0) ++ List.replicate 5 0 ++ leBytes 8 b.seqNo
/-- The digest of a partition position: 0 when it is unbound; the policy entries stand as in the table, by context number (R286). -/
def State.positionDigest (s : State) (pos : Nat) : List Byte :=
  match s.partOf pos with
  | none => List.replicate 32 0
  | some p => sha256 ((s.ls.binds.getD pos { }).bytes ++ ((s.ctxsOf p).foldr (fun c l => insertNat c.n l) []).flatMap fun n => policyBytes (s.policyOf n))
/-- The 32 bytes of the public half of the attestation pair that belongs to an image (R451, R452; log 97). -/
def attestKey (digest : List Byte) : List Byte := (Config.attestPublic digest ++ List.replicate 32 0).take 32
/-- Items 1 to 5 of a quote. -/
def State.quoteBody (s : State) (nonce : List Byte) : List Byte :=
  let digest := sha256 (imageSigned s.mg.image)
  let head := leBytes 4 0x4E395154 ++ (s.mg.image.drop 4).take 4 ++ leBytes 4 s.mg.alarm.toNat ++ leBytes 4 s.lk.pod
  head ++ List.replicate (64 - head.length) 0 ++ nonce ++ digest ++ (List.range 8).flatMap s.positionDigest ++ attestKey digest
/-- The signature of a quote: an SLH-DSA-SHA2-128s signature has 7,856 bytes (R443; log 97). -/
def signature (keys digest : List Byte) : List Byte := (Config.sign keys digest ++ List.replicate sigBytes 0).take sigBytes
/-- QUOTE (R450, R451, R452): the nonce is written to the window and the quote read from it; refused while the key store is erased. -/
def execQuote (nonce : ByMaster (List Byte)) (s : State) : Out :=
  done (s.throughWindow nonce.master true 0 fun s => s.throughWindow nonce.master false 0 fun s =>
    if s.mg.boot != 1 || s.mg.keyStore = [] || nonce.value.length != 32 then { s with mg := { s.mg with quote := [] } }
    else
      let b := s.quoteBody nonce.value
      { s with mg := { s.mg with quote := b ++ signature s.mg.keyStore (sha256 b) } })

/-! ## Whole-memory checkpoint (R453) -/

/-- The second part of a partition's checkpoint: write back, copy, manifest. -/
def State.finishCheckpoint (s : State) (p : Part) (target : Nat) : State :=
  if !s.lk.host.usable then s.failCheckpoint p 0x13
  else s.endCheckpoint p target 1 0 (Config.partMemSize p.psize)
/-- One partition of a checkpoint request. -/
def State.checkpointOne (s : State) (fsect target : Nat) : State :=
  match s.partOf fsect with
  | none => s
  | some p =>
    match p.ckpt with
    | none => (s.ctxsOf p).foldl (fun s c => s.preEmpt c.n) (s.mapPart fsect fun p => { p with ckpt := some target })
    | some t => if s.offCores p then s.finishCheckpoint p t else s
/-- CHECKPOINT (R453): the request pre-empts every running context; once they are off their cores, it copies (log 38). -/
def execCheckpoint (parts : List (Nat × Nat)) (s : State) : Out := done (parts.foldl (fun s p => s.checkpointOne p.1 p.2) s)
/-- CHECKPOINT_RESTORE (R453): the reverse copy, while every context of the partition is Saved or Free. -/
def execCheckpointRestore (fsect target : Nat) (s : State) : Out :=
  done (match s.partOf fsect with
    | none => s
    | some p =>
      if (s.ctxsOf p).any (fun c => c.st != .saved) || !s.lk.host.usable then s
      else
        let size := Config.partMemSize p.psize
        let src := spaceSize + target
        let n := min 4088 (s.memNat (src + size + 24) 8)
        let bad := (List.range n).map fun i => s.memNat (src + size + 64 + 8 * i) 8
        let s := s.copyRange src size p.range.1
        bad.foldl (fun s a => if p.holds a then s.writeSy (a / 32 * 32) (List.replicate 32 0) else s) s)

/-! ## Display heads (R444 to R446) -/

/-- Bytes that heads and encoders read: the backing memory's. -/
def State.rawBytes (s : State) (k n : Nat) : List Byte := memRead s.ms.backing k n
/-- The descriptor in 64 bytes, read as a number. -/
def headOf (d : Nat) : HeadDesc :=
  { base := natBits d 0 52, stride := natBits d 64 32, w := natBits d 96 13, h := natBits d 112 13, fmt := natBits d 128 2, out := natBits d 130 3
    hz := natBits d 144 8, flipctr := natBits d 192 52 }
/-- Whether a latched descriptor makes its head output a frame; DEDUCED: a value outside a field's range makes it black, as a
reserved one does (log 39). -/
def headOk (s : State) (p : Part) (head d : Nat) : Bool :=
  let x := headOf d
  let z (lo n : Nat) : Bool := natBits d lo n = 0
  let row := x.w * (if x.fmt = 2 then 8 else 4)
  let taken (k : Nat) : Bool := k != head && match s.mg.heads[k]!.latched with | some y => y.out = x.out && !s.mg.heads[k]!.black | none => false
  z 52 12 && z 109 3 && z 125 3 && z 133 11 && z 152 40 && z 244 268 &&
  x.fmt < 3 && x.out < 6 && 1 ≤ x.w && x.w ≤ 7680 && 1 ≤ x.h && x.h ≤ 4320 && 24 ≤ x.hz && x.hz ≤ 240 && x.base % 256 = 0 && x.stride % 256 = 0 &&
  x.flipctr % 8 = 0 && x.w * x.h * x.hz ≤ 2000000000 && p.holds x.base && p.holds (x.base + x.stride * (x.h - 1) + row - 1) &&
  (x.out < 2 || (p.outs.contains (x.out - 2) && !(List.range 8).any taken))
/-- VERTICAL_BLANK (R445, R446, R451): the head latches its descriptor and counts the flip; or it outputs black, as it does when its
descriptor lies outside the partition's memory (log 39). -/
def execVerticalBlank (head : Nat) (s : State) : Out :=
  done (match (s.cx.parts.find? fun p => p.hasSector head), (s.mg.heads[head]?.bind (·.addr)) with
    | some p, some a =>
      let d := if p.holds a && p.holds (a + 63) then leNat (s.rawBytes a 64) else 0
      let ok := head < 8 && !p.quarantined && headOk s p head d
      let h : Head := { addr := some a, latched := some (headOf d), black := !ok }
      let s := { s with mg := { s.mg with heads := s.mg.heads.setIfInBounds head h } }
      let c := (headOf d).flipctr
      if ok && c != 0 && p.holds c then s.memPut c 8 (s.memNat c 8 + 1) else s
    | _, _ => s)
/-- HEAD_DESCRIPTOR_SET (R16, R445): system software names a head's descriptor through the command core, when its firmware runs. -/
def execHeadDescriptorSet (head addr : Nat) (s : State) : Out :=
  done (if s.mg.boot != 1 then s else { s with mg := { s.mg with heads := s.mg.heads.setIfInBounds head { s.mg.heads[head]! with addr := some addr } } })

/-! ## Video encoders (R447) -/

/-- The job in 64 bytes, read as a number. -/
def jobOf (sector addr d : Nat) : EncJob :=
  { sector := sector, recAt := addr, src := natBits d 0 64, stride := natBits d 64 32, w := natBits d 96 16, h := natBits d 112 16
    codec := natBits d 128 2, depth := natBits d 130 1, rc := natBits d 131 1, qp := natBits d 132 8, key := natBits d 140 1 = 1, kbps := natBits d 192 64
    dst := natBits d 256 64, dlen := natBits d 320 64, cring := natBits d 384 64, tag := BitVec.ofNat 64 (natBits d 448 64) }
/-- ENCODE_JOB (R447): a job whose record lies in a bound partition's memory is submitted to the encoder of one of its sectors
(log 62). -/
def execEncodeJob (sector addr : Nat) (s : State) : Out :=
  done (match s.cx.parts.find? fun p => p.hasSector sector with
    | none => s
    | some p => if 8 ≤ sector || p.quarantined || !(p.holds addr && p.holds (addr + 63)) then s
      else { s with mg := { s.mg with jobs := s.mg.jobs ++ [jobOf sector addr (leNat (s.rawBytes addr 64))] } })

/-- Write bytes into the backing memory past the home slices (R444): a home slice may keep an older copy of a sector, which is a free
choice (log 4); a dirty one keeps its newer data. -/
def State.rawWrite (s : State) (k : Nat) (b : List Byte) : State :=
  let s := { s with ms := { s.ms with backing := memSetAll s.ms.backing k b } }
  (sectorStarts k b.length).foldl (fun s a =>
    let x := a / 32
    if s.ms.dirty.contains x then s
    else
      let (old, s) := s.takeBit
      if old then { s with ms := { s.ms with stale := insertNat x s.ms.stale } }
      else { s with ms := { s.ms with mem := memSetAll s.ms.mem a ((b.drop (a - k)).take (32 - a % 32)), stale := s.ms.stale.filter (· ≠ x) } }) s

/-- Bytes of a job's input frame: a luma plane, and a chroma plane of half its rows. -/
def EncJob.frame (j : EncJob) : Nat := j.stride * (j.h + j.h / 2)
/-- How a job ends: STATUS, FCAUSE, and the bytes it writes. -/
def EncJob.result (j : EncJob) (s : State) (p : Part) (bits : List Byte) : Nat × Nat × List Byte :=
  if j.cancelled then (3, 0, [])
  else if !(p.holds j.src && p.holds (j.src + j.frame - 1)) then (2, cPROT.toNat, [])
  else if s.ms.poisonBack.any fun x => j.src < 32 * x + 32 && 32 * x < j.src + j.frame then (2, cPOISON.toNat, [])
  else if j.dlen < bits.length then (2, cBUDGET.toNat, [])
  else if bits != [] && !(p.holds j.dst && p.holds (j.dst + bits.length - 1)) then (2, cPROT.toNat, [])
  else (1, 0, bits)
/-- ENCODE_COMPLETE (R273, R447): the sector's oldest job ends with the bitstream given, once its ring, read at its home slice (R186),
has room; its record is written and counted. -/
def execEncodeComplete (sector : Nat) (bits : List Byte) (s : State) : Out :=
  done (match s.mg.jobs.find? (·.sector = sector), s.cx.parts.find? fun p => p.hasSector sector with
    | some j, some p =>
      let s := if p.holds j.cring && p.holds (j.cring + 63) then s.seen j.cring 64 else s
      match j.ring s p with
      | none => { s with mg := { s.mg with jobs := s.mg.jobs.erase j } }
      | some (_, false) => s
      | some (d, true) =>
        let (status, cause, out) := j.result s p bits
        (s.rawWrite j.dst out).endJob p j d status cause out.length
    | _, _ => s)

/-! ## Power states (R448) -/

/-- Whether the entry condition of C1 holds: with no group on a core, no ray is in flight either. A checkpoint is a copy (R453). -/
def State.idle (s : State) : Bool :=
  !s.groups.any (·.phase.holdsSlot) && !s.ls.pool.any (·.st = .admissible) && s.cs.copies = [] && !s.qs.runs.any (·.kind = 3) &&
  s.ls.staging = [] && s.cs.draws.all (·.saved) && s.lk.xfers = [] && s.cx.parts.all (·.ckpt.isNone)
/-- Whether that of C2 holds too: no head scans and no encode job is open. DEDUCED: a head for which software has named a descriptor
scans, whatever it outputs, for it latches at every vertical blank (R445, R454; log 84). -/
def State.dark (s : State) : Bool := s.idle && s.mg.jobs = [] && !s.mg.heads.any fun h => h.addr.isSome
/-- Dirty lines are written back and the home slices are emptied (R448): no line is held, pinned, owned or marked in them. A record whose
lines were pinned has them staged again for a group bound later. -/
def State.emptySlices (s : State) : State :=
  let ms := s.ms.writeBackAll
  { s with
    ms := { ms.discard (ms.stale ++ ms.poison) with first := [], pins := [], owned := [] }
    ls := { s.ls with pool := s.ls.pool.map fun e => if s.ms.pins.any (fun p => p.2 = (e.die, e.entry)) then { e with unstaged := true } else e } }
/-- POWER_STATE_ENTRY (R448): the deepest state that LTOL and the conditions allow, from a less deep one; whether the links have been quiet for 10 µs is not
known to the model (a free choice, log 4). C4 empties the home slices first. -/
def execPowerStateEntry (s : State) : Out :=
  let l := s.mg.ltol.toNat
  let (quiet, s') := s.takeBit
  let k : Nat :=
    if s.mg.leaving || !s.idle || l < 2 then 0
    else if l < 50 || !s.dark then 1
    else if l < 400 || !quiet then 2
    else if l < 20000 then 3 else 4
  done (if k ≤ s.mg.pstate.toNat then s
    else
      let s := if k = 4 then s'.emptySlices else s'
      { s with mg := { s.mg with pstate := BitVec.ofNat 3 k } })
/-- WAKE (R448): the access is held, and exit begins. -/
def execWake (held : HeldAccess) (s : State) : Out :=
  done (if s.mg.pstate = 0 then s else s.hold (.access held))
/-- Perform a held access as if the device had been awake. -/
def State.performHeld (s : State) : HeldAccess → State
  | .doorbell ctx q v => s.doorbell ctx q v
  | .inbound a => s.inbound a
  | .mgmt off v => s.mgmtArrives off v
  | .alarm f a => s.raiseAlarm f a
  | .timer => s
/-- What the sleeping device does all the same (R448): it wakes, goes into a deeper state, or has left its state; its sensors, its power
management and its links work on, a cold reset comes and soft errors strike; accesses from outside are held; and in C1 alone, where heads may
scan and encode jobs be open, a head latches and an encoder ends a job. Nothing else of its own moves: DEDUCED, its clocks stand still (log 84). -/
def worksAsleep (pstate : Nat) : Instr → Bool
  | .wake _ | .powerStateEntry | .powerStateExitComplete | .coldReset => true
  | .hotFlagSet _ | .hotFlagClear _ | .sensorSample | .powerCapStep _ => true
  | .trainingAttemptEnd _ _ | .laneFailure _ _ | .crcRetryLimit _ | .flitRetry _ | .hostLinkTraining _ => true
  | .uncorrectableError _ | .correctableSoftError _ => true
  | .doorbellWrite _ _ _ | .inboundAccess _ | .alarm _ _ | .tamperSensor => true
  | .ltolWrite _ | .thotWrite _ | .alpolWrite _ | .alarmWrite _ | .mgmtRegisterWrite _ _ => true
  | .verticalBlank _ | .encodeComplete _ _ => pstate = 1
  | _ => false
/-- Whether an event is a request of system software, which reaches the device by an access of the host (R448). -/
def asksDevice : Instr → Bool
  | .bind _ | .unbind _ _ | .create _ | .contextBind _ | .policyWrite _ _ | .preEmpt _ | .resume _ | .destroy _ => true
  | .queueCreate _ _ | .queueRestart _ _ _ | .queueDestroy _ _ => true
  | .serviceComplete _ | .serviceFails _ | .serve _ _ | .forward _ _ | .fail _ _ | .fwcallReply _ _ _ => true
  | .invalidation _ _ _ | .watchpointSet _ _ | .accessTableWrite _ | .routingTableWrite _ _ _ | .portEnable _ | .portDisable _ => true
  | .headDescriptorSet _ _ | .encodeJob _ _ | .checkpoint _ | .checkpointRestore _ _ | .quote _ | .imageCheck _ _ => true
  | _ => false
/-- POWER_STATE_EXIT_COMPLETE (R448): what is held, accesses and requests, are the next moves, in the order of their arrival. -/
def execPowerStateExitComplete (s : State) : Out :=
  done (if !s.mg.leaving then s
    else { s with turns := s.mg.held ++ s.turns, mg := { s.mg with pstate := 0, leaving := false, held := [] } })

end Sys2Proof.Machine
end

