-- ==== Sys2Proof/Machine/Dispatch.lean ====
section
/-! DEFINITION. The meaning of every instruction and event: one arm per constructor, one call per arm. -/

namespace Sys2Proof.Machine

def exec (i : Instr) (s : State) : Host.Outcome State Fault Refusal :=
  match i with
  | .sadd f => Sys2Proof.Machine.execSadd f s
  | .ssub f => Sys2Proof.Machine.execSsub f s
  | .smul f => Sys2Proof.Machine.execSmul f s
  | .smulh f => Sys2Proof.Machine.execSmulh f s
  | .sdiv f => Sys2Proof.Machine.execSdiv f s
  | .srem f => Sys2Proof.Machine.execSrem f s
  | .smin f => Sys2Proof.Machine.execSmin f s
  | .smax f => Sys2Proof.Machine.execSmax f s
  | .sabs f => Sys2Proof.Machine.execSabs f s
  | .slea f => Sys2Proof.Machine.execSlea f s
  | .sand f => Sys2Proof.Machine.execSand f s
  | .sor f => Sys2Proof.Machine.execSor f s
  | .sxor f => Sys2Proof.Machine.execSxor f s
  | .sandn f => Sys2Proof.Machine.execSandn f s
  | .sshl f => Sys2Proof.Machine.execSshl f s
  | .sshr f => Sys2Proof.Machine.execSshr f s
  | .ssra f => Sys2Proof.Machine.execSsra f s
  | .srot f => Sys2Proof.Machine.execSrot f s
  | .sclz f => Sys2Proof.Machine.execSclz f s
  | .spop f => Sys2Proof.Machine.execSpop f s
  | .sbfx f => Sys2Proof.Machine.execSbfx f s
  | .sbfi f => Sys2Proof.Machine.execSbfi f s
  | .ssel f => Sys2Proof.Machine.execSsel f s
  | .smov f => Sys2Proof.Machine.execSmov f s
  | .scmp f => Sys2Proof.Machine.execScmp f s
  | .saddImm f => Sys2Proof.Machine.execSaddImm f s
  | .smulImm f => Sys2Proof.Machine.execSmulImm f s
  | .sminImm f => Sys2Proof.Machine.execSminImm f s
  | .smaxImm f => Sys2Proof.Machine.execSmaxImm f s
  | .sandImm f => Sys2Proof.Machine.execSandImm f s
  | .sorImm f => Sys2Proof.Machine.execSorImm f s
  | .sxorImm f => Sys2Proof.Machine.execSxorImm f s
  | .sshlImm f => Sys2Proof.Machine.execSshlImm f s
  | .sshrImm f => Sys2Proof.Machine.execSshrImm f s
  | .ssraImm f => Sys2Proof.Machine.execSsraImm f s
  | .srotImm f => Sys2Proof.Machine.execSrotImm f s
  | .sli f => Sys2Proof.Machine.execSli f s
  | .slih f => Sys2Proof.Machine.execSlih f s
  | .scmpImm f => Sys2Proof.Machine.execScmpImm f s
  | .br f => Sys2Proof.Machine.execBr f s
  | .brc f => Sys2Proof.Machine.execBrc f s
  | .brm f => Sys2Proof.Machine.execBrm f s
  | .call f => Sys2Proof.Machine.execCall f s
  | .ret f => Sys2Proof.Machine.execRet f s
  | .jt f => Sys2Proof.Machine.execJt f s
  | .mif f => Sys2Proof.Machine.execMif f s
  | .melse f => Sys2Proof.Machine.execMelse f s
  | .mend f => Sys2Proof.Machine.execMend f s
  | .mloop f => Sys2Proof.Machine.execMloop f s
  | .exit f => Sys2Proof.Machine.execExit f s
  | .yield f => Sys2Proof.Machine.execYield f s
  | .nop f => Sys2Proof.Machine.execNop f s
  | .vadd f => Sys2Proof.Machine.execVadd f s
  | .vsub f => Sys2Proof.Machine.execVsub f s
  | .vmul f => Sys2Proof.Machine.execVmul f s
  | .vmulh f => Sys2Proof.Machine.execVmulh f s
  | .vmad f => Sys2Proof.Machine.execVmad f s
  | .vdiv f => Sys2Proof.Machine.execVdiv f s
  | .vrem f => Sys2Proof.Machine.execVrem f s
  | .vmin f => Sys2Proof.Machine.execVmin f s
  | .vmax f => Sys2Proof.Machine.execVmax f s
  | .vabs f => Sys2Proof.Machine.execVabs f s
  | .vneg f => Sys2Proof.Machine.execVneg f s
  | .vand f => Sys2Proof.Machine.execVand f s
  | .vor f => Sys2Proof.Machine.execVor f s
  | .vxor f => Sys2Proof.Machine.execVxor f s
  | .vandn f => Sys2Proof.Machine.execVandn f s
  | .vnot f => Sys2Proof.Machine.execVnot f s
  | .vshl f => Sys2Proof.Machine.execVshl f s
  | .vshr f => Sys2Proof.Machine.execVshr f s
  | .vsra f => Sys2Proof.Machine.execVsra f s
  | .vclz f => Sys2Proof.Machine.execVclz f s
  | .vpop f => Sys2Proof.Machine.execVpop f s
  | .vbrev f => Sys2Proof.Machine.execVbrev f s
  | .vsad f => Sys2Proof.Machine.execVsad f s
  | .vdot4 f => Sys2Proof.Machine.execVdot4 f s
  | .vmov f => Sys2Proof.Machine.execVmov f s
  | .vsel f => Sys2Proof.Machine.execVsel f s
  | .vbcast f => Sys2Proof.Machine.execVbcast f s
  | .vlane f => Sys2Proof.Machine.execVlane f s
  | .vlaneGet f => Sys2Proof.Machine.execVlaneGet f s
  | .vlanePut f => Sys2Proof.Machine.execVlanePut f s
  | .vli f => Sys2Proof.Machine.execVli f s
  | .vaddImm f => Sys2Proof.Machine.execVaddImm f s
  | .vandImm f => Sys2Proof.Machine.execVandImm f s
  | .vcmp f => Sys2Proof.Machine.execVcmp f s
  | .fadd f => Sys2Proof.Machine.execFadd f s
  | .fsub f => Sys2Proof.Machine.execFsub f s
  | .fmul f => Sys2Proof.Machine.execFmul f s
  | .ffma f => Sys2Proof.Machine.execFfma f s
  | .fmin f => Sys2Proof.Machine.execFmin f s
  | .fmax f => Sys2Proof.Machine.execFmax f s
  | .fdiv f => Sys2Proof.Machine.execFdiv f s
  | .fsqrt f => Sys2Proof.Machine.execFsqrt f s
  | .frcp f => Sys2Proof.Machine.execFrcp f s
  | .frsq f => Sys2Proof.Machine.execFrsq f s
  | .fexp2 f => Sys2Proof.Machine.execFexp2 f s
  | .flog2 f => Sys2Proof.Machine.execFlog2 f s
  | .fsin f => Sys2Proof.Machine.execFsin f s
  | .fcos f => Sys2Proof.Machine.execFcos f s
  | .frnd f => Sys2Proof.Machine.execFrnd f s
  | .fcmp f => Sys2Proof.Machine.execFcmp f s
  | .fclass f => Sys2Proof.Machine.execFclass f s
  | .fscale f => Sys2Proof.Machine.execFscale f s
  | .fsgn f => Sys2Proof.Machine.execFsgn f s
  | .cvt f => Sys2Proof.Machine.execCvt f s
  | .vpack f => Sys2Proof.Machine.execVpack f s
  | .vunpk f => Sys2Proof.Machine.execVunpk f s
  | .vdith f => Sys2Proof.Machine.execVdith f s
  | .vshfl f => Sys2Proof.Machine.execVshfl f s
  | .vshflXor f => Sys2Proof.Machine.execVshflXor f s
  | .vrot f => Sys2Proof.Machine.execVrot f s
  | .vred f => Sys2Proof.Machine.execVred f s
  | .vscan f => Sys2Proof.Machine.execVscan f s
  | .vballot f => Sys2Proof.Machine.execVballot f s
  | .vballotCnt f => Sys2Proof.Machine.execVballotCnt f s
  | .vcompress f => Sys2Proof.Machine.execVcompress f s
  | .vexpand f => Sys2Proof.Machine.execVexpand f s
  | .pand f => Sys2Proof.Machine.execPand f s
  | .por f => Sys2Proof.Machine.execPor f s
  | .pxor f => Sys2Proof.Machine.execPxor f s
  | .pnot f => Sys2Proof.Machine.execPnot f s
  | .pset f => Sys2Proof.Machine.execPset f s
  | .ld f => Sys2Proof.Machine.execLd f s
  | .ldSigned f => Sys2Proof.Machine.execLdSigned f s
  | .ldu f => Sys2Proof.Machine.execLdu f s
  | .lduSigned f => Sys2Proof.Machine.execLduSigned f s
  | .st f => Sys2Proof.Machine.execSt f s
  | .stu f => Sys2Proof.Machine.execStu f s
  | .pref f => Sys2Proof.Machine.execPref f s
  | .cwb f => Sys2Proof.Machine.execCwb f s
  | .cinv f => Sys2Proof.Machine.execCinv f s
  | .cwbi f => Sys2Proof.Machine.execCwbi f s
  | .atom f => Sys2Proof.Machine.execAtom f s
  | .atomu f => Sys2Proof.Machine.execAtomu f s
  | .red f => Sys2Proof.Machine.execRed f s
  | .storeDrain core slot => Sys2Proof.Machine.execStoreDrain core slot s
  | .lineOwnershipGrant core line => Sys2Proof.Machine.execLineOwnershipGrant core line s
  | .lineEviction line => Sys2Proof.Machine.execLineEviction line s
  | .fence f => Sys2Proof.Machine.execFence f s
  | .xfence f => Sys2Proof.Machine.execXfence f s
  | .talloc f => Sys2Proof.Machine.execTalloc f s
  | .tfree f => Sys2Proof.Machine.execTfree f s
  | .tinfo f => Sys2Proof.Machine.execTinfo f s
  | .tsetFull f => Sys2Proof.Machine.execTsetFull f s
  | .tsetEmpty f => Sys2Proof.Machine.execTsetEmpty f s
  | .twait f => Sys2Proof.Machine.execTwait f s
  | .tld f => Sys2Proof.Machine.execTld f s
  | .tst f => Sys2Proof.Machine.execTst f s
  | .tldw f => Sys2Proof.Machine.execTldw f s
  | .tldc f => Sys2Proof.Machine.execTldc f s
  | .tstw f => Sys2Proof.Machine.execTstw f s
  | .tcpi f => Sys2Proof.Machine.execTcpi f s
  | .tcpo f => Sys2Proof.Machine.execTcpo f s
  | .tcpm f => Sys2Proof.Machine.execTcpm f s
  | .inboundWrite copy => Sys2Proof.Machine.execInboundWrite copy s
  | .copyComplete copy => Sys2Proof.Machine.execCopyComplete copy s
  | .mac f => Sys2Proof.Machine.execMac f s
  | .macg f => Sys2Proof.Machine.execMacg f s
  | .azero f => Sys2Proof.Machine.execAzero f s
  | .amov f => Sys2Proof.Machine.execAmov f s
  | .aput f => Sys2Proof.Machine.execAput f s
  | .aread f => Sys2Proof.Machine.execAread f s
  | .sdfe f => Sys2Proof.Machine.execSdfe f s
  | .sdfprune f => Sys2Proof.Machine.execSdfprune f s
  | .march f => Sys2Proof.Machine.execMarch f s
  | .mres f => Sys2Proof.Machine.execMres f s
  | .mresume f => Sys2Proof.Machine.execMresume f s
  | .mcancel f => Sys2Proof.Machine.execMcancel f s
  | .bsample f => Sys2Proof.Machine.execBsample f s
  | .rayStep core slot lane => Sys2Proof.Machine.execRayStep core slot lane s
  | .vis f => Sys2Proof.Machine.execVis f s
  | .visMerge merge => Sys2Proof.Machine.execVisMerge merge s
  | .rast f => Sys2Proof.Machine.execRast f s
  | .triangleRaster draw => Sys2Proof.Machine.execTriangleRaster draw s
  | .drawComplete draw => Sys2Proof.Machine.execDrawComplete draw s
  | .rproj f => Sys2Proof.Machine.execRproj f s
  | .fetch f => Sys2Proof.Machine.execFetch f s
  | .launch f => Sys2Proof.Machine.execLaunch f s
  | .join f => Sys2Proof.Machine.execJoin f s
  | .hpass f => Sys2Proof.Machine.execHpass f s
  | .linfo f => Sys2Proof.Machine.execLinfo f s
  | .barInit f => Sys2Proof.Machine.execBarInit f s
  | .barArr f => Sys2Proof.Machine.execBarArr f s
  | .barWait f => Sys2Proof.Machine.execBarWait f s
  | .barSync f => Sys2Proof.Machine.execBarSync f s
  | .barSyncPeer f => Sys2Proof.Machine.execBarSyncPeer f s
  | .barDrop f => Sys2Proof.Machine.execBarDrop f s
  | .barDropPeer f => Sys2Proof.Machine.execBarDropPeer f s
  | .barPeer f => Sys2Proof.Machine.execBarPeer f s
  | .barGrid f => Sys2Proof.Machine.execBarGrid f s
  | .enq f => Sys2Proof.Machine.execEnq f s
  | .qfence f => Sys2Proof.Machine.execQfence f s
  | .cnt f => Sys2Proof.Machine.execCnt f s
  | .cntWait f => Sys2Proof.Machine.execCntWait f s
  | .cancel f => Sys2Proof.Machine.execCancel f s
  | .mfs f => Sys2Proof.Machine.execMfs f s
  | .mts f => Sys2Proof.Machine.execMts f s
  | .trap f => Sys2Proof.Machine.execTrap f s
  | .brk f => Sys2Proof.Machine.execBrk f s
  | .tret f => Sys2Proof.Machine.execTret f s
  | .tretSkip f => Sys2Proof.Machine.execTretSkip f s
  | .fwcallSys f => Sys2Proof.Machine.execFwcallSys f s
  | .fwcallXz f => Sys2Proof.Machine.execFwcallXz f s
  | .fwcallReply core slot reply => Sys2Proof.Machine.execFwcallReply core slot reply s
  | .lput f => Sys2Proof.Machine.execLput f s
  | .lget f => Sys2Proof.Machine.execLget f s
  | .linkUnitComplete xfer => Sys2Proof.Machine.execLinkUnitComplete xfer s
  | .serve core slot => Sys2Proof.Machine.execServe core slot s
  | .forward core slot => Sys2Proof.Machine.execForward core slot s
  | .fail core slot => Sys2Proof.Machine.execFail core slot s
  | .conditionMet core slot => Sys2Proof.Machine.execConditionMet core slot s
  | .loadComplete core slot => Sys2Proof.Machine.execLoadComplete core slot s
  | .saveComplete core slot => Sys2Proof.Machine.execSaveComplete core slot s
  | .discardComplete core slot => Sys2Proof.Machine.execDiscardComplete core slot s
  | .restore gid slot => Sys2Proof.Machine.execRestore gid slot s
  | .swapOutAtJoin core slot => Sys2Proof.Machine.execSwapOutAtJoin core slot s
  | .serviceComplete record => Sys2Proof.Machine.execServiceComplete record s
  | .serviceFails record => Sys2Proof.Machine.execServiceFails record s
  | .invalidation ctx lo len => Sys2Proof.Machine.execInvalidation ctx lo len s
  | .invalidationComplete ctx lo len => Sys2Proof.Machine.execInvalidationComplete ctx lo len s
  | .watchpointSet ctx w => Sys2Proof.Machine.execWatchpointSet ctx w s
  | .uncorrectableError at_ => Sys2Proof.Machine.execUncorrectableError at_ s
  | .doorbellWrite ctx q value => Sys2Proof.Machine.execDoorbellWrite ctx q value s
  | .queueCreate ctx q => Sys2Proof.Machine.execQueueCreate ctx q s
  | .queueRestart ctx q ridx => Sys2Proof.Machine.execQueueRestart ctx q ridx s
  | .queueDestroy ctx q => Sys2Proof.Machine.execQueueDestroy ctx q s
  | .launchPacket seq => Sys2Proof.Machine.execLaunchPacket seq s
  | .taskPacket seq => Sys2Proof.Machine.execTaskPacket seq s
  | .copyPacket seq => Sys2Proof.Machine.execCopyPacket seq s
  | .graphPacket seq => Sys2Proof.Machine.execGraphPacket seq s
  | .condPacket seq => Sys2Proof.Machine.execCondPacket seq s
  | .loopPacket seq => Sys2Proof.Machine.execLoopPacket seq s
  | .loopIterationEnd run => Sys2Proof.Machine.execLoopIterationEnd run s
  | .signalPacket seq => Sys2Proof.Machine.execSignalPacket seq s
  | .waitPacket seq => Sys2Proof.Machine.execWaitPacket seq s
  | .copyRecordWrite run => Sys2Proof.Machine.execCopyRecordWrite run s
  | .packetComplete run => Sys2Proof.Machine.execPacketComplete run s
  | .policyWrite ctx p => Sys2Proof.Machine.execPolicyWrite ctx p s
  | .admission die entry => Sys2Proof.Machine.execAdmission die entry s
  | .ageLimit die entry => Sys2Proof.Machine.execAgeLimit die entry s
  | .stagingLanding req => Sys2Proof.Machine.execStagingLanding req s
  | .stagingPromotion req => Sys2Proof.Machine.execStagingPromotion req s
  | .dispatch core slot => Sys2Proof.Machine.execDispatch core slot s
  | .stagingDeadline core slot => Sys2Proof.Machine.execStagingDeadline core slot s
  | .issueStarvation core slot => Sys2Proof.Machine.execIssueStarvation core slot s
  | .yieldExpiry core slot => Sys2Proof.Machine.execYieldExpiry core slot s
  | .hotFlagSet core => Sys2Proof.Machine.execHotFlagSet core s
  | .hotFlagClear core => Sys2Proof.Machine.execHotFlagClear core s
  | .sensorSample => Sys2Proof.Machine.execSensorSample s
  | .powerCapStep milliwatts => Sys2Proof.Machine.execPowerCapStep milliwatts s
  | .bind b => Sys2Proof.Machine.execBind b s
  | .unbind fsect erase => Sys2Proof.Machine.execUnbind fsect erase s
  | .create ctx => Sys2Proof.Machine.execCreate ctx s
  | .contextBind ctx => Sys2Proof.Machine.execContextBind ctx s
  | .preEmpt ctx => Sys2Proof.Machine.execPreEmpt ctx s
  | .switchComplete ctx => Sys2Proof.Machine.execSwitchComplete ctx s
  | .resume ctx => Sys2Proof.Machine.execResume ctx s
  | .destroy ctx => Sys2Proof.Machine.execDestroy ctx s
  | .teardownComplete ctx => Sys2Proof.Machine.execTeardownComplete ctx s
  | .portEnable port => Sys2Proof.Machine.execPortEnable port s
  | .portDisable port => Sys2Proof.Machine.execPortDisable port s
  | .trainingAttemptEnd port lanes => Sys2Proof.Machine.execTrainingAttemptEnd port lanes s
  | .laneFailure port lane => Sys2Proof.Machine.execLaneFailure port lane s
  | .crcRetryLimit port => Sys2Proof.Machine.execCrcRetryLimit port s
  | .flitRetry port => Sys2Proof.Machine.execFlitRetry port s
  | .routingTableWrite pod peer ports => Sys2Proof.Machine.execRoutingTableWrite pod peer ports s
  | .hostLinkTraining r => Sys2Proof.Machine.execHostLinkTraining r s
  | .inboundAccess a => Sys2Proof.Machine.execInboundAccess a s
  | .linkTimeout xfer => Sys2Proof.Machine.execLinkTimeout xfer s
  | .accessTableWrite e => Sys2Proof.Machine.execAccessTableWrite e s
  | .alarm fsect addr => Sys2Proof.Machine.execAlarm fsect addr s
  | .tamperSensor => Sys2Proof.Machine.execTamperSensor s
  | .quote nonce => Sys2Proof.Machine.execQuote nonce s
  | .checkpoint parts => Sys2Proof.Machine.execCheckpoint parts s
  | .checkpointRestore fsect target => Sys2Proof.Machine.execCheckpointRestore fsect target s
  | .coldReset => Sys2Proof.Machine.execColdReset s
  | .imageCheck image key => Sys2Proof.Machine.execImageCheck image key s
  | .ltolWrite value => Sys2Proof.Machine.execLtolWrite value s
  | .thotWrite value => Sys2Proof.Machine.execThotWrite value s
  | .alpolWrite value => Sys2Proof.Machine.execAlpolWrite value s
  | .alarmWrite ones => Sys2Proof.Machine.execAlarmWrite ones s
  | .mgmtRegisterWrite offset value => Sys2Proof.Machine.execMgmtRegisterWrite offset value s
  | .powerStateEntry => Sys2Proof.Machine.execPowerStateEntry s
  | .wake held => Sys2Proof.Machine.execWake held s
  | .powerStateExitComplete => Sys2Proof.Machine.execPowerStateExitComplete s
  | .verticalBlank head => Sys2Proof.Machine.execVerticalBlank head s
  | .headDescriptorSet head addr => Sys2Proof.Machine.execHeadDescriptorSet head addr s
  | .encodeJob sector addr => Sys2Proof.Machine.execEncodeJob sector addr s
  | .encodeComplete sector bits => Sys2Proof.Machine.execEncodeComplete sector bits s
  | .correctableSoftError at_ => Sys2Proof.Machine.execCorrectableSoftError at_ s

end Sys2Proof.Machine
end

