-- ==== Sys2Proof/Machine/Run.lean ====
section
/-! DEFINITION. One move of a group, and whose move it is. -/

namespace Sys2Proof.Machine

/-! ## Predicates and recorded masks (R71 to R77, R103, R317, R422) -/

/-- The opcode of a word. -/
def opcode (w : W64) : Nat := (w.extractLsb' 56 8).toNat
/-- Whether a word's format has PRED in bits 55 to 52. -/
def hasPred (w : W64) : Bool := (0x20 ≤ opcode w && opcode w ≤ 0x72) || (0x80 ≤ opcode w && opcode w ≤ 0xB2)
/-- The predicate it names, p0 for none. -/
def predOf (w : W64) : BitVec 4 := if hasPred w then w.extractLsb' 52 4 else 0
/-- Whether it is a vector instruction: one whose lanes the active mask names. DESIGN CHOICE: the reserved opcodes 0x6A to 0x6F count as
the vector memory instructions among which they stand, every other reserved opcode as no vector instruction (log 89). -/
def isVector (w : W64) : Bool :=
  let o := opcode w
  (0x20 ≤ o && o ≤ 0x62) || (0x66 ≤ o && o ≤ 0x70) || o = 0x72 || (0x83 ≤ o && o ≤ 0x87) || o = 0xA0 || (0xA2 ≤ o && o ≤ 0xA6) || o = 0xB0 || o = 0xB2
/-- Whether it is a matrix instruction. -/
def isMatrix (w : W64) : Bool := 0x90 ≤ opcode w && opcode w ≤ 0x95
/-- Whether its predicate has the complemented sense: PNEG of format V3. -/
def predNeg (w : W64) : BitVec 1 :=
  let o := opcode w
  if 0x20 ≤ o && o ≤ 0x5C && o != 0x39 then w.extractLsb' 51 1 else 0
/-- The recorded mask of an instruction, which a cause that is not a lane's names (R103, R317); 0 for a scalar or control one. -/
def recordedMask (g : Group) (w : W64) : W32 :=
  if isMatrix w || isVector w then g.active (predOf w) (predNeg w) else 0
/-- POISON for the predicate that names an instruction's lanes (R422). DESIGN CHOICE: the predicate's bits are lost, so a vector
instruction names no lane, and a matrix one, which records its mask, what the register holds (R317, log 90). -/
def predPoison (g : Group) (w : W64) : Option Trap :=
  (readPoison g (pitem (predOf w))).map fun t => if isMatrix w then t.lanes_ (recordedMask g w) else t

/-! ## Demand requests and promoted staging (R298) -/

/-- Serve one demand request: what stands next in it is performed. -/
def State.serve (s : State) : Demand → State
  | .copyIn id => match s.cs.copies.find? (·.id = id) with | some c => s.landWord c | none => s
  | .copyOut id => match s.cs.copies.find? (·.id = id) with | some c => s.endCopy c | none => s
  | .packet run => match s.runOf run with | some r => s.copyStep r | none => s
  | .merge id => s.performMerges fun m => m.id = id
  | .unit id => match s.lk.xfers.find? (·.id = id) with | some x => s.xferStep x | none => s
  | .staging id => match s.ls.staging.find? (·.id = id) with
    | some q => if q.level = 1 then s.landLine q else match s.cs.copies.find? (·.id = q.copy) with | some c => s.landWord c | none => s
    | none => s
/-- The demand request at the lowest place. -/
def firstDemand : List (Nat × Demand) → Option (Nat × Demand)
  | [] => none
  | d :: r => match firstDemand r with
    | none => some d
    | some e => if d.1 ≤ e.1 then some d else some e
/-- While a promoted staging request is in flight, serve the demand requests in the order of their places. -/
def serveAhead : Nat → State → State
  | 0, s => s
  | n + 1, s =>
    if !s.ls.staging.any s.isPromoted then s
    else match firstDemand s.demands with
      | none => s
      | some d => serveAhead n (s.serve d.2)
/-- A bound on what waits: words, bytes and units. -/
def State.waiting (s : State) : Nat :=
  (s.cs.copies.map fun c => s.copyLeft c + 1).sum + s.cs.merges.length + (s.lk.xfers.map fun x => x.len + 1).sum +
  (s.qs.runs.map fun r => pkNat r.body 24 8).sum + (s.ls.staging.map (·.total)).sum
/-- Whether an instruction or an event makes an access of classes g, c, x, m, v or l at its own move (R298). -/
def makesDemand : Instr → Bool
  | .ld _ | .ldSigned _ | .ldu _ | .lduSigned _ | .st _ | .stu _ | .pref _ | .cwb _ | .cinv _ | .cwbi _ | .atom _ | .atomu _ | .red _ => true
  | .jt _ | .storeDrain _ _ | .fence _ | .xfence _ | .macg _ | .sdfe _ | .sdfprune _ | .march _ | .mres _ | .mresume _ | .bsample _ | .rayStep _ _ _ => true
  | .vis _ | .rast _ | .triangleRaster _ | .drawComplete _ | .rproj _ | .exit _ | .fetch _ | .launch _ | .enq _ | .cnt _ | .cntWait _ => true
  | .tst _ | .tstw _ | .tsetFull _ | .tsetEmpty _ | .fwcallSys _ | .fwcallXz _ | .lput _ | .lget _ => true
  | .barArr _ | .barSync _ | .barSyncPeer _ | .barDrop _ | .barDropPeer _ | .barPeer _ | .barGrid _ => true
  | .launchPacket _ | .taskPacket _ | .copyPacket _ | .graphPacket _ | .condPacket _ | .loopPacket _ | .signalPacket _ | .waitPacket _ => true
  | .loopIterationEnd _ | .packetComplete _ | .queueRestart _ _ _ | .queueDestroy _ _ | .admission _ _ | .stagingDeadline _ _ | .hpass _ | .cancel _ => true
  | .inboundAccess _ | .doorbellWrite _ _ _ | .saveComplete _ _ | .discardComplete _ _ | .invalidationComplete _ _ _ | .serviceComplete _ => true
  | .serviceFails _ | .linkTimeout _ | .preEmpt _ | .destroy _ | .unbind _ _ => true
  | _ => false
/-- Whether an event that serves a request of the queue writes a word of its own too: the record of a COPY whose bytes are moved, or the
status word of a transfer that ends (R272, R439). -/
def State.writesLast (s : State) : Instr → Bool
  | .copyRecordWrite run => (s.runOf run).any fun r => r.status != 0 || pkNat r.body 24 8 ≤ r.moved
  | .linkUnitComplete id => s.lk.xfers.any fun x => x.id = id && x.status.isSome && x.len ≤ x.pos + 128
  | _ => false
/-- The promoted staging requests in flight are served, and with them the demand requests before them. -/
def State.clearAhead (s : State) : State := serveAhead s.waiting s
/-- What is served before an access of demand class is made: a promoted staging request in flight stands before it, for it reached the
queue earlier (R298; log 83). -/
def State.ahead (s : State) (i : Instr) : State := if makesDemand i || s.writesLast i then s.clearAhead else s

/-! ## A move -/

/-- The group whose turn it is makes its move (R56, R57, R61, R91, R96, R185): a started atomic goes on; otherwise it enters a
block, or fetches, decodes and runs the word at its program counter. A group that is neither Running nor Parked does
nothing. DESIGN CHOICE: of a transfer that is not its block's last word and has a bad field too, ILLEGAL names the field, since its place in
the block is looked at once the word decodes (log 117). -/
def runGroup (s : State) : Out :=
  if s.g.gid = 0 || !(s.g.phase = .running || s.g.phase = .parked) then .next s
  else match s.g.atomic with
  | some a => exec a.i (s.ahead a.i)
  | none =>
    if s.g.entering then .next (enterBlock s)
    else match s.fetchWord s.g.pc with
      | .bad t s => .next (takeTrap t s)
      | .ok s w =>
        match decode w with
        | .error bit => .next (takeTrap ((illegal bit).lanes_ (recordedMask s.g w)) s)
        | .ok i =>
          match predPoison s.g w with
          | some t => .next (takeTrap t s)
          | none => exec i (s.ahead i)

/-- What is known of a pod peer changes (R400, R434, R437). -/
def State.setPeer (s : State) (p : Peer) : State := { s with lk := { s.lk with peers := p :: s.lk.peers.filter fun q => q.pod != p.pod } }
/-- The host or a peer writes memory of its own; this device's memory is no such. -/
def State.remoteWrite (s : State) (key : Nat) (b : List Byte) : State := if key < spaceSize then s else { s with ms := s.ms.remoteWrite key b }

/-- An event comes; a request of system software that finds the device asleep is held, and what the device does by itself waits (R448). -/
def eventMove (i : Instr) (s : State) : Out :=
  if !i.isEvent then .next s
  else if s.mg.pstate = 0 then exec i (s.ahead i)
  else if asksDevice i then .next (s.hold (.event i))
  else if worksAsleep s.mg.pstate.toNat i then exec i s
  else .next s
/-- The next turn (log 2). -/
def moveOf (s : State) : Out :=
  match s.turns with
  | .event i :: r => eventMove i { s with turns := r }
  | .group gid :: r => if s.mg.pstate = 0 then runGroup (State.focus { s with turns := r } gid) else .next { s with turns := r }
  | .peer p :: r => .next (State.setPeer { s with turns := r } p)
  | .remote key b :: r => .next (State.remoteWrite { s with turns := r } key b)
  | .contextTable base :: r =>
    let s : State := { s with turns := r }
    .next (if s.mg.pstate = 0 then s.setContextTable base else s.hold (.contextTable base))
  | .access h :: r =>
    let s : State := { s with turns := r }
    .next (s.whenAwake h fun s => s.performHeld h)
  | [] => if s.mg.pstate = 0 then runGroup s else .next s

/-! ## What a move brings about -/

/-- The doorbell words of a context that a written range touches ring their queues (R22, R265). -/
def State.ringRange (s : State) (c : Ctx) (r : Nat × Nat) : State :=
  if c.dbell < r.1 + r.2 && r.1 < c.dbell + 2048 then
    ((List.range 256).filter fun q => c.dbell + 8 * q < r.1 + r.2 && r.1 < c.dbell + 8 * q + 8).foldl (fun s q => s.ringWord c q) s
  else s
/-- The command core reads the doorbell words that the move wrote, in the order of the writes. -/
def State.ringDoorbells (s : State) : State :=
  if s.ms.wrote = [] then s
  else
    let s' := s.ms.wrote.reverse.foldl (fun s r => s.cx.ctxs.foldl (fun s c => s.ringRange c r) s) s
    { s' with ms := { s'.ms with wrote := [] } }
/-- A group whose atomic has retired does what it owes: the split of its region (R223), then the precise save of a pre-emption, or the
discard of a cancel (R185). -/
def State.payOne (s : State) (g : Group) : State :=
  let s := if g.splitDue then s.onGroup g.gid State.splitRegion else s
  let s := s.mapGroup g.gid fun g => { g with owes := none }
  match g.owes with
  | some .save => s.onGroup g.gid (State.beginSave false)
  | some .discard => s.discardGroup { g with owes := none }
  | none => s
/-- Every such group does. -/
def State.payOwed (s : State) : State := (s.groups.filter fun g => (g.owes.isSome || g.splitDue) && g.atomic.isNone).foldl State.payOne s
/-- Lines that a home slice must hold: dirty ones, pinned ones and ones older than the backing memory. -/
def MemSys.heldLines (ms : MemSys) : List Nat := (((ms.dirty ++ ms.stale).map fun x => x / 4) ++ (ms.pins.map Prod.fst)).eraseDups
/-- Those lines in the order in which a full slice gives them up: marked first for replacement, then the others (R172). -/
def MemSys.evictOrder (ms : MemSys) : List Nat :=
  (ms.heldLines.filter fun l => ms.first.contains l) ++ ms.heldLines.filter fun l => !ms.first.contains l
/-- A slice that would hold more than its 4 MiB evicts (R13, R24); DESIGN CHOICE: of its unpinned lines those marked first for replacement
go first, and the lowest of a kind (log 67). -/
def State.fitSlices (s : State) : State :=
  if s.ms.dirty.length + s.ms.stale.length + s.ms.pins.length ≤ 32768 then s
  else s.ms.evictOrder.foldl (fun s l => if (s.ms.heldLines.filter fun k => s.sliceOf k = s.sliceOf l).length ≤ 32768 then s else s.evictLine l) s
/-- Staging sends what its budgets let. A request that begins makes accesses of demand class, its entry's coherence action and the write of
HOUT, which stand behind a promoted request as any other (R296, R298). -/
def State.sendNext (s : State) : State :=
  let t := s.sendAll
  if s.ls.staging.any fun q => !q.begun && (t.ls.staging.find? (·.id = q.id)).all (·.begun) then s.clearAhead.sendAll else t
/-- What every move brings about: owed saves and discards are made, the twaits of tiles that have become Full retire, staging sends what its
budgets let, due alarms are raised, before any doorbell rings (R23), and full slices evict. -/
def State.afterMove (s : State) : State :=
  let s := s.payOwed.passTwaits.sendNext.raiseDue.ringDoorbells.fitSlices
  { s with moves := s.moves + 1 }
/-- The same on an outcome. -/
def afterOut : Out → Out
  | .next s => .next s.afterMove
  | o => o

/-! ## Where a probe stands -/

/-- Where withFetchWord places a word, with a header of LEN 1 before it, and the tables that map its page. -/
def probeCode : Nat := 0x30000
/-- A leaf or next-table entry at an address: its eight bytes. -/
def probeTables (m : Memory) : Memory :=
  let m := memSetAll m 0x10000 (leBytes 8 0x20001)
  let m := memSetAll m 0x20000 (leBytes 8 0x21001)
  let m := memSetAll m 0x21000 (leBytes 8 0x22001)
  memSetAll m (0x22000 + 8 * 3) (leBytes 8 (probeCode + 2 ^ 52 + 0x1F))
/-- Memory with the word, its header, the tables, and no private window for context 0. -/
def probeMemory (m : Memory) (tab w : Nat) : Memory :=
  let m := probeTables m
  let m := memSetAll m probeCode (leBytes 8 0xFF04FFFF00000000)
  let m := memSetAll m (probeCode + 8) (leBytes 8 w)
  memSetAll m (tab + 16) (List.replicate 24 0)
/-- A context whose tables those are, in the partition of sector 0. -/
def probeCtx : Ctx := { n := 0, st := .running, fsect := 0, psize := 0, ptroot := 0x10000, save := 0, dbell := 0, qtab := 0, svsz := 0 }

end Sys2Proof.Machine
end

