-- ==== Sys2Proof/Machine/Step.lean ====
section
/-! DEFINITION. One step of the machine, and the placing of a word where it fetches next. -/

namespace Sys2Proof.Machine

/-- One step: the next move, and what it brings about. -/
def step (s : State) : Host.Outcome State Fault Refusal := afterOut (moveOf s)

/-- The machine with a bound partition, a context and a running group whose next word is w (log 8): what a bind, a create, a
launch and a dispatch bring about before a program's first instruction. -/
def State.withFetchWord (s : State) (nbits w : Nat) : State :=
  let word := w % 2 ^ min nbits 64
  { s with
    turns := []
    choices := []
    pauses := []
    mg := { s.mg with pstate := 0 }
    ms := { s.ms with mem := probeMemory s.ms.mem s.cx.tab word, poison := s.ms.poison.filter fun x => x != probeCode / 32 }
    cx := { s.cx with
      ctxs := probeCtx :: s.cx.ctxs.filter fun c => c.n != 0
      parts := { fsect := 0, psize := 0 } :: s.cx.parts.filter fun p => p.fsect != 0 }
    g := { s.g with
      gid := if s.g.gid = 0 then s.nextGid else s.g.gid, core := 0, slot := 0, ctx := 0, phase := .running
      pc := BitVec.ofNat 64 (probeCode + 8), entering := false, atomic := none
      blkHdr := BitVec.ofNat 64 probeCode, blkEnd := BitVec.ofNat 64 (probeCode + 16) }
    nextGid := s.nextGid + 1 }

end Sys2Proof.Machine
end

