-- ==== Sys2Proof/Safety.lean ====
section
/-! DEFINITION. The terms the statements use: what it is to run, to retire, to go to a target and to raise; sources free of
poison; and the invariant of memory. -/

namespace Sys2Proof.Machine

/-- Instruction or event i, done in state s, answers the next state t. -/
def Runs (i : Instr) (s t : State) : Prop := exec i s = .next t

/-- The group's instruction retires: control goes to the next word, or past the block's last word to a header (R57, R64). -/
def State.retire (s : State) : State := { s with g := s.g.advance }
/-- The group's instruction retires and control goes to a target, to be entered as a header (R57). -/
def State.goTo (target : W64) (s : State) : State := { s with g := s.g.jumpTo target }

/-- None of these items carries a poison mark (R422). -/
def State.Clean (s : State) (items : List Item) : Prop := s.g.poisoned items = []
/-- No enabled exception is among these of the lanes of m (R55). -/
def State.Untrapped (s : State) (m : W32) (exc : Nat → BitVec 5) : Prop := ∀ i < 32, m.getLsbD i = true → exc i &&& s.g.r.fenable = 0

/-- What a floating-point instruction with these exceptions in the lanes of m comes to: t when no enabled exception is among them; otherwise
FPEXC, which names the lanes that met an enabled one and every exception that an active lane met, with nothing written (R55). -/
def FpEnds (i : Instr) (s : State) (m : W32) (exc : Nat → BitVec 5) (t : State) : Prop :=
  (s.Untrapped m exc → Runs i s t) ∧
  (¬ s.Untrapped m exc → Runs i s (takeTrap
    { cause := cFPEXC, elanes := maskOf fun k => m.getLsbD k && exc k &&& s.g.r.fenable != 0, einfo := (orLanes m exc).setWidth 64 } s))

/-- The canonical form of memory: at the serialisation points and behind them, keys rise and no byte is 0 (log 1). -/
def State.MemoryWf (s : State) : Prop := s.ms.mem.wf = true ∧ s.ms.backing.wf = true

/-- Every byte reads as before. -/
def SameMemory (s t : State) : Prop := ∀ k, memGet t.ms.mem k = memGet s.ms.mem k
/-- Every byte outside [k, k + n) reads as before. -/
def SameMemoryOutside (k n : Nat) (s t : State) : Prop := ∀ a, a < k ∨ k + n ≤ a → memGet t.ms.mem a = memGet s.ms.mem a

/-- A scalar instruction of format S3: with clean sources it retires, S[D] is what r gives, and nothing else changes. -/
def ScalarResult (i : S3 → Instr) (reads : S3 → List (BitVec 6)) (r : S3 → State → W64) : Prop :=
  ∀ f s, s.Clean ((reads f).map s.g.sitem) → Runs (i f) s (s.setS f.d (r f s)).retire
/-- The same of format SI, whose one source is S[A]. -/
def ImmediateResult (i : SI → Instr) (r : SI → State → W64) : Prop :=
  ∀ f s, s.Clean [s.g.sitem f.a] → Runs (i f) s (s.setS f.d (r f s)).retire

/-- The bounds of .i64 and of .n64 (R112). -/
def s3Range (ty : BitVec 4) : Int × Int := if ty = 3 then (-2 ^ 63, 2 ^ 63 - 1) else (0, 2 ^ 64 - 1)
/-- A scalar instruction that accepts .sat: the exact result r is wrapped, or under SAT replaced by the bound it passes, which
sets SAT of sys.qflags (R112). -/
def SaturatingResult (i : S3 → Instr) (reads : S3 → List (BitVec 6)) (r : S3 → State → Int) : Prop :=
  ∀ f s, s.Clean ((reads f).map s.g.sitem) →
    Runs (i f) s (
      if f.sat = 1 ∧ r f s < (s3Range f.ty).1 then (s.setS f.d (w64 (s3Range f.ty).1)).orQ qSAT
      else if f.sat = 1 ∧ (s3Range f.ty).2 < r f s then (s.setS f.d (w64 (s3Range f.ty).2)).orQ qSAT
      else s.setS f.d (w64 (r f s))).retire

/-- The sources of an integer vector instruction: the lanes of its active mask, as pairs under set L (R132). -/
def vectorSources (f : V3) (s : State) (ns : List Byte) : List Item :=
  ns.flatMap fun n => s.g.vitems (is64 f.ty) (v3mask f s.g) n

/-- An integer vector instruction on typed elements (R133): with clean sources it retires, every element e of D in every
active lane is r of the elements, wrapped, or under SAT the nearest bound; SAT of sys.qflags is set when an element of an
active lane passed a bound under SAT; and nothing else changes. -/
def ElementResult (i : V3 → Instr) (reads : V3 → List Byte) (r : V3 → Int → Int → Int → Int) : Prop :=
  ∀ f s, v3mask f s.g ≠ 0 → s.Clean (vectorSources f s (reads f)) →
    let el (n : Byte) (k e : Nat) : Int := elemInt f.ty (elemOf f.ty (s.g.lane f.ty n k) e)
    let x (k e : Nat) : Int := r f (el f.a k e) (el f.b k e) (el f.c k e)
    let lo : Int := if isSigned f.ty then -2 ^ (tyBits f.ty - 1) else 0
    let hi : Int := if isSigned f.ty then 2 ^ (tyBits f.ty - 1) - 1 else 2 ^ tyBits f.ty - 1
    ∃ val : Nat → Nat,
      Runs (i f) s
        ((s.setV (is64 f.ty) f.d (v3mask f s.g) val).orSat
          (f.sat == 1 && (List.range 32).any fun k => (v3mask f s.g).getLsbD k &&
            (List.range (elemN f.ty)).any fun e => decide (x k e < lo) || decide (hi < x k e))).retire ∧
      ∀ k < 32, (v3mask f s.g).getLsbD k = true → ∀ e < elemN f.ty,
        (elemOf f.ty (val k) e : Int) = (if f.sat = 1 then max lo (min hi (x k e)) else x k e) % 2 ^ tyBits f.ty

/-- A vector instruction on raw elements of w bits: as ElementResult, with SAT not accepted and r on the bits. -/
def BitsResult (i : V3 → Instr) (reads : V3 → List Byte) (r : Nat → Nat → Nat → Nat) : Prop :=
  ∀ f s, v3mask f s.g ≠ 0 → s.Clean (vectorSources f s (reads f)) →
    ∃ val : Nat → Nat,
      Runs (i f) s (s.setV (is64 f.ty) f.d (v3mask f s.g) val).retire ∧
      ∀ k < 32, (v3mask f s.g).getLsbD k = true → ∀ e < elemN f.ty,
        elemOf f.ty (val k) e = r (tyBits f.ty) (elemOf f.ty (s.g.lane f.ty f.a k) e) (elemOf f.ty (s.g.lane f.ty f.b k) e)

/-- A vector instruction whose lane k of D becomes val k in the active lanes: it retires and nothing else changes. -/
def LaneResult (i : V3 → Instr) (reads : V3 → State → List Item) (wide : V3 → Bool) (val : V3 → State → Nat → Nat) : Prop :=
  ∀ f s, v3mask f s.g ≠ 0 → s.Clean (reads f s) → Runs (i f) s (s.setV (wide f) f.d (v3mask f s.g) (val f s)).retire

/-- The value of a floating-point element of operand k (0 A, 1 B, 2 C), with MOD applied (R71). -/
def fpElem (f : V3) (s : State) (k : Nat) (n : Byte) (i e : Nat) : Nat :=
  modOf f.md k (fmtOf f.ty) (elemOf f.ty (s.g.vget n i).toNat e)
/-- The exceptions of all elements of a lane. -/
def laneExc (f : V3) (r : Nat → Rounded) : BitVec 5 := (List.range (elemN f.ty)).foldl (fun x e => x ||| (r e).fl) 0

/-- A floating-point vector instruction (R55, R132, R133): where no enabled exception is met, it retires; element e of active lane
k of D is what el makes of the elements, element 0 lowest; the exceptions met are ORed into sys.fflags; and nothing else
changes. Where an enabled one is met, it raises FPEXC and writes nothing. -/
def FloatResult (i : V3 → Instr) (reads : V3 → List Byte) (el : V3 → Nat → Nat → Nat → Rounded) : Prop :=
  ∀ f s, v3mask f s.g ≠ 0 → s.Clean ((reads f).flatMap fun n => s.g.vitems false (v3mask f s.g) n) →
    let r (k e : Nat) : Rounded := el f (fpElem f s 0 f.a k e) (fpElem f s 1 f.b k e) (fpElem f s 2 f.c k e)
    FpEnds (i f) s (v3mask f s.g) (fun k => laneExc f (r k))
      ((s.setV false f.d (v3mask f s.g) fun k => joinElems (tyBits f.ty) ((List.range (elemN f.ty)).map fun e => (r k e).bits)).orF
        (orLanes (v3mask f s.g) fun k => laneExc f (r k))).retire

/-- An access of the group passes every check: those of R170, the watchpoints, and on RACECHECK pages the snare (R218, R423).
s2 is the state that the checks leave, with what the walks cached; hits are the lanes with their addresses and leaves. -/
def State.Passes (s : State) (a : AccSpec) (scalar atomic : Bool) (accs : List (Nat × Int)) (s2 : State) (hits : List Hit3) : Prop :=
  ∃ s1, checkAccess s s.g.core s.g.ctx a scalar accs = .ok s1 hits ∧ checkWatch s1 s1.g a scalar accs = none ∧
    if a.cacheCtl = true ∨ ∀ h ∈ hits, h.2.2.rc = false then s2 = s1
    else s1.snare (decide (a.acc = 1)) atomic scalar hits = .ok s2

/-- The active lanes of a tile access lie in the scratchpad tile t that its handle names, whose type is the instruction's (R199). -/
def State.Reaches (s : State) (f : FT) (t : Tile) : Prop :=
  ftMask f s.g ≠ 0 ∧ s.checkHandle s.g.core s.g.ctx (s.g.sget f.h) (fun t => !t.isGlobal && t.ty == f.ty) = .ok t ∧
  ∀ i < 32, (ftMask f s.g).getLsbD i = true → (ftPlace f s.g i).1 < t.rows ∧ (ftPlace f s.g i).2 < t.cols
/-- The words that a set of lanes names are clean and, in a copy that failed, not left unfilled (R202, R422). -/
def Tile.Sound (t : Tile) (m : W32) (w : Nat → Nat) : Prop := ∀ i < 32, m.getLsbD i = true → w i ∉ t.poison ∧ w i ∉ t.failed
/-- The state of a group that waits: parked, and nothing else changed (R96). -/
def State.wait (s : State) : State := { s with g := { s.g with phase := if s.g.phase = .running then .parked else s.g.phase } }

/-- The instruction waits, having started: it is parked, its region has ended, it holds its place among the waits, and no register, tile
or byte of memory has changed (R96, R196, R216). -/
def State.Waits (s : State) (i : Instr) : Prop :=
  ∃ t : State, Runs i s t ∧ t.g.r = s.g.r ∧ t.g.pc = s.g.pc ∧ t.g.begun = true ∧ t.g.waits ≠ none ∧ (s.g.phase = .running → t.g.phase = .parked) ∧
    t.cs.tiles = s.cs.tiles ∧ SameMemory s t

/-- The accumulation of R322: with K = f.km1 + 1, weights and flags by column, and exponents of the column scales, the element of
each active row and each column becomes the exact sum, clamped to the accumulator's range; no other element changes; the shadow tile
holds the target as it stood (R316); the region becomes not replayable; ACCOV is set by a clamp, SCRNG by a scale byte out of range, and the reserved-code bits by the weights. -/
def MatrixResult (i : Instr) (f : FX) (s s1 : State) (cols : List (List Int × BitVec 6)) (scales : List (Int × Bool)) : Prop :=
  let m := fxMask f s.g
  let row (i : Nat) : Int × Bool := scaleExp (byteOf (s.g.vget f.vs i) f.bsel.toNat)
  let exact (i c : Nat) : Int := (s.g.aget f.ad i c).toInt +
    ((List.range (f.km1.toNat + 1)).map fun j => activation s.g f.va i j * (cols.getD c ([], 0)).1.getD j 0).sum *
      2 ^ ((row i).1 + (scales.getD c (0, false)).1 + 64).toNat
  let beyond (x : Int) : Prop := x < -2 ^ 127 ∨ 2 ^ 127 - 1 < x
  let g : Group := { s1.unreplayable.g with shadow := s1.g.r.a[f.ad.toNat]'f.ad.isLt }.aput f.ad m (fun _ => true) fun i c => BitVec.ofInt 128 (max (-2 ^ 127) (min (2 ^ 127 - 1) (exact i c)))
  ∃ q : BitVec 6,
    Runs i s (State.retire (State.orQ { s1.unreplayable with g := g } q)) ∧
    (q &&& qACCOV ≠ 0 ↔ ∃ i < 32, m.getLsbD i = true ∧ ∃ c < 16, beyond (exact i c)) ∧
    (q &&& qSCRNG ≠ 0 ↔ (∃ p ∈ scales, p.2 = true) ∨ ∃ i < 32, m.getLsbD i = true ∧ (row i).2 = true) ∧
    q &&& 7 = cols.foldl (fun x c => x ||| c.2) 0 &&& 7 ∧ q &&& qSAT = 0

/-- The next packet of a sequence, b, is of a kind and may start: it is read, nothing passes it over, it breaks no rule of R269
or R270, and, where its order asks for it, every older packet has completed (R267). s1 is the state that the reading leaves. -/
def State.Starts (s : State) (q : SeqRef) (kind : Nat) (b : List Byte) (s1 : State) : Prop :=
  s.mayRead q = true ∧ (s.nextPacket q).at s = (.ok b, s1) ∧ pkKind b = kind ∧ s1.passes q = false ∧ pkErr b = 0 ∧
  (pkOrd b = true ∨ 5 ≤ kind → s1.active q = [])

/-- A control instruction that stands last in its block transfers control to a target, and nothing else changes. -/
def Transfers (i : FB → Instr) (reads : FB → State → List Item) (target : FB → State → W64) : Prop :=
  ∀ f s, s.g.atLast = true → s.Clean (reads f s) → Runs (i f) s (s.goTo (target f s))

end Sys2Proof.Machine
end

