-- ==== Sys2Proof/WellFormed.lean ====
section
/-! DEFINITION. Well-formed instructions: every field has a value that the instruction's entry allows (R90). -/

namespace Sys2Proof

/-- Every field of the instruction's word has a value its entry allows (R90); an event is no word. -/
def WellFormed (i : Instr) : Bool := i.badField == none && !i.isEvent

end Sys2Proof
end

