-- ==== Sys2Proof/Certificates/Slice0/Obligations.lean ====
section
/-! DEFINITION. The statements about the machine. Each def is one claim; its docstring names the rules of the manual it
rests on. -/

open Sys2Proof Sys2Proof.Machine

/-! ## Fetching, decoding, encoding -/

/-- Whose move a step is, and what a group's move is: it enters a header, takes the cause of a failed fetch, takes ILLEGAL with
the low bit that the decoder names and the instruction's recorded mask, takes POISON for a marked predicate that names its lanes, or
runs the decoded instruction on the state that the fetch leaves; a started atomic goes on. While the device sleeps no group moves; requests
of system software are held, and of what comes by itself only what works asleep happens. Demand requests that stand behind a promoted
staging request are served before an access; with none promoted, the state is as the fetch left it. After the move nothing but the counter
of moves changes, unless memory was written, an alarm or a save is due, a twait waits, staging is queued, or the home slices hold more than
they must (R56, R57, R61, R91, R103, R185, R195, R298, R422, R448). The model's choices: logs 83, 84, 88, 89, 90. -/
def Obligations.StepRunsDecoded : Prop :=
  (∀ s, s.turns = [] → s.mg.pstate = 0 → step s = afterOut (runGroup s)) ∧
  (∀ s gid r, s.turns = .group gid :: r → s.mg.pstate = 0 → step s = afterOut (runGroup (State.focus { s with turns := r } gid))) ∧
  (∀ s gid r, s.turns = .group gid :: r → s.mg.pstate ≠ 0 → step s = afterOut (.next { s with turns := r })) ∧
  (∀ s i r, s.turns = .event i :: r → i.isEvent = true → let u : State := { s with turns := r }
    (s.mg.pstate = 0 → step s = afterOut (exec i (u.ahead i))) ∧
    (s.mg.pstate ≠ 0 → asksDevice i = true → step s = afterOut (.next { u with
      mg := { s.mg with leaving := true, held := s.mg.held ++ [.event i] } })) ∧
    (s.mg.pstate ≠ 0 → asksDevice i = false → worksAsleep s.mg.pstate.toNat i = true → step s = afterOut (exec i u)) ∧
    (s.mg.pstate ≠ 0 → asksDevice i = false → worksAsleep s.mg.pstate.toNat i = false → step s = afterOut (.next u))) ∧
  (∀ (s : State) i, (∀ q ∈ s.ls.staging, s.isPromoted q = false) → s.ahead i = s) ∧
  (∀ s : State, s.ms.wrote = [] → (∀ g ∈ s.groups, g.owes = none ∧ g.splitDue = false ∧ g.twait = none) → s.lk.due = [] → s.ls.staging = [] →
    s.ms.dirty.length + s.ms.stale.length + s.ms.pins.length ≤ 32768 → afterOut (.next s) = .next { s with moves := s.moves + 1 }) ∧
  (∀ s, s.g.gid ≠ 0 → (s.g.phase = .running ∨ s.g.phase = .parked) →
    (∀ a, s.g.atomic = some a → runGroup s = exec a.i (s.ahead a.i)) ∧
    (s.g.atomic = none → s.g.entering = true → runGroup s = .next (enterBlock s)) ∧
    (s.g.atomic = none → s.g.entering = false →
      (∀ t s1, s.fetchWord s.g.pc = .bad t s1 → runGroup s = .next (takeTrap t s1)) ∧
      (∀ w s1 bit, s.fetchWord s.g.pc = .ok s1 w → decode w = .error bit →
        runGroup s = .next (takeTrap { cause := cILLEGAL, elanes := recordedMask s1.g w, einfo := BitVec.ofNat 64 bit } s1)) ∧
      (∀ w s1 i, s.fetchWord s.g.pc = .ok s1 w → decode w = .ok i →
        (s1.Clean (pitem (predOf w)) → runGroup s = exec i (s1.ahead i)) ∧
        (¬ s1.Clean (pitem (predOf w)) →
          runGroup s = .next (takeTrap { cause := cPOISON, elanes := if isMatrix w then recordedMask s1.g w else 0, einfo := 2 } s1)))))

/-- Words that the manual prints decode to the instructions it prints them for (chapters 4 to 9, 11, 12, 15, 20, 23, 25); and a word
whose major opcode no table assigns, or 0xFF, fails at the opcode, bit 56, whatever its other bits (R81 to R91). -/
def Obligations.PrintedWords : Prop :=
  (decode 0x041400789ABCDEF0 = .ok (.sli { d := 5, a := 0, fn := 0, imm := 0x789ABCDEF0 }) ∧
   decode 0x011050007A106000 = .ok (.sbfx { d := 4, a := 5, b := 0, c := 0, ty := 7, fn := 10, sat := 0, f1 := 8, f2 := 12, rsv := 0 }) ∧
   decode 0x18001000FFFFFFFD = .ok (.mloop { hint := 0, s := 0, p := 1, pneg := 0, cond := 0, rsv := 0, off := -3 }) ∧
   decode 0x3D00301018300800 = .ok (.vdot4 { pred := 0, pneg := 0, d := 6, a := 2, b := 3, c := 6, ty := 0, rnd := 0, sat := 1, md := 0, sub := 0 }) ∧
   decode 0x60004085A1000010 = .ok (.ld { pred := 0, d := 4, sb := 2, vx := 5, scale := 2, width := 2, scope := 1, cache := 0, off := 16 }) ∧
   decode 0x700060C7A7400000 = .ok (.atom { pred := 0, d := 6, sb := 3, vx := 7, scale := 2, width := 2, scope := 7, ord := 1, aop := 0, off := 0 }) ∧
   decode 0x860040C506600000 = .ok (.tldc { pred := 0, d := 4, h := 3, i := 5, j := 6, ty := 6, mode := 0, lvl := 0, b := 0, imm := 0 }) ∧
   decode 0xBA24700000000000 = .ok (.join { d := 9, a := 7, b := 0, scope := 0, fn := 0, cls1 := 0, cls2 := 0, ord := 0, imm := 0 }) ∧
   decode 0xB200602100000000 = .ok (.rproj { pred := 0, vd := 6, va := 2, sa := 4, sb := 0, mode := 0, imm := 0 }) ∧
   decode 0xC500000000000001 = .ok (.fwcallXz { d := 0, a := 0, b := 0, scope := 0, fn := 0, cls1 := 0, cls2 := 0, ord := 0, imm := 1 }) ∧
   decode 0x8D00A34B00006000 = .ok (.lput { pred := 0, d := 10, h := 13, i := 11, j := 0, ty := 0, mode := 0, lvl := 0, b := 12, imm := 0 })) ∧
  (∀ w : W64, (∃ r ∈ [(0x07, 0x0F), (0x1D, 0x1F), (0x6A, 0x6F), (0x73, 0x77), (0x8F, 0x8F), (0x96, 0x9F), (0xA7, 0xAF), (0xB3, 0xB7), (0xC6, 0xFF)],
       r.1 ≤ (w.extractLsb' 56 8).toNat ∧ (w.extractLsb' 56 8).toNat ≤ r.2) →
     decode w = .error 56)

/-- Encoding a well-formed instruction and decoding the word gives the instruction back, with every operand at every value its
entry admits (R56, R71 to R90). -/
def Obligations.DecodeOfEncode : Prop := ∀ i, WellFormed i = true → decode (encode i) = .ok i

/-- A word that decodes is the encoding of what it decodes to, which is well-formed: no bit is passed over (R70, R90). -/
def Obligations.EncodeOfDecode : Prop := ∀ w i, decode w = .ok i → encode i = w ∧ WellFormed i = true

/-! ## Reset, invariants, the whole machine -/

/-- What the manual gives the machine at a cold reset: T_hot is 95, the alarm policy 1, no alarm, no latency tolerance, power
state 0, BOOT 0 (R442); every context is Free (R403); by the model's choice (log 6) no partition is bound, no queue is there and every port
is Down, and the group that stands in the turn has a group's fresh state:
every register is 0, the mask is full, the stack is empty, and flags, enables, phase and trap registers are 0 (R95, R416). -/
def Obligations.ResetState : Prop :=
  core.reset = State.reset ∧
  State.reset.mg.thot = 95 ∧ State.reset.mg.alpol = 1 ∧ State.reset.mg.alarm = 0 ∧ State.reset.mg.ltol = 0 ∧
  State.reset.mg.pstate = 0 ∧ State.reset.mg.boot = 0 ∧
  State.reset.cx.parts = [] ∧ State.reset.cx.ctxs = [] ∧ State.reset.qs.queues = [] ∧
  (∀ p : Fin 36, State.reset.lk.ports[p] = .down) ∧
  (∀ n, State.reset.g.sget n = 0) ∧ (∀ n i, State.reset.g.vget n i = 0) ∧ (∀ n, n ≠ 0 → State.reset.g.pget n = 0) ∧
  State.reset.g.r.mask = 0xFFFFFFFF ∧ State.reset.g.r.stack = [] ∧ State.reset.g.r.pend = none ∧
  State.reset.g.r.fflags = 0 ∧ State.reset.g.r.fenable = 0 ∧ State.reset.g.r.qflags = 0 ∧ State.reset.g.r.dphase = 0 ∧
  State.reset.g.r.tvec = 0 ∧ State.reset.g.r.trap = { } ∧ State.reset.g.hmode = false

/-- Memory at reset has the canonical form. -/
def Obligations.ResetMemoryWf : Prop := State.reset.MemoryWf

/-- Every step keeps the canonical form of memory, whatever instruction or event it runs. -/
def Obligations.StepKeepsMemoryWf : Prop := ∀ s t, s.MemoryWf → step s = .next t → t.MemoryWf

/-- No step stops the machine: every cause is taken as the manual says, and an event that does not apply changes nothing (R6,
R96, R103). -/
def Obligations.StepAlwaysGoesOn : Prop := ∀ s, ∃ t, step s = .next t

/-! ## Causes and returns -/

/-- A cause that goes to system software, as every cause of handler mode does: the five trap registers
hold the cause, the address of the instruction that raised it, the lanes, the address and the detail; in handler mode they stand in the
hidden copy first; the group is Faulted at the same program counter and, by the model's reading (log 74), its region has ended; its other
registers, its mask state, its store queue and every byte of memory are unchanged. A PAGE enters its pages, up to 32, in fault records: the
record that the context has for the page is joined, or one is made at the level where the walk stopped; when the die has no room for those
that it needs (in one go: the model's choice, log 19), the group waits, parked, with nothing else changed (R103, R394, R414, R419,
R420). -/
def Obligations.SystemCauseTaken : Prop :=
  ∀ (t : Trap) (s : State), t.epc = none →
    let pages := t.pages.take 32
    let room := s.recordRoom (coreDie s.g.core) s.g.ctx pages
    let regs : TrapRegs := { tcause := t.cause, epc := s.g.pc, elanes := t.elanes, eaddr := t.eaddr, einfo := t.einfo }
    let u := takeTrap t s
    (t.cause = cPAGE → room = false → u = { s with g := { s.g with phase := .parked, noRecord := some regs } }) ∧
    (s.g.hmode = true ∨ userCause t.cause = false → (t.cause = cPAGE → room = true) →
      u.g.phase = .faulted ∧ u.g.pc = s.g.pc ∧ u.g.r = { s.g.r with trap := regs } ∧ u.g.hmode = s.g.hmode ∧
      u.g.hidden = (if s.g.hmode then some (s.g.r.trap, s.g.intr) else none) ∧
      u.g.seq = s.g.seq + 1 ∧ u.ms.mem = s.ms.mem ∧ u.others = s.others ∧ u.g.storeQ = s.g.storeQ ∧
      (pages = [] → u.cx.recs = s.cx.recs ∧ u.cx.notices = s.cx.notices ++ [.cause s.g.gid t.cause]) ∧
      (∀ p ∈ pages, ∃ x ∈ u.cx.recs, x.ctx = s.g.ctx ∧ x.page = p.1 ∧ Requester.group s.g.gid ∈ x.reqs ∧ x.id ∈ u.g.records) ∧
      (∀ p ∈ pages, pages.find? (fun q => q.1 = p.1) = some p → (∀ x ∈ s.cx.recs, x.ctx = s.g.ctx → x.page ≠ p.1) →
        ∃ x ∈ u.cx.recs, x.ctx = s.g.ctx ∧ x.page = p.1 ∧ x.level = p.2 ∧ x.die = coreDie s.g.core) ∧
      (∀ x ∈ s.cx.recs, ∃ y ∈ u.cx.recs, y.id = x.id ∧ y.ctx = x.ctx ∧ y.page = x.page ∧ y.level = x.level ∧ y.die = x.die ∧ x.reqs <+: y.reqs))

/-- A user-delivered cause outside handler mode, with a handler whose header passes its checks, enters the handler: the trap
registers are written, HMODE is 1, the entry depth is the stack's, EPCW is 0, the program counter is sys.tvec, entered as a
header, any idempotent region is closed and the region number goes up by one; general registers are unchanged (R103, R417). -/
def Obligations.UserCauseEntersHandler : Prop :=
  ∀ (t : Trap) (s : State), s.g.hmode = false → userCause t.cause = true → t.epc = none →
    (State.writeTrap { s with g := s.g.restart } t).handlerReady.1 = true →
    let u := takeTrap t s
    u.g.hmode = true ∧ u.g.pc = s.g.r.tvec.setWidth 64 ∧ u.g.entering = true ∧ u.g.epcw = false ∧
    u.g.entryDepth = s.g.r.stack.length ∧ u.g.idem = none ∧ u.g.relBuf = [] ∧ u.g.seq = s.g.seq + 1 ∧ u.g.phase = .running ∧
    u.g.r = { s.g.r with trap := { tcause := t.cause, epc := s.g.pc, elanes := t.elanes, eaddr := t.eaddr, einfo := t.einfo } }

/-- tret and tret.skip at handler-entry depth, last in their block, leave handler mode and end the region. When mts wrote
sys.epc, control goes to it as a header; otherwise, for a cause raised at a header, tret goes to sys.epc and tret.skip to the word after
it, as headers; for any other cause, tret goes to the instruction at sys.epc and tret.skip to the word after it, as a header when that is
past its block. General registers are unchanged. Outside handler
mode they raise PRIV with code 2, and at another depth MASKOVF with code 3 (R427). -/
def Obligations.HandlerReturns : Prop :=
  (∀ f s, s.g.atLast = true → s.g.hmode = true → s.g.r.stack.length = s.g.entryDepth → s.g.epcw = true →
    ∀ i ∈ [Instr.tret f, Instr.tretSkip f], ∃ t : State, Runs i s t ∧ t.g.hmode = false ∧ t.g.pc = s.g.r.trap.epc ∧ t.g.entering = true ∧
      t.g.seq = s.g.seq + 1 ∧ t.g.r.s = s.g.r.s ∧ t.g.r.v = s.g.r.v ∧ t.g.r.p = s.g.r.p ∧ t.g.r.z = s.g.r.z ∧ t.g.r.mask = s.g.r.mask) ∧
  (∀ f s, s.g.atLast = true → s.g.hmode = true → s.g.r.stack.length = s.g.entryDepth → s.g.epcw = false → s.g.intr.hdr = true →
    ∀ i ∈ [(Instr.tret f, s.g.r.trap.epc), (.tretSkip f, s.g.r.trap.epc + 8)], ∃ t : State, Runs i.1 s t ∧ t.g.hmode = false ∧ t.g.pc = i.2 ∧
      t.g.entering = true ∧ t.g.seq = s.g.seq + 1 ∧ t.g.r.s = s.g.r.s ∧ t.g.r.v = s.g.r.v ∧ t.g.r.p = s.g.r.p ∧ t.g.r.z = s.g.r.z ∧
      t.g.r.mask = s.g.r.mask) ∧
  (∀ f s, s.g.atLast = true → s.g.hmode = true → s.g.r.stack.length = s.g.entryDepth → s.g.epcw = false → s.g.intr.hdr = false →
    (∃ t : State, Runs (.tret f) s t ∧ t.g.hmode = false ∧ t.g.pc = s.g.r.trap.epc ∧
      (s.g.r.trap.epc ≠ s.g.intr.blkEnd → t.g.entering = false ∧ t.g.blkEnd = s.g.intr.blkEnd) ∧ t.g.seq = s.g.seq + 1 ∧
      t.g.r.s = s.g.r.s ∧ t.g.r.v = s.g.r.v ∧ t.g.r.p = s.g.r.p ∧ t.g.r.z = s.g.r.z ∧ t.g.r.mask = s.g.r.mask) ∧
    (∃ t : State, Runs (.tretSkip f) s t ∧ t.g.hmode = false ∧ t.g.pc = s.g.r.trap.epc + 8 ∧
      (s.g.r.trap.epc + 8 = s.g.intr.blkEnd → t.g.entering = true) ∧ (s.g.r.trap.epc + 8 ≠ s.g.intr.blkEnd → t.g.entering = false) ∧
      t.g.seq = s.g.seq + 1 ∧ t.g.r.s = s.g.r.s ∧ t.g.r.v = s.g.r.v ∧ t.g.r.p = s.g.r.p ∧ t.g.r.z = s.g.r.z ∧ t.g.r.mask = s.g.r.mask)) ∧
  (∀ f s, s.g.atLast = true → ∀ i ∈ [Instr.tret f, Instr.tretSkip f],
    (s.g.hmode = false → Runs i s (takeTrap { cause := cPRIV, einfo := 2 } s)) ∧
    (s.g.hmode = true → s.g.r.stack.length ≠ s.g.entryDepth → Runs i s (takeTrap { cause := cMASKOVF, einfo := 3 } s)))

/-! ## Registers -/

/-- What the register writes of every result statement do: a written scalar register reads as written, s0 reads 0 whatever is
written, no other register changes, and in handler mode numbers 56 to 63 name z0 to z7, apart from s56 to s63; a predicate
likewise, with p0 reading all ones; a vector write changes exactly the lanes of its mask. A write changes only the register files and
poison marks, never memory, flags, the mask state, the trap registers or the program counter; retiring changes only the program
counter, the block entry, the phase, what the slot holds of an instruction that waits and, past the block's last word, the pending point
(R57, R64, R66, R98, R131, R418). -/
def Obligations.RegisterWrites : Prop :=
  ((∀ (s : State) n x, n ≠ 0 → (s.setS n x).g.sget n = x) ∧
   (∀ (s : State) n x, s.g.sget 0 = 0 ∧ s.setS 0 x = s ∧ (n ≠ 0 → (s.setS n x).g.sget 0 = 0)) ∧
   (∀ (s : State) n m x, m ≠ n → (s.setS n x).g.sget m = s.g.sget m) ∧
   (∀ (s : State) n x, s.g.hmode = true → 56 ≤ n.toNat → (s.setS n x).g.r.s = s.g.r.s) ∧
   (∀ (s : State) n x, s.g.hmode = false → (s.setS n x).g.r.z = s.g.r.z) ∧
   (∀ (s : State) n x, n ≠ 0 → (s.setP n x).g.pget n = x) ∧
   (∀ (s : State) x, s.setP 0 x = s ∧ s.g.pget 0 = 0xFFFFFFFF) ∧
   (∀ (s : State) n m x, m ≠ n → (s.setP n x).g.pget m = s.g.pget m) ∧
   (∀ (s : State) n m val, ∀ i < 32, (s.setV false n m val).g.vget n i = if m.getLsbD i then BitVec.ofNat 32 (val i) else s.g.vget n i) ∧
   (∀ (s : State) n n' m val i, n' ≠ n → (s.setV false n m val).g.vget n' i = s.g.vget n' i) ∧
   (∀ (s : State) n m val, n.toNat % 2 = 0 → ∀ i < 32,
     (s.setV true n m val).g.vpair n i = if m.getLsbD i then BitVec.ofNat 64 (val i) else s.g.vpair n i) ∧
   (∀ (s : State) n m val n' i, n.toNat % 2 = 0 → n' ≠ n → n' ≠ n + 1 → (s.setV true n m val).g.vget n' i = s.g.vget n' i)) ∧
  ((∀ (s : State) n x, ∃ a z p, s.setS n x = { s with g := { s.g with r := { s.g.r with s := a, z := z, poison := p } } }) ∧
   (∀ (s : State) n x, ∃ p q, s.setP n x = { s with g := { s.g with r := { s.g.r with p := p, poison := q } } }) ∧
   (∀ (s : State) w n m val, ∃ v zv p, s.setV w n m val = { s with g := { s.g with r := { s.g.r with v := v, zv := zv, poison := p } } }) ∧
   (∀ s : State, s.g.pc + 8 ≠ s.g.blkEnd →
     s.retire = { s with g := { s.g.restart with pc := s.g.pc + 8, phase := s.g.phase.go } }) ∧
   (∀ s : State, s.g.pc + 8 = s.g.blkEnd →
     s.retire = { s with g := { s.g.restart with pc := s.g.pc + 8, entering := true, xferFrom := s.g.pc, phase := s.g.phase.go, r := { s.g.r with pend := none } } }) ∧
   (∀ g : Group, g.restart = { g with begun := false, waits := none, twait := none, awaits := none, noRecord := none, watchOff := false }))

/-! ## Scalar instructions -/

/-- The exact results of sadd, ssub, smul and sabs, wrapped, or clamped under .sat (R112, R113). -/
def Obligations.ScalarSaturating : Prop :=
  SaturatingResult .sadd (fun f => [f.a, f.b]) (fun f s => sval f.ty (s.g.sget f.a) + sval f.ty (s.g.sget f.b)) ∧
  SaturatingResult .ssub (fun f => [f.a, f.b]) (fun f s => sval f.ty (s.g.sget f.a) - sval f.ty (s.g.sget f.b)) ∧
  SaturatingResult .smul (fun f => [f.a, f.b]) (fun f s => sval f.ty (s.g.sget f.a) * sval f.ty (s.g.sget f.b)) ∧
  SaturatingResult .sabs (fun f => [f.a]) (fun f s => |sval f.ty (s.g.sget f.a)|)

/-- The results of the other S3 arithmetic instructions, and of the logic, shift, count, field, select and compare
instructions (R112, R113). -/
def Obligations.ScalarResults : Prop :=
  ScalarResult .smulh (fun f => [f.a, f.b]) (fun f s => w64 ((sval f.ty (s.g.sget f.a) * sval f.ty (s.g.sget f.b)).fdiv (2 ^ 64))) ∧
  ScalarResult .smin (fun f => [f.a, f.b]) (fun f s => if sval f.ty (s.g.sget f.a) ≤ sval f.ty (s.g.sget f.b) then s.g.sget f.a else s.g.sget f.b) ∧
  ScalarResult .smax (fun f => [f.a, f.b]) (fun f s => if sval f.ty (s.g.sget f.a) ≤ sval f.ty (s.g.sget f.b) then s.g.sget f.b else s.g.sget f.a) ∧
  ScalarResult .slea (fun f => [f.a, f.b]) (fun f s => BitVec.ofNat 64 ((s.g.sget f.a).toNat + (s.g.sget f.b).toNat * 2 ^ f.f1.toNat)) ∧
  ScalarResult .sand (fun f => [f.a, f.b]) (fun f s => s.g.sget f.a &&& s.g.sget f.b) ∧
  ScalarResult .sor (fun f => [f.a, f.b]) (fun f s => s.g.sget f.a ||| s.g.sget f.b) ∧
  ScalarResult .sxor (fun f => [f.a, f.b]) (fun f s => s.g.sget f.a ^^^ s.g.sget f.b) ∧
  ScalarResult .sandn (fun f => [f.a, f.b]) (fun f s => s.g.sget f.a &&& ~~~ s.g.sget f.b) ∧
  ScalarResult .sshl (fun f => [f.a, f.b]) (fun f s => BitVec.ofNat 64 ((s.g.sget f.a).toNat * 2 ^ ((s.g.sget f.b).toNat % 64))) ∧
  ScalarResult .sshr (fun f => [f.a, f.b]) (fun f s => BitVec.ofNat 64 ((s.g.sget f.a).toNat / 2 ^ ((s.g.sget f.b).toNat % 64))) ∧
  ScalarResult .ssra (fun f => [f.a, f.b]) (fun f s => w64 ((s.g.sget f.a).toInt.fdiv (2 ^ ((s.g.sget f.b).toNat % 64)))) ∧
  ScalarResult .srot (fun f => [f.a, f.b]) (fun f s => (s.g.sget f.a).rotateLeft ((s.g.sget f.b).toNat % 64)) ∧
  ScalarResult .sclz (fun f => [f.a]) (fun f s => BitVec.ofNat 64 (if s.g.sget f.a = 0 then 64 else 63 - Nat.log2 (s.g.sget f.a).toNat)) ∧
  ScalarResult .spop (fun f => [f.a]) (fun f s => BitVec.ofNat 64 (((List.range 64).filter fun k => (s.g.sget f.a).getLsbD k).length)) ∧
  ScalarResult .smov (fun f => [f.a]) (fun f s => s.g.sget f.a) ∧
  ScalarResult .ssel (fun f => [f.a, f.b, f.c]) (fun f s => if s.g.sget f.c ≠ 0 then s.g.sget f.a else s.g.sget f.b) ∧
  ScalarResult .scmp (fun f => [f.a, f.b]) (fun f s =>
    let a := sval f.ty (s.g.sget f.a)
    let b := sval f.ty (s.g.sget f.b)
    if (f.fn = 0 ∧ a = b) ∨ (f.fn = 1 ∧ a ≠ b) ∨ (f.fn = 2 ∧ a < b) ∨ (f.fn = 3 ∧ a ≤ b) ∨ (f.fn = 4 ∧ a > b) ∨ (5 ≤ f.fn.toNat ∧ a ≥ b) then 1 else 0)

/-- sbfx and sbfi on a field that fits, bit by bit: L is F2, or 64 when F2 is 0. sdiv and srem: truncating quotient and remainder; with
divisor 0, all ones and the dividend, and DZ is set, or FPEXC is raised with nothing written when DZ is enabled (R27, R113,
R117). -/
def Obligations.ScalarFields : Prop :=
  ((∀ f s, let len := if f.f2 = 0 then 64 else f.f2.toNat
     f.f1.toNat + len ≤ 64 → s.Clean [s.g.sitem f.a] →
     ∃ x, Runs (.sbfx f) s (s.setS f.d x).retire ∧
       ∀ k < 64, x.getLsbD k = if k < len then (s.g.sget f.a).getLsbD (f.f1.toNat + k)
         else (f.ty == 3 && (s.g.sget f.a).getLsbD (f.f1.toNat + len - 1))) ∧
   (∀ f s, let len := if f.f2 = 0 then 64 else f.f2.toNat
     f.f1.toNat + len ≤ 64 → s.Clean [s.g.sitem f.a, s.g.sitem f.b] →
     ∃ x, Runs (.sbfi f) s (s.setS f.d x).retire ∧
       ∀ k < 64, x.getLsbD k = if f.f1.toNat ≤ k ∧ k < f.f1.toNat + len then (s.g.sget f.a).getLsbD (k - f.f1.toNat)
         else (s.g.sget f.b).getLsbD k)) ∧
  (∀ f s, s.Clean [s.g.sitem f.a, s.g.sitem f.b] →
     (s.g.sget f.b ≠ 0 →
       Runs (.sdiv f) s (s.setS f.d (w64 ((sval f.ty (s.g.sget f.a)).tdiv (sval f.ty (s.g.sget f.b))))).retire ∧
       Runs (.srem f) s (s.setS f.d (w64 ((sval f.ty (s.g.sget f.a)).tmod (sval f.ty (s.g.sget f.b))))).retire) ∧
     (s.g.sget f.b = 0 → s.g.r.fenable &&& fDZ = 0 →
       Runs (.sdiv f) s ((s.setS f.d 0xFFFFFFFFFFFFFFFF).orF fDZ).retire ∧
       Runs (.srem f) s ((s.setS f.d (s.g.sget f.a)).orF fDZ).retire) ∧
     (s.g.sget f.b = 0 → s.g.r.fenable &&& fDZ ≠ 0 →
       Runs (.sdiv f) s (takeTrap { cause := cFPEXC, einfo := 8 } s) ∧ Runs (.srem f) s (takeTrap { cause := cFPEXC, einfo := 8 } s)))

/-- The results of the SI forms, from S[A] and the sign-extended immediate (R115, R116). -/
def Obligations.ScalarImmediates : Prop :=
  ImmediateResult .saddImm (fun f s => s.g.sget f.a + f.imm.signExtend 64) ∧
  ImmediateResult .smulImm (fun f s => s.g.sget f.a * f.imm.signExtend 64) ∧
  ImmediateResult .sminImm (fun f s => if (s.g.sget f.a).toInt ≤ f.imm.toInt then s.g.sget f.a else f.imm.signExtend 64) ∧
  ImmediateResult .smaxImm (fun f s => if (s.g.sget f.a).toInt ≤ f.imm.toInt then f.imm.signExtend 64 else s.g.sget f.a) ∧
  ImmediateResult .sandImm (fun f s => s.g.sget f.a &&& f.imm.signExtend 64) ∧
  ImmediateResult .sorImm (fun f s => s.g.sget f.a ||| f.imm.signExtend 64) ∧
  ImmediateResult .sxorImm (fun f s => s.g.sget f.a ^^^ f.imm.signExtend 64) ∧
  ImmediateResult .sshlImm (fun f s => s.g.sget f.a <<< f.imm.toNat) ∧
  ImmediateResult .sshrImm (fun f s => s.g.sget f.a >>> f.imm.toNat) ∧
  ImmediateResult .ssraImm (fun f s => (s.g.sget f.a).sshiftRight f.imm.toNat) ∧
  ImmediateResult .srotImm (fun f s => (s.g.sget f.a).rotateLeft f.imm.toNat) ∧
  (∀ f s, Runs (.sli f) s (s.setS f.d (f.imm.signExtend 64)).retire) ∧
  ImmediateResult .slih (fun f s => BitVec.ofNat 64 ((s.g.sget f.a).toNat % 2 ^ 40 + f.imm.toNat % 2 ^ 24 * 2 ^ 40)) ∧
  ImmediateResult .scmpImm (fun f s =>
    let a := (s.g.sget f.a).toInt
    let b := f.imm.toInt
    if (f.fn = 0 ∧ a = b) ∨ (f.fn = 1 ∧ a ≠ b) ∨ (f.fn = 2 ∧ a < b) ∨ (f.fn = 3 ∧ a ≤ b) ∨ (f.fn = 4 ∧ a > b) ∨ (5 ≤ f.fn.toNat ∧ a ≥ b) then 1 else 0)

/-! ## Control -/

/-- br, brc, brm, call and ret, last in their block, go where their entries say; call writes its link register and nothing else
changes; a called routine keeps its caller's mask and stack. Every transfer that is not the last word of its block raises ILLEGAL. jt
loads the eight bytes at S[N] + 8·sext(OFF32), as the group's own loads see them, and transfers control to that address (R59,
R118 to R124). -/
def Obligations.Branches : Prop :=
  (Transfers .br (fun _ _ => []) (fun f s => s.g.pc + 8 * f.off.signExtend 64) ∧
   Transfers .brc (fun f s => [s.g.sitem f.s]) (fun f s =>
     let x := (s.g.sget f.s).toInt
     if (f.cond = 0 ∧ x = 0) ∨ (f.cond = 1 ∧ x ≠ 0) ∨ (f.cond = 2 ∧ x < 0) ∨ (f.cond = 3 ∧ x ≥ 0) ∨ (f.cond = 4 ∧ x > 0) ∨ (5 ≤ f.cond.toNat ∧ x ≤ 0)
     then s.g.pc + 8 * f.off.signExtend 64 else s.g.pc + 8) ∧
   Transfers .brm (fun f _ => pitem f.p) (fun f s =>
     let c := if f.pneg = 1 then ~~~ s.g.pget f.p else s.g.pget f.p
     let t := c &&& s.g.r.mask
     if (f.cond = 0 ∧ t ≠ 0) ∨ (f.cond = 1 ∧ t = s.g.r.mask) ∨ (f.cond = 2 ∧ t = 0) ∨ (3 ≤ f.cond.toNat ∧ t ≠ s.g.r.mask)
     then s.g.pc + 8 * f.off.signExtend 64 else s.g.pc + 8) ∧
   Transfers .ret (fun f s => [s.g.sitem f.s]) (fun f s => s.g.sget f.s) ∧
   (∀ f s, s.g.atLast = true → Runs (.call f) s ((s.setS f.s (s.g.pc + 8)).goTo (s.g.pc + 8 * f.off.signExtend 64)))) ∧
  (∀ (f : FB) (g : FY) (s : State), s.g.atLast = false →
     ∀ i ∈ [Instr.br f, .brc f, .brm f, .call f, .ret f, .jt f, .mloop f, .exit f, .tret g, .tretSkip g],
       ∃ e : W64, Runs i s (takeTrap { cause := cILLEGAL, einfo := e } s)) ∧
  (∀ f s s1 i va l rest, s.g.atLast = true → s.Clean [s.g.sitem f.s] →
     s.Passes (.load 8) true false [(0, ((s.g.sget f.s).toNat : Int) + 8 * f.off.toInt)] s1 ((i, va, l) :: rest) →
     ∃ t : State, Runs (.jt f) s t ∧ t.g.pc = BitVec.ofNat 64 (leNat (s1.ownBytes l.key 8)) ∧ t.g.entering = true ∧
       t.g.r = { s1.g.r with pend := none } ∧ SameMemory s1 t)

/-- The mask stack: mif pushes an IF frame with the mask, the pending point and its own address and narrows the mask; melse
takes the frame's other lanes; mend restores the frame's mask and pops it; a full or empty stack, or a LOOP frame at melse,
raises MASKOVF with its code. mloop, last in its block: on its first pass it pushes a LOOP frame with the mask, the pending point
or else the fall-through address, and its own address; then the mask is narrowed, the pending point goes, and control goes back
while a lane remains and falls through otherwise; a full stack raises MASKOVF with code 0 (R106, R125 to R128). -/
def Obligations.MaskStack : Prop :=
  (∀ (f : FB) (s : State),
     let c := if f.pneg = 1 then ~~~ s.g.pget f.p else s.g.pget f.p
     (s.g.r.stack.length < 32 → s.Clean (pitem f.p) → Runs (.mif f) s (s.setMask
       ({ m := s.g.r.mask, kind := .ifFrame, point := s.g.r.pend, origin := s.g.pc } :: s.g.r.stack) (s.g.r.mask &&& c) none).retire) ∧
     (32 ≤ s.g.r.stack.length → s.Clean (pitem f.p) → Runs (.mif f) s (takeTrap { cause := cMASKOVF, einfo := 0 } s)) ∧
     (s.g.r.stack = [] → Runs (.melse f) s (takeTrap { cause := cMASKOVF, einfo := 1 } s) ∧ Runs (.mend f) s (takeTrap { cause := cMASKOVF, einfo := 1 } s)) ∧
     (∀ t r, s.g.r.stack = t :: r →
       Runs (.mend f) s (s.setMask r t.m s.g.r.pend).retire ∧
       (t.kind = .ifFrame → Runs (.melse f) s (s.setMask (t :: r) (t.m &&& ~~~ s.g.r.mask) s.g.r.pend).retire) ∧
       (t.kind = .loopFrame → Runs (.melse f) s (takeTrap { cause := cMASKOVF, einfo := 2 } s)))) ∧
  (∀ (f : FB) (s : State), s.g.atLast = true → s.Clean (pitem f.p) →
     let c := if f.pneg = 1 then ~~~ s.g.pget f.p else s.g.pget f.p
     let m := s.g.r.mask &&& c
     let target := if m ≠ 0 then s.g.pc + 8 * f.off.signExtend 64 else s.g.pc + 8
     ((∃ t r, s.g.r.stack = t :: r ∧ t.kind = .loopFrame ∧ t.origin = s.g.pc) → Runs (.mloop f) s ((s.setMask s.g.r.stack m none).goTo target)) ∧
     ((¬ ∃ t r, s.g.r.stack = t :: r ∧ t.kind = .loopFrame ∧ t.origin = s.g.pc) →
       (s.g.r.stack.length < 32 → Runs (.mloop f) s ((s.setMask
         ({ m := s.g.r.mask, kind := .loopFrame, point := some (s.g.r.pend.getD (s.g.pc + 8)), origin := s.g.pc } :: s.g.r.stack) m none).goTo target)) ∧
       (32 ≤ s.g.r.stack.length → Runs (.mloop f) s (takeTrap { cause := cMASKOVF, einfo := 0 } s))))

/-- nop changes nothing but the program counter; yield ranks its slot last in issue selection, until the expiry event ends
that (R130). -/
def Obligations.YieldAndNop : Prop :=
  (∀ f s, Runs (.nop f) s s.retire) ∧
  (∀ f s, Runs (.yield f) s ({ s with g := { s.g with yielded := true } } : State).retire) ∧
  (∀ s : State, s.g.phase.holdsSlot = true → s.g.gid ≠ 0 →
    Runs (.yieldExpiry s.g.core s.g.slot) s { s with g := { s.g with yielded := false } })

/-! ## Vector instructions -/

/-- The integer element instructions, with .sat where they accept it (R132, R133, R136, R137). -/
def Obligations.VectorIntegers : Prop :=
  ElementResult .vadd (fun f => [f.a, f.b]) (fun _ a b _ => a + b) ∧
  ElementResult .vsub (fun f => [f.a, f.b]) (fun _ a b _ => a - b) ∧
  ElementResult .vmul (fun f => [f.a, f.b]) (fun _ a b _ => a * b) ∧
  ElementResult .vmulh (fun f => [f.a, f.b]) (fun f a b _ => (a * b).fdiv (2 ^ tyBits f.ty)) ∧
  ElementResult .vmad (fun f => [f.a, f.b, f.c]) (fun _ a b c => a * b + c) ∧
  ElementResult .vmin (fun f => [f.a, f.b]) (fun _ a b _ => if a ≤ b then a else b) ∧
  ElementResult .vmax (fun f => [f.a, f.b]) (fun _ a b _ => if a ≤ b then b else a) ∧
  ElementResult .vabs (fun f => [f.a]) (fun _ a _ _ => |a|) ∧
  ElementResult .vneg (fun f => [f.a]) (fun _ a _ _ => -a)

/-- The logic, shift and bit instructions on elements (R132, R136). -/
def Obligations.VectorBits : Prop :=
  BitsResult .vand (fun f => [f.a, f.b]) (fun _ a b => a &&& b) ∧
  BitsResult .vor (fun f => [f.a, f.b]) (fun _ a b => a ||| b) ∧
  BitsResult .vxor (fun f => [f.a, f.b]) (fun _ a b => a ^^^ b) ∧
  BitsResult .vandn (fun f => [f.a, f.b]) (fun w a b => a &&& (2 ^ w - 1 - b)) ∧
  BitsResult .vnot (fun f => [f.a]) (fun w a _ => 2 ^ w - 1 - a) ∧
  BitsResult .vshl (fun f => [f.a, f.b]) (fun w a b => a * 2 ^ (b % w) % 2 ^ w) ∧
  BitsResult .vshr (fun f => [f.a, f.b]) (fun w a b => a / 2 ^ (b % w)) ∧
  BitsResult .vsra (fun f => [f.a, f.b]) (fun w a b =>
    a / 2 ^ (b % w) + if a < 2 ^ (w - 1) then 0 else 2 ^ w - 2 ^ (w - b % w)) ∧
  BitsResult .vclz (fun f => [f.a]) (fun w a _ => if a = 0 then w else w - 1 - Nat.log2 a) ∧
  BitsResult .vpop (fun f => [f.a]) (fun w a _ => ((List.range w).filter fun k => a.testBit k).length) ∧
  BitsResult .vbrev (fun f => [f.a]) (fun w a _ => ((List.range w).map fun k => if a.testBit k then 2 ^ (w - 1 - k) else 0).sum)

/-- vdiv and vrem on 32-bit elements: truncating, a zero divisor giving all ones and the dividend and the exception DZ of its
lane, which sets DZ when it is not enabled, and raises FPEXC naming those lanes, with nothing written, when it is. vsad and
vdot4: the four byte terms are added to the 32-bit accumulator; vsad wraps, and vdot4 under .sat clamps and sets SAT (R27, R133,
R137, R138). -/
def Obligations.VectorDivision : Prop :=
  (∀ f s, tyW f.ty = true → v3mask f s.g ≠ 0 → s.Clean (vectorSources f s [f.a, f.b]) →
     let a (k : Nat) : Int := elemInt f.ty (s.g.vget f.a k).toNat
     let b (k : Nat) : Int := elemInt f.ty (s.g.vget f.b k).toNat
     let zeros := maskOf fun k => (v3mask f s.g).getLsbD k && s.g.vget f.b k == 0
     (zeros = 0 ∨ s.g.r.fenable &&& fDZ = 0 →
       ∃ q r : Nat → Nat,
         Runs (.vdiv f) s ((s.setV false f.d (v3mask f s.g) q).orF (if zeros = 0 then 0 else fDZ)).retire ∧
         Runs (.vrem f) s ((s.setV false f.d (v3mask f s.g) r).orF (if zeros = 0 then 0 else fDZ)).retire ∧
         ∀ k < 32, (v3mask f s.g).getLsbD k = true →
           (q k : Int) = (if b k = 0 then 2 ^ 32 - 1 else (a k).tdiv (b k) % 2 ^ 32) ∧
           (r k : Int) = (if b k = 0 then a k % 2 ^ 32 else (a k).tmod (b k) % 2 ^ 32)) ∧
     (zeros ≠ 0 → s.g.r.fenable &&& fDZ ≠ 0 →
       Runs (.vdiv f) s (takeTrap { cause := cFPEXC, elanes := zeros, einfo := 8 } s) ∧
       Runs (.vrem f) s (takeTrap { cause := cFPEXC, elanes := zeros, einfo := 8 } s))) ∧
  (∀ f s, (f.ty = 0 ∨ f.ty = 4) → v3mask f s.g ≠ 0 → s.Clean (([f.a, f.b, f.c]).flatMap fun n => s.g.vitems false (v3mask f s.g) n) →
     let byte (n : Byte) (k j : Nat) : Int :=
       let x := ((s.g.vget n k).extractLsb' (8 * j) 8 : Byte)
       if f.ty = 0 then x.toInt else x.toNat
     let acc (k : Nat) : Int := if f.ty = 0 then (s.g.vget f.c k).toInt else (s.g.vget f.c k).toNat
     let lo : Int := if f.ty = 0 then -2 ^ 31 else 0
     let hi : Int := if f.ty = 0 then 2 ^ 31 - 1 else 2 ^ 32 - 1
     let sad (k : Nat) : Int := acc k + |byte f.a k 0 - byte f.b k 0| + |byte f.a k 1 - byte f.b k 1| + |byte f.a k 2 - byte f.b k 2| + |byte f.a k 3 - byte f.b k 3|
     let dot (k : Nat) : Int := acc k + byte f.a k 0 * byte f.b k 0 + byte f.a k 1 * byte f.b k 1 + byte f.a k 2 * byte f.b k 2 + byte f.a k 3 * byte f.b k 3
     (f.sat = 0 → Runs (.vsad f) s (s.setV false f.d (v3mask f s.g) fun k => (sad k % 2 ^ 32).toNat).retire) ∧
     (f.sat = 0 → Runs (.vdot4 f) s (s.setV false f.d (v3mask f s.g) fun k => (dot k % 2 ^ 32).toNat).retire) ∧
     (f.sat = 1 → Runs (.vdot4 f) s ((s.setV false f.d (v3mask f s.g) fun k => (max lo (min hi (dot k)) % 2 ^ 32).toNat).orSat
       ((List.range 32).any fun k => (v3mask f s.g).getLsbD k && (decide (dot k < lo) || decide (hi < dot k)))).retire))

/-- Moves, selection, broadcast, lane numbers, single lanes and immediates (R139 to R141). -/
def Obligations.VectorMoves : Prop :=
  LaneResult .vmov (fun f s => vectorSources f s [f.a]) (fun f => is64 f.ty) (fun f s k =>
    if isFl f.ty then joinElems (tyBits f.ty) ((List.range (elemN f.ty)).map fun e => fpElem f s 0 f.a k e) else s.g.lane f.ty f.a k) ∧
  LaneResult .vsel (fun f s =>
      let p := s.g.pget (pnum f.c)
      pitem (pnum f.c) ++ s.g.vitems (is64 f.ty) (v3mask f s.g &&& p) f.a ++ s.g.vitems (is64 f.ty) (v3mask f s.g &&& ~~~ p) f.b) (fun f => is64 f.ty) (fun f s k =>
    s.g.lane f.ty (if (s.g.pget (pnum f.c)).getLsbD k then f.a else f.b) k) ∧
  LaneResult .vbcast (fun f s => [s.g.sitem (snum f.a)]) (fun f => is64 f.ty) (fun f s _ => (s.g.sget (snum f.a)).toNat) ∧
  LaneResult .vlane (fun _ _ => []) (fun _ => false) (fun _ _ k => k) ∧
  (∀ f s, v3mask f s.g ≠ 0 → let k := (s.g.sget (snum f.b)).toNat % 32
    s.Clean [s.g.sitem (snum f.b), s.g.vitem f.a k] → Runs (.vlaneGet f) s (s.setS (snum f.d) ((s.g.vget f.a k).setWidth 64)).retire) ∧
  (∀ f s, v3mask f s.g ≠ 0 →
    s.Clean (s.g.sitem (snum f.b) :: if (v3mask f s.g).getLsbD ((s.g.sget (snum f.b)).toNat % 32) then [s.g.sitem (snum f.a)] else []) →
    Runs (.vlanePut f) s (s.setV false f.d (v3mask f s.g &&& BitVec.twoPow 32 ((s.g.sget (snum f.b)).toNat % 32))
      fun _ => (s.g.sget (snum f.a)).toNat).retire) ∧
  (∀ f s, viMask f s.g ≠ 0 → Runs (.vli f) s (s.setV false f.d (viMask f s.g) fun _ => f.imm.toNat).retire) ∧
  (∀ f s, viMask f s.g ≠ 0 → s.Clean (s.g.vitems false (viMask f s.g) f.a) →
    Runs (.vandImm f) s (s.setV false f.d (viMask f s.g) fun k => (s.g.vget f.a k &&& f.imm).toNat).retire) ∧
  (∀ f s, (tyW f.ty ∨ tyH f.ty) → viMask f s.g ≠ 0 → s.Clean (s.g.vitems false (viMask f s.g) f.a) →
    ∃ val : Nat → Nat, Runs (.vaddImm f) s (s.setV false f.d (viMask f s.g) val).retire ∧
      ∀ k < 32, (viMask f s.g).getLsbD k = true → ∀ e < elemN f.ty,
        elemOf f.ty (val k) e = (elemOf f.ty (s.g.vget f.a k).toNat e + elemOf f.ty f.imm.toNat e) % 2 ^ tyBits f.ty)

/-- Comparisons write 1 in the active lanes where they hold and 0 in every other lane of P[D]; fcmp sets NV when it meets a
signalling NaN, or a NaN in an ordering comparison, and raises FPEXC, with nothing written, when NV is enabled (R55, R142, R147). -/
def Obligations.Comparisons : Prop :=
  (∀ f s, v3mask f s.g ≠ 0 → s.Clean (vectorSources f s [f.a, f.b]) →
    let x (n : Byte) (k : Nat) : Int := elemInt f.ty (s.g.lane f.ty n k)
    Runs (.vcmp f) s (s.setP (pnum f.d) (maskOf fun k => (v3mask f s.g).getLsbD k && decide (
      (f.sub = 0 ∧ x f.a k = x f.b k) ∨ (f.sub = 1 ∧ x f.a k ≠ x f.b k) ∨ (f.sub = 2 ∧ x f.a k < x f.b k) ∨ (f.sub = 3 ∧ x f.a k ≤ x f.b k) ∨
      (f.sub = 4 ∧ x f.a k > x f.b k) ∨ (5 ≤ f.sub.toNat ∧ x f.a k ≥ x f.b k)))).retire) ∧
  (∀ f s, v3mask f s.g ≠ 0 → s.Clean (([f.a, f.b]).flatMap fun n => s.g.vitems false (v3mask f s.g) n) →
    let x (k : Nat) : FV := f32.read (modOf f.md 0 f32 (s.g.vget f.a k).toNat)
    let y (k : Nat) : FV := f32.read (modOf f.md 1 f32 (s.g.vget f.b k).toNat)
    let nan (k : Nat) : Bool := (x k).isNan || (y k).isNan
    let nv (k : Nat) : BitVec 5 := if (x k).isSig || (y k).isSig || (nan k && 2 ≤ f.sub.toNat && f.sub.toNat ≤ 5) then fNV else 0
    let lt (k : Nat) : Bool := fvLt false (x k) (y k)
    let gt (k : Nat) : Bool := fvLt false (y k) (x k)
    let eq (k : Nat) : Bool := fvEq (x k) (y k)
    FpEnds (.fcmp f) s (v3mask f s.g) nv ((s.setP (pnum f.d) (maskOf fun k => (v3mask f s.g).getLsbD k &&
      (match f.sub.toNat with
        | 0 => !nan k && eq k | 1 => nan k || !eq k | 2 => !nan k && lt k | 3 => !nan k && (lt k || eq k)
        | 4 => !nan k && gt k | 5 => !nan k && (gt k || eq k) | 6 => nan k | _ => !nan k))).orF (orLanes (v3mask f s.g) nv)).retire)

/-- Predicate logic and pset write all 32 bits whatever the active mask, and a write to p0 is discarded; a word of opcode 0x5C or
0x5D is one of them exactly when its other fields are 0, its predicates are named by four bits and its SUB is below 4, and any other raises
ILLEGAL (R163, R164). -/
def Obligations.PredicateLogic : Prop :=
  (∀ f s, s.Clean (pitem (pnum f.a) ++ pitem (pnum f.b)) →
   Runs (.pand f) s (s.setP (pnum f.d) (s.g.pget (pnum f.a) &&& s.g.pget (pnum f.b))).retire ∧
   Runs (.por f) s (s.setP (pnum f.d) (s.g.pget (pnum f.a) ||| s.g.pget (pnum f.b))).retire ∧
   Runs (.pxor f) s (s.setP (pnum f.d) (s.g.pget (pnum f.a) ^^^ s.g.pget (pnum f.b))).retire) ∧
  (∀ f s, f.b = 0 → s.Clean (pitem (pnum f.a)) → Runs (.pnot f) s (s.setP (pnum f.d) (~~~ s.g.pget (pnum f.a))).retire) ∧
  (∀ f s, Runs (.pset f) s (s.setP (pnum f.d) f.imm).retire) ∧
  (∀ (s : State) x, s.setP 0 x = s) ∧
  (∀ w : W64, let n (lo k : Nat) : Nat := (w.extractLsb' lo k).toNat
    (n 56 8 = 0x5C → ((∃ i, decode w = .ok i) ↔ n 0 5 < 4 ∧ n 52 4 = 0 ∧ n 51 1 = 0 ∧ n 47 4 = 0 ∧ n 39 4 = 0 ∧ n 31 4 = 0 ∧ n 19 8 = 0 ∧ n 15 4 = 0 ∧
      n 12 3 = 0 ∧ n 11 1 = 0 ∧ n 5 6 = 0 ∧ (n 0 5 = 3 → n 27 8 = 0))) ∧
    (n 56 8 = 0x5D → ((∃ i, decode w = .ok i) ↔ n 52 4 = 0 ∧ n 48 4 = 0 ∧ n 36 8 = 0 ∧ n 32 4 = 0)) ∧
    ∀ i, decode w = .ok i → let f := V3.ofWord w
      (n 56 8 = 0x5C → i = if n 0 5 = 0 then .pand f else if n 0 5 = 1 then .por f else if n 0 5 = 2 then .pxor f else .pnot f) ∧
      (n 56 8 = 0x5D → i = .pset (VI.ofWord w))) ∧
  (∀ (s : State) w s1 bit, s.g.gid ≠ 0 → s.g.phase = .running → s.g.entering = false → s.g.atomic = none →
    s.fetchWord s.g.pc = .ok s1 w → decode w = .error bit →
    runGroup s = .next (takeTrap { cause := cILLEGAL, elanes := recordedMask s1.g w, einfo := BitVec.ofNat 64 bit } s1))

/-- The floating-point instructions, with MOD applied to the sources and the exceptions of R133, an enabled one raising FPEXC for its
lanes with nothing written (R55): one rounding to TYPE under RND of the
exact result for the arithmetic, fdiv, frcp and fscale; fmin, fmax, frnd and fclass as their entries say (R29, R143 to R150). For fsqrt,
frsq, fexp2, flog2, fsin and fcos what is rounded is the model's rational approximation of the exact result: that is the model's choice
(log 12). -/
def Obligations.FloatArithmetic : Prop :=
  let rd (f : V3) (x : Nat) : FV := (fmtOf f.ty).read x
  let two (f : V3) : List Byte := [f.a, f.b]
  let one (f : V3) : List Byte := [f.a]
  FloatResult .fadd two (fun f a b _ => finishFp f (fvAdd f.rnd.toNat (rd f a) (rd f b))) ∧
  FloatResult .fsub two (fun f a b _ => finishFp f (fvAdd f.rnd.toNat (rd f a) (rd f b).negate)) ∧
  FloatResult .fmul two (fun f a b _ => finishFp f (fvMul (rd f a) (rd f b))) ∧
  FloatResult .ffma (fun f => [f.a, f.b, f.c]) (fun f a b c => finishFp f (fvFma f.rnd.toNat (rd f a) (rd f b) (rd f c))) ∧
  FloatResult .fmin two (fun f a b _ => fmtMinMax (fmtOf f.ty) false a b) ∧
  FloatResult .fmax two (fun f a b _ => fmtMinMax (fmtOf f.ty) true a b) ∧
  FloatResult .fdiv two (fun f a b _ => finishFp f (fvDiv (rd f a) (rd f b))) ∧
  FloatResult .fsqrt one (fun f a _ _ => finishFp f (fvSqrt (rd f a))) ∧
  FloatResult .frcp one (fun f a _ _ => finishFp f (fvRcp (rd f a))) ∧
  FloatResult .frsq one (fun f a _ _ => finishFp f (fvRsq (rd f a))) ∧
  FloatResult .fexp2 one (fun f a _ _ => finishFp f (fvExp2 (rd f a))) ∧
  FloatResult .flog2 one (fun f a _ _ => finishFp f (fvLog2 (rd f a))) ∧
  FloatResult .fsin one (fun f a _ _ => finishFp f (fvSin (rd f a))) ∧
  FloatResult .fcos one (fun f a _ _ => finishFp f (fvCos (rd f a))) ∧
  FloatResult .frnd one (fun f a _ _ => fmtRndInt (fmtOf f.ty) f.rnd.toNat a) ∧
  FloatResult .fsgn two (fun f a b _ => { bits :=
    let sign := (fmtOf f.ty).sign
    let sa : Bool := decide (sign ≤ a)
    let sb : Bool := decide (sign ≤ b)
    a % sign + if (f.sub = 0 ∧ sb) ∨ (f.sub = 1 ∧ ¬ sb) ∨ (2 ≤ f.sub.toNat ∧ sa ≠ sb) then sign else 0 }) ∧
  (∀ f s, v3mask f s.g ≠ 0 → s.Clean ((two f).flatMap fun n => s.g.vitems false (v3mask f s.g) n) →
    let ity : BitVec 4 := if f.ty = 8 then 2 else 1
    let r (k e : Nat) : Rounded := finishFp f (fvScale (rd f (fpElem f s 0 f.a k e)) (elemInt ity (elemOf ity (s.g.vget f.b k).toNat e)))
    FpEnds (.fscale f) s (v3mask f s.g) (fun k => laneExc f (r k)) ((s.setV false f.d (v3mask f s.g) fun k => joinElems (tyBits f.ty) ((List.range (elemN f.ty)).map fun e => (r k e).bits)).orF
      (orLanes (v3mask f s.g) fun k => laneExc f (r k))).retire) ∧
  LaneResult .fclass (fun f s => s.g.vitems false (v3mask f s.g) f.a) (fun _ => false) (fun f s k =>
    joinElems (if f.ty = 8 then 32 else 16) ((List.range (elemN f.ty)).map fun e => classMask (fmtOf f.ty) (fpElem f s 0 f.a k e)))

/-- cvt, vpack, vunpk and vdith: each element is converted once under RND, with dither by lane and phase; exceptions go to
sys.fflags, or an enabled one raises FPEXC for its lanes, with nothing written and the phase left; a clamp under .sat or to .q4 sets SAT, a
reserved q4 code QRSV; .adv advances the phase (R43 to R45, R55, R151 to R156). -/
def Obligations.Conversions : Prop :=
  (∀ f s, v3mask f s.g ≠ 0 → s.Clean (s.g.vitems (is64 (srcTy f)) (v3mask f s.g) f.a) →
    let r (k : Nat) : Rounded := convert (srcTy f) f.ty f.rnd.toNat (s.g.threshold k) (f.sat == 1)
      (modSrc f (srcTy f) (if is64 (srcTy f) then (s.g.vpair f.a k).toNat else (s.g.vget f.a k).toNat % 2 ^ tyBits (srcTy f)))
    FpEnds (.cvt f) s (v3mask f s.g) (fun k => (r k).fl) (((((s.setV (is64 f.ty) f.d (v3mask f s.g) fun k => extendResult f.ty (r k).bits).orF
      (orLanes (v3mask f s.g) fun k => (r k).fl)).orSat (anyLane (v3mask f s.g) fun k => (r k).sat))).advancePhase (f.sub.getLsbD 4)).retire) ∧
  (∀ f s, v3mask f s.g ≠ 0 →
    s.Clean ((List.range (packN f.ty)).flatMap fun e => s.g.vitems false (v3mask f s.g) (f.a + BitVec.ofNat 8 e)) →
    let src (k e : Nat) : Nat := modSrc f (srcTy f) (s.g.vget (f.a + BitVec.ofNat 8 e) k).toNat
    let r (k e : Nat) : Rounded := if f.ty = 13 then convertQ4 (srcTy f) f.rnd.toNat (s.g.threshold k) (src k e)
      else convert (srcTy f) f.ty f.rnd.toNat (s.g.threshold k) (f.sat == 1) (src k e)
    let es (k : Nat) : List Rounded := (List.range (packN f.ty)).map (r k)
    let exc (k : Nat) : BitVec 5 := (es k).foldl (fun x e => x ||| e.fl) 0
    FpEnds (.vpack f) s (v3mask f s.g) exc (((((s.setV false f.d (v3mask f s.g) fun k => joinElems (32 / packN f.ty) ((es k).map (·.bits))).orF
      (orLanes (v3mask f s.g) exc)).orSat (anyLane (v3mask f s.g) fun k => (es k).any (·.sat)))).advancePhase (f.sub.getLsbD 4)).retire) ∧
  (∀ f s, v3mask f s.g ≠ 0 → s.Clean (s.g.vitems false (v3mask f s.g) f.a) →
    let el (e k : Nat) : Rounded × Bool := unpack (srcTy f) f.ty (s.g.vget f.a k).toNat e
    let n := packN (srcTy f)
    let exc (k : Nat) : BitVec 5 := (List.range n).foldl (fun x e => x ||| (el e k).1.fl) 0
    let s1 := ((List.range n).foldl (fun s e => s.setV false (f.d + BitVec.ofNat 8 e) (v3mask f s.g) fun k => (el e k).1.bits) s).orF (orLanes (v3mask f s.g) exc)
    FpEnds (.vunpk f) s (v3mask f s.g) exc (if anyLane (v3mask f s.g) (fun k => (List.range n).any fun e => (el e k).2) then s1.orQ qRSV else s1).retire) ∧
  (∀ f s, v3mask f s.g ≠ 0 → s.Clean (s.g.vitems false (v3mask f s.g) f.a) →
    let x (k : Nat) : Nat := modOf f.md 0 f32 (s.g.vget f.a k).toNat
    let r (k : Nat) : Rounded := if f.ty = 13 then convertQ4 8 4 (s.g.threshold k) (x k) else convert 8 f.ty 4 (s.g.threshold k) (f.sat == 1) (x k)
    FpEnds (.vdith f) s (v3mask f s.g) (fun k => (r k).fl) (((((s.setV false f.d (v3mask f s.g) fun k => (unpack f.ty 8 (r k).bits 0).1.bits).orF
      (orLanes (v3mask f s.g) fun k => (r k).fl)).orSat (anyLane (v3mask f s.g) fun k => (r k).sat))).advancePhase (f.sub.getLsbD 4)).retire)

/-- Lane movement: vshfl, vshfl.xor and vrot take each active lane from a source lane of A; vcompress moves the lanes that P[C]
selects, and vexpand the low lanes, to the active lanes in ascending order, pairwise (R157, R161, R162). -/
def Obligations.LaneMovement : Prop :=
  LaneResult .vshfl (fun f s => s.g.vitems false (v3mask f s.g) f.b ++
      s.g.vitems (is64 f.ty) (maskOfList ((activeLanes (v3mask f s.g)).map fun k => (s.g.vget f.b k).toNat % 32)) f.a)
    (fun f => is64 f.ty) (fun f s k => s.g.lane f.ty f.a ((s.g.vget f.b k).toNat % 32)) ∧
  LaneResult .vshflXor (fun f s => s.g.vitems false (v3mask f s.g) f.b ++
      s.g.vitems (is64 f.ty) (maskOfList ((activeLanes (v3mask f s.g)).map fun k => k ^^^ ((s.g.vget f.b k).toNat % 32))) f.a)
    (fun f => is64 f.ty) (fun f s k => s.g.lane f.ty f.a (k ^^^ ((s.g.vget f.b k).toNat % 32))) ∧
  LaneResult .vrot (fun f s => s.g.sitem (snum f.b) ::
      s.g.vitems (is64 f.ty) (maskOfList ((activeLanes (v3mask f s.g)).map fun k => (k + (s.g.sget (snum f.b)).toNat) % 32)) f.a)
    (fun f => is64 f.ty) (fun f s k => s.g.lane f.ty f.a ((k + (s.g.sget (snum f.b)).toNat) % 32)) ∧
  (∀ f s, v3mask f s.g ≠ 0 →
    let dst := activeLanes (v3mask f s.g)
    let moves (src : List Nat) (t : State) : Prop := ∃ (w : W32) (val : Nat → Nat), t = (s.setV (is64 f.ty) f.d w val).retire ∧
      (∀ k < 32, w.getLsbD k = true ↔ k ∈ dst.take src.length) ∧
      ∀ (j d c : Nat), dst[j]? = some d → src[j]? = some c → val d = s.g.lane f.ty f.a c
    let chosen := activeLanes (s.g.pget (pnum f.c))
    (s.Clean (pitem (pnum f.c) ++ s.g.vitems (is64 f.ty) (maskOfList (chosen.take dst.length)) f.a) → ∃ t : State, Runs (.vcompress f) s t ∧ moves chosen t) ∧
    (s.Clean (s.g.vitems (is64 f.ty) (maskOfList ((List.range 32).take dst.length)) f.a) → ∃ t : State, Runs (.vexpand f) s t ∧ moves (List.range 32) t))

/-- Reductions, scans and ballots over the active lanes: the integer sum, minimum, maximum, AND, OR and XOR into a scalar, the
.f32 forms with one rounding, the running forms into a vector, the sum clamped under .sat with SAT set by a clamp, and the ballots; an
enabled exception raises FPEXC with nothing written, naming the active lanes with a signalling NaN when there are any and otherwise every
active lane (R55, R158 to R160; that an exclusive scan's highest active lane counts is the model's choice, log 99). -/
def Obligations.LaneReductions : Prop :=
  let named (f : V3) (s : State) : W32 :=
    let sig := maskOf fun k => (v3mask f s.g).getLsbD k && (f32.read (modOf f.md 0 f32 (s.g.vget f.a k).toNat)).isSig
    if sig = 0 then v3mask f s.g else sig
  (∀ f s, v3mask f s.g ≠ 0 → f.ty ≠ 8 → s.Clean (s.g.vitems false (v3mask f s.g) f.a) →
    let xs := (activeLanes (v3mask f s.g)).map fun k => (s.g.vget f.a k).toNat
    let is := xs.map (elemInt f.ty)
    (f.sub = 0 → Runs (.vred f) s (s.setS (snum f.d) (w64 is.sum)).retire) ∧
    (f.sub = 1 → tyW f.ty = true → ∃ x ∈ is, (∀ y ∈ is, x ≤ y) ∧ Runs (.vred f) s (s.setS (snum f.d) (w64 x)).retire) ∧
    (f.sub = 2 → tyW f.ty = true → ∃ x ∈ is, (∀ y ∈ is, y ≤ x) ∧ Runs (.vred f) s (s.setS (snum f.d) (w64 x)).retire) ∧
    (f.sub = 3 → Runs (.vred f) s (s.setS (snum f.d) (w64 (xs.foldl (fun a b => a &&& b) (2 ^ 32 - 1) : Nat))).retire) ∧
    (f.sub = 4 → Runs (.vred f) s (s.setS (snum f.d) (w64 (xs.foldl (fun a b => a ||| b) 0 : Nat))).retire) ∧
    (f.sub = 5 → Runs (.vred f) s (s.setS (snum f.d) (w64 (xs.foldl (fun a b => a ^^^ b) 0 : Nat))).retire)) ∧
  (∀ f s, v3mask f s.g ≠ 0 → f.ty = 8 → s.Clean (s.g.vitems false (v3mask f s.g) f.a) →
    let r := reduceFp f.sub.toNat f.rnd.toNat ((activeLanes (v3mask f s.g)).map fun k => modOf f.md 0 f32 (s.g.vget f.a k).toNat)
    (r.fl &&& s.g.r.fenable = 0 → Runs (.vred f) s ((s.setS (snum f.d) (BitVec.ofNat 64 r.bits)).orF r.fl).retire) ∧
    (r.fl &&& s.g.r.fenable ≠ 0 → Runs (.vred f) s (takeTrap { cause := cFPEXC, elanes := named f s, einfo := r.fl.setWidth 64 } s))) ∧
  (∀ f s, v3mask f s.g ≠ 0 → f.ty ≠ 8 → f.sat = 0 → s.Clean (s.g.vitems false (scanReads (v3mask f s.g) (f.sub.getLsbD 3)) f.a) →
    Runs (.vscan f) s (s.setV false f.d (v3mask f s.g) fun k =>
      (reduceInt f.ty (f.sub.toNat % 8) ((scanSet (v3mask f s.g) (f.sub.getLsbD 3) k).map fun j => (s.g.vget f.a j).toNat) % 2 ^ 32).toNat).retire) ∧
  (∀ f s, v3mask f s.g ≠ 0 → (f.ty = 2 ∨ f.ty = 6) → f.sat = 1 → f.sub.toNat % 8 = 0 →
    s.Clean (s.g.vitems false (scanReads (v3mask f s.g) (f.sub.getLsbD 3)) f.a) →
    let sum (k : Nat) : Int := ((scanSet (v3mask f s.g) (f.sub.getLsbD 3) k).map fun j => elemInt f.ty (s.g.vget f.a j).toNat).sum
    let lo : Int := if f.ty = 2 then -2 ^ 31 else 0
    let hi : Int := if f.ty = 2 then 2 ^ 31 - 1 else 2 ^ 32 - 1
    Runs (.vscan f) s ((s.setV false f.d (v3mask f s.g) fun k => (max lo (min hi (sum k)) % 2 ^ 32).toNat).orSat
      ((List.range 32).any fun k => (v3mask f s.g).getLsbD k && (decide (sum k < lo) || decide (hi < sum k)))).retire) ∧
  (∀ f s, v3mask f s.g ≠ 0 → f.ty = 8 → s.Clean (s.g.vitems false (scanReads (v3mask f s.g) (f.sub.getLsbD 3)) f.a) →
    let r (k : Nat) : Rounded := reduceFp (f.sub.toNat % 8) f.rnd.toNat
      ((scanSet (v3mask f s.g) (f.sub.getLsbD 3) k).map fun j => modOf f.md 0 f32 (s.g.vget f.a j).toNat)
    let fl := orLanes (v3mask f s.g) fun k => (r k).fl
    (fl &&& s.g.r.fenable = 0 → Runs (.vscan f) s ((s.setV false f.d (v3mask f s.g) fun k => (r k).bits).orF fl).retire) ∧
    (fl &&& s.g.r.fenable ≠ 0 → Runs (.vscan f) s (takeTrap { cause := cFPEXC, elanes := named f s, einfo := fl.setWidth 64 } s))) ∧
  (∀ f s, v3mask f s.g ≠ 0 → s.Clean (pitem (pnum f.a)) →
    Runs (.vballot f) s (s.setS (snum f.d) ((s.g.pget (pnum f.a) &&& v3mask f s.g).setWidth 64)).retire ∧
    Runs (.vballotCnt f) s (s.setS (snum f.d) (BitVec.ofNat 64
      ((List.range 32).filter fun k => (s.g.pget (pnum f.a) &&& v3mask f s.g).getLsbD k).length)).retire)

/-- With no active lane a vector instruction retires with no effect: it writes nothing, accesses no memory or tile and sets no flag; the
phase is left too, but for .adv (R105, R131). That cwb, cinv, cwbi, atom and red with an empty mask also leave an idempotent region
replayable is the model's choice (log 70), made from R105 against the list of R408. -/
def Obligations.EmptyMaskRetires : Prop :=
  (∀ f s, v3mask f s.g = 0 →
    ∀ i ∈ [Instr.vadd f, .vsub f, .vmul f, .vmulh f, .vmad f, .vdiv f, .vrem f, .vmin f, .vmax f, .vabs f, .vneg f, .vand f, .vor f, .vxor f,
      .vandn f, .vnot f, .vshl f, .vshr f, .vsra f, .vclz f, .vpop f, .vbrev f, .vsad f, .vdot4 f, .vmov f, .vsel f, .vbcast f, .vlane f,
      .vlaneGet f, .vlanePut f, .vcmp f, .fadd f, .fsub f, .fmul f, .ffma f, .fmin f, .fmax f, .fdiv f, .fsqrt f, .frcp f, .frsq f,
      .fexp2 f, .flog2 f, .fsin f, .fcos f, .frnd f, .fcmp f, .fclass f, .fscale f, .fsgn f, .vunpk f, .vshfl f, .vshflXor f, .vrot f,
      .vred f, .vscan f, .vballot f, .vballotCnt f, .vcompress f, .vexpand f], Runs i s s.retire) ∧
  (∀ f s, v3mask f s.g = 0 → f.sub.getLsbD 4 = false → ∀ i ∈ [Instr.cvt f, .vpack f, .vdith f], Runs i s s.retire) ∧
  (∀ f s, viMask f s.g = 0 → ∀ i ∈ [Instr.vli f, .vaddImm f, .vandImm f], Runs i s s.retire) ∧
  (∀ f s, fmMask f s.g = 0 → ∀ i ∈ [Instr.ld f, .ldSigned f, .st f, .pref f, .cwb f, .cinv f, .cwbi f], Runs i s s.retire) ∧
  (∀ f s, maMask f s.g = 0 → s.g.atomic = none → ∀ i ∈ [Instr.atom f, .red f], Runs i s s.retire) ∧
  (∀ f s, ftMask f s.g = 0 → ∀ i ∈ [Instr.tld f, .tst f, .tldw f, .tldc f, .tstw f], Runs i s s.retire)

/-! ## Memory -/

/-- The checks of an access, stage by stage, each naming exactly the lanes that fail it, the lowest one's address, and the code, level and
ACC of R395: ALIGN; the range (PROT code 2); the ungrown window (STACK); failed translations (PAGE, with level and code of the lowest such
lane's walk and the failing pages); then PROT for the page's kind (3), for the rights (1), for a refusal by the access table (4); last POISON
or LINK, whichever the lowest lane that meets one meets. A check that fails at translation or later leaves the state u that the walks leave:
what they cache, ownership of lines read, choices used, and bit A of the leaves found; a refusal may leave an alarm due too. An access that
fails none passes: it hands over its lanes, addresses and leaves, every right granted, and changes memory at most in the byte of a leaf
entry that holds A and D (R165, R170, R176, R391, R395, R399). POISON before LINK within one lane is the model's choice (log 18). -/
def Obligations.AccessChecks : Prop :=
  ∀ (s : State) (core ctx : Nat) (a : AccSpec) (sc : Bool) (accs : List (Nat × Int)),
    let odd := accs.filter fun t => match a.align with | some n => t.2 % (n : Int) != 0 | none => false
    let out := accs.filter fun t => decide (t.2 < 0) || decide ((2 : Int) ^ 52 ≤ t.2)
    let low := accs.filter fun t => decide (((s.priv ctx).2.1 : Int) ≤ t.2) && decide (t.2 < ((s.priv ctx).2.2 : Int))
    let names (cause : Byte) (info : Nat) (l : List (Nat × Int)) : Trap :=
      { cause := cause, elanes := if sc then 0 else maskOfList (l.map (·.1)), eaddr := w64 ((l.map (·.2)).headD 0), einfo := BitVec.ofNat 64 info }
    let r := translateAll core ((s.ctxOf ctx).getD default) [] accs (s.readWindow ctx)
    let u := r.1
    let lost := r.2.filterMap fun t => match t.2.2 with | .error e => some (t.1, t.2.1, e) | .ok _ => none
    let hits : List Hit3 := r.2.filterMap fun t => match t.2.2 with | .ok l => some (t.1, t.2.1, l) | .error _ => none
    let those (q : Leaf → Bool) : List (Nat × Int) := (hits.filter fun h => q h.2.2).map fun h => (h.1, h.2.1)
    let reach (l : Leaf) : Reach := u.reach l a.size (decide (a.acc = 0 ∨ a.acc = 2)) (decide (a.acc ≠ 0))
    let marked (l : Leaf) : Bool := a.reads && if a.cls = .g then u.ownPoisoned l.key a.size else u.isPoisoned l.key a.size
    let cut (l : Leaf) : Bool := !marked l && a.link && match reach l with | .link _ _ => true | _ => false
    let kind := those fun l => !a.admits l.kind
    let right := those fun l => !a.granted l.e
    let refused := if a.reach = true then those fun l => decide (reach l = .refused) else []
    let hurt := if a.reach = true then hits.filter fun h => marked h.2.2 || cut h.2.2 else []
    let early : Prop := odd = [] ∧ out = [] ∧ low = []
    (odd ≠ [] → checkAccess s core ctx a sc accs = .bad (names cALIGN 0 odd) (s.readWindow ctx)) ∧
    (odd = [] → out ≠ [] → checkAccess s core ctx a sc accs = .bad (names cPROT (2 + 64 * a.acc) out) (s.readWindow ctx)) ∧
    (odd = [] → out = [] → low ≠ [] → checkAccess s core ctx a sc accs = .bad (names cSTACK (1 + 64 * a.acc) low) (s.readWindow ctx)) ∧
    (early → ∀ i va lvl code rest, lost = (i, va, lvl, code) :: rest → checkAccess s core ctx a sc accs =
      .bad { names cPAGE (code + 16 * lvl + 64 * a.acc) (lost.map fun t => (t.1, t.2.1)) with pages := failedPages r.2 } u) ∧
    (early → lost = [] →
      (kind ≠ [] → checkAccess s core ctx a sc accs = .bad (names cPROT (3 + 64 * a.acc) kind) u) ∧
      (kind = [] → right ≠ [] → checkAccess s core ctx a sc accs = .bad (names cPROT (1 + 64 * a.acc) right) u) ∧
      (kind = [] → right = [] → refused ≠ [] → ∃ due, checkAccess s core ctx a sc accs =
        .bad (names cPROT (4 + 64 * a.acc) refused) { u with lk := { u.lk with due := u.lk.due ++ due } }) ∧
      (kind = [] → right = [] → refused = [] → ∀ i va l rest, hurt = (i, va, l) :: rest →
        (marked l = true → checkAccess s core ctx a sc accs =
          .bad { names cPOISON 1 (those marked) with eaddr := w64 (if a.exact = true then va else va / 32 * 32) } u) ∧
        (∀ code peer, marked l = false → reach l = .link code peer → checkAccess s core ctx a sc accs =
          .bad { names cLINK (code + 256 * peer) (those cut) with viaHost := decide (l.kind = 1) } u)) ∧
      (kind = [] → right = [] → refused = [] → hurt = [] → ∃ s1, checkAccess s core ctx a sc accs = .ok s1 hits)) ∧
    (∃ ms ch, u = { s with ms := ms, choices := ch }) ∧
    (s.MemoryWf → ∀ k, (∀ h ∈ hits, k ≠ h.2.2.leafAt + 6) → memGet u.ms.mem k = memGet s.ms.mem k) ∧
    (∀ s1 hits, checkAccess s core ctx a sc accs = .ok s1 hits →
      hits.map (fun h => (h.1, h.2.1)) = accs ∧ (∃ ms ch, s1 = { s with ms := ms, choices := ch }) ∧
      (∀ h ∈ hits, 0 ≤ h.2.1 ∧ h.2.1 < 2 ^ 52 ∧ a.granted h.2.2.e = true ∧ a.admits h.2.2.kind = true) ∧
      (s.MemoryWf → ∀ k, (∀ h ∈ hits, k ≠ h.2.2.leafAt + 6) → memGet s1.ms.mem k = memGet s.ms.mem k))

/-- Loads: a vector load writes each active lane of D with its element, zero- or sign-extended; a scalar load writes S[D]. What
is read is the serialisation point with the group's own older stores over it; memory is unchanged. A prefetch retires with no register
changed (R169, R173, R174, R179). -/
def Obligations.Loads : Prop :=
  (∀ (f : FM) (s : State), s.Clean (addrItems s.g (fmMask f s.g) f.sb f.vx) →
    ∃ ms ch, Runs (.pref f) s (State.retire { s with ms := ms, choices := ch })) ∧
  (∀ (f : FM) (s s2 : State) (hits : List Hit3), let m := fmMask f s.g
    m ≠ 0 → s.Clean (addrItems s.g m f.sb f.vx) → s.Passes (.load (fmBytes f)) false false (fmAccs f s.g) s2 hits →
    ∀ r ∈ [(Instr.ld f, false), (Instr.ldSigned f, true)], ∃ (val : Nat → Nat) (ms : MemSys), let s3 : State := { s2 with ms := ms }
      Runs r.1 s (s3.setV (fmBytes f = 8) f.d m val).retire ∧ SameMemory s2 s3 ∧
      ∀ h ∈ hits, let v := leNat (s2.ownBytes h.2.2.key (fmBytes f))
        val h.1 = if r.2 = true ∧ 2 ^ (8 * fmBytes f - 1) ≤ v then v + 2 ^ 32 - 2 ^ (8 * fmBytes f) else v) ∧
  (∀ (f : FM) (s s2 : State) (h : Hit3) (rest : List Hit3), s.Clean [s.g.sitem f.sb] →
    s.Passes (.load (fmBytes f)) true false [(0, ((s.g.sget f.sb).toNat : Int) + f.off.toInt)] s2 (h :: rest) →
    ∀ r ∈ [(Instr.ldu f, false), (Instr.lduSigned f, true)], ∃ ms : MemSys, let s3 : State := { s2 with ms := ms }
      let v := leNat (s2.ownBytes h.2.2.key (fmBytes f))
      Runs r.1 s (s3.setS (snum f.d)
        (BitVec.ofNat 64 (if r.2 = true ∧ 2 ^ (8 * fmBytes f - 1) ≤ v then v + 2 ^ 64 - 2 ^ (8 * fmBytes f) else v))).retire ∧ SameMemory s2 s3)

/-- Stores: st and stu put one store per lane, in ascending lane order, with the element's low bytes and the next place in program
order: at the end of the store queue outside a replayable region, and in one for a wholly private instruction; of the queue's 48 entries, as
many of the oldest as the new ones need are performed first; on a pod page the queue is
then performed at once (that all of it is, is the model's choice, log 40). Any other store of a replayable region goes to the release
buffer, a pod page's too (the model's choice, log 72), or raises RELOVF where it has no room. No other byte of memory changes;
of the caches, only the marks that CACHE leaves. A drain performs the oldest store: its bytes, and no other byte; a store behind an
older one that the release buffer holds waits, and is not performed (log 85). Cache control on lines that pass the checks performs
every store of the group, and changes no register, when no token is held (R94, R177, R178, R180, R409). -/
def Obligations.Stores : Prop :=
  (∀ (f : FM) (s s2 : State) (hits : List Hit3), fmMask f s.g ≠ 0 → s.Clean (addrItems s.g (fmMask f s.g) f.sb f.vx) → s2.ms.tokens = [] →
    let does (i : Instr) : Prop := ∃ u : State, Runs i s u.retire ∧ u.g.r = s2.g.r ∧ u.g.pc = s2.g.pc ∧ u.g.storeQ = []
    (s.Passes (wbSpec f.scope) false false (fmAccs f s.g) s2 hits → does (.cwb f) ∧ does (.cwbi f)) ∧
    (s.Passes invSpec false false (fmAccs f s.g) s2 hits → does (.cinv f))) ∧
  (∀ (f : FM) (s s2 : State) (hits : List Hit3), let m := fmMask f s.g
    let n := fmBytes f
    m ≠ 0 → s.Clean (addrItems s.g m f.sb f.vx ++ s.g.vitems (n = 8) m f.d) →
    s.Passes (.store n) false false (fmAccs f s.g) s2 hits →
    let r := s2.roomFor hits.length
    let u := s2.noteStores f.cache hits
    let v := r.noteStores f.cache hits
    let queued : Prop := s2.g.buffering = false ∨ ∀ h ∈ hits, s2.isPrivate h.2.1 n = true
    let buffered : Prop := s2.g.buffering = true ∧ ∃ h ∈ hits, s2.isPrivate h.2.1 n = false
    (∃ ms, u = { s2 with ms := ms }) ∧ SameMemory s2 u ∧ (∃ ms, v = { r with ms := ms }) ∧ SameMemory r v ∧
    ∃ ps : List PStore, ps.map (fun p => (p.key, p.bytes, p.seq, p.no)) = hits.map (fun h =>
        (h.2.2.key, leBytes n (if n = 8 then (s.g.vpair f.d h.1).toNat else (s.g.vget f.d h.1).toNat), s2.g.seq, s2.g.storeNo)) ∧
      let put : State := { v with g := { v.g with storeQ := v.g.storeQ ++ ps, storeNo := v.g.storeNo + 1 } }
      (queued → (∀ h ∈ hits, h.2.2.kind ≠ 2) → Runs (.st f) s put.retire) ∧
      (queued → (∃ h ∈ hits, h.2.2.kind = 2) → Runs (.st f) s put.drain.retire) ∧
      (buffered → s2.g.relBuf.length + hits.length ≤ 64 →
        Runs (.st f) s (State.retire { u with g := { u.g with relBuf := u.g.relBuf ++ ps, storeNo := u.g.storeNo + 1 } })) ∧
      (buffered → 64 < s2.g.relBuf.length + hits.length →
        Runs (.st f) s (takeTrap { cause := cRELOVF, elanes := fmMask f s.g, eaddr := w64 ((hits.map (·.2.1)).headD 0) } s2))) ∧
  (∀ (f : FM) (s s2 : State) (h : Hit3), let n := fmBytes f
    s.Clean [s.g.sitem f.sb, s.g.sitem (snum f.d)] →
    s.Passes (.store n) true false [(0, ((s.g.sget f.sb).toNat : Int) + f.off.toInt)] s2 [h] →
    let p : PStore := { key := h.2.2.key, bytes := leBytes n (s.g.sget (snum f.d)).toNat, seq := s2.g.seq, no := s2.g.storeNo }
    let u := s2.noteStores f.cache [h]
    let v := (s2.roomFor 1).noteStores f.cache [h]
    let put : State := { v with g := { v.g with storeQ := v.g.storeQ ++ [p], storeNo := v.g.storeNo + 1 } }
    (h.2.2.kind ≠ 2 → s2.g.buffering = false ∨ s2.isPrivate h.2.1 n = true → Runs (.stu f) s put.retire) ∧
    (h.2.2.kind = 2 → s2.g.buffering = false ∨ s2.isPrivate h.2.1 n = true → Runs (.stu f) s put.drain.retire) ∧
    (s2.g.buffering = true → s2.g.relBuf.length < 64 → s2.isPrivate h.2.1 n = false →
      Runs (.stu f) s (State.retire { u with g := { u.g with relBuf := u.g.relBuf ++ [p], storeNo := u.g.storeNo + 1 } })) ∧
    (s2.g.buffering = true → 64 ≤ s2.g.relBuf.length → s2.isPrivate h.2.1 n = false →
      Runs (.stu f) s (takeTrap { cause := cRELOVF, eaddr := w64 h.2.1 } s2))) ∧
  (∀ (s : State) n, let k := s.g.storeQ.length + n - 48
    (s.g.storeQ.length + n ≤ 48 → s.roomFor n = s) ∧
    (s.g.relBuf = [] → (s.roomFor n).g = { s.g with storeQ := s.g.storeQ.drop k } ∧ (s.roomFor n).others = s.others ∧
      (s.roomFor n).ms.mem = (s.g.storeQ.take k).foldl (fun m p => memSetAll m p.key p.bytes) s.ms.mem)) ∧
  (∀ (core slot : Nat) (s : State) (p : PStore) (r : List PStore),
    s.MemoryWf → s.groupAt core slot = some s.g → s.g.storeQ = p :: r →
    (s.g.blocked p = true → Runs (.storeDrain core slot) s s) ∧
    (s.g.blocked p = false → ∃ t : State, Runs (.storeDrain core slot) s t ∧ t.g = { s.g with storeQ := r } ∧ memRead t.ms.mem p.key p.bytes.length = p.bytes ∧
      SameMemoryOutside p.key p.bytes.length s t))

/-- Prefetch, cache control, ownership and eviction: pref changes no register and, in memory, at most bit A of the leaves that its
translations end at; cwb makes the
backing memory hold the dirty sectors of the named lines; cinv at de drops them, so that they read as the backing memory holds
them; cwbi at de writes back and drops; at co only first-level copies go. Each performs the group's older stores first (cache
control only). What drops a line first splits the regions that hold tokens on it, and waits while one of them is inside a started atomic. A grant makes one core the only owner of a line, within its banks: at another core's line the old ownership ends, and a
pod-mapped line is left alone (the model's reading, logs 86 and 91); an eviction writes dirty sectors back and spares pinned lines (R179
to R181, R186, R223, R296). -/
def Obligations.CacheActions : Prop :=
  (∀ (f : FM) (s : State), s.MemoryWf → fmMask f s.g ≠ 0 → s.Clean (addrItems s.g (fmMask f s.g) f.sb f.vx) →
    let p := prefTranslated f s
    ∃ ms ch, Runs (.pref f) s (State.retire { s with ms := ms, choices := ch }) ∧
      ∀ k, memGet ms.mem k = memGet s.ms.mem k ∨
        (memGet ms.mem k = memGet s.ms.mem k ||| 0x10 ∧ ∃ i va l, (i, va, Except.ok l) ∈ p.2 ∧ k = l.leafAt + 6)) ∧
  (∀ (f : FM) (s s2 : State) (hits : List Hit3), s.MemoryWf → fmMask f s.g ≠ 0 → s.Clean (addrItems s.g (fmMask f s.g) f.sb f.vx) →
    let s3 := s2.unreplayable.drain
    let here (x : Nat) : Prop := ∃ h ∈ hits, h.2.2.key / 128 = x / 4
    let sector (m : Memory) (x : Nat) : List Byte := memRead m (32 * x) 32
    let secs := (namedLines hits).flatMap lineSectors
    let split := s3.splitSectors secs
    let first : State := { s3 with ms := { s3.ms with l1 := s3.ms.l1.filter fun o => !(o.1 = s3.g.core && hits.any fun h => h.2.2.key / 128 = o.2) } }
    (s.Passes (wbSpec f.scope) false false (fmAccs f s.g) s2 hits →
      (∃ u : State, Runs (.cwb f) s u.retire ∧ u.g = s3.g ∧ SameMemory s3 u ∧
        ∀ x, (here x → x ∉ u.ms.dirty ∧ (x ∈ s3.ms.dirty → sector u.ms.backing x = sector s3.ms.mem x)) ∧
          (¬ here x → (x ∈ u.ms.dirty ↔ x ∈ s3.ms.dirty) ∧ sector u.ms.backing x = sector s3.ms.backing x)) ∧
      (f.scope = 2 → Runs (.cwbi f) s first.retire) ∧
      (f.scope ≠ 2 → split.splitWaits secs = true → Runs (.cwbi f) s split) ∧
      (f.scope ≠ 2 → split.splitWaits secs = false → ∃ u : State, Runs (.cwbi f) s u.retire ∧ (s3.ms.tokens = [] → u.g = s3.g) ∧
        ∀ x, (here x → x ∉ u.ms.dirty ∧ (x ∈ s3.ms.dirty → sector u.ms.backing x = sector s3.ms.mem x ∧ sector u.ms.mem x = sector s3.ms.mem x)) ∧
          (¬ here x → sector u.ms.mem x = sector s3.ms.mem x ∧ sector u.ms.backing x = sector s3.ms.backing x))) ∧
    (s.Passes invSpec false false (fmAccs f s.g) s2 hits →
      (f.scope = 2 → Runs (.cinv f) s first.retire) ∧
      (f.scope ≠ 2 → split.splitWaits secs = true → Runs (.cinv f) s split) ∧
      (f.scope ≠ 2 → split.splitWaits secs = false → ∃ u : State, Runs (.cinv f) s u.retire ∧ (s3.ms.tokens = [] → u.g = s3.g) ∧ u.ms.backing = s3.ms.backing ∧
        ∀ x, (here x → x ∉ u.ms.dirty ∧ (x ∈ s3.ms.dirty → sector u.ms.mem x = sector s3.ms.backing x)) ∧
          (¬ here x → sector u.ms.mem x = sector s3.ms.mem x)))) ∧
  (∀ (s : State) secs, (∀ g ∈ s.groups, g.atomic = none ∧ g.splitDue = false) → (s.splitSectors secs).splitWaits secs = false) ∧
  (∀ core line (s : State),
    (256 ≤ core ∨ 2 ^ 52 ≤ 128 * line ∨ (line, core) ∈ s.ms.owned ∨ s.podMapped line = true → Runs (.lineOwnershipGrant core line) s s) ∧
    (core < 256 → 128 * line < 2 ^ 52 → (line, core) ∉ s.ms.owned → s.podMapped line = false → s.usedBanks core < 96 →
      ∃ ow l1, Runs (.lineOwnershipGrant core line) s { s with ms := { s.ms with owned := ow, l1 := l1 } } ∧ (line, core) ∈ ow ∧
        (∀ o ∈ ow, o.1 = line → o.2 = core) ∧ (∀ o ∈ ow, o = (line, core) ∨ o ∈ s.ms.owned) ∧
        (∀ o ∈ s.ms.owned, o.1 ≠ line → o.2 ≠ core → o ∈ ow) ∧ (∀ o ∈ l1, o ∈ s.ms.l1))) ∧
  (∀ line s, s.MemoryWf →
    ((∃ p ∈ s.ms.pins, p.1 = line) → Runs (.lineEviction line) s s) ∧
    let secs := lineSectors line
    let split := State.splitSectors { s with ms := s.ms.recall (128 * line) 128 } secs
    ((∀ p ∈ s.ms.pins, p.1 ≠ line) → split.splitWaits secs = true → Runs (.lineEviction line) s split) ∧
    ((∀ p ∈ s.ms.pins, p.1 ≠ line) → split.splitWaits secs = false → ∃ t : State, Runs (.lineEviction line) s t ∧ (s.ms.tokens = [] → t.g = s.g ∧ t.others = s.others) ∧
      (∀ x, x / 4 = line → x ∉ t.ms.dirty ∧ (x ∈ s.ms.dirty → memRead t.ms.backing (32 * x) 32 = memRead s.ms.mem (32 * x) 32)) ∧
      ((∀ x ∈ s.ms.stale, x / 4 ≠ line) → SameMemory s t)))

/-- Atomics: one read-modify-write per lane, in ascending lane order, each seeing the lanes below it; atom returns the old
values in D and atomu in S[D], red returns nothing. Where State.pauses says so, others may move between two lanes, but not with a lane on a RACECHECK
page (the model's reading, log 113); an atomic that has started performs the lanes that are left. A lane changes the bytes of its element and no other; a failed compare
changes none; the .f32 forms add with one rounding to nearest, and take fmin and fmax. A line of device memory that no core owns, that is
not pod-mapped (as the model reads that, log 91), may be granted to one core, whose cache may give up others for it (log 86); no byte of
memory and no group changes (R182 to R186). -/
def Obligations.Atomics : Prop :=
  (∀ core line (s : State), core < 256 → 128 * line < 2 ^ 52 → (∀ o ∈ s.ms.owned, o.1 ≠ line) → s.podMapped line = false →
    s.usedBanks core < 96 → ∃ u : State, Runs (.lineOwnershipGrant core line) s u ∧
    (line, core) ∈ u.ms.owned ∧ u.ms.mem = s.ms.mem ∧ u.g = s.g ∧ u.others = s.others) ∧
  (∀ (s : State) k w aop x cmp, s.MemoryWf → x < 2 ^ (8 * w) → cmp < 2 ^ (8 * w) → (w = 4 ∨ w = 8) → (aop < 10 ∨ (w = 4 ∧ aop < 13)) →
    let old := leNat (memRead s.ms.mem k w)
    let new : Nat := match aop with
      | 0 => (old + x) % 2 ^ (8 * w)
      | 1 => if signedOf w x < signedOf w old then x else old
      | 2 => if signedOf w old < signedOf w x then x else old
      | 3 => if x < old then x else old
      | 4 => if old < x then x else old
      | 5 => old &&& x
      | 6 => old ||| x
      | 7 => old ^^^ x
      | 8 => x
      | 9 => if old = cmp then x else old
      | 10 => (f32.round 0 0 false (fvAdd 0 (f32.read old) (f32.read x)).x).bits % 2 ^ 32
      | 11 => (fmtMinMax f32 false old x).bits % 2 ^ 32
      | _ => (fmtMinMax f32 true old x).bits % 2 ^ 32
    let r := s.atomicAt k w aop x cmp
    r.2 = old ∧ r.1.g = s.g ∧ leNat (memRead r.1.ms.mem k w) = new ∧ SameMemoryOutside k w s r.1) ∧
  (∀ w aop x cmp l i k s,
    let r := atomicLanes w aop x cmp l s
    let q := r.1.atomicAt k w aop (x i) (cmp i)
    atomicLanes w aop x cmp (l ++ [(i, k)]) s = (q.1, r.2 ++ [(i, q.2)])) ∧
  (∀ (f : MA) (s : State) (run : AtomicRun), let m := maMask f s.g
    let wide := decide (maBytes f = 8)
    let val (n : Byte) (i : Nat) : Nat := if wide then (s.g.vpair n i).toNat else (s.g.vget n i).toNat
    let r (n : Nat) := atomicLanes (maBytes f) f.aop.toNat (val (maOperand f)) (val f.d) (run.left.take n)
    let after (u : State) (a : Option AtomicRun) : State := { u with g := { u.g with atomic := a } }
    s.g.atomic = some run →
    (s.pauses = [] ∨ run.whole = true → let q := r run.left.length s
      (∃ out : Nat → Nat, (∀ k o, (run.olds ++ q.2).find? (·.1 = k) = some o → out k = o.2) ∧ Runs (.atom f) s ((after q.1 none).setV wide f.d m out).retire) ∧
      Runs (.red f) s (after q.1 none).retire) ∧
    (∀ n rest, run.whole = false → s.pauses = n :: rest → n < run.left.length → let q := r n { s with pauses := rest }
      ∀ i ∈ [Instr.atom f, .red f], Runs i s (after q.1 (some { run with left := run.left.drop n, olds := run.olds ++ q.2 })))) ∧
  (∀ (f : MA) (s s2 : State) (hits : List Hit3), let m := maMask f s.g
    let wide := decide (maBytes f = 8)
    let val (n : Byte) (i : Nat) : Nat := if wide then (s.g.vpair n i).toNat else (s.g.vget n i).toNat
    m ≠ 0 → s.g.atomic = none → (s.pauses = [] ∨ ∃ h ∈ hits, h.2.2.rc = true) →
    s.Clean (addrItems s.g m f.sb f.vx ++ s.g.vitems wide m f.d ++ s.g.vitems wide m (maOperand f)) →
    s.Passes (.atomic (maBytes f)) false true (laneAccs s.g m f.sb f.vx f.scale f.off.toInt) s2 hits →
    let r := atomicLanes (maBytes f) f.aop.toNat (val (maOperand f)) (val f.d) (hits.map fun h => (h.1, h.2.2.key)) (s2.beforeAtomic f.ord)
    (∃ out : Nat → Nat, (∀ o ∈ r.2, out o.1 = o.2) ∧ Runs (.atom f) s (r.1.setV wide f.d m out).retire) ∧ Runs (.red f) s r.1.retire) ∧
  (∀ (f : MA) (s s2 : State) (h : Hit3), s.g.atomic = none → (s.pauses = [] ∨ h.2.2.rc = true) →
    s.Clean ([s.g.sitem f.sb, s.g.sitem (snum f.d)] ++ if f.aop = 9 then [s.g.sitem (snum f.d + 1)] else []) →
    s.Passes (.atomic (maBytes f)) true true [(0, ((s.g.sget f.sb).toNat : Int) + f.off.toInt)] s2 [h] →
    let x := (s.g.sget (if f.aop = 9 then snum f.d + 1 else snum f.d)).toNat % 2 ^ (8 * maBytes f)
    let r := (s2.beforeAtomic f.ord).atomicAt h.2.2.key (maBytes f) f.aop.toNat x ((s.g.sget (snum f.d)).toNat % 2 ^ (8 * maBytes f))
    Runs (.atomu f) s (r.1.setS (snum f.d) (BitVec.ofNat 64 r.2)).retire)

/-- Fences: fence at co or wider with .rel or .ar, and xfence of class g, perform every store of the group in program order,
at sy down to the backing memory; both end the region, xfence at its start, and change no register. xfence then waits, with nothing
else changed, while an access of its classes is not performed. A store that meets another region's writer token on a RACECHECK page raises CONFLICT,
which names that token; with no token there the access is granted its own; one that meets only the tentative token of a waiting load
squashes that load and proceeds. An eviction of a line that is not pinned, when no token is
held, leaves no dirty sector of it (R181, R218 to R222, R225, R226). -/
def Obligations.FencesAndConflicts : Prop :=
  (∀ line (s : State), s.ms.tokens = [] → (∀ p ∈ s.ms.pins, p.1 ≠ line) → ∃ u : State, Runs (.lineEviction line) s u ∧ u.g = s.g ∧ u.others = s.others ∧
    (∀ x, x / 4 = line → x ∉ u.ms.dirty) ∧ ∀ x, x / 4 ≠ line → (x ∈ u.ms.dirty ↔ x ∈ s.ms.dirty)) ∧
  (∀ (f : FY) (s : State) (i : Instr), let q := s.unreplayable.g.storeQ
    let all := (i = .fence f ∧ 2 ≤ f.scope.toNat ∧ f.ord.toNat ≠ 1) ∨ (i = .xfence f ∧ f.cls1.getLsbD 5 = true)
    i = .fence f ∨ (i = .xfence f ∧ s.g.begun = false ∧ s.pendingOn f.cls1 = false) →
    ∃ u : State, Runs i s u.retire ∧ u.g.r = s.g.r ∧ u.g.pc = s.g.pc ∧ u.g.seq = s.g.seq + 1 ∧ u.others = s.others ∧
      (all → u.g.storeQ = [] ∧ u.ms.mem = q.foldl (fun m p => memSetAll m p.key p.bytes) s.ms.mem ∧ (f.scope = 11 → u.ms.dirty = [])) ∧
      (¬ all → u.g.storeQ = q ∧ u.ms.mem = s.ms.mem)) ∧
  (∀ (f : FY) (s : State), s.pendingOn f.cls1 = true → Runs (.xfence f) s s.endAtStart) ∧
  (∀ (f : FY) (s : State), s.g.begun = true → s.pendingOn f.cls1 = false →
    ∃ u : State, Runs (.xfence f) s u.retire ∧ u.g.r = s.g.r ∧ u.g.pc = s.g.pc ∧ u.g.seq = s.g.seq ∧ (f.cls1.getLsbD 5 = true → u.g.storeQ = [])) ∧
  (∀ s : State, (s.g.begun = true → s.endAtStart = s) ∧
    (s.g.begun = false → s.endAtStart = { s.endRegion with g := { s.endRegion.g with begun := true } }) ∧ s.endRegion.g = { s.g with seq := s.g.seq + 1 }) ∧
  (∀ (f : FM) (s s1 : State) (h : Hit3) (tok : Token), s.Clean [s.g.sitem f.sb, s.g.sitem (snum f.d)] →
    let accs : List (Nat × Int) := [(0, ((s.g.sget f.sb).toNat : Int) + f.off.toInt)]
    checkAccess s s.g.core s.g.ctx (.store (fmBytes f)) true accs = .ok s1 [h] → checkWatch s1 s1.g (.store (fmBytes f)) true accs = none →
    h.2.2.rc = true → s1.ms.tokens = [tok] → tok.sector = h.2.2.key / 32 → tok.heldBy s1.g = false → tok.writer = true →
    tok.tentative = false →
    Runs (.stu f) s (takeTrap { cause := cCONFLICT, eaddr := w64 h.2.1, einfo := BitVec.ofNat 64 (conflictInfo s1.g tok true) } s1)) ∧
  (∀ (s : State) sec w, (∀ t ∈ s.ms.tokens, t.sector ≠ sec) →
    s.snareOne sec w false = ({ s with ms := { s.ms with tokens := s.ms.tokens ++
      [{ sector := sec, ctx := s.g.ctx, core := s.g.core, slot := s.g.slot, seq := s.g.seq, writer := w, tentative := !w }] } }, .ok) ∧
    s.snareOne sec true true = (s, .ok)) ∧
  (∀ (s : State) sec tok, s.ms.tokens = [tok] → tok.sector = sec → tok.heldBy s.g = false → tok.tentative = true →
    s.snareOne sec true false = ({ s with ms := { s.ms with tokens :=
      [{ sector := sec, ctx := s.g.ctx, core := s.g.core, slot := s.g.slot, seq := s.g.seq, writer := true }] } }, .ok))

/-! ## Tiles and copies -/

/-- The tile table: a handle's checks in their order; talloc makes the lowest free entry Open, or Global, and returns its handle,
or raises TILEBND code 3 or BUDGET with its code, short handles before granules (the model's choice, log 103); where a saved group's tiles came from entries of the core, a new tile takes no entry and
generation of theirs (the model's choice, log 94); tfree by the owner increments the generation and frees the entry, waits for outbound
copies, and leaves Draining while copies are inbound; tinfo returns the word of R201; tset sets the tags of its rows; twait goes
on once the tile is Full and waits before, its region ended already (that it has ended while it waits is the model's choice, log 11), and
one that waits retires with the move that makes its tile Full (R190 to R195, R200, R201). -/
def Obligations.TileTable : Prop :=
  (∀ (s : State) core ctx h (ok : Tile → Bool),
    (hReserved h = true → s.checkHandle core ctx h ok = .error 6) ∧
    (hReserved h = false → hCore h ≠ core → s.checkHandle core ctx h ok = .error 2) ∧
    (hReserved h = false → hCore h = core → s.tileAt core (hIdx h) = none → s.checkHandle core ctx h ok = .error 1) ∧
    (∀ t, hReserved h = false → hCore h = core → s.tileAt core (hIdx h) = some t →
      (t.st = .draining ∨ t.gen ≠ hGen h → s.checkHandle core ctx h ok = .error 1) ∧
      (t.st ≠ .draining → t.gen = hGen h → t.ctx ≠ ctx → s.checkHandle core ctx h ok = .error 2) ∧
      (t.st ≠ .draining → t.gen = hGen h → t.ctx = ctx →
        s.checkHandle core ctx h ok = if ok t = true ∧ hLvl h = t.isGlobal ∧ hSkew h = t.skew then .ok t else .error 3))) ∧
  (∀ (f : FT) (s : State), s.Clean ([s.g.sitem f.i] ++ if f.lvl = 1 then [s.g.sitem f.b] else []) →
    let shape := s.g.sget f.i
    let n := tileGranules f.ty (shRows shape) (shCols shape)
    let good := shapeOk f.ty (f.mode == 1) (f.lvl == 1) shape (s.g.sget f.b)
    (good = false → Runs (.talloc f) s (takeTrap { cause := cTILEBND, einfo := 3 } s)) ∧
    (good = true → s.g.handles ≤ s.heldTiles s.g.gid → Runs (.talloc f) s (takeTrap { cause := cBUDGET, einfo := 1 } s)) ∧
    (good = true → s.heldTiles s.g.gid < s.g.handles → f.lvl = 0 → s.g.granules < s.usedGranules s.g.core s.g.gid + n →
      Runs (.talloc f) s (takeTrap { cause := cBUDGET, einfo := 2 } s)) ∧
    (good = true → s.heldTiles s.g.gid < s.g.handles → f.lvl = 0 → s.usedGranules s.g.core s.g.gid + n ≤ s.g.granules →
      s.freeRun s.g.core s.g.gid s.g.granules n = none → Runs (.talloc f) s (takeTrap { cause := cBUDGET, einfo := 3 } s)) ∧
    (∀ a, good = true → s.heldTiles s.g.gid < s.g.handles → s.newEntry s.g.core = none →
      (f.lvl = 0 → s.usedGranules s.g.core s.g.gid + n ≤ s.g.granules ∧ s.freeRun s.g.core s.g.gid s.g.granules n = some a) →
      Runs (.talloc f) s (takeTrap { cause := cBUDGET, einfo := 1 } s.unreplayable)) ∧
    (∀ i a, good = true → s.heldTiles s.g.gid < s.g.handles → s.newEntry s.g.core = some i →
      (f.lvl = 0 → s.usedGranules s.g.core s.g.gid + n ≤ s.g.granules ∧ s.freeRun s.g.core s.g.gid s.g.granules n = some a) →
      let glb := f.lvl == 1
      let t : Tile := { core := s.g.core, idx := i, st := if glb then .global else .open_, gen := s.newGen s.g.core i, ty := f.ty
                        skew := f.mode == 1, rows := shRows shape, cols := shCols shape, base := if glb then (s.g.sget f.b).toNat else 0
                        stride := shStride shape, res := s.g.gid, gran := if glb then 0 else a, ngran := if glb then 0 else n
                        owner := s.g.gid, ctx := s.g.ctx, launch := s.g.launchName }
      Runs (.talloc f) s (State.retire (State.setS { s.unreplayable with cs := { s.cs with
        tiles := s.cs.tiles ++ [t], tileGens := sparseSet 0 (256 * s.g.core + i) t.gen s.cs.tileGens } } (snum f.d) t.handle)))) ∧
  (∀ (s : State) core, (∀ t ∈ s.cs.savedTiles, t.core ≠ core) → ∀ i,
    (s.newEntry core = some i ↔ i < 256 ∧ s.tileAt core i = none ∧ ∀ j < i, s.tileAt core j ≠ none) ∧ s.newGen core i = s.tileGen core i) ∧
  (∀ (f : FT) (s : State) (t : Tile), s.Clean [s.g.sitem f.h] → s.checkHandle s.g.core s.g.ctx (s.g.sget f.h) (fun _ => true) = .ok t →
    let gens := sparseSet 0 (256 * t.core + t.idx) (s.tileGen t.core t.idx + 1) s.cs.tileGens
    (t.owner ≠ s.g.gid → Runs (.tfree f) s (takeTrap { cause := cTILESTATE, einfo := 4 } s)) ∧
    (t.owner = s.g.gid → 0 < t.outbound → Runs (.tfree f) s s.wait) ∧
    (t.owner = s.g.gid → t.outbound = 0 → t.inbound = 0 →
      Runs (.tfree f) s (State.retire { s.unreplayable with cs := { s.cs with
        tileGens := gens, tiles := s.cs.tiles.filter fun u => !(u.core = t.core && u.idx = t.idx) } })) ∧
    (t.owner = s.g.gid → t.outbound = 0 → 0 < t.inbound →
      Runs (.tfree f) s (State.retire { s.unreplayable with cs := { s.cs with
        tileGens := gens
        tiles := s.cs.tiles.map fun u => if u.core = t.core && u.idx = t.idx
          then { u with st := .draining, gen := s.tileGen t.core t.idx + 1 } else u } })) ∧
    (s.isSavedTile s.g.core s.g.ctx (s.g.sget f.h) = false → ∃ code, (t.st = .open_ → code = 1) ∧ (t.st = .filling → code = 2) ∧ (t.st = .full → code = 3) ∧ (t.st = .global → code = 5) ∧
      Runs (.tinfo f) s (s.setS (snum f.d) (BitVec.ofNat 64 (code + (if t.st = .global then 2 ^ 3 else 0) + (if t.skew then 2 ^ 4 else 0) +
        2 ^ 5 * t.ty.toNat + 2 ^ 9 * t.rows + 2 ^ 22 * t.cols + 2 ^ 35 * min 15 (t.inbound + t.outbound) + (if t.err then 2 ^ 39 else 0) +
        (if t.meta_ then 2 ^ 40 else 0) + 2 ^ 41 * (t.ecause.toNat % 32)))).retire)) ∧
  (∀ (f : FT) (s : State), s.Clean [s.g.sitem f.h] → hReserved (s.g.sget f.h) = false → hCore (s.g.sget f.h) = s.g.core →
    s.tileAt s.g.core (hIdx (s.g.sget f.h)) = none → s.isSavedTile s.g.core s.g.ctx (s.g.sget f.h) = false → Runs (.tinfo f) s (s.setS (snum f.d) (BitVec.ofNat 64 (2 ^ 46))).retire) ∧
  (∀ (f : FT) (s : State) (t : Tile), s.Clean [s.g.sitem f.h, s.g.sitem f.i, s.g.sitem f.b] →
    s.checkHandle s.g.core s.g.ctx (s.g.sget f.h) (fun t => !t.isGlobal) = .ok t →
    let r0 := (s.g.sget f.i).toNat
    let n := if s.g.sget f.b = 0 then t.rows - r0 else (s.g.sget f.b).toNat
    let u := s.unreplayable.drain.endRegion
    ∀ q ∈ [(Instr.tsetFull f, true), (Instr.tsetEmpty f, false)],
      (t.rows ≤ r0 ∨ t.rows < r0 + n → Runs q.1 s (takeTrap { cause := cTILEBND, einfo := 1 } s)) ∧
      (r0 < t.rows → r0 + n ≤ t.rows → Runs q.1 s (State.retire
        (u.mapTile t.core t.idx fun t => ((t.rowRange r0 n).foldl (fun t k => t.tagWord q.2 k) t).norm)))) ∧
  (∀ (f : FT) (s : State) (t : Tile), s.Clean [s.g.sitem f.h] → s.checkHandle s.g.core s.g.ctx (s.g.sget f.h) (fun t => !t.isGlobal) = .ok t →
    (t.st = .full → Runs (.twait f) s s.endAtStart.retire) ∧
    (t.st ≠ .full → t.failed = [] → let u := s.endAtStart
      Runs (.twait f) s (State.wait { u with g := { u.g with twait := some (t.core, t.idx, t.gen) } }))) ∧
  (∀ (s : State) (w : Nat × Nat × BitVec 16) (t : Tile), s.g.phase = .parked → s.g.twait = some w → s.tileAt w.1 w.2.1 = some t → t.gen = w.2.2 →
    (t.st = .full → s.passTwaits.g = s.g.advance) ∧ (t.st ≠ .full → s.passTwaits.g = s.g))

/-- Tile accesses: tld reads the lanes' elements, extended, whatever the tags; tst writes them in ascending lane order, a release
at co; tldw and tldc wait for full words, and tldc empties them in the same step; tstw waits for empty words and fills them; each of the
three ends its region at its start, also when it then waits (the model's choice, log 11), and takes its words unless another group that can
take one of them has waited longer, and one of the two changes it; lanes of tldc or tstw that share a word raise TILESTATE code 5; a row or column outside the tile raises TILEBND, every lane's row
before any lane's column (the model's choice, log 95). A word written or tagged keeps every other word (R193, R196 to R199). -/
def Obligations.TileAccess : Prop :=
  (∀ (t : Tile) k x full j, sparseWfFrom ((0 : W32), false) 0 t.words = true →
    (t.putWord k x full).word j = (if j = k then (x, full) else t.word j) ∧
    (t.tagWord full k).word j = (if j = k then ((t.word k).1, full) else t.word j)) ∧
  (∀ (t : Tile) r c v, sparseWfFrom ((0 : W32), false) 0 t.words = true → tyBits t.ty ∈ [2, 4, 8, 16, 32] → c < t.cols →
    (t.putElem r c v).elem r c = v % 2 ^ tyBits t.ty ∧ ((t.putElem r c v).word (t.place r c).1).2 = true ∧
    (∀ c' < t.cols, c' ≠ c → (t.putElem r c v).elem r c' = t.elem r c') ∧ (∀ r' c', r' ≠ r → c' < t.cols → (t.putElem r c v).elem r' c' = t.elem r' c')) ∧
  (∀ (f : FT) (s : State) (t : Tile), s.Reaches f t →
    let m := ftMask f s.g
    let w := ftWord f s.g t
    let items (data : Bool) : List Item := [s.g.sitem f.h, s.g.sitem f.i] ++ s.g.vitems false m f.j ++ if data then s.g.vitems false m f.d else []
    let read (i : Nat) : Nat :=
      let e := t.elem (ftPlace f s.g i).1 (ftPlace f s.g i).2
      if isSigned t.ty then (elemInt t.ty e % 2 ^ 32).toNat else e
    let written (t : Tile) : Tile :=
      (((activeLanes m).foldl (fun t i => t.putElem (ftPlace f s.g i).1 (ftPlace f s.g i).2 (s.g.vget f.d i).toNat) t).clearWhole
        ((activeLanes m).map fun i => t.place (ftPlace f s.g i).1 (ftPlace f s.g i).2)).norm
    let apart : Prop := ∀ i < 32, ∀ j < 32, m.getLsbD i = true → m.getLsbD j = true → i ≠ j → w i ≠ w j
    let full (b : Bool) : Prop := ∀ i < 32, m.getLsbD i = true → (t.word (w i)).2 = b
    let first (empty changes : Bool) : Prop := ∀ h ∈ s.others, h.phase = .parked → ∀ x, h.waits = some x → x.core ≠ t.core ∨ x.idx ≠ t.idx ∨
      x.empty ≠ empty ∨ (changes = false ∧ x.changes = false) ∨ (∀ i < 32, m.getLsbD i = true → w i ∉ x.words) ∨ x.ready s = false ∨
      ∃ v, s.g.waits = some v ∧ v.no ≤ x.no
    (s.Clean (items false) → t.Sound m w →
      Runs (.tld f) s (s.setV false f.d m read).retire ∧
      (first false false → full true → Runs (.tldw f) s (s.endAtStart.setV false f.d m read).retire) ∧
      (apart → first false true → full true → Runs (.tldc f) s (State.retire ((s.endAtStart.unreplayable.setV false f.d m read).mapTile t.core t.idx
        fun t => ((activeLanes m).foldl (fun t i => t.tagWord false (w i)) t).norm))) ∧
      (¬ full true ∨ ¬ first false false → s.Waits (.tldw f)) ∧ (apart → ¬ full true ∨ ¬ first false true → s.Waits (.tldc f))) ∧
    (s.Clean (items true) →
      Runs (.tst f) s (s.unreplayable.drain.endRegion.mapTile t.core t.idx written).retire ∧
      (apart → first true true → full false → Runs (.tstw f) s (s.endAtStart.unreplayable.drain.mapTile t.core t.idx written).retire) ∧
      (apart → ¬ full false ∨ ¬ first true true → s.Waits (.tstw f))) ∧
    (¬ apart →
      let same := maskOf fun i => m.getLsbD i && (List.range 32).any fun j => m.getLsbD j && j != i && w j == w i
      let clash := takeTrap { cause := cTILESTATE, einfo := 5, elanes := same } s
      (s.Clean (items false) → Runs (.tldc f) s clash) ∧ (s.Clean (items true) → Runs (.tstw f) s clash))) ∧
  (∀ (f : FT) (s : State) (t : Tile), ftMask f s.g ≠ 0 → s.Clean ([s.g.sitem f.h, s.g.sitem f.i] ++ s.g.vitems false (ftMask f s.g) f.j ++ s.g.vitems false (ftMask f s.g) f.d) →
    s.checkHandle s.g.core s.g.ctx (s.g.sget f.h) (fun t => !t.isGlobal && t.ty == f.ty) = .ok t →
    let badRow := maskOf fun i => (ftMask f s.g).getLsbD i && decide (t.rows ≤ (ftPlace f s.g i).1)
    let badCol := maskOf fun i => (ftMask f s.g).getLsbD i && decide (t.cols ≤ (ftPlace f s.g i).2)
    ∀ i ∈ [Instr.tld f, .tst f, .tldw f, .tldc f, .tstw f],
      (badRow ≠ 0 → Runs i s (takeTrap { cause := cTILEBND, einfo := 1, elanes := badRow } s)) ∧
      (badRow = 0 → badCol ≠ 0 → Runs i s (takeTrap { cause := cTILEBND, einfo := 2, elanes := badCol } s)))

/-- Copies: tcpi empties the tags of its rows and makes the tile Filling; tcpo and tcpm take their rows as they stand; each
ends the region, changes no register and no memory, and goes on in flight. A landing fills the word it names, and waits for the promoted
staging requests before it; a copy in ends once every word has landed, and the tile is then Full or Open; a copy out writes its rows to
memory at its completion, from the image taken at its start (the model's choice, log 45), and no other byte (R195, R197, R202 to R205;
one queue for the device, and the words of a copy in ascending order, are the model's choices, logs 83 and 104). -/
def Obligations.Copies : Prop :=
  (∀ (f : FT) (s s1 : State) (t : Tile) (ts : List Hit3) (out : Bool),
    let r0 := (s.g.sget (snum f.d)).toNat
    let n := if f.imm = 0 then t.rows - r0 else f.imm.toNat
    let addr := (s.g.sget f.i).toNat
    let stride := (s.g.sget f.b).toNat
    let z := f.mode != 0
    let len := copyRowBytes t.ty t.cols z
    s.Clean [s.g.sitem f.h, s.g.sitem (snum f.d), s.g.sitem f.i, s.g.sitem f.b] →
    s.checkHandle s.g.core s.g.ctx (s.g.sget f.h) (fun t => !t.isGlobal) = .ok t →
    r0 < t.rows → r0 + n ≤ t.rows → addr % 4 = 0 → stride % 4 = 0 → (z = true → z24Ok t = true) → len ≤ stride →
    checkAccess s s.g.core s.g.ctx (copySpec out) true ((pageStarts addr stride len n).map fun a => (0, (a : Int))) = .ok s1 ts →
    (out = false → ∃ (u : State) (c : Copy) (t' : Tile), Runs (.tcpi f) s u.retire ∧ u.g.r = s.g.r ∧ u.g.seq = s.g.seq + 1 ∧ u.ms.mem = s1.ms.mem ∧
      u.cs.copies = s.cs.copies ++ [c] ∧ c.kind = .tcpi ∧ c.idx = t.idx ∧ c.gen = t.gen ∧ c.row = r0 ∧ c.nrows = n ∧ c.addr = addr ∧ c.stride = stride ∧ c.pos = 0 ∧
      u.tileAt t.core t.idx = some t' ∧ t'.inbound = t.inbound + 1 ∧ (t.st = .open_ ∨ t.st = .full → t'.st = .filling) ∧
      t'.words = ((t.rowRange r0 n).foldl (fun t k => t.tagWord false k) t).words) ∧
    (out = true → ∃ (u : State) (c : Copy) (t' : Tile), Runs (.tcpo f) s u.retire ∧ u.g.r = s.g.r ∧ u.g.seq = s.g.seq + 1 ∧ u.ms.mem = s1.ms.mem ∧
      u.cs.copies = s.cs.copies ++ [c] ∧ c.kind = .tcpo ∧ c.idx = t.idx ∧ c.gen = t.gen ∧ c.row = r0 ∧ c.nrows = n ∧ c.addr = addr ∧ c.stride = stride ∧
      c.image = (List.range n).map (fun i => t.memRow z (r0 + i)) ∧
      u.tileAt t.core t.idx = some t' ∧ t' = { t with outbound := t.outbound + 1 })) ∧
  (∀ (f : FT) (s : State) (t d : Tile),
    let r0 := (s.g.sget (snum f.d)).toNat
    let n := if f.imm = 0 then t.rows - r0 else f.imm.toNat
    s.Clean [s.g.sitem f.h, s.g.sitem (snum f.d), s.g.sitem f.i] →
    s.checkHandle s.g.core s.g.ctx (s.g.sget f.h) (fun t => !t.isGlobal) = .ok t →
    s.checkHandle (corePeer s.g.core) s.g.ctx (s.g.sget f.i) (fun u => !u.isGlobal && u.ty == t.ty && u.cols = t.cols) = .ok d →
    t.rows ≤ d.rows → r0 < t.rows → r0 + n ≤ t.rows →
    ∃ (u : State) (c : Copy), Runs (.tcpm f) s u.retire ∧ u.g.r = s.g.r ∧ u.g.seq = s.g.seq + 1 ∧ u.ms.mem = s.ms.mem ∧
      u.cs.copies = s.cs.copies ++ [c] ∧ c.kind = .tcpm ∧ c.idx = t.idx ∧ c.gen = t.gen ∧ c.dcore = d.core ∧ c.didx = d.idx ∧ c.dgen = d.gen ∧
      c.row = r0 ∧ c.nrows = n ∧ c.image = (List.range n).map (fun i => (t.rowRange (r0 + i) 1).flatMap fun k => leBytes 4 (t.word k).1.toNat) ∧
      u.tileAt t.core t.idx = some { t with outbound := t.outbound + 1 } ∧ u.tileAt d.core d.idx = some d.beginIn) ∧
  (∀ (s : State) (c : Copy) (t : Tile) w bad, s.cs.copies.find? (·.id = c.id) = some c → c.kind = .tcpi → s.tileAt c.core c.idx = some t →
    t.st ≠ .draining → t.gen = c.gen → c.pos < c.nrows * t.rowWords → c.nextWord s t = .ok (w, bad) →
    (s.demandMayLand c.id = false → Runs (.inboundWrite c.id) s s) ∧
    (s.demandMayLand c.id = true → ∃ u : State, Runs (.inboundWrite c.id) s u ∧ u.g = s.g ∧ u.ms.mem = s.ms.mem ∧
      u.tileAt c.core c.idx = some (Tile.norm { t.putWord (c.row * t.rowWords + c.pos) w true with meta_ := t.meta_ || bad }))) ∧
  (∀ (s : State) (c : Copy) (t : Tile), s.cs.copies.find? (·.id = c.id) = some c → c.kind = .tcpi → s.tileAt c.core c.idx = some t →
    t.st = .filling → t.inbound = 1 → c.nrows * t.rowWords ≤ c.pos →
    ∃ u : State, Runs (.copyComplete c.id) s u ∧ u.g = s.g ∧ u.ms = s.ms ∧ u.cs.copies = s.cs.copies.filter (·.id ≠ c.id) ∧
      u.tileAt c.core c.idx = some { t with inbound := 0, st := if t.allFull then .full else .open_ }) ∧
  (∀ (s : State) (c : Copy) len, s.MemoryWf → s.cs.copies.find? (·.id = c.id) = some c → c.kind = .tcpo → 0 < len → len ≤ c.stride →
    s.demandMayLand c.id = true → c.image.length = c.nrows → (∀ r ∈ c.image, r.length = len) → c.bad = [] →
    (∃ q ∈ c.map, q.1 = c.addr / 65536) → (∀ i < c.nrows, (c.addr + i * c.stride + len - 1) / 65536 = c.addr / 65536) →
    (∀ i < c.nrows, c.blocked s false ((List.range len).map (· + (c.addr + i * c.stride))) = none) →
    ∃ u : State, Runs (.copyComplete c.id) s u ∧ u.g = s.g ∧ u.cs.copies = s.cs.copies.filter (·.id ≠ c.id) ∧
      (∀ i < c.nrows, memRead u.ms.mem (c.keyOf s (c.addr + i * c.stride)).key len = c.image.getD i []) ∧
      (∀ a, (∀ i < c.nrows, a < (c.keyOf s (c.addr + i * c.stride)).key ∨ (c.keyOf s (c.addr + i * c.stride)).key + len ≤ a) →
        memGet u.ms.mem a = memGet s.ms.mem a) ∧
      (∀ t, s.tileAt c.core c.idx = some t → t.gen = c.gen → u.tileAt c.core c.idx = some { t with outbound := t.outbound - 1 }))

/-! ## The matrix engine -/

/-- The recoding of R38: its steps, lowest digit first; the sum of the digits times the activation is the exact product; every
digit is +1 or -1, no two adjacent ones are nonzero, and a weight takes at most 4 passes in .i8 with shifts of 0 to 7, 2 in .q4 with
shifts of 0 to 3, and 1 in .t and .t5, with shift 0 (R38, R308). -/
def Obligations.SignedDigits : Prop :=
  ∀ a w : Int, -128 ≤ w → w ≤ 127 → let next (l : List (Int × Nat)) : List (Int × Nat) := l.map fun p => (p.1, p.2 + 1)
    (w = 0 → passes w = []) ∧ (w ≠ 0 → w % 2 = 0 → passes w = next (passes (w / 2))) ∧
    (w % 2 = 1 → passes w = (2 - w % 4, 0) :: next (passes ((w - (2 - w % 4)) / 2))) ∧
    passSum a w = a * w ∧ (∀ p ∈ passes w, (p.1 = 1 ∨ p.1 = -1) ∧ p.2 < 8) ∧ (passes w).length ≤ 4 ∧
    (-7 ≤ w → w ≤ 7 → (passes w).length ≤ 2 ∧ ∀ p ∈ passes w, p.2 < 4) ∧ (-1 ≤ w → w ≤ 1 → (passes w).length ≤ 1 ∧ ∀ p ∈ passes w, p.2 = 0) ∧
    ∀ j, ∀ p q, (passes w)[j]? = some p → (passes w)[j + 1]? = some q → p.2 + 2 ≤ q.2

/-- The matrix instructions: mac and macg accumulate exactly under R322, with weights and scales from registers or from global
tiles; azero, amov and aput set rows of an accumulator; aread rounds each element times its outer scale once; an enabled exception of
aput or aread raises FPEXC for its lanes with nothing written (R40 to R42, R55, R309 to R314, R322 to R326). -/
def Obligations.MatrixInstructions : Prop :=
  (∀ (f : FX) (s : State), let m := fxMask f s.g
    let k := f.km1.toNat + 1
    let n := fetchedBytes f.wf k 0
    let at_ (c b : Nat) : Byte × Nat × Nat := ((f.vb + BitVec.ofNat 8 (fragByte f.wf c b).1), (fragByte f.wf c b).2)
    m ≠ 0 → s.Clean (macItems f s.g m ++ cols16.flatMap (fun c => (List.range n).map fun b => s.g.vitem (at_ c b).1 (at_ c b).2.1) ++
      cols16.map fun c => s.g.vitem (f.vs + 1) c) →
    MatrixResult (.mac f) f s s
      (cols16.map fun c => columnOf f.wf k 0 (n * perByte f.wf) ((List.range n).map fun b => byteOf (s.g.vget (at_ c b).1 (at_ c b).2.1) (at_ c b).2.2))
      (cols16.map fun c => scaleExp (byteOf (s.g.vget (f.vs + 1) c) f.bsel.toNat))) ∧
  (∀ (f : FX) (s s1 : State) (w sc : Tile) (ts : List Hit3), let m := fxMask f s.g
    let k := f.km1.toNat + 1
    let p := s.g.sget (f.sh + 2)
    let e0 := posK0 p % perByte f.wf
    let n := fetchedBytes f.wf k e0
    let rowAt (c : Nat) : Nat := w.base + (posN0 p + c) * w.stride + posK0 p / perByte f.wf
    let scaleAt (c : Nat) : Nat := sc.base + (posN0 p + c) * sc.stride + posK0 p / 32
    let live := cols16.filter fun c => posN0 p + c < w.rows
    m ≠ 0 → s.Clean ([s.g.sitem f.sh, s.g.sitem (f.sh + 1), s.g.sitem (f.sh + 2)] ++ macItems f s.g m) →
    s.checkHandle s.g.core s.g.ctx (s.g.sget f.sh) (fun _ => true) = .ok w →
    s.checkHandle s.g.core s.g.ctx (s.g.sget (f.sh + 1)) (fun _ => true) = .ok sc → macgBounds f w sc p = none →
    checkAccess s s.g.core s.g.ctx { AccSpec.eread .x 1 with exact := true } true
      (((live.flatMap (fun c => sectorStarts (rowAt c) n) ++ live.map scaleAt).foldl (fun l a => insertAddr a l) []).map fun a => (0, (a : Int))) = .ok s1 ts →
    MatrixResult (.macg f) f s s1
      (cols16.map fun c => if posN0 p + c < w.rows
        then columnOf f.wf k e0 (w.cols - posK0 p + e0) ((List.range n).map fun b => (hitByte s1 ts (rowAt c + b)).toNat) else (List.replicate k 0, 0))
      (cols16.map fun c => if posN0 p + c < w.rows then scaleExp (hitByte s1 ts (scaleAt c)).toNat else (0, false))) ∧
  (∀ (f : FX) (s : State), let m := fxMask f s.g
    let put (q : Nat → Bool) (x : Nat → Nat → W128) : State := { s.unreplayable with
      g := { s.unreplayable.g with shadow := s.g.r.a[f.ad.toNat]'f.ad.isLt }.aput f.ad m q x }
    (m = 0 → ∀ i ∈ [Instr.mac f, .macg f, .azero f, .amov f, .aput f], Runs i s s.retire) ∧
    (m = 0 → Runs (.aread f) s (s.advancePhase (f.adv == 1)).retire) ∧
    (m ≠ 0 → Runs (.azero f) s (put (fun _ => true) fun _ _ => 0).retire) ∧
    (m ≠ 0 → s.Clean (s.g.accItems f.as_ m cols16) → Runs (.amov f) s (put (fun _ => true) fun i c => s.g.aget f.as_ i c).retire) ∧
    (m ≠ 0 → s.Clean (s.g.sitem f.sh :: s.g.vitems false m f.va) → (s.g.sget f.sh).toNat < 16 → isFl f.wf = false →
      Runs (.aput f) s (put (fun c => c = (s.g.sget f.sh).toNat)
        fun i _ => BitVec.ofInt 128 (elemInt f.wf (s.g.vget f.va i).toNat * 2 ^ 64)).retire) ∧
    (m ≠ 0 → s.Clean (s.g.sitem f.sh :: s.g.vitems false m f.va) → (s.g.sget f.sh).toNat < 16 →
      let r (i : Nat) : Int × BitVec 5 × Bool := toAcc f.wf f.rnd.toNat (s.g.vget f.va i).toNat
      let u := (put (fun c => c = (s.g.sget f.sh).toNat) fun i _ => BitVec.ofInt 128 (r i).1).orF (orLanes m fun i => (r i).2.1)
      FpEnds (.aput f) s m (fun i => (r i).2.1) (State.retire (if anyLane m (fun i => (r i).2.2) then u.orQ qACCOV else u))) ∧
    (m ≠ 0 → s.Clean [s.g.sitem f.sh] → 16 ≤ (s.g.sget f.sh).toNat → Runs (.aput f) s (takeTrap { cause := cTILEBND, einfo := 2, elanes := m } s))) ∧
  (∀ (f : FX) (s : State), let m := fxMask f s.g
    let c0 := (s.g.sget f.sh).toNat
    let n := 32 / tyBits f.wf
    let cols := (List.range 8).map (· + c0)
    let r (i j : Nat) : Rounded := areadElem f.wf f.rnd.toNat (s.g.threshold (i + (c0 + j))) (f.sat == 1)
      (outerProduct (s.g.aget f.ad i (c0 + j)).toInt (if f.osc = 1 then f32.read (s.g.vget f.vs (c0 + j)).toNat else .fin false 1 1))
    let exc (i : Nat) : BitVec 5 := (List.range 8).foldl (fun x j => x ||| (r i j).fl) 0
    m ≠ 0 → s.Clean [s.g.sitem f.sh] →
    (8 < c0 → Runs (.aread f) s (takeTrap { cause := cTILEBND, einfo := 2, elanes := m } s)) ∧
    (c0 ≤ 8 → s.Clean (s.g.accItems f.ad m cols ++ if f.osc = 1 then s.g.vitems false (maskOfList cols) f.vs else []) →
      let u := (List.range (8 / n)).foldl (fun s q => s.setV false (f.vb + BitVec.ofNat 8 q) m
        fun i => joinElems (tyBits f.wf) ((List.range n).map fun e => (r i (q * n + e)).bits)) s
      FpEnds (.aread f) s m exc (((u.orF (orLanes m exc)).orSat (anyLane m fun i => (List.range 8).any fun j => (r i j).sat)).advancePhase (f.adv == 1)).retire))

/-! ## Fields and rays -/

/-- Field bytecode and the three instructions that run it: the stack operations in every mode and the arithmetic of a point, a
pushed operand under the top one, and a pushed coordinate's NaN the canonical one; sdfe writes each active lane with the result of the program from its tile or leaf, and a rejected
program gives the canonical NaN, or entire; sdfprune writes the enclosing form, the pruned length, a status and a count to lanes 0 to
7, and the pruned program to its tile when it fits; bsample writes the interpolant and its derivatives, and NaNs for a broken
map; the lanes of one instruction take one translation for each page; a leaf address that is not a multiple of 16 raises ALIGN (R337, R342, R345 to R348, R372). -/
def Obligations.Fields : Prop :=
  (∀ (core ctx : Nat) (mode : EvMode) (off size : Nat) (imm : List Nat) (e : Ev) (a b : List Nat) (r : List (List Nat)) (s : State),
    let op (c : Nat) : FOp := { off := off, code := c, size := size, imm := imm }
    let becomes (c : Nat) (st : List (List Nat)) : Prop := (evStep core ctx mode (op c) e).at s = (.ok { e with stack := st }, s)
    (∀ k < 3, becomes (k + 1) ((e.xyz.getD k []).map (fun x => if mode = .point ∧ (val x).isNan = true then cNaN else x) :: e.stack)) ∧ becomes 0x3F e.stack ∧
    (e.stack = b :: a :: r → becomes 0x05 (b :: b :: a :: r) ∧ becomes 0x06 (a :: b :: r) ∧ becomes 0x07 (a :: r) ∧ becomes 0x08 (a :: b :: a :: r) ∧
      (mode = .point → let x := val (a.getD 0 0)
        let y := val (b.getD 0 0)
        let one (q : Exact) : List (List Nat) := [(f32.round 0 0 false q).bits] :: r
        becomes 0x10 (one (fvAdd 0 x y).x) ∧ becomes 0x11 (one (fvAdd 0 x y.negate).x) ∧ becomes 0x12 (one (fvMul x y).x) ∧
        becomes 0x13 (one (fvDiv x y).x) ∧ becomes 0x18 ([(fmtMinMax f32 false (a.getD 0 0) (b.getD 0 0)).bits] :: r) ∧
        becomes 0x19 ([(fmtMinMax f32 true (a.getD 0 0) (b.getD 0 0)).bits] :: r)))) ∧
  (∀ (f : FK) (s : State) (src : Option Tile), let m := fkMask f s.g
    let iv := f.mode.getLsbD 0
    let reg (k i : Nat) : Nat := (s.g.vget (f.va + BitVec.ofNat 8 k) i).toNat
    let coords (i : Nat) : List (List Nat) := (List.range 3).map fun a => if iv then [reg (2 * a) i, reg (2 * a + 1) i] else [reg a i]
    m ≠ 0 → s.Clean (s.g.sitem f.sa :: (List.range (if iv then 6 else 3)).flatMap fun k => s.g.vitems false m (f.va + BitVec.ofNat 8 k)) →
    (f.mode.getLsbD 2 = true → ∃ t, src = some t ∧ s.checkHandle s.g.core s.g.ctx (s.g.sget f.sa) (fun t => !t.isGlobal && t.ty == 4) = .ok t) →
    (f.mode.getLsbD 2 = false → src = none ∧ (s.g.sget f.sa).toNat % 16 = 0) →
    (∀ s1, (namedProgram s.g.core s.g.ctx src (s.g.sget f.sa).toNat).at (s.setReuse (some [])) = (.ok none, s1) →
      let u := s1.setReuse none
      Runs (.sdfe f) s (State.retire (if iv
        then (u.setV false f.vd m fun _ => Iv.entire.lo).setV false (f.vd + 1) m fun _ => Iv.entire.hi else u.setV false f.vd m fun _ => cNaN))) ∧
    (∀ ops s1, (namedProgram s.g.core s.g.ctx src (s.g.sget f.sa).toNat).at (s.setReuse (some [])) = (.ok (some ops), s1) → (∀ op ∈ ops, op.code ≠ 0x38) →
      ∃ top : Nat → List Nat, (∀ i < 32, m.getLsbD i = true → ∃ e : Ev,
          (evRun s.g.core s.g.ctx (if iv then .interval else .point) ops (coords i)).at s1 = (.ok e, s1) ∧ top i = e.stack.getD 0 []) ∧
        let u := s1.setReuse none
        Runs (.sdfe f) s (State.retire (if iv
          then (u.setV false f.vd m fun i => (ivOfWords (top i)).canon.lo).setV false (f.vd + 1) m fun i => (ivOfWords (top i)).canon.hi
          else u.setV false f.vd m fun i => (top i).getD 0 0)))) ∧
  (∀ (f : FK) (s : State), (s.g.sget f.sa).toNat % 16 ≠ 0 →
    (f.mode.getLsbD 2 = false → fkMask f s.g ≠ 0 → s.Clean (s.g.sitem f.sa :: (List.range 6).flatMap fun k => s.g.vitems false (fkMask f s.g) (f.va + BitVec.ofNat 8 k)) →
      Runs (.sdfe f) s (takeTrap { cause := cALIGN, elanes := fkMask f s.g, eaddr := s.g.sget f.sa } s) ∧
      Runs (.bsample f) s (takeTrap { cause := cALIGN, elanes := fkMask f s.g, eaddr := s.g.sget f.sa } s)) ∧
    (f.mode.getLsbD 2 = false → s.Clean ([s.g.sitem f.sa, s.g.sitem f.sb] ++ s.g.vitems false 0x7FFF f.va) →
      Runs (.sdfprune f) s (takeTrap { cause := cALIGN, eaddr := s.g.sget f.sa } s))) ∧
  (∀ (f : FK) (s : State) (src : Option Tile) (d : Tile), let form (a : Nat) : List Nat := (List.range 5).map fun w => (s.g.vget f.va (5 * a + w)).toNat
    s.Clean ([s.g.sitem f.sa, s.g.sitem f.sb] ++ s.g.vitems false 0x7FFF f.va) →
    (f.mode.getLsbD 2 = true → ∃ t, src = some t ∧ s.checkHandle s.g.core s.g.ctx (s.g.sget f.sa) (fun t => !t.isGlobal && t.ty == 4) = .ok t) →
    (f.mode.getLsbD 2 = false → src = none ∧ (s.g.sget f.sa).toNat % 16 = 0) →
    s.checkHandle s.g.core s.g.ctx (s.g.sget f.sb) (fun t => !t.isGlobal && t.ty == 4) = .ok d →
    (∀ s1, (namedProgram s.g.core s.g.ctx src (s.g.sget f.sa).toNat).at (s.setReuse (some [])) = (.ok none, s1) →
      ∃ len : Nat, Runs (.sdfprune f) s (State.retire (State.setV { s1.setReuse none with fresh := s1.fresh + 1 } false f.vd 0xFF
        fun i => [cNaN, 0, 0, 0, 0, len, 1, 0].getD i 0))) ∧
    (∀ ops s1 s2 e, (namedProgram s.g.core s.g.ctx src (s.g.sget f.sa).toNat).at (s.setReuse (some [])) = (.ok (some ops), s1) →
      (evRun s.g.core s.g.ctx .affine ops [form 0, form 1, form 2]).at s1 = (.ok e, s2) →
      let out := prune ops e.marks
      let u (status : Nat) : State := State.setV { s2.setReuse none with fresh := s2.fresh + 1 } false f.vd 0xFF
        fun i => (e.stack.getD 0 [] ++ [out.1.length, status, out.2]).getD i 0
      (out.1.length ≤ d.cols → Runs (.sdfprune f) s (State.retire ((u 0).mapTile d.core d.idx fun t => (t.putRow0 out.1).norm))) ∧
      (d.cols < out.1.length → Runs (.sdfprune f) s (u 2).retire))) ∧
  (∀ (f : FK) (s : State), let m := fkMask f s.g
    let point (i : Nat) : List Nat := (List.range 3).map fun k => (s.g.vget (f.va + BitVec.ofNat 8 k) i).toNat
    m ≠ 0 → s.Clean (s.g.sitem f.sa :: (List.range 3).flatMap fun k => s.g.vitems false m (f.va + BitVec.ofNat 8 k)) → (s.g.sget f.sa).toNat % 16 = 0 →
    (∀ s1, (readBrick s.g.core s.g.ctx (s.g.sget f.sa).toNat).at (s.setReuse (some [])) = (.ok none, s1) →
      Runs (.bsample f) s (State.retire ((List.range 4).foldl (fun s k => s.setV false (f.vd + BitVec.ofNat 8 k) m fun _ => cNaN) (s1.setReuse none)))) ∧
    (∀ b s1 s2 rs, (readBrick s.g.core s.g.ctx (s.g.sget f.sa).toNat).at (s.setReuse (some [])) = (.ok (some b), s1) →
      ((activeLanes m).mapM fun i => b.gradient s.g.core s.g.ctx (point i)).at s1 = (.ok rs, s2) →
      ∃ q : Nat → List Nat, (activeLanes m).map q = rs ∧
        Runs (.bsample f) s (State.retire ((List.range 4).foldl (fun s k => s.setV false (f.vd + BitVec.ofNat 8 k) m fun i => (q i).getD k 0) (s2.setReuse none)))))

/-- Rays: march cancels the ray that an active lane has, empties its row's four words and makes a Marching ray from its eight
registers; mres waits until the lane's four words are full and reads them; mresume empties the words of each Suspended ray and hands it an
interval, and mcancel ends rays: ERROR CANCELLED lands, but where a CALL record may have landed in the same cycle (log 4); each closes the
idempotent region but mres, and none changes memory. A ray step goes on, lands its record in the four words of its row, which
become full, suspends with its CALL record landed so, waits on a fault record or for a free one, or lands ERROR FAULT. A ray whose input is a NaN
lands BADRAY, one with an empty span MISS (R351 to R356, R365 to R371). -/
def Obligations.Rays : Prop :=
  let emptied (s u : State) (t : Tile) (at_ : Nat → Prop) : Prop := s.tileAt t.core t.idx = some t → sparseWfFrom ((0 : W32), false) 0 t.words = true →
    ∃ t' : Tile, u.tileAt t.core t.idx = some t' ∧ ∀ k, (at_ k → t'.word k = ((t.word k).1, false)) ∧ (¬ at_ k → t'.word k = t.word k)
  (∀ (f : FK) (s : State) (t : Tile), let m := fkMask f s.g
    let rowb := (f.imm.extractLsb' 8 12).toNat
    let reg (k i : Nat) : W32 := s.g.vget (f.va + BitVec.ofNat 8 k) i
    let ray (i : Nat) : Ray := {
      lane := i, phase := .marching, o := [reg 0 i, reg 1 i, reg 2 i], tmin := reg 3 i, d := [reg 4 i, reg 5 i, reg 6 i], tmax := reg 7 i
      scene := s.g.sget f.sa, handle := s.g.sget f.sb, row := rowb + i, mask := f.imm.extractLsb' 0 8, any := f.mode.getLsbD 0, tb := reg 7 i }
    m ≠ 0 → s.Clean ([s.g.sitem f.sa, s.g.sitem f.sb] ++ (List.range 8).flatMap fun k => s.g.vitems false m (f.va + BitVec.ofNat 8 k)) →
    s.checkHandle s.g.core s.g.ctx (s.g.sget f.sb) (fun t => !t.isGlobal && t.ty == 6) = .ok t → 4 ≤ t.cols →
    (∀ i < 32, m.getLsbD i = true → rowb + i < t.rows) →
    let begin_ (v : State) (i : Nat) : State := let w := (v.cancelRay i).emptyRay (ray i)
      { w with g := w.g.setRay i (some (ray i)) }
    let u := (activeLanes m).foldl begin_ s.closeIdem
    Runs (.march f) s u.retire ∧ u.g.r = s.g.r ∧ u.g.idem = none ∧ u.ms = s.ms ∧ u.others = s.others ∧
    (∀ i < 32, u.g.rayOf i = if m.getLsbD i then some (ray i) else s.g.rayOf i) ∧
    ((∀ i < 32, m.getLsbD i = true → s.g.rayOf i = none) → emptied s u t fun k => ∃ i < 32, m.getLsbD i = true ∧ ∃ w < 4, k = (rowb + i) * t.rowWords + w)) ∧
  (∀ (f : FK) (s : State) (t : Tile), let m := fkMask f s.g
    let at_ (w i : Nat) : Nat := ((f.imm.extractLsb' 0 12).toNat + i) * t.rowWords + w
    m ≠ 0 → s.Clean [s.g.sitem f.sa] →
    s.checkHandle s.g.core s.g.ctx (s.g.sget f.sa) (fun t => !t.isGlobal && t.ty == 6) = .ok t → 4 ≤ t.cols →
    (∀ i < 32, m.getLsbD i = true → (f.imm.extractLsb' 0 12).toNat + i < t.rows) →
    ((∀ i < 32, m.getLsbD i = true → ∀ w < 4, (t.word (at_ w i)).2 = true ∧ at_ w i ∉ t.poison) →
      Runs (.mres f) s (State.retire ((List.range 4).foldl (fun s w => s.setV false (f.vd + BitVec.ofNat 8 w) m fun i => (t.word (at_ w i)).1.toNat) s))) ∧
    ((∃ i < 32, m.getLsbD i = true ∧ ∃ w < 4, (t.word (at_ w i)).2 = false) → Runs (.mres f) s s.wait)) ∧
  (∀ (f : FK) (s : State), let m := fkMask f s.g
    let due := (activeLanes m).filter fun i => (s.g.rayOf i).any fun r => r.phase = .suspended
    let resume (v : State) (i : Nat) : State := match v.g.rayOf i with
      | none => v
      | some r => { v.emptyRay r with
        g := (v.emptyRay r).g.setRay i (some { r with phase := .marching, supplied := some (s.g.vget f.va i, s.g.vget (f.va + 1) i) }) }
    let u := due.foldl resume s.closeIdem
    m ≠ 0 → s.Clean (s.g.vitems false (maskOfList due) f.va ++ s.g.vitems false (maskOfList due) (f.va + 1)) →
    Runs (.mresume f) s u.retire ∧ u.g.r = s.g.r ∧ u.g.idem = none ∧ u.ms = s.ms ∧ ∀ i < 32, ∀ r, s.g.rayOf i = some r →
      u.g.rayOf i = some (if m.getLsbD i && r.phase = .suspended
        then { r with phase := .marching, supplied := some (s.g.vget f.va i, s.g.vget (f.va + 1) i) } else r) ∧
      ∀ t, m.getLsbD i = true → r.phase = .suspended → s.tileAt (hCore r.handle) (hIdx r.handle) = some t → t.st ≠ .draining → t.gen = hGen r.handle →
        sparseWfFrom ((0 : W32), false) 0 t.words = true →
        ∃ t' : Tile, u.tileAt (hCore r.handle) (hIdx r.handle) = some t' ∧ ∀ w < 4, (t'.word (r.row * t.rowWords + w)).2 = false) ∧
  (∀ (f : FK) (s : State), let m := fkMask f s.g
    let u := (activeLanes m).foldl State.cancelRay s.closeIdem
    m ≠ 0 → Runs (.mcancel f) s u.retire ∧ u.g.r = s.g.r ∧ u.g.idem = none ∧ u.ms = s.ms ∧
      ∀ i < 32, u.g.rayOf i = if m.getLsbD i then none else s.g.rayOf i) ∧
  (∀ (s : State) (lane : Nat), (s.g.rayOf lane = none → s.cancelRay lane = s) ∧ ∀ r, s.g.rayOf lane = some r →
    let off := s.detachRay s.g.gid lane
    let ended (v : State) : State := { v with g := v.g.setRay lane none }
    (r.phase ≠ .suspended ∨ r.landedAt ≠ s.moves → s.cancelRay lane = ended (off.landRay r (errRec eCANCELLED))) ∧
    (r.phase = .suspended → r.landedAt = s.moves → ∃ n, ∃ v ∈ [off, off.landRay r (errRec eCANCELLED)], s.cancelRay lane = ended { v with fresh := n })) ∧
  (∀ (f : FK) (s : State), fkMask f s.g = 0 → ∀ i ∈ [Instr.sdfe f, .bsample f, .march f, .mres f, .mresume f, .mcancel f], Runs i s s.retire) ∧
  (∀ (core slot lane : Nat) (s : State) (r : Ray), s.groupAt core slot = some s.g → s.g.rayOf lane = some r → r.phase = .marching →
    (s.g.phase = .running ∨ s.g.phase = .parked ∨ s.g.phase = .faulted) →
    let adv := (rayAdvance s.g.core s.g.ctx r).at s
    (∀ r' s1, adv = (.ok (.go r'), s1) → Runs (.rayStep core slot lane) s { s1 with g := s1.g.setRay lane (some r') }) ∧
    (∀ ws s1, adv = (.ok (.land ws), s1) → let u := s1.landRay r ws
      Runs (.rayStep core slot lane) s { u with g := u.g.setRay lane none } ∧ u.g = s1.g) ∧
    (∀ r' ws s1, adv = (.ok (.suspend r' ws), s1) → let u := s1.landRay r ws
      Runs (.rayStep core slot lane) s { u with g := u.g.setRay lane (some { r with phase := .suspended, landedAt := u.moves + 1 }) } ∧
      r' = r ∧ u.g = s1.g ∧ u.moves = s1.moves) ∧
    (∀ t s1, adv = (.error t, s1) → t.cause ≠ cPAGE →
      Runs (.rayStep core slot lane) s
        { s1.landRay r (errRec eFAULT 0 t.cause.toNat (t.eaddr.toNat % 2 ^ 32)) with
          g := (s1.landRay r (errRec eFAULT 0 t.cause.toNat (t.eaddr.toNat % 2 ^ 32))).g.setRay r.lane none }) ∧
    (∀ t s1, adv = (.error t, s1) → t.cause = cPAGE → let die := coreDie s1.g.core
      let room := s1.recordRoom die s1.g.ctx (t.pages.take 1)
      let j := s1.joinAll die s1.g.ctx (.ray s1.g.gid r.lane) (t.pages.take 1)
      (room = false → Runs (.rayStep core slot lane) s s1) ∧
      (room = true → Runs (.rayStep core slot lane) s { j.1 with g := j.1.g.setRay r.lane (some
          { r with phase := .faultwait, record := j.2.headD 0, failedAt := t.eaddr }) } ∧
        (t.pages ≠ [] → ∃ x ∈ j.1.cx.recs, x.id = j.2.headD 0 ∧ Requester.ray s1.g.gid r.lane ∈ x.reqs))) ∧
    (r.started = false → (∃ w ∈ r.o ++ r.d ++ [r.tmin, r.tmax], (wval w).isNan = true) → adv = (.ok (.land (errRec eBADRAY)), s)) ∧
    (r.started = false → (∀ w ∈ r.o ++ r.d ++ [r.tmin, r.tmax], (wval w).isNan = false) → (wval r.tmax).lt (wval r.tmin) = true →
      adv = (.ok (.land (missRec r.tmax)), s)) ∧
    (r.started = true → r.leaf = none → r.work = [] →
      adv = (.ok (.land (match r.best with | some h => hitRec h | none => missRec r.tmax)), s)) ∧
    (∀ (s1 : State) (ws : List Nat) (t : Tile), s1.tileAt (hCore r.handle) (hIdx r.handle) = some t → t.st ≠ .draining → t.gen = hGen r.handle → ws.length = 4 →
      sparseWfFrom ((0 : W32), false) 0 t.words = true →
      ∃ t' : Tile, (s1.landRay r ws).tileAt (hCore r.handle) (hIdx r.handle) = some t' ∧
        ∀ w < 4, t'.word (r.row * t.rowWords + w) = (BitVec.ofNat 32 (ws.getD w 0), true)))

/-! ## Visibility -/

/-- Visibility: vis hands one merge per lane to the home slices, none for a negative or NaN depth; a merge leaves the minimum of the
word and the key, and no other byte, and waits for a promoted staging request before it (R298, log 83); rast hands its descriptor's draw to the rasteriser, waits when that holds 64, and raises ALIGN
or BUDGET code 5 for a bad descriptor; a triangle is drawn, or skipped; a finished draw goes; rproj writes each lane's result, 3
for a pixel outside the frame (R376 to R384). -/
def Obligations.Visibility : Prop :=
  (∀ (f : FK) (s s1 : State) (ts : List Hit3), let m := fkMask f s.g
    m ≠ 0 → s.Clean (s.g.sitem f.sa :: (s.g.vitems false m f.va ++ s.g.vitems true m f.vd)) →
    checkAccess s s.g.core s.g.ctx (.merge 8) false ((activeLanes m).map fun i => (i, ((s.g.sget f.sa).toNat + 8 * (s.g.vget f.va i).toNat : Int))) = .ok s1 ts →
    ∃ u : State, Runs (.vis f) s u.retire ∧ u.g = s1.g ∧ u.ms = s1.ms ∧
      u.cs.merges.map (fun x => (x.gid, x.key, x.value)) = s1.cs.merges.map (fun x => (x.gid, x.key, x.value)) ++ ts.filterMap (fun t =>
        let depth := (s.g.vget (f.vd + 1) t.1).toNat
        let d := if depth = 2 ^ 31 then 0 else depth
        if 2 ^ 31 ≤ d ∨ (val d).isNan = true then none
        else some (s1.g.gid, t.2.2.key, BitVec.ofNat 64 (d * 2 ^ 32 + (s.g.vget f.vd t.1).toNat)))) ∧
  (∀ (s : State) id, s.demandMayLand id = false → Runs (.visMerge id) s s) ∧
  (∀ (s : State) (x : Merge), s.MemoryWf → s.cs.merges.filter (·.id = x.id) = [x] → s.demandMayLand x.id = true →
    ∃ u : State, Runs (.visMerge x.id) s u ∧ u.g = s.g ∧ u.cs.merges = s.cs.merges.filter (·.id ≠ x.id) ∧
      leNat (memRead u.ms.mem x.key 8) = min (leNat (memRead s.ms.mem x.key 8)) x.value.toNat ∧ SameMemoryOutside x.key 8 s u) ∧
  (∀ (f : FK) (s : State), s.Clean [s.g.sitem f.sa] → let a := (s.g.sget f.sa).toNat
    (a % 64 ≠ 0 → Runs (.rast f) s (takeTrap { cause := cALIGN, eaddr := s.g.sget f.sa } s)) ∧
    (∀ d s1, a % 64 = 0 → (engineNat s.g.core s.g.ctx .v a 64).at s = (.ok d, s1) →
      (drawBad d = true → Runs (.rast f) s (takeTrap { cause := cBUDGET, einfo := 5 } s1)) ∧
      (drawBad d = false → 64 ≤ (s1.cs.draws.filter fun x => x.sector = coreSector s1.g.core && !x.saved).length → Runs (.rast f) s s1.wait) ∧
      (drawBad d = false → (s1.cs.draws.filter fun x => x.sector = coreSector s1.g.core && !x.saved).length < 64 →
        ∃ (u : State) (x : Draw), Runs (.rast f) s u.retire ∧ u.g = s1.unreplayable.g ∧ u.ms = s1.ms ∧ u.cs.draws = s1.cs.draws ++ [x] ∧
          x.desc = a ∧ x.sector = s1.g.core / 32 ∧ x.ctx = s1.g.ctx ∧ x.gid = s1.g.gid ∧ x.next = 0 ∧ x.vtx = natBits d 0 52 ∧ x.idx = natBits d 64 52 ∧
          x.ntri = natBits d 128 32 ∧ x.w = natBits d 160 16 ∧ x.h = natBits d 176 16 ∧ x.vbuf = natBits d 192 52 ∧ x.pbase.toNat = natBits d 256 32 ∧
          x.cull = natBits d 288 2 ∧ x.ctr = natBits d 320 52))) ∧
  (∀ (s : State) (d : Draw), s.cs.draws.find? (·.id = d.id) = some d → d.saved = false → d.record = 0 → d.next < d.ntri →
    (∀ s1, (rasterOne d).at s = (.ok (), s1) →
      Runs (.triangleRaster d.id) s (s1.mapDraw d.id fun d => { d with next := d.next + 1 })) ∧
    (∀ t s1, (rasterOne d).at s = (.error t, s1) → t.cause ≠ cPAGE → d.ctr = 0 →
      Runs (.triangleRaster d.id) s (s1.mapDraw d.id fun d => { d with next := d.next + 1, record := 0 })) ∧
    (∀ t s1, (rasterOne d).at s = (.error t, s1) → t.cause = cPAGE → s1.recordRoom (coreDie d.core) d.ctx (t.pages.take 1) = false →
      Runs (.triangleRaster d.id) s s1)) ∧
  (∀ (s : State) (d : Draw), s.cs.draws.find? (·.id = d.id) = some d → d.saved = false → d.ntri ≤ d.next →
    let s1 : State := { s with cs := { s.cs with draws := s.cs.draws.filter (·.id ≠ d.id) } }
    (d.ctr = 0 → Runs (.drawComplete d.id) s s1) ∧
    (d.ctr ≠ 0 → Runs (.drawComplete d.id) s (s1.devPut { ctx := d.ctx, die := d.core / 128, addr := d.ctr, op := .add 1, pod := false }))) ∧
  (∀ (f : FK) (s s1 s3 : State) (d : Nat) (rs : List Nat), let m := fkMask f s.g
    let a := (s.g.sget f.sa).toNat
    m ≠ 0 → s.Clean (s.g.sitem f.sa :: s.g.vitems false m f.va) → a % 64 = 0 →
    (engineNat s.g.core s.g.ctx .v a 64).at s = (.ok d, s1) → rprojBad d = false →
    ((activeLanes m).mapM fun i => rprojLane s.g.core s.g.ctx d (s.g.vget f.va i).toNat).at (s1.setReuse (some [])) = (.ok rs, s3) →
    ∃ q : Nat → Nat, (activeLanes m).map q = rs ∧ Runs (.rproj f) s ((s3.setReuse none).unreplayable.setV false f.vd m q).retire) ∧
  (∀ core ctx d p s, natBits d 192 16 * natBits d 208 16 ≤ p → (rprojLane core ctx d p).at s = (.ok 3, s)) ∧
  (∀ (f : FK) (s : State), fkMask f s.g = 0 → Runs (.vis f) s s.retire ∧ Runs (.rproj f) s s.retire)

/-! ## Launches and barriers -/

/-- Launch instructions: exit ends its region at its start, performs the group's stores, waits for what it issued, and ends the group; fetch returns the next
coordinate of the launch, or END; launch performs the group's stores, copies an accepted record into the pool and returns its token, or raises ALIGN, or BUDGET
code 4 or 5; join returns 2 for a stale token, 3 for the group's own launch, 0 or 1 for a finished one, and waits otherwise; hpass
hands a tile to a Held task; linfo returns its selector's value (R129, R230, R234, R239, R243 to R248). Two clauses are the model's
choice: fetch takes the binding's old reservation off before it checks the budgets, and replaces it (log 29), and join waits with its
region ended (log 11); and so is hpass's answer to another context's token (log 106). -/
def Obligations.Launches : Prop :=
  (∀ (f : FB) (s : State), s.g.atLast = true →
    let u := s.closeIdem.endAtStart.drain
    u.g.storeQ = [] ∧ (s.exitWaits = true → Runs (.exit f) s u) ∧
    (s.exitWaits = false → Runs (.exit f) s u.endGroup ∧
      (s.g.launch = none → s.g.unit = none → s.g.bars = [] → (∀ e ∈ s.ls.pool, e.launcher ≠ s.g.gid) →
        u.endGroup.g = { } ∧ u.endGroup.others = s.others))) ∧
  (∀ (f : FY) (s : State), let u := s.closeIdem.endUnit
    (u.ownEntry = none → Runs (.fetch f) s (u.setS f.d 0x8000000000000000).retire) ∧
    (∀ e, u.ownEntry = some e → e.rc.count ≤ e.next → Runs (.fetch f) s (u.setS f.d 0x8000000000000000).retire) ∧
    (∀ e, u.ownEntry = some e → e.next < e.rc.count → State.budgetsFit { u with g := { u.g with resA := 0, resB := 0 } } u.g.ctx e.kd 1 = true →
      let n := e.next
      let v : State := u.mapPool e.die e.entry fun e => { e with next := e.next + 1 }
      Runs (.fetch f) s (State.retire (State.setS { v with g := { v.g with unit := some n, unitNo := v.g.unitNo + 1, resA := e.kd.qa.2, resB := e.kd.qb.2 } } f.d
        (BitVec.ofNat 64 (n % e.rc.nx + n / e.rc.nx % e.rc.ny * 2 ^ 21 + n / (e.rc.nx * e.rc.ny) * 2 ^ 42))))) ∧
    (∀ e, u.ownEntry = some e → s.g.unit = none → e.next < e.rc.count →
      State.budgetsFit { u with g := { u.g with resA := 0, resB := 0 } } u.g.ctx e.kd 1 = false → Runs (.fetch f) s s.wait)) ∧
  (∀ (f : FY) (s : State), let a := (s.g.sget f.a).toNat
    let c := (s.ctxOf s.g.ctx).getD default
    s.Clean [s.g.sitem f.a] →
    (a % 64 ≠ 0 → Runs (.launch f) s (takeTrap { cause := cALIGN, eaddr := s.g.sget f.a } s)) ∧
    (∀ s1, a % 64 = 0 → (readLaunch (32 * 2 ^ c.psize) a).at s = (.ok none, s1) → Runs (.launch f) s (takeTrap { cause := cBUDGET, einfo := 5 } s1)) ∧
    (∀ rc kd ws s1, a % 64 = 0 → (readLaunch (32 * 2 ^ c.psize) a).at s = (.ok (some (rc, kd, ws)), s1) →
      let mem : Member := { s.g.mem with ugid := s.g.gid, uno := s.g.unitNo }
      let u := s1.closeIdem.drain.endRegion
      (s1.childLimit ≤ s1.childrenOf s.g.gid → Runs (.launch f) s (takeTrap { cause := cBUDGET, einfo := 4 } s1)) ∧
      (∀ s2 e, s1.childrenOf s.g.gid < s1.childLimit → u.enterPool (coreDie s.g.core) c rc kd ws s.g.gid 0 mem = some (s2, e) →
        Runs (.launch f) s (s2.setS f.d (BitVec.ofNat 64 (e.entry + 4096 * e.die + 2 ^ 32 * e.gen.toNat))).retire) ∧
      (∀ n, rc.hold = true ∨ rc.pred ≠ 0 → rc.spans c.psize = false → u.freeEntry (coreDie s.g.core) = some n →
        ∃ e : PoolEntry, e.die = coreDie s.g.core ∧ e.entry = n ∧ e.gen = u.poolGen e.die n ∧ e.st = (if rc.hold then .held else .waiting) ∧ e.ctx = c.n ∧
          e.rc = rc ∧ e.kd = kd ∧ e.pred = rc.pred ∧ e.launcher = s.g.gid ∧ e.mem = mem ∧ e.ws = ws ∧
          u.enterPool (coreDie s.g.core) c rc kd ws s.g.gid 0 mem = some ({ u with ls := { u.ls with pool := u.ls.pool ++ [e] } }, e)))) ∧
  (∀ (f : FY) (s : State), s.Clean [s.g.sitem f.a] →
    let u := s.unreplayable.endAtStart
    let gives (x : W64) : State := { u.setS f.d x with g := { (u.setS f.d x).g with joining := none } }
    (s.byToken (s.g.sget f.a) = none → Runs (.join f) s (gives 2).retire) ∧
    (∀ e, s.byToken (s.g.sget f.a) = some e →
      (e.ctx ≠ s.g.ctx → Runs (.join f) s (gives 2).retire) ∧
      (e.ctx = s.g.ctx → s.g.launch = some (e.die, e.entry) ∧ s.g.lgen = e.gen → Runs (.join f) s (gives 3).retire) ∧
      (e.ctx = s.g.ctx → ¬ (s.g.launch = some (e.die, e.entry) ∧ s.g.lgen = e.gen) →
        (e.st = .doneCompleted → Runs (.join f) s (State.retire ((gives 0).freeJoined e))) ∧
        (e.st = .doneCancelled → Runs (.join f) s (State.retire ((gives 1).freeJoined e))) ∧
        (e.st ≠ .doneCompleted → e.st ≠ .doneCancelled →
          Runs (.join f) s (State.wait { s.endAtStart with g := { s.endAtStart.g with joining := some (s.g.sget f.a) } }))))) ∧
  (∀ (f : FY) (s : State) (t : Tile), s.Clean [s.g.sitem f.a, s.g.sitem f.b] →
    s.checkHandle s.g.core s.g.ctx (s.g.sget f.a) (fun t => !t.isGlobal) = .ok t →
    (t.owner ≠ s.g.gid → Runs (.hpass f) s (takeTrap { cause := cTILESTATE, einfo := 4 } s)) ∧
    (t.owner = s.g.gid → (∀ e, s.byToken (s.g.sget f.b) = some e → e.ctx ≠ s.g.ctx ∨ e.st ≠ .held ∨ e.rc.isTask = false) →
      Runs (.hpass f) s (takeTrap { cause := cBUDGET, einfo := 7 } s)) ∧
    (∀ e, t.owner = s.g.gid → s.byToken (s.g.sget f.b) = some e → e.ctx = s.g.ctx → e.st = .held → e.rc.isTask = true → e.pred ≠ 0 →
      Runs (.hpass f) s (State.retire ((s.closeIdem.endRegion.mapTile t.core t.idx fun t => { t with owner := 0, launch := none }).mapPool e.die e.entry
        fun _ => { e with inherit := some (s.g.sget f.a, t.core), st := .waiting })))) ∧
  (∀ (f : FY) (s : State),
    (s.ownEntry = none → Runs (.linfo f) s (s.setS f.d 0).retire) ∧
    (∀ e, s.ownEntry = some e → ∀ x ∈ [(0, e.entry + 4096 * e.die + 2 ^ 32 * e.gen.toNat), (1, e.rc.xm1 + e.rc.ym1 * 2 ^ 21 + e.rc.zm1 * 2 ^ 42),
        (2, e.rc.txl + e.rc.tyl * 2 ^ 4 + e.rc.tzl * 2 ^ 8), (3, s.g.ordinal), (4, e.bound), (5, e.rc.arg), (6, s.g.inherit.toNat), (7, e.rc.kobj)],
      f.imm.toNat = x.1 → Runs (.linfo f) s (s.setS f.d (BitVec.ofNat 64 x.2)).retire))

/-- Barriers: bar.init makes a free entry Live; an arrival's checks come in the order of R259; an arrival adds the group's bit and
1 to CNT, and the last of a phase advances PHASE and clears both; its token names the phase it arrived in; bar.wait goes on once
that phase is past, and bar.sync and bar.grid arrive once and then wait; a drop takes the group out and lowers EXP, and counts as an
arrival when the group has not arrived. Every older store is performed before an arrival or a drop, and the parked waits on a phase retire
as it passes; reading a spilled entry's form recalls its line (R186, R251 to R260). That bar.wait has ended its region while it waits, and
that bar.init finds POISON first, are the model's choices (logs 11, 109). -/
def Obligations.Barriers : Prop :=
  (∀ (f : FY) (s : State), s.Clean [s.g.sitem f.a] → let n := (s.g.sget f.a).toNat
    let idx := (f.imm.extractLsb' 0 6).toNat
    let most := if f.scope = 3 then 16 else 8
    (s.barAt s.g.core idx ≠ none → Runs (.barInit f) s (takeTrap { cause := cBARRIER, einfo := 1 } s)) ∧
    (s.barAt s.g.core idx = none → (n = 0 ∨ most < n) → Runs (.barInit f) s (takeTrap { cause := cBARRIER, einfo := 5 } s)) ∧
    (s.barAt s.g.core idx = none → 1 ≤ n → n ≤ most → Runs (.barInit f) s (State.retire { s.unreplayable.endRegion with cs := { s.cs with
      bars := s.cs.bars ++ [{ core := s.g.core, idx := idx, st := .live, ctx := s.g.ctx, cl := f.scope == 3, exp := n }] } }))) ∧
  (∀ (s : State) core idx arrival, (s.barAt core idx = none → s.checkBar core idx arrival = .error 2) ∧
    (∀ b, s.barAt core idx = some b → let bit := s.g.barBit core
      let member := s.g.bars.contains (core, idx)
      (b.ctx ≠ s.g.ctx → s.checkBar core idx arrival = .error 2) ∧
      (b.ctx = s.g.ctx → core ≠ s.g.core → b.cl = false → s.checkBar core idx arrival = .error 6) ∧
      (b.ctx = s.g.ctx → (core = s.g.core ∨ b.cl = true) → s.checkBar core idx false = .ok b ∧
        s.checkBar core idx true = if member = true ∧ b.arr &&& bit ≠ 0 then .error 3
          else if member = false ∧ (popCount 16 b.memb.toNat = b.exp ∨ b.held &&& bit ≠ 0) then .error 4 else .ok b))) ∧
  (∀ (f : FY) (s : State) (b : Barrier) (peer : Bool), let core := if peer then corePeer s.g.core else s.g.core
    let idx := (f.imm.extractLsb' 0 6).toNat
    let bit := s.g.barBit core
    let u := s.unreplayable.drain.endRegion
    let last := b.cnt + 1 = b.exp
    let b' : Barrier := { b with
      memb := b.memb ||| bit, arr := if last then 0 else b.arr ||| bit, cnt := if last then 0 else b.cnt + 1, phase := if last then b.phase + 1 else b.phase }
    let after : State := { u.putBar b' with g := u.g.joinBar core idx }
    let token := BitVec.ofNat 64 (b.phase.toNat + 2 ^ 16 * idx + 2 ^ 32 * core)
    s.checkBar core idx true = .ok b → b.st = .live → core < 512 →
    (peer = false → Runs (.barArr f) s (after.setS f.d token).retire) ∧
    (peer = true → Runs (.barPeer f) s (after.setS f.d token).retire) ∧
    (s.g.arrived = none → ∀ i, (i = Instr.barSync f ∧ peer = false) ∨ (i = Instr.barSyncPeer f ∧ peer = true) →
      (last → Runs i s (State.retire { after with g := { after.g with arrived := none } })) ∧
      (¬ last → Runs i s (State.wait { after with g := { after.g with arrived := some token } })))) ∧
  (∀ (f : FY) (s : State) t, s.g.arrived = some t → let r := s.readBar (t.extractLsb' 32 9).toNat (t.extractLsb' 16 6).toNat
    ∀ i ∈ [Instr.barSync f, .barSyncPeer f],
      (s.barPassed t = true → Runs i s (State.retire { r with g := { r.g with arrived := none } })) ∧
      (s.barPassed t = false → Runs i s r.wait)) ∧
  (∀ (f : FY) (s : State), s.Clean [s.g.sitem f.a] → let t := s.g.sget f.a
    let core := (t.extractLsb' 32 9).toNat
    let r := s.readBar core (t.extractLsb' 16 6).toNat
    let bad : Prop := t.extractLsb' 22 10 ≠ 0 ∨ t.extractLsb' 41 23 ≠ 0 ∨ (core ≠ s.g.core ∧ core ≠ corePeer s.g.core)
    (bad → Runs (.barWait f) s (takeTrap { cause := cBARRIER, einfo := 7 } s)) ∧
    (¬ bad → s.barAt core (t.extractLsb' 16 6).toNat = none → Runs (.barWait f) s (takeTrap { cause := cBARRIER, einfo := 2 } r)) ∧
    (∀ b, ¬ bad → s.barAt core (t.extractLsb' 16 6).toNat = some b →
      (b.ctx ≠ s.g.ctx → Runs (.barWait f) s (takeTrap { cause := cBARRIER, einfo := 2 } r)) ∧
      (b.ctx = s.g.ctx → b.phase ≠ t.extractLsb' 0 16 →
        Runs (.barWait f) s r.endAtStart.unreplayable.retire) ∧
      (b.ctx = s.g.ctx → b.phase = t.extractLsb' 0 16 → Runs (.barWait f) s (State.wait { r.endAtStart with g := { r.endAtStart.g with awaits := some t } })))) ∧
  (∀ (s : State) core idx, (∃ ms, s.readBar core idx = { s with ms := ms } ∧ ms.mem = s.ms.mem ∧ ms.backing = s.ms.backing) ∧
    (∀ b, s.barAt core idx = some b → b.st = .live → s.readBar core idx = s)) ∧
  (∀ (s : State) (a b : Barrier), s.barAt b.core b.idx = some a → b.st = .live →
    let u : State := { s with cs := { s.cs with bars := s.cs.bars.map fun x => if x.core = b.core && x.idx = b.idx then b else x } }
    (b.phase = a.phase → s.putBar b = u) ∧
    (b.phase ≠ a.phase → s.putBar b = u.mapGroups fun g => if g.phase = .parked ∧ (g.arrived = some a.token ∨ g.awaits = some a.token) ∧ g.ctx = a.ctx
      then ({ g.unreplayable with arrived := none, awaits := none } : Group).advance else g)) ∧
  (∀ (f : FY) (s : State) (b : Barrier) (peer : Bool), let core := if peer then corePeer s.g.core else s.g.core
    let idx := (f.imm.extractLsb' 0 6).toNat
    let bit := s.g.barBit core
    let u := s.unreplayable.drain.endRegion
    let i := if peer then Instr.barDropPeer f else .barDrop f
    let v : State := { u with g := { u.g with bars := u.g.bars.filter (· ≠ (core, idx)) } }
    let all : Bool := b.arr &&& bit == 0 && b.cnt + 1 == b.exp
    let a : Barrier := if b.arr &&& bit ≠ 0 then b else if all then { b with memb := b.memb ||| bit, arr := 0, cnt := 0, phase := b.phase + 1 }
      else { b with memb := b.memb ||| bit, arr := b.arr ||| bit, cnt := b.cnt + 1 }
    let d : Barrier := { a with memb := a.memb &&& ~~~ bit, held := a.held &&& ~~~ bit, exp := a.exp - 1 }
    s.checkBar core idx false = .ok b → b.st = .live →
    (s.g.bars.contains (core, idx) = false → Runs i s u.retire) ∧
    (s.g.bars.contains (core, idx) = true → d.exp = 0 → Runs i s ((v.putBar d).freeBar core idx).retire) ∧
    (s.g.bars.contains (core, idx) = true → d.exp ≠ 0 → (d.cnt = 0 ∨ d.cnt ≠ d.exp) → Runs i s (v.putBar d).retire) ∧
    (s.g.bars.contains (core, idx) = true → d.exp ≠ 0 → d.cnt ≠ 0 → d.cnt = d.exp →
      Runs i s (v.putBar { d with phase := d.phase + 1, cnt := 0, arr := 0 }).retire)) ∧
  (∀ (f : FY) (s : State) (e : PoolEntry), s.ownEntry = some e →
    (e.rc.grid = false → Runs (.barGrid f) s (takeTrap { cause := cGRIDRES } s)) ∧
    (e.rc.grid = true → s.g.arrived = none → s.g.awaits = none → let u := s.unreplayable.drain.endRegion
      let token := BitVec.ofNat 64 (2 ^ 63 + e.gridPhase.toNat)
      (e.gridCnt + 1 = e.bound - e.ended → ∃ v : State, Runs (.barGrid f) s v.retire ∧ v.g = u.g ∧ v.ms = u.ms ∧
        v.poolAt e.die e.entry = some { e with gridCnt := 0, gridPhase := e.gridPhase + 1 } ∧
        v.others = u.others.map fun g => if g.phase = .parked ∧ (g.arrived = some token ∨ g.awaits = some token) ∧ g.ofEntry e = true
          then ({ g.unreplayable with arrived := none, awaits := none } : Group).advance else g) ∧
      (e.gridCnt + 1 ≠ e.bound - e.ended → ∃ v : State, Runs (.barGrid f) s v.wait ∧ v.g = { u.g with arrived := some token } ∧ v.ms = u.ms ∧
        v.others = u.others ∧ v.poolAt e.die e.entry = some { e with gridCnt := e.gridCnt + 1 })) ∧
    (∀ t, e.rc.grid = true → s.g.arrived = some t → let token := BitVec.ofNat 64 (2 ^ 63 + e.gridPhase.toNat)
      (token ≠ t → Runs (.barGrid f) s (State.retire { s with g := { s.g with arrived := none } })) ∧
      (token = t → Runs (.barGrid f) s s.wait))) ∧
  (∀ (f : FY) (s : State), s.ownEntry = none → Runs (.barGrid f) s (takeTrap { cause := cGRIDRES } s))

/-! ## Queues and packets -/

/-- Queue instructions: enq writes its packet at WIDX and advances it, within the group's reservation, and raises ALIGN, or BUDGET
code 5, 9 or 10; qfence retires, for every older enq is placed; cnt reads a counter or a word, and cnt.wait waits until it is
reached or marked; cancel of each level writes 0 and cancels, or a status that says why not: for a launch, the one a token names or its
own. Each ends the region (R262, R279 to R284); that a cnt.wait has ended it while it waits, and the answers to a slot that cannot be written
and to a queue that is gone, are the model's choices (logs 11, 111). -/
def Obligations.QueueInstructions : Prop :=
  (∀ (f : FY) (s : State), s.Clean [s.g.sitem f.a, s.g.sitem f.b] → let a := (s.g.sget f.b).toNat
    let q := s.g.sget f.a
    (a % 64 ≠ 0 → Runs (.enq f) s (takeTrap { cause := cALIGN, eaddr := s.g.sget f.b } s)) ∧
    (∀ b s1, a % 64 = 0 → (groupBytes a 64).at s = (.ok b, s1) →
      (pkHeaderBad b = true → Runs (.enq f) s (takeTrap { cause := cBUDGET, einfo := 5 } s1)) ∧
      (pkHeaderBad b = false → s1.reservation q = none → Runs (.enq f) s (takeTrap { cause := cBUDGET, einfo := 10 } s1)) ∧
      (∀ isA n, pkHeaderBad b = false → s1.reservation q = some (isA, n) →
        (n = 0 ∨ s1.queueAt s.g.ctx q.toNat = none → Runs (.enq f) s (takeTrap { cause := cBUDGET, einfo := 9 } s1)) ∧
        (∀ x s2 ts, n ≠ 0 → s1.queueAt s.g.ctx q.toNat = some x →
          let at_ := x.base + 64 * (x.widx % 2 ^ (x.log2n + 4))
          checkStore s1 s.g.core s.g.ctx (.ewrite .c 1) at_ b.length = .ok s2 ts →
          let u := (s2.unreplayable.drain.endRegion.storeHits at_ b ts).mapQueue s.g.ctx q.toNat fun x => { x with widx := x.widx + 1 }
          let p : Placed := { ctx := s.g.ctx, q := q.toNat, index := x.widx, mem := { s.g.mem with ugid := s.g.gid, uno := s.g.unitNo } }
          Runs (.enq f) s (State.retire (State.setS { u with
            g := { u.g with resA := if isA then n - 1 else u.g.resA, resB := if isA then u.g.resB else n - 1 }
            qs := { u.qs with placed := u.qs.placed ++ [p] } } f.d (BitVec.ofNat 64 x.widx))))))) ∧
  (∀ (f : FY) (s : State), Runs (.qfence f) s s.endRegion.retire) ∧
  (∀ (f : FY) (s : State), s.Clean [s.g.sitem f.a, s.g.sitem f.b] →
    let a := if f.a = 0 then s.levelCounter (f.imm.extractLsb' 0 3).toNat else (s.g.sget f.a).toNat
    (f.a = 0 → a = 0 → ∀ i ∈ [Instr.cnt f, .cntWait f], Runs i s (takeTrap { cause := cBUDGET, einfo := 8 } s)) ∧
    (¬ (f.a = 0 ∧ a = 0) → a % 8 ≠ 0 → ∀ i ∈ [Instr.cnt f, .cntWait f], Runs i s (takeTrap { cause := cALIGN, eaddr := BitVec.ofNat 64 a } s)) ∧
    (∀ x s1, ¬ (f.a = 0 ∧ a = 0) → a % 8 = 0 → (groupNat a 8).at s = (.ok x, s1) →
      Runs (.cnt f) s (s1.endAtStart.setS f.d (BitVec.ofNat 64 x)).retire ∧
      ((s.g.sget f.b).toNat ≤ x ∨ 2 ^ 63 ≤ x → Runs (.cntWait f) s (s1.endAtStart.setS f.d (BitVec.ofNat 64 x)).retire) ∧
      (x < (s.g.sget f.b).toNat → x < 2 ^ 63 → Runs (.cntWait f) s s1.endAtStart.wait))) ∧
  (∀ (f : FY) (s : State), s.Clean [s.g.sitem f.a] → let lvl := (f.imm.extractLsb' 0 3).toNat
    let u := s.unreplayable.endRegion
    let gives (n : W64) : Prop := Runs (.cancel f) s (u.setS f.d n).retire
    (lvl = 0 → s.g.unit = none → gives 2) ∧
    (∀ n, lvl = 0 → s.g.unit = some n → Runs (.cancel f) s (State.retire ((u.setS f.d 0).cancel (.unit s.g.ctx s.g.gid s.g.unitNo)))) ∧
    (lvl = 1 → f.a ≠ 0 → s.byToken (s.g.sget f.a) = none → gives 2) ∧
    (∀ e, lvl = 1 → f.a ≠ 0 → s.byToken (s.g.sget f.a) = some e →
      (e.ctx ≠ s.g.ctx → gives 2) ∧ (e.ctx = s.g.ctx → e.isDone = true → gives 1) ∧
      (e.ctx = s.g.ctx → e.isDone = false → Runs (.cancel f) s (State.retire ((u.setS f.d 0).cancel (.entry e.die e.entry true))))) ∧
    (lvl = 1 → f.a = 0 → s.ownEntry = none → gives 2) ∧
    (∀ e, lvl = 1 → f.a = 0 → s.ownEntry = some e →
      (e.isDone = true → gives 1) ∧ (e.isDone = false → Runs (.cancel f) s (State.retire ((u.setS f.d 0).cancel (.entry e.die e.entry true))))) ∧
    (lvl = 2 → s.g.mem.walk = 0 → gives 2) ∧ (lvl = 2 → s.g.mem.walk ≠ 0 → s.walkOf s.g.mem.walk = none → gives 1) ∧
    (∀ w, lvl = 2 → s.g.mem.walk ≠ 0 → s.walkOf s.g.mem.walk = some w →
      (w.cancelled = true ∨ (∃ r, s.runOf w.run = some r ∧ r.it = 1) → gives 1) ∧
      (w.cancelled = false → (∀ r, s.runOf w.run = some r → r.it ≠ 1) → Runs (.cancel f) s (State.retire ((u.setS f.d 0).cancel (.walk w.id))))) ∧
    (lvl = 3 → s.g.mem.loops = [] → gives 2) ∧
    (∀ run it more, lvl = 3 → s.g.mem.loops = (run, it) :: more →
      ((∃ r, s.runOf run = some r ∧ r.ready = false ∧ r.it = it) → Runs (.cancel f) s (State.retire ((u.setS f.d 0).cancel (.loop run it)))) ∧
      ((∀ r, s.runOf run = some r → r.ready = true ∨ r.it ≠ it) → gives 1)) ∧
    (lvl = 4 → s.g.launch = none ∨ s.queueAt s.g.ctx s.g.mem.q = none → gives 2) ∧
    (∀ x, lvl = 4 → s.g.launch ≠ none → s.queueAt s.g.ctx s.g.mem.q = some x →
      let open_ : Prop := (x.job = s.g.mem.job ∧ x.skipJob = false) ∨ ∃ p ∈ x.jends, p.1 = s.g.mem.job
      (open_ → Runs (.cancel f) s (State.retire ((u.setS f.d 0).cancel (.job s.g.ctx s.g.mem.q s.g.mem.job)))) ∧ (¬ open_ → gives 1)))

/-- Queue events: while the device is awake, a doorbell of an Active host-fed queue moves WIDX within the ring's room, and any other value stops the queue with
ERR 4; a queue that is not Active holds the newest value until it is; a doorbell of a quarantined partition, a device-fed queue or no
queue is dropped; a valid descriptor makes a queue, whose jobs' numbers no destroyed queue's had; a restart above EIDX and at most WIDX makes it
Active again, and a skipped packet loses its job, which ends with it if it is JEND; a destroy frees it,
and leaves of its packets only copies, which have a record to write (R23, R262 to R266, R268, R451). Two clauses are the model's choice:
ERR 4 moves EIDX to RIDX, and a queue that is not Active holds the newest bell and takes it on restart (log 26); no queue is made for a
Created context, which has no partition (log 78). -/
def Obligations.QueueEvents : Prop :=
  (∀ (s : State) ctx q v, s.mg.pstate = 0 → (s.ctxOf ctx = none ∨ s.queueAt ctx q = none → Runs (.doorbellWrite ctx q v) s s) ∧
    ∀ (c : Ctx) (x : Queue), s.ctxOf ctx = some c → s.queueAt ctx q = some x →
      let p := s.ctxPut c (c.dbell + 8 * q) 8 v.toNat
      let u : State := { p with ms := { p.ms with wrote := s.ms.wrote } }
      (x.feed = true ∨ s.quarantined ctx = true → Runs (.doorbellWrite ctx q v) s s) ∧
      (x.feed = false → s.quarantined ctx = false → Runs (.doorbellWrite ctx q v) s (u.mapQueue ctx q fun x => x.ring v.toNat))) ∧
  (∀ (x : Queue) v, x.feed = false →
    (x.st = 1 → x.widx ≤ v → v ≤ x.ridx + 2 ^ (x.log2n + 4) → x.ring v = { x with widx := v }) ∧
    (x.st = 1 → v < x.widx ∨ x.ridx + 2 ^ (x.log2n + 4) < v → x.ring v = { x with st := 2, err := 4, eidx := x.ridx }) ∧
    (x.st ≠ 1 → x.ring v = { x with bell := some v })) ∧
  (∀ (s : State) ctx q (c : Ctx), s.ctxOf ctx = some c → let d := s.memNat (c.qtab + 64 * q) 64
    q < 256 → c.inMemory (c.qtab + 64 * q) 64 = true → s.queueAt ctx q = none → c.st ≠ .created → c.st ≠ .destroyed → natBits d 0 52 % 64 = 0 → natBits d 57 7 = 0 → natBits d 208 48 = 0 →
    natBits d 320 52 % 8 = 0 → natBits d 372 140 = 0 →
    ∃ u : State, Runs (.queueCreate ctx q) s u ∧ u.g = s.g ∧ u.queueAt ctx q = some {
      ctx := ctx, q := q, base := natBits d 0 52, log2n := natBits d 52 4, feed := natBits d 56 1 = 1, jctr := natBits d 320 52
      ridx := natBits d 64 64, widx := natBits d 128 64, st := 1, pos := natBits d 64 64, job := s.qs.nextJob }) ∧
  (∀ (s : State) ctx q v (x : Queue), s.queueAt ctx q = some x → x.st = 2 →
    (x.eidx < v.toNat → v.toNat ≤ x.widx →
      ∃ (u : State) (y : Queue), Runs (.queueRestart ctx q v) s u ∧ u.g = s.g ∧ u.queueAt ctx q = some y ∧ y.ridx = v.toNat ∧ y.pos = v.toNat ∧
        (x.bell = none → y.st = 1 ∧ y.widx = x.widx) ∧
        (∀ w, x.bell = some w → x.feed = false → x.widx ≤ w → w ≤ v.toNat + 2 ^ (x.log2n + 4) → y.st = 1 ∧ y.widx = w) ∧
        (v.toNat = x.ridx + 1 → ∀ b s1, (engineBytes (256 + s.queueDie ctx q) ctx .c (x.slotAt x.ridx) 64).at s = (.ok b, s1) →
          (pkJend b = true → y.job = x.job + 1 ∧ y.lost = false) ∧ (pkJend b = false → y.job = x.job ∧ y.lost = true))) ∧
    (v.toNat ≤ x.eidx ∨ x.widx < v.toNat → Runs (.queueRestart ctx q v) s s)) ∧
  (∀ (s : State) ctx q (x : Queue), s.queueAt ctx q = some x →
    ∃ u : State, Runs (.queueDestroy ctx q) s u ∧ u.queueAt ctx q = none ∧ x.job < u.qs.nextJob ∧
      ∀ r ∈ u.qs.runs, r.seq.ctx = ctx → r.seq.q = q → r.kind = 3)

/-- Packets: a packet that breaks its rules is rejected with its ERR and index; a started packet leaves the ring, or the list of
nodes, and has a run; LAUNCH and TASK put their record into a pool, or reject it with ERR 3; GRAPH starts a walk of its nodes; COND
runs or passes over its range; LOOP opens its range, and after each iteration runs it again or has completed; SIGNAL stores
or adds its value; COPY moves its bytes and no other, then writes its completion record, once the ring has room, and counts it, or is rejected with ERR 7 when it cannot read the
ring's descriptor (one cancelled already only goes: the model's choice, log 128); a packet
whose work is done completes, and WAIT once its word has reached its value (R266 to R276). The model's choices are behind four clauses:
128 bytes a firing (log 27), RIDX the greatest completed position, left by a reject (log 56), ERR 6 (log 28), and a COPY's place among
the demand requests of the device (log 83); ERR 1 for a field out of range is too (log 108), and a BASE rounded down (log 110). -/
def Obligations.Packets : Prop :=
  (∀ (s s1 : State) (q : SeqRef) (b : List Byte), s.mayRead q = true → (s.nextPacket q).at s = (.ok b, s1) → s1.passes q = false → pkErr b ≠ 0 →
    ∀ r ∈ [(Instr.launchPacket q, 1), (.taskPacket q, 2), (.copyPacket q, 3), (.graphPacket q, 4), (.condPacket q, 5), (.loopPacket q, 6), (.signalPacket q, 7), (.waitPacket q, 8)],
      pkKind b = r.2 ∨ pkKind b = 0 ∨ 8 < pkKind b → Runs r.1 s (s1.reject q (s1.posOf q) (pkErr b) (s1.levelsOf q))) ∧
  (∀ (s : State) (q : SeqRef) (b : List Byte), let r := (s.startRun q b).2
    r.id = s.qs.nextRun ∧ r.seq = q ∧ r.index = s.posOf q ∧ r.kind = pkKind b ∧ r.body = b ∧
    ∀ x, q.walk = 0 → s.queueAt q.ctx q.q = some x → ∃ y, (s.startRun q b).1.queueAt q.ctx q.q = some y ∧ y.pos = x.pos + 1 ∧ y.ridx = max x.ridx (x.pos + 1)) ∧
  (∀ (s s1 : State) (q : SeqRef) (b : List Byte),
    (s.Starts q 3 b s1 → let u := (s1.startRun q b).1
      Runs (.copyPacket q) s (u.newId.2.mapRun (s1.startRun q b).2.id fun r => { r with no := u.newId.1 })) ∧ (s.Starts q 8 b s1 → Runs (.waitPacket q) s (s1.startRun q b).1)) ∧
  (∀ (s s1 s2 : State) (q : SeqRef) (b : List Byte) (c : Ctx), s1.ctxOf q.ctx = some c → let core := 256 + s1.queueDie q.ctx q.q
    let goes (i : Instr) (res : Except Trap (Option (Record × KernelDesc × List WsEntry)) × State) : Prop :=
      (res = (.ok none, s2) → Runs i s (s2.reject q (s2.posOf q) 3 (s2.levelsOf q))) ∧
      (∀ rc kd ws p s3 e, res = (.ok (some (rc, kd, ws)), s2) → s2.entryFor (s1.queueDie q.ctx q.q) c.psize rc = some p → 0 < s2.poolRoom p.1 →
        (p.2.2 ≠ none → 0 < s2.poolRoom 1) →
        let r := (s2.startRun q b).2
        let u := (s2.startRun q b).1.mapRun r.id fun r => { r with die := p.1, entry := p.2.1 }
        u.enterPool (s1.queueDie q.ctx q.q) c rc kd ws 0 r.id r.mem = some (s3, e) → Runs i s s3)
    (s.Starts q 1 b s1 → goes (.launchPacket q)
      ((do return ← readRecord core q.ctx (32 * 2 ^ c.psize) (← engineNat core q.ctx .c (pkNat b 8 8) 64) : Rd (Option (Record × KernelDesc × List WsEntry))).at s1)) ∧
    (s.Starts q 2 b s1 → taskFits b = true → goes (.taskPacket q) ((readRecord core q.ctx (32 * 2 ^ c.psize) (taskRecord b)).at s1))) ∧
  (∀ (s s1 s2 : State) (q : SeqRef) (b : List Byte) gctr ns, q.walk = 0 → s.Starts q 4 b s1 →
    (readGraph (256 + s1.queueDie q.ctx q.q) q.ctx (pkNat b 8 8)).at s1 = (.ok (.ok (gctr, ns)), s2) →
    ∃ (u : State) (w : Walk), Runs (.graphPacket q) s u ∧ u.g = s2.g ∧ u.qs.walks = s2.qs.walks ++ [w] ∧ w.ctx = q.ctx ∧ w.q = q.q ∧ w.nodes = ns ∧
      w.gctr = gctr ∧ w.pos = 0 ∧ w.run = s2.qs.nextRun) ∧
  (∀ (s s1 : State) (q : SeqRef) (b : List Byte), let n := pkNat b 24 1
    (s.Starts q 5 b s1 ∨ s.Starts q 6 b s1 → s1.rangeOk q n = false → ∀ i, (i = Instr.condPacket q ∧ pkKind b = 5) ∨ (i = .loopPacket q ∧ pkKind b = 6) →
      Runs i s (s1.reject q (s1.posOf q) 6 (s1.levelsOf q))) ∧
    (∀ s2, s.Starts q 5 b s1 → s1.rangeOk q n = true →
      let test := (testWord (256 + s1.queueDie q.ctx q.q) q.ctx b).at s1
      let u := (s2.startRun q b).1
      (test = (.ok true, s2) → Runs (.condPacket q) s (u.openRange q { run := s2.qs.nextRun, loop := false, first := 0, len := n })) ∧
      (test = (.ok false, s2) → Runs (.condPacket q) s ((u.mapRun s2.qs.nextRun fun r => { r with ready := true }).openRange q
        { run := 0, loop := false, skip := true, first := 0, len := n }))) ∧
    (s.Starts q 6 b s1 → s1.rangeOk q n = true →
      Runs (.loopPacket q) s ((s1.startRun q b).1.openRange q { run := s1.qs.nextRun, loop := true, first := 0, len := n }))) ∧
  (∀ (s : State) (r : PacketRun), s.runOf r.id = some r → r.kind = 6 → r.ready = false → r.status = 0 → s.ctxLive r.seq.ctx = true → s.rangeDone r = true →
    s.waitsOn (.started r.id) = false → pkNat r.body 40 8 = 0 →
    let u := (s.mapRun r.id fun r => { r with it := r.it + 1, status := 2 }).mapRun r.id fun r => { r with status := 1 }
    let test := (testWord (256 + u.queueDie r.seq.ctx r.seq.q) r.seq.ctx r.body).at u
    let most := pkNat r.body 32 4
    (∀ s1 x, test = (.ok true, s1) → (most = 0 ∨ r.it + 1 ≠ most) → (s1.rangesOf r.seq).find? (·.run = r.id) = some x →
      Runs (.loopIterationEnd r.id) s ((s1.setPos r.seq x.first).mapRun r.id fun r => { r with status := 0 })) ∧
    (∀ again s1, test = (.ok again, s1) → (again = false ∨ (most ≠ 0 ∧ r.it + 1 = most)) →
      Runs (.loopIterationEnd r.id) s ((s1.closeRange { r with it := r.it + 1, status := 2 }).mapRun r.id fun r => { r with ready := true }))) ∧
  (∀ (s s1 s2 : State) (q : SeqRef) (b : List Byte) (h : Hit3), s.Starts q 7 b s1 → let add := pkNat b 24 1 = 1
    checkAccess s1 (256 + s1.queueDie q.ctx q.q) q.ctx { cls := .c, acc := if add then 2 else 1, needR := add, needW := true, size := 8, reads := add } true
      [(0, (pkNat b 8 8 : Int))] = .ok s2 [h] →
    let v := s2.memPut h.2.2.key 8 (if add then s2.memNat h.2.2.key 8 + pkNat b 16 8 else pkNat b 16 8)
    let u : State := if pkNat b 25 1 = 11 then { v with ms := v.ms.writeBackAll } else v
    Runs (.signalPacket q) s ((u.startRun q b).1.mapRun u.qs.nextRun fun r => { r with ready := true })) ∧
  (∀ (s : State) (r : PacketRun), s.runOf r.id = some r → r.kind = 3 → r.it = 0 → r.status = 0 → r.moved < pkNat r.body 24 8 →
    s.waitsOn (.copy r.id) = false → s.demandMayLand r.no = true →
    let core := 256 + s.queueDie r.seq.ctx r.seq.q
    let src := pkNat r.body 8 8 + r.moved
    let dst := pkNat r.body 16 8 + r.moved
    let k := min (pkNat r.body 24 8 - r.moved) (min (128 - src % 128) (128 - dst % 128))
    (∀ b s1 s2, (engineBytes core r.seq.ctx .c src k).at s = (.ok b, s1) → (engineStore core r.seq.ctx (.ewrite .c 1) dst b).at s1 = (.ok (), s2) →
      Runs (.copyRecordWrite r.id) s (s2.mapRun r.id fun r => { r with moved := r.moved + k })) ∧
    (∀ t s1, (engineBytes core r.seq.ctx .c src k).at s = (.error t, s1) → t.cause ≠ cPAGE →
      Runs (.copyRecordWrite r.id) s (s1.mapRun r.id fun r => { r with status := 2, cause := t.cause }))) ∧
  (∀ (s s1 : State) (r : PacketRun) (d : List Byte), s.runOf r.id = some r → r.kind = 3 → r.it = 0 → r.status ≠ 0 ∨ pkNat r.body 24 8 ≤ r.moved →
    s.waitsOn (.copy r.id) = false →
    let core := 256 + s.queueDie r.seq.ctx r.seq.q
    let ring := pkNat r.body 32 8
    (∀ t, (engineBytes core r.seq.ctx .c ring 64).at s = (.error t, s1) → t.cause ≠ cPAGE →
      (r.cancelled = false → Runs (.copyRecordWrite r.id) s ((s1.reject r.seq r.index 7 r.mem r.id).cancelRun r)) ∧
      (r.cancelled = true → Runs (.copyRecordWrite r.id) s (s1.cancelRun r))) ∧
    ((engineBytes core r.seq.ctx .c ring 64).at s = (.ok d, s1) →
    let w := pkNat d 8 8
    let n := 2 ^ natBits (leNat d) 52 4
    let full : Prop := n ≤ (w + 2 ^ 64 - pkNat d 16 8) % 2 ^ 64 ∨ s1.ringBusy r.seq.ctx ring = true
    let u := s1.tick.mapRun r.id fun r => { r with it := 1 }
    let rec_ := leBytes 4 (if r.status = 0 then 1 else r.status) ++ leBytes 4 r.cause.toNat ++ leBytes 8 r.moved ++ leBytes 8 u.clock ++ leBytes 8 (pkNat r.body 40 8)
    (full → Runs (.copyRecordWrite r.id) s s1) ∧
    (∀ (s2 s3 : State) (h k : Hit3), ¬ full →
      checkAccess u core r.seq.ctx { cls := .c, acc := 1, needR := false, needW := true, size := 32 } true
        [(0, ((natBits (leNat d) 0 52 / 32 * 32 + 32 * (w % n) : Nat) : Int))] = .ok s2 [h] →
      checkAccess (s2.memWrite h.2.2.key rec_) core r.seq.ctx { cls := .c, acc := 2, needR := true, needW := true, align := some 8, size := 8, reads := true } true
        [(0, ((ring + 8 : Nat) : Int))] = .ok s3 [k] →
      Runs (.copyRecordWrite r.id) s ((s3.memPut k.2.2.key 8 (s3.memNat k.2.2.key 8 + 1)).mapRun r.id fun r => { r with ready := true })))) ∧
  (∀ (s : State) (r : PacketRun), s.runOf r.id = some r →
    (r.ready = true → Runs (.packetComplete r.id) s (s.finishRun r)) ∧
    (r.kind = 8 → r.ready = false → s.ctxLive r.seq.ctx = true → s.waitsOn (.started r.id) = false →
      ∀ w s1, (engineNat (256 + s.queueDie r.seq.ctx r.seq.q) r.seq.ctx .c (pkNat r.body 8 8) 8).at s = (.ok w, s1) →
        Runs (.packetComplete r.id) s (if pkNat r.body 16 8 ≤ w ∨ 2 ^ 63 ≤ w then s1.finishRun r else s1)))

/-! ## System registers, software causes, service -/

/-- mfs and mts: every system register reads as R416 says, sys.clock never going back; mts writes the fields a register holds,
ignores sys.region but for SPLT, sets EPCW with sys.epc, and raises PRIV code 1 for a register it cannot write, and code 2 outside the
handler for one of the handler's (R50 to R53, R69, R109 to R111, R217, R416, R425). -/
def Obligations.SystemRegisters : Prop :=
  (∀ (f : FY) (s : State), let c := (s.ctxOf s.g.ctx).getD default
    let region := s.g.seq.toNat + (if s.ms.tokens.any (fun t => t.heldBy s.g && t.seq == s.g.seq) then 2 ^ 16 else 0) +
      (if s.g.idem.isSome then 2 ^ 17 else 0) + (if s.g.splt then 2 ^ 18 else 0)
    ∀ x ∈ [((0 : Nat), BitVec.ofNat 64 (s.g.slot % 8 + if s.g.hmode then 8 else 0)), (1, BitVec.ofNat 64 s.g.core), (2, BitVec.ofNat 64 s.g.ctx),
        (3, BitVec.ofNat 64 (c.fsect % 8 + 8 * (c.psize % 4))), (4, s.g.r.fflags.setWidth 64), (5, s.g.r.fenable.setWidth 64), (6, s.g.r.qflags.setWidth 64),
        (7, s.g.r.dphase.setWidth 64), (8, s.g.r.tvec.setWidth 64), (9, s.g.r.trap.tcause.setWidth 64), (10, s.g.r.trap.epc),
        (11, s.g.r.trap.elanes.setWidth 64), (12, s.g.r.trap.eaddr), (13, s.g.r.trap.einfo), (14, s.g.r.mask.setWidth 64),
        (15, BitVec.ofNat 64 (s.g.r.stack.length + if s.g.r.pend.isSome then 64 else 0)), (16, BitVec.ofNat 64 region)],
      f.imm.toNat = x.1 → Runs (.mfs f) s (s.setS f.d x.2).retire) ∧
  (∀ (f : FY) (s : State), f.imm = 0x11 → ∃ u : State, Runs (.mfs f) s (u.setS f.d (BitVec.ofNat 64 u.clock)).retire ∧ s.clock ≤ u.clock ∧
    u = { s with clock := u.clock, fresh := s.fresh + 1 }) ∧
  (∀ (f : FY) (s : State), let n := f.imm.toNat
    let x := s.g.sget f.a
    let put (r : Arch) : State := { s with g := { s.g with r := r } }
    (n ∈ [0, 1, 2, 3, 14, 15, 17] → Runs (.mts f) s (takeTrap { cause := cPRIV, einfo := 1 } s)) ∧
    (n ∈ [9, 10, 11, 12, 13] → s.g.hmode = false → Runs (.mts f) s (takeTrap { cause := cPRIV, einfo := 2 } s)) ∧
    (s.Clean [s.g.sitem f.a] →
      (∀ y ∈ [((4 : Nat), put { s.g.r with fflags := x.setWidth 5 }), (5, put { s.g.r with fenable := x.setWidth 5 }), (6, put { s.g.r with qflags := x.setWidth 6 }),
        (7, put { s.g.r with dphase := x.setWidth 5 }), (8, put { s.g.r with tvec := x.setWidth 52 }),
        (16, { s with g := { s.g with splt := s.g.splt && !x.getLsbD 18 } })], n = y.1 → Runs (.mts f) s y.2.retire) ∧
      (s.g.hmode = true → ∀ y ∈ [((9 : Nat), put { s.g.r with trap := { s.g.r.trap with tcause := x.setWidth 8 } }),
        (10, { s with g := { s.g with r := { s.g.r with trap := { s.g.r.trap with epc := x } }, epcw := true } }),
        (11, put { s.g.r with trap := { s.g.r.trap with elanes := x.setWidth 32 } }), (12, put { s.g.r with trap := { s.g.r.trap with eaddr := x } }),
        (13, put { s.g.r with trap := { s.g.r.trap with einfo := x } })], n = y.1 → Runs (.mts f) s y.2.retire)))

/-- Software causes and firmware calls: trap raises SWTRAP with its code and brk WATCH code 2 with its own; fwcall.sys closes the
region, performs older stores, hands two values over and waits, and retires with the reply, which a later event brings; fwcall.xz
exchanges the scratch registers with s56 to s63 and v252 to v255 in handler mode, and raises PRIV code 2 outside it (R426, R428). -/
def Obligations.SoftwareCauses : Prop :=
  (∀ (f : FY) (s : State), Runs (.trap f) s (takeTrap { cause := cSWTRAP, einfo := BitVec.ofNat 64 f.imm.toNat } s) ∧
    Runs (.brk f) s (takeTrap { cause := cWATCH, einfo := BitVec.ofNat 64 (2 + 65536 * f.imm.toNat) } s)) ∧
  (∀ (f : FY) (s : State), s.g.fwReq = none → s.Clean [s.g.sitem f.a, s.g.sitem f.b] → let u := s.closeIdem.drain
    Runs (.fwcallSys f) s (State.wait { u with
      g := { u.g with fwReq := some (s.g.sget f.a, s.g.sget f.b), fwReply := none }
      cx := { u.cx with notices := u.cx.notices ++ [.fwcall s.g.gid] } })) ∧
  (∀ (f : FY) (s : State) q x, s.g.fwReq = some q →
    (s.g.fwReply = none → Runs (.fwcallSys f) s s.wait) ∧
    (s.g.fwReply = some x → Runs (.fwcallSys f) s (State.retire (State.setS { s with g := { s.g with fwReq := none, fwReply := none } } f.d x)))) ∧
  (∀ core slot (x : W64) (s : State) q, s.groupAt core slot = some s.g → s.g.phase = .parked → s.g.fwReq = some q → s.g.fwReply = none →
    Runs (.fwcallReply core slot x) s { s with
      g := { s.g with fwReply := some x }, cx := { s.cx with notices := s.cx.notices.filter (· ≠ .fwcall s.g.gid) } }) ∧
  (∀ (f : FY) (s : State), (s.g.hmode = false → Runs (.fwcallXz f) s (takeTrap { cause := cPRIV, einfo := 2 } s)) ∧
    (s.g.hmode = true → s.Clean xzItems → ∃ r : Arch, Runs (.fwcallXz f) s (State.retire { s with g := { s.g with r := r } }) ∧
      (∀ n : Fin 64, r.s[n] = if h : 56 ≤ n.val then s.g.r.z[n.val - 56]'(by omega) else s.g.r.s[n]) ∧
      (∀ n : Fin 8, r.z[n] = s.g.r.s[56 + n.val]'(by omega)) ∧
      (∀ n : Fin 256, r.v[n] = if h : 252 ≤ n.val then s.g.r.zv[n.val - 252]'(by omega) else s.g.r.v[n]) ∧
      (∀ n : Fin 4, r.zv[n] = s.g.r.v[252 + n.val]'(by omega)) ∧
      r = { s.g.r with s := r.s, z := r.z, v := r.v, zv := r.zv }))

/-! ## Causes served, groups in their slots -/

/-- System software's answers: a served PAGE, STACK, WATCH, or LINK with a usable path replays the instruction at sys.epc, a brk goes
on at the word after it, and a cause that does not replay stays; a forward enters the handler, and in handler mode counts as a
failure; a failure makes the context Faulted with the cause and address, and its group is saved; a completed service makes the
requesters of its record try again, and a failed one gives each its failure: the group's context becomes Faulted, a ray gets
ERROR FAULT, a draw passes over its triangle, a transfer ends with PAGE, a copy fails, or is rejected with ERR 7 when it was its ring's descriptor, and a failed write of a unit's count leaves its
launch uncompleted (R96, R396, R404, R414, R417, R419, R423). Two clauses are the model's choice: a forward to an unusable handler leaves
the cause with system software (log 58), and an instruction on several records replays when the last completes (log 19). -/
def Obligations.FaultService : Prop :=
  (∀ core slot (s : State), s.groupAt core slot = some s.g → s.g.phase = .faulted →
    let t := s.g.r.trap
    let skip : Bool := t.tcause == cWATCH && natBits t.einfo.toNat 0 4 = 2
    let peer := natBits t.einfo.toNat 8 8
    let serves : Prop := t.tcause = cPAGE ∨ t.tcause = cSTACK ∨ t.tcause = cWATCH ∨
      (t.tcause = cLINK ∧ (if s.g.intr.viaHost = true then s.lk.host.usable = true else s.lk.routed peer = true))
    let pc := if skip then t.epc + 8 else t.epc
    (¬ serves → Runs (.serve core slot) s s) ∧
    (serves → ∃ u : State, Runs (.serve core slot) s u ∧ u.g.phase = .running ∧ u.g.pc = pc ∧ u.g.records = [] ∧
      (s.g.intr.hdr = true ∨ pc = s.g.intr.blkEnd → u.g.entering = true) ∧
      (s.g.intr.hdr = false → pc ≠ s.g.intr.blkEnd → u.g.entering = false ∧ u.g.blkEnd = s.g.intr.blkEnd) ∧
      u.g.watchOff = (t.tcause == cWATCH && !skip) ∧ u.g.hmode = s.g.hmode ∧ u.ms = s.ms ∧
      u.g.r = { s.g.r with pend := u.g.r.pend, trap := u.g.r.trap } ∧
      u.g.r.trap = (match s.g.hidden with | some h => h.1 | none => t))) ∧
  (∀ core slot (s : State), s.groupAt core slot = some s.g → s.g.phase = .faulted →
    (∀ s1, s.g.hmode = false → s.handlerReady = (true, s1) →
      ∃ u : State, Runs (.forward core slot) s u ∧ u.g.hmode = true ∧ u.g.pc = s.g.r.tvec.setWidth 64 ∧ u.g.entering = true ∧ u.g.epcw = false ∧
        u.g.entryDepth = s.g.r.stack.length ∧ u.g.seq = s.g.seq + 1 ∧ u.g.phase = .running ∧ u.g.r = s.g.r ∧ u.ms.mem = s1.ms.mem) ∧
    (∀ s1, s.g.hmode = false → s.handlerReady = (false, s1) → Runs (.forward core slot) s s1) ∧
    (s.ctxLive s.g.ctx = true → s.g.gid ≠ 0 → s.g.atomic = none → (∀ h ∈ s.others, h.gid ≠ s.g.gid) →
      ∀ i, (i = Instr.fail core slot) ∨ (i = .forward core slot ∧ s.g.hmode = true) →
        ∃ (u : State) (c : Ctx), Runs i s u ∧ u.ctxOf s.g.ctx = some c ∧ c.st = .faulted ∧ c.fcause = s.g.r.trap.tcause ∧
          c.faddr = s.g.r.trap.eaddr.setWidth 52 ∧ u.g.gid = s.g.gid ∧ u.g.phase = .saving ∧ u.g.savedFrom = .faulted ∧ u.g.r = s.g.r)) ∧
  (∀ core slot (s : State), (∀ g, s.groupAt core slot = some g → g = s.g ∧ g.phase ≠ .faulted) →
    ∀ i ∈ [Instr.serve core slot, .forward core slot, .fail core slot], Runs i s s) ∧
  (∀ (s : State) (id : Nat), s.dueRecord id = none → Runs (.serviceComplete id) s s ∧ Runs (.serviceFails id) s s) ∧
  (∀ (s : State) (r : FaultRec), s.dueRecord r.id = some r → (∀ w ∈ s.cx.writes, w.record ≠ 0) →
    let u := s.dropRecord r.id
    (r.reqs = [] → Runs (.serviceComplete r.id) s u ∧ Runs (.serviceFails r.id) s u) ∧
    (r.reqs = [.group s.g.gid] → s.g.phase = .faulted → r.id ∈ s.g.records →
      ((∀ k ∈ s.g.records, k = r.id) → Runs (.serviceComplete r.id) s (u.replay false)) ∧
      ((∃ k ∈ s.g.records, k ≠ r.id) → Runs (.serviceComplete r.id) s { u with g := { u.g with records := u.g.records.filter (· ≠ r.id) } }) ∧
      (s.groupOf s.g.gid = some s.g → Runs (.serviceFails r.id) s (u.failCtx r.ctx s.g.r.trap.tcause s.g.r.trap.eaddr.toNat))) ∧
    (∀ lane y, r.reqs = [.ray s.g.gid lane] → s.g.rayOf lane = some y → y.phase = .faultwait → y.record = r.id →
      Runs (.serviceComplete r.id) s { u with g := u.g.setRay lane (some { y with phase := .marching, record := 0 }) } ∧
      ∃ v : State, Runs (.serviceFails r.id) s v ∧ v.g.rayOf lane = none ∧ v.g = (u.landRay y (errRec eFAULT 0 5 (y.failedAt.toNat % 2 ^ 32))).g.setRay lane none ∧
        v.cs = (u.landRay y (errRec eFAULT 0 5 (y.failedAt.toNat % 2 ^ 32))).cs) ∧
    (∀ w, r.reqs = [.write w.id] → s.cx.writes.find? (·.id = w.id) = some w → (∀ x, w.after ≠ .xfer x) →
      let v := ({ u with cx := { u.cx with writes := u.cx.writes.filter fun x => x.id != w.id } } : State).failCtx w.ctx cPAGE w.addr
      (w.launch = none → Runs (.serviceFails r.id) s v) ∧
      (∀ d e, w.launch = some (d, e) → Runs (.serviceFails r.id) s (v.mapPool d e fun x => { x with unitsFailed := true }))) ∧
    (∀ d, r.reqs = [.draw d] → Runs (.serviceComplete r.id) s (u.mapDraw d fun d => if d.record = r.id then { d with record := 0 } else d)) ∧
    (∀ d, r.reqs = [.draw d.id] → s.cs.draws.find? (·.id = d.id) = some d → d.record = r.id → d.ctr = 0 →
      Runs (.serviceFails r.id) s (u.mapDraw d.id fun d => { d with next := d.next + 1, record := 0 })) ∧
    (∀ x, r.reqs = [.xfer x] → Runs (.serviceComplete r.id) s (u.mapXfer x fun x => { x with record := 0 })) ∧
    (∀ x, r.reqs = [.xfer x.id] → s.lk.xfers.find? (·.id = x.id) = some x → x.status = none →
      Runs (.serviceFails r.id) s ((u.straysFrom { x with record := 0 }).dropXfer x.id)) ∧
    (∀ q, r.reqs = [.packet q] → Runs (.serviceComplete r.id) s u) ∧ (∀ run, r.reqs = [.started run] → Runs (.serviceComplete r.id) s u) ∧
    (∀ run (p : PacketRun), r.reqs = [.copy run] → s.runOf run = some p → p.status = 0 → p.moved < pkNat p.body 24 8 →
      Runs (.serviceComplete r.id) s u ∧ Runs (.serviceFails r.id) s ((u.dropReqs (· = .copy run)).mapRun run fun r => { r with status := 2, cause := cPAGE })) ∧
    (∀ run (p : PacketRun), r.reqs = [.copy run] → s.runOf run = some p → (p.status ≠ 0 ∨ pkNat p.body 24 8 ≤ p.moved) → p.cancelled = false →
      Runs (.serviceFails r.id) s ((u.reject p.seq p.index 7 p.mem p.id).cancelRun p).retryFree))

/-- A group in its slot: a condition met gives a parked group the next turn; a first load gives it the arguments of its launch
in s1 to s3, every other register 0, the full mask and its kernel's entry as a header; a later load gives it what its block of the
save area holds, and takes away what its instruction waited for when software has moved the PC; a save performs its stores, ends the region, writes its block and frees the slot; a kill gives it the state of
its region's entry; a cancel ends it; a restore puts it into its slot with its tiles; a swap at join saves it. An event on a
slot whose group does not have the turn acts as if it had it, and gives the turn back (R95, R96, R195, R238, R246, R407, R410,
R411). The model's choices: the mask stack, region and token that an image gives (log 23), that the save area is physical (log 20), and who
makes up a gang (log 64). -/
def Obligations.GroupEvents : Prop :=
  (∀ core slot (s : State) (g : Group), s.groupAt core slot = some g → g.gid ≠ 0 → s.g.gid ≠ 0 → g.gid ≠ s.g.gid → s.others.find? (·.gid = g.gid) = some g →
    ∀ i ∈ [Instr.serve core slot, .forward core slot, .fail core slot, .loadComplete core slot, .saveComplete core slot, .discardComplete core slot,
        .storeDrain core slot, .yieldExpiry core slot],
      ∃ u : State, (s.focus g.gid).g = g ∧ Runs i (s.focus g.gid) u ∧ Runs i s (u.focus s.g.gid)) ∧
  (∀ core slot (s : State), (s.groupAt core slot = none → ∀ i ∈ [Instr.conditionMet core slot, .loadComplete core slot, .saveComplete core slot,
      .discardComplete core slot, .swapOutAtJoin core slot, .storeDrain core slot, .yieldExpiry core slot], Runs i s s) ∧
    ∀ g, s.groupAt core slot = some g →
      (g.phase = .parked → Runs (.conditionMet core slot) s { s with turns := .group g.gid :: s.turns }) ∧
      (g.phase ≠ .parked → Runs (.conditionMet core slot) s s)) ∧
  (∀ core slot (s : State) (e : PoolEntry), s.groupAt core slot = some s.g → s.g.phase = .loading → s.g.fresh = true → s.ownEntry = some e →
    ∃ u : State, Runs (.loadComplete core slot) s u ∧ u.g.phase = .running ∧ u.g.pc = BitVec.ofNat 64 e.kd.entry ∧ u.g.entering = true ∧ u.ms = s.ms ∧
      (∀ n : Fin 64, u.g.r.s[n] = if n = 1 then BitVec.ofNat 64 e.rc.arg else if n = 2 then e.token else if n = 3 then s.g.inherit else 0) ∧
      (∀ (n : Fin 256) (i : Fin 32), u.g.r.v[n][i] = 0) ∧ (∀ n : Fin 16, u.g.r.p[n] = 0) ∧ u.g.r.mask = 0xFFFFFFFF ∧ u.g.r.stack = [] ∧
      u.g.r.fflags = 0 ∧ u.g.r.fenable = 0 ∧ u.g.r.qflags = 0 ∧ u.g.r.tvec = 0) ∧
  (∀ core slot (s : State) (c : Ctx) k, s.groupAt core slot = some s.g → s.g.phase = .loading → s.g.fresh = false → s.ctxOf s.g.ctx = some c →
    s.g.imaged = some k → s.g.savedFrom ≠ .faulted → let a := groupBlock c s.g.core k
    ∃ u : State, Runs (.loadComplete core slot) s u ∧ u.g.imaged = none ∧ SameMemory s u ∧
      u.g.pc = BitVec.ofNat 64 (s.memNat (a + 0x100) 8) ∧
      (u.g.pc = s.g.pc → u.g.phase = s.g.savedFrom ∧ u.g.entering = s.g.entering ∧ u.g.arrived = s.g.arrived ∧ u.g.twait = s.g.twait) ∧
      (u.g.pc ≠ s.g.pc → u.g.phase = (if s.g.savedFrom = .parked then .running else s.g.savedFrom) ∧ u.g.arrived = none ∧ u.g.twait = none ∧
        u.g.joining = none ∧ u.g.fwReq = none) ∧
      (∀ n : Fin 64, u.g.r.s[n] = if n = 0 then 0 else BitVec.ofNat 64 (s.memNat (a + 0x400 + 8 * n.val) 8)) ∧
      (∀ n : Fin 8, u.g.r.z[n] = BitVec.ofNat 64 (s.memNat (a + 0x600 + 8 * n.val) 8)) ∧
      (∀ n : Fin 16, u.g.r.p[n] = if n = 0 then 0 else BitVec.ofNat 32 (s.memNat (a + 0x640 + 4 * n.val) 4)) ∧
      (∀ (n : Fin 256) (i : Fin 32), u.g.r.v[n][i] = BitVec.ofNat 32 (s.memNat (a + 0x1000 + 128 * n.val + 4 * i.val) 4)) ∧
      u.g.r.mask = BitVec.ofNat 32 (s.memNat (a + 8 * 14) 8) ∧ u.g.r.stack.length = min 32 (s.memNat (a + 8 * 15) 8 % 64) ∧
      (u.g.r.stack.length = s.g.r.stack.length → u.g.r.stack = s.g.r.stack) ∧
      let region := s.memNat (a + 8 * 16) 8
      u.g.seq = BitVec.ofNat 16 region ∧ u.g.idem.isSome = region.testBit 17 ∧ u.g.splt = region.testBit 18 ∧
      (region.testBit 16 = true → ∃ t ∈ u.ms.tokens, t.heldBy u.g = true ∧ t.seq = u.g.seq)) ∧
  (∀ core slot (s : State) (c : Ctx), s.MemoryWf → s.groupAt core slot = some s.g → s.g.gid ≠ 0 → s.g.phase = .saving → s.ctxOf s.g.ctx = some c →
    (∀ t ∈ s.cs.tiles, t.owner = s.g.gid → t.inbound = 0 ∧ t.outbound = 0) →
    (∀ t ∈ s.cs.tiles, ∀ x ∈ s.cs.tiles, t.core = x.core → t.idx = x.idx → t = x) → c.st ≠ .running → c.st ≠ .created → (∀ b ∈ s.cs.bars, b.idx < 64) → s.g.abandoned = false → s.g.relBuf = [] →
    let a := groupBlock c s.g.core s.g.slot
    c.inMemory a 0x12800 = true →
    ∃ u : State, Runs (.saveComplete core slot) s u ∧ u.g.phase = .saved ∧ u.g.imaged = some s.g.slot ∧ u.g.storeQ = [] ∧
      u.g.seq = s.g.seq ∧ u.g.r = s.g.r ∧ u.g.pc = s.g.pc ∧ u.g.entering = s.g.entering ∧
      u.memNat (a + 0x100) 8 = s.g.pc.toNat ∧ (∀ n : Fin 64, u.memNat (a + 0x400 + 8 * n.val) 8 = s.g.r.s[n].toNat) ∧
      (∀ (n : Fin 256) (i : Fin 32), u.memNat (a + 0x1000 + 128 * n.val + 4 * i.val) 4 = s.g.r.v[n][i].toNat) ∧
      u.memNat (a + 8 * 14) 8 = s.g.r.mask.toNat ∧
      (∀ t, t ∈ u.cs.tiles ↔ t ∈ s.cs.tiles ∧ t.owner ≠ s.g.gid) ∧ (∀ t ∈ s.cs.tiles, t.owner = s.g.gid → ∃ n, { t with img := n } ∈ u.cs.savedTiles)) ∧
  (∀ core slot (s : State) (r : Region), s.groupAt core slot = some s.g → s.g.gid ≠ 0 → s.g.phase = .discardingPreempt → s.g.idem = some r →
    (∀ t ∈ s.cs.tiles, t.owner = s.g.gid → t.inbound = 0 ∧ t.outbound = 0) →
    ∃ u : State, Runs (.discardComplete core slot) s u ∧ u.g.phase = .saved ∧ u.g.pc = r.header ∧ u.g.entering = true ∧ u.g.r = r.entry ∧
      u.g.relBuf = [] ∧ u.g.storeQ = [] ∧ u.g.idem = none ∧ u.g.seq = s.g.seq + 1) ∧
  (∀ core slot (s : State), s.groupAt core slot = some s.g → s.g.phase = .discardingCancel →
    ∃ u : State, Runs (.discardComplete core slot) s u ∧
      (s.g.launch = none → (∀ e ∈ s.ls.pool, e.launcher ≠ s.g.gid) → u.g = { } ∧ (s.g.bars = [] → u.others = s.others) ∧
        ((∀ c, s.ctxOf s.g.ctx = some c → c.st ≠ .destroyed) → ∀ t ∈ u.cs.tiles, t.owner = s.g.gid → t.st = .draining))) ∧
  (∀ slot (s : State), s.g.gid ≠ 0 →
    (s.awaitsRoom s.g = false ∨ s.canReturn s.g slot = false ∨ (∃ x ∈ s.gangOf s.g, x.gid ≠ s.g.gid ∧ (x.phase ≠ .saved ∨ s.returnSlot x = none)) →
      Runs (.restore s.g.gid slot) s s.readSaved) ∧
    (∃ ms, s.readSaved = { s with ms := ms } ∧ ms.mem = s.ms.mem ∧ ms.backing = s.ms.backing) ∧
    (s.gangOf s.g = [s.g] → s.awaitsRoom s.g = true → s.canReturn s.g slot = true → ∃ u : State, Runs (.restore s.g.gid slot) s u ∧
      u.g = { s.g with slot := slot, phase := .loading, atJoin := false } ∧
      u.cs.tiles = s.cs.tiles ++ s.cs.savedTiles.filter (·.owner = s.g.gid) ∧ u.cs.savedTiles = s.cs.savedTiles.filter (·.owner ≠ s.g.gid))) ∧
  (∀ core slot (s : State) (e x : PoolEntry), s.groupAt core slot = some s.g → s.ownEntry = some e → e.rc.grid = false →
    let rest := { s.holdBars with g := { s.holdBars.g with phase := .saved } }
    let u := s.unreplayable.endRegion
    (s.g.phase = .parked → s.g.joining ≠ none → s.joinOver s.g = false → x ∈ s.ls.pool → s.considered x = true → x.st = .admissible →
      (∀ k ∈ s.coresOf x, s.entryFits x k = false) → core ∈ s.coresOf x → s.g.atomic = none →
      rest.entryFits x core (fun t => decide (t.owner = s.g.gid)) = true →
      Runs (.swapOutAtJoin core slot) s { u with g := { u.g with phase := .saving, savedFrom := .parked, atJoin := true } }) ∧
    (s.g.phase ≠ .parked ∨ s.g.joining = none ∨ s.joinOver s.g = true → Runs (.swapOutAtJoin core slot) s s))

/-- Invalidation, watchpoints and soft errors: a request stands until its completion, which takes the translations of its range away
and no other and changes no byte where no store is queued and no line is stale; a watchpoint replaces the one of its number; an uncorrectable error marks the
sector, scalar or predicate register, vector lane, accumulator element or tile word it names, or drops a cached copy; a corrected one is only counted (R392, R422,
R423). -/
def Obligations.MemoryEvents : Prop :=
  (∀ (s : State) ctx lo len,
    (s.ctxOf ctx = none ∨ (ctx, lo, len) ∈ s.cx.invals → Runs (.invalidation ctx lo len) s s) ∧
    (∀ c, s.ctxOf ctx = some c → (ctx, lo, len) ∉ s.cx.invals → Runs (.invalidation ctx lo len) s { s with cx := { s.cx with invals := s.cx.invals ++ [(ctx, lo, len)] } }) ∧
    ((ctx, lo, len) ∉ s.cx.invals → Runs (.invalidationComplete ctx lo len) s s) ∧
    ((ctx, lo, len) ∈ s.cx.invals → (∀ g ∈ s.g :: s.others, g.relBuf = [] ∧ g.storeQ = [] ∧ g.atomic = none) → s.ms.stale = [] →
      (∀ c ∈ s.cs.copies, c.ctx ≠ ctx) → (∀ m ∈ s.cs.merges, m.ctx ≠ ctx) →
      ∃ u : State, Runs (.invalidationComplete ctx lo len) s u ∧ (ctx, lo, len) ∉ u.cx.invals ∧ SameMemory s u ∧
        ∀ t, t ∈ u.ms.tlb ↔ t ∈ s.ms.tlb ∧ (t.ctx ≠ ctx ∨ lo + len ≤ t.base ∨ t.base + t.size ≤ lo))) ∧
  (∀ (s : State) ctx (w : WatchArg),
    (s.ctxOf ctx = none ∨ 4 ≤ w.n → Runs (.watchpointSet ctx w) s s) ∧
    (∀ c, s.ctxOf ctx = some c → w.n < 4 → ∃ l, Runs (.watchpointSet ctx w) s { s with cx := { s.cx with watch := l } } ∧
      ∀ x, x ∈ l ↔ x = { ctx := ctx, w := w } ∨ (x ∈ s.cx.watch ∧ ¬ (x.ctx = ctx ∧ x.w.n = w.n)))) ∧
  (∀ (s : State) k, k < 2 ^ 53 →
    (∃ u : State, Runs (.uncorrectableError (.sliceSector k)) s u ∧ SameMemory s u ∧ u.g = s.g ∧ ∀ x, x ∈ u.ms.poison ↔ x = k / 32 ∨ x ∈ s.ms.poison) ∧
    (∃ u : State, Runs (.uncorrectableError (.memSector k)) s u ∧ SameMemory s u ∧ u.g = s.g ∧ (∀ x, x ∈ u.ms.poisonBack ↔ x = k / 32 ∨ x ∈ s.ms.poisonBack) ∧
      ∀ x, x ∈ u.ms.poison ↔ (x = k / 32 ∧ x ∉ s.ms.dirty ∧ x ∉ s.ms.stale) ∨ x ∈ s.ms.poison)) ∧
  (∀ core slot (s : State) n lane row col, s.groupAt core slot = some s.g →
    ∀ p ∈ [(ErrPlace.scalar core slot n, Item.s n, 1 ≤ n ∧ n < 64), (.vector core slot n lane, .v n lane, n < 256 ∧ lane < 32),
        (.acc core slot n row col, .acc n row col, n < 4 ∧ row < 32 ∧ col < 16), (.pred core slot n, .p n, 1 ≤ n ∧ n < 16),
        (.trapScalar core slot n, .z n, n < 8), (.trapVector core slot n lane, .zv n lane, n < 4 ∧ lane < 32)],
      (p.2.2 → ∃ l, Runs (.uncorrectableError p.1) s { s with g := { s.g with r := { s.g.r with poison := l } } } ∧
        ∀ x, x ∈ l ↔ x = p.2.1 ∨ x ∈ s.g.r.poison) ∧
      (¬ p.2.2 → Runs (.uncorrectableError p.1) s s)) ∧
  (∀ core idx word (s : State) (t : Tile), s.tileAt core idx = some t → t.isGlobal = false → word < t.nWords →
    ∃ (u : State) (l : List Nat), Runs (.uncorrectableError (.scratch core idx word)) s u ∧ u.g = s.g ∧ u.ms = s.ms ∧
      u.tileAt core idx = some { t with poison := l } ∧ ∀ x, x ∈ l ↔ x = word ∨ x ∈ t.poison) ∧
  (∀ core line (s : State),
    Runs (.uncorrectableError (.firstLevel core line)) s { s with ms := { s.ms with l1 := s.ms.l1.filter (· ≠ (core, line)) } } ∧
    Runs (.uncorrectableError (.brickCache core line)) s { s with ms := { s.ms with brick := s.ms.brick.filter (· ≠ (core, line)) } }) ∧
  (∀ p (s : State), Runs (.correctableSoftError p) s { s with mg := { s.mg with corrected := s.mg.corrected + 1 } })

/-! ## Scheduling -/

/-- Scheduling: a policy write, once the command core's firmware runs, replaces the entry and makes a Bound context Runnable; a record past its AGE is raised; an admission
binds the cores of its placement, gives each a group-to-be with the record's needs, and makes the record Running; a record that no
core takes stays; a landing moves its request on, when the order of its queue lets it; a promotion makes demand requests of what its queue
has held as long; a group dispatched before its fills are staged has them go on as copies; a staged group is dispatched into Loading, and at
the deadline an unstaged one is, what was not sent cut; a starved slot issues next; hot flags and the clocks follow their sensors (R16, R237, R286, R291 to R294,
R296, R298 to R300, R303, R449). The model's choices: the slot (logs 32, 93), what it takes to be live (log 21), a quarantined
context's policy (log 61), a gang (log 64), one queue for the device (log 83) and the pick of a spanning record (log 112). -/
def Obligations.Scheduling : Prop :=
  (∀ (s : State) ctx (p : Policy), (1024 ≤ ctx ∨ s.mg.boot ≠ 1 → Runs (.policyWrite ctx p) s s) ∧
    (ctx < 1024 → s.mg.boot = 1 → ∃ u : State, Runs (.policyWrite ctx p) s u ∧ u.g = s.g ∧ u.ls.policy = sparseSet { } ctx p s.ls.policy ∧
      (s.ctxOf ctx = none → u.ctxOf ctx = none) ∧
      ∀ c, s.ctxOf ctx = some c → u.ctxOf ctx = some (if p.valid = true ∧ c.st = .bound ∧ s.quarantined ctx = false then { c with st := .runnable } else c))) ∧
  (∀ (s : State) die entry (e : PoolEntry), s.poolAt die entry = some e →
    (e.st = .admissible → (s.policyOf e.ctx).age ≠ 0 → Runs (.ageLimit die entry) s (s.mapPool die entry fun e => { e with raised := true })) ∧
    (e.st ≠ .admissible ∨ (s.policyOf e.ctx).age = 0 → Runs (.ageLimit die entry) s s)) ∧
  (∀ (s : State) die entry (e : PoolEntry), s.poolAt die entry = some e → e.isTwin = false → e.st = .admissible →
    let s1 := (s.reread e).readSaved
    let e1 := (s1.poolAt e.die e.entry).getD e
    (s1.placement e1 die = [] ∨ s1.firstInOrder e1 die = false ∨ s1.alarmStops e1.ctx = true → Runs (.admission die entry) s s1) ∧
    (∀ k r, s1.placement e1 die = k :: r → s1.firstInOrder e1 die = true → s1.alarmStops e1.ctx = false →
      Runs (.admission die entry) s (r.foldl (fun s k => s.bindCore false e1.die e1.entry k)
        ((s1.mapPool e1.die e1.entry fun e => { e with st := .running, cls := s1.classOf e1 }).bindCore true e1.die e1.entry k)))) ∧
  (∀ (s : State) die entry (e : PoolEntry), s.poolAt die entry = some e → e.isTwin = false → e.st = .running →
    let s1 := s.readSaved
    (s.bindingOver e = true → Runs (.admission die entry) s (s.launchEnds die entry)) ∧
    (s.bindingOver e = false → s1.placement e die = [] ∨ s1.firstInOrder e die = false ∨ s1.alarmStops e.ctx = true → Runs (.admission die entry) s s1) ∧
    (∀ k r, s.bindingOver e = false → s1.placement e die = k :: r → s1.firstInOrder e die = true → s1.alarmStops e.ctx = false →
      Runs (.admission die entry) s (r.foldl (fun s k => s.bindCore false die entry k) (s1.bindCore false die entry k)))) ∧
  (∀ (s : State) (e : PoolEntry) (first : Bool) core, s.poolAt e.die e.entry = some e → e.ws = [] → e.inherit = none →
    ∃ g : Group, s.bindCore first e.die e.entry core =
        State.fitL1 (({ s with others := insertGroup g s.others, nextGid := s.nextGid + 1 } : State).mapPool e.die e.entry fun e =>
          { e with bound := e.bound + 1, holes := e.holes.drop 1, cores := core :: e.cores, unstaged := false }) core ∧
      g.gid = s.nextGid ∧ g.lgen = e.gen ∧ g.slots = e.kd.slots ∧ g.core = core ∧ g.ctx = e.ctx ∧ g.phase = .bound ∧ g.fresh = true ∧ g.launch = some (e.die, e.entry) ∧
      g.ordinal = e.holes.headD e.bound ∧ g.resA = e.kd.qa.2 ∧ g.resB = e.kd.qb.2 ∧ g.granules = e.kd.scrg ∧ g.handles = e.kd.handles ∧ g.mem = e.mem ∧
      (s.entryFits e core = true → ∃ k < 8, s.groupAt core k = none ∧ s.slotHeld g k = false) ∧
      ∀ k, k < 8 → s.groupAt core k = none → s.slotHeld g k = false → (∀ j < k, s.groupAt core j ≠ none ∨ s.slotHeld g j = true) → g.slot = k) ∧
  (∀ (s : State) (q : StageReq), s.ls.staging.find? (·.id = q.id) = some q →
    (s.mayLand q = false → (q.level = 2 → ∀ c, s.cs.copies.find? (·.id = q.copy) = some c → 0 < s.copyLeft c) → Runs (.stagingLanding q.id) s s) ∧
    (s.mayLand q = true → q.level = 1 → ∃ u : State, Runs (.stagingLanding q.id) s u ∧ u.g = s.g ∧
      u.ls.staging = if q.bytes = 0 ∨ (q.va % 128 + q.bytes + 127) / 128 ≤ q.pos + 1 then s.ls.staging.filter (·.id ≠ q.id)
        else s.ls.staging.map fun x => if x.id = q.id then { x with pos := x.pos + 1 } else x) ∧
    (∀ c, q.level = 2 → s.cs.copies.find? (·.id = q.copy) = some c →
      (s.copyLeft c = 0 → Runs (.stagingLanding q.id) s (s.endCopy c)) ∧
      (0 < s.copyLeft c → s.mayLand q = true → Runs (.stagingLanding q.id) s (s.landWord c))) ∧
    (s.inFlight q = false ∨ q.asCopy = true → Runs (.stagingPromotion q.id) s s) ∧
    (s.inFlight q = true → q.asCopy = false → Runs (.stagingPromotion q.id) s { s with ls := { s.ls with staging := s.ls.staging.map fun x =>
      if x.asCopy = true then x else { x with promoted := max x.promoted (x.sentBy (q.placeOf (s.landed q))) } } })) ∧
  (∀ core slot (s : State) (e : PoolEntry), s.groupAt core slot = some s.g → s.g.phase = .bound → s.ownEntry = some e →
    let p := s.policyOf s.g.ctx
    let loads (i : Instr) (v : State) : Prop := ∃ u : State, Runs i s u ∧ u.ls.staging = v.ls.staging ∧
      u.g = { v.g with phase := .loading, unit := if e.rc.isTask then some 0 else none, unitNo := if e.rc.isTask then 1 else 0 } ∧
      ∀ c, v.ctxOf s.g.ctx = some c → c.live = true → ∃ c', u.ctxOf s.g.ctx = some c' ∧ c'.st = .running
    (s.isStaged s.g = true → s.ctxLive s.g.ctx = true → loads (.dispatch core slot) s) ∧
    (s.isStaged s.g = false ∨ s.ctxLive s.g.ctx = false → Runs (.dispatch core slot) s s) ∧
    (p.sdl ≠ 0 → s.ctxLive s.g.ctx = true → let v := s.cutRequests s.g
      ∀ e', v.g.gid = s.g.gid → v.entryOf s.g = some e' → e'.rc = e.rc → loads (.stagingDeadline core slot) v) ∧
    (p.sdl = 0 ∨ s.ctxLive s.g.ctx = false → Runs (.stagingDeadline core slot) s s)) ∧
  (∀ core slot (s : State) (g : Group), s.groupAt core slot = some g →
    (g.phase = .running → Runs (.issueStarvation core slot) s { s with turns := .group g.gid :: s.turns }) ∧
    (g.phase ≠ .running → Runs (.issueStarvation core slot) s s) ∧
    (g.phase ≠ .bound → Runs (.dispatch core slot) s s ∧ Runs (.stagingDeadline core slot) s s)) ∧
  (∀ core (s : State),
    (core < 256 → ∃ l, Runs (.hotFlagSet core) s { s with cs := { s.cs with hotNow := l } } ∧ ∀ k, k ∈ l ↔ k = core ∨ k ∈ s.cs.hotNow) ∧
    Runs (.hotFlagClear core) s { s with cs := { s.cs with hotNow := s.cs.hotNow.filter (· ≠ core) } } ∧
    ∃ l, Runs .sensorSample s { s with cs := { s.cs with hot := s.cs.hotNow, clocks := l } } ∧
      ∀ k < 256, sparseGet 2100 l k = if k ∈ s.cs.hotNow then 1050 else s.cs.clockMHz) ∧
  (∀ mw (s : State), let sets (n : Nat) : Prop := Runs (.powerCapStep mw) s { s with cs := { s.cs with clockMHz := n } }
    (1100000 < mw → sets (max 1050 (s.cs.clockMHz - 100))) ∧ (mw < 1050000 → sets (min 2100 (s.cs.clockMHz + 100))) ∧
    (1050000 ≤ mw → mw ≤ 1100000 → Runs (.powerCapStep mw) s s))

/-! ## Contexts and partitions -/

/-- Partitions and contexts: a bind of free sectors makes a partition; an unbind waits for its contexts, ends its open encode jobs with
STATUS 3 where their ring has room, clears its slices and cores and, with erase, its memory; a valid record makes a Created context, and a bind to
its partition a Bound one; a pre-emption makes a Runnable context Saved and a Running one Pre-empting, and its groups save or are
killed; the switch completes once none is resident, its barrier entries with members spilled; a resume makes a Saved or Faulted context
Runnable, and is kept by a Pre-empting one, none in a quarantined partition, which takes no context either (log 61); a destroy frees
everything of the context but its groups, which are discarded, and the context is Free once they and its tiles are gone; then writes of
others that wait for a fault record try again. An invalidation stands until its completion, which comes once no release buffer, started
atomic or copy of the context uses a translation; a watchpoint is set (R392, R402 to R405, R410, R423, R447, R451). That a job
whose ring is full or lies outside the partition ends without a record is the model's choice (log 62). -/
def Obligations.Contexts : Prop :=
  (∀ (s : State) n lo len (c : Ctx), s.ctxOf n = some c →
    ((n, lo, len) ∉ s.cx.invals → ∃ u : State, Runs (.invalidation n lo len) s u ∧ (n, lo, len) ∈ u.cx.invals ∧ u.ms = s.ms ∧ u.g = s.g) ∧
    ((n, lo, len) ∈ s.cx.invals → (∀ g ∈ s.groups, g.ctx = n → g.relBuf = [] ∧ g.atomic = none) → (∀ x ∈ s.cs.copies, x.ctx ≠ n) →
      ∃ u : State, Runs (.invalidationComplete n lo len) s u ∧ (n, lo, len) ∉ u.cx.invals) ∧
    (∀ w : WatchArg, w.n < 4 → ∃ u : State, Runs (.watchpointSet n w) s u ∧ { ctx := n, w := w } ∈ u.cx.watch ∧ u.ms = s.ms ∧ u.g = s.g)) ∧
  (∀ (s : State) (b : BindArg), let ok : Prop := b.psize ≤ 3 ∧ b.fsect % 2 ^ b.psize = 0 ∧ b.fsect + 2 ^ b.psize ≤ 8 ∧
      (∀ q ∈ s.cx.parts, ∀ x < 8, ¬ ((b.fsect ≤ x ∧ x < b.fsect + 2 ^ b.psize) ∧ (q.fsect ≤ x ∧ x < q.fsect + 2 ^ q.psize))) ∧
      (∀ o ∈ b.outs, o < 4 ∧ ∀ q ∈ s.cx.parts, o ∉ q.outs)
    (s.mg.boot = 1 → ok → Runs (.bind b) s { s with
      cx := { s.cx with parts := s.cx.parts ++ [{ fsect := b.fsect, psize := b.psize, bindNo := s.ls.bindSeq + 1, outs := b.outs }] }
      ls := { s.ls with
        binds := s.ls.binds.set b.fsect { bound := true, fsect := b.fsect, psize := b.psize, erase := b.erase, seqNo := s.ls.bindSeq + 1 }
        bindSeq := s.ls.bindSeq + 1 } }) ∧
    (¬ (s.mg.boot = 1 ∧ ok) → Runs (.bind b) s s)) ∧
  (∀ (s : State) fsect erase, (s.partOf fsect = none → Runs (.unbind fsect erase) s s) ∧
    ∀ p, s.partOf fsect = some p →
      (s.ctxsOf p ≠ [] → Runs (.unbind fsect erase) s s) ∧
      (s.MemoryWf → s.ctxsOf p = [] → ∃ u : State, Runs (.unbind fsect erase) s u ∧ u.g = s.g ∧ u.partOf fsect = none ∧
        (∀ t ∈ u.cs.tiles, p.hasCore t.core = false) ∧ (∀ b ∈ u.cs.bars, p.hasCore b.core = false) ∧ (∀ j ∈ u.mg.jobs, p.hasSector j.sector = false) ∧
        (∀ k : Fin 8, u.mg.heads[k] = if p.hasSector k.val = true then { } else s.mg.heads[k]) ∧
        (∀ k, p.holds k = false → (∀ x ∈ s.ms.stale, s.inSlices p (x / 4) = true → x ≠ k / 32) → memGet u.ms.mem k = memGet s.ms.mem k) ∧
        (∀ x, s.inSlices p (x / 4) = true → x ∉ u.ms.dirty ∧ x ∉ u.ms.stale ∧ x / 4 ∉ u.ms.first ∧ (x ∈ u.ms.poison → x ∈ u.ms.poisonBack)) ∧
        (erase = true → ∀ k, p.holds k = true → memGet u.ms.mem k = 0 ∧ memGet u.ms.backing k = 0) ∧
        (erase = false → (∀ x ∈ s.ms.stale, s.inSlices p (x / 4) = false) → (∀ j ∈ s.mg.jobs, p.hasSector j.sector = false) → SameMemory s u) ∧
        (∀ j d, erase = false → s.ms.stale = [] → s.mg.jobs.filter (fun j => p.hasSector j.sector) = [j] → j.ring s p = some (d, true) →
          let w := natBits d 64 64
          let a := natBits d 0 52 / 32 * 32 + 32 * (w % 2 ^ natBits d 52 4)
          u.memNat (j.cring + 8) 8 = (w + 1) % 2 ^ 64 ∧
          (p.holds a = true → a + 32 ≤ j.cring + 8 ∨ j.cring + 16 ≤ a →
            u.memNat a 4 = 3 ∧ u.memNat (a + 4) 4 = 0 ∧ u.memNat (a + 8) 8 = 0 ∧ u.memNat (a + 24) 8 = j.tag.toNat)))) ∧
  (∀ (s : State) ctx, let r := s.memNat (s.ctxRec ctx) 128
    let ok : Prop := s.mg.boot = 1 ∧ ctx < 1024 ∧ s.ctxOf ctx = none ∧ ctxRecordOk r = true
    (ok → ∃ u : State, Runs (.create ctx) s u ∧ u.g = s.g ∧ u.ctxOf ctx = some (ctxOfRecord ctx r .created) ∧
      u.ls.policy = sparseSet { } ctx { } s.ls.policy ∧ (s.MemoryWf → SameMemoryOutside (s.ctxRec ctx) 128 s u)) ∧
    (s.mg.boot ≠ 1 ∨ 1024 ≤ ctx ∨ s.ctxOf ctx ≠ none → Runs (.create ctx) s s) ∧
    (s.mg.boot = 1 → ctx < 1024 → s.ctxOf ctx = none → ctxRecordOk r = false → Runs (.create ctx) s (s.seen (s.ctxRec ctx) 128)) ∧
    (∃ ms, s.seen (s.ctxRec ctx) 128 = { s with ms := ms } ∧ ms.mem = s.ms.mem ∧ ms.backing = s.ms.backing) ∧
    (∀ c, s.ctxOf ctx = some c → let d := ctxOfRecord ctx r .bound
      (∀ p, c.st = .created → s.partOf d.fsect = some p → p.psize = d.psize → p.quarantined = false →
        ∃ u : State, Runs (.contextBind ctx) s u ∧ u.g = s.g ∧ u.ctxOf ctx = some d) ∧
      (c.st = .created → (∀ p, s.partOf d.fsect = some p → p.psize ≠ d.psize ∨ p.quarantined = true) →
        Runs (.contextBind ctx) s (s.seen (s.ctxRec ctx) 128)) ∧
      (c.st ≠ .created → Runs (.contextBind ctx) s s))) ∧
  (∀ (s : State) n (c : Ctx), s.ctxOf n = some c →
    (c.st = .runnable → ∃ u : State, Runs (.preEmpt n) s u ∧ u.ctxOf n = some { c with st := .saved }) ∧
    (c.st = .running → ∃ u : State, Runs (.preEmpt n) s u ∧ u.ctxOf n = some { c with st := .preempting } ∧
      (s.g.gid ≠ 0 → s.g.ctx = n → s.g.phase ∈ [Phase.running, .parked, .faulted] → (∀ h ∈ s.others, h.gid ≠ s.g.gid) → s.g.arrived = none → s.g.awaits = none →
        u.g = if s.g.atomic ≠ none then { s.g with owes := some (s.g.owes.getD .save) }
          else if s.g.killable = true then { s.g with phase := .discardingPreempt, relBuf := [] }
          else { s.g.unreplayable with seq := s.g.unreplayable.seq + 1, phase := .saving, savedFrom := s.g.phase })) ∧
    (c.st ≠ .runnable → c.st ≠ .running → Runs (.preEmpt n) s s) ∧
    (c.st = .preempting → s.hasResident n = false → ∃ u : State, Runs (.switchComplete n) s u ∧
      (s.g.arrived = none → s.g.awaits = none → u.g = s.g) ∧ (∀ b ∈ u.cs.bars, b.ctx = n → b.memb ≠ 0 → b.st ≠ .live) ∧
      u.ctxOf n = some (if c.resumeDue = true ∧ s.quarantined n = false then { c with st := .runnable, resumeDue := false } else { c with st := .saved }) ∧
      (s.MemoryWf → c.resumeDue = false → (∀ b ∈ s.cs.bars, b.ctx = n → b.st ≠ .live) → u.memNat (s.ctxRec n + 80) 8 = (s.memNat (s.ctxRec n + 80) 8 + 1) % 2 ^ 64)) ∧
    (c.st ≠ .preempting ∨ s.hasResident n = true → Runs (.switchComplete n) s s) ∧
    (s.quarantined n = false → (c.st = .saved ∨ c.st = .faulted → ∃ u : State, Runs (.resume n) s u ∧ u.g = s.g ∧ u.ctxOf n = some { c with st := .runnable } ∧
        ∀ q x, s.queueAt n q = some x → x.st = 3 → x.bell = none → u.queueAt n q = some { x with st := 1 }) ∧
      (c.st = .preempting → ∃ u : State, Runs (.resume n) s u ∧ u.g = s.g ∧ u.ctxOf n = some { c with resumeDue := true })) ∧
    ((c.st ≠ .saved ∧ c.st ≠ .faulted ∧ c.st ≠ .preempting) ∨ s.quarantined n = true → Runs (.resume n) s s) ∧
    (c.st = .destroyed → Runs (.destroy n) s s) ∧
    (c.st ≠ .destroyed → ∃ u : State, Runs (.destroy n) s u.retryFree ∧ (∀ w ∈ u.cx.writes, w.ctx ≠ n) ∧
      ((∀ w ∈ u.cx.writes, w.record ≠ 0) → u.retryFree = u) ∧ (∃ c', u.ctxOf n = some c' ∧ c'.st = .destroyed) ∧ (∀ e ∈ u.ls.pool, e.ctx ≠ n) ∧
      (∀ q, u.queueAt n q = none) ∧ (∀ r ∈ u.qs.runs, r.seq.ctx ≠ n) ∧ (∀ b ∈ u.cs.bars, b.ctx ≠ n) ∧ (∀ x ∈ u.lk.xfers, x.ctx ≠ n) ∧
      (∀ r ∈ u.cx.recs, r.ctx ≠ n) ∧ (∀ t ∈ u.ms.tlb, t.ctx ≠ n) ∧
      (s.g.gid ≠ 0 → s.g.ctx = n → s.g.phase = .running → s.g.atomic = none → (∀ h ∈ s.others, h.gid ≠ s.g.gid) → u.g.phase = .discardingCancel)) ∧
    (c.st = .destroyed → (∀ g ∈ s.groups, g.ctx ≠ n) → (∀ t ∈ s.cs.tiles, t.ctx ≠ n) → ∃ u : State, Runs (.teardownComplete n) s u ∧ u.ctxOf n = none ∧ u.g = s.g) ∧
    (c.st ≠ .destroyed ∨ (∃ g ∈ s.groups, g.ctx = n) ∨ (∃ t ∈ s.cs.tiles, t.ctx = n) → Runs (.teardownComplete n) s s)) ∧
  (∀ (s : State) n, s.ctxOf n = none → ∀ i ∈ [Instr.contextBind n, .preEmpt n, .switchComplete n, .resume n, .destroy n, .teardownComplete n], Runs i s s)

/-! ## The link -/

/-- lput and lget: a misaligned local start, remote start, length or status address raises ALIGN, in that order, with that address, or for
the length with the local start (the model's choice, log 47); a range that leaves the
address space raises PROT code 2; otherwise the transfer starts and the group goes on, in a new region. A unit of at most 128 bytes is
moved at a time, in ascending order, once no promoted staging request stands before it (log 83); the last one, a failure or a timeout ends the transfer, and the unit that failed and those in
flight behind it may still move, which changes nothing but memory and what walks cache: its status word, where it has one, gets 1 or 2,
the cause and the bytes moved without a gap (R437 to R440). -/
def Obligations.LinkTransfers : Prop :=
  (∀ (f : FT) (s : State) (put : Bool), let i := if put then Instr.lput f else .lget f
    let loc := s.g.sget (snum f.d)
    let rem := s.g.sget f.i
    let len := s.g.sget f.b
    let stat : Option Nat := if f.h = 0 then none else some (s.g.sget f.h).toNat
    let aligned : Prop := loc.toNat % 16 = 0 ∧ rem.toNat % 16 = 0 ∧ len.toNat % 16 = 0 ∧ ∀ a, stat = some a → a % 8 = 0
    s.Clean [s.g.sitem (snum f.d), s.g.sitem f.i, s.g.sitem f.b, s.g.sitem f.h] →
    (loc.toNat % 16 ≠ 0 → Runs i s (takeTrap { cause := cALIGN, eaddr := loc } s)) ∧
    (loc.toNat % 16 = 0 → rem.toNat % 16 ≠ 0 → Runs i s (takeTrap { cause := cALIGN, eaddr := rem } s)) ∧
    (loc.toNat % 16 = 0 → rem.toNat % 16 = 0 → len.toNat % 16 ≠ 0 → Runs i s (takeTrap { cause := cALIGN, eaddr := loc } s)) ∧
    (∀ a, loc.toNat % 16 = 0 → rem.toNat % 16 = 0 → len.toNat % 16 = 0 → stat = some a → a % 8 ≠ 0 →
      Runs i s (takeTrap { cause := cALIGN, eaddr := BitVec.ofNat 64 a } s)) ∧
    (∀ t s1, aligned → xferChecks s put loc.toNat rem.toNat len.toNat stat = (s1, some t) → Runs i s (takeTrap t s1)) ∧
    (aligned → 0 < len.toNat → 2 ^ 52 < loc.toNat + len.toNat ∨ 2 ^ 52 < rem.toNat + len.toNat →
      ∃ t, xferChecks s put loc.toNat rem.toNat len.toNat stat = (s.readWindow s.g.ctx, some t) ∧ t.cause = cPROT ∧ t.einfo.toNat % 64 = 2) ∧
    (∀ s1, aligned → xferChecks s put loc.toNat rem.toNat len.toNat stat = (s1, none) →
      ∃ (u : State) (x : Xfer), Runs i s u.retire ∧ u.g.r = s.g.r ∧ u.g.seq = s.g.seq + 1 ∧ u.ms.mem = s1.ms.mem ∧ u.others = s.others ∧
        u.lk = { s.lk with xfers := s.lk.xfers ++ [x] } ∧ x.gid = s.g.gid ∧ x.ctx = s.g.ctx ∧ x.core = s.g.core ∧ x.put = put ∧
        x.loc = loc.toNat ∧ x.rem = rem.toNat ∧ x.len = len.toNat ∧ x.status = stat ∧ x.pos = 0 ∧ x.ended = false ∧ x.record = 0)) ∧
  (∀ (s : State) (x : Xfer), s.lk.xfers.find? (·.id = x.id) = some x → s.demandMayLand x.id = false → Runs (.linkUnitComplete x.id) s s) ∧
  (∀ (s : State) (x : Xfer), s.lk.xfers.find? (·.id = x.id) = some x → x.ended = false → x.record = 0 → s.demandMayLand x.id = true →
    let n := min 128 (x.len - x.pos)
    let read := (engineRead x.core x.ctx { AccSpec.eread .l 1 with pod := some !x.put } ((if x.put then x.loc else x.rem) + x.pos) n).at s
    (x.len ≤ x.pos → Runs (.linkUnitComplete x.id) s (s.endXfer x 0) ∧ Runs (.linkTimeout x.id) s s) ∧
    (x.pos < x.len → Runs (.linkTimeout x.id) s (s.failXfer x cLINK)) ∧
    (∀ b s1 s2, x.pos < x.len → read = (.ok b, s1) →
      (engineStore x.core x.ctx { AccSpec.ewrite .l 1 with pod := some x.put } ((if x.put then x.rem else x.loc) + x.pos) b).at s1 = (.ok (), s2) →
      let y := { x with pos := x.pos + n }
      let u := s2.mapXfer x.id fun _ => y
      Runs (.linkUnitComplete x.id) s (if x.len ≤ y.pos then u.endXfer y 0 else u)) ∧
    (∀ t s1, x.pos < x.len → read = (.error t, s1) → t.cause ≠ cPAGE → Runs (.linkUnitComplete x.id) s (s1.failXfer x t.cause))) ∧
  (∀ (s : State) id, s.lk.xfers.find? (·.id = id) = none → Runs (.linkUnitComplete id) s s ∧ Runs (.linkTimeout id) s s) ∧
  (∀ (s : State) (x : Xfer) cause, (x.status = none → s.endXfer x cause = s.dropXfer x.id) ∧ (x.len ≤ x.pos → s.failXfer x cause = s.endXfer x cause) ∧
    s.failXfer x cause = (s.straysFrom x).endXfer x cause ∧ (∃ ms ch n, s.straysFrom x = { s with ms := ms, choices := ch, fresh := n }) ∧
    (∀ s1 h a, x.status = some a → checkAccess s (256 + coreDie x.core) x.ctx (.ewrite .v 8) true [(0, (a : Int))] = .ok s1 [h] →
      s.endXfer x cause = (s1.memPut h.2.2.key 8 ((if cause = 0 then 1 else 2) + 256 * cause.toNat + 65536 * (x.pos % 2 ^ 40))).dropXfer x.id))

/-- The fabric and the host link: once the device has booted, a port trains, comes up whole, narrowed or faulty after its third failure, retrains after a lane
failure or the retry limit, and goes down; once the command core's firmware runs, a routing write sets the pod number and one entry
and an access-table write replaces one; the host link follows its table; while the device is awake, an inbound access to no bound partition changes nothing, an
allowed one reads, writes or is one lane of any atomic of R182, and a refused one raises an alarm, but for a fabric write that only a
checkpoint in progress refuses, which changes nothing (the model's choice, log 35); one to the management window is a write of the page,
whose master needs the right for every bound partition (the model's choice, log 100). lput and lget of aligned ranges that pass the checks start a
transfer; one without a status word ends with its last unit, and with a response that does not come (R16, R432 to R434, R436 to R440,
R450). -/
def Obligations.LinkEvents : Prop :=
  (∀ (f : FT) (s s1 : State), let loc := (s.g.sget (snum f.d)).toNat
    let rem := (s.g.sget f.i).toNat
    let len := (s.g.sget f.b).toNat
    let stat : Option Nat := if f.h = 0 then none else some (s.g.sget f.h).toNat
    s.Clean [s.g.sitem (snum f.d), s.g.sitem f.i, s.g.sitem f.b, s.g.sitem f.h] → loc % 16 = 0 → rem % 16 = 0 → len % 16 = 0 →
    (∀ a, stat = some a → a % 8 = 0) →
    ∀ p ∈ [(true, Instr.lput f), (false, .lget f)], xferChecks s p.1 loc rem len stat = (s1, none) →
      ∃ (u : State) (x : Xfer), Runs p.2 s u ∧ u.lk.xfers = s.lk.xfers ++ [x] ∧ x.put = p.1 ∧ x.loc = loc ∧ x.rem = rem ∧ x.len = len ∧
        u.g.r = s.g.r ∧ u.ms.mem = s1.ms.mem) ∧
  (∀ (s : State) (x : Xfer), s.lk.xfers.find? (·.id = x.id) = some x → x.ended = false → x.record = 0 → x.status = none →
    (x.len ≤ x.pos → s.demandMayLand x.id = true → Runs (.linkUnitComplete x.id) s (s.dropXfer x.id)) ∧
    (x.pos < x.len → Runs (.linkTimeout x.id) s ((s.straysFrom x).dropXfer x.id))) ∧
  (∀ (s : State) (p : Fin 36), let x := s.lk.ports[p]
    let goes (i : Instr) (y : PortState) : Prop := Runs i s { s with lk := { s.lk with ports := s.lk.ports.set p.val y p.isLt } }
    (s.mg.boot = 1 → x = .down → goes (.portEnable p.val) (.training 0)) ∧ (s.mg.boot ≠ 1 ∨ x ≠ .down → Runs (.portEnable p.val) s s) ∧
    goes (.portDisable p.val) .down ∧ Runs (.flitRetry p.val) s s ∧
    (∀ lanes, s.mg.boot ≠ 1 → Runs (.trainingAttemptEnd p.val lanes) s s) ∧
    (∀ n lanes, s.mg.boot = 1 → x = .training n → goes (.trainingAttemptEnd p.val lanes) (if lanes = 15 then .up else if lanes &&& 3 = 3 then .narrowed true
      else if lanes &&& 12 = 12 then .narrowed false else if 2 ≤ n then .fault else .training (n + 1))) ∧
    (∀ lane, lane < 4 → x = .up ∨ x = .narrowed true ∨ x = .narrowed false →
      goes (.laneFailure p.val lane) (.training 0) ∧ goes (.crcRetryLimit p.val) (.training 0)) ∧
    (∀ lane lanes, x = .down ∨ x = .fault → Runs (.trainingAttemptEnd p.val lanes) s s ∧ Runs (.laneFailure p.val lane) s s ∧ Runs (.crcRetryLimit p.val) s s)) ∧
  (∀ (s : State) pod peer ports, (s.mg.boot ≠ 1 → Runs (.routingTableWrite pod peer ports) s s) ∧ (s.mg.boot = 1 → pod < 256 → peer < 256 →
    Runs (.routingTableWrite pod peer ports) s { s with lk := { s.lk with pod := pod, routes := sparseSet 0 peer ports s.lk.routes } })) ∧
  (∀ (s : State) (r : HostTraining), let goes (y : HostState) : Prop := Runs (.hostLinkTraining r) s { s with lk := { s.lk with host := y } }
    (r = .start → s.lk.host = .down → goes (.training 0)) ∧
    (∀ n, s.lk.host = .training n → (r = .failed → goes (if 2 ≤ n then .fault else .training (n + 1))) ∧
      (r = .trained 128 16 → goes .up) ∧
      (∀ rate width, r = .trained rate width → rate ∈ [128, 64, 32] → width ∈ [16, 8, 4] → ¬ (rate = 128 ∧ width = 16) → goes (.degraded rate width))) ∧
    (r = .lost → (s.lk.host = .up ∨ ∃ rate width, s.lk.host = .degraded rate width) → goes (.training 0)) ∧
    (r = .disable → goes .down)) ∧
  (∀ (s : State) (e : AccessEntry), s.mg.boot ≠ 1 → Runs (.accessTableWrite e) s s) ∧
  (∀ (s : State) (e : AccessEntry), s.mg.boot = 1 → e.fsect < 8 → (∀ n, e.target = .port n → n < 36) → (∀ n, e.master = .host n → n < 16) → (∀ n, e.master = .peer n → n < 256) →
    ∃ l, Runs (.accessTableWrite e) s { s with lk := { s.lk with access := l } } ∧
      ∀ x, x ∈ l ↔ x = e ∨ (x ∈ s.lk.access ∧ ¬ (x.target = e.target ∧ x.master = e.master ∧ x.fsect = e.fsect))) ∧
  (∀ (s : State) (a : InboundArg), s.mg.pstate = 0 → a.target ≠ .mgmt → let i := Instr.inboundAccess a
    (s.partAt a.addr = none ∨ s.carries a.target = false ∨ inboundOk a.addr a.op = false → Runs i s s) ∧
    (∀ p, s.partAt a.addr = some p → s.carries a.target = true → inboundOk a.addr a.op = true → p.holds (a.addr + opSize a.op - 1) = true →
      let may (w : Bool) : Prop := s.mayAccess a.target a.master p.fsect w = true
      let allowed : Prop := (match a.op with | .read _ => may false | .write _ => may true | .atomic _ _ _ _ => may false ∧ may true) ∧ p.quarantined = false
      (¬ allowed → Runs i s (s.raiseAlarm p.fsect a.addr)) ∧
      (allowed → p.ckpt = none → s.MemoryWf → ∃ u : State, Runs i s u ∧ u.g = s.g ∧
        (∀ n, a.op = .read n → SameMemory s u) ∧
        (∀ b, a.op = .write b → memRead u.ms.mem a.addr b.length = b ∧ SameMemoryOutside a.addr b.length s u) ∧
        (∀ aop w x cmp, a.op = .atomic aop w x cmp →
          (s.isPoisoned a.addr w = true → u = s) ∧
          (s.isPoisoned a.addr w = false → SameMemoryOutside a.addr w s u ∧
            u.memNat a.addr w = (s.atomicAt a.addr w aop (x.toNat % 2 ^ (8 * w)) (cmp.toNat % 2 ^ (8 * w))).1.memNat a.addr w))) ∧
      (allowed → p.ckpt ≠ none → (∃ n, a.target = .port n) → (∀ n, a.op ≠ .read n) → Runs i s s))) ∧
  (∀ (s : State) (a : InboundArg), s.mg.pstate = 0 → a.target = .mgmt → let i := Instr.inboundAccess a
    let out := s.windowRefuses (some a.master) (opWrites a.op)
    (s.carries .mgmt = false → Runs i s s) ∧
    (s.carries .mgmt = true → out ≠ [] → Runs i s (out.foldl (fun s f => s.raiseAlarm f a.addr) s)) ∧
    (s.carries .mgmt = true → out = [] →
      (∀ b u, a.op = .write b → Runs (.mgmtRegisterWrite a.addr { master := some a.master, value := BitVec.ofNat 64 (leNat b) }) s u → Runs i s u) ∧
      ((∀ b, a.op ≠ .write b) → Runs i s s))) ∧
  (∀ (s : State) w, s.windowRefuses none w = [] ∧
    ∀ m f, f ∈ s.windowRefuses (some m) w ↔ ∃ p ∈ s.cx.parts, p.fsect = f ∧ s.mayAccess .mgmt m f w = false)

/-! ## Security and management -/

/-- Alarms, boot, quotes and checkpoints: while the device is awake, an alarm sets its partition's bit and ends its checkpoint, under
policy 1 or more quarantines the partition, whose contexts, Created ones too (log 61), become Faulted, and under policy 2 or more erases the key store; a cold reset gives the values of R442, and the whole device's, which is the model's choice
(log 36); an image is accepted with a magic number, a length, a version and a signature that pass; a quote, whose signature has 7,856
bytes (log 97), is refused without keys or with a nonce of another length; both meet the management window's table first: an image must be
written, a quote's nonce written and the quote read (log 100); a checkpoint takes the contexts off their cores, then copies the partition's memory, or a prefix of it when the
host link is not usable, and writes its manifest, and
a restore copies it back while every context is Saved (R442, R443, R450 to R453). More of the model's choices: LEN is the whole image's
length (log 37), a checkpoint is two firings, and its manifest is written though the link is unusable (log 38), its words in the order of
log 34. -/
def Obligations.Security : Prop :=
  (∀ (s : State) fsect addr, s.mg.pstate = 0 → (s.partOf fsect = none → Runs (.alarm fsect addr) s s) ∧
    ∀ p, s.partOf fsect = some p → ∃ u : State, Runs (.alarm fsect addr) s u ∧ u.mg.alarm = s.mg.alarm ||| BitVec.twoPow 8 fsect ∧
      (s.mg.alpol = 0 → p.ckpt = none → u.cx = s.cx ∧ u.g = s.g ∧ u.ms = s.ms) ∧
      (s.mg.alpol = 0 → ∀ t, p.ckpt = some t → s.MemoryWf → u.g = s.g ∧ (∃ q, u.partOf fsect = some q ∧ q.ckpt = none) ∧
        u.memNat (spaceSize + t + Config.partMemSize p.psize) 8 = 2 ∧ u.memNat (spaceSize + t + Config.partMemSize p.psize + 8) 8 = 6) ∧
      (s.mg.alpol.toNat < 2 → u.mg.keyStore = s.mg.keyStore) ∧ (2 ≤ s.mg.alpol.toNat → u.mg.keyStore = []) ∧
      (s.mg.alpol ≠ 0 → p.quarantined = false → (∃ q, u.partOf fsect = some q ∧ q.quarantined = true) ∧
        (∀ k : Fin 8, p.hasSector k.val = true → u.mg.heads[k].black = true) ∧ (∀ j ∈ u.mg.jobs, p.hasSector j.sector = true → j.cancelled = true) ∧
        ∀ n c, s.ctxOf n = some c → p.hasSector c.fsect = true → c.st ≠ .destroyed →
          ∃ c', u.ctxOf n = some c' ∧ c'.st = .faulted ∧ c'.fcause = cPROT ∧ c'.faddr = BitVec.ofNat 52 addr)) ∧
  (∀ s : State, s.mg.pstate = 0 → ∃ u : State, Runs .tamperSensor s u ∧ ∀ p ∈ s.cx.parts, p.fsect < 8 → u.mg.alarm.getLsbD p.fsect = true) ∧
  (∀ s : State, ∃ u : State, Runs .coldReset s u ∧ u.mg = { State.reset.mg with image := s.mg.image } ∧ u.mg.thot = 95 ∧ u.mg.alpol = 1 ∧ u.mg.alarm = 0 ∧
    u.mg.ltol = 0 ∧ u.mg.pstate = 0 ∧ u.mg.boot = 0 ∧ u.g = State.reset.g ∧ u.others = [] ∧ u.cx = State.reset.cx ∧ u.ms = State.reset.ms) ∧
  (∀ image key, imageOk image key = true ↔
    7920 ≤ image.length ∧ leNat (image.take 4) = 0x4E394657 ∧ leNat ((image.drop 8).take 8) = image.length ∧ (∀ b ∈ (image.drop 16).take 48, b = 0) ∧
    Config.minVersion.toNat ≤ leNat ((image.drop 4).take 4) ∧ key.length = 32 ∧ sha256 key = Config.fusedKeyDigest ∧
    Config.signatureVerifies key (sha256 (image.take (image.length - 7856))) (image.drop (image.length - 7856)) = true) ∧
  (∀ (image : ByMaster (List Byte)) key (s : State), let out := s.windowRefuses image.master true
    let im := image.value
    (out ≠ [] → Runs (.imageCheck image key) s (out.foldl (fun s f => s.raiseAlarm f 0) s)) ∧
    (out = [] → s.mg.boot = 1 → Runs (.imageCheck image key) s s) ∧
    (out = [] → s.mg.boot ≠ 1 → Runs (.imageCheck image key) s { s with mg := if imageOk im key = true
      then { s.mg with boot := 1, image := im, keyStore := Config.attestPrivate (sha256 (im.take (im.length - 7856))) }
      else { s.mg with boot := 2 } })) ∧
  (∀ (nonce : ByMaster (List Byte)) (s : State), let refused : Prop := s.mg.boot ≠ 1 ∨ s.mg.keyStore = [] ∨ nonce.value.length ≠ 32
    let out := if s.windowRefuses nonce.master true = [] then s.windowRefuses nonce.master false else s.windowRefuses nonce.master true
    (out ≠ [] → Runs (.quote nonce) s (out.foldl (fun s f => s.raiseAlarm f 0) s)) ∧
    (out = [] → refused → Runs (.quote nonce) s { s with mg := { s.mg with quote := [] } }) ∧
    (out = [] → ¬ refused → ∃ b sig, Runs (.quote nonce) s { s with mg := { s.mg with quote := b ++ sig } } ∧
      b.take 4 = leBytes 4 0x4E395154 ∧ (b.drop 64).take 32 = nonce.value ∧ sig.length = 7856 ∧
      ∀ k < 7856, sig[k]? = some ((Config.sign s.mg.keyStore (sha256 b)).getD k 0))) ∧
  (∀ (s : State) fsect target (p : Part), s.partOf fsect = some p → let go := Instr.checkpoint [(fsect, target)]
    let size := Config.partMemSize p.psize
    (p.ckpt = none → ∃ u : State, Runs go s u ∧ (∃ q, u.partOf fsect = some q ∧ q.ckpt = some target) ∧
      ∀ n c, s.ctxOf n = some c → p.hasSector c.fsect = true →
        (c.st = .runnable → u.ctxOf n = some { c with st := .saved }) ∧ (c.st = .running → u.ctxOf n = some { c with st := .preempting }) ∧
        (c.live = false → u.ctxOf n = some c)) ∧
    (∀ t, p.ckpt = some t → (∃ c ∈ s.ctxsOf p, c.live = true ∨ c.st = .preempting ∨ s.hasResident c.n = true) → Runs go s s) ∧
    (∀ t, p.ckpt = some t → (∀ c ∈ s.ctxsOf p, c.live = false ∧ c.st ≠ .preempting ∧ s.hasResident c.n = false) → s.MemoryWf →
      ∃ u : State, Runs go s u ∧ u.g = s.g ∧ (∃ q, u.partOf fsect = some q ∧ q.ckpt = none) ∧
        (s.lk.host.usable = false → ∃ n ≤ size, u.memNat (spaceSize + t + size) 8 = 2 ∧ u.memNat (spaceSize + t + size + 8) 8 = 0x13 ∧
          u.memNat (spaceSize + t + size + 16) 8 = n % 2 ^ 64 ∧
          ((∀ x ∈ s.ms.poison, p.holds (32 * x) = false) → ∀ k < n, memGet u.ms.mem (spaceSize + t + k) = memGet s.ms.mem (p.range.1 + k))) ∧
        (s.lk.host.usable = true → (∀ x ∈ s.ms.poison, p.holds (32 * x) = false) →
          u.memNat (spaceSize + t + size) 8 = 1 ∧ u.memNat (spaceSize + t + size + 16) 8 = size % 2 ^ 64 ∧
          ∀ k < size, memGet u.ms.mem (spaceSize + t + k) = memGet s.ms.mem (p.range.1 + k))) ∧
    ((∃ c ∈ s.ctxsOf p, c.st ≠ .saved) ∨ s.lk.host.usable = false → Runs (.checkpointRestore fsect target) s s) ∧
    (s.MemoryWf → (∀ c ∈ s.ctxsOf p, c.st = .saved) → s.lk.host.usable = true → s.memNat (spaceSize + target + size + 24) 8 = 0 →
      ∃ u : State, Runs (.checkpointRestore fsect target) s u ∧ u.g = s.g ∧
        ∀ k, memGet u.ms.mem k = if p.holds k = true then memGet s.ms.mem (spaceSize + target + (k - p.range.1)) else memGet s.ms.mem k))

/-- The management page, power, heads and encoders: writes land whole, T_hot only in 70 to 105, ones clear alarms, and an offset that
the page does not let write is ignored; a master that lacks the right gets an alarm and nothing else (log 100); the deepest state that the tolerance and the machine's quiet allow is entered, from a less
deep one, and the home slices are empty in C4; there a wake, a write, an access, a doorbell and an alarm are held until the exit, which makes them the next moves, in their
order; a head latches a valid descriptor at the vertical blank, and counts its flip, or outputs
black; a job joins its encoder's list, and ends with a record once its ring has room. A corrected soft error is counted, and an
uncorrectable one in a home slice marks its sector (R422, R442, R445 to R448, R451). The model's choices: a descriptor or FLIPCTR outside
the partition makes the head black or is not counted (log 39), a job record outside it is not accepted (log 62), and what is held, and
that a deeper state is entered from a less deep one (log 84). -/
def Obligations.Management : Prop :=
  (∀ (s : State), (∀ p, Runs (.correctableSoftError p) s { s with mg := { s.mg with corrected := s.mg.corrected + 1 } }) ∧
    ∀ k, k < 2 ^ 53 → ∃ u : State, Runs (.uncorrectableError (.sliceSector k)) s u ∧ k / 32 ∈ u.ms.poison ∧ u.ms.mem = s.ms.mem ∧ u.g = s.g) ∧
  (∀ (s : State) (m : Option Master), s.mg.pstate = 0 → s.windowRefuses m true = [] →
    let sets (i : Instr) (t : Mgmt) : Prop := Runs i s { s with mg := t }
    (∀ x, sets (.ltolWrite ⟨m, x⟩) { s.mg with ltol := x }) ∧ (∀ x, sets (.alpolWrite ⟨m, x⟩) { s.mg with alpol := x }) ∧
    (∀ x, sets (.alarmWrite ⟨m, x⟩) { s.mg with alarm := s.mg.alarm &&& ~~~ x }) ∧
    (∀ x : Byte, (70 ≤ x.toNat → x.toNat ≤ 105 → sets (.thotWrite ⟨m, x⟩) { s.mg with thot := x }) ∧
      (x.toNat < 70 ∨ 105 < x.toNat → Runs (.thotWrite ⟨m, x⟩) s s)) ∧
    (∀ x : W64, let at_ (off : Nat) := Instr.mgmtRegisterWrite off ⟨m, x⟩
      sets (at_ 0) { s.mg with ltol := x.setWidth 32 } ∧ sets (at_ 0x18) { s.mg with alpol := x.setWidth 2 } ∧
      sets (at_ 0x20) { s.mg with alarm := s.mg.alarm &&& ~~~ (x.setWidth 8) } ∧
      (70 ≤ x.toNat % 256 → x.toNat % 256 ≤ 105 → sets (at_ 0x10) { s.mg with thot := x.setWidth 8 }) ∧
      (x.toNat % 256 < 70 ∨ 105 < x.toNat % 256 → Runs (at_ 0x10) s s)) ∧
    (∀ off x, off ∉ [0, 0x10, 0x18, 0x20] → Runs (.mgmtRegisterWrite off ⟨m, x⟩) s s)) ∧
  (∀ (s : State) (m : Option Master), s.mg.pstate = 0 → s.windowRefuses m true ≠ [] →
    let alarms (off : Nat) : State := (s.windowRefuses m true).foldl (fun s f => s.raiseAlarm f off) s
    (∀ x, Runs (.ltolWrite ⟨m, x⟩) s (alarms 0)) ∧ (∀ x, Runs (.alpolWrite ⟨m, x⟩) s (alarms 0x18)) ∧
    (∀ x, Runs (.thotWrite ⟨m, x⟩) s (alarms 0x10) ∧ Runs (.alarmWrite ⟨m, x⟩) s (alarms 0x20)) ∧
    (∀ off x, Runs (.mgmtRegisterWrite off ⟨m, x⟩) s (alarms off))) ∧
  (∀ (s : State) (m : Option Master), s.mg.pstate ≠ 0 →
    let holds (i : Instr) (h : HeldAccess) : Prop := Runs i s { s with mg := { s.mg with leaving := true, held := s.mg.held ++ [.access h] } }
    (∀ x, holds (.ltolWrite ⟨m, x⟩) (.mgmt 0 ⟨m, x.setWidth 64⟩)) ∧ (∀ x, holds (.alpolWrite ⟨m, x⟩) (.mgmt 0x18 ⟨m, x.setWidth 64⟩)) ∧
    (∀ x, holds (.thotWrite ⟨m, x⟩) (.mgmt 0x10 ⟨m, x.setWidth 64⟩) ∧ holds (.alarmWrite ⟨m, x⟩) (.mgmt 0x20 ⟨m, x.setWidth 64⟩)) ∧
    (∀ off x, holds (.mgmtRegisterWrite off x) (.mgmt off x)) ∧ (∀ a, holds (.inboundAccess a) (.inbound a)) ∧
    (∀ ctx q x, holds (.doorbellWrite ctx q x) (.doorbell ctx q x)) ∧ (∀ f a, holds (.alarm f a) (.alarm f a)) ∧
    (∃ u : State, Runs .tamperSensor s u ∧ u.mg.held = s.mg.held ++ s.cx.parts.map fun p => Turn.access (.alarm p.fsect 0))) ∧
  (∀ s : State, let l := s.mg.ltol.toNat
    let enters (k : Nat) : Prop := ∃ u : State, Runs .powerStateEntry s u ∧ u.mg = { s.mg with pstate := BitVec.ofNat 3 k } ∧ u.g = s.g ∧ (k ≠ 4 → u.ms = s.ms) ∧
      (k = 4 → u.ms.dirty = [] ∧ u.ms.stale = [] ∧ u.ms.first = [] ∧ u.ms.pins = [] ∧ u.ms.owned = [] ∧ ∀ x ∈ u.ms.poison, x ∈ u.ms.poisonBack)
    let reaches (k : Nat) : Prop := (k ≤ s.mg.pstate.toNat → Runs .powerStateEntry s s) ∧ (s.mg.pstate.toNat < k → enters k)
    (s.mg.leaving = true ∨ s.idle = false ∨ l < 2 → Runs .powerStateEntry s s) ∧
    (s.mg.leaving = false → s.idle = true → 2 ≤ l →
      (l < 50 ∨ s.dark = false → reaches 1) ∧ (50 ≤ l → l < 400 → s.dark = true → reaches 2) ∧
      (400 ≤ l → l < 20000 → s.dark = true → reaches 2 ∨ reaches 3) ∧ (20000 ≤ l → s.dark = true → reaches 2 ∨ reaches 4))) ∧
  (∀ (s : State) h, (s.mg.pstate = 0 → Runs (.wake h) s s) ∧
    (s.mg.pstate ≠ 0 → Runs (.wake h) s { s with mg := { s.mg with leaving := true, held := s.mg.held ++ [.access h] } }) ∧
    (s.mg.leaving = false → Runs .powerStateExitComplete s s) ∧
    (s.mg.leaving = true → Runs .powerStateExitComplete s { s with
      turns := s.mg.held ++ s.turns, mg := { s.mg with pstate := 0, leaving := false, held := [] } }) ∧
    (∀ r, s.turns = .access h :: r → let u : State := { s with turns := r }
      (s.mg.pstate ≠ 0 → step s = afterOut (.next { u with mg := { s.mg with leaving := true, held := s.mg.held ++ [.access h] } })) ∧
      (s.mg.pstate = 0 → ∃ v, step s = afterOut (.next v) ∧ (h = .timer → v = u) ∧
        (∀ off x, h = .mgmt off x → Runs (.mgmtRegisterWrite off x) u v) ∧ (∀ a, h = .inbound a → Runs (.inboundAccess a) u v) ∧
        (∀ ctx q x, h = .doorbell ctx q x → Runs (.doorbellWrite ctx q x) u v) ∧ (∀ f a, h = .alarm f a → Runs (.alarm f a) u v)))) ∧
  (∀ (s : State) (k : Fin 8) addr, (s.mg.boot ≠ 1 → Runs (.headDescriptorSet k.val addr) s s) ∧ (s.mg.boot = 1 → Runs (.headDescriptorSet k.val addr) s { s with mg := { s.mg with heads := s.mg.heads.set k.val { s.mg.heads[k] with addr := some addr } k.isLt } })) ∧
  (∀ (s : State) (k : Fin 8), (s.cx.parts.find? (·.hasSector k.val) = none ∨ s.mg.heads[k].addr = none → Runs (.verticalBlank k.val) s s) ∧
    ∀ p a, s.cx.parts.find? (·.hasSector k.val) = some p → s.mg.heads[k].addr = some a → let d := if p.holds a = true ∧ p.holds (a + 63) = true then leNat (memRead s.ms.backing a 64) else 0
      let ok := !p.quarantined && headOk s p k.val d
      let u : State := { s with mg := { s.mg with heads := s.mg.heads.set k.val { addr := some a, latched := some (headOf d), black := !ok } k.isLt } }
      let c := (headOf d).flipctr
      (ok = false ∨ c = 0 ∨ p.holds c = false → Runs (.verticalBlank k.val) s u) ∧
      (ok = true → c ≠ 0 → p.holds c = true → Runs (.verticalBlank k.val) s (u.memPut c 8 (s.memNat c 8 + 1)))) ∧
  (∀ (s : State) sector addr, (s.cx.parts.find? (·.hasSector sector) = none → Runs (.encodeJob sector addr) s s) ∧
    ∀ p, s.cx.parts.find? (·.hasSector sector) = some p →
      (p.quarantined = true ∨ p.holds addr = false ∨ p.holds (addr + 63) = false → Runs (.encodeJob sector addr) s s) ∧
      (p.quarantined = false → sector < 8 → p.holds addr = true → p.holds (addr + 63) = true → Runs (.encodeJob sector addr) s { s with mg := { s.mg with
        jobs := s.mg.jobs ++ [jobOf sector addr (leNat (memRead s.ms.backing addr 64))] } })) ∧
  (∀ (s : State) sector bits, (s.mg.jobs.find? (·.sector = sector) = none → Runs (.encodeComplete sector bits) s s) ∧
    ∀ j p, s.mg.jobs.find? (·.sector = sector) = some j → s.cx.parts.find? (·.hasSector sector) = some p →
      p.holds j.cring = true → p.holds (j.cring + 63) = true →
      let d := s.memNat j.cring 64
      let w := natBits d 64 64
      let n := 2 ^ natBits d 52 4
      let a := natBits d 0 52 / 32 * 32 + 32 * (w % n)
      (n ≤ (w + 2 ^ 64 - natBits d 128 64) % 2 ^ 64 → Runs (.encodeComplete sector bits) s (s.seen j.cring 64)) ∧
      ((w + 2 ^ 64 - natBits d 128 64) % 2 ^ 64 < n → s.MemoryWf → ∃ u : State, Runs (.encodeComplete sector bits) s u ∧ u.g = s.g ∧
        u.mg.jobs = s.mg.jobs.erase j ∧ u.memNat (j.cring + 8) 8 = (w + 1) % 2 ^ 64 ∧
        (p.holds a = true → a + 32 ≤ j.cring + 8 ∨ j.cring + 16 ≤ a →
          u.memNat a 4 = (j.result s p bits).1 ∧ u.memNat (a + 4) 4 = (j.result s p bits).2.1 ∧ u.memNat (a + 24) 8 = j.tag.toNat)))
end

