-- ==== Sys2Proof/Laws/State.lean ====
section
/-! SUPPORT. What each update of State leaves alone: one equation per field, true by unfolding, so that no proof unfolds a record update. -/

namespace Sys2Proof.Machine

/-! retire -/
@[simp] theorem State.retire_others (s : State) : (s.retire).others = s.others := rfl
@[simp] theorem State.retire_turns (s : State) : (s.retire).turns = s.turns := rfl
@[simp] theorem State.retire_choices (s : State) : (s.retire).choices = s.choices := rfl
@[simp] theorem State.retire_pauses (s : State) : (s.retire).pauses = s.pauses := rfl
@[simp] theorem State.retire_moves (s : State) : (s.retire).moves = s.moves := rfl
@[simp] theorem State.retire_fresh (s : State) : (s.retire).fresh = s.fresh := rfl
@[simp] theorem State.retire_clock (s : State) : (s.retire).clock = s.clock := rfl
@[simp] theorem State.retire_nextGid (s : State) : (s.retire).nextGid = s.nextGid := rfl
@[simp] theorem State.retire_ms (s : State) : (s.retire).ms = s.ms := rfl
@[simp] theorem State.retire_cs (s : State) : (s.retire).cs = s.cs := rfl
@[simp] theorem State.retire_ls (s : State) : (s.retire).ls = s.ls := rfl
@[simp] theorem State.retire_qs (s : State) : (s.retire).qs = s.qs := rfl
@[simp] theorem State.retire_cx (s : State) : (s.retire).cx = s.cx := rfl
@[simp] theorem State.retire_lk (s : State) : (s.retire).lk = s.lk := rfl
@[simp] theorem State.retire_mg (s : State) : (s.retire).mg = s.mg := rfl

/-! goTo -/
@[simp] theorem State.goTo_others (s : State) (t : W64) : (s.goTo t).others = s.others := rfl
@[simp] theorem State.goTo_turns (s : State) (t : W64) : (s.goTo t).turns = s.turns := rfl
@[simp] theorem State.goTo_choices (s : State) (t : W64) : (s.goTo t).choices = s.choices := rfl
@[simp] theorem State.goTo_pauses (s : State) (t : W64) : (s.goTo t).pauses = s.pauses := rfl
@[simp] theorem State.goTo_moves (s : State) (t : W64) : (s.goTo t).moves = s.moves := rfl
@[simp] theorem State.goTo_fresh (s : State) (t : W64) : (s.goTo t).fresh = s.fresh := rfl
@[simp] theorem State.goTo_clock (s : State) (t : W64) : (s.goTo t).clock = s.clock := rfl
@[simp] theorem State.goTo_nextGid (s : State) (t : W64) : (s.goTo t).nextGid = s.nextGid := rfl
@[simp] theorem State.goTo_ms (s : State) (t : W64) : (s.goTo t).ms = s.ms := rfl
@[simp] theorem State.goTo_cs (s : State) (t : W64) : (s.goTo t).cs = s.cs := rfl
@[simp] theorem State.goTo_ls (s : State) (t : W64) : (s.goTo t).ls = s.ls := rfl
@[simp] theorem State.goTo_qs (s : State) (t : W64) : (s.goTo t).qs = s.qs := rfl
@[simp] theorem State.goTo_cx (s : State) (t : W64) : (s.goTo t).cx = s.cx := rfl
@[simp] theorem State.goTo_lk (s : State) (t : W64) : (s.goTo t).lk = s.lk := rfl
@[simp] theorem State.goTo_mg (s : State) (t : W64) : (s.goTo t).mg = s.mg := rfl

/-! setS -/
@[simp] theorem State.setS_others (s : State) (n : BitVec 6) (x : W64) : (s.setS n x).others = s.others := rfl
@[simp] theorem State.setS_turns (s : State) (n : BitVec 6) (x : W64) : (s.setS n x).turns = s.turns := rfl
@[simp] theorem State.setS_choices (s : State) (n : BitVec 6) (x : W64) : (s.setS n x).choices = s.choices := rfl
@[simp] theorem State.setS_pauses (s : State) (n : BitVec 6) (x : W64) : (s.setS n x).pauses = s.pauses := rfl
@[simp] theorem State.setS_moves (s : State) (n : BitVec 6) (x : W64) : (s.setS n x).moves = s.moves := rfl
@[simp] theorem State.setS_fresh (s : State) (n : BitVec 6) (x : W64) : (s.setS n x).fresh = s.fresh := rfl
@[simp] theorem State.setS_clock (s : State) (n : BitVec 6) (x : W64) : (s.setS n x).clock = s.clock := rfl
@[simp] theorem State.setS_nextGid (s : State) (n : BitVec 6) (x : W64) : (s.setS n x).nextGid = s.nextGid := rfl
@[simp] theorem State.setS_ms (s : State) (n : BitVec 6) (x : W64) : (s.setS n x).ms = s.ms := rfl
@[simp] theorem State.setS_cs (s : State) (n : BitVec 6) (x : W64) : (s.setS n x).cs = s.cs := rfl
@[simp] theorem State.setS_ls (s : State) (n : BitVec 6) (x : W64) : (s.setS n x).ls = s.ls := rfl
@[simp] theorem State.setS_qs (s : State) (n : BitVec 6) (x : W64) : (s.setS n x).qs = s.qs := rfl
@[simp] theorem State.setS_cx (s : State) (n : BitVec 6) (x : W64) : (s.setS n x).cx = s.cx := rfl
@[simp] theorem State.setS_lk (s : State) (n : BitVec 6) (x : W64) : (s.setS n x).lk = s.lk := rfl
@[simp] theorem State.setS_mg (s : State) (n : BitVec 6) (x : W64) : (s.setS n x).mg = s.mg := rfl

/-! setP -/
@[simp] theorem State.setP_others (s : State) (n : BitVec 4) (x : W32) : (s.setP n x).others = s.others := rfl
@[simp] theorem State.setP_turns (s : State) (n : BitVec 4) (x : W32) : (s.setP n x).turns = s.turns := rfl
@[simp] theorem State.setP_choices (s : State) (n : BitVec 4) (x : W32) : (s.setP n x).choices = s.choices := rfl
@[simp] theorem State.setP_pauses (s : State) (n : BitVec 4) (x : W32) : (s.setP n x).pauses = s.pauses := rfl
@[simp] theorem State.setP_moves (s : State) (n : BitVec 4) (x : W32) : (s.setP n x).moves = s.moves := rfl
@[simp] theorem State.setP_fresh (s : State) (n : BitVec 4) (x : W32) : (s.setP n x).fresh = s.fresh := rfl
@[simp] theorem State.setP_clock (s : State) (n : BitVec 4) (x : W32) : (s.setP n x).clock = s.clock := rfl
@[simp] theorem State.setP_nextGid (s : State) (n : BitVec 4) (x : W32) : (s.setP n x).nextGid = s.nextGid := rfl
@[simp] theorem State.setP_ms (s : State) (n : BitVec 4) (x : W32) : (s.setP n x).ms = s.ms := rfl
@[simp] theorem State.setP_cs (s : State) (n : BitVec 4) (x : W32) : (s.setP n x).cs = s.cs := rfl
@[simp] theorem State.setP_ls (s : State) (n : BitVec 4) (x : W32) : (s.setP n x).ls = s.ls := rfl
@[simp] theorem State.setP_qs (s : State) (n : BitVec 4) (x : W32) : (s.setP n x).qs = s.qs := rfl
@[simp] theorem State.setP_cx (s : State) (n : BitVec 4) (x : W32) : (s.setP n x).cx = s.cx := rfl
@[simp] theorem State.setP_lk (s : State) (n : BitVec 4) (x : W32) : (s.setP n x).lk = s.lk := rfl
@[simp] theorem State.setP_mg (s : State) (n : BitVec 4) (x : W32) : (s.setP n x).mg = s.mg := rfl

/-! setV -/
@[simp] theorem State.setV_others (s : State) (w : Bool) (d : Byte) (m : W32) (val : Nat → Nat) : (s.setV w d m val).others = s.others := rfl
@[simp] theorem State.setV_turns (s : State) (w : Bool) (d : Byte) (m : W32) (val : Nat → Nat) : (s.setV w d m val).turns = s.turns := rfl
@[simp] theorem State.setV_choices (s : State) (w : Bool) (d : Byte) (m : W32) (val : Nat → Nat) : (s.setV w d m val).choices = s.choices := rfl
@[simp] theorem State.setV_pauses (s : State) (w : Bool) (d : Byte) (m : W32) (val : Nat → Nat) : (s.setV w d m val).pauses = s.pauses := rfl
@[simp] theorem State.setV_moves (s : State) (w : Bool) (d : Byte) (m : W32) (val : Nat → Nat) : (s.setV w d m val).moves = s.moves := rfl
@[simp] theorem State.setV_fresh (s : State) (w : Bool) (d : Byte) (m : W32) (val : Nat → Nat) : (s.setV w d m val).fresh = s.fresh := rfl
@[simp] theorem State.setV_clock (s : State) (w : Bool) (d : Byte) (m : W32) (val : Nat → Nat) : (s.setV w d m val).clock = s.clock := rfl
@[simp] theorem State.setV_nextGid (s : State) (w : Bool) (d : Byte) (m : W32) (val : Nat → Nat) : (s.setV w d m val).nextGid = s.nextGid := rfl
@[simp] theorem State.setV_ms (s : State) (w : Bool) (d : Byte) (m : W32) (val : Nat → Nat) : (s.setV w d m val).ms = s.ms := rfl
@[simp] theorem State.setV_cs (s : State) (w : Bool) (d : Byte) (m : W32) (val : Nat → Nat) : (s.setV w d m val).cs = s.cs := rfl
@[simp] theorem State.setV_ls (s : State) (w : Bool) (d : Byte) (m : W32) (val : Nat → Nat) : (s.setV w d m val).ls = s.ls := rfl
@[simp] theorem State.setV_qs (s : State) (w : Bool) (d : Byte) (m : W32) (val : Nat → Nat) : (s.setV w d m val).qs = s.qs := rfl
@[simp] theorem State.setV_cx (s : State) (w : Bool) (d : Byte) (m : W32) (val : Nat → Nat) : (s.setV w d m val).cx = s.cx := rfl
@[simp] theorem State.setV_lk (s : State) (w : Bool) (d : Byte) (m : W32) (val : Nat → Nat) : (s.setV w d m val).lk = s.lk := rfl
@[simp] theorem State.setV_mg (s : State) (w : Bool) (d : Byte) (m : W32) (val : Nat → Nat) : (s.setV w d m val).mg = s.mg := rfl

/-! mapR -/
@[simp] theorem State.mapR_others (s : State) (f : Arch → Arch) : (s.mapR f).others = s.others := rfl
@[simp] theorem State.mapR_turns (s : State) (f : Arch → Arch) : (s.mapR f).turns = s.turns := rfl
@[simp] theorem State.mapR_choices (s : State) (f : Arch → Arch) : (s.mapR f).choices = s.choices := rfl
@[simp] theorem State.mapR_pauses (s : State) (f : Arch → Arch) : (s.mapR f).pauses = s.pauses := rfl
@[simp] theorem State.mapR_moves (s : State) (f : Arch → Arch) : (s.mapR f).moves = s.moves := rfl
@[simp] theorem State.mapR_fresh (s : State) (f : Arch → Arch) : (s.mapR f).fresh = s.fresh := rfl
@[simp] theorem State.mapR_clock (s : State) (f : Arch → Arch) : (s.mapR f).clock = s.clock := rfl
@[simp] theorem State.mapR_nextGid (s : State) (f : Arch → Arch) : (s.mapR f).nextGid = s.nextGid := rfl
@[simp] theorem State.mapR_ms (s : State) (f : Arch → Arch) : (s.mapR f).ms = s.ms := rfl
@[simp] theorem State.mapR_cs (s : State) (f : Arch → Arch) : (s.mapR f).cs = s.cs := rfl
@[simp] theorem State.mapR_ls (s : State) (f : Arch → Arch) : (s.mapR f).ls = s.ls := rfl
@[simp] theorem State.mapR_qs (s : State) (f : Arch → Arch) : (s.mapR f).qs = s.qs := rfl
@[simp] theorem State.mapR_cx (s : State) (f : Arch → Arch) : (s.mapR f).cx = s.cx := rfl
@[simp] theorem State.mapR_lk (s : State) (f : Arch → Arch) : (s.mapR f).lk = s.lk := rfl
@[simp] theorem State.mapR_mg (s : State) (f : Arch → Arch) : (s.mapR f).mg = s.mg := rfl

/-! orF -/
@[simp] theorem State.orF_others (s : State) (x : BitVec 5) : (s.orF x).others = s.others := rfl
@[simp] theorem State.orF_turns (s : State) (x : BitVec 5) : (s.orF x).turns = s.turns := rfl
@[simp] theorem State.orF_choices (s : State) (x : BitVec 5) : (s.orF x).choices = s.choices := rfl
@[simp] theorem State.orF_pauses (s : State) (x : BitVec 5) : (s.orF x).pauses = s.pauses := rfl
@[simp] theorem State.orF_moves (s : State) (x : BitVec 5) : (s.orF x).moves = s.moves := rfl
@[simp] theorem State.orF_fresh (s : State) (x : BitVec 5) : (s.orF x).fresh = s.fresh := rfl
@[simp] theorem State.orF_clock (s : State) (x : BitVec 5) : (s.orF x).clock = s.clock := rfl
@[simp] theorem State.orF_nextGid (s : State) (x : BitVec 5) : (s.orF x).nextGid = s.nextGid := rfl
@[simp] theorem State.orF_ms (s : State) (x : BitVec 5) : (s.orF x).ms = s.ms := rfl
@[simp] theorem State.orF_cs (s : State) (x : BitVec 5) : (s.orF x).cs = s.cs := rfl
@[simp] theorem State.orF_ls (s : State) (x : BitVec 5) : (s.orF x).ls = s.ls := rfl
@[simp] theorem State.orF_qs (s : State) (x : BitVec 5) : (s.orF x).qs = s.qs := rfl
@[simp] theorem State.orF_cx (s : State) (x : BitVec 5) : (s.orF x).cx = s.cx := rfl
@[simp] theorem State.orF_lk (s : State) (x : BitVec 5) : (s.orF x).lk = s.lk := rfl
@[simp] theorem State.orF_mg (s : State) (x : BitVec 5) : (s.orF x).mg = s.mg := rfl

/-! orQ -/
@[simp] theorem State.orQ_others (s : State) (x : BitVec 6) : (s.orQ x).others = s.others := rfl
@[simp] theorem State.orQ_turns (s : State) (x : BitVec 6) : (s.orQ x).turns = s.turns := rfl
@[simp] theorem State.orQ_choices (s : State) (x : BitVec 6) : (s.orQ x).choices = s.choices := rfl
@[simp] theorem State.orQ_pauses (s : State) (x : BitVec 6) : (s.orQ x).pauses = s.pauses := rfl
@[simp] theorem State.orQ_moves (s : State) (x : BitVec 6) : (s.orQ x).moves = s.moves := rfl
@[simp] theorem State.orQ_fresh (s : State) (x : BitVec 6) : (s.orQ x).fresh = s.fresh := rfl
@[simp] theorem State.orQ_clock (s : State) (x : BitVec 6) : (s.orQ x).clock = s.clock := rfl
@[simp] theorem State.orQ_nextGid (s : State) (x : BitVec 6) : (s.orQ x).nextGid = s.nextGid := rfl
@[simp] theorem State.orQ_ms (s : State) (x : BitVec 6) : (s.orQ x).ms = s.ms := rfl
@[simp] theorem State.orQ_cs (s : State) (x : BitVec 6) : (s.orQ x).cs = s.cs := rfl
@[simp] theorem State.orQ_ls (s : State) (x : BitVec 6) : (s.orQ x).ls = s.ls := rfl
@[simp] theorem State.orQ_qs (s : State) (x : BitVec 6) : (s.orQ x).qs = s.qs := rfl
@[simp] theorem State.orQ_cx (s : State) (x : BitVec 6) : (s.orQ x).cx = s.cx := rfl
@[simp] theorem State.orQ_lk (s : State) (x : BitVec 6) : (s.orQ x).lk = s.lk := rfl
@[simp] theorem State.orQ_mg (s : State) (x : BitVec 6) : (s.orQ x).mg = s.mg := rfl

/-! setMask -/
@[simp] theorem State.setMask_others (s : State) (l : List Frame) (m : W32) (p : Option W64) : (s.setMask l m p).others = s.others := rfl
@[simp] theorem State.setMask_turns (s : State) (l : List Frame) (m : W32) (p : Option W64) : (s.setMask l m p).turns = s.turns := rfl
@[simp] theorem State.setMask_choices (s : State) (l : List Frame) (m : W32) (p : Option W64) : (s.setMask l m p).choices = s.choices := rfl
@[simp] theorem State.setMask_pauses (s : State) (l : List Frame) (m : W32) (p : Option W64) : (s.setMask l m p).pauses = s.pauses := rfl
@[simp] theorem State.setMask_moves (s : State) (l : List Frame) (m : W32) (p : Option W64) : (s.setMask l m p).moves = s.moves := rfl
@[simp] theorem State.setMask_fresh (s : State) (l : List Frame) (m : W32) (p : Option W64) : (s.setMask l m p).fresh = s.fresh := rfl
@[simp] theorem State.setMask_clock (s : State) (l : List Frame) (m : W32) (p : Option W64) : (s.setMask l m p).clock = s.clock := rfl
@[simp] theorem State.setMask_nextGid (s : State) (l : List Frame) (m : W32) (p : Option W64) : (s.setMask l m p).nextGid = s.nextGid := rfl
@[simp] theorem State.setMask_ms (s : State) (l : List Frame) (m : W32) (p : Option W64) : (s.setMask l m p).ms = s.ms := rfl
@[simp] theorem State.setMask_cs (s : State) (l : List Frame) (m : W32) (p : Option W64) : (s.setMask l m p).cs = s.cs := rfl
@[simp] theorem State.setMask_ls (s : State) (l : List Frame) (m : W32) (p : Option W64) : (s.setMask l m p).ls = s.ls := rfl
@[simp] theorem State.setMask_qs (s : State) (l : List Frame) (m : W32) (p : Option W64) : (s.setMask l m p).qs = s.qs := rfl
@[simp] theorem State.setMask_cx (s : State) (l : List Frame) (m : W32) (p : Option W64) : (s.setMask l m p).cx = s.cx := rfl
@[simp] theorem State.setMask_lk (s : State) (l : List Frame) (m : W32) (p : Option W64) : (s.setMask l m p).lk = s.lk := rfl
@[simp] theorem State.setMask_mg (s : State) (l : List Frame) (m : W32) (p : Option W64) : (s.setMask l m p).mg = s.mg := rfl

/-! closeIdem -/
@[simp] theorem State.closeIdem_others (s : State) : (s.closeIdem).others = s.others := rfl
@[simp] theorem State.closeIdem_turns (s : State) : (s.closeIdem).turns = s.turns := rfl
@[simp] theorem State.closeIdem_choices (s : State) : (s.closeIdem).choices = s.choices := rfl
@[simp] theorem State.closeIdem_pauses (s : State) : (s.closeIdem).pauses = s.pauses := rfl
@[simp] theorem State.closeIdem_moves (s : State) : (s.closeIdem).moves = s.moves := rfl
@[simp] theorem State.closeIdem_fresh (s : State) : (s.closeIdem).fresh = s.fresh := rfl
@[simp] theorem State.closeIdem_clock (s : State) : (s.closeIdem).clock = s.clock := rfl
@[simp] theorem State.closeIdem_nextGid (s : State) : (s.closeIdem).nextGid = s.nextGid := rfl
@[simp] theorem State.closeIdem_ms (s : State) : (s.closeIdem).ms = s.ms := rfl
@[simp] theorem State.closeIdem_cs (s : State) : (s.closeIdem).cs = s.cs := rfl
@[simp] theorem State.closeIdem_ls (s : State) : (s.closeIdem).ls = s.ls := rfl
@[simp] theorem State.closeIdem_qs (s : State) : (s.closeIdem).qs = s.qs := rfl
@[simp] theorem State.closeIdem_cx (s : State) : (s.closeIdem).cx = s.cx := rfl
@[simp] theorem State.closeIdem_lk (s : State) : (s.closeIdem).lk = s.lk := rfl
@[simp] theorem State.closeIdem_mg (s : State) : (s.closeIdem).mg = s.mg := rfl

/-! unreplayable -/
@[simp] theorem State.unreplayable_others (s : State) : (s.unreplayable).others = s.others := rfl
@[simp] theorem State.unreplayable_turns (s : State) : (s.unreplayable).turns = s.turns := rfl
@[simp] theorem State.unreplayable_choices (s : State) : (s.unreplayable).choices = s.choices := rfl
@[simp] theorem State.unreplayable_pauses (s : State) : (s.unreplayable).pauses = s.pauses := rfl
@[simp] theorem State.unreplayable_moves (s : State) : (s.unreplayable).moves = s.moves := rfl
@[simp] theorem State.unreplayable_fresh (s : State) : (s.unreplayable).fresh = s.fresh := rfl
@[simp] theorem State.unreplayable_clock (s : State) : (s.unreplayable).clock = s.clock := rfl
@[simp] theorem State.unreplayable_nextGid (s : State) : (s.unreplayable).nextGid = s.nextGid := rfl
@[simp] theorem State.unreplayable_ms (s : State) : (s.unreplayable).ms = s.ms := rfl
@[simp] theorem State.unreplayable_cs (s : State) : (s.unreplayable).cs = s.cs := rfl
@[simp] theorem State.unreplayable_ls (s : State) : (s.unreplayable).ls = s.ls := rfl
@[simp] theorem State.unreplayable_qs (s : State) : (s.unreplayable).qs = s.qs := rfl
@[simp] theorem State.unreplayable_cx (s : State) : (s.unreplayable).cx = s.cx := rfl
@[simp] theorem State.unreplayable_lk (s : State) : (s.unreplayable).lk = s.lk := rfl
@[simp] theorem State.unreplayable_mg (s : State) : (s.unreplayable).mg = s.mg := rfl

/-! writeTrap -/
@[simp] theorem State.writeTrap_others (s : State) (t : Trap) : (s.writeTrap t).others = s.others := rfl
@[simp] theorem State.writeTrap_turns (s : State) (t : Trap) : (s.writeTrap t).turns = s.turns := rfl
@[simp] theorem State.writeTrap_choices (s : State) (t : Trap) : (s.writeTrap t).choices = s.choices := rfl
@[simp] theorem State.writeTrap_pauses (s : State) (t : Trap) : (s.writeTrap t).pauses = s.pauses := rfl
@[simp] theorem State.writeTrap_moves (s : State) (t : Trap) : (s.writeTrap t).moves = s.moves := rfl
@[simp] theorem State.writeTrap_fresh (s : State) (t : Trap) : (s.writeTrap t).fresh = s.fresh := rfl
@[simp] theorem State.writeTrap_clock (s : State) (t : Trap) : (s.writeTrap t).clock = s.clock := rfl
@[simp] theorem State.writeTrap_nextGid (s : State) (t : Trap) : (s.writeTrap t).nextGid = s.nextGid := rfl
@[simp] theorem State.writeTrap_ms (s : State) (t : Trap) : (s.writeTrap t).ms = s.ms := rfl
@[simp] theorem State.writeTrap_cs (s : State) (t : Trap) : (s.writeTrap t).cs = s.cs := rfl
@[simp] theorem State.writeTrap_ls (s : State) (t : Trap) : (s.writeTrap t).ls = s.ls := rfl
@[simp] theorem State.writeTrap_qs (s : State) (t : Trap) : (s.writeTrap t).qs = s.qs := rfl
@[simp] theorem State.writeTrap_cx (s : State) (t : Trap) : (s.writeTrap t).cx = s.cx := rfl
@[simp] theorem State.writeTrap_lk (s : State) (t : Trap) : (s.writeTrap t).lk = s.lk := rfl
@[simp] theorem State.writeTrap_mg (s : State) (t : Trap) : (s.writeTrap t).mg = s.mg := rfl

/-! wait -/
@[simp] theorem State.wait_others (s : State) : (s.wait).others = s.others := rfl
@[simp] theorem State.wait_turns (s : State) : (s.wait).turns = s.turns := rfl
@[simp] theorem State.wait_choices (s : State) : (s.wait).choices = s.choices := rfl
@[simp] theorem State.wait_pauses (s : State) : (s.wait).pauses = s.pauses := rfl
@[simp] theorem State.wait_moves (s : State) : (s.wait).moves = s.moves := rfl
@[simp] theorem State.wait_fresh (s : State) : (s.wait).fresh = s.fresh := rfl
@[simp] theorem State.wait_clock (s : State) : (s.wait).clock = s.clock := rfl
@[simp] theorem State.wait_nextGid (s : State) : (s.wait).nextGid = s.nextGid := rfl
@[simp] theorem State.wait_ms (s : State) : (s.wait).ms = s.ms := rfl
@[simp] theorem State.wait_cs (s : State) : (s.wait).cs = s.cs := rfl
@[simp] theorem State.wait_ls (s : State) : (s.wait).ls = s.ls := rfl
@[simp] theorem State.wait_qs (s : State) : (s.wait).qs = s.qs := rfl
@[simp] theorem State.wait_cx (s : State) : (s.wait).cx = s.cx := rfl
@[simp] theorem State.wait_lk (s : State) : (s.wait).lk = s.lk := rfl
@[simp] theorem State.wait_mg (s : State) : (s.wait).mg = s.mg := rfl

/-! memWrite -/
@[simp] theorem State.memWrite_g (s : State) (k : Nat) (b : List Byte) : (s.memWrite k b).g = s.g := rfl
@[simp] theorem State.memWrite_others (s : State) (k : Nat) (b : List Byte) : (s.memWrite k b).others = s.others := rfl
@[simp] theorem State.memWrite_turns (s : State) (k : Nat) (b : List Byte) : (s.memWrite k b).turns = s.turns := rfl
@[simp] theorem State.memWrite_choices (s : State) (k : Nat) (b : List Byte) : (s.memWrite k b).choices = s.choices := rfl
@[simp] theorem State.memWrite_pauses (s : State) (k : Nat) (b : List Byte) : (s.memWrite k b).pauses = s.pauses := rfl
@[simp] theorem State.memWrite_moves (s : State) (k : Nat) (b : List Byte) : (s.memWrite k b).moves = s.moves := rfl
@[simp] theorem State.memWrite_fresh (s : State) (k : Nat) (b : List Byte) : (s.memWrite k b).fresh = s.fresh := rfl
@[simp] theorem State.memWrite_clock (s : State) (k : Nat) (b : List Byte) : (s.memWrite k b).clock = s.clock := rfl
@[simp] theorem State.memWrite_nextGid (s : State) (k : Nat) (b : List Byte) : (s.memWrite k b).nextGid = s.nextGid := rfl
@[simp] theorem State.memWrite_cs (s : State) (k : Nat) (b : List Byte) : (s.memWrite k b).cs = s.cs := rfl
@[simp] theorem State.memWrite_ls (s : State) (k : Nat) (b : List Byte) : (s.memWrite k b).ls = s.ls := rfl
@[simp] theorem State.memWrite_qs (s : State) (k : Nat) (b : List Byte) : (s.memWrite k b).qs = s.qs := rfl
@[simp] theorem State.memWrite_cx (s : State) (k : Nat) (b : List Byte) : (s.memWrite k b).cx = s.cx := rfl
@[simp] theorem State.memWrite_lk (s : State) (k : Nat) (b : List Byte) : (s.memWrite k b).lk = s.lk := rfl
@[simp] theorem State.memWrite_mg (s : State) (k : Nat) (b : List Byte) : (s.memWrite k b).mg = s.mg := rfl

/-! memPut -/
@[simp] theorem State.memPut_g (s : State) (k n v : Nat) : (s.memPut k n v).g = s.g := rfl
@[simp] theorem State.memPut_others (s : State) (k n v : Nat) : (s.memPut k n v).others = s.others := rfl
@[simp] theorem State.memPut_turns (s : State) (k n v : Nat) : (s.memPut k n v).turns = s.turns := rfl
@[simp] theorem State.memPut_choices (s : State) (k n v : Nat) : (s.memPut k n v).choices = s.choices := rfl
@[simp] theorem State.memPut_pauses (s : State) (k n v : Nat) : (s.memPut k n v).pauses = s.pauses := rfl
@[simp] theorem State.memPut_moves (s : State) (k n v : Nat) : (s.memPut k n v).moves = s.moves := rfl
@[simp] theorem State.memPut_fresh (s : State) (k n v : Nat) : (s.memPut k n v).fresh = s.fresh := rfl
@[simp] theorem State.memPut_clock (s : State) (k n v : Nat) : (s.memPut k n v).clock = s.clock := rfl
@[simp] theorem State.memPut_nextGid (s : State) (k n v : Nat) : (s.memPut k n v).nextGid = s.nextGid := rfl
@[simp] theorem State.memPut_cs (s : State) (k n v : Nat) : (s.memPut k n v).cs = s.cs := rfl
@[simp] theorem State.memPut_ls (s : State) (k n v : Nat) : (s.memPut k n v).ls = s.ls := rfl
@[simp] theorem State.memPut_qs (s : State) (k n v : Nat) : (s.memPut k n v).qs = s.qs := rfl
@[simp] theorem State.memPut_cx (s : State) (k n v : Nat) : (s.memPut k n v).cx = s.cx := rfl
@[simp] theorem State.memPut_lk (s : State) (k n v : Nat) : (s.memPut k n v).lk = s.lk := rfl
@[simp] theorem State.memPut_mg (s : State) (k n v : Nat) : (s.memPut k n v).mg = s.mg := rfl

/-! seen -/
@[simp] theorem State.seen_g (s : State) (k n : Nat) : (s.seen k n).g = s.g := rfl
@[simp] theorem State.seen_others (s : State) (k n : Nat) : (s.seen k n).others = s.others := rfl
@[simp] theorem State.seen_turns (s : State) (k n : Nat) : (s.seen k n).turns = s.turns := rfl
@[simp] theorem State.seen_choices (s : State) (k n : Nat) : (s.seen k n).choices = s.choices := rfl
@[simp] theorem State.seen_pauses (s : State) (k n : Nat) : (s.seen k n).pauses = s.pauses := rfl
@[simp] theorem State.seen_moves (s : State) (k n : Nat) : (s.seen k n).moves = s.moves := rfl
@[simp] theorem State.seen_fresh (s : State) (k n : Nat) : (s.seen k n).fresh = s.fresh := rfl
@[simp] theorem State.seen_clock (s : State) (k n : Nat) : (s.seen k n).clock = s.clock := rfl
@[simp] theorem State.seen_nextGid (s : State) (k n : Nat) : (s.seen k n).nextGid = s.nextGid := rfl
@[simp] theorem State.seen_cs (s : State) (k n : Nat) : (s.seen k n).cs = s.cs := rfl
@[simp] theorem State.seen_ls (s : State) (k n : Nat) : (s.seen k n).ls = s.ls := rfl
@[simp] theorem State.seen_qs (s : State) (k n : Nat) : (s.seen k n).qs = s.qs := rfl
@[simp] theorem State.seen_cx (s : State) (k n : Nat) : (s.seen k n).cx = s.cx := rfl
@[simp] theorem State.seen_lk (s : State) (k n : Nat) : (s.seen k n).lk = s.lk := rfl
@[simp] theorem State.seen_mg (s : State) (k n : Nat) : (s.seen k n).mg = s.mg := rfl

/-! readWindow -/
@[simp] theorem State.readWindow_g (s : State) (n : Nat) : (s.readWindow n).g = s.g := rfl
@[simp] theorem State.readWindow_others (s : State) (n : Nat) : (s.readWindow n).others = s.others := rfl
@[simp] theorem State.readWindow_turns (s : State) (n : Nat) : (s.readWindow n).turns = s.turns := rfl
@[simp] theorem State.readWindow_choices (s : State) (n : Nat) : (s.readWindow n).choices = s.choices := rfl
@[simp] theorem State.readWindow_pauses (s : State) (n : Nat) : (s.readWindow n).pauses = s.pauses := rfl
@[simp] theorem State.readWindow_moves (s : State) (n : Nat) : (s.readWindow n).moves = s.moves := rfl
@[simp] theorem State.readWindow_fresh (s : State) (n : Nat) : (s.readWindow n).fresh = s.fresh := rfl
@[simp] theorem State.readWindow_clock (s : State) (n : Nat) : (s.readWindow n).clock = s.clock := rfl
@[simp] theorem State.readWindow_nextGid (s : State) (n : Nat) : (s.readWindow n).nextGid = s.nextGid := rfl
@[simp] theorem State.readWindow_cs (s : State) (n : Nat) : (s.readWindow n).cs = s.cs := rfl
@[simp] theorem State.readWindow_ls (s : State) (n : Nat) : (s.readWindow n).ls = s.ls := rfl
@[simp] theorem State.readWindow_qs (s : State) (n : Nat) : (s.readWindow n).qs = s.qs := rfl
@[simp] theorem State.readWindow_cx (s : State) (n : Nat) : (s.readWindow n).cx = s.cx := rfl
@[simp] theorem State.readWindow_lk (s : State) (n : Nat) : (s.readWindow n).lk = s.lk := rfl
@[simp] theorem State.readWindow_mg (s : State) (n : Nat) : (s.readWindow n).mg = s.mg := rfl

/-! hold -/
@[simp] theorem State.hold_g (s : State) (t : Turn) : (s.hold t).g = s.g := rfl
@[simp] theorem State.hold_others (s : State) (t : Turn) : (s.hold t).others = s.others := rfl
@[simp] theorem State.hold_turns (s : State) (t : Turn) : (s.hold t).turns = s.turns := rfl
@[simp] theorem State.hold_choices (s : State) (t : Turn) : (s.hold t).choices = s.choices := rfl
@[simp] theorem State.hold_pauses (s : State) (t : Turn) : (s.hold t).pauses = s.pauses := rfl
@[simp] theorem State.hold_moves (s : State) (t : Turn) : (s.hold t).moves = s.moves := rfl
@[simp] theorem State.hold_fresh (s : State) (t : Turn) : (s.hold t).fresh = s.fresh := rfl
@[simp] theorem State.hold_clock (s : State) (t : Turn) : (s.hold t).clock = s.clock := rfl
@[simp] theorem State.hold_nextGid (s : State) (t : Turn) : (s.hold t).nextGid = s.nextGid := rfl
@[simp] theorem State.hold_ms (s : State) (t : Turn) : (s.hold t).ms = s.ms := rfl
@[simp] theorem State.hold_cs (s : State) (t : Turn) : (s.hold t).cs = s.cs := rfl
@[simp] theorem State.hold_ls (s : State) (t : Turn) : (s.hold t).ls = s.ls := rfl
@[simp] theorem State.hold_qs (s : State) (t : Turn) : (s.hold t).qs = s.qs := rfl
@[simp] theorem State.hold_cx (s : State) (t : Turn) : (s.hold t).cx = s.cx := rfl
@[simp] theorem State.hold_lk (s : State) (t : Turn) : (s.hold t).lk = s.lk := rfl

/-! mapTile -/
@[simp] theorem State.mapTile_g (s : State) (core idx : Nat) (f : Tile → Tile) : (s.mapTile core idx f).g = s.g := rfl
@[simp] theorem State.mapTile_others (s : State) (core idx : Nat) (f : Tile → Tile) : (s.mapTile core idx f).others = s.others := rfl
@[simp] theorem State.mapTile_turns (s : State) (core idx : Nat) (f : Tile → Tile) : (s.mapTile core idx f).turns = s.turns := rfl
@[simp] theorem State.mapTile_choices (s : State) (core idx : Nat) (f : Tile → Tile) : (s.mapTile core idx f).choices = s.choices := rfl
@[simp] theorem State.mapTile_pauses (s : State) (core idx : Nat) (f : Tile → Tile) : (s.mapTile core idx f).pauses = s.pauses := rfl
@[simp] theorem State.mapTile_moves (s : State) (core idx : Nat) (f : Tile → Tile) : (s.mapTile core idx f).moves = s.moves := rfl
@[simp] theorem State.mapTile_fresh (s : State) (core idx : Nat) (f : Tile → Tile) : (s.mapTile core idx f).fresh = s.fresh := rfl
@[simp] theorem State.mapTile_clock (s : State) (core idx : Nat) (f : Tile → Tile) : (s.mapTile core idx f).clock = s.clock := rfl
@[simp] theorem State.mapTile_nextGid (s : State) (core idx : Nat) (f : Tile → Tile) : (s.mapTile core idx f).nextGid = s.nextGid := rfl
@[simp] theorem State.mapTile_ms (s : State) (core idx : Nat) (f : Tile → Tile) : (s.mapTile core idx f).ms = s.ms := rfl
@[simp] theorem State.mapTile_ls (s : State) (core idx : Nat) (f : Tile → Tile) : (s.mapTile core idx f).ls = s.ls := rfl
@[simp] theorem State.mapTile_qs (s : State) (core idx : Nat) (f : Tile → Tile) : (s.mapTile core idx f).qs = s.qs := rfl
@[simp] theorem State.mapTile_cx (s : State) (core idx : Nat) (f : Tile → Tile) : (s.mapTile core idx f).cx = s.cx := rfl
@[simp] theorem State.mapTile_lk (s : State) (core idx : Nat) (f : Tile → Tile) : (s.mapTile core idx f).lk = s.lk := rfl
@[simp] theorem State.mapTile_mg (s : State) (core idx : Nat) (f : Tile → Tile) : (s.mapTile core idx f).mg = s.mg := rfl

/-! dropTile -/
@[simp] theorem State.dropTile_g (s : State) (core idx : Nat) : (s.dropTile core idx).g = s.g := rfl
@[simp] theorem State.dropTile_others (s : State) (core idx : Nat) : (s.dropTile core idx).others = s.others := rfl
@[simp] theorem State.dropTile_turns (s : State) (core idx : Nat) : (s.dropTile core idx).turns = s.turns := rfl
@[simp] theorem State.dropTile_choices (s : State) (core idx : Nat) : (s.dropTile core idx).choices = s.choices := rfl
@[simp] theorem State.dropTile_pauses (s : State) (core idx : Nat) : (s.dropTile core idx).pauses = s.pauses := rfl
@[simp] theorem State.dropTile_moves (s : State) (core idx : Nat) : (s.dropTile core idx).moves = s.moves := rfl
@[simp] theorem State.dropTile_fresh (s : State) (core idx : Nat) : (s.dropTile core idx).fresh = s.fresh := rfl
@[simp] theorem State.dropTile_clock (s : State) (core idx : Nat) : (s.dropTile core idx).clock = s.clock := rfl
@[simp] theorem State.dropTile_nextGid (s : State) (core idx : Nat) : (s.dropTile core idx).nextGid = s.nextGid := rfl
@[simp] theorem State.dropTile_ms (s : State) (core idx : Nat) : (s.dropTile core idx).ms = s.ms := rfl
@[simp] theorem State.dropTile_ls (s : State) (core idx : Nat) : (s.dropTile core idx).ls = s.ls := rfl
@[simp] theorem State.dropTile_qs (s : State) (core idx : Nat) : (s.dropTile core idx).qs = s.qs := rfl
@[simp] theorem State.dropTile_cx (s : State) (core idx : Nat) : (s.dropTile core idx).cx = s.cx := rfl
@[simp] theorem State.dropTile_lk (s : State) (core idx : Nat) : (s.dropTile core idx).lk = s.lk := rfl
@[simp] theorem State.dropTile_mg (s : State) (core idx : Nat) : (s.dropTile core idx).mg = s.mg := rfl

/-! mapDraw -/
@[simp] theorem State.mapDraw_g (s : State) (id : Nat) (f : Draw → Draw) : (s.mapDraw id f).g = s.g := rfl
@[simp] theorem State.mapDraw_others (s : State) (id : Nat) (f : Draw → Draw) : (s.mapDraw id f).others = s.others := rfl
@[simp] theorem State.mapDraw_turns (s : State) (id : Nat) (f : Draw → Draw) : (s.mapDraw id f).turns = s.turns := rfl
@[simp] theorem State.mapDraw_choices (s : State) (id : Nat) (f : Draw → Draw) : (s.mapDraw id f).choices = s.choices := rfl
@[simp] theorem State.mapDraw_pauses (s : State) (id : Nat) (f : Draw → Draw) : (s.mapDraw id f).pauses = s.pauses := rfl
@[simp] theorem State.mapDraw_moves (s : State) (id : Nat) (f : Draw → Draw) : (s.mapDraw id f).moves = s.moves := rfl
@[simp] theorem State.mapDraw_fresh (s : State) (id : Nat) (f : Draw → Draw) : (s.mapDraw id f).fresh = s.fresh := rfl
@[simp] theorem State.mapDraw_clock (s : State) (id : Nat) (f : Draw → Draw) : (s.mapDraw id f).clock = s.clock := rfl
@[simp] theorem State.mapDraw_nextGid (s : State) (id : Nat) (f : Draw → Draw) : (s.mapDraw id f).nextGid = s.nextGid := rfl
@[simp] theorem State.mapDraw_ms (s : State) (id : Nat) (f : Draw → Draw) : (s.mapDraw id f).ms = s.ms := rfl
@[simp] theorem State.mapDraw_ls (s : State) (id : Nat) (f : Draw → Draw) : (s.mapDraw id f).ls = s.ls := rfl
@[simp] theorem State.mapDraw_qs (s : State) (id : Nat) (f : Draw → Draw) : (s.mapDraw id f).qs = s.qs := rfl
@[simp] theorem State.mapDraw_cx (s : State) (id : Nat) (f : Draw → Draw) : (s.mapDraw id f).cx = s.cx := rfl
@[simp] theorem State.mapDraw_lk (s : State) (id : Nat) (f : Draw → Draw) : (s.mapDraw id f).lk = s.lk := rfl
@[simp] theorem State.mapDraw_mg (s : State) (id : Nat) (f : Draw → Draw) : (s.mapDraw id f).mg = s.mg := rfl

/-! freeBar -/
@[simp] theorem State.freeBar_g (s : State) (core idx : Nat) : (s.freeBar core idx).g = s.g := rfl
@[simp] theorem State.freeBar_others (s : State) (core idx : Nat) : (s.freeBar core idx).others = s.others := rfl
@[simp] theorem State.freeBar_turns (s : State) (core idx : Nat) : (s.freeBar core idx).turns = s.turns := rfl
@[simp] theorem State.freeBar_choices (s : State) (core idx : Nat) : (s.freeBar core idx).choices = s.choices := rfl
@[simp] theorem State.freeBar_pauses (s : State) (core idx : Nat) : (s.freeBar core idx).pauses = s.pauses := rfl
@[simp] theorem State.freeBar_moves (s : State) (core idx : Nat) : (s.freeBar core idx).moves = s.moves := rfl
@[simp] theorem State.freeBar_fresh (s : State) (core idx : Nat) : (s.freeBar core idx).fresh = s.fresh := rfl
@[simp] theorem State.freeBar_clock (s : State) (core idx : Nat) : (s.freeBar core idx).clock = s.clock := rfl
@[simp] theorem State.freeBar_nextGid (s : State) (core idx : Nat) : (s.freeBar core idx).nextGid = s.nextGid := rfl
@[simp] theorem State.freeBar_ms (s : State) (core idx : Nat) : (s.freeBar core idx).ms = s.ms := rfl
@[simp] theorem State.freeBar_ls (s : State) (core idx : Nat) : (s.freeBar core idx).ls = s.ls := rfl
@[simp] theorem State.freeBar_qs (s : State) (core idx : Nat) : (s.freeBar core idx).qs = s.qs := rfl
@[simp] theorem State.freeBar_cx (s : State) (core idx : Nat) : (s.freeBar core idx).cx = s.cx := rfl
@[simp] theorem State.freeBar_lk (s : State) (core idx : Nat) : (s.freeBar core idx).lk = s.lk := rfl
@[simp] theorem State.freeBar_mg (s : State) (core idx : Nat) : (s.freeBar core idx).mg = s.mg := rfl

/-! mapPool -/
@[simp] theorem State.mapPool_g (s : State) (die entry : Nat) (f : PoolEntry → PoolEntry) : (s.mapPool die entry f).g = s.g := rfl
@[simp] theorem State.mapPool_others (s : State) (die entry : Nat) (f : PoolEntry → PoolEntry) : (s.mapPool die entry f).others = s.others := rfl
@[simp] theorem State.mapPool_turns (s : State) (die entry : Nat) (f : PoolEntry → PoolEntry) : (s.mapPool die entry f).turns = s.turns := rfl
@[simp] theorem State.mapPool_choices (s : State) (die entry : Nat) (f : PoolEntry → PoolEntry) : (s.mapPool die entry f).choices = s.choices := rfl
@[simp] theorem State.mapPool_pauses (s : State) (die entry : Nat) (f : PoolEntry → PoolEntry) : (s.mapPool die entry f).pauses = s.pauses := rfl
@[simp] theorem State.mapPool_moves (s : State) (die entry : Nat) (f : PoolEntry → PoolEntry) : (s.mapPool die entry f).moves = s.moves := rfl
@[simp] theorem State.mapPool_fresh (s : State) (die entry : Nat) (f : PoolEntry → PoolEntry) : (s.mapPool die entry f).fresh = s.fresh := rfl
@[simp] theorem State.mapPool_clock (s : State) (die entry : Nat) (f : PoolEntry → PoolEntry) : (s.mapPool die entry f).clock = s.clock := rfl
@[simp] theorem State.mapPool_nextGid (s : State) (die entry : Nat) (f : PoolEntry → PoolEntry) : (s.mapPool die entry f).nextGid = s.nextGid := rfl
@[simp] theorem State.mapPool_ms (s : State) (die entry : Nat) (f : PoolEntry → PoolEntry) : (s.mapPool die entry f).ms = s.ms := rfl
@[simp] theorem State.mapPool_cs (s : State) (die entry : Nat) (f : PoolEntry → PoolEntry) : (s.mapPool die entry f).cs = s.cs := rfl
@[simp] theorem State.mapPool_qs (s : State) (die entry : Nat) (f : PoolEntry → PoolEntry) : (s.mapPool die entry f).qs = s.qs := rfl
@[simp] theorem State.mapPool_cx (s : State) (die entry : Nat) (f : PoolEntry → PoolEntry) : (s.mapPool die entry f).cx = s.cx := rfl
@[simp] theorem State.mapPool_lk (s : State) (die entry : Nat) (f : PoolEntry → PoolEntry) : (s.mapPool die entry f).lk = s.lk := rfl
@[simp] theorem State.mapPool_mg (s : State) (die entry : Nat) (f : PoolEntry → PoolEntry) : (s.mapPool die entry f).mg = s.mg := rfl

/-! mapRun -/
@[simp] theorem State.mapRun_g (s : State) (id : Nat) (f : PacketRun → PacketRun) : (s.mapRun id f).g = s.g := rfl
@[simp] theorem State.mapRun_others (s : State) (id : Nat) (f : PacketRun → PacketRun) : (s.mapRun id f).others = s.others := rfl
@[simp] theorem State.mapRun_turns (s : State) (id : Nat) (f : PacketRun → PacketRun) : (s.mapRun id f).turns = s.turns := rfl
@[simp] theorem State.mapRun_choices (s : State) (id : Nat) (f : PacketRun → PacketRun) : (s.mapRun id f).choices = s.choices := rfl
@[simp] theorem State.mapRun_pauses (s : State) (id : Nat) (f : PacketRun → PacketRun) : (s.mapRun id f).pauses = s.pauses := rfl
@[simp] theorem State.mapRun_moves (s : State) (id : Nat) (f : PacketRun → PacketRun) : (s.mapRun id f).moves = s.moves := rfl
@[simp] theorem State.mapRun_fresh (s : State) (id : Nat) (f : PacketRun → PacketRun) : (s.mapRun id f).fresh = s.fresh := rfl
@[simp] theorem State.mapRun_clock (s : State) (id : Nat) (f : PacketRun → PacketRun) : (s.mapRun id f).clock = s.clock := rfl
@[simp] theorem State.mapRun_nextGid (s : State) (id : Nat) (f : PacketRun → PacketRun) : (s.mapRun id f).nextGid = s.nextGid := rfl
@[simp] theorem State.mapRun_ms (s : State) (id : Nat) (f : PacketRun → PacketRun) : (s.mapRun id f).ms = s.ms := rfl
@[simp] theorem State.mapRun_cs (s : State) (id : Nat) (f : PacketRun → PacketRun) : (s.mapRun id f).cs = s.cs := rfl
@[simp] theorem State.mapRun_ls (s : State) (id : Nat) (f : PacketRun → PacketRun) : (s.mapRun id f).ls = s.ls := rfl
@[simp] theorem State.mapRun_cx (s : State) (id : Nat) (f : PacketRun → PacketRun) : (s.mapRun id f).cx = s.cx := rfl
@[simp] theorem State.mapRun_lk (s : State) (id : Nat) (f : PacketRun → PacketRun) : (s.mapRun id f).lk = s.lk := rfl
@[simp] theorem State.mapRun_mg (s : State) (id : Nat) (f : PacketRun → PacketRun) : (s.mapRun id f).mg = s.mg := rfl

/-! mapCtx -/
@[simp] theorem State.mapCtx_g (s : State) (n : Nat) (f : Ctx → Ctx) : (s.mapCtx n f).g = s.g := rfl
@[simp] theorem State.mapCtx_others (s : State) (n : Nat) (f : Ctx → Ctx) : (s.mapCtx n f).others = s.others := rfl
@[simp] theorem State.mapCtx_turns (s : State) (n : Nat) (f : Ctx → Ctx) : (s.mapCtx n f).turns = s.turns := rfl
@[simp] theorem State.mapCtx_choices (s : State) (n : Nat) (f : Ctx → Ctx) : (s.mapCtx n f).choices = s.choices := rfl
@[simp] theorem State.mapCtx_pauses (s : State) (n : Nat) (f : Ctx → Ctx) : (s.mapCtx n f).pauses = s.pauses := rfl
@[simp] theorem State.mapCtx_moves (s : State) (n : Nat) (f : Ctx → Ctx) : (s.mapCtx n f).moves = s.moves := rfl
@[simp] theorem State.mapCtx_fresh (s : State) (n : Nat) (f : Ctx → Ctx) : (s.mapCtx n f).fresh = s.fresh := rfl
@[simp] theorem State.mapCtx_clock (s : State) (n : Nat) (f : Ctx → Ctx) : (s.mapCtx n f).clock = s.clock := rfl
@[simp] theorem State.mapCtx_nextGid (s : State) (n : Nat) (f : Ctx → Ctx) : (s.mapCtx n f).nextGid = s.nextGid := rfl
@[simp] theorem State.mapCtx_ms (s : State) (n : Nat) (f : Ctx → Ctx) : (s.mapCtx n f).ms = s.ms := rfl
@[simp] theorem State.mapCtx_cs (s : State) (n : Nat) (f : Ctx → Ctx) : (s.mapCtx n f).cs = s.cs := rfl
@[simp] theorem State.mapCtx_ls (s : State) (n : Nat) (f : Ctx → Ctx) : (s.mapCtx n f).ls = s.ls := rfl
@[simp] theorem State.mapCtx_qs (s : State) (n : Nat) (f : Ctx → Ctx) : (s.mapCtx n f).qs = s.qs := rfl
@[simp] theorem State.mapCtx_lk (s : State) (n : Nat) (f : Ctx → Ctx) : (s.mapCtx n f).lk = s.lk := rfl
@[simp] theorem State.mapCtx_mg (s : State) (n : Nat) (f : Ctx → Ctx) : (s.mapCtx n f).mg = s.mg := rfl

/-! mapPart -/
@[simp] theorem State.mapPart_g (s : State) (n : Nat) (f : Part → Part) : (s.mapPart n f).g = s.g := rfl
@[simp] theorem State.mapPart_others (s : State) (n : Nat) (f : Part → Part) : (s.mapPart n f).others = s.others := rfl
@[simp] theorem State.mapPart_turns (s : State) (n : Nat) (f : Part → Part) : (s.mapPart n f).turns = s.turns := rfl
@[simp] theorem State.mapPart_choices (s : State) (n : Nat) (f : Part → Part) : (s.mapPart n f).choices = s.choices := rfl
@[simp] theorem State.mapPart_pauses (s : State) (n : Nat) (f : Part → Part) : (s.mapPart n f).pauses = s.pauses := rfl
@[simp] theorem State.mapPart_moves (s : State) (n : Nat) (f : Part → Part) : (s.mapPart n f).moves = s.moves := rfl
@[simp] theorem State.mapPart_fresh (s : State) (n : Nat) (f : Part → Part) : (s.mapPart n f).fresh = s.fresh := rfl
@[simp] theorem State.mapPart_clock (s : State) (n : Nat) (f : Part → Part) : (s.mapPart n f).clock = s.clock := rfl
@[simp] theorem State.mapPart_nextGid (s : State) (n : Nat) (f : Part → Part) : (s.mapPart n f).nextGid = s.nextGid := rfl
@[simp] theorem State.mapPart_ms (s : State) (n : Nat) (f : Part → Part) : (s.mapPart n f).ms = s.ms := rfl
@[simp] theorem State.mapPart_cs (s : State) (n : Nat) (f : Part → Part) : (s.mapPart n f).cs = s.cs := rfl
@[simp] theorem State.mapPart_ls (s : State) (n : Nat) (f : Part → Part) : (s.mapPart n f).ls = s.ls := rfl
@[simp] theorem State.mapPart_qs (s : State) (n : Nat) (f : Part → Part) : (s.mapPart n f).qs = s.qs := rfl
@[simp] theorem State.mapPart_lk (s : State) (n : Nat) (f : Part → Part) : (s.mapPart n f).lk = s.lk := rfl
@[simp] theorem State.mapPart_mg (s : State) (n : Nat) (f : Part → Part) : (s.mapPart n f).mg = s.mg := rfl

/-! dropRecord -/
@[simp] theorem State.dropRecord_g (s : State) (id : Nat) : (s.dropRecord id).g = s.g := rfl
@[simp] theorem State.dropRecord_others (s : State) (id : Nat) : (s.dropRecord id).others = s.others := rfl
@[simp] theorem State.dropRecord_turns (s : State) (id : Nat) : (s.dropRecord id).turns = s.turns := rfl
@[simp] theorem State.dropRecord_choices (s : State) (id : Nat) : (s.dropRecord id).choices = s.choices := rfl
@[simp] theorem State.dropRecord_pauses (s : State) (id : Nat) : (s.dropRecord id).pauses = s.pauses := rfl
@[simp] theorem State.dropRecord_moves (s : State) (id : Nat) : (s.dropRecord id).moves = s.moves := rfl
@[simp] theorem State.dropRecord_fresh (s : State) (id : Nat) : (s.dropRecord id).fresh = s.fresh := rfl
@[simp] theorem State.dropRecord_clock (s : State) (id : Nat) : (s.dropRecord id).clock = s.clock := rfl
@[simp] theorem State.dropRecord_nextGid (s : State) (id : Nat) : (s.dropRecord id).nextGid = s.nextGid := rfl
@[simp] theorem State.dropRecord_ms (s : State) (id : Nat) : (s.dropRecord id).ms = s.ms := rfl
@[simp] theorem State.dropRecord_cs (s : State) (id : Nat) : (s.dropRecord id).cs = s.cs := rfl
@[simp] theorem State.dropRecord_ls (s : State) (id : Nat) : (s.dropRecord id).ls = s.ls := rfl
@[simp] theorem State.dropRecord_qs (s : State) (id : Nat) : (s.dropRecord id).qs = s.qs := rfl
@[simp] theorem State.dropRecord_lk (s : State) (id : Nat) : (s.dropRecord id).lk = s.lk := rfl
@[simp] theorem State.dropRecord_mg (s : State) (id : Nat) : (s.dropRecord id).mg = s.mg := rfl

/-! detach -/
@[simp] theorem State.detach_g (s : State) (gid : Nat) : (s.detach gid).g = s.g := rfl
@[simp] theorem State.detach_others (s : State) (gid : Nat) : (s.detach gid).others = s.others := rfl
@[simp] theorem State.detach_turns (s : State) (gid : Nat) : (s.detach gid).turns = s.turns := rfl
@[simp] theorem State.detach_choices (s : State) (gid : Nat) : (s.detach gid).choices = s.choices := rfl
@[simp] theorem State.detach_pauses (s : State) (gid : Nat) : (s.detach gid).pauses = s.pauses := rfl
@[simp] theorem State.detach_moves (s : State) (gid : Nat) : (s.detach gid).moves = s.moves := rfl
@[simp] theorem State.detach_fresh (s : State) (gid : Nat) : (s.detach gid).fresh = s.fresh := rfl
@[simp] theorem State.detach_clock (s : State) (gid : Nat) : (s.detach gid).clock = s.clock := rfl
@[simp] theorem State.detach_nextGid (s : State) (gid : Nat) : (s.detach gid).nextGid = s.nextGid := rfl
@[simp] theorem State.detach_ms (s : State) (gid : Nat) : (s.detach gid).ms = s.ms := rfl
@[simp] theorem State.detach_cs (s : State) (gid : Nat) : (s.detach gid).cs = s.cs := rfl
@[simp] theorem State.detach_ls (s : State) (gid : Nat) : (s.detach gid).ls = s.ls := rfl
@[simp] theorem State.detach_qs (s : State) (gid : Nat) : (s.detach gid).qs = s.qs := rfl
@[simp] theorem State.detach_lk (s : State) (gid : Nat) : (s.detach gid).lk = s.lk := rfl
@[simp] theorem State.detach_mg (s : State) (gid : Nat) : (s.detach gid).mg = s.mg := rfl

/-! mapXfer -/
@[simp] theorem State.mapXfer_g (s : State) (id : Nat) (f : Xfer → Xfer) : (s.mapXfer id f).g = s.g := rfl
@[simp] theorem State.mapXfer_others (s : State) (id : Nat) (f : Xfer → Xfer) : (s.mapXfer id f).others = s.others := rfl
@[simp] theorem State.mapXfer_turns (s : State) (id : Nat) (f : Xfer → Xfer) : (s.mapXfer id f).turns = s.turns := rfl
@[simp] theorem State.mapXfer_choices (s : State) (id : Nat) (f : Xfer → Xfer) : (s.mapXfer id f).choices = s.choices := rfl
@[simp] theorem State.mapXfer_pauses (s : State) (id : Nat) (f : Xfer → Xfer) : (s.mapXfer id f).pauses = s.pauses := rfl
@[simp] theorem State.mapXfer_moves (s : State) (id : Nat) (f : Xfer → Xfer) : (s.mapXfer id f).moves = s.moves := rfl
@[simp] theorem State.mapXfer_fresh (s : State) (id : Nat) (f : Xfer → Xfer) : (s.mapXfer id f).fresh = s.fresh := rfl
@[simp] theorem State.mapXfer_clock (s : State) (id : Nat) (f : Xfer → Xfer) : (s.mapXfer id f).clock = s.clock := rfl
@[simp] theorem State.mapXfer_nextGid (s : State) (id : Nat) (f : Xfer → Xfer) : (s.mapXfer id f).nextGid = s.nextGid := rfl
@[simp] theorem State.mapXfer_ms (s : State) (id : Nat) (f : Xfer → Xfer) : (s.mapXfer id f).ms = s.ms := rfl
@[simp] theorem State.mapXfer_cs (s : State) (id : Nat) (f : Xfer → Xfer) : (s.mapXfer id f).cs = s.cs := rfl
@[simp] theorem State.mapXfer_ls (s : State) (id : Nat) (f : Xfer → Xfer) : (s.mapXfer id f).ls = s.ls := rfl
@[simp] theorem State.mapXfer_qs (s : State) (id : Nat) (f : Xfer → Xfer) : (s.mapXfer id f).qs = s.qs := rfl
@[simp] theorem State.mapXfer_cx (s : State) (id : Nat) (f : Xfer → Xfer) : (s.mapXfer id f).cx = s.cx := rfl
@[simp] theorem State.mapXfer_mg (s : State) (id : Nat) (f : Xfer → Xfer) : (s.mapXfer id f).mg = s.mg := rfl

/-! dropXfer -/
@[simp] theorem State.dropXfer_g (s : State) (id : Nat) : (s.dropXfer id).g = s.g := rfl
@[simp] theorem State.dropXfer_others (s : State) (id : Nat) : (s.dropXfer id).others = s.others := rfl
@[simp] theorem State.dropXfer_turns (s : State) (id : Nat) : (s.dropXfer id).turns = s.turns := rfl
@[simp] theorem State.dropXfer_choices (s : State) (id : Nat) : (s.dropXfer id).choices = s.choices := rfl
@[simp] theorem State.dropXfer_pauses (s : State) (id : Nat) : (s.dropXfer id).pauses = s.pauses := rfl
@[simp] theorem State.dropXfer_moves (s : State) (id : Nat) : (s.dropXfer id).moves = s.moves := rfl
@[simp] theorem State.dropXfer_fresh (s : State) (id : Nat) : (s.dropXfer id).fresh = s.fresh := rfl
@[simp] theorem State.dropXfer_clock (s : State) (id : Nat) : (s.dropXfer id).clock = s.clock := rfl
@[simp] theorem State.dropXfer_nextGid (s : State) (id : Nat) : (s.dropXfer id).nextGid = s.nextGid := rfl
@[simp] theorem State.dropXfer_ms (s : State) (id : Nat) : (s.dropXfer id).ms = s.ms := rfl
@[simp] theorem State.dropXfer_cs (s : State) (id : Nat) : (s.dropXfer id).cs = s.cs := rfl
@[simp] theorem State.dropXfer_ls (s : State) (id : Nat) : (s.dropXfer id).ls = s.ls := rfl
@[simp] theorem State.dropXfer_qs (s : State) (id : Nat) : (s.dropXfer id).qs = s.qs := rfl
@[simp] theorem State.dropXfer_cx (s : State) (id : Nat) : (s.dropXfer id).cx = s.cx := rfl
@[simp] theorem State.dropXfer_mg (s : State) (id : Nat) : (s.dropXfer id).mg = s.mg := rfl

/-! mapPort -/
@[simp] theorem State.mapPort_g (s : State) (p : Nat) (f : PortState → PortState) : (s.mapPort p f).g = s.g := rfl
@[simp] theorem State.mapPort_others (s : State) (p : Nat) (f : PortState → PortState) : (s.mapPort p f).others = s.others := rfl
@[simp] theorem State.mapPort_turns (s : State) (p : Nat) (f : PortState → PortState) : (s.mapPort p f).turns = s.turns := rfl
@[simp] theorem State.mapPort_choices (s : State) (p : Nat) (f : PortState → PortState) : (s.mapPort p f).choices = s.choices := rfl
@[simp] theorem State.mapPort_pauses (s : State) (p : Nat) (f : PortState → PortState) : (s.mapPort p f).pauses = s.pauses := rfl
@[simp] theorem State.mapPort_moves (s : State) (p : Nat) (f : PortState → PortState) : (s.mapPort p f).moves = s.moves := rfl
@[simp] theorem State.mapPort_fresh (s : State) (p : Nat) (f : PortState → PortState) : (s.mapPort p f).fresh = s.fresh := rfl
@[simp] theorem State.mapPort_clock (s : State) (p : Nat) (f : PortState → PortState) : (s.mapPort p f).clock = s.clock := rfl
@[simp] theorem State.mapPort_nextGid (s : State) (p : Nat) (f : PortState → PortState) : (s.mapPort p f).nextGid = s.nextGid := rfl
@[simp] theorem State.mapPort_ms (s : State) (p : Nat) (f : PortState → PortState) : (s.mapPort p f).ms = s.ms := rfl
@[simp] theorem State.mapPort_cs (s : State) (p : Nat) (f : PortState → PortState) : (s.mapPort p f).cs = s.cs := rfl
@[simp] theorem State.mapPort_ls (s : State) (p : Nat) (f : PortState → PortState) : (s.mapPort p f).ls = s.ls := rfl
@[simp] theorem State.mapPort_qs (s : State) (p : Nat) (f : PortState → PortState) : (s.mapPort p f).qs = s.qs := rfl
@[simp] theorem State.mapPort_cx (s : State) (p : Nat) (f : PortState → PortState) : (s.mapPort p f).cx = s.cx := rfl
@[simp] theorem State.mapPort_mg (s : State) (p : Nat) (f : PortState → PortState) : (s.mapPort p f).mg = s.mg := rfl

/-! mapHeads -/
@[simp] theorem State.mapHeads_g (s : State) (p : Part) (f : Head → Head) : (s.mapHeads p f).g = s.g := rfl
@[simp] theorem State.mapHeads_others (s : State) (p : Part) (f : Head → Head) : (s.mapHeads p f).others = s.others := rfl
@[simp] theorem State.mapHeads_turns (s : State) (p : Part) (f : Head → Head) : (s.mapHeads p f).turns = s.turns := rfl
@[simp] theorem State.mapHeads_choices (s : State) (p : Part) (f : Head → Head) : (s.mapHeads p f).choices = s.choices := rfl
@[simp] theorem State.mapHeads_pauses (s : State) (p : Part) (f : Head → Head) : (s.mapHeads p f).pauses = s.pauses := rfl
@[simp] theorem State.mapHeads_moves (s : State) (p : Part) (f : Head → Head) : (s.mapHeads p f).moves = s.moves := rfl
@[simp] theorem State.mapHeads_fresh (s : State) (p : Part) (f : Head → Head) : (s.mapHeads p f).fresh = s.fresh := rfl
@[simp] theorem State.mapHeads_clock (s : State) (p : Part) (f : Head → Head) : (s.mapHeads p f).clock = s.clock := rfl
@[simp] theorem State.mapHeads_nextGid (s : State) (p : Part) (f : Head → Head) : (s.mapHeads p f).nextGid = s.nextGid := rfl
@[simp] theorem State.mapHeads_ms (s : State) (p : Part) (f : Head → Head) : (s.mapHeads p f).ms = s.ms := rfl
@[simp] theorem State.mapHeads_cs (s : State) (p : Part) (f : Head → Head) : (s.mapHeads p f).cs = s.cs := rfl
@[simp] theorem State.mapHeads_ls (s : State) (p : Part) (f : Head → Head) : (s.mapHeads p f).ls = s.ls := rfl
@[simp] theorem State.mapHeads_qs (s : State) (p : Part) (f : Head → Head) : (s.mapHeads p f).qs = s.qs := rfl
@[simp] theorem State.mapHeads_cx (s : State) (p : Part) (f : Head → Head) : (s.mapHeads p f).cx = s.cx := rfl
@[simp] theorem State.mapHeads_lk (s : State) (p : Part) (f : Head → Head) : (s.mapHeads p f).lk = s.lk := rfl

/-! Within the group: flags and the mask state. -/
@[simp] theorem State.orF_r_s (s : State) (x : BitVec 5) : (s.orF x).g.r.s = s.g.r.s := rfl
@[simp] theorem State.orF_r_v (s : State) (x : BitVec 5) : (s.orF x).g.r.v = s.g.r.v := rfl
@[simp] theorem State.orF_r_p (s : State) (x : BitVec 5) : (s.orF x).g.r.p = s.g.r.p := rfl
@[simp] theorem State.orF_r_a (s : State) (x : BitVec 5) : (s.orF x).g.r.a = s.g.r.a := rfl
@[simp] theorem State.orF_r_z (s : State) (x : BitVec 5) : (s.orF x).g.r.z = s.g.r.z := rfl
@[simp] theorem State.orF_r_zv (s : State) (x : BitVec 5) : (s.orF x).g.r.zv = s.g.r.zv := rfl
@[simp] theorem State.orF_r_poison (s : State) (x : BitVec 5) : (s.orF x).g.r.poison = s.g.r.poison := rfl
@[simp] theorem State.orF_r_mask (s : State) (x : BitVec 5) : (s.orF x).g.r.mask = s.g.r.mask := rfl
@[simp] theorem State.orF_r_stack (s : State) (x : BitVec 5) : (s.orF x).g.r.stack = s.g.r.stack := rfl
@[simp] theorem State.orF_r_pend (s : State) (x : BitVec 5) : (s.orF x).g.r.pend = s.g.r.pend := rfl
@[simp] theorem State.orF_r_fenable (s : State) (x : BitVec 5) : (s.orF x).g.r.fenable = s.g.r.fenable := rfl
@[simp] theorem State.orF_r_qflags (s : State) (x : BitVec 5) : (s.orF x).g.r.qflags = s.g.r.qflags := rfl
@[simp] theorem State.orF_r_dphase (s : State) (x : BitVec 5) : (s.orF x).g.r.dphase = s.g.r.dphase := rfl
@[simp] theorem State.orF_r_tvec (s : State) (x : BitVec 5) : (s.orF x).g.r.tvec = s.g.r.tvec := rfl
@[simp] theorem State.orF_r_trap (s : State) (x : BitVec 5) : (s.orF x).g.r.trap = s.g.r.trap := rfl
@[simp] theorem State.orF_g_gid (s : State) (x : BitVec 5) : (s.orF x).g.gid = s.g.gid := rfl
@[simp] theorem State.orF_g_core (s : State) (x : BitVec 5) : (s.orF x).g.core = s.g.core := rfl
@[simp] theorem State.orF_g_slot (s : State) (x : BitVec 5) : (s.orF x).g.slot = s.g.slot := rfl
@[simp] theorem State.orF_g_ctx (s : State) (x : BitVec 5) : (s.orF x).g.ctx = s.g.ctx := rfl
@[simp] theorem State.orF_g_phase (s : State) (x : BitVec 5) : (s.orF x).g.phase = s.g.phase := rfl
@[simp] theorem State.orF_g_pc (s : State) (x : BitVec 5) : (s.orF x).g.pc = s.g.pc := rfl
@[simp] theorem State.orF_g_entering (s : State) (x : BitVec 5) : (s.orF x).g.entering = s.g.entering := rfl
@[simp] theorem State.orF_g_blkHdr (s : State) (x : BitVec 5) : (s.orF x).g.blkHdr = s.g.blkHdr := rfl
@[simp] theorem State.orF_g_blkEnd (s : State) (x : BitVec 5) : (s.orF x).g.blkEnd = s.g.blkEnd := rfl
@[simp] theorem State.orF_g_xferFrom (s : State) (x : BitVec 5) : (s.orF x).g.xferFrom = s.g.xferFrom := rfl
@[simp] theorem State.orF_g_hmode (s : State) (x : BitVec 5) : (s.orF x).g.hmode = s.g.hmode := rfl
@[simp] theorem State.orF_g_entryDepth (s : State) (x : BitVec 5) : (s.orF x).g.entryDepth = s.g.entryDepth := rfl
@[simp] theorem State.orF_g_epcw (s : State) (x : BitVec 5) : (s.orF x).g.epcw = s.g.epcw := rfl
@[simp] theorem State.orF_g_intr (s : State) (x : BitVec 5) : (s.orF x).g.intr = s.g.intr := rfl
@[simp] theorem State.orF_g_hidden (s : State) (x : BitVec 5) : (s.orF x).g.hidden = s.g.hidden := rfl
@[simp] theorem State.orF_g_records (s : State) (x : BitVec 5) : (s.orF x).g.records = s.g.records := rfl
@[simp] theorem State.orF_g_watchOff (s : State) (x : BitVec 5) : (s.orF x).g.watchOff = s.g.watchOff := rfl
@[simp] theorem State.orF_g_seq (s : State) (x : BitVec 5) : (s.orF x).g.seq = s.g.seq := rfl
@[simp] theorem State.orF_g_splt (s : State) (x : BitVec 5) : (s.orF x).g.splt = s.g.splt := rfl
@[simp] theorem State.orF_g_idem (s : State) (x : BitVec 5) : (s.orF x).g.idem = s.g.idem := rfl
@[simp] theorem State.orF_g_storeQ (s : State) (x : BitVec 5) : (s.orF x).g.storeQ = s.g.storeQ := rfl
@[simp] theorem State.orF_g_relBuf (s : State) (x : BitVec 5) : (s.orF x).g.relBuf = s.g.relBuf := rfl
@[simp] theorem State.orF_g_twait (s : State) (x : BitVec 5) : (s.orF x).g.twait = s.g.twait := rfl
@[simp] theorem State.orF_g_arrived (s : State) (x : BitVec 5) : (s.orF x).g.arrived = s.g.arrived := rfl
@[simp] theorem State.orF_g_awaits (s : State) (x : BitVec 5) : (s.orF x).g.awaits = s.g.awaits := rfl
@[simp] theorem State.orF_g_bars (s : State) (x : BitVec 5) : (s.orF x).g.bars = s.g.bars := rfl
@[simp] theorem State.orF_g_launch (s : State) (x : BitVec 5) : (s.orF x).g.launch = s.g.launch := rfl
@[simp] theorem State.orF_g_unit (s : State) (x : BitVec 5) : (s.orF x).g.unit = s.g.unit := rfl
@[simp] theorem State.orF_g_rays (s : State) (x : BitVec 5) : (s.orF x).g.rays = s.g.rays := rfl
@[simp] theorem State.orQ_r_s (s : State) (x : BitVec 6) : (s.orQ x).g.r.s = s.g.r.s := rfl
@[simp] theorem State.orQ_r_v (s : State) (x : BitVec 6) : (s.orQ x).g.r.v = s.g.r.v := rfl
@[simp] theorem State.orQ_r_p (s : State) (x : BitVec 6) : (s.orQ x).g.r.p = s.g.r.p := rfl
@[simp] theorem State.orQ_r_a (s : State) (x : BitVec 6) : (s.orQ x).g.r.a = s.g.r.a := rfl
@[simp] theorem State.orQ_r_z (s : State) (x : BitVec 6) : (s.orQ x).g.r.z = s.g.r.z := rfl
@[simp] theorem State.orQ_r_zv (s : State) (x : BitVec 6) : (s.orQ x).g.r.zv = s.g.r.zv := rfl
@[simp] theorem State.orQ_r_poison (s : State) (x : BitVec 6) : (s.orQ x).g.r.poison = s.g.r.poison := rfl
@[simp] theorem State.orQ_r_mask (s : State) (x : BitVec 6) : (s.orQ x).g.r.mask = s.g.r.mask := rfl
@[simp] theorem State.orQ_r_stack (s : State) (x : BitVec 6) : (s.orQ x).g.r.stack = s.g.r.stack := rfl
@[simp] theorem State.orQ_r_pend (s : State) (x : BitVec 6) : (s.orQ x).g.r.pend = s.g.r.pend := rfl
@[simp] theorem State.orQ_r_fflags (s : State) (x : BitVec 6) : (s.orQ x).g.r.fflags = s.g.r.fflags := rfl
@[simp] theorem State.orQ_r_fenable (s : State) (x : BitVec 6) : (s.orQ x).g.r.fenable = s.g.r.fenable := rfl
@[simp] theorem State.orQ_r_dphase (s : State) (x : BitVec 6) : (s.orQ x).g.r.dphase = s.g.r.dphase := rfl
@[simp] theorem State.orQ_r_tvec (s : State) (x : BitVec 6) : (s.orQ x).g.r.tvec = s.g.r.tvec := rfl
@[simp] theorem State.orQ_r_trap (s : State) (x : BitVec 6) : (s.orQ x).g.r.trap = s.g.r.trap := rfl
@[simp] theorem State.orQ_g_gid (s : State) (x : BitVec 6) : (s.orQ x).g.gid = s.g.gid := rfl
@[simp] theorem State.orQ_g_core (s : State) (x : BitVec 6) : (s.orQ x).g.core = s.g.core := rfl
@[simp] theorem State.orQ_g_slot (s : State) (x : BitVec 6) : (s.orQ x).g.slot = s.g.slot := rfl
@[simp] theorem State.orQ_g_ctx (s : State) (x : BitVec 6) : (s.orQ x).g.ctx = s.g.ctx := rfl
@[simp] theorem State.orQ_g_phase (s : State) (x : BitVec 6) : (s.orQ x).g.phase = s.g.phase := rfl
@[simp] theorem State.orQ_g_pc (s : State) (x : BitVec 6) : (s.orQ x).g.pc = s.g.pc := rfl
@[simp] theorem State.orQ_g_entering (s : State) (x : BitVec 6) : (s.orQ x).g.entering = s.g.entering := rfl
@[simp] theorem State.orQ_g_blkHdr (s : State) (x : BitVec 6) : (s.orQ x).g.blkHdr = s.g.blkHdr := rfl
@[simp] theorem State.orQ_g_blkEnd (s : State) (x : BitVec 6) : (s.orQ x).g.blkEnd = s.g.blkEnd := rfl
@[simp] theorem State.orQ_g_xferFrom (s : State) (x : BitVec 6) : (s.orQ x).g.xferFrom = s.g.xferFrom := rfl
@[simp] theorem State.orQ_g_hmode (s : State) (x : BitVec 6) : (s.orQ x).g.hmode = s.g.hmode := rfl
@[simp] theorem State.orQ_g_entryDepth (s : State) (x : BitVec 6) : (s.orQ x).g.entryDepth = s.g.entryDepth := rfl
@[simp] theorem State.orQ_g_epcw (s : State) (x : BitVec 6) : (s.orQ x).g.epcw = s.g.epcw := rfl
@[simp] theorem State.orQ_g_intr (s : State) (x : BitVec 6) : (s.orQ x).g.intr = s.g.intr := rfl
@[simp] theorem State.orQ_g_hidden (s : State) (x : BitVec 6) : (s.orQ x).g.hidden = s.g.hidden := rfl
@[simp] theorem State.orQ_g_records (s : State) (x : BitVec 6) : (s.orQ x).g.records = s.g.records := rfl
@[simp] theorem State.orQ_g_watchOff (s : State) (x : BitVec 6) : (s.orQ x).g.watchOff = s.g.watchOff := rfl
@[simp] theorem State.orQ_g_seq (s : State) (x : BitVec 6) : (s.orQ x).g.seq = s.g.seq := rfl
@[simp] theorem State.orQ_g_splt (s : State) (x : BitVec 6) : (s.orQ x).g.splt = s.g.splt := rfl
@[simp] theorem State.orQ_g_idem (s : State) (x : BitVec 6) : (s.orQ x).g.idem = s.g.idem := rfl
@[simp] theorem State.orQ_g_storeQ (s : State) (x : BitVec 6) : (s.orQ x).g.storeQ = s.g.storeQ := rfl
@[simp] theorem State.orQ_g_relBuf (s : State) (x : BitVec 6) : (s.orQ x).g.relBuf = s.g.relBuf := rfl
@[simp] theorem State.orQ_g_twait (s : State) (x : BitVec 6) : (s.orQ x).g.twait = s.g.twait := rfl
@[simp] theorem State.orQ_g_arrived (s : State) (x : BitVec 6) : (s.orQ x).g.arrived = s.g.arrived := rfl
@[simp] theorem State.orQ_g_awaits (s : State) (x : BitVec 6) : (s.orQ x).g.awaits = s.g.awaits := rfl
@[simp] theorem State.orQ_g_bars (s : State) (x : BitVec 6) : (s.orQ x).g.bars = s.g.bars := rfl
@[simp] theorem State.orQ_g_launch (s : State) (x : BitVec 6) : (s.orQ x).g.launch = s.g.launch := rfl
@[simp] theorem State.orQ_g_unit (s : State) (x : BitVec 6) : (s.orQ x).g.unit = s.g.unit := rfl
@[simp] theorem State.orQ_g_rays (s : State) (x : BitVec 6) : (s.orQ x).g.rays = s.g.rays := rfl
@[simp] theorem State.setMask_r_s (s : State) (l : List Frame) (m : W32) (p : Option W64) : (s.setMask l m p).g.r.s = s.g.r.s := rfl
@[simp] theorem State.setMask_r_v (s : State) (l : List Frame) (m : W32) (p : Option W64) : (s.setMask l m p).g.r.v = s.g.r.v := rfl
@[simp] theorem State.setMask_r_p (s : State) (l : List Frame) (m : W32) (p : Option W64) : (s.setMask l m p).g.r.p = s.g.r.p := rfl
@[simp] theorem State.setMask_r_a (s : State) (l : List Frame) (m : W32) (p : Option W64) : (s.setMask l m p).g.r.a = s.g.r.a := rfl
@[simp] theorem State.setMask_r_z (s : State) (l : List Frame) (m : W32) (p : Option W64) : (s.setMask l m p).g.r.z = s.g.r.z := rfl
@[simp] theorem State.setMask_r_zv (s : State) (l : List Frame) (m : W32) (p : Option W64) : (s.setMask l m p).g.r.zv = s.g.r.zv := rfl
@[simp] theorem State.setMask_r_poison (s : State) (l : List Frame) (m : W32) (p : Option W64) : (s.setMask l m p).g.r.poison = s.g.r.poison := rfl
@[simp] theorem State.setMask_r_fflags (s : State) (l : List Frame) (m : W32) (p : Option W64) : (s.setMask l m p).g.r.fflags = s.g.r.fflags := rfl
@[simp] theorem State.setMask_r_fenable (s : State) (l : List Frame) (m : W32) (p : Option W64) : (s.setMask l m p).g.r.fenable = s.g.r.fenable := rfl
@[simp] theorem State.setMask_r_qflags (s : State) (l : List Frame) (m : W32) (p : Option W64) : (s.setMask l m p).g.r.qflags = s.g.r.qflags := rfl
@[simp] theorem State.setMask_r_dphase (s : State) (l : List Frame) (m : W32) (p : Option W64) : (s.setMask l m p).g.r.dphase = s.g.r.dphase := rfl
@[simp] theorem State.setMask_r_tvec (s : State) (l : List Frame) (m : W32) (p : Option W64) : (s.setMask l m p).g.r.tvec = s.g.r.tvec := rfl
@[simp] theorem State.setMask_r_trap (s : State) (l : List Frame) (m : W32) (p : Option W64) : (s.setMask l m p).g.r.trap = s.g.r.trap := rfl
@[simp] theorem State.setMask_g_gid (s : State) (l : List Frame) (m : W32) (p : Option W64) : (s.setMask l m p).g.gid = s.g.gid := rfl
@[simp] theorem State.setMask_g_core (s : State) (l : List Frame) (m : W32) (p : Option W64) : (s.setMask l m p).g.core = s.g.core := rfl
@[simp] theorem State.setMask_g_slot (s : State) (l : List Frame) (m : W32) (p : Option W64) : (s.setMask l m p).g.slot = s.g.slot := rfl
@[simp] theorem State.setMask_g_ctx (s : State) (l : List Frame) (m : W32) (p : Option W64) : (s.setMask l m p).g.ctx = s.g.ctx := rfl
@[simp] theorem State.setMask_g_phase (s : State) (l : List Frame) (m : W32) (p : Option W64) : (s.setMask l m p).g.phase = s.g.phase := rfl
@[simp] theorem State.setMask_g_pc (s : State) (l : List Frame) (m : W32) (p : Option W64) : (s.setMask l m p).g.pc = s.g.pc := rfl
@[simp] theorem State.setMask_g_entering (s : State) (l : List Frame) (m : W32) (p : Option W64) : (s.setMask l m p).g.entering = s.g.entering := rfl
@[simp] theorem State.setMask_g_blkHdr (s : State) (l : List Frame) (m : W32) (p : Option W64) : (s.setMask l m p).g.blkHdr = s.g.blkHdr := rfl
@[simp] theorem State.setMask_g_blkEnd (s : State) (l : List Frame) (m : W32) (p : Option W64) : (s.setMask l m p).g.blkEnd = s.g.blkEnd := rfl
@[simp] theorem State.setMask_g_xferFrom (s : State) (l : List Frame) (m : W32) (p : Option W64) : (s.setMask l m p).g.xferFrom = s.g.xferFrom := rfl
@[simp] theorem State.setMask_g_hmode (s : State) (l : List Frame) (m : W32) (p : Option W64) : (s.setMask l m p).g.hmode = s.g.hmode := rfl
@[simp] theorem State.setMask_g_entryDepth (s : State) (l : List Frame) (m : W32) (p : Option W64) : (s.setMask l m p).g.entryDepth = s.g.entryDepth := rfl
@[simp] theorem State.setMask_g_epcw (s : State) (l : List Frame) (m : W32) (p : Option W64) : (s.setMask l m p).g.epcw = s.g.epcw := rfl
@[simp] theorem State.setMask_g_intr (s : State) (l : List Frame) (m : W32) (p : Option W64) : (s.setMask l m p).g.intr = s.g.intr := rfl
@[simp] theorem State.setMask_g_hidden (s : State) (l : List Frame) (m : W32) (p : Option W64) : (s.setMask l m p).g.hidden = s.g.hidden := rfl
@[simp] theorem State.setMask_g_records (s : State) (l : List Frame) (m : W32) (p : Option W64) : (s.setMask l m p).g.records = s.g.records := rfl
@[simp] theorem State.setMask_g_watchOff (s : State) (l : List Frame) (m : W32) (p : Option W64) : (s.setMask l m p).g.watchOff = s.g.watchOff := rfl
@[simp] theorem State.setMask_g_seq (s : State) (l : List Frame) (m : W32) (p : Option W64) : (s.setMask l m p).g.seq = s.g.seq := rfl
@[simp] theorem State.setMask_g_splt (s : State) (l : List Frame) (m : W32) (p : Option W64) : (s.setMask l m p).g.splt = s.g.splt := rfl
@[simp] theorem State.setMask_g_idem (s : State) (l : List Frame) (m : W32) (p : Option W64) : (s.setMask l m p).g.idem = s.g.idem := rfl
@[simp] theorem State.setMask_g_storeQ (s : State) (l : List Frame) (m : W32) (p : Option W64) : (s.setMask l m p).g.storeQ = s.g.storeQ := rfl
@[simp] theorem State.setMask_g_relBuf (s : State) (l : List Frame) (m : W32) (p : Option W64) : (s.setMask l m p).g.relBuf = s.g.relBuf := rfl
@[simp] theorem State.setMask_g_twait (s : State) (l : List Frame) (m : W32) (p : Option W64) : (s.setMask l m p).g.twait = s.g.twait := rfl
@[simp] theorem State.setMask_g_arrived (s : State) (l : List Frame) (m : W32) (p : Option W64) : (s.setMask l m p).g.arrived = s.g.arrived := rfl
@[simp] theorem State.setMask_g_awaits (s : State) (l : List Frame) (m : W32) (p : Option W64) : (s.setMask l m p).g.awaits = s.g.awaits := rfl
@[simp] theorem State.setMask_g_bars (s : State) (l : List Frame) (m : W32) (p : Option W64) : (s.setMask l m p).g.bars = s.g.bars := rfl
@[simp] theorem State.setMask_g_launch (s : State) (l : List Frame) (m : W32) (p : Option W64) : (s.setMask l m p).g.launch = s.g.launch := rfl
@[simp] theorem State.setMask_g_unit (s : State) (l : List Frame) (m : W32) (p : Option W64) : (s.setMask l m p).g.unit = s.g.unit := rfl
@[simp] theorem State.setMask_g_rays (s : State) (l : List Frame) (m : W32) (p : Option W64) : (s.setMask l m p).g.rays = s.g.rays := rfl

@[simp] theorem State.orF_r_fflags (s : State) (x : BitVec 5) : (s.orF x).g.r.fflags = s.g.r.fflags ||| x := rfl
@[simp] theorem State.orQ_r_qflags (s : State) (x : BitVec 6) : (s.orQ x).g.r.qflags = s.g.r.qflags ||| x := rfl
@[simp] theorem State.setMask_r_mask (s : State) (l : List Frame) (m : W32) (p : Option W64) : (s.setMask l m p).g.r.mask = m := rfl
@[simp] theorem State.setMask_r_stack (s : State) (l : List Frame) (m : W32) (p : Option W64) : (s.setMask l m p).g.r.stack = l := rfl
@[simp] theorem State.setMask_r_pend (s : State) (l : List Frame) (m : W32) (p : Option W64) : (s.setMask l m p).g.r.pend = p := rfl

end Sys2Proof.Machine
end

