-- ==== Sys2Proof/Laws/Memory.lean ====
section
/-! SUPPORT. Sparse memory in canonical form: reading after writing, and that every operation keeps the form. -/

namespace Sys2Proof.Machine

variable {α : Type} [DecidableEq α]

/-! ## Sparse data -/

theorem sparseWfFrom_cons {d : α} {lo j : Nat} {w : α} {r : Sparse α} :
    sparseWfFrom d lo ((j, w) :: r) = true ↔ lo ≤ j ∧ w ≠ d ∧ sparseWfFrom d (j + 1) r = true := by
  simp [sparseWfFrom, and_assoc]

/-- A form whose keys start at lo is one whose keys start lower. -/
theorem sparseWfFrom_mono {d : α} {lo lo' : Nat} (h : lo' ≤ lo) : ∀ {m : Sparse α}, sparseWfFrom d lo m = true → sparseWfFrom d lo' m = true
  | [], _ => rfl
  | (_, _) :: _, hm => by
    rw [sparseWfFrom_cons] at hm ⊢
    exact ⟨by omega, hm.2⟩

/-- Below its first key nothing is listed. -/
theorem sparseGet_below {d : α} {lo k : Nat} (h : k < lo) : ∀ {m : Sparse α}, sparseWfFrom d lo m = true → sparseGet d m k = d
  | [], _ => rfl
  | (j, _) :: _, hm => by
    rw [sparseWfFrom_cons] at hm
    rw [sparseGet, if_pos (show k < j by omega)]

/-- Writing at or above the bound keeps the form. -/
theorem sparseSet_wf {d : α} {k : Nat} {v : α} : ∀ {lo : Nat} {m : Sparse α}, lo ≤ k → sparseWfFrom d lo m = true →
    sparseWfFrom d lo (sparseSet d k v m) = true
  | lo, [], hk, _ => by
    by_cases hv : v = d <;> simp [sparseSet, hv, sparseWfFrom, hk]
  | lo, (j, w) :: r, hk, hm => by
    rw [sparseWfFrom_cons] at hm
    obtain ⟨h1, h2, h3⟩ := hm
    simp only [sparseSet]
    split
    · rw [sparseWfFrom_cons]
      exact ⟨h1, h2, sparseSet_wf (by omega) h3⟩
    · split
      · split
        · exact sparseWfFrom_mono (by omega) h3
        · rw [sparseWfFrom_cons]
          exact ⟨hk, by assumption, by subst_vars; exact h3⟩
      · split
        · rw [sparseWfFrom_cons]
          exact ⟨h1, h2, h3⟩
        · rw [sparseWfFrom_cons, sparseWfFrom_cons]
          exact ⟨hk, by assumption, by omega, h2, h3⟩

/-- Reading after writing. -/
theorem sparseGet_sparseSet {d : α} {k : Nat} {v : α} (k' : Nat) : ∀ {lo : Nat} {m : Sparse α}, sparseWfFrom d lo m = true →
    sparseGet d (sparseSet d k v m) k' = if k' = k then v else sparseGet d m k'
  | _, [], _ => by
    by_cases hv : v = d
    · subst hv; simp [sparseSet, sparseGet]
    · simp only [sparseSet, hv, if_false, sparseGet]
      split <;> split <;> simp_all
  | _, (j, w) :: r, hm => by
    rw [sparseWfFrom_cons] at hm
    obtain ⟨-, -, h3⟩ := hm
    have ih := sparseGet_sparseSet (k := k) (v := v) k' h3
    simp only [sparseSet]
    split
    · simp only [sparseGet, ih]
      repeat' split
      all_goals first | rfl | omega
    · split
      · subst_vars
        split
        · subst_vars
          simp only [sparseGet]
          repeat' split
          all_goals first | rfl | omega | exact sparseGet_below (by omega) h3
        · simp only [sparseGet]
          repeat' split
          all_goals first | rfl | omega
      · split
        · subst_vars
          simp only [sparseGet]
          repeat' split
          all_goals first | rfl | omega
        · simp only [sparseGet]
          repeat' split
          all_goals first | rfl | omega

/-- Keeping some entries keeps the form. -/
theorem sparseFilter_wf {d : α} {q : Nat × α → Bool} : ∀ {lo : Nat} {m : Sparse α}, sparseWfFrom d lo m = true → sparseWfFrom d lo (m.filter q) = true
  | _, [], _ => rfl
  | lo, (j, w) :: r, hm => by
    rw [sparseWfFrom_cons] at hm
    have ih := sparseFilter_wf (q := q) hm.2.2
    cases h : q (j, w)
    · simp only [List.filter_cons, h]
      exact sparseWfFrom_mono (by omega) ih
    · simp only [List.filter_cons, h, if_true]
      rw [sparseWfFrom_cons]
      exact ⟨hm.1, hm.2.1, ih⟩

/-- Reading after keeping the entries whose keys satisfy q. -/
theorem sparseGet_filter {d : α} {q : Nat → Bool} (k : Nat) : ∀ {lo : Nat} {m : Sparse α}, sparseWfFrom d lo m = true →
    sparseGet d (m.filter fun c => q c.1) k = if q k then sparseGet d m k else d
  | _, [], _ => by simp [sparseGet]
  | lo, (j, w) :: r, hm => by
    rw [sparseWfFrom_cons] at hm
    have ih := sparseGet_filter (q := q) k hm.2.2
    have hr : k < j + 1 → sparseGet d (r.filter fun c => q c.1) k = d := fun h => sparseGet_below h (sparseFilter_wf hm.2.2)
    cases h : q j
    · simp only [List.filter_cons, h, sparseGet]
      repeat' split
      all_goals first | (rw [hr (by omega)]; done) | simp_all
    · simp only [List.filter_cons, h, if_true, sparseGet]
      repeat' split
      all_goals simp_all

/-- Two forms, the second above the first, joined. -/
theorem sparseAppend_wf {d : α} {b : Nat} : ∀ {lo : Nat} {m n : Sparse α}, lo ≤ b → sparseWfFrom d lo m = true → (∀ c ∈ m, c.1 < b) → sparseWfFrom d b n = true →
    sparseWfFrom d lo (m ++ n) = true
  | _, [], _, h, _, _, hn => sparseWfFrom_mono h hn
  | _, (j, w) :: r, _, _, hm, hb, hn => by
    rw [sparseWfFrom_cons] at hm
    rw [List.cons_append, sparseWfFrom_cons]
    exact ⟨hm.1, hm.2.1, sparseAppend_wf (hb (j, w) (by simp)) hm.2.2 (fun c hc => hb c (by simp [hc])) hn⟩

/-- A form whose keys are moved from a to b. -/
theorem sparseMove_wf {d : α} {a b : Nat} : ∀ {lo : Nat} {m : Sparse α}, a ≤ lo → sparseWfFrom d lo m = true →
    sparseWfFrom d (lo - a + b) (m.map fun c => (c.1 - a + b, c.2)) = true
  | _, [], _, _ => rfl
  | lo, (j, w) :: r, h, hm => by
    rw [sparseWfFrom_cons] at hm
    rw [List.map_cons, sparseWfFrom_cons]
    have ih := sparseMove_wf (a := a) (b := b) (show a ≤ j + 1 by omega) hm.2.2
    exact ⟨by omega, hm.2.1, by rw [show j + 1 - a + b = j - a + b + 1 by omega] at ih; exact ih⟩

/-- Entries at or above a bound, of a form. -/
theorem sparseAbove_wf {d : α} {b : Nat} {q : Nat × α → Bool} (hq : ∀ c, q c = true → b ≤ c.1) : ∀ {lo : Nat} {m : Sparse α}, sparseWfFrom d lo m = true →
    sparseWfFrom d b (m.filter q) = true
  | _, [], _ => rfl
  | _, (j, w) :: r, hm => by
    rw [sparseWfFrom_cons] at hm
    cases h : q (j, w)
    · simp only [List.filter_cons, h]
      exact sparseAbove_wf hq hm.2.2
    · simp only [List.filter_cons, h, if_true]
      rw [sparseWfFrom_cons]
      exact ⟨hq _ h, hm.2.1, sparseFilter_wf hm.2.2⟩

/-! ## Bytes -/

theorem memSet_wf {m : Memory} {k : Nat} {b : Byte} (h : m.wf = true) : (memSet m k b).wf = true := sparseSet_wf (Nat.zero_le _) h
theorem memGet_memSet {m : Memory} (h : m.wf = true) (k k' : Nat) (b : Byte) : memGet (memSet m k b) k' = if k' = k then b else memGet m k' :=
  sparseGet_sparseSet k' h

theorem memSetAll_wf : ∀ {m : Memory} {k : Nat} {b : List Byte}, m.wf = true → (memSetAll m k b).wf = true
  | _, _, [], h => h
  | _, _, _ :: r, h => memSetAll_wf (b := r) (memSet_wf h)

/-- Reading one byte after writing several. -/
theorem memGet_memSetAll (k' : Nat) : ∀ {m : Memory} (k : Nat) (b : List Byte), m.wf = true →
    memGet (memSetAll m k b) k' = if k ≤ k' ∧ k' < k + b.length then b.getD (k' - k) 0 else memGet m k'
  | m, k, [], _ => by simp [memSetAll]
  | m, k, x :: r, h => by
    rw [memSetAll, memGet_memSetAll k' (k + 1) r (memSet_wf h), memGet_memSet h]
    by_cases h1 : k' = k
    · subst h1; simp
    · by_cases h2 : k ≤ k' ∧ k' < k + (x :: r).length
      · have h3 : k + 1 ≤ k' ∧ k' < k + 1 + r.length := by simp at h2; omega
        rw [if_pos h3, if_pos h2, show k' - k = (k' - (k + 1)) + 1 by omega]
        simp
      · have h3 : ¬ (k + 1 ≤ k' ∧ k' < k + 1 + r.length) := by simp at h2; omega
        rw [if_neg h3, if_neg h1, if_neg h2]

@[simp] theorem memRead_length (m : Memory) (k n : Nat) : (memRead m k n).length = n := by simp [memRead]

/-- What was written reads back. -/
theorem memRead_memSetAll {m : Memory} (h : m.wf = true) (k : Nat) (b : List Byte) : memRead (memSetAll m k b) k b.length = b := by
  apply List.ext_getElem (by simp)
  intro n h1 h2
  simp only [memRead, List.getElem_map, List.getElem_range, memGet_memSetAll _ _ _ h]
  rw [if_pos ⟨by omega, by omega⟩]
  simp [h2]

/-- A range apart from the bytes written reads as before. -/
theorem memRead_memSetAll_apart {m : Memory} (h : m.wf = true) {k k' n : Nat} {b : List Byte} (ha : k' + n ≤ k ∨ k + b.length ≤ k') :
    memRead (memSetAll m k b) k' n = memRead m k' n := by
  simp only [memRead]
  apply List.map_congr_left
  intro i hi
  rw [memGet_memSetAll _ _ _ h, if_neg]
  have := List.mem_range.1 hi
  omega

@[simp] theorem leBytes_length : ∀ n v, (leBytes n v).length = n
  | 0, _ => rfl
  | n + 1, v => by simp [leBytes, leBytes_length]

/-- A number from its own bytes. -/
theorem leNat_leBytes : ∀ n v, leNat (leBytes n v) = v % 2 ^ (8 * n)
  | 0, v => by simp [leBytes, leNat, Nat.mod_one]
  | n + 1, v => by
    simp only [leBytes, leNat, leNat_leBytes n, BitVec.toNat_ofNat]
    rw [show 8 * (n + 1) = 8 + 8 * n by omega, Nat.pow_add, Nat.mod_mul]

/-! ## The memory system -/

/-- Both memories have the canonical form. -/
def MemSys.Wf (ms : MemSys) : Prop := ms.mem.wf = true ∧ ms.backing.wf = true

theorem State.memoryWf_iff (s : State) : s.MemoryWf ↔ s.ms.Wf := Iff.rfl

theorem MemSys.recall_mem (ms : MemSys) (k n : Nat) : (ms.recall k n).mem = ms.mem := by unfold MemSys.recall; split <;> rfl
theorem MemSys.recall_backing (ms : MemSys) (k n : Nat) : (ms.recall k n).backing = ms.backing := by unfold MemSys.recall; split <;> rfl
theorem MemSys.recall_wf {ms : MemSys} (k n : Nat) (h : ms.Wf) : (ms.recall k n).Wf := by
  unfold MemSys.Wf; rw [MemSys.recall_mem, MemSys.recall_backing]; exact h

@[simp] theorem MemSys.write_mem (ms : MemSys) (k : Nat) (b : List Byte) (c : List Nat) : (ms.write k b c).mem = memSetAll ms.mem k b := by
  simp [MemSys.write, MemSys.dropCopies, MemSys.recall_mem]
@[simp] theorem MemSys.write_backing (ms : MemSys) (k : Nat) (b : List Byte) (c : List Nat) :
    (ms.write k b c).backing = if isLocalKey k then ms.backing else memSetAll ms.backing k b := by
  simp [MemSys.write, MemSys.dropCopies, MemSys.recall_backing]
theorem MemSys.write_wf {ms : MemSys} (k : Nat) (b : List Byte) (c : List Nat) (h : ms.Wf) : (ms.write k b c).Wf := by
  refine ⟨by rw [MemSys.write_mem]; exact memSetAll_wf h.1, ?_⟩
  rw [MemSys.write_backing]
  split
  · exact h.2
  · exact memSetAll_wf h.2

theorem memFold_wf {l : List Nat} {k : Nat → Nat} {b : Nat → List Byte} : ∀ {m : Memory}, m.wf = true →
    (l.foldl (fun m x => memSetAll m (k x) (b x)) m).wf = true := by
  induction l with
  | nil => exact fun h => h
  | cons x r ih => exact fun h => ih (memSetAll_wf h)

@[simp] theorem MemSys.writeBack_mem (ms : MemSys) (l : List Nat) : (ms.writeBack l).mem = ms.mem := rfl
theorem MemSys.writeBack_wf {ms : MemSys} (l : List Nat) (h : ms.Wf) : (ms.writeBack l).Wf := ⟨h.1, memFold_wf h.2⟩
@[simp] theorem MemSys.discard_backing (ms : MemSys) (l : List Nat) : (ms.discard l).backing = ms.backing := rfl
theorem MemSys.discard_wf {ms : MemSys} (l : List Nat) (h : ms.Wf) : (ms.discard l).Wf := ⟨memFold_wf h.1, h.2⟩

theorem moveCells_wf {src dst : Memory} (a n b : Nat) (h1 : src.wf = true) (h2 : dst.wf = true) : (moveCells src dst a n b).wf = true := by
  unfold moveCells
  rw [List.append_assoc]
  refine sparseAppend_wf (b := b) (Nat.zero_le _) (sparseFilter_wf h2) (fun c hc => by simpa using (List.mem_filter.1 hc).2) ?_
  refine sparseAppend_wf (b := b + n) (by omega) ?_ ?_ (sparseAbove_wf (fun c hc => by simpa using hc) h2)
  · have := sparseMove_wf (d := (0 : Byte)) (a := a) (b := b) (Nat.le_refl a)
      (sparseAbove_wf (b := a) (q := fun c : Host.Cell => a ≤ c.1 && c.1 < a + n) (fun c hc => by simp at hc; exact hc.1) h1)
    simpa using this
  · intro c hc
    obtain ⟨x, hx, rfl⟩ := List.mem_map.1 hc
    have := (List.mem_filter.1 hx).2
    simp at this
    show x.1 - a + b < b + n
    omega

theorem MemSys.dropCopies_wf {ms : MemSys} (k n : Nat) (h : ms.Wf) : (ms.dropCopies k n).Wf := h
/-- One indivisible read-modify-write keeps the canonical form (R182). -/
theorem MemSys.atomic_wf {ms : MemSys} (k w aop x cmp : Nat) (h : ms.Wf) : (ms.atomic k w aop x cmp).Wf := by
  simp only [MemSys.atomic]; split
  · exact MemSys.dropCopies_wf _ _ (MemSys.recall_wf _ _ h)
  · exact MemSys.write_wf _ _ _ h

/-! ## The operations of State that write memory -/

theorem State.atomicAt_wf {s : State} (k w aop x cmp : Nat) (h : s.MemoryWf) : (s.atomicAt k w aop x cmp).1.MemoryWf := by
  have a := MemSys.atomic_wf k w aop x cmp (s.memoryWf_iff.1 h)
  simp only [State.atomicAt, State.memoryWf_iff]; split <;> exact a

theorem State.memWrite_wf {s : State} (k : Nat) (b : List Byte) (h : s.MemoryWf) : (s.memWrite k b).MemoryWf := MemSys.write_wf _ _ _ h
theorem State.memPut_wf {s : State} (k n v : Nat) (h : s.MemoryWf) : (s.memPut k n v).MemoryWf := State.memWrite_wf _ _ h
@[simp] theorem State.memWrite_mem (s : State) (k : Nat) (b : List Byte) : (s.memWrite k b).ms.mem = memSetAll s.ms.mem k b := MemSys.write_mem _ _ _ _

/-- A number that was stored reads back, cut to its bytes. -/
theorem State.memNat_memPut {s : State} (h : s.MemoryWf) (k n v : Nat) : (s.memPut k n v).memNat k n = v % 2 ^ (8 * n) := by
  have := memRead_memSetAll h.1 k (leBytes n v)
  rw [leBytes_length] at this
  simp only [State.memNat, State.memBytes, State.memPut, State.memWrite_mem, this, leNat_leBytes]
/-- A range apart from a stored number reads as before. -/
theorem State.memNat_memPut_apart {s : State} (h : s.MemoryWf) {k n v k' n' : Nat} (ha : k' + n' ≤ k ∨ k + n ≤ k') :
    (s.memPut k n v).memNat k' n' = s.memNat k' n' := by
  simp only [State.memNat, State.memBytes, State.memPut, State.memWrite_mem]
  rw [memRead_memSetAll_apart h.1 (by rw [leBytes_length]; exact ha)]

/-- The tokens are all that settling changes. -/
theorem State.settleTokens_eq (s : State) : ∃ l, s.settleTokens = { s with ms := { s.ms with tokens := l } } := by
  unfold State.settleTokens; split
  · exact ⟨s.ms.tokens, rfl⟩
  · exact ⟨_, rfl⟩
theorem State.settleTokens_wf {s : State} (h : s.MemoryWf) : s.settleTokens.MemoryWf := by
  obtain ⟨l, e⟩ := s.settleTokens_eq; rw [e]; exact h
/-- Ending a region changes the region number and, at most, tokens. -/
theorem State.endRegion_eq (s : State) : ∃ l, s.endRegion = { s with g := { s.g with seq := s.g.seq + 1 }, ms := { s.ms with tokens := l } } := by
  obtain ⟨l, e⟩ := State.settleTokens_eq { s with g := { s.g with seq := s.g.seq + 1 } }
  exact ⟨l, e⟩
theorem State.endRegion_wf {s : State} (h : s.MemoryWf) : s.endRegion.MemoryWf := by
  obtain ⟨l, e⟩ := s.endRegion_eq; rw [e]; exact h

theorem State.drainOne_wf {s : State} (h : s.MemoryWf) : s.drainOne.MemoryWf := by
  unfold State.drainOne; split
  · exact h
  · split
    · exact h
    · exact State.settleTokens_wf (MemSys.write_wf _ _ _ h)
theorem drainN_wf : ∀ (n : Nat) {s : State}, s.MemoryWf → (drainN n s).MemoryWf
  | 0, _, h => h
  | n + 1, _, h => drainN_wf n (State.drainOne_wf h)
theorem State.drain_wf {s : State} (h : s.MemoryWf) : s.drain.MemoryWf := drainN_wf _ h

theorem State.copyRange_wf {s : State} (a n b : Nat) (h : s.MemoryWf) : (s.copyRange a n b).MemoryWf :=
  ⟨moveCells_wf _ _ _ h.1 h.1, moveCells_wf _ _ _ (moveCells_wf _ _ _ h.1 h.1) h.2⟩
theorem State.eraseMem_wf {s : State} (p : Part) (h : s.MemoryWf) : (s.eraseMem p).MemoryWf := ⟨sparseFilter_wf h.1, sparseFilter_wf h.2⟩
theorem State.writeSy_wf {s : State} (k : Nat) (b : List Byte) (h : s.MemoryWf) : (s.writeSy k b).MemoryWf := MemSys.writeBack_wf _ (State.memWrite_wf k b h)
/-- A list of updates that each keep the form keeps it. -/
theorem State.foldl_wf {β : Type} {f : State → β → State} (hf : ∀ t x, t.MemoryWf → (f t x).MemoryWf) :
    ∀ (l : List β) {t : State}, t.MemoryWf → (l.foldl f t).MemoryWf
  | [], _, h => h
  | x :: l, _, h => State.foldl_wf hf l (hf _ x h)
theorem State.writeManifest_wf {s : State} (p : Part) (target status cause bytes : Nat) (bad : List Nat) (h : s.MemoryWf) :
    (s.writeManifest p target status cause bytes bad).MemoryWf := State.writeSy_wf _ _ h
theorem State.copyPart_wf {s : State} (p : Part) (target n : Nat) (h : s.MemoryWf) : (s.copyPart p target n).MemoryWf := by
  unfold State.copyPart
  exact State.foldl_wf (fun _ _ w => State.writeSy_wf _ _ w) _ (State.copyRange_wf _ _ _ (MemSys.writeBack_wf _ h))
theorem State.endCheckpoint_wf {s : State} (p : Part) (target status cause bytes : Nat) (h : s.MemoryWf) :
    (s.endCheckpoint p target status cause bytes).MemoryWf := by
  have hc := State.copyPart_wf p target bytes h
  exact State.writeManifest_wf (s := (s.copyPart p target bytes).mapPart p.fsect _) _ _ _ _ _ _ hc
/-- However a checkpoint fails, memory keeps its form. -/
theorem State.failCheckpoint_wf {s : State} (p : Part) (cause : Nat) (h : s.MemoryWf) : (s.failCheckpoint p cause).MemoryWf := by
  unfold State.failCheckpoint; split
  · exact h
  · split
    · exact State.endCheckpoint_wf _ _ _ _ _ h
    · exact State.writeManifest_wf _ _ _ _ _ _ h
theorem State.orEntry_wf {s : State} (k b : Nat) (h : s.MemoryWf) : (s.orEntry k b).MemoryWf := by
  simp only [State.orEntry]; split
  · exact h
  · exact State.memPut_wf _ _ _ h
end Sys2Proof.Machine
end

