-- ==== Sys2Proof/Laws/Ops.lean ====
section
/-! SUPPORT. What the shared operations can do, each said once: how an instruction ends, the checks of an access, fetching, taking a
cause, draining, and giving the turn. -/

namespace Sys2Proof.Machine

/-! ## How an instruction ends -/

theorem settle_eq (r : Res) : settle r = .next r.state := rfl
theorem done_eq (s : State) : done s = .next s := rfl
@[simp] theorem Res.state_next (s : State) : (Res.next s).state = s.retire := rfl
@[simp] theorem Res.state_jump (t : W64) (s : State) : (Res.jump t s).state = s.goTo t := rfl
@[simp] theorem Res.state_trap (t : Trap) (s : State) : (Res.trap t s).state = takeTrap t s := rfl
@[simp] theorem Res.state_park (s : State) : (Res.park s).state = s.wait := rfl
@[simp] theorem Res.state_stay (s : State) : (Res.stay s).state = s := rfl
@[simp] theorem orTrap_none (s : State) (k : Res) : orTrap none s k = k := rfl
@[simp] theorem orTrap_some (t : Trap) (s : State) (k : Res) : orTrap (some t) s k = .trap t s := rfl

/-- Sources free of poison raise nothing. -/
theorem readPoison_of_clean {s : State} {items : List Item} (h : s.Clean items) : readPoison s.g items = none := by
  simp only [State.Clean] at h
  simp only [readPoison, h]

theorem mustBeLast_of_last {s : State} (h : s.g.atLast = true) (k : Res) : mustBeLast s k = k := by simp [mustBeLast, h]
theorem mustBeLast_of_not {s : State} (h : s.g.atLast = false) (k : Res) : mustBeLast s k = .trap (illegal 56) s := by simp [mustBeLast, h]

/-! ## Changes to memory, choices and due alarms only -/

/-- t is s but for the memory system, the choices between translations, and alarms that are due; the canonical form is kept. -/
def State.Walks (s t : State) : Prop :=
  (∃ ms ch due, t = { s with ms := ms, choices := ch, lk := { s.lk with due := due } }) ∧ (s.MemoryWf → t.MemoryWf)

theorem State.Walks.refl (s : State) : s.Walks s := ⟨⟨s.ms, s.choices, s.lk.due, rfl⟩, id⟩
theorem State.Walks.trans {s t u : State} (h : s.Walks t) (k : t.Walks u) : s.Walks u := by
  obtain ⟨⟨m, c, d, rfl⟩, h2⟩ := h
  obtain ⟨⟨m', c', d', rfl⟩, k2⟩ := k
  exact ⟨⟨m', c', d', rfl⟩, fun w => k2 (h2 w)⟩
theorem State.Walks.g {s t : State} (h : s.Walks t) : t.g = s.g := by obtain ⟨⟨m, c, d, rfl⟩, -⟩ := h; rfl
theorem State.Walks.others {s t : State} (h : s.Walks t) : t.others = s.others := by obtain ⟨⟨m, c, d, rfl⟩, -⟩ := h; rfl
theorem State.Walks.cs {s t : State} (h : s.Walks t) : t.cs = s.cs := by obtain ⟨⟨m, c, d, rfl⟩, -⟩ := h; rfl
theorem State.Walks.cx {s t : State} (h : s.Walks t) : t.cx = s.cx := by obtain ⟨⟨m, c, d, rfl⟩, -⟩ := h; rfl
theorem State.Walks.xfers {s t : State} (h : s.Walks t) : t.lk.xfers = s.lk.xfers := by obtain ⟨⟨m, c, d, rfl⟩, -⟩ := h; rfl

/-- A change of the memory system whose canonical form is kept is such a change. -/
theorem State.walks_ms {s : State} (ms : MemSys) (h : s.MemoryWf → ms.mem.wf = true ∧ ms.backing.wf = true) : s.Walks { s with ms := ms } :=
  ⟨⟨ms, s.choices, s.lk.due, rfl⟩, h⟩
theorem State.memWrite_walked (s : State) (k : Nat) (b : List Byte) : s.Walks (s.memWrite k b) :=
  State.walks_ms _ (State.memWrite_wf k b)
theorem State.orEntry_walked (s : State) (k b : Nat) : s.Walks (s.orEntry k b) := by
  simp only [State.orEntry]; split
  · exact .refl s
  · exact s.memWrite_walked _ _
/-- Caching a translation changes no byte. -/
@[simp] theorem MemSys.cacheOne_mem (ms : MemSys) (t : TlbEntry) : (ms.cacheOne t).mem = ms.mem := by
  simp only [MemSys.cacheOne]; split_ifs <;> rfl
@[simp] theorem MemSys.cacheOne_backing (ms : MemSys) (t : TlbEntry) : (ms.cacheOne t).backing = ms.backing := by
  simp only [MemSys.cacheOne]; split_ifs <;> rfl
theorem State.cacheLeaf_walked (s : State) (core ctx va e leafAt lvl : Nat) : s.Walks (s.cacheLeaf core ctx va e leafAt lvl) := by
  refine (s.orEntry_walked leafAt 52).trans (State.walks_ms _ fun w => ?_)
  rw [MemSys.cacheOne_mem, MemSys.cacheOne_backing]; exact w
theorem State.cacheTables_walked (s : State) (core ctx va : Nat) (es : List (Nat × Nat × Nat)) : s.Walks (s.cacheTables core ctx va es) := by
  refine State.walks_ms _ fun w => ?_
  have h : ∀ (l : List (Nat × Nat × Nat)) (ms : MemSys), ms.mem.wf = true ∧ ms.backing.wf = true →
      (l.foldl (fun ms e => ms.cacheOne (tlbOf core ctx va e.1 e.2.1 e.2.2)) ms).mem.wf = true ∧
      (l.foldl (fun ms e => ms.cacheOne (tlbOf core ctx va e.1 e.2.1 e.2.2)) ms).backing.wf = true := by
    intro l
    induction l with
    | nil => exact fun _ h => h
    | cons e r ih => exact fun ms h => ih _ (by rw [MemSys.cacheOne_mem, MemSys.cacheOne_backing]; exact h)
  exact h es s.ms w

/-- Recalling lines, one for each item of a list, changes no byte. -/
theorem MemSys.recalls {α : Type} (f : α → Nat) (n : Nat) (l : List α) (ms : MemSys) :
    (l.foldl (fun ms a => ms.recall (f a) n) ms).mem = ms.mem ∧ (l.foldl (fun ms a => ms.recall (f a) n) ms).backing = ms.backing := by
  induction l generalizing ms with
  | nil => exact ⟨rfl, rfl⟩
  | cons a r ih => simpa only [List.foldl_cons, MemSys.recall_mem, MemSys.recall_backing] using ih (ms.recall (f a) n)
theorem MemSys.walked_bytes (ms : MemSys) (va lvl table : Nat) (es : List (Nat × Nat × Nat)) :
    (ms.walked va lvl table es).mem = ms.mem ∧ (ms.walked va lvl table es).backing = ms.backing := by
  unfold MemSys.walked; split
  · exact ⟨rfl, rfl⟩
  · exact MemSys.recalls id 8 _ ms

/-- A walk changes at most ownership of the lines it read, what it caches, and the bit A. -/
theorem State.walk_walked (s : State) (core : Nat) (c : Ctx) (va lvl table : Nat) : s.Walks (s.walk core c va lvl table).1 := by
  have h : s.Walks (State.cacheTables { s with ms := s.ms.walked va lvl table (walkFrom s c va lvl table).2 } core c.n va (walkFrom s c va lvl table).2) :=
    (State.walks_ms _ fun w => by rw [(s.ms.walked_bytes va lvl table _).1, (s.ms.walked_bytes va lvl table _).2]; exact w).trans
      (State.cacheTables_walked _ _ _ _ _)
  simp only [State.walk]
  split
  · exact h
  · exact h.trans (State.cacheLeaf_walked _ _ _ _ _ _ _)
/-- A translation taken anew changes at most what its walk changes, and the choice it used. -/
theorem State.translateNew_walked (s : State) (core : Nat) (c : Ctx) (va : Nat) : s.Walks (s.translateNew core c va).1 := by
  have used (r : List Bool) : s.Walks { s with choices := r } := ⟨⟨s.ms, r, s.lk.due, rfl⟩, fun w => w⟩
  simp only [State.translateNew]
  split
  · exact used _
  all_goals exact (used _).trans (State.walk_walked _ _ _ _ _ _)
/-- A translation changes at most what its walk changes, the choice it used, and what its instruction has seen. -/
theorem State.translate_walked (s : State) (core : Nat) (c : Ctx) (va : Nat) : s.Walks (s.translate core c va).1 := by
  unfold State.translate; split
  · exact s.translateNew_walked core c va
  · split
    · exact .refl s
    · exact (s.translateNew_walked core c va).trans (State.walks_ms _ fun w => w)

theorem translateAll_walked (core : Nat) (c : Ctx) : ∀ (l : List (Nat × Int)) (seen : List (Nat × Except (Nat × Nat) Leaf)) (s : State),
    s.Walks (translateAll core c seen l s).1
  | [], _, s => .refl s
  | (_, va) :: r, seen, s => by
    unfold translateAll; split
    · exact translateAll_walked core c r seen s
    · exact (s.translate_walked core c va.toNat).trans (translateAll_walked core c r _ _)
/-- Every lane keeps its number and its address. -/
theorem translateAll_keys (core : Nat) (c : Ctx) : ∀ (l : List (Nat × Int)) (seen : List (Nat × Except (Nat × Nat) Leaf)) (s : State),
    (translateAll core c seen l s).2.map (fun t => (t.1, t.2.1)) = l
  | [], _, _ => rfl
  | (_, _) :: r, seen, s => by
    unfold translateAll; split
    · simp only [List.map_cons]; rw [translateAll_keys core c r]
    · simp only [List.map_cons]; rw [translateAll_keys core c r]

theorem orEntries_walked (b : Nat) : ∀ (l : List Hit3) (s : State), s.Walks (l.foldl (fun s t => s.orEntry t.2.2.leafAt b) s)
  | [], s => .refl s
  | h :: r, s => (s.orEntry_walked h.2.2.leafAt b).trans (orEntries_walked b r _)

/-- Recalling a line from the core that owns it changes no byte that reads see. -/
theorem State.beforeAccess_walked (s : State) (a : AccSpec) (hits : List Hit3) : s.Walks (s.beforeAccess a hits) := by
  have h : s.Walks (if a.acc = 1 || a.acc = 2 then hits.foldl (fun s t => s.orEntry t.2.2.leafAt 53) s else s) := by
    split
    · exact orEntries_walked 53 _ _
    · exact .refl s
  refine h.trans (State.walks_ms _ fun w => ?_)
  rw [(MemSys.recalls (fun t : Hit3 => t.2.2.key) a.size _ _).1, (MemSys.recalls (fun t : Hit3 => t.2.2.key) a.size _ _).2]
  exact w

/-- A read of the device itself changes no byte that reads see. -/
theorem State.seen_walked (s : State) (k n : Nat) : s.Walks (s.seen k n) :=
  State.walks_ms _ fun w => by rw [MemSys.recall_mem, MemSys.recall_backing]; exact w
theorem State.readWindow_walked (s : State) (n : Nat) : s.Walks (s.readWindow n) := s.seen_walked _ _

/-- The state that a check leaves, let through or not. -/
def Checked.state : Checked → State
  | .ok s _ => s
  | .bad _ s => s

/-- THE CHECKS OF AN ACCESS change nothing but what the walks cache, A and D bits, ownership of lines, choices used and alarms due. -/
theorem checkAccess_walked (s : State) (core ctx : Nat) (a : AccSpec) (sc : Bool) (accs : List (Nat × Int)) :
    s.Walks (checkAccess s core ctx a sc accs).state := by
  have h := (s.readWindow_walked ctx).trans (translateAll_walked core ((s.ctxOf ctx).getD default) accs [] (s.readWindow ctx))
  unfold checkAccess
  split
  · exact s.readWindow_walked ctx
  · simp only
    split
    · exact h
    · split
      · split
        · exact h.trans ⟨⟨_, _, _, rfl⟩, fun w => w⟩
        · exact h
      · exact h.trans (State.beforeAccess_walked _ _ _)

theorem checkAccess_ok_walked {s s1 : State} {core ctx : Nat} {a : AccSpec} {sc : Bool} {accs : List (Nat × Int)} {hits : List Hit3}
    (h : checkAccess s core ctx a sc accs = .ok s1 hits) : s.Walks s1 := by have := checkAccess_walked s core ctx a sc accs; rwa [h] at this
theorem checkAccess_bad_walked {s s1 : State} {core ctx : Nat} {a : AccSpec} {sc : Bool} {accs : List (Nat × Int)} {t : Trap}
    (h : checkAccess s core ctx a sc accs = .bad t s1) : s.Walks s1 := by have := checkAccess_walked s core ctx a sc accs; rwa [h] at this

/-! ## Fetching -/

/-- The state that a fetch leaves. -/
def Fetched.state : Fetched → State
  | .ok s _ => s
  | .bad _ s => s

theorem State.fetchWord_walked (s : State) (va : W64) : s.Walks (s.fetchWord va).state := by
  have h := checkAccess_walked s s.g.core s.g.ctx .fetch true [(0, (va.toNat : Int))]
  unfold State.fetchWord
  cases hc : checkAccess s s.g.core s.g.ctx .fetch true [(0, (va.toNat : Int))] with
  | bad t s1 => rw [hc] at h; exact h
  | ok s1 ts =>
    rw [hc] at h
    cases ts with
    | nil => exact h
    | cons => exact h

theorem State.checkHeader_walked (s : State) (va from_ : W64) : s.Walks (s.checkHeader va from_).state := by
  have h := s.fetchWord_walked va
  simp only [State.checkHeader]
  split
  · exact .refl s
  · cases hc : s.fetchWord va with
    | bad t s1 => rw [hc] at h; exact h
    | ok s1 w =>
      rw [hc] at h
      have k := s1.fetchWord_walked (w64 (reconvAddr va w))
      simp only
      split
      · exact h
      · split
        · cases hd : s1.fetchWord (w64 (reconvAddr va w)) with
          | bad t s2 => rw [hd] at k; exact h.trans k
          | ok s2 w' =>
            rw [hd] at k
            simp only
            split <;> exact h.trans k
        · exact h

theorem State.handlerReady_walked (s : State) : s.Walks s.handlerReady.2 := by
  have h := s.checkHeader_walked (s.g.r.tvec.setWidth 64) s.g.r.trap.epc
  simp only [State.handlerReady]
  split
  · exact .refl s
  · cases hc : s.checkHeader (s.g.r.tvec.setWidth 64) s.g.r.trap.epc with
    | bad t s1 => rw [hc] at h; exact h
    | ok s1 w => rw [hc] at h; exact h

/-! ## Fault records and causes -/

/-- Joining records changes the fault records and notices only. A record for the page stands afterwards, with the requester on it, under the id that is answered; a new one has the level and die asked for;
every record that stood still stands; no other page gets one (R394). -/
theorem State.joinRecord_spec (s : State) (die ctx : Nat) (q : Requester) (p : Nat × Nat) :
  let u := s.joinRecord die ctx q p
  (∃ cx, u.1 = { s with cx := cx }) ∧
  (∃ x ∈ u.1.cx.recs, x.ctx = ctx ∧ x.page = p.1 ∧ q ∈ x.reqs ∧ x.id = u.2) ∧
  ((∀ x ∈ s.cx.recs, x.ctx = ctx → x.page ≠ p.1) → ∃ x ∈ u.1.cx.recs, x.ctx = ctx ∧ x.page = p.1 ∧ x.level = p.2 ∧ x.die = die) ∧
  (∀ x ∈ s.cx.recs, ∃ y ∈ u.1.cx.recs, y.id = x.id ∧ y.ctx = x.ctx ∧ y.page = x.page ∧ y.level = x.level ∧ y.die = x.die ∧ x.reqs <+: y.reqs) ∧
  (∀ pg, pg ≠ p.1 → (∀ x ∈ s.cx.recs, x.ctx = ctx → x.page ≠ pg) → ∀ x ∈ u.1.cx.recs, x.ctx = ctx → x.page ≠ pg) := by
  intro u
  simp only [u, State.joinRecord]
  cases h : s.cx.recs.find? (fun r => decide (r.ctx = ctx) && decide (r.page = p.1)) with
  | some r =>
    have hm := List.mem_of_find?_eq_some h
    have hp := List.find?_some h
    simp at hp
    refine ⟨⟨_, rfl⟩, ⟨{ r with reqs := r.reqs ++ [q] }, ?_, hp.1, hp.2, by simp, rfl⟩, ?_, ?_, ?_⟩
    · exact List.mem_map.2 ⟨r, hm, by simp⟩
    · intro hn; exact absurd hp.2 (hn r hm hp.1)
    · intro x hx
      refine ⟨_, List.mem_map.2 ⟨x, hx, rfl⟩, ?_⟩
      split <;> simp
    · intro pg hpg hn x hx hc
      obtain ⟨y, hy, rfl⟩ := List.mem_map.1 hx
      have : y.page ≠ pg := hn y hy (by split at hc <;> simpa using hc)
      split <;> simpa using this
  | none =>
    refine ⟨⟨_, rfl⟩, ⟨_, List.mem_append_right _ (List.mem_singleton.2 rfl), rfl, rfl, by simp, rfl⟩, ?_, ?_, ?_⟩
    · intro _; exact ⟨_, List.mem_append_right _ (List.mem_singleton.2 rfl), rfl, rfl, rfl, rfl⟩
    · intro x hx; exact ⟨x, List.mem_append_left _ hx, rfl, rfl, rfl, rfl, rfl, List.prefix_rfl⟩
    · intro pg hpg hn x hx hc
      rcases List.mem_append.1 hx with hx | hx
      · exact hn x hx hc
      · simp at hx; subst hx; exact fun h => hpg h.symm
/-- The same of several pages, of which the first mention of a page gives its level. -/
theorem State.joinAll_spec (die ctx : Nat) (q : Requester) : ∀ (ps : List (Nat × Nat)) (s : State),
  let u := s.joinAll die ctx q ps
  (∃ cx, u.1 = { s with cx := cx }) ∧
  (∀ p ∈ ps, ∃ x ∈ u.1.cx.recs, x.ctx = ctx ∧ x.page = p.1 ∧ q ∈ x.reqs ∧ x.id ∈ u.2) ∧
  (∀ p ∈ ps, ps.find? (fun q => q.1 = p.1) = some p → (∀ x ∈ s.cx.recs, x.ctx = ctx → x.page ≠ p.1) →
     ∃ x ∈ u.1.cx.recs, x.ctx = ctx ∧ x.page = p.1 ∧ x.level = p.2 ∧ x.die = die) ∧
  (∀ x ∈ s.cx.recs, ∃ y ∈ u.1.cx.recs, y.id = x.id ∧ y.ctx = x.ctx ∧ y.page = x.page ∧ y.level = x.level ∧ y.die = x.die ∧ x.reqs <+: y.reqs)
  | [], s => ⟨⟨_, rfl⟩, by simp, by simp, fun x hx => ⟨x, hx, rfl, rfl, rfl, rfl, rfl, List.prefix_rfl⟩⟩
  | p :: r, s => by
    obtain ⟨⟨cx, e⟩, ⟨x0, hx0, c0, p0, q0, i0⟩, new, old, no⟩ := s.joinRecord_spec die ctx q p
    obtain ⟨⟨cx', e'⟩, all, new', old'⟩ := State.joinAll_spec die ctx q r (s.joinRecord die ctx q p).1
    simp only [State.joinAll]
    refine ⟨⟨cx', by rw [e', e]⟩, ?_, ?_, ?_⟩
    · intro a ha
      rcases List.mem_cons.1 ha with rfl | ha
      · obtain ⟨y, hy, h1, h2, h3, -, -, h4⟩ := old' x0 hx0
        exact ⟨y, hy, h2.trans c0, h3.trans p0, h4.subset q0, by rw [h1, i0]; simp⟩
      · obtain ⟨y, hy, h1, h2, h3, h4⟩ := all a ha
        exact ⟨y, hy, h1, h2, h3, List.mem_cons_of_mem _ h4⟩
    · intro a ha hf hn
      by_cases hpa : p.1 = a.1
      · rw [List.find?_cons_of_pos (by simpa using hpa)] at hf
        cases hf
        obtain ⟨y, hy, h1, h2, h3, h4⟩ := new hn
        obtain ⟨z, hz, k1, k2, k3, k4, k5, -⟩ := old' y hy
        exact ⟨z, hz, k2.trans h1, k3.trans h2, k4.trans h3, k5.trans h4⟩
      · rw [List.find?_cons_of_neg (by simpa using hpa)] at hf
        exact new' a (List.mem_of_find?_eq_some hf) hf (no a.1 (fun h => hpa h.symm) hn)
    · intro x hx
      obtain ⟨y, hy, h1, h2, h3, h4, h5, h6⟩ := old x hx
      obtain ⟨z, hz, k1, k2, k3, k4, k5, k6⟩ := old' y hy
      exact ⟨z, hz, k1.trans h1, k2.trans h2, k3.trans h3, k4.trans h4, k5.trans h5, h6.trans k6⟩

/-- A cause that goes to system software ends the region, leaves the group Faulted, and changes fault records and notices. -/
theorem State.systemCause_eq (s : State) (t : Trap) :
    ∃ ids cx, s.systemCause t = { s.endRegion with g := { s.endRegion.g with phase := .faulted, records := ids }, cx := cx } := by
  let u := s.endRegion
  obtain ⟨c, h⟩ := (State.joinAll_spec (coreDie u.g.core) u.g.ctx (.group u.g.gid) (t.pages.take 32) u).1
  refine ⟨(u.joinAll (coreDie u.g.core) u.g.ctx (.group u.g.gid) (t.pages.take 32)).2, (s.systemCause t).cx, ?_⟩
  simp only [State.systemCause, u] at h ⊢
  rw [h]

/-- TAKING A CAUSE: the group waits for a free fault record; or the trap registers are written and it enters its handler; or they are
written and it is Faulted. -/
theorem takeTrap_cases (t : Trap) (s : State) :
    takeTrap t s = { s with g := { s.g with phase := .parked, noRecord := some (t.regs s.g.pc) } } ∨
    (∃ s1, (({ s with g := s.g.restart } : State).writeTrap t).Walks s1 ∧ takeTrap t s = s1.enterHandler) ∨
    (∃ s1, (({ s with g := s.g.restart } : State).writeTrap t).Walks s1 ∧ takeTrap t s = s1.systemCause t) := by
  have h := (({ s with g := s.g.restart } : State).writeTrap t).handlerReady_walked
  unfold takeTrap
  split
  · exact .inl rfl
  · simp only
    split
    · cases hc : (({ s with g := s.g.restart } : State).writeTrap t).handlerReady with
      | mk b s1 =>
        rw [hc] at h
        cases b
        · exact .inr (.inr ⟨s1, h, rfl⟩)
        · exact .inr (.inl ⟨s1, h, rfl⟩)
    · exact .inr (.inr ⟨_, .refl _, rfl⟩)

theorem State.enterHandler_wf {s : State} (h : s.MemoryWf) : s.enterHandler.MemoryWf := by
  have : (s.closeIdem.endRegion).MemoryWf := State.endRegion_wf h
  exact this
/-- Taking a cause keeps the canonical form. -/
theorem takeTrap_wf {t : Trap} {s : State} (h : s.MemoryWf) : (takeTrap t s).MemoryWf := by
  obtain e | ⟨s1, w, e⟩ | ⟨s1, w, e⟩ := takeTrap_cases t s <;> rw [e]
  · exact h
  · exact State.enterHandler_wf (w.2 h)
  · obtain ⟨ids, cx, k⟩ := s1.systemCause_eq t
    rw [k]; exact State.endRegion_wf (w.2 h)

theorem Res.state_wf {r : Res} (h : match r with | .next s | .jump _ s | .trap _ s | .park s | .stay s => s.MemoryWf) : r.state.MemoryWf := by
  cases r with
  | trap t s => exact takeTrap_wf h
  | _ => exact h

/-! ## Draining -/

/-- Performing the oldest store changes the group's store queue and the memory system. -/
theorem State.drainOne_eq (s : State) : ∃ q ms, s.drainOne = { s with g := { s.g with storeQ := q }, ms := ms } := by
  unfold State.drainOne; split
  · exact ⟨s.g.storeQ, s.ms, rfl⟩
  · split
    · exact ⟨s.g.storeQ, s.ms, rfl⟩
    · rename_i p r _ _
      obtain ⟨l, e⟩ := State.settleTokens_eq { s with g := { s.g with storeQ := r }, ms := s.ms.write p.key p.bytes p.clears }
      exact ⟨r, _, e⟩
/-- With an empty release buffer the stores that have retired are the queued ones. -/
theorem Group.retired_of_empty {g : Group} (h : g.relBuf = []) : g.retired = g.storeQ := by simp [Group.retired, h]
/-- A group whose release buffer is empty has no store that waits behind it. -/
theorem Group.blocked_of_empty {g : Group} (h : g.relBuf = []) (p : PStore) : g.blocked p = false := by simp [Group.blocked, h]
/-- A store that waits behind the release buffer is not performed. -/
theorem State.drainOne_blocked {s : State} {p : PStore} {r : List PStore} (h : s.g.storeQ = p :: r) (b : s.g.blocked p = true) : s.drainOne = s := by
  simp [State.drainOne, h, b]
theorem State.drainOne_relBuf (s : State) : s.drainOne.g.relBuf = s.g.relBuf := by
  obtain ⟨q, ms, e⟩ := s.drainOne_eq; rw [e]
theorem drainN_eq : ∀ (n : Nat) (s : State), ∃ q ms, drainN n s = { s with g := { s.g with storeQ := q }, ms := ms }
  | 0, s => ⟨s.g.storeQ, s.ms, rfl⟩
  | n + 1, s => by
    obtain ⟨q, ms, e⟩ := s.drainOne_eq
    obtain ⟨q', ms', e'⟩ := drainN_eq n s.drainOne
    exact ⟨q', ms', by rw [drainN, e', e]⟩
theorem State.drainOne_storeQ {s : State} (hr : s.g.relBuf = []) : s.drainOne.g.storeQ = s.g.storeQ.tail := by
  unfold State.drainOne; split
  · rename_i h; rw [h]; rfl
  · rename_i p r h
    rw [if_neg (by simp [Group.blocked_of_empty hr])]
    obtain ⟨l, e⟩ := State.settleTokens_eq { s with g := { s.g with storeQ := r }, ms := s.ms.write p.key p.bytes p.clears }
    rw [e, h]; rfl
theorem drainN_storeQ : ∀ (n : Nat) {s : State}, s.g.relBuf = [] → (drainN n s).g.storeQ = s.g.storeQ.drop n
  | 0, _, _ => rfl
  | n + 1, s, h => by rw [drainN, drainN_storeQ n (by rw [s.drainOne_relBuf, h]), State.drainOne_storeQ h, List.drop_tail]
/-- Draining empties the store queue of a group whose release buffer is empty. -/
theorem State.drain_storeQ {s : State} (h : s.g.relBuf = []) : s.drain.g.storeQ = [] := by simp [State.drain, drainN_storeQ _ h]
/-- Draining changes at most the store queue of a group and the memory system. -/
theorem State.drain_changes (s : State) : ∃ q ms, s.drain = { s with g := { s.g with storeQ := q }, ms := ms } := drainN_eq _ s
/-- Draining changes nothing of such a group but its store queue. -/
theorem State.drain_eq {s : State} (hr : s.g.relBuf = []) : ∃ ms, s.drain = { s with g := { s.g with storeQ := [] }, ms := ms } := by
  obtain ⟨q, ms, e⟩ := s.drain_changes
  have h := State.drain_storeQ hr
  have e' : s.drain = { s with g := { s.g with storeQ := q }, ms := ms } := e
  rw [e'] at h
  have hq : q = [] := h
  exact ⟨ms, by rw [e', hq]⟩

/-- Making room in the store queue changes what draining changes. -/
theorem State.roomFor_changes (s : State) (n : Nat) : ∃ q ms, s.roomFor n = { s with g := { s.g with storeQ := q }, ms := ms } := drainN_eq _ s

/-! ## The turn -/

theorem State.focus_wf {s : State} (gid : Nat) (h : s.MemoryWf) : (s.focus gid).MemoryWf := by
  unfold State.focus; split
  · exact h
  · split <;> exact h
theorem State.onGroup_wf {s : State} (gid : Nat) {k : State → State} (hk : ∀ t : State, t.MemoryWf → (k t).MemoryWf) (h : s.MemoryWf) :
    (s.onGroup gid k).MemoryWf := by
  unfold State.onGroup; split
  · exact hk _ h
  · split
    · simp only; split
      · exact hk _ (State.focus_wf gid h)
      · exact State.focus_wf _ (hk _ (State.focus_wf gid h))
    · exact h
theorem State.onSlot_wf {s : State} (core slot : Nat) {k : State → State} (hk : ∀ t : State, t.MemoryWf → (k t).MemoryWf) (h : s.MemoryWf) :
    (s.onSlot core slot k).MemoryWf := by
  unfold State.onSlot; split
  · exact h
  · exact State.onGroup_wf _ hk h
/-- An event on the slot of the group whose turn it is acts on that group. -/
theorem State.onSlot_self {s : State} {core slot : Nat} (h : s.groupAt core slot = some s.g) (k : State → State) : s.onSlot core slot k = k s := by
  simp [State.onSlot, h, State.onGroup]

/-! ## Accesses from outside -/

/-- An access is performed while the device is awake, and held while it is not (R448). -/
theorem State.whenAwake_awake {s : State} (h : HeldAccess) (k : State → State) (a : s.mg.pstate = 0) : s.whenAwake h k = k s := if_pos a
theorem State.whenAwake_asleep {s : State} (h : HeldAccess) (k : State → State) (a : s.mg.pstate ≠ 0) : s.whenAwake h k = s.hold (.access h) :=
  if_neg a
theorem State.whenAwake_wf {s : State} (h : HeldAccess) {k : State → State} (hk : ∀ t : State, t.MemoryWf → (k t).MemoryWf) (w : s.MemoryWf) :
    (s.whenAwake h k).MemoryWf := by
  unfold State.whenAwake; split
  · exact hk _ w
  · exact w

/-! ## Engines -/

/-- A read of an engine changes what its checks change. -/
theorem engineRead_walked {s s1 : State} {core ctx : Nat} {spec : AccSpec} {addr n : Nat} {r : Except Trap (List Byte)}
    (h : (engineRead core ctx spec addr n).at s = (r, s1)) : s.Walks s1 := by
  have w := checkAccess_walked s core ctx spec true ((sectorStarts addr n).map fun a => (0, (a : Int)))
  simp only [Rd.at, engineRead, ExceptT.run, ExceptT.mk, StateT.run] at h
  cases hc : checkAccess s core ctx spec true ((sectorStarts addr n).map fun a => (0, (a : Int))) with
  | bad t s2 => rw [hc] at h w; cases h; exact w
  | ok s2 ts => rw [hc] at h w; cases h; exact w
@[simp] theorem State.setReuse_g (s : State) (l : Option (List Seen)) : (s.setReuse l).g = s.g := rfl
theorem State.setReuse_walked (s : State) (l : Option (List Seen)) : s.Walks (s.setReuse l) := State.walks_ms _ fun w => w
/-- An instruction that translates lane by lane changes what its reads change. -/
theorem Rd.once_walked {α : Type} {rd : Rd α} (h : ∀ s : State, s.Walks (rd.at s).2) (s : State) : s.Walks (rd.once.at s).2 :=
  ((s.setReuse_walked _).trans (h _)).trans (State.setReuse_walked _ _)
theorem engineBytes_walked {s s1 : State} {core ctx : Nat} {cls : Cls} {addr n : Nat} {r : Except Trap (List Byte)}
    (h : (engineBytes core ctx cls addr n).at s = (r, s1)) : s.Walks s1 := engineRead_walked h

/-! ## Barrier entries and rays -/

/-- Reading a barrier entry, those of a group or those of the saved groups, changes what a reading changes. -/
theorem State.readBar_walked (s : State) (core idx : Nat) : s.Walks (s.readBar core idx) := by
  unfold State.readBar; split
  · split
    · exact s.seen_walked _ _
    · exact .refl s
  · exact .refl s
theorem State.readBars_walked (g : Group) (s : State) : s.Walks (s.readBars g) := by
  suffices h : ∀ (l : List (Nat × Nat)) (s : State), s.Walks (l.foldl (fun s e => s.readBar e.1 e.2) s) from h _ s
  intro l
  induction l with
  | nil => exact .refl
  | cons e r ih => exact fun s => (s.readBar_walked _ _).trans (ih _)
theorem State.readSaved_walked (s : State) : s.Walks s.readSaved := by
  suffices h : ∀ (l : List Group) (s : State), s.Walks (l.foldl State.readBars s) from h _ s
  intro l
  induction l with
  | nil => exact .refl
  | cons g r ih => exact fun s => (s.readBars_walked g).trans (ih _)
/-- A ray's four words are all that changes when its record lands or they become empty. -/
theorem State.mapRayWords_eq (s : State) (r : Ray) (f : Tile → Nat → Tile) : ∃ cs, s.mapRayWords r f = { s with cs := cs } := by
  unfold State.mapRayWords; simp only; split
  · exact ⟨_, rfl⟩
  · split <;> exact ⟨_, rfl⟩
@[simp] theorem State.landRay_g (s : State) (r : Ray) (ws : List Nat) : (s.landRay r ws).g = s.g := by
  obtain ⟨cs, h⟩ := s.mapRayWords_eq r fun t k => t.putWord k (BitVec.ofNat 32 (ws.getD (k - r.row * t.rowWords) 0)) true
  rw [State.landRay, h]
@[simp] theorem State.emptyRay_g (s : State) (r : Ray) : (s.emptyRay r).g = s.g := by
  obtain ⟨cs, h⟩ := s.mapRayWords_eq r fun t k => t.tagWord false k
  rw [State.emptyRay, h]

end Sys2Proof.Machine
end

