-- ==== Sys2Proof/Tests/Slice0.lean ====
section
/-! SUPPORT. Tests: words written field by field from the encoding tables, ill-formed terms, single steps with results taken
from the manual's worked examples and tables, and a witness for the hypotheses of each obligation. -/

open Sys2Proof Sys2Proof.Machine

namespace Sys2Proof.Tests

set_option Elab.async false

/-- The state after an instruction or event. -/
def after (i : Instr) (s : State) : State := match exec i s with | .next t => t | _ => State.reset
/-- A running group of context 0 on core 0, in the last word of its block, with one page mapped at 0x30000. -/
def base : State := State.reset.withFetchWord 64 0
/-- The same, before the last word of its block. -/
def inBlock : State := { base with g := { base.g with blkEnd := 0x30100 } }
/-- With some bytes of memory written. -/
def poke (a : Nat) (b : List Byte) (s : State) : State := { s with ms := { s.ms with mem := memSetAll s.ms.mem a b } }
/-- With the low lanes of a vector register set. -/
def vec (n : Byte) (l : List Nat) (s : State) : State := s.setV false n (maskOf fun i => decide (i < l.length)) fun i => l.getD i 0
/-- With an active mask. -/
def masked (m : W32) (s : State) : State := { s with g := { s.g with r := { s.g.r with mask := m } } }
/-- With one tile in core 0's table. -/
def withTile (t : Tile) (s : State) : State := { s with cs := { s.cs with tiles := [t] } }
/-- Another group on slot 1. -/
def other : Group := { gid := 7, slot := 1, phase := .running, pc := 0x30008, blkHdr := 0x30000, blkEnd := 0x30010 }

/-! ## Decoding -/

/-- Words of this family, field by field from the opcode down, as the format tables lay them out (R70 to R88). -/
theorem test_decode_scalar :
    (decode (0x00#8 ++ 5#6 ++ 6#6 ++ 0x27#6 ++ 0#6 ++ 3#4 ++ 0#4 ++ 1#1 ++ 0#6 ++ 0#6 ++ 0#11)).toOption = some (.sadd { d := 5, a := 6, b := 0x27, c := 0, ty := 3, fn := 0, sat := 1, f1 := 0, f2 := 0, rsv := 0 }) ∧
    (decode (0x00#8 ++ 5#6 ++ 6#6 ++ 0x27#6 ++ 0#6 ++ 7#4 ++ 1#4 ++ 1#1 ++ 0#6 ++ 0#6 ++ 0#11)).toOption = some (.ssub { d := 5, a := 6, b := 0x27, c := 0, ty := 7, fn := 1, sat := 1, f1 := 0, f2 := 0, rsv := 0 }) ∧
    (decode (0x00#8 ++ 5#6 ++ 6#6 ++ 0x27#6 ++ 0#6 ++ 7#4 ++ 2#4 ++ 1#1 ++ 0#6 ++ 0#6 ++ 0#11)).toOption = some (.smul { d := 5, a := 6, b := 0x27, c := 0, ty := 7, fn := 2, sat := 1, f1 := 0, f2 := 0, rsv := 0 }) ∧
    (decode (0x00#8 ++ 5#6 ++ 6#6 ++ 0x27#6 ++ 0#6 ++ 7#4 ++ 3#4 ++ 0#1 ++ 0#6 ++ 0#6 ++ 0#11)).toOption = some (.smulh { d := 5, a := 6, b := 0x27, c := 0, ty := 7, fn := 3, sat := 0, f1 := 0, f2 := 0, rsv := 0 }) ∧
    (decode (0x00#8 ++ 5#6 ++ 6#6 ++ 0x27#6 ++ 0#6 ++ 3#4 ++ 4#4 ++ 0#1 ++ 0#6 ++ 0#6 ++ 0#11)).toOption = some (.sdiv { d := 5, a := 6, b := 0x27, c := 0, ty := 3, fn := 4, sat := 0, f1 := 0, f2 := 0, rsv := 0 }) ∧
    (decode (0x00#8 ++ 5#6 ++ 6#6 ++ 0x27#6 ++ 0#6 ++ 3#4 ++ 5#4 ++ 0#1 ++ 0#6 ++ 0#6 ++ 0#11)).toOption = some (.srem { d := 5, a := 6, b := 0x27, c := 0, ty := 3, fn := 5, sat := 0, f1 := 0, f2 := 0, rsv := 0 }) ∧
    (decode (0x00#8 ++ 5#6 ++ 6#6 ++ 0x27#6 ++ 0#6 ++ 7#4 ++ 6#4 ++ 0#1 ++ 0#6 ++ 0#6 ++ 0#11)).toOption = some (.smin { d := 5, a := 6, b := 0x27, c := 0, ty := 7, fn := 6, sat := 0, f1 := 0, f2 := 0, rsv := 0 }) ∧
    (decode (0x00#8 ++ 5#6 ++ 6#6 ++ 0x27#6 ++ 0#6 ++ 3#4 ++ 7#4 ++ 0#1 ++ 0#6 ++ 0#6 ++ 0#11)).toOption = some (.smax { d := 5, a := 6, b := 0x27, c := 0, ty := 3, fn := 7, sat := 0, f1 := 0, f2 := 0, rsv := 0 }) ∧
    (decode (0x00#8 ++ 5#6 ++ 6#6 ++ 0#6 ++ 0#6 ++ 3#4 ++ 8#4 ++ 1#1 ++ 0#6 ++ 0#6 ++ 0#11)).toOption = some (.sabs { d := 5, a := 6, b := 0, c := 0, ty := 3, fn := 8, sat := 1, f1 := 0, f2 := 0, rsv := 0 }) ∧
    (decode (0x00#8 ++ 5#6 ++ 6#6 ++ 0x27#6 ++ 0#6 ++ 3#4 ++ 9#4 ++ 0#1 ++ 1#6 ++ 0#6 ++ 0#11)).toOption = some (.slea { d := 5, a := 6, b := 0x27, c := 0, ty := 3, fn := 9, sat := 0, f1 := 1, f2 := 0, rsv := 0 }) ∧
    (decode (0x01#8 ++ 5#6 ++ 6#6 ++ 0x27#6 ++ 0#6 ++ 7#4 ++ 0#4 ++ 0#1 ++ 0#6 ++ 0#6 ++ 0#11)).toOption = some (.sand { d := 5, a := 6, b := 0x27, c := 0, ty := 7, fn := 0, sat := 0, f1 := 0, f2 := 0, rsv := 0 }) ∧
    (decode (0x01#8 ++ 5#6 ++ 6#6 ++ 0x27#6 ++ 0#6 ++ 3#4 ++ 1#4 ++ 0#1 ++ 0#6 ++ 0#6 ++ 0#11)).toOption = some (.sor { d := 5, a := 6, b := 0x27, c := 0, ty := 3, fn := 1, sat := 0, f1 := 0, f2 := 0, rsv := 0 }) ∧
    (decode (0x01#8 ++ 5#6 ++ 6#6 ++ 0x27#6 ++ 0#6 ++ 7#4 ++ 2#4 ++ 0#1 ++ 0#6 ++ 0#6 ++ 0#11)).toOption = some (.sxor { d := 5, a := 6, b := 0x27, c := 0, ty := 7, fn := 2, sat := 0, f1 := 0, f2 := 0, rsv := 0 }) ∧
    (decode (0x01#8 ++ 5#6 ++ 6#6 ++ 0x27#6 ++ 0#6 ++ 7#4 ++ 3#4 ++ 0#1 ++ 0#6 ++ 0#6 ++ 0#11)).toOption = some (.sandn { d := 5, a := 6, b := 0x27, c := 0, ty := 7, fn := 3, sat := 0, f1 := 0, f2 := 0, rsv := 0 }) ∧
    (decode (0x01#8 ++ 5#6 ++ 6#6 ++ 0x27#6 ++ 0#6 ++ 3#4 ++ 4#4 ++ 0#1 ++ 0#6 ++ 0#6 ++ 0#11)).toOption = some (.sshl { d := 5, a := 6, b := 0x27, c := 0, ty := 3, fn := 4, sat := 0, f1 := 0, f2 := 0, rsv := 0 }) ∧
    (decode (0x01#8 ++ 5#6 ++ 6#6 ++ 0x27#6 ++ 0#6 ++ 7#4 ++ 5#4 ++ 0#1 ++ 0#6 ++ 0#6 ++ 0#11)).toOption = some (.sshr { d := 5, a := 6, b := 0x27, c := 0, ty := 7, fn := 5, sat := 0, f1 := 0, f2 := 0, rsv := 0 }) ∧
    (decode (0x01#8 ++ 5#6 ++ 6#6 ++ 0x27#6 ++ 0#6 ++ 7#4 ++ 6#4 ++ 0#1 ++ 0#6 ++ 0#6 ++ 0#11)).toOption = some (.ssra { d := 5, a := 6, b := 0x27, c := 0, ty := 7, fn := 6, sat := 0, f1 := 0, f2 := 0, rsv := 0 }) ∧
    (decode (0x01#8 ++ 5#6 ++ 6#6 ++ 0x27#6 ++ 0#6 ++ 3#4 ++ 7#4 ++ 0#1 ++ 0#6 ++ 0#6 ++ 0#11)).toOption = some (.srot { d := 5, a := 6, b := 0x27, c := 0, ty := 3, fn := 7, sat := 0, f1 := 0, f2 := 0, rsv := 0 }) ∧
    (decode (0x01#8 ++ 5#6 ++ 6#6 ++ 0#6 ++ 0#6 ++ 7#4 ++ 8#4 ++ 0#1 ++ 0#6 ++ 0#6 ++ 0#11)).toOption = some (.sclz { d := 5, a := 6, b := 0, c := 0, ty := 7, fn := 8, sat := 0, f1 := 0, f2 := 0, rsv := 0 }) ∧
    (decode (0x01#8 ++ 5#6 ++ 6#6 ++ 0#6 ++ 0#6 ++ 3#4 ++ 9#4 ++ 0#1 ++ 0#6 ++ 0#6 ++ 0#11)).toOption = some (.spop { d := 5, a := 6, b := 0, c := 0, ty := 3, fn := 9, sat := 0, f1 := 0, f2 := 0, rsv := 0 }) ∧
    (decode (0x01#8 ++ 5#6 ++ 6#6 ++ 0#6 ++ 0#6 ++ 3#4 ++ 0xA#4 ++ 0#1 ++ 4#6 ++ 7#6 ++ 0#11)).toOption = some (.sbfx { d := 5, a := 6, b := 0, c := 0, ty := 3, fn := 0xA, sat := 0, f1 := 4, f2 := 7, rsv := 0 }) ∧
    (decode (0x01#8 ++ 5#6 ++ 6#6 ++ 0x27#6 ++ 0#6 ++ 3#4 ++ 0xB#4 ++ 0#1 ++ 0x14#6 ++ 0x2C#6 ++ 0#11)).toOption = some (.sbfi { d := 5, a := 6, b := 0x27, c := 0, ty := 3, fn := 0xB, sat := 0, f1 := 0x14, f2 := 0x2C, rsv := 0 }) ∧
    (decode (0x01#8 ++ 5#6 ++ 6#6 ++ 0x27#6 ++ 0x38#6 ++ 7#4 ++ 0xC#4 ++ 0#1 ++ 0#6 ++ 0#6 ++ 0#11)).toOption = some (.ssel { d := 5, a := 6, b := 0x27, c := 0x38, ty := 7, fn := 0xC, sat := 0, f1 := 0, f2 := 0, rsv := 0 }) ∧
    (decode (0x01#8 ++ 5#6 ++ 6#6 ++ 0#6 ++ 0#6 ++ 7#4 ++ 0xD#4 ++ 0#1 ++ 0#6 ++ 0#6 ++ 0#11)).toOption = some (.smov { d := 5, a := 6, b := 0, c := 0, ty := 7, fn := 0xD, sat := 0, f1 := 0, f2 := 0, rsv := 0 }) ∧
    (decode (0x02#8 ++ 5#6 ++ 6#6 ++ 0x27#6 ++ 0#6 ++ 3#4 ++ 4#4 ++ 0#1 ++ 0#6 ++ 0#6 ++ 0#11)).toOption = some (.scmp { d := 5, a := 6, b := 0x27, c := 0, ty := 3, fn := 4, sat := 0, f1 := 0, f2 := 0, rsv := 0 }) ∧
    (decode (0x03#8 ++ 3#6 ++ 0x35#6 ++ 0#4 ++ 0xFAE11DE6C0#40)).toOption = some (.saddImm { d := 3, a := 0x35, fn := 0, imm := 0xFAE11DE6C0 }) ∧
    (decode (0x03#8 ++ 0x20#6 ++ 3#6 ++ 1#4 ++ 0x18#40)).toOption = some (.smulImm { d := 0x20, a := 3, fn := 1, imm := 0x18 }) ∧
    (decode (0x03#8 ++ 0xD#6 ++ 0x34#6 ++ 2#4 ++ 3#40)).toOption = some (.sminImm { d := 0xD, a := 0x34, fn := 2, imm := 3 }) ∧
    (decode (0x03#8 ++ 0x18#6 ++ 0x28#6 ++ 3#4 ++ 2#40)).toOption = some (.smaxImm { d := 0x18, a := 0x28, fn := 3, imm := 2 }) ∧
    (decode (0x03#8 ++ 0x20#6 ++ 0x38#6 ++ 4#4 ++ 0x897AC7D3FB#40)).toOption = some (.sandImm { d := 0x20, a := 0x38, fn := 4, imm := 0x897AC7D3FB }) ∧
    (decode (0x03#8 ++ 0x18#6 ++ 0x12#6 ++ 5#4 ++ 0xF#40)).toOption = some (.sorImm { d := 0x18, a := 0x12, fn := 5, imm := 0xF }) ∧
    (decode (0x03#8 ++ 0xA#6 ++ 0x34#6 ++ 6#4 ++ 0xE#40)).toOption = some (.sxorImm { d := 0xA, a := 0x34, fn := 6, imm := 0xE }) ∧
    (decode (0x03#8 ++ 0x20#6 ++ 0x31#6 ++ 7#4 ++ 2#40)).toOption = some (.sshlImm { d := 0x20, a := 0x31, fn := 7, imm := 2 }) ∧
    (decode (0x03#8 ++ 2#6 ++ 3#6 ++ 8#4 ++ 4#40)).toOption = some (.sshrImm { d := 2, a := 3, fn := 8, imm := 4 }) ∧
    (decode (0x03#8 ++ 8#6 ++ 0x18#6 ++ 9#4 ++ 1#40)).toOption = some (.ssraImm { d := 8, a := 0x18, fn := 9, imm := 1 }) ∧
    (decode (0x03#8 ++ 0xC#6 ++ 0x18#6 ++ 0xA#4 ++ 0x10#40)).toOption = some (.srotImm { d := 0xC, a := 0x18, fn := 0xA, imm := 0x10 }) ∧
    (decode (0x04#8 ++ 0x24#6 ++ 0#6 ++ 0#4 ++ 1#40)).toOption = some (.sli { d := 0x24, a := 0, fn := 0, imm := 1 }) ∧
    (decode (0x05#8 ++ 3#6 ++ 0xC#6 ++ 0#4 ++ 0x10#40)).toOption = some (.slih { d := 3, a := 0xC, fn := 0, imm := 0x10 }) ∧
    (decode (0x06#8 ++ 0x3F#6 ++ 2#6 ++ 1#4 ++ 0xB0813866C6#40)).toOption = some (.scmpImm { d := 0x3F, a := 2, fn := 1, imm := 0xB0813866C6 }) := by
  decide +kernel

/-- Words of this family, field by field from the opcode down, as the format tables lay them out (R70 to R88). -/
theorem test_decode_control :
    (decode (0x10#8 ++ 3#2 ++ 0#6 ++ 0#4 ++ 0#1 ++ 0#3 ++ 0#8 ++ 2#32)).toOption = some (.br { hint := 3, s := 0, p := 0, pneg := 0, cond := 0, rsv := 0, off := 2 }) ∧
    (decode (0x11#8 ++ 1#2 ++ 0xA#6 ++ 0#4 ++ 0#1 ++ 4#3 ++ 0#8 ++ 8#32)).toOption = some (.brc { hint := 1, s := 0xA, p := 0, pneg := 0, cond := 4, rsv := 0, off := 8 }) ∧
    (decode (0x12#8 ++ 2#2 ++ 0#6 ++ 0xB#4 ++ 1#1 ++ 3#3 ++ 0#8 ++ 0xC0F3353A#32)).toOption = some (.brm { hint := 2, s := 0, p := 0xB, pneg := 1, cond := 3, rsv := 0, off := 0xC0F3353A }) ∧
    (decode (0x13#8 ++ 2#2 ++ 8#6 ++ 0#4 ++ 0#1 ++ 0#3 ++ 0#8 ++ 0xE#32)).toOption = some (.call { hint := 2, s := 8, p := 0, pneg := 0, cond := 0, rsv := 0, off := 0xE }) ∧
    (decode (0x14#8 ++ 1#2 ++ 2#6 ++ 0#4 ++ 0#1 ++ 0#3 ++ 0#8 ++ 0#32)).toOption = some (.ret { hint := 1, s := 2, p := 0, pneg := 0, cond := 0, rsv := 0, off := 0 }) ∧
    (decode (0x15#8 ++ 1#2 ++ 8#6 ++ 0#4 ++ 0#1 ++ 0#3 ++ 0#8 ++ 0x18#32)).toOption = some (.jt { hint := 1, s := 8, p := 0, pneg := 0, cond := 0, rsv := 0, off := 0x18 }) ∧
    (decode (0x16#8 ++ 0#2 ++ 0#6 ++ 4#4 ++ 1#1 ++ 0#3 ++ 0#8 ++ 0#32)).toOption = some (.mif { hint := 0, s := 0, p := 4, pneg := 1, cond := 0, rsv := 0, off := 0 }) ∧
    (decode (0x17#8 ++ 0#2 ++ 0#6 ++ 0#4 ++ 0#1 ++ 0#3 ++ 0#8 ++ 0#32)).toOption = some (.melse { hint := 0, s := 0, p := 0, pneg := 0, cond := 0, rsv := 0, off := 0 }) ∧
    (decode (0x19#8 ++ 0#2 ++ 0#6 ++ 0#4 ++ 0#1 ++ 0#3 ++ 0#8 ++ 0#32)).toOption = some (.mend { hint := 0, s := 0, p := 0, pneg := 0, cond := 0, rsv := 0, off := 0 }) ∧
    (decode (0x18#8 ++ 3#2 ++ 0#6 ++ 5#4 ++ 1#1 ++ 0#3 ++ 0#8 ++ 0x10#32)).toOption = some (.mloop { hint := 3, s := 0, p := 5, pneg := 1, cond := 0, rsv := 0, off := 0x10 }) ∧
    (decode (0x1A#8 ++ 0#2 ++ 0#6 ++ 0#4 ++ 0#1 ++ 0#3 ++ 0#8 ++ 0#32)).toOption = some (.exit { hint := 0, s := 0, p := 0, pneg := 0, cond := 0, rsv := 0, off := 0 }) ∧
    (decode (0x1B#8 ++ 0#2 ++ 0#6 ++ 0#4 ++ 0#1 ++ 0#3 ++ 0#8 ++ 0#32)).toOption = some (.yield { hint := 0, s := 0, p := 0, pneg := 0, cond := 0, rsv := 0, off := 0 }) ∧
    (decode (0x1C#8 ++ 0#2 ++ 0#6 ++ 0#4 ++ 0#1 ++ 0#3 ++ 0#8 ++ 0#32)).toOption = some (.nop { hint := 0, s := 0, p := 0, pneg := 0, cond := 0, rsv := 0, off := 0 }) := by
  decide +kernel

/-- Words of this family, field by field from the opcode down, as the format tables lay them out (R70 to R88). -/
theorem test_decode_vector_integer :
    (decode (0x20#8 ++ 1#4 ++ 0#1 ++ 0x28#8 ++ 0x24#8 ++ 0xE9#8 ++ 0#8 ++ 6#4 ++ 0#3 ++ 1#1 ++ 0#6 ++ 0#5)).toOption = some (.vadd { pred := 1, pneg := 0, d := 0x28, a := 0x24, b := 0xE9, c := 0, ty := 6, rnd := 0, sat := 1, md := 0, sub := 0 }) ∧
    (decode (0x21#8 ++ 8#4 ++ 0#1 ++ 0x10#8 ++ 0xC#8 ++ 0#8 ++ 0#8 ++ 2#4 ++ 0#3 ++ 1#1 ++ 0#6 ++ 0#5)).toOption = some (.vsub { pred := 8, pneg := 0, d := 0x10, a := 0xC, b := 0, c := 0, ty := 2, rnd := 0, sat := 1, md := 0, sub := 0 }) ∧
    (decode (0x22#8 ++ 0xD#4 ++ 0#1 ++ 5#8 ++ 1#8 ++ 0x2C#8 ++ 0#8 ++ 6#4 ++ 0#3 ++ 0#1 ++ 0#6 ++ 0#5)).toOption = some (.vmul { pred := 0xD, pneg := 0, d := 5, a := 1, b := 0x2C, c := 0, ty := 6, rnd := 0, sat := 0, md := 0, sub := 0 }) ∧
    (decode (0x23#8 ++ 5#4 ++ 1#1 ++ 0#8 ++ 0x24#8 ++ 1#8 ++ 0#8 ++ 1#4 ++ 0#3 ++ 0#1 ++ 0#6 ++ 0#5)).toOption = some (.vmulh { pred := 5, pneg := 1, d := 0, a := 0x24, b := 1, c := 0, ty := 1, rnd := 0, sat := 0, md := 0, sub := 0 }) ∧
    (decode (0x24#8 ++ 8#4 ++ 0#1 ++ 0x77#8 ++ 0xC9#8 ++ 0x39#8 ++ 8#8 ++ 2#4 ++ 0#3 ++ 0#1 ++ 0#6 ++ 0#5)).toOption = some (.vmad { pred := 8, pneg := 0, d := 0x77, a := 0xC9, b := 0x39, c := 8, ty := 2, rnd := 0, sat := 0, md := 0, sub := 0 }) ∧
    (decode (0x25#8 ++ 0xC#4 ++ 0#1 ++ 0#8 ++ 0xD#8 ++ 0#8 ++ 0#8 ++ 6#4 ++ 0#3 ++ 0#1 ++ 0#6 ++ 0#5)).toOption = some (.vdiv { pred := 0xC, pneg := 0, d := 0, a := 0xD, b := 0, c := 0, ty := 6, rnd := 0, sat := 0, md := 0, sub := 0 }) ∧
    (decode (0x26#8 ++ 7#4 ++ 0#1 ++ 9#8 ++ 0#8 ++ 0x38#8 ++ 0#8 ++ 2#4 ++ 0#3 ++ 0#1 ++ 0#6 ++ 0#5)).toOption = some (.vrem { pred := 7, pneg := 0, d := 9, a := 0, b := 0x38, c := 0, ty := 2, rnd := 0, sat := 0, md := 0, sub := 0 }) ∧
    (decode (0x27#8 ++ 0#4 ++ 1#1 ++ 0x18#8 ++ 0x34#8 ++ 8#8 ++ 0#8 ++ 2#4 ++ 0#3 ++ 0#1 ++ 0#6 ++ 0#5)).toOption = some (.vmin { pred := 0, pneg := 1, d := 0x18, a := 0x34, b := 8, c := 0, ty := 2, rnd := 0, sat := 0, md := 0, sub := 0 }) ∧
    (decode (0x28#8 ++ 8#4 ++ 0#1 ++ 0#8 ++ 3#8 ++ 8#8 ++ 0#8 ++ 1#4 ++ 0#3 ++ 0#1 ++ 0#6 ++ 0#5)).toOption = some (.vmax { pred := 8, pneg := 0, d := 0, a := 3, b := 8, c := 0, ty := 1, rnd := 0, sat := 0, md := 0, sub := 0 }) ∧
    (decode (0x29#8 ++ 0xE#4 ++ 1#1 ++ 3#8 ++ 0x10#8 ++ 0#8 ++ 0#8 ++ 2#4 ++ 0#3 ++ 0#1 ++ 0#6 ++ 0#5)).toOption = some (.vabs { pred := 0xE, pneg := 1, d := 3, a := 0x10, b := 0, c := 0, ty := 2, rnd := 0, sat := 0, md := 0, sub := 0 }) ∧
    (decode (0x2A#8 ++ 4#4 ++ 0#1 ++ 8#8 ++ 0xD#8 ++ 0#8 ++ 0#8 ++ 1#4 ++ 0#3 ++ 0#1 ++ 0#6 ++ 0#5)).toOption = some (.vneg { pred := 4, pneg := 0, d := 8, a := 0xD, b := 0, c := 0, ty := 1, rnd := 0, sat := 0, md := 0, sub := 0 }) ∧
    (decode (0x2B#8 ++ 0#4 ++ 1#1 ++ 0x38#8 ++ 5#8 ++ 3#8 ++ 0#8 ++ 2#4 ++ 0#3 ++ 0#1 ++ 0#6 ++ 0#5)).toOption = some (.vand { pred := 0, pneg := 1, d := 0x38, a := 5, b := 3, c := 0, ty := 2, rnd := 0, sat := 0, md := 0, sub := 0 }) ∧
    (decode (0x2C#8 ++ 2#4 ++ 0#1 ++ 4#8 ++ 0x2C#8 ++ 5#8 ++ 0#8 ++ 2#4 ++ 0#3 ++ 0#1 ++ 0#6 ++ 0#5)).toOption = some (.vor { pred := 2, pneg := 0, d := 4, a := 0x2C, b := 5, c := 0, ty := 2, rnd := 0, sat := 0, md := 0, sub := 0 }) ∧
    (decode (0x2D#8 ++ 0xC#4 ++ 0#1 ++ 0#8 ++ 0xD#8 ++ 0x10#8 ++ 0#8 ++ 2#4 ++ 0#3 ++ 0#1 ++ 0#6 ++ 0#5)).toOption = some (.vxor { pred := 0xC, pneg := 0, d := 0, a := 0xD, b := 0x10, c := 0, ty := 2, rnd := 0, sat := 0, md := 0, sub := 0 }) ∧
    (decode (0x2E#8 ++ 0#4 ++ 1#1 ++ 0#8 ++ 8#8 ++ 0x15#8 ++ 0#8 ++ 2#4 ++ 0#3 ++ 0#1 ++ 0#6 ++ 0#5)).toOption = some (.vandn { pred := 0, pneg := 1, d := 0, a := 8, b := 0x15, c := 0, ty := 2, rnd := 0, sat := 0, md := 0, sub := 0 }) ∧
    (decode (0x2F#8 ++ 2#4 ++ 0#1 ++ 0#8 ++ 0#8 ++ 0#8 ++ 0#8 ++ 3#4 ++ 0#3 ++ 0#1 ++ 0#6 ++ 0#5)).toOption = some (.vnot { pred := 2, pneg := 0, d := 0, a := 0, b := 0, c := 0, ty := 3, rnd := 0, sat := 0, md := 0, sub := 0 }) ∧
    (decode (0x30#8 ++ 0xC#4 ++ 1#1 ++ 0#8 ++ 0#8 ++ 0x14#8 ++ 0#8 ++ 3#4 ++ 0#3 ++ 0#1 ++ 0#6 ++ 0#5)).toOption = some (.vshl { pred := 0xC, pneg := 1, d := 0, a := 0, b := 0x14, c := 0, ty := 3, rnd := 0, sat := 0, md := 0, sub := 0 }) ∧
    (decode (0x31#8 ++ 0xE#4 ++ 0#1 ++ 0x18#8 ++ 8#8 ++ 0#8 ++ 0#8 ++ 3#4 ++ 0#3 ++ 0#1 ++ 0#6 ++ 0#5)).toOption = some (.vshr { pred := 0xE, pneg := 0, d := 0x18, a := 8, b := 0, c := 0, ty := 3, rnd := 0, sat := 0, md := 0, sub := 0 }) ∧
    (decode (0x32#8 ++ 6#4 ++ 1#1 ++ 2#8 ++ 0xD#8 ++ 0#8 ++ 0#8 ++ 2#4 ++ 0#3 ++ 0#1 ++ 0#6 ++ 0#5)).toOption = some (.vsra { pred := 6, pneg := 1, d := 2, a := 0xD, b := 0, c := 0, ty := 2, rnd := 0, sat := 0, md := 0, sub := 0 }) ∧
    (decode (0x33#8 ++ 5#4 ++ 0#1 ++ 0x10#8 ++ 0x6E#8 ++ 0#8 ++ 0#8 ++ 1#4 ++ 0#3 ++ 0#1 ++ 0#6 ++ 0#5)).toOption = some (.vclz { pred := 5, pneg := 0, d := 0x10, a := 0x6E, b := 0, c := 0, ty := 1, rnd := 0, sat := 0, md := 0, sub := 0 }) ∧
    (decode (0x34#8 ++ 0#4 ++ 0#1 ++ 0x1C#8 ++ 0x78#8 ++ 0#8 ++ 0#8 ++ 5#4 ++ 0#3 ++ 0#1 ++ 0#6 ++ 0#5)).toOption = some (.vpop { pred := 0, pneg := 0, d := 0x1C, a := 0x78, b := 0, c := 0, ty := 5, rnd := 0, sat := 0, md := 0, sub := 0 }) ∧
    (decode (0x35#8 ++ 0xA#4 ++ 1#1 ++ 0x8A#8 ++ 2#8 ++ 0#8 ++ 0#8 ++ 1#4 ++ 0#3 ++ 0#1 ++ 0#6 ++ 0#5)).toOption = some (.vbrev { pred := 0xA, pneg := 1, d := 0x8A, a := 2, b := 0, c := 0, ty := 1, rnd := 0, sat := 0, md := 0, sub := 0 }) ∧
    (decode (0x3C#8 ++ 0xC#4 ++ 1#1 ++ 0x1C#8 ++ 2#8 ++ 9#8 ++ 0x97#8 ++ 0#4 ++ 0#3 ++ 0#1 ++ 0#6 ++ 0#5)).toOption = some (.vsad { pred := 0xC, pneg := 1, d := 0x1C, a := 2, b := 9, c := 0x97, ty := 0, rnd := 0, sat := 0, md := 0, sub := 0 }) ∧
    (decode (0x3D#8 ++ 4#4 ++ 0#1 ++ 0x73#8 ++ 0xD#8 ++ 0x18#8 ++ 0x2C#8 ++ 4#4 ++ 0#3 ++ 1#1 ++ 0#6 ++ 0#5)).toOption = some (.vdot4 { pred := 4, pneg := 0, d := 0x73, a := 0xD, b := 0x18, c := 0x2C, ty := 4, rnd := 0, sat := 1, md := 0, sub := 0 }) ∧
    (decode (0x38#8 ++ 0#4 ++ 0#1 ++ 0x34#8 ++ 0x14#8 ++ 0#8 ++ 0#8 ++ 8#4 ++ 0#3 ++ 0#1 ++ 0#6 ++ 0#5)).toOption = some (.vmov { pred := 0, pneg := 0, d := 0x34, a := 0x14, b := 0, c := 0, ty := 8, rnd := 0, sat := 0, md := 0, sub := 0 }) ∧
    (decode (0x37#8 ++ 1#4 ++ 0#1 ++ 0x34#8 ++ 0x4D#8 ++ 0#8 ++ 3#8 ++ 8#4 ++ 0#3 ++ 0#1 ++ 0#6 ++ 0#5)).toOption = some (.vsel { pred := 1, pneg := 0, d := 0x34, a := 0x4D, b := 0, c := 3, ty := 8, rnd := 0, sat := 0, md := 0, sub := 0 }) ∧
    (decode (0x3A#8 ++ 9#4 ++ 0#1 ++ 0#8 ++ 2#8 ++ 0#8 ++ 0#8 ++ 2#4 ++ 0#3 ++ 0#1 ++ 0#6 ++ 0#5)).toOption = some (.vbcast { pred := 9, pneg := 0, d := 0, a := 2, b := 0, c := 0, ty := 2, rnd := 0, sat := 0, md := 0, sub := 0 }) ∧
    (decode (0x3B#8 ++ 0xA#4 ++ 1#1 ++ 1#8 ++ 0#8 ++ 0#8 ++ 0#8 ++ 0#4 ++ 0#3 ++ 0#1 ++ 0#6 ++ 0#5)).toOption = some (.vlane { pred := 0xA, pneg := 1, d := 1, a := 0, b := 0, c := 0, ty := 0, rnd := 0, sat := 0, md := 0, sub := 0 }) ∧
    (decode (0x3B#8 ++ 8#4 ++ 0#1 ++ 0x24#8 ++ 0x12#8 ++ 0x38#8 ++ 0#8 ++ 0#4 ++ 0#3 ++ 0#1 ++ 0#6 ++ 1#5)).toOption = some (.vlaneGet { pred := 8, pneg := 0, d := 0x24, a := 0x12, b := 0x38, c := 0, ty := 0, rnd := 0, sat := 0, md := 0, sub := 1 }) ∧
    (decode (0x3B#8 ++ 8#4 ++ 1#1 ++ 0xFE#8 ++ 8#8 ++ 0x38#8 ++ 0#8 ++ 0#4 ++ 0#3 ++ 0#1 ++ 0#6 ++ 2#5)).toOption = some (.vlanePut { pred := 8, pneg := 1, d := 0xFE, a := 8, b := 0x38, c := 0, ty := 0, rnd := 0, sat := 0, md := 0, sub := 2 }) ∧
    (decode (0x39#8 ++ 0xC#4 ++ 4#8 ++ 0#8 ++ 8#4 ++ 5#32)).toOption = some (.vli { pred := 0xC, d := 4, a := 0, ty := 8, imm := 5 }) ∧
    (decode (0x36#8 ++ 8#4 ++ 0#1 ++ 0xF#8 ++ 0x10#8 ++ 0x18#8 ++ 0#8 ++ 3#4 ++ 0#3 ++ 0#1 ++ 0#6 ++ 0#5)).toOption = some (.vcmp { pred := 8, pneg := 0, d := 0xF, a := 0x10, b := 0x18, c := 0, ty := 3, rnd := 0, sat := 0, md := 0, sub := 0 }) := by
  decide +kernel

/-- Words of this family, field by field from the opcode down, as the format tables lay them out (R70 to R88). -/
theorem test_decode_vector_float :
    (decode (0x3E#8 ++ 0xC#4 ++ 0#1 ++ 0x45#8 ++ 0x2C#8 ++ 0xA#8 ++ 0#8 ++ 8#4 ++ 0#3 ++ 0#1 ++ 0x10#6 ++ 0#5)).toOption = some (.fadd { pred := 0xC, pneg := 0, d := 0x45, a := 0x2C, b := 0xA, c := 0, ty := 8, rnd := 0, sat := 0, md := 0x10, sub := 0 }) ∧
    (decode (0x3F#8 ++ 0#4 ++ 0#1 ++ 0x4E#8 ++ 0#8 ++ 0xCE#8 ++ 0#8 ++ 8#4 ++ 3#3 ++ 0#1 ++ 0xC#6 ++ 0#5)).toOption = some (.fsub { pred := 0, pneg := 0, d := 0x4E, a := 0, b := 0xCE, c := 0, ty := 8, rnd := 3, sat := 0, md := 0xC, sub := 0 }) ∧
    (decode (0x40#8 ++ 0xE#4 ++ 0#1 ++ 0x52#8 ++ 0xB#8 ++ 3#8 ++ 0#8 ++ 8#4 ++ 0#3 ++ 0#1 ++ 0x18#6 ++ 0#5)).toOption = some (.fmul { pred := 0xE, pneg := 0, d := 0x52, a := 0xB, b := 3, c := 0, ty := 8, rnd := 0, sat := 0, md := 0x18, sub := 0 }) ∧
    (decode (0x41#8 ++ 0xC#4 ++ 0#1 ++ 0x1C#8 ++ 0x10#8 ++ 0#8 ++ 0x30#8 ++ 9#4 ++ 3#3 ++ 0#1 ++ 0x28#6 ++ 0#5)).toOption = some (.ffma { pred := 0xC, pneg := 0, d := 0x1C, a := 0x10, b := 0, c := 0x30, ty := 9, rnd := 3, sat := 0, md := 0x28, sub := 0 }) ∧
    (decode (0x42#8 ++ 0#4 ++ 1#1 ++ 0x10#8 ++ 8#8 ++ 0xA#8 ++ 0#8 ++ 8#4 ++ 0#3 ++ 0#1 ++ 0x24#6 ++ 0#5)).toOption = some (.fmin { pred := 0, pneg := 1, d := 0x10, a := 8, b := 0xA, c := 0, ty := 8, rnd := 0, sat := 0, md := 0x24, sub := 0 }) ∧
    (decode (0x43#8 ++ 7#4 ++ 0#1 ++ 0x10#8 ++ 0#8 ++ 1#8 ++ 0#8 ++ 9#4 ++ 0#3 ++ 0#1 ++ 0x34#6 ++ 0#5)).toOption = some (.fmax { pred := 7, pneg := 0, d := 0x10, a := 0, b := 1, c := 0, ty := 9, rnd := 0, sat := 0, md := 0x34, sub := 0 }) ∧
    (decode (0x44#8 ++ 8#4 ++ 1#1 ++ 0#8 ++ 9#8 ++ 3#8 ++ 0#8 ++ 0xA#4 ++ 1#3 ++ 0#1 ++ 8#6 ++ 0#5)).toOption = some (.fdiv { pred := 8, pneg := 1, d := 0, a := 9, b := 3, c := 0, ty := 0xA, rnd := 1, sat := 0, md := 8, sub := 0 }) ∧
    (decode (0x45#8 ++ 0#4 ++ 0#1 ++ 8#8 ++ 3#8 ++ 0#8 ++ 0#8 ++ 8#4 ++ 1#3 ++ 0#1 ++ 0#6 ++ 0#5)).toOption = some (.fsqrt { pred := 0, pneg := 0, d := 8, a := 3, b := 0, c := 0, ty := 8, rnd := 1, sat := 0, md := 0, sub := 0 }) ∧
    (decode (0x46#8 ++ 0xF#4 ++ 0#1 ++ 0#8 ++ 0#8 ++ 0#8 ++ 0#8 ++ 8#4 ++ 3#3 ++ 0#1 ++ 0#6 ++ 0#5)).toOption = some (.frcp { pred := 0xF, pneg := 0, d := 0, a := 0, b := 0, c := 0, ty := 8, rnd := 3, sat := 0, md := 0, sub := 0 }) ∧
    (decode (0x47#8 ++ 0#4 ++ 0#1 ++ 0#8 ++ 0x18#8 ++ 0#8 ++ 0#8 ++ 8#4 ++ 2#3 ++ 0#1 ++ 0#6 ++ 0#5)).toOption = some (.frsq { pred := 0, pneg := 0, d := 0, a := 0x18, b := 0, c := 0, ty := 8, rnd := 2, sat := 0, md := 0, sub := 0 }) ∧
    (decode (0x48#8 ++ 1#4 ++ 0#1 ++ 6#8 ++ 1#8 ++ 0#8 ++ 0#8 ++ 9#4 ++ 0#3 ++ 0#1 ++ 0#6 ++ 0#5)).toOption = some (.fexp2 { pred := 1, pneg := 0, d := 6, a := 1, b := 0, c := 0, ty := 9, rnd := 0, sat := 0, md := 0, sub := 0 }) ∧
    (decode (0x49#8 ++ 3#4 ++ 0#1 ++ 0x70#8 ++ 1#8 ++ 0#8 ++ 0#8 ++ 8#4 ++ 1#3 ++ 0#1 ++ 0#6 ++ 0#5)).toOption = some (.flog2 { pred := 3, pneg := 0, d := 0x70, a := 1, b := 0, c := 0, ty := 8, rnd := 1, sat := 0, md := 0, sub := 0 }) ∧
    (decode (0x4A#8 ++ 0xE#4 ++ 1#1 ++ 0x10#8 ++ 0#8 ++ 0#8 ++ 0#8 ++ 8#4 ++ 0#3 ++ 0#1 ++ 0#6 ++ 0#5)).toOption = some (.fsin { pred := 0xE, pneg := 1, d := 0x10, a := 0, b := 0, c := 0, ty := 8, rnd := 0, sat := 0, md := 0, sub := 0 }) ∧
    (decode (0x4B#8 ++ 8#4 ++ 1#1 ++ 0xE0#8 ++ 0#8 ++ 0#8 ++ 0#8 ++ 8#4 ++ 0#3 ++ 0#1 ++ 0#6 ++ 0#5)).toOption = some (.fcos { pred := 8, pneg := 1, d := 0xE0, a := 0, b := 0, c := 0, ty := 8, rnd := 0, sat := 0, md := 0, sub := 0 }) ∧
    (decode (0x4C#8 ++ 0#4 ++ 0#1 ++ 0x38#8 ++ 0#8 ++ 0#8 ++ 0#8 ++ 8#4 ++ 1#3 ++ 0#1 ++ 0#6 ++ 0#5)).toOption = some (.frnd { pred := 0, pneg := 0, d := 0x38, a := 0, b := 0, c := 0, ty := 8, rnd := 1, sat := 0, md := 0, sub := 0 }) ∧
    (decode (0x4D#8 ++ 0#4 ++ 1#1 ++ 9#8 ++ 2#8 ++ 8#8 ++ 0#8 ++ 8#4 ++ 0#3 ++ 0#1 ++ 0x10#6 ++ 2#5)).toOption = some (.fcmp { pred := 0, pneg := 1, d := 9, a := 2, b := 8, c := 0, ty := 8, rnd := 0, sat := 0, md := 0x10, sub := 2 }) ∧
    (decode (0x4E#8 ++ 2#4 ++ 0#1 ++ 0#8 ++ 0#8 ++ 0#8 ++ 0#8 ++ 8#4 ++ 0#3 ++ 0#1 ++ 0#6 ++ 0#5)).toOption = some (.fclass { pred := 2, pneg := 0, d := 0, a := 0, b := 0, c := 0, ty := 8, rnd := 0, sat := 0, md := 0, sub := 0 }) ∧
    (decode (0x4F#8 ++ 8#4 ++ 0#1 ++ 0x20#8 ++ 0#8 ++ 3#8 ++ 0#8 ++ 0xA#4 ++ 0#3 ++ 0#1 ++ 0#6 ++ 0#5)).toOption = some (.fscale { pred := 8, pneg := 0, d := 0x20, a := 0, b := 3, c := 0, ty := 0xA, rnd := 0, sat := 0, md := 0, sub := 0 }) ∧
    (decode (0x50#8 ++ 0#4 ++ 1#1 ++ 0x41#8 ++ 7#8 ++ 0x4C#8 ++ 0#8 ++ 0xA#4 ++ 0#3 ++ 0#1 ++ 8#6 ++ 0#5)).toOption = some (.fsgn { pred := 0, pneg := 1, d := 0x41, a := 7, b := 0x4C, c := 0, ty := 0xA, rnd := 0, sat := 0, md := 8, sub := 0 }) := by
  decide +kernel

/-- Words of this family, field by field from the opcode down, as the format tables lay them out (R70 to R88). -/
theorem test_decode_convert_lanes_predicates :
    (decode (0x5E#8 ++ 8#4 ++ 0x36#8 ++ 2#8 ++ 6#4 ++ 0x14#32)).toOption = some (.vaddImm { pred := 8, d := 0x36, a := 2, ty := 6, imm := 0x14 }) ∧
    (decode (0x5F#8 ++ 0xD#4 ++ 0xA9#8 ++ 0xF3#8 ++ 6#4 ++ 0xF#32)).toOption = some (.vandImm { pred := 0xD, d := 0xA9, a := 0xF3, ty := 6, imm := 0xF }) ∧
    (decode (0x51#8 ++ 4#4 ++ 0#1 ++ 0x18#8 ++ 0#8 ++ 0#8 ++ 0#8 ++ 8#4 ++ 4#3 ++ 0#1 ++ 0#6 ++ 1#5)).toOption = some (.cvt { pred := 4, pneg := 0, d := 0x18, a := 0, b := 0, c := 0, ty := 8, rnd := 4, sat := 0, md := 0, sub := 1 }) ∧
    (decode (0x52#8 ++ 0xA#4 ++ 0#1 ++ 0#8 ++ 0#8 ++ 0#8 ++ 0#8 ++ 0#4 ++ 0#3 ++ 0#1 ++ 0#6 ++ 8#5)).toOption = some (.vpack { pred := 0xA, pneg := 0, d := 0, a := 0, b := 0, c := 0, ty := 0, rnd := 0, sat := 0, md := 0, sub := 8 }) ∧
    (decode (0x53#8 ++ 4#4 ++ 0#1 ++ 0x38#8 ++ 0#8 ++ 0#8 ++ 0#8 ++ 6#4 ++ 0#3 ++ 0#1 ++ 0#6 ++ 0#5)).toOption = some (.vunpk { pred := 4, pneg := 0, d := 0x38, a := 0, b := 0, c := 0, ty := 6, rnd := 0, sat := 0, md := 0, sub := 0 }) ∧
    (decode (0x54#8 ++ 0#4 ++ 1#1 ++ 8#8 ++ 0x18#8 ++ 0#8 ++ 0#8 ++ 0#4 ++ 4#3 ++ 0#1 ++ 0x10#6 ++ 0#5)).toOption = some (.vdith { pred := 0, pneg := 1, d := 8, a := 0x18, b := 0, c := 0, ty := 0, rnd := 4, sat := 0, md := 0x10, sub := 0 }) ∧
    (decode (0x55#8 ++ 0xE#4 ++ 1#1 ++ 2#8 ++ 0x30#8 ++ 0xA0#8 ++ 0#8 ++ 2#4 ++ 0#3 ++ 0#1 ++ 0#6 ++ 0#5)).toOption = some (.vshfl { pred := 0xE, pneg := 1, d := 2, a := 0x30, b := 0xA0, c := 0, ty := 2, rnd := 0, sat := 0, md := 0, sub := 0 }) ∧
    (decode (0x55#8 ++ 3#4 ++ 0#1 ++ 6#8 ++ 9#8 ++ 0xC#8 ++ 0#8 ++ 2#4 ++ 0#3 ++ 0#1 ++ 0#6 ++ 1#5)).toOption = some (.vshflXor { pred := 3, pneg := 0, d := 6, a := 9, b := 0xC, c := 0, ty := 2, rnd := 0, sat := 0, md := 0, sub := 1 }) ∧
    (decode (0x56#8 ++ 3#4 ++ 1#1 ++ 0#8 ++ 2#8 ++ 0x34#8 ++ 0#8 ++ 6#4 ++ 0#3 ++ 0#1 ++ 0#6 ++ 0#5)).toOption = some (.vrot { pred := 3, pneg := 1, d := 0, a := 2, b := 0x34, c := 0, ty := 6, rnd := 0, sat := 0, md := 0, sub := 0 }) ∧
    (decode (0x57#8 ++ 6#4 ++ 1#1 ++ 0#8 ++ 0xF#8 ++ 0#8 ++ 0#8 ++ 8#4 ++ 2#3 ++ 0#1 ++ 0#6 ++ 0#5)).toOption = some (.vred { pred := 6, pneg := 1, d := 0, a := 0xF, b := 0, c := 0, ty := 8, rnd := 2, sat := 0, md := 0, sub := 0 }) ∧
    (decode (0x58#8 ++ 0xE#4 ++ 0#1 ++ 0#8 ++ 7#8 ++ 0#8 ++ 0#8 ++ 8#4 ++ 0#3 ++ 0#1 ++ 0#6 ++ 1#5)).toOption = some (.vscan { pred := 0xE, pneg := 0, d := 0, a := 7, b := 0, c := 0, ty := 8, rnd := 0, sat := 0, md := 0, sub := 1 }) ∧
    (decode (0x59#8 ++ 8#4 ++ 0#1 ++ 0x20#8 ++ 9#8 ++ 0#8 ++ 0#8 ++ 0#4 ++ 0#3 ++ 0#1 ++ 0#6 ++ 0#5)).toOption = some (.vballot { pred := 8, pneg := 0, d := 0x20, a := 9, b := 0, c := 0, ty := 0, rnd := 0, sat := 0, md := 0, sub := 0 }) ∧
    (decode (0x59#8 ++ 3#4 ++ 0#1 ++ 5#8 ++ 7#8 ++ 0#8 ++ 0#8 ++ 0#4 ++ 0#3 ++ 0#1 ++ 0#6 ++ 1#5)).toOption = some (.vballotCnt { pred := 3, pneg := 0, d := 5, a := 7, b := 0, c := 0, ty := 0, rnd := 0, sat := 0, md := 0, sub := 1 }) ∧
    (decode (0x5A#8 ++ 0xC#4 ++ 0#1 ++ 0xE#8 ++ 0#8 ++ 0#8 ++ 4#8 ++ 1#4 ++ 0#3 ++ 0#1 ++ 0#6 ++ 0#5)).toOption = some (.vcompress { pred := 0xC, pneg := 0, d := 0xE, a := 0, b := 0, c := 4, ty := 1, rnd := 0, sat := 0, md := 0, sub := 0 }) ∧
    (decode (0x5B#8 ++ 8#4 ++ 0#1 ++ 0x10#8 ++ 3#8 ++ 0#8 ++ 0#8 ++ 1#4 ++ 0#3 ++ 0#1 ++ 0#6 ++ 0#5)).toOption = some (.vexpand { pred := 8, pneg := 0, d := 0x10, a := 3, b := 0, c := 0, ty := 1, rnd := 0, sat := 0, md := 0, sub := 0 }) ∧
    (decode (0x5C#8 ++ 0#4 ++ 0#1 ++ 3#8 ++ 8#8 ++ 0#8 ++ 0#8 ++ 0#4 ++ 0#3 ++ 0#1 ++ 0#6 ++ 0#5)).toOption = some (.pand { pred := 0, pneg := 0, d := 3, a := 8, b := 0, c := 0, ty := 0, rnd := 0, sat := 0, md := 0, sub := 0 }) ∧
    (decode (0x5C#8 ++ 0#4 ++ 0#1 ++ 0xB#8 ++ 2#8 ++ 0#8 ++ 0#8 ++ 0#4 ++ 0#3 ++ 0#1 ++ 0#6 ++ 1#5)).toOption = some (.por { pred := 0, pneg := 0, d := 0xB, a := 2, b := 0, c := 0, ty := 0, rnd := 0, sat := 0, md := 0, sub := 1 }) ∧
    (decode (0x5C#8 ++ 0#4 ++ 0#1 ++ 8#8 ++ 0#8 ++ 5#8 ++ 0#8 ++ 0#4 ++ 0#3 ++ 0#1 ++ 0#6 ++ 2#5)).toOption = some (.pxor { pred := 0, pneg := 0, d := 8, a := 0, b := 5, c := 0, ty := 0, rnd := 0, sat := 0, md := 0, sub := 2 }) ∧
    (decode (0x5C#8 ++ 0#4 ++ 0#1 ++ 9#8 ++ 5#8 ++ 0#8 ++ 0#8 ++ 0#4 ++ 0#3 ++ 0#1 ++ 0#6 ++ 3#5)).toOption = some (.pnot { pred := 0, pneg := 0, d := 9, a := 5, b := 0, c := 0, ty := 0, rnd := 0, sat := 0, md := 0, sub := 3 }) ∧
    (decode (0x5D#8 ++ 0#4 ++ 3#8 ++ 0#8 ++ 0#4 ++ 0x12E07062#32)).toOption = some (.pset { pred := 0, d := 3, a := 0, ty := 0, imm := 0x12E07062 }) := by
  decide +kernel

/-- Words of this family, field by field from the opcode down, as the format tables lay them out (R70 to R88). -/
theorem test_decode_memory :
    (decode (0x60#8 ++ 0xE#4 ++ 0x34#8 ++ 6#6 ++ 0x3F#6 ++ 1#2 ++ 1#2 ++ 4#4 ++ 3#2 ++ 0x49F26#22)).toOption = some (.ld { pred := 0xE, d := 0x34, sb := 6, vx := 0x3F, scale := 1, width := 1, scope := 4, cache := 3, off := 0x49F26 }) ∧
    (decode (0x61#8 ++ 2#4 ++ 0xD#8 ++ 0x16#6 ++ 0x3F#6 ++ 3#2 ++ 1#2 ++ 8#4 ++ 1#2 ++ 0x14#22)).toOption = some (.ldSigned { pred := 2, d := 0xD, sb := 0x16, vx := 0x3F, scale := 3, width := 1, scope := 8, cache := 1, off := 0x14 }) ∧
    (decode (0x63#8 ++ 0#4 ++ 0xA#8 ++ 0x10#6 ++ 0x3F#6 ++ 0#2 ++ 3#2 ++ 8#4 ++ 2#2 ++ 0xBEA99#22)).toOption = some (.ldu { pred := 0, d := 0xA, sb := 0x10, vx := 0x3F, scale := 0, width := 3, scope := 8, cache := 2, off := 0xBEA99 }) ∧
    (decode (0x64#8 ++ 0#4 ++ 3#8 ++ 2#6 ++ 0x3F#6 ++ 0#2 ++ 1#2 ++ 1#4 ++ 1#2 ++ 8#22)).toOption = some (.lduSigned { pred := 0, d := 3, sb := 2, vx := 0x3F, scale := 0, width := 1, scope := 1, cache := 1, off := 8 }) ∧
    (decode (0x62#8 ++ 0xF#4 ++ 0xE#8 ++ 4#6 ++ 0x3F#6 ++ 3#2 ++ 2#2 ++ 8#4 ++ 2#2 ++ 6#22)).toOption = some (.st { pred := 0xF, d := 0xE, sb := 4, vx := 0x3F, scale := 3, width := 2, scope := 8, cache := 2, off := 6 }) ∧
    (decode (0x65#8 ++ 0#4 ++ 0x34#8 ++ 0x18#6 ++ 0x3F#6 ++ 0#2 ++ 1#2 ++ 6#4 ++ 3#2 ++ 2#22)).toOption = some (.stu { pred := 0, d := 0x34, sb := 0x18, vx := 0x3F, scale := 0, width := 1, scope := 6, cache := 3, off := 2 }) ∧
    (decode (0x66#8 ++ 8#4 ++ 0#8 ++ 0#6 ++ 2#6 ++ 3#2 ++ 0#2 ++ 7#4 ++ 2#2 ++ 0x20#22)).toOption = some (.pref { pred := 8, d := 0, sb := 0, vx := 2, scale := 3, width := 0, scope := 7, cache := 2, off := 0x20 }) ∧
    (decode (0x67#8 ++ 0#4 ++ 0#8 ++ 0x26#6 ++ 0x3F#6 ++ 2#2 ++ 0#2 ++ 7#4 ++ 0#2 ++ 8#22)).toOption = some (.cwb { pred := 0, d := 0, sb := 0x26, vx := 0x3F, scale := 2, width := 0, scope := 7, cache := 0, off := 8 }) ∧
    (decode (0x68#8 ++ 9#4 ++ 0#8 ++ 7#6 ++ 0x3F#6 ++ 3#2 ++ 0#2 ++ 2#4 ++ 0#2 ++ 0x2A20A7#22)).toOption = some (.cinv { pred := 9, d := 0, sb := 7, vx := 0x3F, scale := 3, width := 0, scope := 2, cache := 0, off := 0x2A20A7 }) ∧
    (decode (0x69#8 ++ 0xB#4 ++ 0#8 ++ 1#6 ++ 0x3F#6 ++ 3#2 ++ 0#2 ++ 2#4 ++ 0#2 ++ 8#22)).toOption = some (.cwbi { pred := 0xB, d := 0, sb := 1, vx := 0x3F, scale := 3, width := 0, scope := 2, cache := 0, off := 8 }) ∧
    (decode (0x70#8 ++ 8#4 ++ 0xC4#8 ++ 0x39#6 ++ 0#6 ++ 1#2 ++ 3#2 ++ 0xA#4 ++ 2#2 ++ 4#4 ++ 0x18#18)).toOption = some (.atom { pred := 8, d := 0xC4, sb := 0x39, vx := 0, scale := 1, width := 3, scope := 0xA, ord := 2, aop := 4, off := 0x18 }) ∧
    (decode (0x71#8 ++ 0#4 ++ 0xD#8 ++ 0x14#6 ++ 0x3F#6 ++ 0#2 ++ 2#2 ++ 4#4 ++ 1#2 ++ 4#4 ++ 0xE#18)).toOption = some (.atomu { pred := 0, d := 0xD, sb := 0x14, vx := 0x3F, scale := 0, width := 2, scope := 4, ord := 1, aop := 4, off := 0xE }) ∧
    (decode (0x72#8 ++ 0xD#4 ++ 0x15#8 ++ 0xE#6 ++ 0x3F#6 ++ 0#2 ++ 2#2 ++ 4#4 ++ 2#2 ++ 6#4 ++ 0xC#18)).toOption = some (.red { pred := 0xD, d := 0x15, sb := 0xE, vx := 0x3F, scale := 0, width := 2, scope := 4, ord := 2, aop := 6, off := 0xC }) := by
  decide +kernel

/-- Words of this family, field by field from the opcode down, as the format tables lay them out (R70 to R88). -/
theorem test_decode_fence_barrier :
    (decode (0x78#8 ++ 0#6 ++ 0#6 ++ 0#6 ++ 3#4 ++ 0#4 ++ 0#6 ++ 0#6 ++ 1#2 ++ 0#16)).toOption = some (.fence { d := 0, a := 0, b := 0, scope := 3, fn := 0, cls1 := 0, cls2 := 0, ord := 1, imm := 0 }) ∧
    (decode (0x79#8 ++ 0#6 ++ 0#6 ++ 0#6 ++ 4#4 ++ 0#4 ++ 3#6 ++ 0x31#6 ++ 0#2 ++ 0#16)).toOption = some (.xfence { d := 0, a := 0, b := 0, scope := 4, fn := 0, cls1 := 3, cls2 := 0x31, ord := 0, imm := 0 }) ∧
    (decode (0x7A#8 ++ 0#6 ++ 5#6 ++ 0#6 ++ 3#4 ++ 0#4 ++ 0#6 ++ 0#6 ++ 0#2 ++ 0x21#16)).toOption = some (.barInit { d := 0, a := 5, b := 0, scope := 3, fn := 0, cls1 := 0, cls2 := 0, ord := 0, imm := 0x21 }) ∧
    (decode (0x7B#8 ++ 0x10#6 ++ 0#6 ++ 0#6 ++ 0#4 ++ 0#4 ++ 0#6 ++ 0#6 ++ 0#2 ++ 0xE#16)).toOption = some (.barArr { d := 0x10, a := 0, b := 0, scope := 0, fn := 0, cls1 := 0, cls2 := 0, ord := 0, imm := 0xE }) ∧
    (decode (0x7C#8 ++ 0#6 ++ 8#6 ++ 0#6 ++ 0#4 ++ 0#4 ++ 0#6 ++ 0#6 ++ 0#2 ++ 0#16)).toOption = some (.barWait { d := 0, a := 8, b := 0, scope := 0, fn := 0, cls1 := 0, cls2 := 0, ord := 0, imm := 0 }) ∧
    (decode (0x7D#8 ++ 0#6 ++ 0#6 ++ 0#6 ++ 0#4 ++ 0#4 ++ 0#6 ++ 0#6 ++ 0#2 ++ 1#16)).toOption = some (.barSync { d := 0, a := 0, b := 0, scope := 0, fn := 0, cls1 := 0, cls2 := 0, ord := 0, imm := 1 }) ∧
    (decode (0x7D#8 ++ 0#6 ++ 0#6 ++ 0#6 ++ 0#4 ++ 1#4 ++ 0#6 ++ 0#6 ++ 0#2 ++ 0#16)).toOption = some (.barSyncPeer { d := 0, a := 0, b := 0, scope := 0, fn := 1, cls1 := 0, cls2 := 0, ord := 0, imm := 0 }) ∧
    (decode (0x7E#8 ++ 0#6 ++ 0#6 ++ 0#6 ++ 0#4 ++ 0#4 ++ 0#6 ++ 0#6 ++ 0#2 ++ 0x18#16)).toOption = some (.barDrop { d := 0, a := 0, b := 0, scope := 0, fn := 0, cls1 := 0, cls2 := 0, ord := 0, imm := 0x18 }) ∧
    (decode (0x7E#8 ++ 0#6 ++ 0#6 ++ 0#6 ++ 0#4 ++ 1#4 ++ 0#6 ++ 0#6 ++ 0#2 ++ 0x11#16)).toOption = some (.barDropPeer { d := 0, a := 0, b := 0, scope := 0, fn := 1, cls1 := 0, cls2 := 0, ord := 0, imm := 0x11 }) ∧
    (decode (0x7F#8 ++ 2#6 ++ 0#6 ++ 0#6 ++ 0#4 ++ 0#4 ++ 0#6 ++ 0#6 ++ 0#2 ++ 0x30#16)).toOption = some (.barPeer { d := 2, a := 0, b := 0, scope := 0, fn := 0, cls1 := 0, cls2 := 0, ord := 0, imm := 0x30 }) ∧
    (decode (0x7F#8 ++ 0#6 ++ 0#6 ++ 0#6 ++ 0#4 ++ 1#4 ++ 0#6 ++ 0#6 ++ 0#2 ++ 0#16)).toOption = some (.barGrid { d := 0, a := 0, b := 0, scope := 0, fn := 1, cls1 := 0, cls2 := 0, ord := 0, imm := 0 }) := by
  decide +kernel

/-- Words of this family, field by field from the opcode down, as the format tables lay them out (R70 to R88). -/
theorem test_decode_tiles_link :
    (decode (0x80#8 ++ 0#4 ++ 0x2C#8 ++ 0#6 ++ 0xD#6 ++ 0#8 ++ 8#4 ++ 0#2 ++ 1#1 ++ 0x30#6 ++ 0#11)).toOption = some (.talloc { pred := 0, d := 0x2C, h := 0, i := 0xD, j := 0, ty := 8, mode := 0, lvl := 1, b := 0x30, imm := 0 }) ∧
    (decode (0x81#8 ++ 0#4 ++ 0#8 ++ 0x2C#6 ++ 0#6 ++ 0#8 ++ 0#4 ++ 0#2 ++ 0#1 ++ 0#6 ++ 0#11)).toOption = some (.tfree { pred := 0, d := 0, h := 0x2C, i := 0, j := 0, ty := 0, mode := 0, lvl := 0, b := 0, imm := 0 }) ∧
    (decode (0x82#8 ++ 0#4 ++ 0xB#8 ++ 1#6 ++ 0#6 ++ 0#8 ++ 0#4 ++ 0#2 ++ 0#1 ++ 0#6 ++ 0#11)).toOption = some (.tinfo { pred := 0, d := 0xB, h := 1, i := 0, j := 0, ty := 0, mode := 0, lvl := 0, b := 0, imm := 0 }) ∧
    (decode (0x88#8 ++ 0#4 ++ 0#8 ++ 3#6 ++ 5#6 ++ 0#8 ++ 0#4 ++ 0#2 ++ 0#1 ++ 7#6 ++ 1#11)).toOption = some (.tsetFull { pred := 0, d := 0, h := 3, i := 5, j := 0, ty := 0, mode := 0, lvl := 0, b := 7, imm := 1 }) ∧
    (decode (0x88#8 ++ 0#4 ++ 0#8 ++ 0x18#6 ++ 0x34#6 ++ 0#8 ++ 0#4 ++ 0#2 ++ 0#1 ++ 0x38#6 ++ 0#11)).toOption = some (.tsetEmpty { pred := 0, d := 0, h := 0x18, i := 0x34, j := 0, ty := 0, mode := 0, lvl := 0, b := 0x38, imm := 0 }) ∧
    (decode (0x89#8 ++ 0#4 ++ 0#8 ++ 8#6 ++ 0#6 ++ 0#8 ++ 0#4 ++ 0#2 ++ 0#1 ++ 0#6 ++ 0#11)).toOption = some (.twait { pred := 0, d := 0, h := 8, i := 0, j := 0, ty := 0, mode := 0, lvl := 0, b := 0, imm := 0 }) ∧
    (decode (0x83#8 ++ 8#4 ++ 0xF#8 ++ 0x2B#6 ++ 7#6 ++ 0xE1#8 ++ 9#4 ++ 0#2 ++ 0#1 ++ 0#6 ++ 0#11)).toOption = some (.tld { pred := 8, d := 0xF, h := 0x2B, i := 7, j := 0xE1, ty := 9, mode := 0, lvl := 0, b := 0, imm := 0 }) ∧
    (decode (0x84#8 ++ 9#4 ++ 8#8 ++ 0x2E#6 ++ 0x20#6 ++ 0x79#8 ++ 0xA#4 ++ 0#2 ++ 0#1 ++ 0#6 ++ 0#11)).toOption = some (.tst { pred := 9, d := 8, h := 0x2E, i := 0x20, j := 0x79, ty := 0xA, mode := 0, lvl := 0, b := 0, imm := 0 }) ∧
    (decode (0x85#8 ++ 3#4 ++ 0x34#8 ++ 1#6 ++ 0xA#6 ++ 4#8 ++ 2#4 ++ 0#2 ++ 0#1 ++ 0#6 ++ 0#11)).toOption = some (.tldw { pred := 3, d := 0x34, h := 1, i := 0xA, j := 4, ty := 2, mode := 0, lvl := 0, b := 0, imm := 0 }) ∧
    (decode (0x86#8 ++ 5#4 ++ 0x2B#8 ++ 0x2C#6 ++ 0#6 ++ 3#8 ++ 8#4 ++ 0#2 ++ 0#1 ++ 0#6 ++ 0#11)).toOption = some (.tldc { pred := 5, d := 0x2B, h := 0x2C, i := 0, j := 3, ty := 8, mode := 0, lvl := 0, b := 0, imm := 0 }) ∧
    (decode (0x87#8 ++ 0xC#4 ++ 0x24#8 ++ 0x14#6 ++ 0x20#6 ++ 0xE3#8 ++ 2#4 ++ 0#2 ++ 0#1 ++ 0#6 ++ 0#11)).toOption = some (.tstw { pred := 0xC, d := 0x24, h := 0x14, i := 0x20, j := 0xE3, ty := 2, mode := 0, lvl := 0, b := 0, imm := 0 }) ∧
    (decode (0x8A#8 ++ 0#4 ++ 5#8 ++ 0x1C#6 ++ 0x18#6 ++ 0#8 ++ 0#4 ++ 0#2 ++ 0#1 ++ 0xF#6 ++ 0x5B4#11)).toOption = some (.tcpi { pred := 0, d := 5, h := 0x1C, i := 0x18, j := 0, ty := 0, mode := 0, lvl := 0, b := 0xF, imm := 0x5B4 }) ∧
    (decode (0x8B#8 ++ 0#4 ++ 1#8 ++ 0x20#6 ++ 3#6 ++ 0#8 ++ 0#4 ++ 0#2 ++ 0#1 ++ 0x3A#6 ++ 0x185#11)).toOption = some (.tcpo { pred := 0, d := 1, h := 0x20, i := 3, j := 0, ty := 0, mode := 0, lvl := 0, b := 0x3A, imm := 0x185 }) ∧
    (decode (0x8C#8 ++ 0#4 ++ 0x38#8 ++ 0x3E#6 ++ 0x18#6 ++ 0#8 ++ 0#4 ++ 0#2 ++ 0#1 ++ 0#6 ++ 0x10#11)).toOption = some (.tcpm { pred := 0, d := 0x38, h := 0x3E, i := 0x18, j := 0, ty := 0, mode := 0, lvl := 0, b := 0, imm := 0x10 }) ∧
    (decode (0x8D#8 ++ 0#4 ++ 1#8 ++ 0x1C#6 ++ 0#6 ++ 0#8 ++ 0#4 ++ 0#2 ++ 0#1 ++ 0x10#6 ++ 0#11)).toOption = some (.lput { pred := 0, d := 1, h := 0x1C, i := 0, j := 0, ty := 0, mode := 0, lvl := 0, b := 0x10, imm := 0 }) ∧
    (decode (0x8E#8 ++ 0#4 ++ 5#8 ++ 0x3A#6 ++ 0x31#6 ++ 0#8 ++ 0#4 ++ 0#2 ++ 0#1 ++ 1#6 ++ 0#11)).toOption = some (.lget { pred := 0, d := 5, h := 0x3A, i := 0x31, j := 0, ty := 0, mode := 0, lvl := 0, b := 1, imm := 0 }) := by
  decide +kernel

/-- Words of this family, field by field from the opcode down, as the format tables lay them out (R70 to R88). -/
theorem test_decode_matrix :
    (decode (0x90#8 ++ 3#4 ++ 3#2 ++ 0#2 ++ 8#8 ++ 0x18#8 ++ 0#6 ++ 2#5 ++ 0#4 ++ 0x18#8 ++ 0#2 ++ 0#3 ++ 0#1 ++ 0#1 ++ 0#1 ++ 0#1)).toOption = some (.mac { pred := 3, ad := 3, as_ := 0, va := 8, vb := 0x18, sh := 0, km1 := 2, wf := 0, vs := 0x18, bsel := 0, rnd := 0, adv := 0, sat := 0, osc := 0, rsv := 0 }) ∧
    (decode (0x91#8 ++ 2#4 ++ 0#2 ++ 0#2 ++ 0#8 ++ 0#8 ++ 0x10#6 ++ 0xD#5 ++ 0#4 ++ 0x18#8 ++ 3#2 ++ 0#3 ++ 0#1 ++ 0#1 ++ 0#1 ++ 0#1)).toOption = some (.macg { pred := 2, ad := 0, as_ := 0, va := 0, vb := 0, sh := 0x10, km1 := 0xD, wf := 0, vs := 0x18, bsel := 3, rnd := 0, adv := 0, sat := 0, osc := 0, rsv := 0 }) ∧
    (decode (0x92#8 ++ 4#4 ++ 2#2 ++ 0#2 ++ 0#8 ++ 0#8 ++ 0#6 ++ 0#5 ++ 0#4 ++ 0#8 ++ 0#2 ++ 0#3 ++ 0#1 ++ 0#1 ++ 0#1 ++ 0#1)).toOption = some (.azero { pred := 4, ad := 2, as_ := 0, va := 0, vb := 0, sh := 0, km1 := 0, wf := 0, vs := 0, bsel := 0, rnd := 0, adv := 0, sat := 0, osc := 0, rsv := 0 }) ∧
    (decode (0x94#8 ++ 1#4 ++ 3#2 ++ 0#2 ++ 0#8 ++ 0#8 ++ 0#6 ++ 0#5 ++ 0#4 ++ 0#8 ++ 0#2 ++ 0#3 ++ 0#1 ++ 0#1 ++ 0#1 ++ 0#1)).toOption = some (.amov { pred := 1, ad := 3, as_ := 0, va := 0, vb := 0, sh := 0, km1 := 0, wf := 0, vs := 0, bsel := 0, rnd := 0, adv := 0, sat := 0, osc := 0, rsv := 0 }) ∧
    (decode (0x95#8 ++ 3#4 ++ 2#2 ++ 0#2 ++ 9#8 ++ 0#8 ++ 0xC#6 ++ 0#5 ++ 8#4 ++ 0#8 ++ 0#2 ++ 1#3 ++ 0#1 ++ 0#1 ++ 0#1 ++ 0#1)).toOption = some (.aput { pred := 3, ad := 2, as_ := 0, va := 9, vb := 0, sh := 0xC, km1 := 0, wf := 8, vs := 0, bsel := 0, rnd := 1, adv := 0, sat := 0, osc := 0, rsv := 0 }) ∧
    (decode (0x93#8 ++ 8#4 ++ 2#2 ++ 0#2 ++ 0#8 ++ 8#8 ++ 0x18#6 ++ 0#5 ++ 0#4 ++ 0#8 ++ 0#2 ++ 0#3 ++ 0#1 ++ 0#1 ++ 1#1 ++ 0#1)).toOption = some (.aread { pred := 8, ad := 2, as_ := 0, va := 0, vb := 8, sh := 0x18, km1 := 0, wf := 0, vs := 0, bsel := 0, rnd := 0, adv := 0, sat := 0, osc := 1, rsv := 0 }) := by
  decide +kernel

/-- Words of this family, field by field from the opcode down, as the format tables lay them out (R70 to R88). -/
theorem test_decode_fields_rays_visibility :
    (decode (0xA0#8 ++ 2#4 ++ 1#8 ++ 4#8 ++ 0x24#6 ++ 0#6 ++ 0#4 ++ 0#20)).toOption = some (.sdfe { pred := 2, vd := 1, va := 4, sa := 0x24, sb := 0, mode := 0, imm := 0 }) ∧
    (decode (0xA1#8 ++ 0#4 ++ 0xB9#8 ++ 0xD5#8 ++ 0xD#6 ++ 0x28#6 ++ 4#4 ++ 0#20)).toOption = some (.sdfprune { pred := 0, vd := 0xB9, va := 0xD5, sa := 0xD, sb := 0x28, mode := 4, imm := 0 }) ∧
    (decode (0xA2#8 ++ 4#4 ++ 0#8 ++ 0x10#8 ++ 0x18#6 ++ 0x37#6 ++ 1#4 ++ 0xD#20)).toOption = some (.march { pred := 4, vd := 0, va := 0x10, sa := 0x18, sb := 0x37, mode := 1, imm := 0xD }) ∧
    (decode (0xA3#8 ++ 3#4 ++ 0x60#8 ++ 0#8 ++ 6#6 ++ 0#6 ++ 0#4 ++ 0x28#20)).toOption = some (.mres { pred := 3, vd := 0x60, va := 0, sa := 6, sb := 0, mode := 0, imm := 0x28 }) ∧
    (decode (0xA4#8 ++ 2#4 ++ 0#8 ++ 0xB8#8 ++ 0#6 ++ 0#6 ++ 0#4 ++ 0#20)).toOption = some (.mresume { pred := 2, vd := 0, va := 0xB8, sa := 0, sb := 0, mode := 0, imm := 0 }) ∧
    (decode (0xA5#8 ++ 8#4 ++ 0#8 ++ 0#8 ++ 0#6 ++ 0#6 ++ 0#4 ++ 0#20)).toOption = some (.mcancel { pred := 8, vd := 0, va := 0, sa := 0, sb := 0, mode := 0, imm := 0 }) ∧
    (decode (0xA6#8 ++ 0xC#4 ++ 0x20#8 ++ 0x30#8 ++ 4#6 ++ 0#6 ++ 0#4 ++ 0#20)).toOption = some (.bsample { pred := 0xC, vd := 0x20, va := 0x30, sa := 4, sb := 0, mode := 0, imm := 0 }) ∧
    (decode (0xB0#8 ++ 1#4 ++ 0x96#8 ++ 3#8 ++ 7#6 ++ 0#6 ++ 0#4 ++ 0#20)).toOption = some (.vis { pred := 1, vd := 0x96, va := 3, sa := 7, sb := 0, mode := 0, imm := 0 }) ∧
    (decode (0xB1#8 ++ 0#4 ++ 0#8 ++ 0#8 ++ 0x30#6 ++ 0#6 ++ 0#4 ++ 0#20)).toOption = some (.rast { pred := 0, vd := 0, va := 0, sa := 0x30, sb := 0, mode := 0, imm := 0 }) ∧
    (decode (0xB2#8 ++ 0#4 ++ 2#8 ++ 0x46#8 ++ 4#6 ++ 0#6 ++ 0#4 ++ 0#20)).toOption = some (.rproj { pred := 0, vd := 2, va := 0x46, sa := 4, sb := 0, mode := 0, imm := 0 }) := by
  decide +kernel

/-- Words of this family, field by field from the opcode down, as the format tables lay them out (R70 to R88). -/
theorem test_decode_launch_queue_system :
    (decode (0xB8#8 ++ 0x14#6 ++ 0#6 ++ 0#6 ++ 0#4 ++ 0#4 ++ 0#6 ++ 0#6 ++ 0#2 ++ 0#16)).toOption = some (.fetch { d := 0x14, a := 0, b := 0, scope := 0, fn := 0, cls1 := 0, cls2 := 0, ord := 0, imm := 0 }) ∧
    (decode (0xB9#8 ++ 0x34#6 ++ 3#6 ++ 0#6 ++ 0#4 ++ 0#4 ++ 0#6 ++ 0#6 ++ 0#2 ++ 0#16)).toOption = some (.launch { d := 0x34, a := 3, b := 0, scope := 0, fn := 0, cls1 := 0, cls2 := 0, ord := 0, imm := 0 }) ∧
    (decode (0xBA#8 ++ 4#6 ++ 2#6 ++ 0#6 ++ 0#4 ++ 0#4 ++ 0#6 ++ 0#6 ++ 0#2 ++ 0#16)).toOption = some (.join { d := 4, a := 2, b := 0, scope := 0, fn := 0, cls1 := 0, cls2 := 0, ord := 0, imm := 0 }) ∧
    (decode (0xBB#8 ++ 0#6 ++ 0x1C#6 ++ 0x30#6 ++ 0#4 ++ 0#4 ++ 0#6 ++ 0#6 ++ 0#2 ++ 0#16)).toOption = some (.hpass { d := 0, a := 0x1C, b := 0x30, scope := 0, fn := 0, cls1 := 0, cls2 := 0, ord := 0, imm := 0 }) ∧
    (decode (0xBC#8 ++ 0x30#6 ++ 0#6 ++ 0#6 ++ 0#4 ++ 0#4 ++ 0#6 ++ 0#6 ++ 0#2 ++ 6#16)).toOption = some (.linfo { d := 0x30, a := 0, b := 0, scope := 0, fn := 0, cls1 := 0, cls2 := 0, ord := 0, imm := 6 }) ∧
    (decode (0xBD#8 ++ 0x38#6 ++ 0x14#6 ++ 1#6 ++ 0#4 ++ 0#4 ++ 0#6 ++ 0#6 ++ 0#2 ++ 0#16)).toOption = some (.enq { d := 0x38, a := 0x14, b := 1, scope := 0, fn := 0, cls1 := 0, cls2 := 0, ord := 0, imm := 0 }) ∧
    (decode (0xBE#8 ++ 0#6 ++ 0#6 ++ 0#6 ++ 0#4 ++ 0#4 ++ 0#6 ++ 0#6 ++ 0#2 ++ 0#16)).toOption = some (.qfence { d := 0, a := 0, b := 0, scope := 0, fn := 0, cls1 := 0, cls2 := 0, ord := 0, imm := 0 }) ∧
    (decode (0xBF#8 ++ 0x18#6 ++ 0x38#6 ++ 0#6 ++ 0#4 ++ 0#4 ++ 0#6 ++ 0#6 ++ 0#2 ++ 0#16)).toOption = some (.cnt { d := 0x18, a := 0x38, b := 0, scope := 0, fn := 0, cls1 := 0, cls2 := 0, ord := 0, imm := 0 }) ∧
    (decode (0xBF#8 ++ 0#6 ++ 0x3A#6 ++ 0x18#6 ++ 0#4 ++ 0#4 ++ 0#6 ++ 0#6 ++ 0#2 ++ 8#16)).toOption = some (.cntWait { d := 0, a := 0x3A, b := 0x18, scope := 0, fn := 0, cls1 := 0, cls2 := 0, ord := 0, imm := 8 }) ∧
    (decode (0xBF#8 ++ 1#6 ++ 0#6 ++ 0#6 ++ 0#4 ++ 1#4 ++ 0#6 ++ 0#6 ++ 0#2 ++ 3#16)).toOption = some (.cancel { d := 1, a := 0, b := 0, scope := 0, fn := 1, cls1 := 0, cls2 := 0, ord := 0, imm := 3 }) ∧
    (decode (0xC2#8 ++ 0x38#6 ++ 0#6 ++ 0#6 ++ 0#4 ++ 0#4 ++ 0#6 ++ 0#6 ++ 0#2 ++ 4#16)).toOption = some (.mfs { d := 0x38, a := 0, b := 0, scope := 0, fn := 0, cls1 := 0, cls2 := 0, ord := 0, imm := 4 }) ∧
    (decode (0xC3#8 ++ 0#6 ++ 0x30#6 ++ 0#6 ++ 0#4 ++ 0#4 ++ 0#6 ++ 0#6 ++ 0#2 ++ 1#16)).toOption = some (.mts { d := 0, a := 0x30, b := 0, scope := 0, fn := 0, cls1 := 0, cls2 := 0, ord := 0, imm := 1 }) ∧
    (decode (0xC0#8 ++ 0#6 ++ 0#6 ++ 0#6 ++ 0#4 ++ 0#4 ++ 0#6 ++ 0#6 ++ 0#2 ++ 3#16)).toOption = some (.trap { d := 0, a := 0, b := 0, scope := 0, fn := 0, cls1 := 0, cls2 := 0, ord := 0, imm := 3 }) ∧
    (decode (0xC4#8 ++ 0#6 ++ 0#6 ++ 0#6 ++ 0#4 ++ 0#4 ++ 0#6 ++ 0#6 ++ 0#2 ++ 0x10#16)).toOption = some (.brk { d := 0, a := 0, b := 0, scope := 0, fn := 0, cls1 := 0, cls2 := 0, ord := 0, imm := 0x10 }) ∧
    (decode (0xC1#8 ++ 0#6 ++ 0#6 ++ 0#6 ++ 0#4 ++ 0#4 ++ 0#6 ++ 0#6 ++ 0#2 ++ 0#16)).toOption = some (.tret { d := 0, a := 0, b := 0, scope := 0, fn := 0, cls1 := 0, cls2 := 0, ord := 0, imm := 0 }) ∧
    (decode (0xC1#8 ++ 0#6 ++ 0#6 ++ 0#6 ++ 0#4 ++ 1#4 ++ 0#6 ++ 0#6 ++ 0#2 ++ 0#16)).toOption = some (.tretSkip { d := 0, a := 0, b := 0, scope := 0, fn := 1, cls1 := 0, cls2 := 0, ord := 0, imm := 0 }) ∧
    (decode (0xC5#8 ++ 8#6 ++ 8#6 ++ 3#6 ++ 0#4 ++ 0#4 ++ 0#6 ++ 0#6 ++ 0#2 ++ 0#16)).toOption = some (.fwcallSys { d := 8, a := 8, b := 3, scope := 0, fn := 0, cls1 := 0, cls2 := 0, ord := 0, imm := 0 }) ∧
    (decode (0xC5#8 ++ 0#6 ++ 0#6 ++ 0#6 ++ 0#4 ++ 0#4 ++ 0#6 ++ 0#6 ++ 0#2 ++ 1#16)).toOption = some (.fwcallXz { d := 0, a := 0, b := 0, scope := 0, fn := 0, cls1 := 0, cls2 := 0, ord := 0, imm := 1 }) := by
  decide +kernel

/-- Words that the manual prints in its worked examples (chapters 4, 5, 6, 15). -/
theorem test_decode_printed :
    (decode 0x01105000_7A106000).toOption = some (.sbfx { d := 4, a := 5, ty := 7, fn := 10, f1 := 8, f2 := 12 }) ∧
    (decode 0x5E001012_FFFFFFFF).toOption = some (.vaddImm { d := 1, a := 1, ty := 2, imm := 0xFFFFFFFF }) ∧
    (decode 0x18001000_FFFFFFFD).toOption = some (.mloop { p := 1, off := -3 }) ∧
    (decode 0x1A000000_00000000).toOption = some (.exit { }) ∧
    (decode 0x5A004008_00130000).toOption = some (.vcompress { d := 8, a := 1, c := 2, ty := 6 }) ∧
    (decode 0x700060C7_A7400000).toOption = some (.atom { d := 6, sb := 3, vx := 7, scale := 2, width := 2, scope := 7, ord := 1 }) ∧
    (decode 0x92000000_00000000).toOption = some (.azero { }) ∧
    (decode 0x90000804_003A0400).toOption = some (.mac { va := 8, vb := 4, km1 := 1, wf := 13, vs := 2 }) ∧
    (decode 0x93000014_00020C42).toOption = some (.aread { vb := 20, wf := 1, vs := 6, rnd := 4, osc := 1 }) := by
  decide +kernel

/-! ## Well-formedness -/

/-- Ill-formed instructions with the low bit of the field that fails, for each kind of check: a field that must be 0, a type outside the entry's set, SAT, RND or MOD
not accepted, a register class, an odd pair, a shift count, a field past bit 63, a scope, a width, an order, an operation code, a
mode, a reserved bit (R70, R90). -/
theorem test_ill_formed : ∀ p ∈ ([
    (Instr.sadd { c := 1, ty := 3 }, 32), (.sadd { ty := 2 }, 28), (.sadd { ty := 3, fn := 1 }, 24), (.sadd { ty := 3, f1 := 1 }, 17),
    (.sadd { ty := 3, f2 := 1 }, 11), (.sadd { ty := 3, rsv := 1 }, 0), (.smulh { ty := 3, fn := 3, sat := 1 }, 23), (.sabs { ty := 7, fn := 8 }, 28),
    (.sabs { ty := 3, fn := 8, b := 1 }, 38), (.sbfx { ty := 3, fn := 10, f1 := 8, f2 := 57 }, 17), (.scmp { ty := 3, fn := 6 }, 24),
    (.sshlImm { fn := 7, imm := 64 }, 0), (.sli { a := 1 }, 44), (.slih { imm := 0x1000000 }, 0), (.scmpImm { fn := 6 }, 40), (.br { s := 1 }, 48),
    (.br { cond := 1 }, 40), (.br { rsv := 1 }, 32), (.brc { cond := 6 }, 40), (.brm { cond := 4 }, 40), (.mif { off := 1 }, 0), (.mend { p := 1 }, 44),
    (.vadd { ty := 8 }, 15), (.vadd { ty := 2, rnd := 1 }, 12), (.vadd { ty := 2, md := 1 }, 5), (.vadd { ty := 2, sub := 1 }, 0),
    (.vadd { ty := 3, d := 1 }, 43), (.vmul { ty := 3, c := 1 }, 19), (.vdiv { ty := 1 }, 15), (.vabs { ty := 6 }, 15),
    (.vbcast { ty := 2, a := 64 }, 35), (.vsel { ty := 2, c := 16 }, 19), (.vcmp { ty := 2, d := 16 }, 43), (.vcmp { ty := 2, sub := 6 }, 0),
    (.vli { a := 1, ty := 2 }, 36), (.pset { d := 16 }, 44), (.pand { pred := 1 }, 52), (.fadd { ty := 2 }, 15), (.fadd { ty := 8, rnd := 4 }, 12),
    (.fadd { ty := 8, sat := 1 }, 11), (.fcmp { ty := 9 }, 15), (.fsgn { ty := 8, sub := 3 }, 0), (.cvt { ty := 8, sub := 8 }, 15),
    (.cvt { ty := 13, sub := 8 }, 15), (.vred { ty := 2, sub := 6 }, 0), (.vscan { ty := 2, sub := 16 }, 0), (.vballot { d := 64 }, 43),
    (.ld { scope := 0, width := 2 }, 24), (.ld { scope := 12, width := 2 }, 24), (.ldSigned { scope := 1, width := 2 }, 28),
    (.ld { scope := 1, width := 3, d := 1 }, 44), (.stu { scope := 1, pred := 1 }, 52), (.cwb { scope := 1 }, 24),
    (.atom { scope := 1, width := 1 }, 28), (.red { scope := 1, width := 2, aop := 9 }, 18), (.xfence { scope := 2, cls1 := 0, cls2 := 32 }, 24),
    (.talloc { ty := 15 }, 20), (.talloc { mode := 1, lvl := 1, ty := 2 }, 18), (.tld { ty := 13, lvl := 1 }, 20), (.mac { wf := 0, vs := 1 }, 9),
    (.mac { wf := 5 }, 17), (.azero { va := 1 }, 40), (.aread { wf := 3 }, 17), (.sdfe { vd := 1, mode := 8 }, 20), (.march { vd := 1 }, 44),
    (.vis { vd := 1 }, 44), (.launch { b := 1 }, 38), (.linfo { imm := 8 }, 0), (.barInit { scope := 2, imm := 64 }, 0), (.cnt { imm := 8 }, 0),
    (.cancel { imm := 8 }, 30), (.mfs { imm := 18 }, 0), (.trap { d := 1 }, 50), (.fwcallXz { imm := 1, d := 1 }, 50), (.lput { lvl := 1 }, 17),
    (.atom { scope := 1, width := 2, aop := 13 }, 18)] : List (Instr × Nat)),
    WellFormed p.1 = false ∧ p.1.badField = some p.2 := by
  decide +kernel
/-- An event of the device is no word. -/
theorem test_event_no_word : WellFormed .coldReset = false ∧ WellFormed (.storeDrain 0 0) = false := by decide +kernel

/-- A word with a reserved bit, and one with a field value its entry does not allow, fail at the low bit of that field; two bad
fields fail at the higher one (R91). -/
theorem test_bad_field_named :
    decode (0x00#8 ++ 5#6 ++ 6#6 ++ 7#6 ++ 0#6 ++ 3#4 ++ 0#4 ++ 0#1 ++ 0#6 ++ 0#6 ++ 1#11) = .error 0 ∧
    decode (0x00#8 ++ 5#6 ++ 6#6 ++ 7#6 ++ 1#6 ++ 3#4 ++ 0#4 ++ 0#1 ++ 0#6 ++ 0#6 ++ 1#11) = .error 32 ∧
    decode (0x00#8 ++ 5#6 ++ 6#6 ++ 7#6 ++ 0#6 ++ 2#4 ++ 0#4 ++ 0#1 ++ 0#6 ++ 0#6 ++ 0#11) = .error 28 := by
  refine ⟨?_, ?_, ?_⟩ <;> rfl

/-- withFetchWord places a word where the next step fetches it, and decodeTableWord reads the same. -/
theorem test_first_instruction :
    decodeTableWord 64 0x041400789ABCDEF0 = some (.sli { d := 5, imm := 0x789ABCDEF0 }) ∧
    (match step (State.reset.withFetchWord 64 0x041400789ABCDEF0) with | .next t => t.g.sget 5 | _ => 0) = 0x789ABCDEF0 := by
  decide +kernel

/-! ## Scalar and control steps -/

/-- 2^64 − 1 plus 3 wraps to 2 (R113); under .sat the largest .i64 plus 3 stays and sets SAT, bit 5 (R26, R52). -/
theorem test_sadd :
    (after (.sadd { d := 4, a := 5, b := 6, ty := 3 }) ((base.setS 5 0xFFFFFFFFFFFFFFFF).setS 6 3)).g.sget 4 = 2 ∧
    (let t := after (.sadd { d := 4, a := 5, b := 6, ty := 3, sat := 1 }) ((base.setS 5 0x7FFFFFFFFFFFFFFF).setS 6 3)
     t.g.sget 4 = 0x7FFFFFFFFFFFFFFF ∧ t.g.r.qflags = 0x20) := by decide +kernel
/-- ssub of .n64 under .sat stops at 0 (R112). -/
theorem test_ssub_sat : (after (.ssub { d := 4, a := 5, b := 6, ty := 7, fn := 1, sat := 1 }) ((base.setS 5 2).setS 6 3)).g.sget 4 = 0 := by decide +kernel
/-- The high half of (−1)·(−1) is 0, and of (2^64 − 1)² is 2^64 − 2 (R113). -/
theorem test_smulh :
    (after (.smulh { d := 4, a := 5, b := 5, ty := 3, fn := 3 }) (base.setS 5 0xFFFFFFFFFFFFFFFF)).g.sget 4 = 0 ∧
    (after (.smulh { d := 4, a := 5, b := 5, ty := 7, fn := 3 }) (base.setS 5 0xFFFFFFFFFFFFFFFF)).g.sget 4 = 0xFFFFFFFFFFFFFFFE := by decide +kernel
/-- −7 / 2 is −3 with remainder −1; a zero divisor gives all ones and sets DZ, bit 3, or raises FPEXC when DZ is enabled (R27). -/
theorem test_sdiv :
    (after (.sdiv { d := 4, a := 5, b := 6, ty := 3, fn := 4 }) ((base.setS 5 (-7)).setS 6 2)).g.sget 4 = -3 ∧
    (after (.srem { d := 4, a := 5, b := 6, ty := 3, fn := 5 }) ((base.setS 5 (-7)).setS 6 2)).g.sget 4 = -1 ∧
    (let t := after (.sdiv { d := 4, a := 5, b := 0, ty := 3, fn := 4 }) (base.setS 5 7)
     t.g.sget 4 = 0xFFFFFFFFFFFFFFFF ∧ t.g.r.fflags = 8) ∧
    (let t := after (.sdiv { d := 4, a := 5, b := 0, ty := 3, fn := 4 }) { base with g := { base.g with r := { base.g.r with fenable := 8, s := base.g.r.s.set 4 9 } } }
     t.g.sget 4 = 9 ∧ t.g.r.trap.tcause = 0x08 ∧ t.g.r.trap.einfo = 8) := by decide +kernel
/-- The worked values of chapter 4: sbfx.n64 and sbfx.i64 of 0xABCD00, #8, #12. -/
theorem test_sbfx :
    (after (.sbfx { d := 4, a := 5, ty := 7, fn := 10, f1 := 8, f2 := 12 }) (base.setS 5 0xABCD00)).g.sget 4 = 0xBCD ∧
    (after (.sbfx { d := 4, a := 5, ty := 3, fn := 10, f1 := 8, f2 := 12 }) (base.setS 5 0xABCD00)).g.sget 4 = 0xFFFFFFFFFFFFFBCD := by decide +kernel
/-- Shift counts are taken modulo 64 (R113), and srot rotates left. -/
theorem test_shift_counts :
    (after (.sshl { d := 4, a := 5, b := 6, ty := 3, fn := 4 }) ((base.setS 5 3).setS 6 65)).g.sget 4 = 6 ∧
    (after (.srot { d := 4, a := 5, b := 6, ty := 3, fn := 7 }) ((base.setS 5 0x8000000000000001).setS 6 1)).g.sget 4 = 3 ∧
    (after (.ssra { d := 4, a := 5, b := 6, ty := 3, fn := 6 }) ((base.setS 5 0x8000000000000000).setS 6 63)).g.sget 4 = 0xFFFFFFFFFFFFFFFF := by decide +kernel
/-- scmp.lt is signed for .i64 and unsigned for .n64 (R113); slih replaces bits 63:40 (R116). -/
theorem test_scmp_slih :
    (after (.scmp { d := 4, a := 5, b := 6, ty := 3, fn := 2 }) ((base.setS 5 (-1)).setS 6 1)).g.sget 4 = 1 ∧
    (after (.scmp { d := 4, a := 5, b := 6, ty := 7, fn := 2 }) ((base.setS 5 (-1)).setS 6 1)).g.sget 4 = 0 ∧
    (after (.slih { d := 4, a := 5, imm := 0xABCDEF }) (base.setS 5 0xFFFFFFFFFFFFFFFF)).g.sget 4 = 0xABCDEFFFFFFFFFFF := by decide +kernel
/-- A branch takes effect from the last word of its block, and is ILLEGAL before it (R59); call links the fall-through header. -/
theorem test_branches :
    (after (.br { off := -3 }) base).g.pc = 0x2FFF0 ∧ (after (.br { off := -3 }) base).g.entering = true ∧
    (after (.brc { s := 5, cond := 2, off := 4 }) (base.setS 5 1)).g.pc = 0x30010 ∧
    (after (.brc { s := 5, cond := 2, off := 4 }) (base.setS 5 (-1))).g.pc = 0x30028 ∧
    (after (.call { s := 9, off := 4 }) base).g.sget 9 = 0x30010 ∧
    (after (.br { off := -3 }) inBlock).g.r.trap.tcause = 1 := by decide +kernel
/-- The worked example of R128: on pass 1 mask 0xF meets p1 = 0xB; mloop pushes a LOOP frame and goes back; when no lane is left it
falls through. -/
theorem test_mloop :
    (let t := after (.mloop { p := 1, off := -3 }) ((masked 0xF base).setP 1 0xB)
     t.g.r.mask = 0xB ∧ t.g.r.stack.length = 1 ∧ t.g.r.stack.map (·.m) = [0xF] ∧ t.g.pc = 0x2FFF0) ∧
    (let t := after (.mloop { p := 1, off := -3 }) (masked 2 base)
     t.g.r.mask = 0 ∧ t.g.pc = 0x30010) := by decide +kernel
/-- mif, melse and mend under mask 0xFF and p2 = 0x26 (chapter 5's example); melse with an empty stack is MASKOVF code 1. -/
theorem test_mask_stack :
    (let a := after (.mif { p := 2 }) ((masked 0xFF inBlock).setP 2 0x26)
     let b := after (.melse { }) a
     a.g.r.mask = 0x26 ∧ b.g.r.mask = 0xD9 ∧ (after (.mend { }) b).g.r.mask = 0xFF ∧ (after (.mend { }) b).g.r.stack = []) ∧
    (let t := after (.melse { }) inBlock
     t.g.r.trap.tcause = 0x11 ∧ t.g.r.trap.einfo = 1 ∧ t.g.phase = .faulted) := by decide +kernel

/-! ## Vector steps -/

/-- vadd.i16 wraps in each half of a lane, and .sat clamps and sets SAT (R26, R136); inactive lanes keep their value. -/
theorem test_vadd :
    (let t := after (.vadd { d := 4, a := 5, b := 6, ty := 1 }) (masked 1 (vec 6 [0x00010001, 0x00010001] (vec 5 [0x7FFFFFFF, 1] base)))
     t.g.vget 4 0 = 0x80000000 ∧ t.g.vget 4 1 = 0 ∧ t.g.r.qflags = 0) ∧
    (let t := after (.vadd { d := 4, a := 5, b := 6, ty := 1, sat := 1 }) (masked 1 (vec 6 [0x00010001] (vec 5 [0x7FFFFFFE] base)))
     t.g.vget 4 0 = 0x7FFFFFFF ∧ t.g.r.qflags = 0x20) := by decide +kernel
/-- vsra, vbrev and vclz of one lane (R136). -/
theorem test_vector_bits :
    (after (.vsra { d := 4, a := 5, b := 6, ty := 2 }) (masked 1 (vec 6 [36] (vec 5 [0x80000000] base)))).g.vget 4 0 = 0xF8000000 ∧
    (after (.vbrev { d := 4, a := 5, ty := 2 }) (masked 1 (vec 5 [6] base))).g.vget 4 0 = 0x60000000 ∧
    (after (.vclz { d := 4, a := 5, ty := 2 }) (masked 1 (vec 5 [1] base))).g.vget 4 0 = 31 := by decide +kernel
/-- vdot4.i8 of (−1, 2, 3, 4) and (5, 6, 7, 8) onto 100 is 100 − 5 + 12 + 21 + 32 = 160; vsad.n8 of bytes 1 and 255 adds 254 (R138). -/
theorem test_vdot4_vsad :
    (after (.vdot4 { d := 4, a := 5, b := 6, c := 7 }) (masked 1 (vec 7 [100] (vec 6 [0x08070605] (vec 5 [0x040302FF] base))))).g.vget 4 0 = 160 ∧
    (after (.vsad { d := 4, a := 5, b := 6, c := 7, ty := 4 }) (masked 1 (vec 6 [0xFF] (vec 5 [1] base)))).g.vget 4 0 = 254 := by decide +kernel
/-- vcmp writes 0 in lanes outside the active mask (R142): step 2 of the loop of R128, lanes 1, 3, 0, 2 against 0. -/
theorem test_vcmp :
    (after (.vcmp { d := 1, a := 5, b := 6, ty := 2, sub := 4 }) (masked 0xF (vec 5 [1, 3, 0, 2, 9] (base.setP 1 0xFFFFFFFF)))).g.pget 1 = 0xB := by decide +kernel
/-- Chapter 5's example: the ballot count of p2 = 0x26 is 3, vcompress packs 11, 12, 15, and vexpand takes 40, 41, 42 to lanes 1, 2, 5. -/
theorem test_refill :
    (let s := vec 30 [40, 41, 42, 43, 44, 45, 46, 47] (vec 1 [10, 11, 12, 13, 14, 15, 16, 17] ((masked 0xFF base).setP 2 0x26))
     (after (.vballotCnt { d := 5, a := 2 }) s).g.sget 5 = 3 ∧
     ((List.range 8).map fun i => ((after (.vcompress { d := 8, a := 1, c := 2, ty := 6 }) s).g.vget 8 i).toNat) = [11, 12, 15, 0, 0, 0, 0, 0] ∧
     ((List.range 8).map fun i => ((after (.vexpand { d := 1, a := 30, ty := 6 }) (masked 0x26 s)).g.vget 1 i).toNat) = [10, 40, 41, 13, 14, 42, 16, 17]) := by
  decide +kernel
/-- vred.add over lanes 1, 2, 3; vscan.add in its inclusive and exclusive forms (R158, R159). -/
theorem test_vred_vscan :
    (let s := masked 7 (vec 5 [1, 2, 3, 100] base)
     (after (.vred { d := 4, a := 5, ty := 2 }) s).g.sget 4 = 6 ∧
     ((List.range 3).map fun i => ((after (.vscan { d := 4, a := 5, ty := 2 }) s).g.vget 4 i).toNat) = [1, 3, 6] ∧
     ((List.range 3).map fun i => ((after (.vscan { d := 4, a := 5, ty := 2, sub := 8 }) s).g.vget 4 i).toNat) = [0, 1, 3]) := by decide +kernel
/-- vshfl reads the source before it writes it, when it is also the destination (R157). -/
theorem test_vshfl : ((List.range 3).map fun i =>
    ((after (.vshfl { d := 5, a := 5, b := 6, ty := 2 }) (masked 7 (vec 6 [2, 0, 33] (vec 5 [7, 8, 9] base)))).g.vget 5 i).toNat) = [9, 7, 8] := by decide +kernel
/-- 1 + 2 is 3; 1/0 is +∞ with DZ; √−1 is the canonical NaN with NV; 2^3 is 8 and its logarithm 3 (R29, R143, R144). -/
theorem test_float :
    (after (.fadd { d := 4, a := 5, b := 6, ty := 8 }) (masked 1 (vec 6 [0x40000000] (vec 5 [0x3F800000] base)))).g.vget 4 0 = 0x40400000 ∧
    (let t := after (.fdiv { d := 4, a := 5, b := 6, ty := 8 }) (masked 1 (vec 5 [0x3F800000] base))
     t.g.vget 4 0 = 0x7F800000 ∧ t.g.r.fflags = 8) ∧
    (let t := after (.fsqrt { d := 4, a := 5, ty := 8 }) (masked 1 (vec 5 [0xBF800000] base))
     t.g.vget 4 0 = 0x7FC00000 ∧ t.g.r.fflags = 0x10) ∧
    (after (.fexp2 { d := 4, a := 5, ty := 8 }) (masked 1 (vec 5 [0x40400000] base))).g.vget 4 0 = 0x41000000 ∧
    (after (.flog2 { d := 4, a := 5, ty := 8 }) (masked 1 (vec 5 [0x41000000] base))).g.vget 4 0 = 0x40400000 := by decide +kernel
/-- frnd.rne of −0.25 is −0 (R146); fclass of it is bit 3 and of −0 bit 5 (R148); fmin of −0 and +0 is −0 (R145). -/
theorem test_float_classes :
    (after (.frnd { d := 4, a := 5, ty := 8 }) (masked 1 (vec 5 [0xBE800000] base))).g.vget 4 0 = 0x80000000 ∧
    (after (.fclass { d := 4, a := 5, ty := 8 }) (masked 1 (vec 5 [0xBE800000] base))).g.vget 4 0 = 8 ∧
    (after (.fclass { d := 4, a := 5, ty := 8 }) (masked 1 (vec 5 [0x80000000] base))).g.vget 4 0 = 0x20 ∧
    (after (.fmin { d := 4, a := 5, b := 6, ty := 8 }) (masked 1 (vec 5 [0x80000000] base))).g.vget 4 0 = 0x80000000 := by decide +kernel
/-- fcmp.lt with a quiet NaN is false and sets NV; .ne with it is true and sets nothing (R147). -/
theorem test_fcmp :
    (let s := masked 1 (vec 5 [0x7FC00000] base)
     let t := after (.fcmp { d := 1, a := 5, b := 6, ty := 8, sub := 2 }) s
     let u := after (.fcmp { d := 1, a := 5, b := 6, ty := 8, sub := 1 }) s
     t.g.pget 1 = 0 ∧ t.g.r.fflags = 0x10 ∧ u.g.pget 1 = 1 ∧ u.g.r.fflags = 0) := by decide +kernel
/-- cvt.i32.f32 of 2.5 gives 2 with NX, and of NaN 0 with NV; cvt.e4m3.f32 of 1000 without .sat gives the NaN with OF and NX (R32, R33). -/
theorem test_cvt :
    (let t := after (.cvt { d := 4, a := 5, ty := 2, sub := 8 }) (masked 1 (vec 5 [0x40200000] base))
     t.g.vget 4 0 = 2 ∧ t.g.r.fflags = 1) ∧
    (let t := after (.cvt { d := 4, a := 5, ty := 2, sub := 8 }) (masked 1 (vec 5 [0x7FC00000] base))
     t.g.vget 4 0 = 0 ∧ t.g.r.fflags = 0x10) ∧
    (let t := after (.cvt { d := 4, a := 5, ty := 11, sub := 8 }) (masked 1 (vec 5 [0x447A0000] base))
     t.g.vget 4 0 = 0x7F ∧ t.g.r.fflags = 5) := by decide +kernel
/-- vunpk.i32 of a .q4 lane: element 0 is 5, element 1 is −7; a reserved code reads as 0 and sets QRSV (R34, R154). -/
theorem test_vunpk :
    (let t := after (.vunpk { d := 8, a := 5, ty := 2, sub := 13 }) (masked 1 (vec 5 [0x00000895] base))
     t.g.vget 8 0 = 5 ∧ t.g.vget 9 0 = 0xFFFFFFF9 ∧ t.g.vget 10 0 = 0 ∧ t.g.r.qflags = 1) := by decide +kernel

/-! ## Memory steps -/

/-- A lane's 2-byte load, sign-extended; an odd address names its lane and raises ALIGN; the other lane is not loaded (R170, R173). -/
theorem test_ld :
    (let s := masked 3 (vec 5 [0, 1] ((poke 0x31000 [0x34, 0x82, 0x55, 0x66] base).setS 2 0x31000))
     (after (.ldSigned { d := 4, sb := 2, vx := 5, scale := 1, width := 1, scope := 1 }) s).g.vget 4 0 = 0xFFFF8234 ∧
     (after (.ld { d := 4, sb := 2, vx := 5, scale := 1, width := 1, scope := 1 }) s).g.vget 4 1 = 0x6655 ∧
     (let t := after (.ld { d := 4, sb := 2, vx := 5, scale := 0, width := 1, scope := 1 }) s
      t.g.r.trap.tcause = 4 ∧ t.g.r.trap.elanes = 2 ∧ t.g.r.trap.eaddr = 0x31001 ∧ t.g.vget 4 0 = 0)) := by decide +kernel
/-- A store is in the store queue until it drains; the group's own load sees it at once (R169, R178). -/
theorem test_stu_drain :
    (let s := after (.stu { d := 3, sb := 2, vx := 63, width := 2, scope := 1 }) ((inBlock.setS 2 0x31000).setS 3 0x1122334455667788)
     s.memNat 0x31000 4 = 0 ∧ (after (.ldu { d := 6, sb := 2, vx := 63, width := 2, scope := 1 }) s).g.sget 6 = 0x55667788 ∧
     (after (.storeDrain 0 0) s).memNat 0x31000 8 = 0x55667788 ∧ (after (.storeDrain 0 0) s).g.storeQ = []) := by decide +kernel
/-- The worked example of chapter 6: lanes 0, 1 and 3 meet at word 0; the old values are 10, 11, 100, 13, and the words end as 17 and
103. -/
theorem test_atom :
    (let t := after (.atom { d := 6, sb := 3, vx := 7, scale := 2, width := 2, scope := 7, ord := 1 })
       (masked 0xF (vec 6 [1, 2, 3, 4] (vec 7 [0, 0, 1, 0] ((poke 0x31000 [10, 0, 0, 0, 100] base).setS 3 0x31000))))
     ((List.range 4).map fun i => (t.g.vget 6 i).toNat) = [10, 11, 100, 13] ∧ t.memNat 0x31000 4 = 17 ∧ t.memNat 0x31004 4 = 103) := by decide +kernel
/-- A failed compare-and-swap writes nothing and returns what it read (R183). -/
theorem test_atomu_cas :
    (let t := after (.atomu { d := 4, sb := 3, vx := 63, width := 2, scope := 7, aop := 9 }) ((((poke 0x31000 [10] base).setS 3 0x31000).setS 4 9).setS 5 77)
     t.g.sget 4 = 10 ∧ t.memNat 0x31000 4 = 10) := by decide +kernel
/-- An unmapped page raises PAGE at the address that fails (R391, R395). -/
theorem test_page_fault :
    (let t := after (.ldu { d := 6, sb := 2, vx := 63, width := 2, scope := 1 }) (base.setS 2 0x50000)
     t.g.r.trap.tcause = 5 ∧ t.g.r.trap.eaddr = 0x50000 ∧ t.g.phase = .faulted ∧ t.cx.recs.length = 1) := by decide +kernel

/-! ## Tiles, matrix, fields -/

/-- The worked rows of chapter 7: entry 0 of a core, allocated with 2 rows of 4 .n32, gives a handle whose CORE is the core's and whose
state tinfo gives as 1; a freed entry is stale, bit 46 (R190, R200, R201). -/
theorem test_talloc_tinfo :
    (let s := after (.talloc { d := 4, i := 5, ty := 6 }) ({ inBlock with g := { inBlock.g with granules := 4, handles := 2 } } |>.setS 5 0x00040002)
     let h := s.g.sget 4
     h.toNat % 2 ^ 32 < 256 * 65536 * 256 ∧ hCore h = 0 ∧ hIdx h = 0 ∧
     (after (.tinfo { d := 6, h := 4, ty := 0 }) s).g.sget 6 = 1 + 6 * 32 + 2 * 512 + 4 * 0x400000 ∧
     (after (.tinfo { d := 6, h := 4, ty := 0 }) (after (.tfree { h := 4 }) s)).g.sget 6 = 0x400000000000) := by decide +kernel
/-- tst fills the words it writes, and tldc reads and empties them; a tldw of an empty word waits (R197 to R199). -/
theorem test_tile_words :
    (let t0 : Tile := { core := 0, idx := 0, st := .open_, gen := 0, ty := 6, skew := false, rows := 1, cols := 2, res := 1, ngran := 1, owner := 1, ctx := 0 }
     let s := masked 1 ((withTile t0 (vec 4 [77] inBlock)).setS 3 t0.handle)
     let f : FT := { d := 4, h := 3, i := 0, j := 6, ty := 6 }
     let u := after (.tst f) s
     (after (.tldw f) s).g.phase = .parked ∧ (after (.tldw f) s).g.pc = 0x30008 ∧
     ((after (.tldc { f with d := 7 }) u).g.vget 7 0 = 77) ∧
     ((after (.tldc { f with d := 7 }) u).cs.tiles.map (fun t => t.word 0)) = [(77, false)]) := by decide +kernel
/-- The worked example of chapter 15: mac.q4 of two rows, then aread.i8 with its clamps and aread.i16.dth with its dither. -/
theorem test_matrix :
    (let s := vec 6 ([0x3EC00000, 0x3E800000] ++ List.replicate 14 0x3F800000) (vec 3 ([0x81] ++ List.replicate 15 0x80) (vec 2 [0x80, 0x7F]
       (vec 4 [0x95, 0x87] (vec 8 [0x007FFB03, 0x764] (masked 3 inBlock)))))
     let a := after (.mac { va := 8, vb := 4, km1 := 1, wf := 13, vs := 2 }) (after (.azero { }) s)
     let b := after (.aread { vb := 16, wf := 0 }) a
     let c := after (.aread { vb := 20, wf := 1, vs := 6, rnd := 4, osc := 1 }) b
     [a.g.aget 0 0 0, a.g.aget 0 0 1, a.g.aget 0 1 0, a.g.aget 0 1 1] = [100, 21, 451, 350].map (· <<< 64) ∧ a.g.r.qflags = 1 ∧
     b.g.vget 16 0 = 0x1564 ∧ b.g.vget 16 1 = 0x7F7F ∧ b.g.r.qflags = 0x21 ∧ b.g.r.fflags = 0 ∧
     c.g.vget 20 0 = 0x00050026 ∧ c.g.vget 20 1 = 0x005800A9 ∧ c.g.r.fflags = 1 ∧ c.g.r.dphase = 0) := by decide +kernel
/-- Chapter 17's program, min(√(x² + y² + z²) − 1, y + 0.5), as a leaf at 0x31040. -/
def fieldLeaf : List Byte := leBytes 8 1 ++ leBytes 8 0x13 ++ [1, 2, 3, 0x1E, 4, 0, 0, 0x80, 0x3F, 0x11, 2, 4, 0, 0, 0, 0x3F, 0x10, 0x18, 0]
/-- Its operands: the point (3, 4, 0) in v16 to v18, and [0, 1] × [−1, −0.5] × 0 in v8 to v13. -/
def fieldState : State :=
  vec 11 [0xBF000000] (vec 10 [0xBF800000] (vec 9 [0x3F800000] (vec 17 [0x40800000] (vec 16 [0x40400000] (masked 1 ((poke 0x31040 fieldLeaf inBlock).setS 2 0x31040))))))
/-- Its evaluations: at the point it is 4, and over the box [−0.5, +0]. -/
theorem test_sdfe :
    (after (.sdfe { vd := 3, va := 16, sa := 2 }) fieldState).g.vget 3 0 = 0x40800000 ∧
    (after (.sdfe { vd := 4, va := 8, sa := 2, mode := 1 }) fieldState).g.vget 4 0 = 0xBF000000 ∧
    (after (.sdfe { vd := 4, va := 8, sa := 2, mode := 1 }) fieldState).g.vget 5 0 = 0 := by decide +kernel
/-- sdfprune over x ∈ [5, 6], y ∈ [−3, −2]: Table 1 of chapter 17. -/
theorem test_sdfprune :
    (let t0 : Tile := { core := 0, idx := 0, st := .open_, gen := 0, ty := 4, skew := false, rows := 1, cols := 64, res := 1, ngran := 1, owner := 1, ctx := 0 }
     let s := vec 20 [0x40B00000, 0x3F000000, 0, 0, 0, 0xC0200000, 0, 0x3F000000] ((withTile t0 ((poke 0x31040 fieldLeaf inBlock).setS 2 0x31040)).setS 5 t0.handle)
     let t := after (.sdfprune { vd := 24, va := 20, sa := 2, sb := 5, mode := 2 }) s
     ((List.range 8).map fun i => (t.g.vget 24 i).toNat) = [0xC0000000, 0, 0x3F000000, 0, 0, 8, 0, 1] ∧
     t.cs.tiles.map (fun t => [t.word 0, t.word 1, t.word 2]) = [[(0x402, true), (0x103F00, true), (0, false)]]) := by decide +kernel
/-- The key of vis in chapter 20's example: pixel 5 ends as the smaller key. -/
theorem test_vis_merge :
    (let s := vec 3 [0x40000000] (vec 2 [0x50] (vec 10 [5] (masked 1 ((poke 0x31028 (leBytes 8 0x4000000000000100) inBlock).setS 7 0x31000))))
     let t := after (.vis { vd := 2, va := 10, sa := 7 }) s
     (after (.visMerge 1) t).memNat 0x31028 8 = 0x4000000000000050) := by decide +kernel

/-! ## Launch, barrier, queue, system, events -/

/-- Without a launch, fetch returns END (R244). -/
theorem test_fetch_end : (after (.fetch { d := 4 }) base).g.sget 4 = 0x8000000000000000 := by decide +kernel
/-- bar.init of 1 and an arrival: the phase advances at once, and the token names the phase before (R253, R256). -/
theorem test_barrier :
    (let s := after (.barArr { d := 4, imm := 5 }) (after (.barInit { a := 6, imm := 5, scope := 2 }) (inBlock.setS 6 1))
     s.g.sget 4 = 0x50000 ∧ s.cs.bars.map (fun b => (b.exp, b.cnt, b.phase)) = [(1, 0, 1)] ∧
     (after (.barWait { a := 4 }) s).g.pc = s.g.pc + 8) := by decide +kernel
/-- An enq outside a reservation raises BUDGET with code 10 (R280). -/
theorem test_enq_budget :
    (let t := after (.enq { a := 4, b := 5, d := 6 }) ((poke 0x31000 [8] base).setS 5 0x31000)
     t.g.r.trap.tcause = 0x0C ∧ t.g.r.trap.einfo = 10) := by decide +kernel
/-- sys.core of core 173 reads 173 (R12); a write of it raises PRIV with code 1 (R425). -/
theorem test_mfs_mts :
    (after (.mfs { d := 4, imm := 1 }) { base with g := { base.g with core := 173 } }).g.sget 4 = 173 ∧
    (let t := after (.mts { a := 4, imm := 1 }) base
     t.g.r.trap.tcause = 3 ∧ t.g.r.trap.einfo = 1) ∧
    (after (.mts { a := 4, imm := 7 }) (base.setS 4 0xFFFFFFFFFFFFFFFF)).g.r.dphase = 31 := by decide +kernel
/-- A trap with a handler at sys.tvec enters it: HMODE 1, sys.epc the trap's address, sys.einfo its immediate (R103, R417); tret.skip
returns past it. -/
theorem test_trap_and_return :
    (let s := { inBlock with g := { inBlock.g with r := { inBlock.g.r with tvec := 0x30000 } } }
     let t := after (.trap { imm := 42 }) s
     t.g.hmode = true ∧ t.g.pc = 0x30000 ∧ t.g.entering = true ∧ t.g.r.trap.tcause = 9 ∧ t.g.r.trap.epc = 0x30008 ∧ t.g.r.trap.einfo = 42 ∧
     (let u := after (.tretSkip { }) { t with g := { t.g with pc := 0x30008, blkEnd := 0x30010, entering := false } }
      u.g.hmode = false ∧ u.g.pc = 0x30010 ∧ u.g.entering = false)) := by decide +kernel
/-- T_hot takes 105 and ignores 106; ones clear alarms; a cold reset gives 95 (R442). -/
theorem test_management :
    (after (.thotWrite ⟨none, 105⟩) base).mg.thot = 105 ∧ (after (.thotWrite ⟨none, 106⟩) base).mg.thot = 95 ∧
    (after (.alarmWrite ⟨none, 3⟩) { base with mg := { base.mg with alarm := 7 } }).mg.alarm = 4 ∧
    (after .coldReset { base with mg := { base.mg with thot := 70 } }).mg.thot = 95 := by decide +kernel
/-- SHA-256 of "abc", from FIPS 180-4 (log 33). -/
theorem test_sha256 : sha256 [0x61, 0x62, 0x63] = [0xBA, 0x78, 0x16, 0xBF, 0x8F, 0x01, 0xCF, 0xEA, 0x41, 0x41, 0x40, 0xDE, 0x5D, 0xAE, 0x22, 0x23,
    0xB0, 0x03, 0x61, 0xA3, 0x96, 0x17, 0x7A, 0x9C, 0xB4, 0x10, 0xFF, 0x61, 0xF2, 0x00, 0x15, 0xAD] := by decide +kernel

/-! ## Witnesses: a state and operands that meet the hypotheses of each statement -/

/-- What an outcome, a fetch, a check, a reading or an access answers, found by evaluation. -/
theorem next_of {x : Out} (h : (match x with | .next _ => true | _ => false) = true) : ∃ t, x = .next t := by
  cases x with
  | next t => exact ⟨t, rfl⟩
  | fault _ => simp at h
  | refused _ => simp at h
theorem fetch_of {x : Fetched} {w : W64} (h : (match x with | .ok _ v => decide (v = w) | .bad _ _ => false) = true) : ∃ s, x = .ok s w := by
  cases x with
  | ok s v => simp only [decide_eq_true_eq] at h; exact ⟨s, by rw [h]⟩
  | bad t s => simp at h
theorem fetch_bad_of {x : Fetched} (h : (match x with | .ok _ _ => false | .bad _ _ => true) = true) : ∃ t s, x = .bad t s := by
  cases x with
  | ok s v => simp at h
  | bad t s => exact ⟨t, s, rfl⟩
theorem pair_of {α : Type} {x : Bool × α} {b : Bool} (h : x.1 = b) : ∃ s, x = (b, s) := ⟨x.2, by rw [← h]⟩
theorem rd_of {α : Type} {x : Except Trap α × State} (P : α → Bool)
    (h : (match x.1 with | .ok a => P a | .error _ => false) = true) : ∃ a s, x = (.ok a, s) ∧ P a = true := by
  obtain ⟨_ | a, s⟩ := x
  · simp at h
  · exact ⟨a, s, rfl, h⟩
theorem rd_bad_of {α : Type} {x : Except Trap α × State} (P : Trap → Bool)
    (h : (match x.1 with | .ok _ => false | .error t => P t) = true) : ∃ t s, x = (.error t, s) ∧ P t = true := by
  obtain ⟨t | a, s⟩ := x
  · exact ⟨t, s, rfl, h⟩
  · simp at h
theorem checked_of {x : Checked} (P : List Hit3 → Bool) (h : (match x with | .ok _ l => P l | .bad _ _ => false) = true) :
    ∃ s l, x = .ok s l ∧ P l = true := by
  cases x with
  | ok s l => exact ⟨s, l, rfl, h⟩
  | bad t s => simp at h
theorem passes_of {s : State} {a : AccSpec} {scalar atomic : Bool} {accs : List (Nat × Int)} (P : State → List Hit3 → Bool)
    (h : (match checkAccess s s.g.core s.g.ctx a scalar accs with
      | .ok s1 hits => decide (checkWatch s1 s1.g a scalar accs = none) && hits.all (fun h => !h.2.2.rc) && P s1 hits
      | .bad _ _ => false) = true) : ∃ s2 hits, s.Passes a scalar atomic accs s2 hits ∧ P s2 hits = true := by
  revert h
  cases hc : checkAccess s s.g.core s.g.ctx a scalar accs with
  | bad t s => simp
  | ok s1 hits =>
    intro h
    simp only [Bool.and_eq_true, decide_eq_true_eq, List.all_eq_true, Bool.not_eq_true'] at h
    exact ⟨s1, hits, ⟨s1, hc, h.1.1, by rw [if_pos (Or.inr fun x hx => h.1.2 x hx)]⟩, h.2⟩
theorem untrapped_of {s : State} {m : W32} {exc : Nat → BitVec 5} (h : s.g.r.fenable = 0) : s.Untrapped m exc :=
  fun _ _ _ => by rw [h]; exact BitVec.and_zero

/-- base in handler mode, with an entry depth of 0. -/
def inHandler : State := { base with g := { base.g with hmode := true, r := { base.g.r with trap := { epc := 0x30008 } } } }
/-- base with a handler at 0x30000. -/
def handled : State := { base with g := { base.g with r := { base.g.r with tvec := 0x30000 } } }
/-- base with n frames on the stack. -/
def frames (n : Nat) (k : FrameKind) : State :=
  { base with g := { base.g with r := { base.g.r with stack := List.replicate n { m := 1, kind := k, point := none, origin := 0x30008 } } } }

/-- base with p3 marked. -/
def marked3 : State := { base with g := { base.g with r := { base.g.r with poison := pitem 3 } } }
/-- Nothing due after a move. -/
theorem witness_StepRunsDecoded_settled :
    (base.turns = [] ∧ base.ms.wrote = [] ∧ base.lk.due = [] ∧ base.ls.staging = []) ∧ (∀ g ∈ base.groups, g.owes = none ∧ g.splitDue = false ∧ g.twait = none) ∧
    base.ms.dirty.length + base.ms.stale.length + base.ms.pins.length ≤ 32768 := by decide +kernel
/-- Events awake; asleep, a request that waits, one that works asleep, a blank that works in C1 and not in C2, and one that does
not; no staging at all, a promoted request and one that is not. -/
theorem witness_StepRunsDecoded_events :
    (Instr.coldReset.isEvent = true ∧ base.mg.pstate = 0 ∧ asksDevice .coldReset = false ∧ (Instr.quote ⟨none, []⟩).isEvent = true) ∧
    (let s := { base with mg := { base.mg with pstate := 2 } }
     s.mg.pstate ≠ 0 ∧ asksDevice (.quote ⟨none, []⟩) = true ∧ worksAsleep s.mg.pstate.toNat .coldReset = true ∧
     worksAsleep 1 (.verticalBlank 0) = true ∧ worksAsleep s.mg.pstate.toNat (.verticalBlank 0) = false ∧ asksDevice (.verticalBlank 0) = false ∧
     worksAsleep s.mg.pstate.toNat (.visMerge 0) = false) ∧
    (∀ q ∈ base.ls.staging, base.isPromoted q = false) := by decide +kernel
/-- No atomic, and one that has started; a header to enter; a failed fetch; a word that does not decode; one that does, with p1
clean and with p3 marked. -/
theorem witness_StepRunsDecoded :
    (base.g.gid ≠ 0 ∧ base.g.phase = .running ∧ base.g.entering = false ∧ base.g.atomic = none ∧ { base.g with entering := true }.entering = true) ∧
    { base.g with atomic := some { i := .nop { }, left := [], olds := [] } }.atomic ≠ none ∧
    (∃ s w bit, base.fetchWord base.g.pc = .ok s w ∧ decode w = .error bit) ∧
    (let s := State.reset.withFetchWord 64 0x041400789ABCDEF0
     ∃ t w i, s.fetchWord s.g.pc = .ok t w ∧ decode w = .ok i) ∧
    (base.Clean (pitem (predOf 0x3D00301018300800)) ∧ ¬ marked3.Clean (pitem 3) ∧ predOf 0x3D30301018300800 = 3) ∧
    (∃ t s, base.fetchWord 0x50000 = .bad t s) := by
  refine ⟨by decide +kernel, nofun, ?_, ?_, ⟨by unfold State.Clean; decide +kernel, by unfold State.Clean; decide +kernel, by decide +kernel⟩, fetch_bad_of (by decide +kernel)⟩
  · obtain ⟨s, h⟩ := fetch_of (x := base.fetchWord base.g.pc) (w := 0) (by decide +kernel)
    exact ⟨s, 0, 28, h, rfl⟩
  · obtain ⟨s, h⟩ := fetch_of (x := (State.reset.withFetchWord 64 0x041400789ABCDEF0).fetchWord (State.reset.withFetchWord 64 0x041400789ABCDEF0).g.pc)
      (w := 0x041400789ABCDEF0) (by decide +kernel)
    exact ⟨s, _, .sli { d := 5, a := 0, fn := 0, imm := 0x789ABCDEF0 }, h, rfl⟩
/-- The first and last major opcodes of each reserved range fail at the opcode. -/
theorem witness_PrintedWords :
    ∀ op ∈ ([0x07, 0x0F, 0x1D, 0x1F, 0x6A, 0x6F, 0x73, 0x77, 0x8F, 0x96, 0x9F, 0xA7, 0xAF, 0xB3, 0xB7, 0xC6, 0xFF] : List Byte),
      decode (op ++ (0 : BitVec 56)) = .error 56 := by
  intro op h
  fin_cases h <;> rfl
theorem witness_DecodeOfEncode : WellFormed (.slih { d := 63, a := 1, imm := 0xFFFFFF }) = true := by decide +kernel
theorem witness_EncodeOfDecode : ∃ i, decode 0x041400789ABCDEF0 = .ok i := ⟨.sli { d := 5, a := 0, fn := 0, imm := 0x789ABCDEF0 }, rfl⟩
theorem witness_StepKeepsMemoryWf : base.MemoryWf ∧ ∃ t, step base = .next t :=
  ⟨by unfold State.MemoryWf; decide +kernel, next_of (by decide +kernel)⟩
theorem witness_SystemCauseTaken :
    base.g.hmode = false ∧ userCause cALIGN = false ∧ cALIGN ≠ cPAGE ∧ ({ cause := cALIGN } : Trap).epc = none ∧ inHandler.g.hmode = true ∧
    ({ cause := cALIGN } : Trap).pages = [] := by decide +kernel
theorem witness_UserCauseEntersHandler :
    handled.g.hmode = false ∧ userCause cSWTRAP = true ∧ ({ cause := cSWTRAP } : Trap).epc = none ∧
    (State.writeTrap { handled with g := handled.g.restart } { cause := cSWTRAP }).handlerReady.1 = true := by decide +kernel
/-- With sys.epc written and not; at the block's end and before it; a cause raised at a header; outside handler mode; at another depth. -/
theorem witness_HandlerReturns :
    (inHandler.g.atLast = true ∧ inHandler.g.hmode = true ∧ inHandler.g.r.stack.length = inHandler.g.entryDepth ∧ inHandler.g.epcw = false ∧
      inHandler.g.intr.hdr = false ∧ inHandler.g.r.trap.epc + 8 ≠ inHandler.g.intr.blkEnd) ∧
    (let s := { inHandler with g := { inHandler.g with intr := { blkEnd := 0x30010 } } }
     s.g.atLast = true ∧ s.g.r.trap.epc + 8 = s.g.intr.blkEnd ∧ s.g.r.trap.epc ≠ s.g.intr.blkEnd) ∧
    (let s := { inHandler with g := { inHandler.g with intr := { hdr := true } } }
     s.g.atLast = true ∧ s.g.hmode = true ∧ s.g.r.stack.length = s.g.entryDepth ∧ s.g.epcw = false ∧ s.g.intr.hdr = true) ∧
    { inHandler.g with epcw := true }.epcw = true ∧ base.g.hmode = false ∧ { inHandler.g with entryDepth := 1 }.r.stack.length ≠ 1 := by decide +kernel
/-- The registers at both ends of their ranges; a handler's aliases; an odd and an even pair; the last word of a block and another. -/
theorem witness_RegisterWrites :
    (1 : BitVec 6) ≠ 0 ∧ (63 : BitVec 6) ≠ 0 ∧ (62 : BitVec 6) ≠ 63 ∧ inHandler.g.hmode = true ∧ 56 ≤ (56 : BitVec 6).toNat ∧ 56 ≤ (63 : BitVec 6).toNat ∧
    base.g.hmode = false ∧ (15 : BitVec 4) ≠ 0 ∧ (254 : Byte).toNat % 2 = 0 ∧ (253 : Byte) ≠ 254 ∧ (253 : Byte) ≠ 254 + 1 ∧
    base.g.pc + 8 = base.g.blkEnd ∧ inBlock.g.pc + 8 ≠ inBlock.g.blkEnd := by decide +kernel
/-- Clean sources, which the statements of the scalar results, of the immediates and of the fields ask for; a bound passed and not. -/
theorem witness_ScalarSaturating : base.Clean [base.g.sitem 5, base.g.sitem 6] ∧ (s3Range 3).2 < (2 : Int) ^ 63 ∧ -2 ^ 63 - 1 < (s3Range 3).1 ∧ -1 < (s3Range 7).1 := by
  unfold State.Clean; decide +kernel
theorem witness_ScalarResults : base.Clean [base.g.sitem 5, base.g.sitem 6, base.g.sitem 63] := by unfold State.Clean; decide +kernel
theorem witness_ScalarImmediates : inHandler.Clean [inHandler.g.sitem 63] := by unfold State.Clean; decide +kernel
/-- A field of 64 bits, one that ends at bit 63, and a zero divisor with DZ disabled and enabled. -/
theorem witness_ScalarFields :
    (let f : S3 := { a := 5, f1 := 0, f2 := 0 }
     f.f1.toNat + (if f.f2 = 0 then 64 else f.f2.toNat) ≤ 64) ∧
    (let f : S3 := { a := 5, f1 := 8, f2 := 56 }
     f.f1.toNat + (if f.f2 = 0 then 64 else f.f2.toNat) ≤ 64) ∧
    base.g.poisoned [base.g.sitem 5, base.g.sitem 6] = [] ∧ base.g.sget 6 = 0 ∧ (base.setS 6 1).g.sget 6 ≠ 0 ∧ base.g.r.fenable &&& fDZ = 0 ∧
    (31 : BitVec 5) &&& fDZ ≠ 0 := by decide +kernel
theorem witness_Branches :
    base.g.atLast = true ∧ inBlock.g.atLast = false ∧ base.Clean [base.g.sitem 5] ∧ base.Clean (pitem 15) ∧
    ∃ s2 hits, (base.setS 5 0x31000).Passes (.load 8) true false [(0, (((base.setS 5 0x31000).g.sget 5).toNat : Int) + 8 * (1 : BitVec 32).toInt)] s2 hits ∧
      (hits.length == 1) = true :=
  ⟨by decide +kernel, by decide +kernel, by unfold State.Clean; decide +kernel, by unfold State.Clean; decide +kernel,
    passes_of (fun _ l => l.length == 1) (by decide +kernel)⟩
/-- 31 frames and 32; an empty stack; an IF and a LOOP frame on top. -/
theorem witness_MaskStack :
    base.Clean (pitem 3) ∧ (frames 31 .ifFrame).g.r.stack.length < 32 ∧ 32 ≤ (frames 32 .ifFrame).g.r.stack.length ∧ base.g.r.stack = [] ∧ base.g.atLast = true ∧
    (frames 1 .ifFrame).g.r.stack.map (·.kind) = [.ifFrame] ∧
    (frames 1 .loopFrame).g.r.stack.map (fun t => (t.kind, t.origin)) = [(.loopFrame, base.g.pc)] ∧
    { (frames 1 .loopFrame).g with pc := 0x30000 }.pc ≠ 0x30008 := by unfold State.Clean; decide +kernel
theorem witness_YieldAndNop : base.g.phase.holdsSlot = true ∧ base.g.gid ≠ 0 := by decide +kernel
/-- Every lane active, no lane poisoned: what the statements of the vector instructions ask for, in each kind of source. -/
theorem witness_VectorIntegers : v3mask { a := 4, b := 6, c := 8 } base.g ≠ 0 ∧ base.g.poisoned (vectorSources { a := 4, b := 6, c := 8, ty := 3 } base [4, 6, 8]) = [] := by
  decide +kernel
theorem witness_VectorBits : v3mask { pred := 1, pneg := 1, a := 255 } base.g ≠ 0 ∧ base.g.poisoned (vectorSources { pred := 1, pneg := 1, a := 255, ty := 1 } base [255, 0]) = [] := by
  decide +kernel
/-- Zero divisors with DZ disabled and enabled, and none; vsad and vdot4 in both types. -/
theorem witness_VectorDivision :
    (let f : V3 := { a := 5, b := 6, c := 7, ty := 2 }
     tyW f.ty = true ∧ v3mask f base.g ≠ 0 ∧ base.g.poisoned (vectorSources f base [f.a, f.b, f.c]) = [] ∧
     (maskOf fun k => (v3mask f base.g).getLsbD k && base.g.vget f.b k == 0) ≠ 0 ∧ base.g.r.fenable &&& fDZ = 0 ∧ (8 : BitVec 5) &&& fDZ ≠ 0) ∧
    (let s := base.setV false 6 0xFFFFFFFF fun _ => 3
     (maskOf fun k => (v3mask { b := 6 } s.g).getLsbD k && s.g.vget 6 k == 0) = 0) := by decide +kernel
theorem witness_VectorMoves :
    v3mask { } base.g ≠ 0 ∧ viMask { } base.g ≠ 0 ∧ base.g.poisoned (base.g.vitems true (v3mask { } base.g) 4) = [] ∧ base.g.poisoned [base.g.sitem (snum 63)] = [] ∧
    (let p := base.g.pget (pnum 15)
     base.g.poisoned (base.g.vitems false (v3mask { } base.g &&& p) 4 ++ base.g.vitems false (v3mask { } base.g &&& ~~~ p) 5) = []) ∧
    base.g.poisoned [base.g.sitem (snum 5), base.g.vitem 4 31] = [] ∧ tyW 2 = true ∧ tyH 1 = true := by decide +kernel
theorem witness_Comparisons : v3mask { } base.g ≠ 0 ∧ base.g.poisoned (vectorSources { a := 4, b := 5, ty := 8 } base [4, 5]) = [] ∧ ∀ nv, base.Untrapped (v3mask { } base.g) nv :=
  ⟨by decide +kernel, by decide +kernel, fun _ => untrapped_of (by decide +kernel)⟩
/-- pxor and pnot, a SUB past the last and a B that pnot does not take; pset; a word that fails in a running group. -/
theorem witness_PredicateLogic : (∃ i, decode 0x5C00080808000002 = .ok i) ∧ (∃ i, decode 0x5C00080800000003 = .ok i) ∧ decode 0x5C00080800000004 = .error 0 ∧
    decode 0x5C00080808000003 = .error 27 ∧ (∃ i, decode 0x5D001000FFFFFFFF = .ok i) ∧
    base.g.gid ≠ 0 ∧ base.g.phase = .running ∧ base.g.entering = false ∧ (∃ s1, base.fetchWord base.g.pc = .ok s1 0) ∧ decode 0 = .error 28 :=
  ⟨⟨_, rfl⟩, ⟨_, rfl⟩, rfl, rfl, ⟨_, rfl⟩, by decide +kernel, by decide +kernel, by decide +kernel, fetch_of (by decide +kernel), rfl⟩
theorem witness_FloatArithmetic : v3mask { } base.g ≠ 0 ∧ base.g.poisoned (([4, 5, 6] : List Byte).flatMap fun n => base.g.vitems false (v3mask { } base.g) n) = [] ∧
    ∀ exc, base.Untrapped (v3mask { } base.g) exc := ⟨by decide +kernel, by decide +kernel, fun _ => untrapped_of (by decide +kernel)⟩
/-- A source of 64-bit elements and of 32-bit ones; the registers of a pack to .q4, eight of them. -/
theorem witness_Conversions : v3mask { } base.g ≠ 0 ∧ base.g.poisoned (base.g.vitems (is64 3) (v3mask { } base.g) 4) = [] ∧
    base.g.poisoned ((List.range (packN 13)).flatMap fun e => base.g.vitems false (v3mask { } base.g) (8 + BitVec.ofNat 8 e)) = [] ∧
    ∀ exc, base.Untrapped (v3mask { } base.g) exc := ⟨by decide +kernel, by decide +kernel, by decide +kernel, fun _ => untrapped_of (by decide +kernel)⟩
theorem witness_LaneMovement :
    (let f : V3 := { a := 4, b := 6, c := 2, ty := 3 }
     v3mask f base.g ≠ 0 ∧
     base.g.poisoned (base.g.vitems false (v3mask f base.g) f.b ++ base.g.vitems true (maskOfList ((activeLanes (v3mask f base.g)).map fun k => (base.g.vget f.b k).toNat % 32)) f.a) = [] ∧
     base.g.poisoned (base.g.sitem (snum f.b) :: base.g.vitems true (maskOfList ((activeLanes (v3mask f base.g)).map fun k => (k + 1) % 32)) f.a) = [] ∧
     base.g.poisoned (base.g.vitems true (maskOfList ((activeLanes (base.g.pget (pnum f.c))).take 32)) f.a) = [] ∧
     base.g.poisoned (base.g.vitems true (maskOfList ((List.range 32).take 32)) f.a) = []) := by decide +kernel
/-- Each reduction: integer, floating-point with its flags not enabled, and the scans; a saturating sum that passes its bound and one that does not. -/
theorem witness_LaneReductions :
    v3mask { } base.g ≠ 0 ∧ base.g.poisoned (base.g.vitems false (v3mask { } base.g) 4) = [] ∧ (2 : BitVec 4) ≠ 8 ∧ tyW 2 = true ∧ tyW 6 = true ∧
    (let f : V3 := { a := 4, ty := 2, sat := 1, sub := 8 }
     let s := base.setV false 4 0xFFFFFFFF fun _ => 2 ^ 30
     f.sub.toNat % 8 = 0 ∧ v3mask f s.g ≠ 0 ∧ s.Clean (s.g.vitems false (scanReads (v3mask f s.g) (f.sub.getLsbD 3)) f.a) ∧
     ((scanSet (v3mask f s.g) true 1).map fun j => elemInt 2 (s.g.vget 4 j).toNat).sum = 2 ^ 30 ∧
     (2 : Int) ^ 31 - 1 < ((scanSet (v3mask f s.g) true 2).map fun j => elemInt 2 (s.g.vget 4 j).toNat).sum) ∧
    (∀ x : BitVec 5, x &&& base.g.r.fenable = 0) := ⟨by decide +kernel, by decide +kernel, by decide, by decide, by decide, by unfold State.Clean; decide +kernel, by
      have h : base.g.r.fenable = 0 := by decide +kernel
      intro x; rw [h]; exact BitVec.and_zero⟩
theorem witness_EmptyMaskRetires : v3mask { pred := 1 } base.g = 0 ∧ viMask { pred := 1 } base.g = 0 ∧ fmMask { pred := 1 } base.g = 0 ∧ maMask { pred := 1 } base.g = 0 ∧ base.g.atomic = none ∧
    ({ sub := 15 } : V3).sub.getLsbD 4 = false := by decide +kernel

theorem except_of {ε α : Type} [DecidableEq α] {x : Except ε α} {t : α} (h : (match x with | .ok u => decide (u = t) | .error _ => false) = true) : x = .ok t := by
  cases x with
  | ok u => simp only [decide_eq_true_eq] at h; rw [h]
  | error _ => simp at h

/-- base with two active lanes, 0x31000 in s2 and the lanes' numbers in v5. -/
def mem2 : State := vec 5 [0, 1] (masked 3 (inBlock.setS 2 0x31000))
/-- A 4-byte vector form, and a 4-byte scalar form, on mem2. -/
def fm4 : FM := { d := 4, sb := 2, vx := 5, scale := 2, width := 2, scope := 7 }
def fmu : FM := { d := 3, sb := 2, vx := 63, width := 2, scope := 7 }
/-- mem2 in an open replayable region, whose release buffer holds n stores. -/
def buffering (n : Nat) : State :=
  { mem2 with g := { mem2.g with idem := some { header := 0x30000, entry := mem2.g.r, replayable := true }, relBuf := List.replicate n { key := 0, bytes := [], seq := 0 } } }
/-- mem2 with the page as a pod page of peer 1, reached through port 0. -/
def podded : State :=
  { poke 0x2201F [1] (poke 0x22018 [0x9F] mem2) with lk := { mem2.lk with ports := mem2.lk.ports.set 0 .up, routes := [(1, 1)] } }
/-- mem2 with the page under RACECHECK, and a writer's token on its sector. -/
def raced : State :=
  let s := poke 0x22018 [0x3F] mem2
  { s with ms := { s.ms with tokens := [{ sector := 0x31000 / 32, ctx := 0, core := 0, slot := 1, seq := 0, writer := true }] } }

/-- Odd addresses; addresses at 2^52 and below 0; the ungrown window; an unmapped page; a pass at the first and last words of the page. -/
theorem witness_AccessChecks :
    (let accs : List (Nat × Int) := [(0, 0x31001), (1, 0x31004)]
     accs.filter (fun t => t.2 % 4 != 0) ≠ []) ∧
    (let accs : List (Nat × Int) := [(0, 2 ^ 52), (1, -4)]
     accs.filter (fun t => t.2 % 4 != 0) = [] ∧ accs.filter (fun t => decide (t.2 < 0) || decide ((2 : Int) ^ 52 ≤ t.2)) ≠ []) ∧
    (let s := poke 24 (leBytes 8 0x31000 ++ leBytes 8 0x32000) mem2
     ((s.priv 0).2.1 : Int) ≤ 0x31000 ∧ (0x31000 : Int) < ((s.priv 0).2.2 : Int)) ∧
    ((translateAll 0 ((mem2.ctxOf 0).getD default) [] [(1, 0x50000)] mem2).2.map fun t => (t.1, match t.2.2 with | .ok _ => false | .error _ => true)) = [(1, true)] ∧
    (∃ s1 l, checkAccess mem2 0 0 (.store 4) false [(0, 0x30000), (31, 0x3FFFC)] = .ok s1 l ∧ (l.length == 2) = true) ∧ mem2.MemoryWf :=
  ⟨by decide +kernel, by decide +kernel, by decide +kernel, by decide +kernel, checked_of (fun l => l.length == 2) (by decide +kernel),
    by unfold State.MemoryWf; decide +kernel⟩
theorem witness_Loads :
    fmMask fm4 mem2.g ≠ 0 ∧ mem2.g.poisoned (addrItems mem2.g (fmMask fm4 mem2.g) fm4.sb fm4.vx) = [] ∧
    (∃ s2 hits, mem2.Passes (.load (fmBytes fm4)) false false (fmAccs fm4 mem2.g) s2 hits ∧ (hits.length == 2) = true) ∧
    mem2.g.poisoned [mem2.g.sitem fmu.sb] = [] ∧
    (∃ s2 hits, mem2.Passes (.load (fmBytes fmu)) true false [(0, ((mem2.g.sget fmu.sb).toNat : Int) + fmu.off.toInt)] s2 hits ∧ (hits.length == 1) = true) :=
  ⟨by decide +kernel, by decide +kernel, passes_of (fun _ l => l.length == 2) (by decide +kernel), by decide +kernel, passes_of (fun _ l => l.length == 1) (by decide +kernel)⟩
/-- A vector and a scalar store to device memory; to a pod page; in a replayable region with 63 and 64 stores held, outside the private
window and inside it; a drain. -/
theorem witness_Stores :
    mem2.g.poisoned (addrItems mem2.g (fmMask fm4 mem2.g) fm4.sb fm4.vx ++ mem2.g.vitems false (fmMask fm4 mem2.g) fm4.d) = [] ∧
    (∃ s2 hits, mem2.Passes (.store (fmBytes fm4)) false false (fmAccs fm4 mem2.g) s2 hits ∧ ((hits.all fun h => h.2.2.kind != 2) && !s2.g.buffering) = true) ∧
    mem2.g.poisoned [mem2.g.sitem fmu.sb, mem2.g.sitem (snum fmu.d)] = [] ∧
    (∃ s2 hits, mem2.Passes (.store 4) true false [(0, 0x31000)] s2 hits ∧ (hits.length == 1 && hits.all (fun h => h.2.2.kind != 2) && !s2.g.buffering) = true) ∧
    (∃ s2 hits, podded.Passes (.store 4) true false [(0, 0x31000)] s2 hits ∧ (hits.length == 1 && hits.all (fun h => h.2.2.kind == 2) && !s2.g.buffering) = true) ∧
    (∃ s2 hits, (buffering 63).Passes (.store 4) true false [(0, 0x31000)] s2 hits ∧ (s2.g.buffering && decide (s2.g.relBuf.length < 64) && !s2.isPrivate 0x31000 4) = true) ∧
    (∃ s2 hits, (buffering 64).Passes (.store 4) true false [(0, 0x31000)] s2 hits ∧ (s2.g.buffering && decide (64 ≤ s2.g.relBuf.length) && !s2.isPrivate 0x31000 4) = true) ∧
    (∃ s2 hits, (poke 16 (leBytes 8 0x31000 ++ leBytes 8 0x31010 ++ leBytes 8 0x31020) (buffering 64)).Passes (.store 4) true false [(0, 0x31000)] s2 hits ∧
      (s2.g.buffering && s2.isPrivate 0x31000 4) = true) :=
  ⟨by decide +kernel, passes_of (fun s l => (l.all fun h => h.2.2.kind != 2) && !s.g.buffering) (by decide +kernel), by decide +kernel,
    passes_of (fun s l => l.length == 1 && l.all (fun h => h.2.2.kind != 2) && !s.g.buffering) (by decide +kernel),
    passes_of (fun s l => l.length == 1 && l.all (fun h => h.2.2.kind == 2) && !s.g.buffering) (by decide +kernel),
    passes_of (fun s _ => s.g.buffering && decide (s.g.relBuf.length < 64) && !s.isPrivate 0x31000 4) (by decide +kernel),
    passes_of (fun s _ => s.g.buffering && decide (64 ≤ s.g.relBuf.length) && !s.isPrivate 0x31000 4) (by decide +kernel),
    passes_of (fun s _ => s.g.buffering && s.isPrivate 0x31000 4) (by decide +kernel)⟩
/-- Vector stores: to a pod page, and wholly inside the private window of a replayable region. -/
theorem witness_Stores_queued :
    (∃ s2 hits, podded.Passes (.store (fmBytes fm4)) false false (fmAccs fm4 podded.g) s2 hits ∧ (hits.any (fun h => h.2.2.kind == 2) && !s2.g.buffering) = true) ∧
    (∃ s2 hits, (poke 16 (leBytes 8 0x31000 ++ leBytes 8 0x31010 ++ leBytes 8 0x31020) (buffering 64)).Passes (.store (fmBytes fm4)) false false (fmAccs fm4 mem2.g) s2 hits ∧
      (s2.g.buffering && hits.all (fun h => s2.isPrivate h.2.1 4)) = true) :=
  ⟨passes_of (fun s l => l.any (fun h => h.2.2.kind == 2) && !s.g.buffering) (by decide +kernel),
    passes_of (fun s l => s.g.buffering && l.all (fun h => s.isPrivate h.2.1 4)) (by decide +kernel)⟩
/-- A vector store in a replayable region that has room, to the last place, and one that has not; cache control with no token held. -/
theorem witness_Stores_held :
    (∃ s2 hits, (buffering 63).Passes (.store (fmBytes fm4)) false false (fmAccs fm4 mem2.g) s2 hits ∧
      (s2.g.buffering && decide (64 < s2.g.relBuf.length + hits.length) && hits.any (fun h => !s2.isPrivate h.2.1 4)) = true) ∧
    (∃ s2 hits, (buffering 62).Passes (.store (fmBytes fm4)) false false (fmAccs fm4 mem2.g) s2 hits ∧
      (s2.g.buffering && decide (s2.g.relBuf.length + hits.length ≤ 64) && hits.any (fun h => !s2.isPrivate h.2.1 4)) = true) ∧
    (∃ s2 hits, mem2.Passes (wbSpec fm4.scope) false false (fmAccs fm4 mem2.g) s2 hits ∧ (s2.ms.tokens.length == 0) = true) ∧
    (∃ s2 hits, mem2.Passes invSpec false false (fmAccs fm4 mem2.g) s2 hits ∧ (s2.ms.tokens.length == 0) = true) :=
  ⟨passes_of (fun s l => s.g.buffering && decide (64 < s.g.relBuf.length + l.length) && l.any (fun h => !s.isPrivate h.2.1 4)) (by decide +kernel),
    passes_of (fun s l => s.g.buffering && decide (s.g.relBuf.length + l.length ≤ 64) && l.any (fun h => !s.isPrivate h.2.1 4)) (by decide +kernel),
    passes_of (fun s _ => s.ms.tokens.length == 0) (by decide +kernel), passes_of (fun s _ => s.ms.tokens.length == 0) (by decide +kernel)⟩
/-- A store that is the oldest; one that an older buffered store holds back, whatever its address, and one that is older than it. -/
theorem witness_Stores_drain :
    (let p : PStore := { key := 0x31000, bytes := [1, 2], seq := 0, no := 1 }
     let behind (n : Nat) : State :=
      { mem2 with g := { mem2.g with storeQ := [p], relBuf := [{ key := 0x40000, bytes := [9], seq := 0, no := n }] } }
     mem2.MemoryWf ∧ (behind 0).groupAt 0 0 = some (behind 0).g ∧ (behind 0).g.storeQ = [p] ∧
     (behind 0).g.blocked p = true ∧ (behind 1).g.blocked p = false ∧ mem2.g.blocked p = false) := by
  unfold State.MemoryWf; decide +kernel
/-- A grant at the last core; of a line that another core owns, that the core owns already, that is pod-mapped, and that is no line. -/
theorem witness_CacheActions_grant :
    (let s : State := { mem2 with ms := { mem2.ms with owned := [(5, 7)] } }
     (255 : Nat) < 256 ∧ 128 * (2 ^ 45 - 1) < 2 ^ 52 ∧ ((2 : Nat) ^ 52 ≤ 128 * 2 ^ 45) ∧ (5, 255) ∉ s.ms.owned ∧ (5, 7) ∈ s.ms.owned ∧
     s.podMapped 5 = false ∧ s.usedBanks 255 < 96) ∧
    (let l : TlbEntry := { core := 0, ctx := 0, base := 0x30000, size := 0x10000, leaf := 0x30083, leafAt := 0x22018, lvl := 0 }
     ({ mem2 with ms := { mem2.ms with tlb := [l] } } : State).podMapped 0x600 = true) := by decide +kernel
/-- Each cache action with its rights, at co and at de; an eviction with and without a pin. -/
theorem witness_CacheActions :
    mem2.MemoryWf ∧ fmMask fm4 mem2.g ≠ 0 ∧ mem2.g.poisoned (addrItems mem2.g (fmMask fm4 mem2.g) fm4.sb fm4.vx) = [] ∧
    (∃ s2 hits, mem2.Passes (wbSpec fm4.scope) false false (fmAccs fm4 mem2.g) s2 hits ∧ (hits.length == 2) = true) ∧
    (∃ s2 hits, mem2.Passes invSpec false false (fmAccs fm4 mem2.g) s2 hits ∧ (hits.length == 2) = true) ∧
    fm4.scope ≠ 2 ∧ (∀ p ∈ mem2.ms.pins, p.1 ≠ 5) ∧
    (∃ p ∈ ({ mem2.ms with pins := [(5, 0, 0)] } : MemSys).pins, p.1 = 5) :=
  ⟨by unfold State.MemoryWf; decide +kernel, by decide +kernel, by decide +kernel, passes_of (fun _ l => l.length == 2) (by decide +kernel),
    passes_of (fun _ l => l.length == 2) (by decide +kernel), by decide, by decide +kernel, ⟨(5, 0, 0), by simp, rfl⟩⟩
theorem witness_Atomics :
    (let f : MA := { d := 8, sb := 2, vx := 5, scale := 2, width := 2, scope := 7, aop := 12 }
     maMask f mem2.g ≠ 0 ∧
     mem2.g.poisoned (addrItems mem2.g (maMask f mem2.g) f.sb f.vx ++ mem2.g.vitems false (maMask f mem2.g) f.d ++ mem2.g.vitems false (maMask f mem2.g) (maOperand f)) = [] ∧
     ∃ s2 hits, mem2.Passes (.atomic (maBytes f)) false true (laneAccs mem2.g (maMask f mem2.g) f.sb f.vx f.scale f.off.toInt) s2 hits ∧ (hits.length == 2) = true) ∧
    (mem2.g.poisoned [mem2.g.sitem 2, mem2.g.sitem 4, mem2.g.sitem 5] = [] ∧
     ∃ s2 hits, mem2.Passes (.atomic 8) true true [(0, 0x31000)] s2 hits ∧ (hits.length == 1) = true) ∧
    mem2.g.atomic = none ∧ mem2.pauses = [] ∧
    (let run : AtomicRun := { i := .red { }, left := [(0, 0x31000), (1, 0x31004)], olds := [] }
     let s : State := { mem2 with pauses := [1], g := { mem2.g with atomic := some run } }
     s.g.atomic = some run ∧ s.pauses = 1 :: [] ∧ 1 < run.left.length) ∧
    ((∀ o ∈ mem2.ms.owned, o.1 ≠ 5) ∧ mem2.podMapped 5 = false ∧ mem2.usedBanks 255 < 96) ∧
    mem2.MemoryWf ∧ 2 ^ 32 - 1 < 2 ^ (8 * 4) ∧ 2 ^ 64 - 1 < 2 ^ (8 * 8) ∧ (9 : Nat) < 10 ∧ ((4 : Nat) = 4 ∧ (12 : Nat) < 13) :=
  ⟨⟨by decide +kernel, by decide +kernel, passes_of (fun _ l => l.length == 2) (by decide +kernel)⟩,
    ⟨by decide +kernel, passes_of (fun _ l => l.length == 1) (by decide +kernel)⟩, by decide +kernel, by decide +kernel, by decide +kernel, by decide +kernel,
    by unfold State.MemoryWf; decide +kernel, by decide, by decide, by decide, by decide⟩
/-- A fence at co, an xfence that waits and one that does not; a store that meets another region's token; a sector with no token. -/
theorem witness_FencesAndConflicts :
    (2 ≤ (2 : BitVec 4).toNat ∧ (2 : BitVec 2).toNat ≠ 1) ∧ mem2.pendingOn 63 = false ∧
    ({ mem2 with cs := { mem2.cs with merges := [{ id := 1, ctx := 0, gid := mem2.g.gid, key := 0, value := 0 }] } } : State).pendingOn 2 = true ∧
    raced.g.poisoned [raced.g.sitem fmu.sb, raced.g.sitem (snum fmu.d)] = [] ∧
    (∃ s1 l, checkAccess raced raced.g.core raced.g.ctx (.store 4) true [(0, 0x31000)] = .ok s1 l ∧
      (l.length == 1 && l.all (fun h => h.2.2.rc && h.2.2.key / 32 == 0x31000 / 32)) = true) ∧
    raced.cx.watch = [] ∧ (∀ tok ∈ raced.ms.tokens, tok.sector = 0x31000 / 32 ∧ tok.heldBy raced.g = false ∧ tok.writer = true ∧ tok.tentative = false) ∧
    (let tok : Token := { sector := 5, ctx := 0, core := 0, slot := 1, seq := 0, writer := false, tentative := true }
     let s : State := { mem2 with ms := { mem2.ms with tokens := [tok] } }
     s.ms.tokens = [tok] ∧ tok.heldBy s.g = false ∧ tok.tentative = true) ∧ raced.ms.tokens.length = 1 ∧
    (∀ t ∈ mem2.ms.tokens, t.sector ≠ 5) ∧ mem2.ms.tokens = [] ∧ (∀ p ∈ mem2.ms.pins, p.1 ≠ 5) ∧ mem2.g.begun = false ∧
    { mem2.g with begun := true }.begun = true :=
  ⟨by decide, by decide +kernel, by decide +kernel, by decide +kernel,
    checked_of (fun l => l.length == 1 && l.all (fun h => h.2.2.rc && h.2.2.key / 32 == 0x31000 / 32)) (by decide +kernel), by decide +kernel, by decide +kernel,
    by decide +kernel, by decide +kernel, by decide +kernel, by decide +kernel, by decide +kernel, by decide +kernel, rfl⟩

/-- Tile 0 of core 0, of 2 rows of 32 .n32, owned by the group. -/
def tile0 : Tile := { core := 0, idx := 0, st := .open_, gen := 3, ty := 6, skew := false, rows := 2, cols := 32, res := base.g.gid, ngran := 1, owner := base.g.gid, ctx := 0 }
/-- inBlock with that tile, its handle in s3, room for two tiles and 4 granules, and one active lane. -/
def tiled (t : Tile) : State := (withTile t (masked 1 { inBlock with g := { inBlock.g with granules := 4, handles := 2 } })).setS 3 t.handle
/-- The handle's failures in their order, and a handle that passes. -/
theorem witness_TileTable_handles :
    (let h := tile0.handle
     let s := tiled tile0
     hReserved (h ||| 0x8000000000000000) = true ∧ hReserved h = false ∧ hCore h = 0 ∧ hCore (h + 0x100000000) ≠ 0 ∧ s.tileAt 0 (hIdx (h + 1)) = none ∧
     s.tileAt 0 (hIdx h) = some tile0 ∧ tile0.gen = hGen h ∧ tile0.gen ≠ hGen (h + 256) ∧ tile0.ctx ≠ 5 ∧ tile0.st ≠ .draining) := by decide +kernel
/-- A core whose 256 entries hold tiles, one whose entry 1 a saved tile came from, at the entry's generation, and one with no saved tile. -/
theorem witness_TileTable_entries :
    (({ base with cs := { base.cs with tiles := (List.range 256).map fun i => { tile0 with idx := i } } } : State).newEntry 0 = none) ∧
    (let s := { tiled tile0 with cs := { (tiled tile0).cs with savedTiles := [{ tile0 with idx := 1, gen := 0 }] } }
     s.newEntry 0 = some 2 ∧ s.newGen 0 1 = 1 ∧ (∀ t ∈ s.cs.savedTiles, t.core ≠ 1)) ∧
    ((tiled tile0).newEntry 0 = some 1 ∧ ∀ t ∈ (tiled tile0).cs.savedTiles, t.core ≠ 0) := by decide +kernel
/-- A shape at its limits and past them; no handle left; no granule left; room at entry 1. -/
theorem witness_TileTable_talloc :
    (let s := tiled tile0
     s.g.poisoned [s.g.sitem 5] = [] ∧
     shapeOk 6 false false 0x10001000 0 = true ∧ shapeOk 6 false false 0x10011000 0 = false ∧ shapeOk 6 false true (0x40 <<< 32 ||| 0x00100001) 0x31000 = true ∧
     { s.g with handles := 1 }.handles ≤ s.heldTiles s.g.gid ∧ s.heldTiles s.g.gid < s.g.handles ∧
     s.g.granules < s.usedGranules 0 s.g.gid + 4 ∧ s.usedGranules 0 s.g.gid + 3 ≤ s.g.granules ∧ s.freeRun 0 s.g.gid s.g.granules 3 = some 1 ∧
     (withTile { tile0 with gran := 1 } s).freeRun 0 s.g.gid s.g.granules 3 = none ∧ s.tileAt 0 1 = none ∧ (∀ j < 1, s.tileAt 0 j ≠ none)) := by decide +kernel
/-- tfree of a tile of another group, with outbound copies, with none and with inbound ones; tset's rows inside and past the end; twait on
a full tile and an empty one; a stale handle. -/
theorem witness_TileTable_free :
    (tiled tile0).g.poisoned [(tiled tile0).g.sitem 3, (tiled tile0).g.sitem 4, (tiled tile0).g.sitem 5] = [] ∧
    (tiled tile0).checkHandle 0 0 tile0.handle (fun t => !t.isGlobal) = .ok tile0 ∧
    (tiled { tile0 with owner := 99 }).checkHandle 0 0 tile0.handle (fun _ => true) = .ok { tile0 with owner := 99 } ∧
    (tiled { tile0 with outbound := 1 }).checkHandle 0 0 tile0.handle (fun _ => true) = .ok { tile0 with outbound := 1 } ∧
    (tiled { tile0 with inbound := 1 }).checkHandle 0 0 tile0.handle (fun _ => true) = .ok { tile0 with inbound := 1 } ∧
    (tiled { tile0 with st := .full }).checkHandle 0 0 tile0.handle (fun t => !t.isGlobal) = .ok { tile0 with st := .full } ∧
    (tiled tile0).isSavedTile 0 0 tile0.handle = false ∧ tile0.owner = (tiled tile0).g.gid ∧ tile0.failed = [] ∧ (1 < tile0.rows ∧ 1 + 1 ≤ tile0.rows) ∧ tile0.rows ≤ 2 ∧ tile0.rows < 1 + 2 := by
  refine ⟨by decide +kernel, except_of (by decide +kernel), except_of (by decide +kernel), except_of (by decide +kernel), except_of (by decide +kernel),
    except_of (by decide +kernel), by decide +kernel, by decide +kernel, by decide +kernel, by decide +kernel, by decide +kernel, by decide +kernel⟩
/-- Two lanes in one word. -/
theorem witness_TileAccess_clash :
    (let s := (vec 7 [3, 3] (masked 3 (tiled tile0))).setS 4 1
     let f : FT := { d := 9, h := 3, i := 4, j := 7, ty := 6 }
     s.Reaches f tile0 ∧ s.Clean ([s.g.sitem f.h, s.g.sitem f.i] ++ s.g.vitems false (ftMask f s.g) f.j ++ s.g.vitems false (ftMask f s.g) f.d) ∧
     (ftMask f s.g).getLsbD 0 = true ∧ (ftMask f s.g).getLsbD 1 = true ∧ ftWord f s.g tile0 0 = ftWord f s.g tile0 1) := by
  refine ⟨⟨by decide +kernel, except_of (by decide +kernel), by decide +kernel⟩, by unfold State.Clean; decide +kernel, by decide +kernel⟩
/-- A lane at the tile's last element; one past its rows, and one past its columns; full words and empty ones. -/
theorem witness_TileAccess :
    (let s := (vec 7 [31] (tiled tile0)).setS 4 1
     let f : FT := { d := 9, h := 3, i := 4, j := 7, ty := 6 }
     s.Reaches f tile0 ∧ s.g.poisoned ([s.g.sitem f.h, s.g.sitem f.i] ++ s.g.vitems false (ftMask f s.g) f.j ++ s.g.vitems false (ftMask f s.g) f.d) = [] ∧
     tile0.Sound (ftMask f s.g) (ftWord f s.g tile0) ∧ (tile0.word (ftWord f s.g tile0 0)).2 = false ∧
     ((tile0.putWord 63 5 true).word (ftWord f s.g tile0 0)).2 = true ∧ sparseWfFrom ((0 : W32), false) 0 tile0.words = true ∧ tyBits tile0.ty ∈ [2, 4, 8, 16, 32]) ∧
    (let s := (vec 7 [32] (tiled tile0)).setS 4 1
     tile0.rows > (ftPlace { i := 4, j := 7, ty := 6 } s.g 0).1 ∧ tile0.cols ≤ (ftPlace { i := 4, j := 7, ty := 6 } s.g 0).2) ∧
    (let s := (vec 7 [31] (tiled tile0)).setS 4 2
     tile0.rows ≤ (ftPlace { i := 4, j := 7, ty := 6 } s.g 0).1) := by
  refine ⟨⟨⟨by decide +kernel, except_of (by decide +kernel), by decide +kernel⟩, by decide +kernel, ?_, by decide +kernel, by decide +kernel, by decide +kernel, by decide +kernel⟩,
    by decide +kernel, by decide +kernel⟩
  unfold Tile.Sound; decide +kernel

/-- Copies that start, in and out, over both rows. -/
theorem witness_Copies_start :
    (let s := (((tiled tile0).setS 4 0).setS 5 0x31000).setS 6 128
     s.g.poisoned [s.g.sitem 3, s.g.sitem 4, s.g.sitem 5, s.g.sitem 6] = [] ∧ s.checkHandle 0 0 (s.g.sget 3) (fun t => !t.isGlobal) = .ok tile0 ∧
     0 < tile0.rows ∧ 0 + (tile0.rows - 0) ≤ tile0.rows ∧ 0x31000 % 4 = 0 ∧ 128 % 4 = 0 ∧ copyRowBytes tile0.ty tile0.cols false ≤ 128 ∧ z24Ok tile0 = true ∧
     (∃ s1 l, checkAccess s 0 0 (copySpec false) true ((pageStarts 0x31000 128 128 2).map fun a => (0, (a : Int))) = .ok s1 l ∧ (l.length == 1) = true) ∧
     (∃ s1 l, checkAccess s 0 0 (copySpec true) true ((pageStarts 0x31000 128 128 2).map fun a => (0, (a : Int))) = .ok s1 l ∧ (l.length == 1) = true)) := by
  refine ⟨by decide +kernel, except_of (by decide +kernel), by decide +kernel, by decide +kernel, by decide, by decide, by decide +kernel, by decide +kernel,
    checked_of (fun l => l.length == 1) (by decide +kernel), checked_of (fun l => l.length == 1) (by decide +kernel)⟩
/-- A copy between the tiles of a core and its peer. -/
theorem witness_Copies_peer :
    (let d : Tile := { tile0 with core := 1 }
     let s : State := { tiled tile0 with cs := { (tiled tile0).cs with tiles := [tile0, d] } }
     s.checkHandle 0 0 tile0.handle (fun t => !t.isGlobal) = .ok tile0 ∧
     s.checkHandle (corePeer 0) 0 d.handle (fun u => !u.isGlobal && u.ty == tile0.ty && u.cols = tile0.cols) = .ok d ∧ tile0.rows ≤ d.rows) := by
  refine ⟨except_of (by decide +kernel), except_of (by decide +kernel), by decide +kernel⟩
/-- The copy into tile 0 that this state has in flight, at word pos. -/
def copyIn (pos : Nat) : Copy := { id := 1, kind := .tcpi, gid := 1, ctx := 0, core := 0, idx := 0, gen := 3, row := 0, nrows := 2, addr := 0x31000, stride := 128, map := [(3, 0, 0, 0x30000)], pos := pos }
def copying (c : Copy) (t : Tile) : State := { tiled t with cs := { (tiled t).cs with copies := [c] } }
/-- A LEVEL 1 staging request of two lines, both sent and promoted, whose place in the queue of demand is n. -/
def staged (n : Nat) (s : State) : State :=
  let q : StageReq := { id := 9, die := 0, entry := 5, gid := 1, core := 0, ctx := 0, level := 1, va := 0x31000, bytes := 256, prio := 3,
                        begun := true, sent := 2, promoted := 2, waves := [(0, n)] }
  { s with ls := { s.ls with staging := [q] } }
/-- A landing with a promoted request before it in the queue, with one after it, and with none. -/
theorem witness_Copies_queue :
    (let s := copying (copyIn 63) { tile0 with st := .filling, inbound := 1 }
     (staged 0 s).demandMayLand 1 = false ∧ (staged 2 s).demandMayLand 1 = true ∧ s.demandMayLand 1 = true) := by decide +kernel
theorem witness_Copies_land :
    (let t : Tile := { tile0 with st := .filling, inbound := 1 }
     (copying (copyIn 63) t).cs.copies.find? (·.id = 1) = some (copyIn 63) ∧ (copying (copyIn 63) t).tileAt 0 0 = some t ∧ t.st ≠ .draining ∧ t.gen = (copyIn 63).gen ∧
     (copyIn 63).pos < (copyIn 63).nrows * t.rowWords ∧ (copyIn 63).nextWord (copying (copyIn 63) t) t = .ok (0, false) ∧
     (copying (copyIn 64) t).cs.copies.find? (·.id = 1) = some (copyIn 64) ∧ t.st = .filling ∧ t.inbound = 1 ∧ (copyIn 64).nrows * t.rowWords ≤ (copyIn 64).pos) := by
  refine ⟨by decide +kernel, by decide +kernel, by decide +kernel, by decide +kernel, by decide +kernel, except_of (by decide +kernel), by decide +kernel, by decide +kernel,
    by decide +kernel, by decide +kernel⟩
theorem witness_Copies_out :
    (let c : Copy := { copyIn 0 with kind := .tcpo, nrows := 2, image := [List.replicate 128 7, List.replicate 128 9] }
     let s := copying c tile0
     s.cs.copies.find? (·.id = c.id) = some c ∧ 0 < 128 ∧ 128 ≤ c.stride ∧ c.image.length = c.nrows ∧ (∀ r ∈ c.image, r.length = 128) ∧ c.bad = [] ∧ s.demandMayLand c.id = true ∧
     (∃ q ∈ c.map, q.1 = c.addr / 65536) ∧ (∀ i < c.nrows, (c.addr + i * c.stride + 128 - 1) / 65536 = c.addr / 65536) ∧
     (∀ i < c.nrows, c.blocked s false ((List.range 128).map (· + (c.addr + i * c.stride))) = none)) := by
  refine ⟨by decide +kernel, by decide, by decide +kernel, by decide +kernel, by decide +kernel, by decide +kernel, by decide +kernel, ⟨(3, 0, 0, 0x30000), by decide +kernel, by decide +kernel⟩,
    by decide +kernel, by decide +kernel⟩
/-- Two lanes in two words; a handle of no entry that names no saved tile. -/
theorem witness_Tiles_order :
    (let s := (vec 7 [30, 31] (masked 3 (tiled tile0))).setS 4 1
     let f : FT := { d := 9, h := 3, i := 4, j := 7, ty := 6 }
     ftWord f s.g tile0 0 ≠ ftWord f s.g tile0 1 ∧ ftMask f s.g = 3) ∧
    (tiled tile0).isSavedTile 0 0 (tile0.handle + 1) = false ∧ hReserved (tile0.handle + 1) = false ∧ (tiled tile0).tileAt 0 (hIdx (tile0.handle + 1)) = none := by decide +kernel

/-- The ends of the weights of each format. -/
theorem witness_SignedDigits : ∀ w ∈ [(-128 : Int), 127], -128 ≤ w ∧ w ≤ 127 ∧ passSum 5 w = 5 * w := by decide +kernel
/-- mac with 1 and with 32 activations; macg on two global tiles; aput and aread at the ends of the columns. -/
theorem witness_MatrixInstructions :
    (let f : FX := { va := 8, vb := 4, km1 := 31, wf := 13, vs := 2 }
     let m := fxMask f mem2.g
     let n := fetchedBytes f.wf 32 0
     m ≠ 0 ∧ mem2.g.poisoned (macItems f mem2.g m ++
       cols16.flatMap (fun c => (List.range n).map fun b => mem2.g.vitem (f.vb + BitVec.ofNat 8 (fragByte f.wf c b).1) (fragByte f.wf c b).2.1) ++
       cols16.map fun c => mem2.g.vitem (f.vs + 1) c) = []) ∧
    mem2.g.poisoned (mem2.g.accItems 3 3 cols16) = [] ∧ mem2.g.poisoned (mem2.g.sitem 7 :: mem2.g.vitems false 3 8) = [] ∧
    ((15 : W64).toNat < 16 ∧ 16 ≤ (16 : W64).toNat ∧ isFl 2 = false ∧ isFl 8 = true ∧ ¬ 8 < (8 : W64).toNat ∧ 8 < (9 : W64).toNat) ∧
    (∀ exc, mem2.Untrapped 3 exc) ∧ fxMask { pred := 1 } mem2.g = 0 :=
  ⟨by decide +kernel, by decide +kernel, by decide +kernel, by decide, fun _ => untrapped_of (by decide +kernel), by decide +kernel⟩
theorem witness_MatrixInstructions_macg :
    (let w : Tile := { tile0 with st := .global, ty := 13, rows := 16, cols := 32, base := 0x31000, stride := 16 }
     let sc : Tile := { tile0 with idx := 1, st := .global, ty := 4, rows := 16, cols := 1, base := 0x31200, stride := 4 }
     let s : State := (({ tiled tile0 with cs := { (tiled tile0).cs with tiles := [w, sc] } } : State).setS 4 w.handle).setS 5 sc.handle
     let f : FX := { sh := 4, va := 8, wf := 13, km1 := 31, vs := 2 }
     s.g.poisoned ([s.g.sitem 4, s.g.sitem 5, s.g.sitem 6] ++ macItems f s.g (fxMask f s.g)) = [] ∧
     s.checkHandle 0 0 (s.g.sget 4) (fun _ => true) = .ok w ∧ s.checkHandle 0 0 (s.g.sget 5) (fun _ => true) = .ok sc ∧ macgBounds f w sc (s.g.sget 6) = none ∧
     (∃ s1 l, checkAccess s 0 0 (.eread .x 1) true
       (((cols16.flatMap (fun c => sectorStarts (w.base + c * w.stride) (fetchedBytes f.wf 32 0)) ++ cols16.map fun c => sc.base + c * sc.stride).foldl
         (fun l a => insertAddr a l) []).map fun a => (0, (a : Int))) = .ok s1 l ∧ (!l.isEmpty) = true)) := by
  refine ⟨by decide +kernel, except_of (by decide +kernel), except_of (by decide +kernel), by decide +kernel, checked_of (fun l => !l.isEmpty) (by decide +kernel)⟩

/-- A BRICKS leaf at 0x31080: one brick of four samples a side, at the origin. -/
def brickLeaf : List Byte := leBytes 8 2 ++ leBytes 8 48 ++ List.replicate 12 0 ++ [0, 0, 0x80, 0x3F, 1, 0, 1, 0, 1, 0, 0, 0] ++ List.replicate 8 0 ++ leBytes 8 0x31200 ++ leBytes 8 0x31280
/-- A FIELD leaf of the program X, END. -/
def smallLeaf : List Byte := leBytes 8 1 ++ leBytes 8 2 ++ [1, 0]
/-- A state with both, the field at 0x31040. -/
def leaves : State := (poke 0x31080 brickLeaf (poke 0x31040 smallLeaf (tiled { tile0 with ty := 4, cols := 2 }))).setS 2 0x31040
theorem witness_Fields :
    ({ stack := [[1], [2], [3]], xyz := [] } : Ev).stack = [1] :: [2] :: [[3]] ∧
    fkMask { va := 8, sa := 2 } leaves.g ≠ 0 ∧ leaves.g.poisoned (leaves.g.sitem 2 :: (List.range 6).flatMap fun k => leaves.g.vitems false 1 (8 + BitVec.ofNat 8 k)) = [] ∧
    ({ mode := 4 } : FK).mode.getLsbD 2 = true ∧ ({ mode := 1 } : FK).mode.getLsbD 2 = false ∧ 0x31040 % 16 = 0 ∧ 0x31048 % 16 ≠ 0 ∧
    leaves.checkHandle 0 0 (leaves.g.sget 3) (fun t => !t.isGlobal && t.ty == 4) = .ok { tile0 with ty := 4, cols := 2 } ∧
    leaves.g.poisoned ([leaves.g.sitem 2, leaves.g.sitem 3] ++ leaves.g.vitems false 0x7FFF 20) = [] ∧
    (∃ a s1, (namedProgram 0 0 none 0x31080).at (leaves.setReuse (some [])) = (.ok a, s1) ∧ a.isNone = true) ∧
    (∃ a s1, (namedProgram 0 0 none 0x31040).at (leaves.setReuse (some [])) = (.ok a, s1) ∧ (a.map fun l => (l.length, l.all fun op => op.code != 0x38)) == some (2, true)) :=
  ⟨rfl, by decide +kernel, by decide +kernel, by decide, by decide, by decide, by decide, except_of (by decide +kernel), by decide +kernel,
    rd_of Option.isNone (by decide +kernel), rd_of (fun a : Option (List FOp) => (a.map fun l => (l.length, l.all fun op => op.code != 0x38)) == some (2, true)) (by decide +kernel)⟩
/-- A program that fits its tile and one that does not; a broken map and a sound one. -/
theorem witness_Fields_prune :
    (let ops : List FOp := [{ off := 0, code := 1, size := 1, imm := [] }, { off := 1, code := 0, size := 1, imm := [] }]
     (∃ e s2, (evRun 0 0 .affine ops (List.replicate 3 [0, 0, 0, 0, 0])).at (leaves.setReuse (some [])) = (.ok e, s2) ∧ (decide ((prune ops e.marks).1.length ≤ 2) && decide (1 < (prune ops e.marks).1.length)) = true)) ∧
    (∃ a s1, (readBrick 0 0 0x31040).at (leaves.setReuse (some [])) = (.ok a, s1) ∧ a.isNone = true) ∧
    (∃ a s1, (readBrick 0 0 0x31080).at (leaves.setReuse (some [])) = (.ok a, s1) ∧
      (match a with | some b => (match ((([0] : List Nat).mapM fun _ => b.gradient 0 0 [0, 0, 0]).at (leaves.setReuse (some []))).1 with | .ok l => l.length == 1 | .error _ => false) | none => false) = true) :=
  ⟨rd_of (fun e : Ev => decide ((prune _ e.marks).1.length ≤ 2) && decide (1 < (prune _ e.marks).1.length)) (by decide +kernel), rd_of Option.isNone (by decide +kernel),
    rd_of (fun a : Option BrickMap => match a with | some b => (match ((([0] : List Nat).mapM fun _ => b.gradient 0 0 [0, 0, 0]).at (leaves.setReuse (some []))).1 with | .ok l => l.length == 1 | .error _ => false) | none => false)
      (by decide +kernel)⟩

/-- The tile of march's results: 32 rows of 4 .n32, full or empty. -/
def rayTile (full : Bool) : Tile := { tile0 with rows := 32, cols := 4, words := if full then (List.range 4).map fun w => (w, (0, true)) else [] }
/-- A ray of lane 0. -/
def ray0 : Ray := { lane := 0, phase := .marching, o := [0, 0, 0], tmin := 0, d := [0, 0, 0x3F800000], tmax := 0x3F800000, scene := 0x50000, handle := (rayTile false).handle, row := 0, mask := 0xFF, any := false, tb := 0x3F800000 }
/-- A running group that holds a ray. -/
def withRay (r : Ray) : State :=
  let s := poke 0x31070 (leBytes 8 0x31100) (poke 0x31100 (leBytes 8 1 ++ leBytes 8 0x30000) (tiled (rayTile false)))
  { s with g := { s.g with rays := [r] } }
/-- march into rows 0 to 31; mres of full words and of empty ones; mresume and mcancel of clean registers; an empty mask. -/
theorem witness_Rays :
    (let s := tiled (rayTile false)
     let f : FK := { sa := 2, sb := 3, va := 8 }
     fkMask f s.g ≠ 0 ∧ s.g.poisoned ([s.g.sitem 2, s.g.sitem 3] ++ (List.range 8).flatMap fun k => s.g.vitems false (fkMask f s.g) (8 + BitVec.ofNat 8 k)) = [] ∧
     s.checkHandle 0 0 (s.g.sget 3) (fun t => !t.isGlobal && t.ty == 6) = .ok (rayTile false) ∧ 4 ≤ (rayTile false).cols ∧ (∀ i < 32, 0 + i < (rayTile false).rows) ∧
     (∀ w < 4, ((rayTile true).word w).2 = true ∧ w ∉ (rayTile true).poison) ∧ ((rayTile false).word 0).2 = false ∧
     s.g.poisoned (s.g.vitems false (fkMask f s.g) 8 ++ s.g.vitems false (fkMask f s.g) 9) = [] ∧ fkMask { pred := 1 } s.g = 0) := by
  refine ⟨by decide +kernel, by decide +kernel, except_of (by decide +kernel), by decide +kernel, by decide +kernel, by decide +kernel, by decide +kernel, by decide +kernel, by decide +kernel⟩
def isGo (o : RayOut) : Bool := match o with | .go _ => true | _ => false
def isLand (o : RayOut) : Bool := match o with | .land _ => true | _ => false
def isSuspend (o : RayOut) : Bool := match o with | .suspend _ _ => true | _ => false
/-- Ray steps: one that goes on (an instance to enter), one that lands, one that suspends at a CALL leaf, one that meets PROT, one that
meets PAGE with room for its record. -/
theorem witness_Rays_steps :
    (let s := withRay ray0
     s.groupAt 0 0 = some s.g ∧ s.g.rayOf 0 = some ray0 ∧ ray0.phase = .marching ∧ s.g.phase = .running) ∧
    (∃ o s1, (rayAdvance 0 0 { ray0 with started := true, work := [.instance_ 0x31000 0] }).at (withRay ray0) = (.ok o, s1) ∧ isGo o = true) ∧
    (∃ o s1, (rayAdvance 0 0 { ray0 with tmin := 0x40000000 }).at (withRay ray0) = (.ok o, s1) ∧ isLand o = true) ∧
    (let l : LeafRun := { leaf := 0x31000, kind := 4, inst := some 0x31000, leafIdx := 0, shidx := 0, a0 := 0, b0 := 0, pending := [], steps := 1, stage := .segment 0 0 }
     ∃ o s1, (rayAdvance 0 0 { ray0 with started := true, leaf := some l }).at (withRay ray0) = (.ok o, s1) ∧ isSuspend o = true) ∧
    (∃ t s1, (rayAdvance 0 0 { ray0 with scene := 0x10000000000000 }).at (withRay ray0) = (.error t, s1) ∧ (t.cause != cPAGE) = true) ∧
    (∃ t s1, (rayAdvance 0 0 ray0).at (withRay ray0) = (.error t, s1) ∧ (t.cause == cPAGE && !t.pages.isEmpty && (withRay ray0).recordRoom 0 0 (t.pages.take 1)) = true) :=
  ⟨by decide +kernel, rd_of isGo (by decide +kernel), rd_of isLand (by decide +kernel),
    rd_of isSuspend (by decide +kernel), rd_bad_of (fun t => t.cause != cPAGE) (by decide +kernel),
    rd_bad_of (fun t => t.cause == cPAGE && !t.pages.isEmpty && (withRay ray0).recordRoom 0 0 (t.pages.take 1)) (by decide +kernel)⟩
/-- A NaN input, a span from 2 to 1, and a ray whose work is done. -/
theorem witness_Rays_ends :
    (wval 0x7FC00000).isNan = true ∧ (wval 0x3F800000).lt (wval 0x40000000) = true ∧ ((ray0.o ++ ray0.d ++ [ray0.tmin, ray0.tmax]).all fun w => !(wval w).isNan) = true ∧
    ray0.started = false ∧ ray0.leaf = none ∧ ray0.work = [] ∧
    (withRay ray0).tileAt (hCore ray0.handle) (hIdx ray0.handle) = some (rayTile false) ∧ (rayTile false).gen = hGen ray0.handle ∧
    sparseWfFrom ((0 : W32), false) 0 (rayTile false).words = true := by decide +kernel

/-- A draw's and an rproj's descriptors, all zero but for one triangle and one pixel. -/
def draw0 : Draw := { id := 4, ctx := 0, gid := base.g.gid, core := 0, sector := 0, desc := 0x31000, vtx := 0x31100, idx := 0x31100, ntri := 1, w := 4, h := 4, vbuf := 0x31200, pbase := 0, cull := 0, ctr := 0 }
def drawing (d : Draw) : State := { mem2 with cs := { mem2.cs with draws := [d] } }
theorem witness_Visibility :
    (let f : FK := { sa := 2, va := 5, vd := 8 }
     fkMask f mem2.g ≠ 0 ∧ mem2.g.poisoned (mem2.g.sitem 2 :: (mem2.g.vitems false 3 5 ++ mem2.g.vitems true 3 8)) = [] ∧
     (∃ s1 l, checkAccess mem2 0 0 (.merge 8) false ((activeLanes 3).map fun i => (i, (0x31000 + 8 * (mem2.g.vget 5 i).toNat : Int))) = .ok s1 l ∧ (l.length == 2) = true)) ∧
    (({ mem2 with cs := { mem2.cs with merges := [{ id := 1, ctx := 0, gid := 1, key := 0x31000, value := 9 }] } } : State).cs.merges.filter (·.id = 1)).length = 1 ∧
    (0x31001 % 64 ≠ 0 ∧ 0x31000 % 64 = 0) ∧
    (∃ d s1, (engineNat 0 0 .v 0x31000 64).at mem2 = (.ok d, s1) ∧ (!drawBad d && !rprojBad d) = true) ∧
    (∃ d s1, (engineNat 0 0 .v 0x31000 64).at (poke 0x31000 [1] mem2) = (.ok d, s1) ∧ (drawBad d && rprojBad d) = true) ∧
    ({ mem2 with cs := { mem2.cs with draws := List.replicate 63 draw0 } } : State).cs.draws.length < 64 ∧
    64 ≤ (({ mem2 with cs := { mem2.cs with draws := List.replicate 64 draw0 } } : State).cs.draws.filter fun x => x.sector = coreSector 0).length :=
  ⟨⟨by decide +kernel, by decide +kernel, checked_of (fun l => l.length == 2) (by decide +kernel)⟩, by decide +kernel, by decide,
    rd_of (fun d => !drawBad d && !rprojBad d) (by decide +kernel), rd_of (fun d => drawBad d && rprojBad d) (by decide +kernel), by decide +kernel, by decide +kernel⟩
/-- A triangle that is drawn, one that meets PROT, one that meets PAGE with no room for its record; a finished draw; a pixel outside an
rproj's frame. -/
theorem witness_Visibility_draws :
    ((drawing draw0).cs.draws.find? (·.id = 4) = some draw0 ∧ draw0.saved = false ∧ draw0.record = 0 ∧ draw0.next < draw0.ntri ∧ { draw0 with next := 1 }.ntri ≤ 1 ∧ draw0.ctr = 0) ∧
    (∃ u s1, (rasterOne draw0).at (drawing draw0) = (.ok u, s1) ∧ true = true) ∧
    (∃ t s1, (rasterOne { draw0 with idx := 0x10000000000000 }).at (drawing draw0) = (.error t, s1) ∧ (t.cause != cPAGE) = true) ∧
    (let full : State := { drawing draw0 with cx := { mem2.cx with recs := (List.range 512).map fun k => { id := k, die := 0, ctx := 9, page := k, level := 0, reqs := [] } } }
     ∃ t s1, (rasterOne { draw0 with idx := 0x50000 }).at full = (.error t, s1) ∧ (t.cause == cPAGE && !full.recordRoom 0 0 (t.pages.take 1)) = true) ∧
    natBits 0 192 16 * natBits 0 208 16 ≤ 0 :=
  ⟨by decide +kernel, rd_of (fun _ => true) (by decide +kernel), rd_bad_of (fun t => t.cause != cPAGE) (by decide +kernel),
    rd_bad_of (fun t => t.cause == cPAGE && !State.recordRoom _ 0 0 (t.pages.take 1)) (by decide +kernel), by decide⟩
/-- Whether rproj's one lane passes, for a descriptor of one pixel. -/
def rprojRuns (s : State) (d : Nat) : Bool :=
  !rprojBad d && natBits d 192 16 == 1 && match (([0].mapM fun _ => rprojLane 0 0 d 0 : Rd (List Nat)).at (s.setReuse (some []))).1 with
    | .ok l => l.length == 1
    | .error _ => false
/-- mem2 with such a descriptor, whose records are all zero. -/
def reprojecting : State :=
  poke 0x31000 (leBytes 8 0x31100 ++ leBytes 8 0x31200 ++ leBytes 8 0x31300 ++ leBytes 8 0x0000000000010001 ++ leBytes 4 0 ++ leBytes 8 0x31400) mem2
theorem witness_Visibility_rproj : ∃ d s1, (engineNat 0 0 .v 0x31000 64).at reprojecting = (.ok d, s1) ∧ rprojRuns s1 d = true := by
  obtain ⟨d, s1, h, p⟩ := rd_of (x := (engineNat 0 0 .v 0x31000 64).at reprojecting) (rprojRuns ((engineNat 0 0 .v 0x31000 64).at reprojecting).2) (by decide +kernel)
  exact ⟨d, s1, h, by rw [h] at p; exact p⟩

/-- A launch record with every field 0 but its KOBJ, a kernel of one slot that may launch two children, and the pool entry they make. -/
def rec0 : Record := { recordOf 0x31040 with kobj := 0x31040 }
def kd0 : KernelDesc := { entry := 0x30000, slots := 1, scrg := 0, handles := 0, child := 2, qout := 0 }
def entry0 : PoolEntry := { die := 0, entry := 5, gen := 2, st := .running, ctx := 0, rc := rec0, kd := kd0, pred := 0, bound := 1 }
/-- A running group of that entry, with the record at 0x31000, the descriptor at 0x31040, and at 0x31080 a record whose descriptor is 0. -/
def launched (e : PoolEntry) : State :=
  let s := poke 0x31080 (leBytes 8 0x310C0) <| poke 0x31000 (leBytes 8 0x31040) (poke 0x31040 (leBytes 8 0x10000000030000 ++ leBytes 8 0x20000) (tiled tile0))
  { s with ls := { s.ls with pool := [e] }, g := { s.g with launch := some (0, 5), lgen := 2 } }
/-- The token of that entry. -/
def token0 : W64 := 0x200000005
/-- launched, with entry 5 launched by another group: the subject of a join. -/
def joinable (e : PoolEntry) : State := { (launched e).setS 4 token0 with g := { ((launched e).setS 4 token0).g with launch := none } }

/-- exit with work outstanding and with none; fetch without a launch, at the end, with a coordinate left, and with a budget that no queue
admits. -/
theorem witness_Launches_exit :
    (mem2.exitWaits = false ∧ base.g.bars = [] ∧ base.g.atLast = true ∧ ({ base with cs := { base.cs with merges := [{ id := 1, ctx := 0, gid := base.g.gid, key := 0, value := 0 }] } } : State).exitWaits = true ∧
      base.g.launch = none ∧ base.g.unit = none ∧ (∀ e ∈ base.ls.pool, e.launcher ≠ base.g.gid)) ∧
    mem2.closeIdem.endUnit.ownEntry = none ∧
    (launched { entry0 with next := 1 }).closeIdem.endUnit.ownEntry = some { entry0 with next := 1 } ∧ { entry0 with next := 1 }.rc.count ≤ 1 ∧
    (let u := (launched entry0).closeIdem.endUnit
     u.ownEntry = some entry0 ∧ entry0.next < entry0.rc.count ∧ State.budgetsFit { u with g := { u.g with resA := 0, resB := 0 } } u.g.ctx entry0.kd 1 = true) ∧
    (let e := { entry0 with kd := { kd0 with qout := 0xFFFF } }
     let u := (launched e).closeIdem.endUnit
     u.ownEntry = some e ∧ (launched e).g.unit = none ∧ State.budgetsFit { u with g := { u.g with resA := 0, resB := 0 } } u.g.ctx e.kd 1 = false) := by decide +kernel
/-- launch of a misaligned record, of a rejected one, of an accepted one within CHILD and beyond it; a Held record that spans no die. -/
theorem witness_Launches_launch :
    (0x31008 % 64 ≠ 0 ∧ 0x31000 % 64 = 0) ∧ (launched entry0).g.poisoned [(launched entry0).g.sitem 4] = [] ∧
    (∃ a s1, (readLaunch 32 0x31080).at (launched entry0) = (.ok a, s1) ∧ a.isNone = true) ∧
    (∃ a s1, (readLaunch 32 0x31000).at (launched entry0) = (.ok a, s1) ∧ a.isSome = true) ∧
    (launched entry0).childrenOf (launched entry0).g.gid < (launched entry0).childLimit ∧
    (launched { entry0 with kd := { kd0 with child := 0 } }).childLimit ≤ (launched entry0).childrenOf (launched entry0).g.gid ∧
    (let u := (launched entry0).closeIdem.endRegion
     (u.enterPool 0 probeCtx rec0 kd0 [] 1 0 { }).isSome = true ∧ { rec0 with hold := true }.spans 0 = false ∧ u.freeEntry 0 = some 0) :=
  ⟨by decide, by decide +kernel, rd_of (fun a : Option (Record × KernelDesc × List WsEntry) => a.isNone) (by decide +kernel), rd_of (fun a : Option (Record × KernelDesc × List WsEntry) => a.isSome) (by decide +kernel), by decide +kernel, by decide +kernel, by decide +kernel⟩
/-- Tokens: stale, of another context, of the group's own launch, finished in both ways, and of a running one; a tile passed to a Held
task and refused; linfo inside a launch and outside. -/
theorem witness_Launches_join :
    (let s := launched entry0
     s.Clean [s.g.sitem 4, s.g.sitem 5] ∧ s.byToken 0 = none ∧ s.byToken token0 = some entry0 ∧ s.g.launch = some (entry0.die, entry0.entry) ∧ s.g.lgen = entry0.gen ∧
     entry0.ctx = s.g.ctx ∧ { entry0 with ctx := 3 }.ctx ≠ s.g.ctx ∧ tile0.owner = s.g.gid ∧ { tile0 with owner := 9 }.owner ≠ s.g.gid ∧ mem2.ownEntry = none ∧
     s.ownEntry = some entry0) ∧
    (joinable { entry0 with st := .doneCompleted }).byToken token0 = some { entry0 with st := .doneCompleted } ∧ (joinable entry0).g.launch ≠ some (0, 5) ∧
    (joinable { entry0 with st := .doneCancelled }).byToken token0 = some { entry0 with st := .doneCancelled } ∧
    (entry0.st ≠ .doneCompleted ∧ entry0.st ≠ .doneCancelled) ∧
    (joinable { entry0 with st := .held, pred := 1 }).byToken token0 = some { entry0 with st := .held, pred := 1 } ∧ entry0.rc.isTask = true := by
  unfold State.Clean; decide +kernel
theorem witness_Launches_hpass : (launched entry0).checkHandle 0 0 ((launched entry0).g.sget 3) (fun t => !t.isGlobal) = .ok tile0 := except_of (by decide +kernel)

/-- A barrier entry, and a group that is a member of it or not. -/
def bar0 : Barrier := { core := 0, idx := 63, st := .live, ctx := 0, cl := true, exp := 16 }
def barred (b : Barrier) (member : Bool) : State :=
  { tiled tile0 with cs := { (tiled tile0).cs with bars := [b] }, g := { (tiled tile0).g with bars := if member then [(0, 63)] else [] } }
/-- bar.init of a live entry, of a free one with 0, 1, the most and one more; the failures of R259 and an arrival that passes; the last of
a phase and another. -/
theorem witness_Barriers :
    (barred bar0 true).barAt 0 63 ≠ none ∧ (barred bar0 true).barAt 0 62 = none ∧ (0 : Nat) = 0 ∧ (1 ≤ 16 ∧ 16 ≤ 16) ∧ (16 < 17) ∧ (1 ≤ 8 ∧ 8 ≤ 8 ∧ 8 < 9) ∧
    (barred bar0 true).barAt 0 63 = some bar0 ∧ { bar0 with ctx := 5 }.ctx ≠ (barred bar0 true).g.ctx ∧ bar0.ctx = (barred bar0 true).g.ctx ∧
    { bar0 with cl := false }.cl = false ∧ (1 : Nat) ≠ (barred bar0 true).g.core ∧ (0 : Nat) = (barred bar0 true).g.core ∧
    ({ bar0 with arr := 1 }.arr &&& (barred bar0 true).g.barBit 0 ≠ 0) ∧
    (popCount 16 { bar0 with memb := 0xFFFF }.memb.toNat = bar0.exp) ∧
    (barred bar0 true).checkBar 0 63 true = .ok bar0 ∧ (barred bar0 true).checkBar 0 63 false = .ok bar0 ∧ bar0.st = .live ∧ (511 < 512) ∧
    ({ bar0 with cnt := 15 }.cnt + 1 = bar0.exp) ∧ (bar0.cnt + 1 ≠ bar0.exp) ∧ (barred bar0 true).g.arrived = none := by
  refine ⟨by decide +kernel, by decide +kernel, by decide, by decide, by decide, by decide, by decide +kernel, by decide +kernel, by decide +kernel, by decide +kernel,
    by decide +kernel, by decide +kernel, by decide +kernel, by decide +kernel, except_of (by decide +kernel), except_of (by decide +kernel), by decide +kernel, by decide, by decide +kernel,
    by decide +kernel, by decide +kernel⟩
/-- Tokens of bar.wait: a reserved bit, another core, a free entry, a phase past and the present one; drops by a member that has arrived
and is not the last, by the only participant, and by no member; the grid barrier's last arrival and another. -/
theorem witness_Barriers_wait :
    ((0x400000 : W64).extractLsb' 22 10 ≠ 0 ∧ (0x20000000000 : W64).extractLsb' 41 23 ≠ 0 ∧ ((0x500000000 : W64).extractLsb' 32 9).toNat ≠ (barred bar0 true).g.core) ∧
    (let t : W64 := 0x3F0001
     t.extractLsb' 22 10 = 0 ∧ t.extractLsb' 41 23 = 0 ∧ (t.extractLsb' 32 9).toNat = (barred bar0 true).g.core ∧ (t.extractLsb' 16 6).toNat = 63 ∧ bar0.phase ≠ t.extractLsb' 0 16) ∧
    bar0.phase = (0x3F0000 : W64).extractLsb' 0 16 ∧ (barred bar0 true).barPassed 0x3F0001 = true ∧ (barred bar0 true).barPassed 0x3F0000 = false ∧
    (barred bar0 false).g.bars.contains (0, 63) = false ∧ (barred bar0 true).g.bars.contains (0, 63) = true ∧ { bar0 with exp := 1 }.exp = 1 ∧
    ({ bar0 with arr := 1 }.arr &&& (barred bar0 true).g.barBit 0 ≠ 0 ∧ bar0.cnt + 1 < bar0.exp) ∧
    (launched entry0).ownEntry = some entry0 ∧ (launched entry0).g.arrived = none ∧ (launched entry0).g.awaits = none ∧ entry0.rc.grid = false ∧ { rec0 with grid := true }.grid = true ∧
    entry0.gridCnt + 1 = entry0.bound - entry0.ended ∧ { entry0 with bound := 2 }.gridCnt + 1 ≠ 2 - entry0.ended ∧ mem2.ownEntry = none := by decide +kernel
/-- Groups that have arrived, at a barrier and at the grid's; a drop after an arrival, one that completes the phase, and one that leaves the others' arrivals
complete; an entry whose phase an update moves on. -/
theorem witness_Barriers_drop :
    { (barred bar0 true).g with arrived := some 0x3F0000 }.arrived = some 0x3F0000 ∧ (0x8000000000000000 : W64) = BitVec.ofNat 64 (2 ^ 63 + entry0.gridPhase.toNat) ∧
    (barred bar0 true).barAt bar0.core bar0.idx = some bar0 ∧ { bar0 with phase := 1 }.phase ≠ bar0.phase ∧
    ({ bar0 with arr := 1, cnt := 1, exp := 2 }.arr &&& (barred bar0 true).g.barBit 0 ≠ 0) ∧ (bar0.arr &&& (barred bar0 true).g.barBit 0 = 0) ∧
    ({ bar0 with cnt := 15 }.cnt + 1 = bar0.exp) := by decide +kernel

/-- A queue of one packet at 0x31100, and the state that holds it, with the packet. -/
def seq0 : SeqRef := { ctx := 0, q := 3 }
def queue0 : Queue := { ctx := 0, q := 3, base := 0x31100, log2n := 0, feed := false, jctr := 0, ridx := 0, widx := 1, pos := 0 }
def queued (b : List Byte) : State := { poke 0x31100 b (launched entry0) with qs := { (launched entry0).qs with queues := [queue0] } }
/-- enq: misaligned, with a bad header, outside a reservation, with none left, and within one. -/
theorem witness_QueueInstructions_enq :
    (let e := { entry0 with kd := { kd0 with qout := 0x0013 } }
     let s : State := { launched e with qs := { (launched e).qs with queues := [{ queue0 with feed := true }] }, g := { (launched e).g with resA := 1 } }
     s.g.poisoned [s.g.sitem 4, s.g.sitem 5] = [] ∧ 0x31108 % 64 ≠ 0 ∧ 0x31140 % 64 = 0 ∧
     pkHeaderBad (List.replicate 64 0) = true ∧ pkHeaderBad (8 :: List.replicate 63 0) = false ∧ s.reservation 9 = none ∧
     (s.reservation (BitVec.ofNat 64 e.kd.qa.1)).isSome = true) ∧
    (∃ a s1, (groupBytes 0x31140 64).at (launched entry0) = (.ok a, s1) ∧ (a.length == 64) = true) ∧
    (∃ s2 ts, checkStore (launched entry0) 0 0 (.ewrite .c 1) 0x31140 64 = .ok s2 ts ∧ (ts.length != 0) = true) :=
  ⟨by decide +kernel, rd_of (fun a : List Byte => a.length == 64) (by decide +kernel), checked_of (fun l => l.length != 0) (by decide +kernel)⟩
/-- cnt of no counter, of an odd address and of a word that is reached, marked and not reached; cancel at each level. -/
theorem witness_QueueInstructions_cnt :
    (mem2.g.poisoned [mem2.g.sitem 4, mem2.g.sitem 5] = [] ∧ mem2.levelCounter 0 = 0 ∧ 0x31004 % 8 ≠ 0 ∧ 0x31008 % 8 = 0) ∧
    (∃ a s1, (groupNat 0x31000 8).at mem2 = (.ok a, s1) ∧ (a == 0) = true) ∧
    (∃ a s1, (groupNat 0x31000 8).at (poke 0x31007 [0x80] mem2) = (.ok a, s1) ∧ (a == 2 ^ 63) = true) ∧
    (mem2.g.unit = none ∧ { mem2.g with unit := some 4 }.unit = some 4 ∧ (launched entry0).byToken 0 = none ∧ (launched entry0).byToken token0 = some entry0 ∧
      entry0.isDone = false ∧ { entry0 with st := .doneCancelled }.isDone = true ∧ mem2.g.mem.walk = 0 ∧ mem2.g.mem.loops = [] ∧ mem2.g.launch = none) :=
  ⟨by decide +kernel, rd_of (· == 0) (by decide +kernel), rd_of (· == 2 ^ 63) (by decide +kernel), by decide +kernel⟩
/-- Groups of a walk that goes on and of one that is cancelled; of an iteration that goes on, of one that has ended, and of a LOOP that has gone. -/
theorem witness_QueueInstructions_cancel :
    (let w : Walk := { id := 4, ctx := 0, q := 3, run := 1, nodes := [], gctr := 0, pos := 0 }
     let s : State := { mem2 with g := { mem2.g with mem := { walk := 4 } }, qs := { mem2.qs with walks := [w] } }
     s.g.mem.walk ≠ 0 ∧ s.runOf w.run = none ∧ s.walkOf s.g.mem.walk = some w ∧ w.cancelled = false ∧ { w with cancelled := true }.cancelled = true) ∧
    (let r : PacketRun := { id := 1, seq := seq0, index := 0, kind := 6, body := [], mem := { }, job := 0, it := 2 }
     let s : State := { mem2 with g := { mem2.g with mem := { loops := [(1, 2)] } }, qs := { mem2.qs with runs := [r] } }
     s.g.mem.loops = (1, 2) :: [] ∧ s.runOf 1 = some r ∧ r.ready = false ∧ r.it = 2 ∧ { r with it := 3 }.it ≠ 2 ∧ { r with ready := true }.ready = true ∧ s.runOf 9 = none) := by
  decide +kernel
/-- A walk whose GCTR write waits; a group's own launch, going on and done; a job that is open, one that is not, and no queue. -/
theorem witness_QueueInstructions_jobs :
    (let r : PacketRun := { id := 1, seq := seq0, index := 0, kind := 4, body := [], mem := { }, job := 0, it := 1 }
     ({ mem2 with qs := { mem2.qs with runs := [r] } } : State).runOf 1 = some r ∧ r.it = 1) ∧
    ((launched entry0).ownEntry = some entry0 ∧ entry0.isDone = false ∧ mem2.ownEntry = none ∧
      (launched { entry0 with st := .doneCompleted }).ownEntry = some { entry0 with st := .doneCompleted } ∧ { entry0 with st := .doneCompleted }.isDone = true) ∧
    (let s : State := { queued [] with g := { (queued []).g with mem := { q := 3, job := 0 } } }
     s.queueAt s.g.ctx s.g.mem.q = some queue0 ∧ s.g.launch ≠ none ∧ queue0.job = s.g.mem.job ∧ queue0.skipJob = false ∧
     { queue0 with job := 4 }.job ≠ s.g.mem.job ∧ queue0.jends = [] ∧ (launched entry0).queueAt 0 3 = none) := by decide +kernel
/-- A doorbell with no room used, with the ring full, below WIDX and past the ring; a descriptor of zeros; restarts above EIDX, at WIDX, and
at EIDX. -/
theorem witness_QueueEvents :
    (let s := queued []
     s.mg.pstate = 0 ∧ probeCtx.st ≠ .created ∧ s.ctxOf 0 = some probeCtx ∧ s.quarantined 0 = false ∧ s.queueAt 0 3 = some queue0 ∧ queue0.feed = false ∧ queue0.st = 1 ∧
     (queue0.widx ≤ 1 ∧ 16 ≤ queue0.ridx + 2 ^ (queue0.log2n + 4)) ∧ 0 < queue0.widx ∧ queue0.ridx + 2 ^ (queue0.log2n + 4) < 17 ∧ { queue0 with feed := true }.feed = true ∧
     { queue0 with st := 2 }.st ≠ 1 ∧ (queue0.bell = none ∧ { queue0 with bell := some 4 }.bell = some 4) ∧ probeCtx.inMemory (probeCtx.qtab + 64 * 255) 64 = true ∧
     s.queueAt 0 255 = none ∧ probeCtx.st ≠ .destroyed ∧ natBits (s.memNat (probeCtx.qtab + 64 * 255) 64) 0 512 = 0) ∧
    (let x := { queue0 with st := 2, widx := 5, eidx := 3 }
     x.eidx < 4 ∧ 4 ≤ x.widx ∧ 5 ≤ x.widx ∧ 3 ≤ x.eidx ∧ x.widx < 6) := by decide +kernel

theorem starts_of {s : State} {q : SeqRef} {kind : Nat} (P : List Byte → State → Bool)
    (h : (s.mayRead q && match (s.nextPacket q).at s with
      | (.ok b, s1) => decide (pkKind b = kind) && !s1.passes q && decide (pkErr b = 0) && decide (s1.active q = []) && P b s1
      | (.error _, _) => false) = true) : ∃ b s1, s.Starts q kind b s1 ∧ P b s1 = true := by
  rw [Bool.and_eq_true] at h
  obtain ⟨h0, h⟩ := h
  cases hp : (s.nextPacket q).at s with
  | mk x s1 =>
    rw [hp] at h
    cases x with
    | error _ => simp at h
    | ok b =>
      simp only [Bool.and_eq_true, decide_eq_true_eq, Bool.not_eq_true'] at h
      exact ⟨b, s1, ⟨h0, hp, h.1.1.1.1, h.1.1.1.2, h.1.1.2, fun _ => h.1.2⟩, h.2⟩
/-- Whether what a record names can be read, and enters a pool. -/
def recordRuns (x : Except Trap (Option (Record × KernelDesc × List WsEntry)) × State) (q : SeqRef) : Bool :=
  match x with
  | (.ok (some (rc, kd, ws)), s2) =>
    (match s2.entryFor 0 0 rc with | some p => decide (0 < s2.poolRoom p.1) && p.2.2 == none | none => false) &&
      (State.enterPool (s2.startRun q []).1 0 probeCtx rc kd ws 0 1 { }).isSome
  | _ => false
/-- A LAUNCH and a TASK packet whose records are accepted, and a LAUNCH packet whose record is not; a packet with a reserved kind. -/
theorem witness_Packets_records :
    (∃ b s1, (queued (leBytes 8 1 ++ leBytes 8 0x31000)).Starts seq0 1 b s1 ∧
      recordRuns ((do return ← readRecord 256 0 32 (← engineNat 256 0 .c (pkNat b 8 8) 64) : Rd (Option (Record × KernelDesc × List WsEntry))).at s1) seq0 = true) ∧
    (∃ b s1, (queued (leBytes 8 2 ++ leBytes 8 0x31040)).Starts seq0 2 b s1 ∧ (taskFits b && recordRuns ((readRecord 256 0 32 (taskRecord b)).at s1) seq0) = true) ∧
    (∃ b s1, (queued (leBytes 8 1 ++ leBytes 8 0x31080)).Starts seq0 1 b s1 ∧
      (match ((do return ← readRecord 256 0 32 (← engineNat 256 0 .c (pkNat b 8 8) 64) : Rd (Option (Record × KernelDesc × List WsEntry))).at s1).1 with
        | .ok none => true | _ => false) = true) ∧
    ((queued [9]).mayRead seq0 = true ∧ ∃ b s1, ((queued [9]).nextPacket seq0).at (queued [9]) = (.ok b, s1) ∧ (pkErr b != 0 && decide (8 < pkKind b)) = true) :=
  ⟨starts_of (fun b s1 => recordRuns ((do return ← readRecord 256 0 32 (← engineNat 256 0 .c (pkNat b 8 8) 64) : Rd (Option (Record × KernelDesc × List WsEntry))).at s1) seq0)
      (by decide +kernel),
    starts_of (fun b s1 => taskFits b && recordRuns ((readRecord 256 0 32 (taskRecord b)).at s1) seq0) (by decide +kernel),
    starts_of (fun b s1 => match ((do return ← readRecord 256 0 32 (← engineNat 256 0 .c (pkNat b 8 8) 64) : Rd (Option (Record × KernelDesc × List WsEntry))).at s1).1 with
        | .ok none => true | _ => false) (by decide +kernel),
    by decide +kernel, rd_of (fun b => pkErr b != 0 && decide (8 < pkKind b)) (by decide +kernel)⟩
/-- A GRAPH packet of one node; a COND and a LOOP packet whose range fits, and a COND packet whose range leaves the one around it; a
test that holds and one that does not; a SIGNAL, a COPY and a WAIT packet. -/
theorem witness_Packets_kinds :
    (∃ b s1, (poke 0x31300 (leBytes 8 0x31340) (poke 0x31340 [8] (queued (leBytes 8 4 ++ leBytes 8 0x31300)))).Starts seq0 4 b s1 ∧
      (match ((readGraph 256 0 (pkNat b 8 8)).at s1).1 with | .ok (.ok _) => true | _ => false) = true) ∧
    (∃ b s1, (queued (leBytes 8 5 ++ leBytes 8 0x31400 ++ leBytes 8 0 ++ [1, 0])).Starts seq0 5 b s1 ∧
      (s1.rangeOk seq0 (pkNat b 24 1) && (match ((testWord 256 0 b).at s1).1 with | .ok x => x | _ => false)) = true) ∧
    (∃ b s1, (queued (leBytes 8 5 ++ leBytes 8 0x31400 ++ leBytes 8 7 ++ [1, 0])).Starts seq0 5 b s1 ∧
      (s1.rangeOk seq0 (pkNat b 24 1) && (match ((testWord 256 0 b).at s1).1 with | .ok x => !x | _ => false)) = true) ∧
    (∃ b s1, ((queued (leBytes 8 5 ++ leBytes 8 0x31400 ++ leBytes 8 0 ++ [1, 0])).setRanges seq0 [{ run := 9, loop := false, first := 0, len := 1 }]).Starts seq0 5 b s1 ∧
      (!s1.rangeOk seq0 (pkNat b 24 1)) = true) ∧
    (∃ b s1, (queued (leBytes 8 6 ++ leBytes 8 0x31400 ++ leBytes 8 0 ++ [1, 0])).Starts seq0 6 b s1 ∧ s1.rangeOk seq0 (pkNat b 24 1) = true) ∧
    (∃ b s1, (queued (leBytes 8 7 ++ leBytes 8 0x31400 ++ leBytes 8 5 ++ [1, 6])).Starts seq0 7 b s1 ∧
      (match checkAccess s1 256 0 { cls := .c, acc := 2, needR := true, needW := true, size := 8, reads := true } true [(0, (pkNat b 8 8 : Int))] with
        | .ok _ l => l.length == 1 | .bad _ _ => false) = true) ∧
    (∃ b s1, (queued (leBytes 8 3 ++ leBytes 8 0x31400 ++ leBytes 8 0x31500 ++ leBytes 8 4)).Starts seq0 3 b s1 ∧ true = true) ∧
    (∃ b s1, (queued (leBytes 8 8 ++ leBytes 8 0x31400 ++ leBytes 8 5)).Starts seq0 8 b s1 ∧ true = true) :=
  ⟨starts_of (fun b s1 => match ((readGraph 256 0 (pkNat b 8 8)).at s1).1 with | .ok (.ok _) => true | _ => false) (by decide +kernel),
    starts_of (fun b s1 => s1.rangeOk seq0 (pkNat b 24 1) && (match ((testWord 256 0 b).at s1).1 with | .ok x => x | _ => false)) (by decide +kernel),
    starts_of (fun b s1 => s1.rangeOk seq0 (pkNat b 24 1) && (match ((testWord 256 0 b).at s1).1 with | .ok x => !x | _ => false)) (by decide +kernel),
    starts_of (fun b s1 => !s1.rangeOk seq0 (pkNat b 24 1)) (by decide +kernel),
    starts_of (fun b s1 => s1.rangeOk seq0 (pkNat b 24 1)) (by decide +kernel),
    starts_of (fun b s1 => match checkAccess s1 256 0 { cls := .c, acc := 2, needR := true, needW := true, size := 8, reads := true } true [(0, (pkNat b 8 8 : Int))] with
        | .ok _ l => l.length == 1 | .bad _ _ => false) (by decide +kernel),
    starts_of (fun _ _ => true) (by decide +kernel), starts_of (fun _ _ => true) (by decide +kernel)⟩
/-- Runs: a LOOP whose range is done, with a bound that is reached and one that is not; a COPY under way, and one from an address that is
out of range; a run that is ready; a WAIT whose word is read. -/
def run0 (kind : Nat) (b : List Byte) : PacketRun := { id := 1, seq := seq0, index := 0, kind := kind, body := b, mem := { }, job := 0 }
def running (r : PacketRun) : State := { queued [] with qs := { (queued []).qs with runs := [r] } }
theorem witness_Packets_runs :
    (let r := run0 6 (leBytes 8 6 ++ leBytes 8 0x31400 ++ leBytes 8 0 ++ [1, 0, 0, 0, 0, 0, 0, 0] ++ leBytes 4 1 ++ List.replicate 28 0)
     let s := (running r).setRanges seq0 [{ run := 1, loop := true, first := 0, len := 0 }]
     s.runOf 1 = some r ∧ r.kind = 6 ∧ r.ready = false ∧ r.status = 0 ∧ s.ctxLive 0 = true ∧ s.rangeDone r = true ∧ s.waitsOn (.started 1) = false ∧ pkNat r.body 40 8 = 0 ∧
     pkNat r.body 32 4 = 1 ∧ r.it + 1 = pkNat r.body 32 4 ∧ { r with it := 1 }.it + 1 ≠ pkNat r.body 32 4 ∧
     (match ((testWord 256 0 r.body).at s).1 with | .ok x => x | _ => false) = true) ∧
    (let r := run0 3 (leBytes 8 3 ++ leBytes 8 0x31400 ++ leBytes 8 0x31500 ++ leBytes 8 4)
     (running r).runOf 1 = some r ∧ r.it = 0 ∧ r.status = 0 ∧ (running r).waitsOn (.copy 1) = false ∧ (running r).demandMayLand r.no = true ∧ r.moved < pkNat r.body 24 8 ∧
     (match ((engineBytes 256 0 .c 0x31400 4).at (running r)).1 with | .ok _ => true | _ => false) = true ∧
     (match ((engineStore 256 0 (.ewrite .c 1) 0x31500 [1, 2, 3, 4]).at (running r)).1 with | .ok _ => true | _ => false) = true ∧
     (match ((engineBytes 256 0 .c (2 ^ 52) 4).at (running r)).1 with | .error t => t.cause != cPAGE | _ => false) = true) ∧
    (let r := run0 8 (leBytes 8 8 ++ leBytes 8 0x31400 ++ leBytes 8 5)
     { r with ready := true }.ready = true ∧ r.ready = false ∧ (running r).waitsOn (.started 1) = false ∧ (running r).ctxLive 0 = true ∧ (match ((engineNat 256 0 .c 0x31400 8).at (running r)).1 with | .ok w => w == 0 | _ => false) = true) := by
  decide +kernel

/-- A COPY of 4 bytes, all moved, whose completion ring of one record at 0x31700 is described at 0x31600; one that failed; the ring with room, and full. -/
def copyDone (wcnt : Nat) : State :=
  poke 0x31600 (leBytes 8 0x31700 ++ leBytes 8 wcnt ++ leBytes 8 0) (running { run0 3 (leBytes 8 3 ++ leBytes 8 0x31400 ++ leBytes 8 0x31500 ++ leBytes 8 4 ++ leBytes 8 0x31600) with moved := 4 })
theorem witness_Packets_record :
    (let r := { run0 3 (leBytes 8 3 ++ leBytes 8 0x31400 ++ leBytes 8 0x31500 ++ leBytes 8 4 ++ leBytes 8 0x31600) with moved := 4 }
     (copyDone 0).runOf 1 = some r ∧ pkNat r.body 24 8 ≤ r.moved ∧ { r with status := 2 }.status ≠ 0 ∧ pkNat r.body 32 8 = 0x31600 ∧ (copyDone 0).waitsOn (.copy 1) = false) ∧
    (∃ d s1, (engineBytes 256 0 .c 0x31600 64).at (copyDone 0) = (.ok d, s1) ∧
      (pkNat d 8 8 == 0 && natBits (leNat d) 52 4 == 0 && !(copyDone 0).ringBusy 0 0x31600) = true) ∧
    (∃ d s1, (engineBytes 256 0 .c 0x31600 64).at (copyDone 1) = (.ok d, s1) ∧ decide (2 ^ natBits (leNat d) 52 4 ≤ (pkNat d 8 8 + 2 ^ 64 - pkNat d 16 8) % 2 ^ 64) = true) ∧
    (∃ s2 l, checkAccess (copyDone 0) 256 0 { cls := .c, acc := 1, needR := false, needW := true, size := 32 } true [(0, 0x31700)] = .ok s2 l ∧ (l.length == 1) = true) ∧
    (∃ s3 l, checkAccess (copyDone 0) 256 0 { cls := .c, acc := 2, needR := true, needW := true, align := some 8, size := 8, reads := true } true [(0, 0x31608)] = .ok s3 l ∧
      (l.length == 1) = true) :=
  ⟨by decide +kernel, rd_of (fun d => pkNat d 8 8 == 0 && natBits (leNat d) 52 4 == 0 && !(copyDone 0).ringBusy 0 0x31600) (by decide +kernel),
    rd_of (fun d => decide (2 ^ natBits (leNat d) 52 4 ≤ (pkNat d 8 8 + 2 ^ 64 - pkNat d 16 8) % 2 ^ 64)) (by decide +kernel),
    checked_of (fun l => l.length == 1) (by decide +kernel), checked_of (fun l => l.length == 1) (by decide +kernel)⟩

/-- The first and last registers that mts may not write; one of the handler's, inside the handler and outside. -/
theorem witness_SystemRegisters :
    ((0 : Nat) ∈ [0, 1, 2, 3, 14, 15, 17] ∧ (17 : Nat) ∈ [0, 1, 2, 3, 14, 15, 17]) ∧ ((9 : Nat) ∈ [9, 10, 11, 12, 13] ∧ (13 : Nat) ∈ [9, 10, 11, 12, 13]) ∧
    base.g.hmode = false ∧ inHandler.g.hmode = true ∧ base.g.poisoned [base.g.sitem 5] = [] ∧ ({ imm := 0x11 } : FY).imm = 0x11 := by decide +kernel
theorem witness_SoftwareCauses :
    base.g.fwReq = none ∧ base.g.poisoned [base.g.sitem 5, base.g.sitem 6] = [] ∧ { base.g with fwReq := some (1, 2) }.fwReq = some (1, 2) ∧
    { base.g with fwReply := some 9 }.fwReply = some 9 ∧ base.g.fwReply = none ∧
    (let s : State := { base with g := { base.g with phase := .parked, fwReq := some (1, 2) } }
     s.groupAt 0 0 = some s.g ∧ s.g.phase = .parked) ∧
    base.g.hmode = false ∧ inHandler.g.hmode = true ∧ inHandler.g.poisoned xzItems = [] := by decide +kernel

theorem cons_of {α : Type} {l : List α} (h : l.isEmpty = false) : ∃ k r, l = k :: r := by
  cases l with
  | nil => simp at h
  | cons k r => exact ⟨k, r, rfl⟩

/-- A Faulted group with these trap registers, at a header or in a block that ends at blkEnd. -/
def faulted (cause : Byte) (einfo : W64) (hdr : Bool) (blkEnd : W64) (s : State) : State :=
  { s with g := { s.g with phase := .faulted, intr := { hdr := hdr, blkEnd := blkEnd }, r := { s.g.r with trap := { tcause := cause, epc := 0x30008, einfo := einfo } } } }
/-- serve of each cause that replays, with both paths of LINK; of brk at the block's end; at a header, in the last word and before it;
of a cause that does not replay, and of LINK with no path. -/
theorem witness_FaultService_serve :
    (faulted cPAGE 0 true 0 base).groupAt 0 0 = some (faulted cPAGE 0 true 0 base).g ∧ (faulted cPAGE 0 true 0 base).g.phase = .faulted ∧
    (faulted cPAGE 0 false 0x30008 base).g.intr.blkEnd = (faulted cPAGE 0 false 0x30008 base).g.r.trap.epc ∧
    (faulted cSTACK 0 false 0x30010 base).g.intr.blkEnd ≠ (faulted cSTACK 0 false 0x30010 base).g.r.trap.epc ∧
    natBits (0x50002 : W64).toNat 0 4 = 2 ∧ natBits (0x50001 : W64).toNat 0 4 ≠ 2 ∧ (faulted cWATCH 2 false 0x30010 base).g.intr.blkEnd = 0x30008 + 8 ∧
    natBits (0x101 : W64).toNat 8 8 = 1 ∧ podded.lk.routed 1 = true ∧ base.lk.routed 1 = false ∧ base.lk.host.usable = true ∧
    ({ base.lk with host := .down } : LinkSys).host.usable = false ∧
    cALIGN ≠ cPAGE ∧ cALIGN ≠ cSTACK ∧ cALIGN ≠ cWATCH ∧ cALIGN ≠ cLINK := by decide +kernel
/-- forward with a handler that is ready and with none; a failure in a live context; a slot that is free or whose group runs. -/
theorem witness_FaultService_forward :
    ((faulted cALIGN 0 false 0x30010 handled).groupAt 0 0 = some (faulted cALIGN 0 false 0x30010 handled).g ∧ (faulted cALIGN 0 false 0x30010 handled).g.hmode = false) ∧
    (∃ s1, (faulted cALIGN 0 false 0x30010 handled).handlerReady = (true, s1)) ∧ (∃ s1, (faulted cALIGN 0 false 0x30010 base).handlerReady = (false, s1)) ∧
    ((faulted cALIGN 0 false 0x30010 base).ctxLive 0 = true ∧ base.g.gid ≠ 0 ∧ base.others = [] ∧ (faulted cALIGN 0 false 0x30010 inHandler).g.hmode = true) ∧
    base.groupAt 255 7 = none ∧ (base.groupAt 0 0 = some base.g ∧ base.g.phase ≠ .faulted) :=
  ⟨by decide +kernel, pair_of (by decide +kernel), pair_of (by decide +kernel), by decide +kernel, by decide +kernel, by decide +kernel⟩
/-- A fault record with one requester, on which the group waits. -/
def rec4 (r : List Requester) : FaultRec := { id := 4, die := 0, ctx := 0, page := 0x50000, level := 3, reqs := r }
def recorded (r : List Requester) : State :=
  let s := faulted cPAGE 0 true 0 base
  { s with cx := { s.cx with recs := [rec4 r] }, g := { s.g with records := [4] } }
/-- A record of each kind of requester: none, a group that waits on it alone or on another too, a ray, a write, a draw, a transfer, a copy. -/
theorem witness_FaultService_record :
    (recorded []).cx.recs.find? (·.id = (rec4 []).id) = some (rec4 []) ∧ (∀ w ∈ (recorded []).cx.writes, w.record ≠ 0) ∧
    (let s := recorded [.group base.g.gid]
     (rec4 [.group base.g.gid]).reqs = [.group s.g.gid] ∧ s.g.phase = .faulted ∧ (rec4 []).id ∈ s.g.records ∧ (∀ k ∈ s.g.records, k = (rec4 []).id) ∧
     (∃ k ∈ ({ s.g with records := [4, 9] } : Group).records, k ≠ (rec4 []).id) ∧ s.groupOf s.g.gid = some s.g) ∧
    (let y : Ray := { lane := 31, phase := .faultwait, o := [], tmin := 0, d := [], tmax := 0, scene := 0, handle := 0, row := 0, mask := 0, any := false, tb := 0, record := 4 }
     let s := recorded [.ray base.g.gid 31]
     ({ s.g with rays := [y] } : Group).rayOf 31 = some y ∧ y.phase = .faultwait) ∧
    (let w : DevWrite := { id := 2, ctx := 0, die := 0, addr := 0x50000, op := .add 1, record := 4 }
     let s : State := { recorded [.write 2] with cx := { (recorded [.write 2]).cx with writes := [w] } }
     s.cx.writes.find? (·.id = w.id) = some w ∧ w.launch = none ∧ { w with launch := some (0, 5) }.launch = some (0, 5) ∧ (∀ w ∈ s.cx.writes, w.record ≠ 0)) ∧
    (let d : Draw := { id := 3, ctx := 0, gid := 1, core := 0, sector := 0, desc := 0, vtx := 0, idx := 0, ntri := 1, w := 1, h := 1, vbuf := 0, pbase := 0, cull := 0, ctr := 0, record := 4 }
     let s : State := { recorded [.draw 3] with cs := { (recorded [.draw 3]).cs with draws := [d] } }
     s.cs.draws.find? (·.id = d.id) = some d ∧ d.saved = false ∧ d.ctr = 0) ∧
    (let x : Xfer := { id := 5, gid := 1, ctx := 0, core := 0, put := true, loc := 0, rem := 0, len := 16, status := none, record := 4 }
     let s : State := { recorded [.xfer 5] with lk := { (recorded [.xfer 5]).lk with xfers := [x] } }
     s.lk.xfers.find? (·.id = x.id) = some x ∧ x.status = none) ∧
    (let p := run0 3 (leBytes 8 3 ++ leBytes 8 0x50000 ++ leBytes 8 0x31500 ++ leBytes 8 4)
     (running p).runOf 1 = some p ∧ p.status = 0 ∧ p.moved < pkNat p.body 24 8) := by decide +kernel

/-- With another group in slot 1. -/
def two (g : Group) : State := { base with others := [g] }
/-- base in another phase. -/
def inPhase (p : Phase) (s : State) : State := { s with g := { s.g with phase := p } }
/-- An event on the other group's slot; a free slot; a parked and a running group; both kinds of load; a cancel. -/
theorem witness_GroupEvents :
    ((two other).groupAt 0 1 = some other ∧ other.gid ≠ 0 ∧ base.g.gid ≠ 0 ∧ other.gid ≠ base.g.gid ∧ (two other).others.find? (·.gid = other.gid) = some other) ∧
    (base.groupAt 0 7 = none ∧ base.groupAt 0 0 = some base.g ∧ base.g.phase ≠ .parked ∧ (inPhase .parked base).groupAt 0 0 = some (inPhase .parked base).g) ∧
    (let s : State := { inPhase .loading (launched entry0) with g := { (inPhase .loading (launched entry0)).g with fresh := true } }
     s.groupAt 0 0 = some s.g ∧ s.g.phase = .loading ∧ s.ownEntry = some entry0) ∧
    (let s : State := { inPhase .loading base with g := { (inPhase .loading base).g with imaged := some 7, savedFrom := .parked } }
     s.groupAt 0 0 = some s.g ∧ s.g.fresh = false ∧ s.ctxOf s.g.ctx = some probeCtx ∧ s.g.imaged = some 7 ∧ s.g.savedFrom ≠ .faulted) ∧
    (let s := inPhase .discardingCancel base
     s.groupAt 0 0 = some s.g ∧ s.g.launch = none ∧ s.g.bars = [] ∧ (∀ e ∈ s.ls.pool, e.launcher ≠ s.g.gid) ∧ s.ctxOf 0 = some probeCtx ∧
     probeCtx.st ≠ .destroyed) := by decide +kernel
/-- A save of a group with a tile and no copies, in a Pre-empting context; the discard of a killed group in its region. -/
theorem witness_GroupEvents_save :
    (let c : Ctx := { probeCtx with st := .preempting }
     let s : State := { inPhase .saving (tiled tile0) with cx := { base.cx with ctxs := [c] } }
     s.groupAt 0 0 = some s.g ∧ s.g.gid ≠ 0 ∧ s.ctxOf s.g.ctx = some c ∧ (∀ t ∈ s.cs.tiles, t.owner = s.g.gid → t.inbound = 0 ∧ t.outbound = 0) ∧ c.st ≠ .running ∧ c.st ≠ .created ∧ s.g.relBuf = [] ∧
     (∀ b ∈ s.cs.bars, b.idx < 64) ∧ s.ms.mem.wf = true ∧ s.ms.backing.wf = true) ∧
    (let s := inPhase .discardingPreempt (buffering 1)
     let r : Region := { header := 0x30000, entry := mem2.g.r, replayable := true }
     s.groupAt 0 0 = some s.g ∧ s.g.phase = .discardingPreempt ∧ s.g.idem = some r) := by decide +kernel
/-- A restore that waits, into a slot past the last, with a partner that finds no slot, and one that goes. -/
theorem witness_GroupEvents_restore :
    (base.awaitsRoom base.g = false) ∧
    (let s := inPhase .saved base
     s.awaitsRoom s.g = true ∧ s.canReturn s.g 8 = false ∧ s.canReturn s.g 7 = true ∧ s.canReturn s.g 0 = true ∧ s.gangOf s.g = [s.g]) ∧
    (let s := inPhase .saved (launched { entry0 with rc := { rec0 with grid := true } })
     let x : Group := { gid := 7, core := 1, phase := .saved, launch := some (0, 5), lgen := 2, handles := 257 }
     let t : State := { s with others := [x] }
     x ∈ t.gangOf t.g ∧ x.gid ≠ t.g.gid ∧ t.returnSlot x = none) := by decide +kernel
/-- A swap at join: the child of another group, which inherits a tile of core 0 and fits there once this group has left. -/
theorem witness_GroupEvents_swap :
    (let x : PoolEntry := { entry0 with entry := 6, gen := 1, st := .admissible, bound := 0, inherit := some (tile0.handle, 0) }
     let s0 := inPhase .parked (launched entry0)
     let s : State := { s0 with ls := { s0.ls with pool := [entry0, x], policy := [(0, { valid := true, sect := 1 })] }, g := { s0.g with joining := some 0x100000006 } }
     let rest : State := { s.holdBars with g := { s.holdBars.g with phase := .saved } }
     s.groupAt 0 0 = some s.g ∧ s.ownEntry = some entry0 ∧ entry0.rc.grid = false ∧ s.g.phase = .parked ∧ s.g.joining ≠ none ∧ s.joinOver s.g = false ∧ x ∈ s.ls.pool ∧
     s.considered x = true ∧ x.st = .admissible ∧ (∀ k ∈ s.coresOf x, s.entryFits x k = false) ∧ 0 ∈ s.coresOf x ∧ s.g.atomic = none ∧ rest.entryFits x 0 (fun t => decide (t.owner = s.g.gid)) = true) := by decide +kernel

/-- An invalidation that is asked for, is under way, and completes with nothing queued; the last watchpoint and one past it; the last of the
registers, and one past it; the last word of a tile. -/
theorem witness_MemoryEvents :
    base.ctxOf 5 = none ∧ base.ctxOf 0 = some probeCtx ∧ ((0, 0x30000, 0x10000) : Nat × Nat × Nat) ∉ base.cx.invals ∧
    (let s : State := { base with cx := { base.cx with invals := [(0, 0x30000, 0x10000)] } }
     (0, 0x30000, 0x10000) ∈ s.cx.invals ∧ (∀ g ∈ s.g :: s.others, g.relBuf = [] ∧ g.storeQ = [] ∧ g.atomic = none) ∧ s.ms.stale = [] ∧ (∀ c ∈ s.cs.copies, c.ctx ≠ 0)) ∧
    ((3 : Nat) < 4 ∧ (4 : Nat) ≤ 4) ∧ (2 ^ 53 - 1 < 2 ^ 53) ∧ base.groupAt 0 0 = some base.g ∧
    ((1 ≤ 1 ∧ 63 < 64 ∧ ¬ (1 ≤ 0)) ∧ (255 < 256 ∧ 31 < 32 ∧ ¬ (32 < 32)) ∧ (3 < 4 ∧ 31 < 32 ∧ 15 < 16 ∧ ¬ (16 < 16))) ∧
    (tiled tile0).tileAt 0 0 = some tile0 ∧ tile0.isGlobal = false ∧ 63 < tile0.nWords := by decide +kernel

/-- A policy for context 0, with a staging deadline; the pool with entry 5, and no group of its launch. -/
def scheduled (e : PoolEntry) : State :=
  let s := launched e
  { s with ls := { s.ls with policy := [(0, { valid := true, sect := 1, age := 1, sdl := 1 })] }, g := { s.g with launch := none } }
/-- Records that are admissible and not, with an AGE and without; admissions that find a core and that find none; bindings that are over. -/
theorem witness_Scheduling_admission :
    (1024 ≤ 1024 ∧ 1023 < 1024 ∧ base.ctxOf 1023 = none ∧ base.ctxOf 0 = some probeCtx) ∧
    (let e : PoolEntry := { entry0 with st := .admissible, bound := 0, age := 1 }
     let s := scheduled e
     s.poolAt 0 5 = some e ∧ (s.policyOf e.ctx).age ≠ 0 ∧ (launched e).poolAt 0 5 = some e ∧ ((launched e).policyOf e.ctx).age = 0 ∧ entry0.st ≠ .admissible ∧
     e.isTwin = false ∧
     (let s1 := (s.reread e).readSaved
      let e1 := (s1.poolAt e.die e.entry).getD e
      (∃ k r, s1.placement e1 0 = k :: r) ∧ s1.firstInOrder e1 0 = true)) ∧
    (let e : PoolEntry := { entry0 with st := .admissible, bound := 0, kd := { kd0 with slots := 0 } }
     let s := scheduled e
     let s1 := (s.reread e).readSaved
     let e1 := (s1.poolAt e.die e.entry).getD e
     s.poolAt 0 5 = some e ∧ s1.placement e1 0 = []) ∧
    (let e : PoolEntry := { entry0 with rc := { rec0 with xm1 := 3 } }
     let s := scheduled e
     s.poolAt 0 5 = some e ∧ e.isTwin = false ∧ e.st = .running ∧ s.bindingOver e = false ∧ (∃ k r, s.readSaved.placement e 0 = k :: r) ∧ s.readSaved.firstInOrder e 0 = true) ∧
    (let e : PoolEntry := { entry0 with next := 1 }
     (scheduled e).poolAt 0 5 = some e ∧ (scheduled e).bindingOver e = true) ∧
    (scheduled entry0).poolAt entry0.die entry0.entry = some entry0 ∧ entry0.ws = [] ∧ entry0.inherit = none ∧
    ((0 : Nat) < 8 ∧ (scheduled entry0).groupAt 1 0 = none ∧ (1 : Nat) < 8 ∧ (scheduled entry0).groupAt 0 1 = none ∧ ∀ j < 1, (scheduled entry0).groupAt 0 j ≠ none) := by
  refine ⟨by decide +kernel, ⟨by decide +kernel, by decide +kernel, by decide +kernel, by decide +kernel, by decide +kernel, by decide +kernel, cons_of (by decide +kernel), by decide +kernel⟩,
    by decide +kernel, ⟨by decide +kernel, by decide +kernel, by decide +kernel, by decide +kernel, cons_of (by decide +kernel), by decide +kernel⟩, by decide +kernel, by decide +kernel,
    by decide +kernel, by decide +kernel, by decide +kernel⟩
/-- A request of two lines that has sent k of them. -/
def stage (k : Nat) : StageReq := { id := 2, die := 0, entry := 5, gid := 1, core := 0, ctx := 0, level := 1, va := 0x31000, bytes := 256, prio := 0, begun := true, sent := k }
/-- Requests of both levels: one that may land, before and at its last line, one that has sent nothing, and a fill with a word left and
with none; promotion of one in flight and of one that is not. -/
theorem witness_Scheduling_landing :
    (let s : State := { base with ls := { base.ls with staging := [stage 2] } }
     s.ls.staging.find? (·.id = (stage 2).id) = some (stage 2) ∧ s.mayLand (stage 2) = true ∧ (stage 2).level = 1 ∧ ¬ (((stage 2).va % 128 + 256 + 127) / 128 ≤ (stage 2).pos + 1) ∧
     ((stage 2).va % 128 + 256 + 127) / 128 ≤ ({ stage 2 with pos := 1 } : StageReq).pos + 1 ∧ s.inFlight (stage 2) = true) ∧
    (let s : State := { base with ls := { base.ls with staging := [stage 0] } }
     s.ls.staging.find? (·.id = (stage 0).id) = some (stage 0) ∧ s.mayLand (stage 0) = false ∧ s.inFlight (stage 0) = false) ∧
    (let r : StageReq := { stage 64 with level := 2, copy := 1 }
     let s (n : Nat) : State := { copying (copyIn n) { tile0 with st := .filling, inbound := 1 } with ls := { base.ls with staging := [{ r with promoted := 64, waves := [(0, 0)] }] } }
     (s 63).cs.copies.find? (·.id = r.copy) = some (copyIn 63) ∧ 0 < (s 63).copyLeft (copyIn 63) ∧ (s 63).mayLand { r with promoted := 64, waves := [(0, 0)] } = true ∧
     (s 64).copyLeft (copyIn 64) = 0) := by decide +kernel
/-- A bound group that is staged and one that is not; a deadline, past which its record is still there, and none; the last core; watts at both
ends of the control range and past them. -/
theorem witness_Scheduling :
    (let s0 := scheduled entry0
     let s : State := { s0 with g := { s0.g with phase := .bound, launch := some (0, 5) } }
     let w : State := { s with ls := { s.ls with staging := [stage 1] } }
     s.groupAt 0 0 = some s.g ∧ s.g.phase = .bound ∧ s.ownEntry = some entry0 ∧ s.isStaged s.g = true ∧ s.ctxLive 0 = true ∧ w.isStaged w.g = false ∧
     (s.policyOf 0).sdl ≠ 0 ∧ (base.policyOf 0).sdl = 0 ∧ base.g.phase = .running ∧ s.g.phase ≠ .running ∧
     (w.cutRequests w.g).g.gid = w.g.gid ∧ ((w.cutRequests w.g).entryOf w.g).map (·.rc) = some entry0.rc) ∧
    (255 < 256 ∧ 1100000 < 1100001 ∧ 1049999 < 1050000 ∧ 1050000 ≤ 1050000 ∧ 1100000 ≤ 1100000) := by decide +kernel

/-- base after boot. -/
def booted : State := { State.reset with mg := { State.reset.mg with boot := 1 } }
/-- Bind requests: the last sector, the whole device, an unaligned one, a taken one, and before boot; the partition of base. -/
theorem witness_Contexts_partitions :
    booted.mg.boot = 1 ∧ base.mg.boot ≠ 1 ∧ (7 + 2 ^ 0 ≤ 8 ∧ 7 % 2 ^ 0 = 0 ∧ 0 + 2 ^ 3 ≤ 8) ∧ booted.cx.parts = [] ∧ (6 % 2 ^ 2 ≠ 0) ∧
    (∃ q ∈ base.cx.parts, q.fsect ≤ 0 ∧ 0 < q.fsect + 2 ^ q.psize) ∧
    base.partOf 7 = none ∧ base.partOf 0 = some { fsect := 0, psize := 0 } ∧ base.ctxsOf { fsect := 0, psize := 0 } ≠ [] ∧
    (let s : State := { base with cx := { base.cx with ctxs := [] } }
     s.ctxsOf { fsect := 0, psize := 0 } = [] ∧ s.ms.mem.wf = true ∧ s.ms.backing.wf = true ∧ ∀ x ∈ s.ms.stale, s.inSlices { fsect := 0, psize := 0 } (x / 4) = false) := by
  decide +kernel
/-- A record that can be created, the last context number and one past it; its bind to a partition of its size, and of another. -/
theorem witness_Contexts_create :
    (let s : State := { poke 88 (leBytes 8 0xC480000) booted with cx := { booted.cx with parts := [{ fsect := 0, psize := 0 }] } }
     let r := s.memNat (s.ctxRec 0) 128
     s.mg.boot = 1 ∧ (0 < 1024 ∧ 1023 < 1024 ∧ ¬ (1024 < 1024)) ∧ s.ctxOf 0 = none ∧ ctxRecordOk r = true ∧ ctxRecordOk 0 = false ∧
     (let c := ctxOfRecord 0 r .created
      let t : State := { s with cx := { s.cx with ctxs := [c] } }
      t.ctxOf 0 = some c ∧ c.st = .created ∧ t.partOf (ctxOfRecord 0 r .bound).fsect = some { fsect := 0, psize := 0 } ∧ (ctxOfRecord 0 r .bound).psize = 0 ∧
      (ctxOfRecord 0 (r + 2 ^ 11) .bound).psize ≠ 0)) := by decide +kernel
/-- A context in each state that a pre-emption, a switch, a resume and a destroy tell apart, with a resident group and with none. -/
def ctxIn (st : CtxState) (s : State) : State := { s with cx := { s.cx with ctxs := [{ probeCtx with st := st }] } }
theorem witness_Contexts :
    ([CtxState.created, .bound, .runnable, .running, .preempting, .saved, .faulted, .destroyed].all fun st => (ctxIn st base).ctxOf 0 = some { probeCtx with st := st }) = true ∧
    base.hasResident 0 = true ∧ (inPhase .saved base).hasResident 0 = false ∧ base.quarantined 0 = false ∧
    (base.g.gid ≠ 0 ∧ base.g.ctx = 0 ∧ base.g.phase ∈ [Phase.running, .parked, .faulted] ∧ base.others = []) ∧ base.g.killable = false ∧ (buffering 1).g.killable = true ∧
    (let s : State := { base with cx := { base.cx with parts := [{ fsect := 0, psize := 0, quarantined := true }] } }
     s.quarantined 0 = true) ∧
    (let s : State := { ctxIn .saved base with qs := { base.qs with queues := [{ queue0 with st := 3 }] } }
     s.queueAt 0 3 = some { queue0 with st := 3 }) ∧
    (∀ g ∈ (ctxIn .destroyed { base with g := { } }).groups, g.ctx ≠ 0) ∧ (∃ g ∈ base.groups, g.ctx = 0) ∧ base.ctxOf 1023 = none ∧
    base.ms.mem.wf = true ∧ base.ms.backing.wf = true := by decide +kernel

theorem none_of {α β : Type} {x : α × Option β} (h : x.2.isNone = true) : ∃ a, x = (a, none) := by
  obtain ⟨a, _ | b⟩ := x
  · exact ⟨a, rfl⟩
  · simp at h
theorem some_of {α β : Type} {x : α × Option β} (h : x.2.isSome = true) : ∃ a b, x = (a, some b) := by
  obtain ⟨a, _ | b⟩ := x
  · simp at h
  · exact ⟨a, b, rfl⟩
/-- mem2 with a page of peer 1 at 0x40000 too, reached through port 0, and four scalar registers. -/
def linked (loc rem len stat : W64) : State :=
  let s := poke 0x22020 (leBytes 8 (0x40000 + 2 ^ 52 + 2 ^ 56 + 0x9F)) mem2
  State.setS (State.setS (State.setS (State.setS { s with lk := { s.lk with ports := s.lk.ports.set 0 .up, routes := [(1, 1)] } } 4 loc) 5 rem) 6 len) 7 stat
/-- Sources and addresses that pass, that are misaligned in each way, and that leave the address space; a transfer that starts, of 0 bytes
and of 16, with a status word and without. -/
theorem witness_LinkTransfers_start :
    (linked 0x31000 0x40000 16 0).g.poisoned [(linked 0 0 0 0).g.sitem 4, (linked 0 0 0 0).g.sitem 5, (linked 0 0 0 0).g.sitem 6, (linked 0 0 0 0).g.sitem 7] = [] ∧
    ((0x31008 : W64).toNat % 16 ≠ 0 ∧ (0x31010 : W64).toNat % 16 = 0 ∧ (0x31004 : W64).toNat % 8 ≠ 0) ∧
    (∃ s1 t, xferChecks (linked 0 0 0 0) true 0x31000 0x50000 16 none = (s1, some t)) ∧ (2 ^ 52 < 0xFFFFFFFFFFFF0 + 32 ∧ ¬ (2 ^ 52 < 0xFFFFFFFFFFFF0 + 16)) ∧
    (∃ s1, xferChecks (linked 0 0 0 0) true 0x31000 0x40000 16 (some 0x31008) = (s1, none)) ∧ (∃ s1, xferChecks (linked 0 0 0 0) false 0x31000 0x40000 0 none = (s1, none)) :=
  ⟨by decide +kernel, by decide, some_of (by decide +kernel), by decide, none_of (by decide +kernel), none_of (by decide +kernel)⟩
/-- A transfer in flight: an lput of 144 bytes at its last 16. -/
def xfer0 : Xfer := { id := 5, gid := 1, ctx := 0, core := 0, put := true, loc := 0x31000, rem := 0x40000, len := 144, status := some 0x31008, pos := 128 }
def flying (x : Xfer) : State := { linked 0 0 0 0 with lk := { (linked 0 0 0 0).lk with xfers := [x] } }
/-- A unit that moves, one whose source is out of range, a transfer that is over, and a status word that is admitted. -/
theorem witness_LinkTransfers :
    ((flying xfer0).lk.xfers.find? (·.id = xfer0.id) = some xfer0 ∧ xfer0.ended = false ∧ xfer0.record = 0 ∧ xfer0.pos < xfer0.len ∧
      { xfer0 with pos := 144 }.len ≤ { xfer0 with pos := 144 }.pos ∧ base.lk.xfers.find? (·.id = 5) = none) ∧
    (∃ b s1, (engineBytes 0 0 .l (0x31000 + 128) 16).at (flying xfer0) = (.ok b, s1) ∧ (b.length == 16) = true) ∧
    (∃ b s2, (engineStore 0 0 (.ewrite .l 1) (0x40000 + 128) (List.replicate 16 0)).at (flying xfer0) = (.ok b, s2) ∧ true = true) ∧
    (∃ t s1, (engineBytes 0 0 .l (2 ^ 52) 16).at (flying xfer0) = (.error t, s1) ∧ (t.cause != cPAGE) = true) ∧
    (∃ s1 l, checkAccess (flying xfer0) (256 + coreDie 0) 0 (.ewrite .v 8) true [(0, 0x31008)] = .ok s1 l ∧ (l.length == 1) = true) :=
  ⟨by decide +kernel, rd_of (fun b : List Byte => b.length == 16) (by decide +kernel), rd_of (fun _ : Unit => true) (by decide +kernel),
    rd_bad_of (fun t => t.cause != cPAGE) (by decide +kernel), checked_of (fun l => l.length == 1) (by decide +kernel)⟩
/-- Every state of a port and of the host link; the last port, lane, pod and peer; rates and widths at both ends. -/
theorem witness_LinkEvents :
    ([PortState.down, .training 2, .up, .narrowed true, .narrowed false, .fault].all fun x => (base.lk.ports.set 35 x)[35] = x) = true ∧ (3 < 4 ∧ 255 < 256) ∧
    (15 &&& 3 = 3 ∧ 3 &&& 3 = 3 ∧ 12 &&& 3 ≠ 3 ∧ 12 &&& 12 = 12 ∧ 9 &&& 3 ≠ 3 ∧ 9 &&& 12 ≠ 12) ∧ (2 ≤ 2 ∧ ¬ (2 ≤ 1)) ∧
    (32 ∈ [128, 64, 32] ∧ 4 ∈ [16, 8, 4]) ∧ base.lk.host = .up ∧ (7 < 8 ∧ 35 < 36 ∧ 15 < 16 ∧ 255 < 256) := by decide +kernel
/-- The host's access table with an entry that allows reads, one that allows both, and none. -/
def admitted (r w : Bool) : State :=
  { base with lk := { base.lk with access := [{ target := .hostLink, master := .host 15, fsect := 0, read := r, write := w }], ports := base.lk.ports.set 35 .up } }
/-- Inbound accesses outside every partition, at the last bytes of one and past them; allowed and refused; under a checkpoint at a port. -/
theorem witness_LinkEvents_inbound :
    let p : Part := { fsect := 0, psize := 0 }
    base.partAt (24 * 2 ^ 30) = none ∧ base.partAt (24 * 2 ^ 30 - 8) = some p ∧ p.holds (24 * 2 ^ 30 - 8 + opSize (.atomic 0 8 1 0) - 1) = true ∧
    p.holds (24 * 2 ^ 30 - 8 + opSize (.read 9) - 1) = false ∧ base.carries .hostLink = true ∧ (admitted true true).carries (.port 35) = true ∧
    (admitted true true).mayAccess .hostLink (.host 15) 0 true = true ∧ (admitted true false).mayAccess .hostLink (.host 15) 0 false = true ∧
    (admitted true false).mayAccess .hostLink (.host 15) 0 true = false ∧ p.quarantined = false ∧ p.ckpt = none ∧ { p with ckpt := some 0 }.ckpt ≠ none ∧
    (admitted true true).ms.mem.wf = true ∧ (admitted true true).ms.backing.wf = true ∧ (admitted true true).isPoisoned (24 * 2 ^ 30 - 8) 8 = false := by decide +kernel

/-- Alarms of an unbound and a bound partition under each policy; a boot; a quote refused for each reason; a checkpoint that begins, that
waits, and that can be taken, with the link up and down; a restore. -/
theorem witness_Security :
    let p : Part := { fsect := 0, psize := 0 }
    base.partOf 7 = none ∧ base.partOf 0 = some p ∧ ({ base.mg with alpol := 0 } : Mgmt).alpol = 0 ∧ base.mg.alpol ≠ 0 ∧ base.mg.alpol.toNat < 2 ∧ 2 ≤ (2 : BitVec 2).toNat ∧
    p.quarantined = false ∧ p.hasSector 0 = true ∧ base.ctxOf 0 = some probeCtx ∧ probeCtx.live = true ∧ (ctxIn .runnable base).ctxOf 0 = some { probeCtx with st := .runnable } ∧
    booted.mg.boot = 1 ∧ base.mg.boot ≠ 1 ∧ booted.mg.keyStore = [] ∧
    (let s : State := { booted with mg := { booted.mg with keyStore := [1] } }
     ¬ (s.mg.boot ≠ 1 ∨ s.mg.keyStore = [] ∨ (List.replicate 32 (0 : Byte)).length ≠ 32)) ∧
    p.ckpt = none ∧ (∃ c ∈ base.ctxsOf p, c.live = true) ∧ (∀ c ∈ (ctxIn .saved { base with g := { } }).ctxsOf p, c.live = false ∧ c.st ≠ .preempting ∧ (ctxIn .saved { base with g := { } }).hasResident c.n = false) ∧
    base.lk.host.usable = true ∧ ({ base.lk with host := .down } : LinkSys).host.usable = false ∧ base.ms.poison = [] ∧ (∃ c ∈ base.ctxsOf p, c.st ≠ .saved) ∧
    (∀ c ∈ (ctxIn .saved { base with g := { } }).ctxsOf p, c.st = .saved) ∧ base.ms.mem.wf = true ∧ base.ms.backing.wf = true ∧
    base.memNat (spaceSize + 0 + Config.partMemSize p.psize + 24) 8 = 0 := by decide +kernel

/-- A head whose descriptor lies at 0x31000, and the descriptor of a small frame; without and with a flip counter. -/
def headed (flip : Nat) : State :=
  let d := leBytes 8 0x100000 ++ leBytes 8 (256 + 2 ^ 32 * 64 + 2 ^ 48 * 64) ++ [0, 0, 60, 0, 0, 0, 0, 0] ++ leBytes 8 flip
  { base with ms := { base.ms with backing := memSetAll [] 0x31000 d }, mg := { base.mg with heads := base.mg.heads.set 0 { addr := some 0x31000 } } }
/-- T_hot at both ends and past them, offsets; an idle machine and a busy one, tolerances at each bound; a wake, and its exit with no access,
a timer and a write; heads, jobs and rings that are full and have room. -/
theorem witness_Management :
    (70 ≤ (70 : Byte).toNat ∧ (105 : Byte).toNat ≤ 105 ∧ (69 : Byte).toNat < 70 ∧ 105 < (106 : Byte).toNat) ∧ (8 : Nat) ∉ [0, 0x10, 0x18, 0x20] ∧
    State.reset.mg.pstate = 0 ∧ State.reset.idle = true ∧ base.idle = false ∧ State.reset.dark = true ∧
    (let s : State := { State.reset with mg := { State.reset.mg with jobs := [jobOf 0 0 0] } }
     s.idle = true ∧ s.dark = false) ∧
    ((1 : Nat) < 2 ∧ (2 : Nat) ≤ 2 ∧ (49 : Nat) < 50 ∧ (50 : Nat) ≤ 50 ∧ (399 : Nat) < 400 ∧ (400 : Nat) ≤ 400 ∧ (19999 : Nat) < 20000 ∧ (20000 : Nat) ≤ 20000) ∧
    (let m : Mgmt := { State.reset.mg with pstate := 4, leaving := true, held := [.access (.mgmt 0x10 ⟨none, 70⟩), .access .timer, .event (.quote ⟨none, []⟩)] }
     m.pstate ≠ 0 ∧ m.leaving = true ∧ m.held.length = 3) ∧ State.reset.mg.leaving = false ∧
    base.cx.parts.find? (·.hasSector 7) = none ∧ base.cx.parts.find? (·.hasSector 0) = some { fsect := 0, psize := 0 } ∧ base.mg.heads[0].addr = none := by decide +kernel
/-- A head that shows its frame, with a flip counter in its partition, with one outside it and with none; one without a descriptor; a job whose
ring has room and one whose ring is full. -/
theorem witness_Management_heads :
    let p : Part := { fsect := 0, psize := 0 }
    let d (n : Nat) : Nat := leNat (memRead (headed n).ms.backing 0x31000 64)
    (headed 0x200000).cx.parts.find? (·.hasSector 0) = some p ∧ (headed 0x200000).mg.heads[0].addr = some 0x31000 ∧
    (!p.quarantined && headOk (headed 0x200000) p 0 (d 0x200000)) = true ∧ (headOf (d 0x200000)).flipctr = 0x200000 ∧ p.holds 0x200000 = true ∧
    (headOf (d 0)).flipctr = 0 ∧ p.holds (2 ^ 40) = false ∧ headOk base p 0 (leNat (memRead base.ms.backing 0x31000 64)) = false ∧
    (let j := jobOf 0 0 (0x32000 * 2 ^ 384)
     let ring (w r : Nat) : State := { poke 0x32000 (leBytes 8 (0x33000 + 2 * 2 ^ 52) ++ leBytes 8 w ++ leBytes 8 r) base with mg := { base.mg with jobs := [j] } }
     (ring 4 0).mg.jobs.find? (·.sector = 0) = some j ∧ p.holds j.cring = true ∧ p.holds (j.cring + 63) = true ∧ (ring 4 0).ms.mem.wf = true ∧ (ring 4 0).ms.backing.wf = true ∧
     (let x := (ring 4 0).memNat j.cring 64
      2 ^ natBits x 52 4 ≤ (natBits x 64 64 + 2 ^ 64 - natBits x 128 64) % 2 ^ 64) ∧
     (let x := (ring 3 0).memNat j.cring 64
      (natBits x 64 64 + 2 ^ 64 - natBits x 128 64) % 2 ^ 64 < 2 ^ natBits x 52 4 ∧
      p.holds (natBits x 0 52 / 32 * 32 + 32 * (natBits x 64 64 % 2 ^ natBits x 52 4)) = true ∧
      j.cring + 16 ≤ natBits x 0 52 / 32 * 32 + 32 * (natBits x 64 64 % 2 ^ natBits x 52 4))) := by decide +kernel

/-- A record that is its context's next, one that is not, and none; requesters of a queue, of a write with no transfer behind it; a LINK whose path is the host
link's; a group with no atomic begun. -/
theorem witness_FaultService_due :
    (recorded []).dueRecord 4 = some (rec4 []) ∧ (recorded []).dueRecord 9 = none ∧ (rec4 [.packet seq0]).reqs = [.packet seq0] ∧ (rec4 [.started 1]).reqs = [.started 1] ∧
    (∀ x, ({ id := 2, ctx := 0, die := 0, addr := 0x50000, op := .add 1, record := 4 } : DevWrite).after ≠ .xfer x) ∧
    ({ viaHost := true } : Interrupted).viaHost = true ∧ (faulted cLINK 0 false 0 base).g.intr.viaHost = false ∧ base.g.atomic = none := by
  refine ⟨by decide +kernel, by decide +kernel, rfl, rfl, nofun, rfl, by decide +kernel, by decide +kernel⟩
/-- A save whose block lies in its partition; a gang with a member that is not saved; a discard of a group with no tile. -/
theorem witness_GroupEvents_block :
    (inPhase .saving (tiled tile0)).g.abandoned = false ∧
    probeCtx.inMemory (groupBlock probeCtx base.g.core base.g.slot) 0x12800 = true ∧
    (let s := inPhase .saved (launched { entry0 with rc := { rec0 with grid := true } })
     let x : Group := { gid := 7, core := 1, phase := .saving, launch := some (0, 5), lgen := 2 }
     x ∈ ({ s with others := [x] } : State).gangOf s.g ∧ x.phase ≠ .saved) ∧
    (∀ t ∈ (inPhase .discardingPreempt (buffering 1)).cs.tiles, t.owner = base.g.gid → t.inbound = 0 ∧ t.outbound = 0) ∧ base.g.bars = [] := by decide +kernel
/-- The ends of each kind of register that an error can mark; an invalidation with nothing outstanding. -/
theorem witness_MemoryEvents_places :
    ((1 ≤ 15 ∧ 15 < 16 ∧ ¬ 1 ≤ 0 ∧ ¬ 16 < 16) ∧ (0 < 8 ∧ 7 < 8 ∧ ¬ 8 < 8) ∧ (3 < 4 ∧ 31 < 32 ∧ ¬ 4 < 4)) ∧ (∀ m ∈ base.cs.merges, m.ctx ≠ 0) ∧
    (∀ c ∈ base.cs.copies, c.ctx ≠ 0) ∧ (∀ g ∈ base.groups, g.ctx = 0 → g.relBuf = []) := by decide +kernel
/-- The firmware runs and not; a line that may land and one that waits behind an entry of a lower PRIO. -/
theorem witness_Scheduling_order :
    booted.mg.boot = 1 ∧ base.mg.boot ≠ 1 ∧
    (let s : State := { base with ls := { base.ls with staging := [stage 2, { stage 2 with id := 3, prio := 3 }] } }
     s.mayLand (stage 2) = true ∧ s.mayLand { stage 2 with id := 3, prio := 3 } = false) := by decide +kernel
/-- An unbind that ends one job, whose ring has room, and one with none. -/
theorem witness_Contexts_jobs :
    let p : Part := { fsect := 0, psize := 0 }
    let j := jobOf 0 0 (0x32000 * 2 ^ 384)
    let s : State := { poke 0x32000 (leBytes 8 (0x33000 + 2 * 2 ^ 52) ++ leBytes 8 3) base with cx := { base.cx with ctxs := [] }, mg := { base.mg with jobs := [j] } }
    (s.partOf 0 = some p ∧ s.ctxsOf p = [] ∧ s.ms.stale = [] ∧ s.mg.jobs.filter (fun j => p.hasSector j.sector) = [j] ∧ (j.ring s p).map (·.2) = some true ∧
      ∀ j ∈ base.mg.jobs, p.hasSector j.sector = false) := by decide +kernel
/-- A context that a quarantine reaches: Bound, or Faulted already; one that is Created; a port before boot. -/
theorem witness_Security_contexts :
    (ctxIn .bound base).ctxOf 0 = some { probeCtx with st := .bound } ∧ (ctxIn .faulted base).ctxOf 0 = some { probeCtx with st := .faulted } ∧
    CtxState.bound ≠ .created ∧ CtxState.bound ≠ .destroyed ∧ base.mg.alpol ≠ 0 ∧ base.mg.boot ≠ 1 ∧ base.lk.ports[35] = .down ∧
    (booted.mg.boot = 1 ∧ (booted.lk.ports.set 35 (.training 0))[35] = .training 0) := by decide +kernel
/-- A context with a tile and one with none; a group that has arrived nowhere, and one in an atomic; a queue with no doorbell held; an output that is free. -/
theorem witness_Contexts_group :
    (∃ t ∈ (tiled tile0).cs.tiles, t.ctx = 0) ∧ (∀ t ∈ base.cs.tiles, t.ctx ≠ 0) ∧ base.g.arrived = none ∧ base.g.awaits = none ∧ base.g.atomic = none ∧
    { base.g with atomic := some { i := .nop { }, left := [], olds := [] } }.atomic ≠ none ∧ { queue0 with st := 3 }.bell = none ∧ (3 < 4 ∧ ∀ q ∈ booted.cx.parts, 3 ∉ q.outs) ∧
    State.reset.mg.jobs = [] := by
  refine ⟨by decide +kernel, by decide +kernel, by decide +kernel, by decide +kernel, by decide +kernel, nofun, by decide +kernel, by decide +kernel, by decide +kernel⟩
/-- A transfer with no status word, at its end and in its last unit; status addresses that are aligned and not. -/
theorem witness_LinkTransfers_status :
    (let x : Xfer := { xfer0 with status := none }
     (flying x).lk.xfers.find? (·.id = x.id) = some x ∧ x.status = none ∧ x.ended = false ∧ x.record = 0 ∧ x.pos < x.len ∧ x.len ≤ x.pos + 128 ∧ { x with pos := 144 }.len ≤ 144) ∧
    ({ h := 7 } : FT).h ≠ 0 ∧ 0x31008 % 8 = 0 ∧ 0x31004 % 8 ≠ 0 := by decide +kernel

/-- An awake machine and sleeping ones, the deepest of which nothing deeper follows; a job's record in its partition and one outside it;
an alarm under policy 0 during a checkpoint. -/
theorem witness_Management_asleep :
    let p : Part := { fsect := 0, psize := 0 }
    base.mg.pstate = 0 ∧ (booted.mg.pstate = 0) ∧ (admitted true true).mg.pstate = 0 ∧ (3 : BitVec 3) ≠ 0 ∧ 3 ≤ (3 : BitVec 3).toNat ∧ (1 : BitVec 3).toNat < 2 ∧
    p.holds 0x31000 = true ∧ p.holds (0x31000 + 63) = true ∧ p.holds (2 ^ 40) = false ∧ p.holds (24 * 2 ^ 30 - 63 + 63) = false ∧
    (let s : State := { base with cx := { base.cx with parts := [{ p with ckpt := some 0 }] }, mg := { base.mg with alpol := 0 } }
     s.partOf 0 = some { p with ckpt := some 0 } ∧ s.mg.alpol = 0 ∧ s.mg.pstate = 0) := by decide +kernel

/-- Which of the lists of the checks' statement are not empty: of the translations that fail, of the kinds, of the rights, of the refusals, and of the
marked and the unreachable. -/
def meetsChecks (s : State) (a : AccSpec) (accs : List (Nat × Int)) : List Bool :=
  let r := translateAll 0 ((s.ctxOf 0).getD default) [] accs (s.readWindow 0)
  let hits : List Hit3 := r.2.filterMap fun t => match t.2.2 with | .ok l => some (t.1, t.2.1, l) | .error _ => none
  let reach (l : Leaf) : Reach := r.1.reach l a.size (decide (a.acc = 0 ∨ a.acc = 2)) (decide (a.acc ≠ 0))
  let marked (l : Leaf) : Bool := a.reads && if a.cls = .g then r.1.ownPoisoned l.key a.size else r.1.isPoisoned l.key a.size
  [r.2.any fun t => match t.2.2 with | .ok _ => false | .error _ => true, hits.any fun h => !a.admits h.2.2.kind, hits.any fun h => !a.granted h.2.2.e,
    a.reach && hits.any fun h => decide (reach h.2.2 = .refused), a.reach && hits.any fun h => marked h.2.2,
    a.reach && hits.any fun h => a.link && match reach h.2.2 with | .link _ _ => true | _ => false]
/-- An unmapped page beside a mapped one; a key merge of a pod page; a page with no right; a pod page of this device's own pod that its port refuses;
a sector with a mark, read by a load and byte by byte; a pod page whose port is down; and a page that passes. -/
theorem witness_AccessChecks_late :
    let at_ : List (Nat × Int) := [(0, 0x31000)]
    let hurt : State := { mem2 with ms := { mem2.ms with poison := [0x31000 / 32] } }
    meetsChecks mem2 (.load 4) ((1, 0x50000) :: at_) = [true, false, false, false, false, false] ∧
    meetsChecks podded (.merge 8) at_ = [false, true, false, false, false, false] ∧
    meetsChecks (poke 0x22018 [0x1B] mem2) (.load 4) at_ = [false, false, true, false, false, false] ∧
    meetsChecks { podded with lk := { podded.lk with pod := 1 } } (.load 4) at_ = [false, false, false, true, false, false] ∧
    meetsChecks hurt (.load 4) at_ = [false, false, false, false, true, false] ∧ (AccSpec.load 4).exact = false ∧
    meetsChecks hurt { AccSpec.eread .x 1 with exact := true } at_ = [false, false, false, false, true, false] ∧
    meetsChecks { podded with lk := { podded.lk with ports := podded.lk.ports.set 0 .down } } (.load 4) at_ = [false, false, false, false, false, true] ∧
    meetsChecks mem2 (.load 4) at_ = [false, false, false, false, false, false] := by decide +kernel
theorem passes_rc_of {s : State} {a : AccSpec} {scalar atomic : Bool} {accs : List (Nat × Int)} (hctl : a.cacheCtl = false)
    (h : (match checkAccess s s.g.core s.g.ctx a scalar accs with
      | .ok s1 hits => decide (checkWatch s1 s1.g a scalar accs = none) && hits.any (fun h => h.2.2.rc) &&
          match s1.snare (decide (a.acc = 1)) atomic scalar hits with | .ok _ => true | _ => false
      | .bad _ _ => false) = true) : ∃ s2 hits, s.Passes a scalar atomic accs s2 hits ∧ ∃ h ∈ hits, h.2.2.rc = true := by
  revert h
  cases hc : checkAccess s s.g.core s.g.ctx a scalar accs with
  | bad t s => simp
  | ok s1 hits =>
    intro h
    simp only [Bool.and_eq_true, decide_eq_true_eq, List.any_eq_true] at h
    obtain ⟨⟨hw, x, hx, hrc⟩, hs⟩ := h
    cases hn : s1.snare (decide (a.acc = 1)) atomic scalar hits with
    | ok s2 =>
      have no : ¬ (a.cacheCtl = true ∨ ∀ h ∈ hits, h.2.2.rc = false) := by
        rintro (h | h)
        · simp [hctl] at h
        · simp [h x hx] at hrc
      exact ⟨s2, hits, ⟨s1, hc, hw, by rw [if_neg no, hn]⟩, x, hx, hrc⟩
    | conflict t s => simp [hn] at hs
    | wait s => simp [hn] at hs
/-- Atomics on a RACECHECK page, while others pause: their lanes are one run. -/
theorem witness_Atomics_whole :
    (let f : MA := { d := 8, sb := 2, vx := 5, scale := 2, width := 2, scope := 7, aop := 12 }
     let s := { poke 0x22018 [0x3F] mem2 with pauses := [1] }
     s.pauses ≠ [] ∧ ∃ s2 hits, s.Passes (.atomic (maBytes f)) false true (laneAccs s.g (maMask f s.g) f.sb f.vx f.scale f.off.toInt) s2 hits ∧ ∃ h ∈ hits, h.2.2.rc = true) ∧
    ({ i := .red { }, left := [(0, 0x31000)], olds := [], whole := true } : AtomicRun).whole = true :=
  ⟨⟨by decide, passes_rc_of rfl (by decide +kernel)⟩, by decide⟩
/-- A group that waits for a tile, which is Full, and which is not. -/
theorem witness_TileTable_waits :
    ∀ x ∈ [TileState.full, .filling],
      let t := { tile0 with st := x }
      let s := { tiled t with g := { (tiled t).g with phase := .parked, twait := some (0, 0, 3) } }
      s.g.phase = .parked ∧ s.g.twait = some (0, 0, 3) ∧ s.tileAt 0 0 = some t ∧ t.gen = 3 := by decide +kernel
/-- A merge and a unit behind a promoted request, and with none. -/
theorem witness_Visibility_queue :
    (staged 0 mem2).demandMayLand 1 = false ∧ mem2.demandMayLand 1 = true ∧ (staged 0 (flying xfer0)).demandMayLand xfer0.id = false ∧
    (flying xfer0).demandMayLand xfer0.id = true ∧ (staged 0 (flying xfer0)).lk.xfers.find? (·.id = xfer0.id) = some xfer0 := by decide +kernel
/-- hpass to a Held task of the group's context, and to one of another. -/
theorem witness_Launches_foreign :
    (joinable { entry0 with st := .held, pred := 1, ctx := 3 }).byToken token0 = some { entry0 with st := .held, pred := 1, ctx := 3 } ∧ (3 : Nat) ≠ base.g.ctx := by
  decide +kernel
/-- A wait that finds a live entry, a spilled one, and none. -/
theorem witness_Barriers_spilled :
    ((barred { bar0 with st := .spilled } true).barAt 0 63).map (·.st) = some .spilled ∧ (barred bar0 true).barAt 0 63 = some bar0 ∧ bar0.st = .live ∧ (barred bar0 true).barAt 0 62 = none := by decide +kernel
/-- A free slot whose bit an entry holds for a saved member, and one with no such bit; the record then fits, and does not when every free slot has one. -/
theorem witness_Scheduling_slots :
    let s (held : BitVec 16) : State := { scheduled { entry0 with kd := { kd0 with slots := 2 } } with
      cs := { base.cs with bars := [{ bar0 with cl := false, held := held }] }, g := { base.g with slots := 2 } }
    let g : Group := { gid := 9, core := 0, ctx := 0 }
    (s 2).groupAt 0 1 = none ∧ (s 2).slotHeld g 1 = true ∧ (s 2).groupAt 0 2 = none ∧ (s 2).slotHeld g 2 = false ∧
    (s 2).entryFits { entry0 with kd := { kd0 with slots := 2 } } 0 = true ∧ (s 0xFF).entryFits { entry0 with kd := { kd0 with slots := 2 } } 0 = false ∧
    (∀ j < 8, (s 0xFF).groupAt 0 j = none → (s 0xFF).slotHeld g j = true) := by decide +kernel
/-- A decision that an alarm comes before, and one that none does; a request that has become a copy. -/
theorem witness_Scheduling_alarm :
    (let s : State := { base with lk := { base.lk with due := [(0, 0x31000)] } }
     s.alarmStops 0 = true ∧ base.alarmStops 0 = false) ∧
    (let q := { stage 2 with asCopy := true }
     let s : State := { base with ls := { base.ls with staging := [q] } }
     s.ls.staging.find? (·.id = q.id) = some q ∧ q.asCopy = true ∧ (stage 2).asCopy = false) := by decide +kernel
/-- An image whose PC is the group's, and one that software has changed; tiles at distinct entries. -/
theorem witness_GroupEvents_moved :
    (let s : State := inPhase .loading base
     BitVec.ofNat 64 (s.memNat (groupBlock probeCtx 0 7 + 0x100) 8) ≠ s.g.pc ∧
     BitVec.ofNat 64 ((poke (groupBlock probeCtx 0 7 + 0x100) (leBytes 8 s.g.pc.toNat) s).memNat (groupBlock probeCtx 0 7 + 0x100) 8) = s.g.pc) ∧
    (∀ t ∈ (tiled tile0).cs.tiles, ∀ x ∈ (tiled tile0).cs.tiles, t.core = x.core → t.idx = x.idx → t = x) := by decide +kernel
/-- A create of a record with a bad field; a bind to a partition that is quarantined; a destroy while a write waits for a record; a context that a
quarantine reaches before its bind. -/
theorem witness_Contexts_quarantined :
    (booted.mg.boot = 1 ∧ booted.ctxOf 0 = none ∧ ctxRecordOk (booted.memNat (booted.ctxRec 0) 128) = false) ∧
    (let s : State := { ctxIn .created base with cx := { (ctxIn .created base).cx with parts := [{ fsect := 0, psize := 0, quarantined := true }] } }
     s.ctxOf 0 = some { probeCtx with st := .created } ∧ ∀ p, s.partOf 0 = some p → p.quarantined = true) ∧
    (let w : DevWrite := { id := 2, ctx := 0, die := 0, addr := 0x50000, op := .add 1 }
     let s : State := { base with cx := { base.cx with writes := [w] } }
     s.ctxOf 0 = some probeCtx ∧ ∃ w ∈ s.cx.writes, w.record = 0) ∧
    (ctxIn .created base).ctxOf 0 = some { probeCtx with st := .created } ∧ CtxState.created ≠ .destroyed := by
  refine ⟨by decide +kernel, ⟨by decide +kernel, ?_⟩, by decide +kernel, by decide +kernel, by decide⟩
  intro p hp
  have : some p = some { fsect := 0, psize := 0, quarantined := true } := hp.symm.trans (by decide +kernel)
  cases this; rfl
/-- base with one entry of the management window's access table. -/
def windowed (r w : Bool) : State := { base with lk := { base.lk with access := [{ target := .mgmt, master := .host 15, fsect := 0, read := r, write := w }] } }
/-- The management window for a master with the right, with no right, and for none; inbound accesses to it; atomics that an instruction can send and
others; an alarm that comes while the device is awake. -/
theorem witness_LinkEvents_window :
    (windowed true true).windowRefuses (some (.host 15)) true = [] ∧ (windowed true false).windowRefuses (some (.host 15)) true = [0] ∧
    (windowed false false).windowRefuses (some (.host 15)) false = [0] ∧ base.windowRefuses none true = [] ∧ base.carries .mgmt = true ∧
    ({ base with lk := { base.lk with host := .down } } : State).carries .mgmt = false ∧
    inboundOk 8 (.atomic 9 8 1 0) = true ∧ inboundOk 8 (.atomic 10 8 1 0) = false ∧ inboundOk 8 (.atomic 12 4 1 0) = true ∧ inboundOk 8 (.atomic 13 4 1 0) = false ∧
    inboundOk 4 (.atomic 0 8 1 0) = false ∧ opWrites (.atomic 0 8 1 0) = true ∧ opWrites (.read 8) = false ∧
    ({ admitted true true with ms := { base.ms with poison := [0] } } : State).isPoisoned 8 8 = true ∧ base.mg.pstate = 0 := by decide +kernel
/-- A quote and an image through the window, with both rights, with one and with the other; what was held, when its turn comes, awake and asleep again. -/
theorem witness_Security_window :
    (let n : ByMaster (List Byte) := ⟨some (.host 15), List.replicate 32 0⟩
     (windowed true true).windowRefuses n.master true = [] ∧ (windowed true true).windowRefuses n.master false = [] ∧
     (windowed false true).windowRefuses n.master true = [] ∧ (windowed false true).windowRefuses n.master false ≠ [] ∧
     (windowed true false).windowRefuses n.master true ≠ [] ∧ n.value.length = 32) ∧
    (let s : State := { base with turns := [.access .timer] }
     s.turns = .access .timer :: [] ∧ s.mg.pstate = 0 ∧ ({ s.mg with pstate := 2 } : Mgmt).pstate ≠ 0) := by decide +kernel

/-! ### Exceptions that are enabled -/

theorem trapped_of {s : State} {m : W32} {exc : Nat → BitVec 5} (h : m.getLsbD 0 = true ∧ exc 0 &&& s.g.r.fenable ≠ 0) : ¬ s.Untrapped m exc :=
  fun u => h.2 (u 0 (by decide) h.1)
/-- A signalling NaN in lane 0 of v4 and of v5, with every exception enabled. -/
def trapping : State :=
  let s := vec 5 [0x7FA00000] (vec 4 [0x7FA00000] (masked 1 inBlock))
  { s with g := { s.g with r := { s.g.r with fenable := 0x1F } } }
/-- 0 / 0, a quotient, a scaling and a minimum of signalling NaNs, and a comparison of one. -/
theorem witness_FloatArithmetic_enabled :
    let f : V3 := { d := 3, a := 4, b := 5, ty := 8 }
    v3mask f trapping.g ≠ 0 ∧ trapping.Clean (([f.a, f.b] : List Byte).flatMap fun n => trapping.g.vitems false (v3mask f trapping.g) n) ∧
    ¬ trapping.Untrapped (v3mask f trapping.g) (fun k => laneExc f fun e =>
      finishFp f (fvDiv ((fmtOf f.ty).read (fpElem f trapping 0 f.a k e)) ((fmtOf f.ty).read (fpElem f trapping 1 f.b k e)))) ∧
    ¬ trapping.Untrapped (v3mask f trapping.g) (fun k => laneExc f fun e =>
      finishFp f (fvDiv ((fmtOf f.ty).read (fpElem f trapping 0 8 k e)) ((fmtOf f.ty).read (fpElem f trapping 1 8 k e)))) ∧
    ¬ trapping.Untrapped (v3mask f trapping.g) (fun k => laneExc f fun e =>
      finishFp f (fvScale ((fmtOf f.ty).read (fpElem f trapping 0 f.a k e)) (elemInt 2 (elemOf 2 (trapping.g.vget f.b k).toNat e)))) ∧
    ¬ trapping.Untrapped (v3mask f trapping.g) (fun k => laneExc f fun e => fmtMinMax (fmtOf f.ty) false (fpElem f trapping 0 f.a k e) (fpElem f trapping 1 f.b k e)) ∧
    ¬ trapping.Untrapped (v3mask f trapping.g) (fun k => let x : FV := f32.read (modOf f.md 0 f32 (trapping.g.vget f.a k).toNat)
      if x.isSig then fNV else 0) := by
  refine ⟨by decide +kernel, by unfold State.Clean; decide +kernel, trapped_of (by decide +kernel), trapped_of (by decide +kernel), trapped_of (by decide +kernel),
    trapped_of (by decide +kernel), trapped_of (by decide +kernel)⟩
/-- A signalling NaN converted, packed to .f16, unpacked from .f16 and dithered. -/
theorem witness_Conversions_enabled :
    (let f : V3 := { d := 3, a := 4, ty := 9, sub := 8 }
     ¬ trapping.Untrapped (v3mask f trapping.g) (fun k => (convert (srcTy f) f.ty f.rnd.toNat (trapping.g.threshold k) (f.sat == 1)
       (modSrc f (srcTy f) ((trapping.g.vget f.a k).toNat % 2 ^ tyBits (srcTy f)))).fl)) ∧
    (let f : V3 := { d := 3, a := 4, ty := 9, sub := 8 }
     ¬ trapping.Untrapped (v3mask f trapping.g) (fun k => ((List.range (packN f.ty)).map fun e =>
       convert (srcTy f) f.ty f.rnd.toNat (trapping.g.threshold k) (f.sat == 1) (modSrc f (srcTy f) ((trapping.g.vget (f.a + BitVec.ofNat 8 e) k).toNat))).foldl
         (fun x e => x ||| e.fl) 0)) ∧
    (let f : V3 := { d := 3, a := 4, ty := 8, sub := 9 }
     let s := { vec 4 [0x7D007D00] trapping with g := { (vec 4 [0x7D007D00] trapping).g with r := { (vec 4 [0x7D007D00] trapping).g.r with fenable := 0x1F } } }
     ¬ s.Untrapped (v3mask f s.g) (fun k => (List.range (packN (srcTy f))).foldl (fun x e => x ||| (unpack (srcTy f) f.ty (s.g.vget f.a k).toNat e).1.fl) 0)) ∧
    (let f : V3 := { d := 3, a := 4, ty := 9 }
     ¬ trapping.Untrapped (v3mask f trapping.g) (fun k => (convert 8 f.ty 4 (trapping.g.threshold k) (f.sat == 1) (modOf f.md 0 f32 (trapping.g.vget f.a k).toNat)).fl)) := by
  refine ⟨trapped_of (by decide +kernel), trapped_of (by decide +kernel), trapped_of (by decide +kernel), trapped_of (by decide +kernel)⟩
/-- A sum of a signalling NaN, and a running one. -/
theorem witness_LaneReductions_enabled :
    let f : V3 := { d := 3, a := 4, ty := 8 }
    v3mask f trapping.g ≠ 0 ∧ f.ty = 8 ∧ trapping.Clean (trapping.g.vitems false (v3mask f trapping.g) f.a) ∧
    trapping.Clean (trapping.g.vitems false (scanReads (v3mask f trapping.g) (f.sub.getLsbD 3)) f.a) ∧
    (reduceFp f.sub.toNat f.rnd.toNat ((activeLanes (v3mask f trapping.g)).map fun k => modOf f.md 0 f32 (trapping.g.vget f.a k).toNat)).fl &&& trapping.g.r.fenable ≠ 0 ∧
    orLanes (v3mask f trapping.g) (fun k => (reduceFp (f.sub.toNat % 8) f.rnd.toNat
      ((scanSet (v3mask f trapping.g) (f.sub.getLsbD 3) k).map fun j => modOf f.md 0 f32 (trapping.g.vget f.a j).toNat)).fl) &&& trapping.g.r.fenable ≠ 0 := by
  unfold State.Clean; decide +kernel
/-- A signalling NaN put into an accumulator, and one that scales its columns. -/
theorem witness_MatrixInstructions_enabled :
    (let f : FX := { va := 4, wf := 8 }
     let m := fxMask f trapping.g
     m ≠ 0 ∧ trapping.Clean (trapping.g.sitem f.sh :: trapping.g.vitems false m f.va) ∧ (trapping.g.sget f.sh).toNat < 16 ∧
     ¬ trapping.Untrapped m (fun i => (toAcc f.wf f.rnd.toNat (trapping.g.vget f.va i).toNat).2.1)) ∧
    (let f : FX := { vs := 4, wf := 8, osc := 1 }
     let m := fxMask f trapping.g
     (trapping.g.sget f.sh).toNat ≤ 8 ∧ trapping.Clean (trapping.g.accItems f.ad m (List.range 8) ++ trapping.g.vitems false (maskOfList (List.range 8)) f.vs) ∧
     ¬ trapping.Untrapped m (fun i => (List.range 8).foldl (fun x j => x ||| (areadElem f.wf f.rnd.toNat (trapping.g.threshold (i + j)) (f.sat == 1)
       (outerProduct (trapping.g.aget f.ad i j).toInt (f32.read (trapping.g.vget f.vs j).toNat))).fl) 0)) := by
  refine ⟨⟨by decide +kernel, by unfold State.Clean; decide +kernel, by decide +kernel, trapped_of (by decide +kernel)⟩,
    by decide +kernel, by unfold State.Clean; decide +kernel, trapped_of (by decide +kernel)⟩
/-- Tile instructions with an empty mask. -/
theorem witness_EmptyMaskRetires_tiles : ftMask { pred := 1 } base.g = 0 := by decide +kernel

/-! ### Records that run out, splits, order and slices -/

/-- A die whose 512 fault records are taken, by another context. -/
def crowded (s : State) : State :=
  { s with cx := { s.cx with recs := (List.range 512).map fun i => { id := i + 1, die := 0, ctx := 5, page := 65536 * i, level := 3, reqs := [] } } }
/-- A PAGE with room for its record, with none, and with none but with a record of its page to join; two pages, one named twice. -/
theorem witness_SystemCauseTaken_page :
    let p : Nat × Nat := (0x50000, 3)
    base.recordRoom (coreDie base.g.core) base.g.ctx ([p].take 32) = true ∧ (crowded inHandler).recordRoom 0 0 [p] = false ∧ (crowded inHandler).g.hmode = true ∧
    (let s : State := { crowded inHandler with cx := { (crowded inHandler).cx with recs := { (crowded inHandler).cx.recs.headD default with ctx := 0, page := p.1 } :: (crowded inHandler).cx.recs.drop 1 } }
     s.cx.recs.length = 512 ∧ s.recordRoom 0 0 [p] = true ∧ ∃ x ∈ s.cx.recs, x.ctx = 0 ∧ x.page = p.1) ∧
    ([p, (0x60000, 2), p].find? (fun q => q.1 = p.1) = some p ∧ ∀ x ∈ base.cx.recs, x.ctx = 0 → x.page ≠ p.1) ∧
    ({ cause := cPAGE, pages := [p] } : Trap).epc = none ∧ userCause cSWTRAP = true := by decide +kernel

/-- A store queue of 48 stores, which a store more finds full, and of 47. -/
def fullQueue (n : Nat) : State := { mem2 with g := { mem2.g with storeQ := (List.range n).map fun i => { key := 0x31000 + i, bytes := [7], seq := 0, no := i } } }
theorem witness_Stores_full :
    (fullQueue 48).g.storeQ.length + 1 - 48 = 1 ∧ (fullQueue 48).g.relBuf = [] ∧ (fullQueue 47).g.storeQ.length + 1 ≤ 48 ∧
    ∃ s2 hits, (fullQueue 48).Passes (.store (fmBytes fm4)) false false (fmAccs fm4 mem2.g) s2 hits ∧
      (hits.length == 2 && s2.g.storeQ.length == 48 && !s2.g.buffering && hits.all fun h => h.2.2.kind != 2) = true :=
  ⟨by decide +kernel, by decide +kernel, by decide +kernel, passes_of (fun s l => l.length == 2 && s.g.storeQ.length == 48 && !s.g.buffering && l.all fun h => h.2.2.kind != 2) (by decide +kernel)⟩

/-- Another group with a token on the first sector of the page, inside an atomic that it has started or not. -/
def holding (started : Bool) : State :=
  let o : Group := { other with seq := 4, atomic := if started then some { i := .red { }, left := [(0, 0x31000)], olds := [] } else none }
  { mem2 with others := [o], ms := { mem2.ms with tokens := [{ sector := 0x31000 / 32, ctx := 0, core := 0, slot := 1, seq := 4, writer := false }] } }
/-- Drops of a line, by an eviction and by cache control, that wait for the split of a region inside a started atomic, and that do not. -/
theorem witness_CacheActions_split :
    (∀ b ∈ [true, false],
      let secs := lineSectors (0x31000 / 128)
      let s := holding b
      (∀ p ∈ s.ms.pins, p.1 ≠ 0x31000 / 128) ∧ s.MemoryWf ∧
      (State.splitSectors { s with ms := s.ms.recall (128 * (0x31000 / 128)) 128 } secs).splitWaits secs = b) ∧
    (∀ b ∈ [true, false], ∃ s2 hits, (holding b).Passes (wbSpec 7) false false (fmAccs fm4 mem2.g) s2 hits ∧
      (let secs := (namedLines hits).flatMap lineSectors
       (s2.unreplayable.drain.splitSectors secs).splitWaits secs == b) = true) ∧
    (∀ b ∈ [true, false], ∃ s2 hits, (holding b).Passes invSpec false false (fmAccs fm4 mem2.g) s2 hits ∧
      (let secs := (namedLines hits).flatMap lineSectors
       (s2.unreplayable.drain.splitSectors secs).splitWaits secs == b) = true) ∧
    (∀ g ∈ (holding false).groups, g.atomic = none ∧ g.splitDue = false) := by
  refine ⟨by unfold State.MemoryWf; decide +kernel, fun b h => ?_, fun b h => ?_, by decide +kernel⟩ <;>
  · fin_cases h <;> exact passes_of (fun s2 hits => let secs := (namedLines hits).flatMap lineSectors
      (s2.unreplayable.drain.splitSectors secs).splitWaits secs == _) (by decide +kernel)

/-- A full word that an older tldc waits for, an older tldw, a younger tldc, an older tldc of another word, and an older tldc that could not take all its
words; an empty word that an older tstw waits for. -/
theorem witness_TileAccess_first :
    let s (w : TileWait) (mine : Option TileWait) : State :=
      let t := { tile0 with words := [(63, (5, true))] }
      { (vec 7 [31] (tiled t)).setS 4 1 with
        others := [{ other with phase := .parked, waits := some w }], g := { ((vec 7 [31] (tiled t)).setS 4 1).g with waits := mine } }
    let w0 : TileWait := { no := 3, core := 0, idx := 0, words := [63], empty := false }
    let f : FT := { d := 9, h := 3, i := 4, j := 7, ty := 6 }
    let t : Tile := { tile0 with words := [(63, (5, true))] }
    ftWord f (s w0 none).g t 0 = 63 ∧ (t.word 63).2 = true ∧ ftMask f (s w0 none).g = 1 ∧
    (w0.core = t.core ∧ w0.idx = t.idx ∧ w0.empty = false ∧ w0.changes = true ∧ 63 ∈ w0.words ∧ w0.ready (s w0 none) = true ∧ (s w0 none).g.waits = none) ∧
    ({ w0 with changes := false }.changes = false) ∧ (w0.no ≤ { w0 with no := 4 }.no ∧ ¬ w0.no ≤ { w0 with no := 2 }.no) ∧ (63 ∉ { w0 with words := [62] }.words) ∧
    { w0 with words := [62, 63] }.ready (s w0 none) = false ∧ { w0 with words := [62], empty := true }.ready (s w0 none) = true := by decide +kernel

/-- march where no lane has a ray; a Suspended ray, whose tile stands, with its CALL record landed in the move before and earlier; a group that is running,
parked and Faulted; a PAGE with no room for its record. -/
theorem witness_Rays_held :
    (let s := tiled (rayTile false)
     (∀ i < 32, (fkMask { sa := 2, sb := 3, va := 8 } s.g).getLsbD i = true → s.g.rayOf i = none) ∧ s.tileAt 0 0 = some (rayTile false)) ∧
    (let r : Ray := { ray0 with phase := .suspended }
     let s := withRay r
     let f : FK := { va := 8 }
     let due := (activeLanes (fkMask f s.g)).filter fun i => (s.g.rayOf i).any fun r => r.phase = .suspended
     due = [0] ∧ s.Clean (s.g.vitems false (maskOfList due) f.va ++ s.g.vitems false (maskOfList due) (f.va + 1)) ∧ s.g.rayOf 0 = some r ∧
     (fkMask f s.g).getLsbD 0 = true ∧ r.landedAt = s.moves ∧ { r with landedAt := 9 }.landedAt ≠ s.moves ∧ ray0.phase ≠ .suspended ∧
     s.tileAt (hCore r.handle) (hIdx r.handle) = some (rayTile false) ∧ (rayTile false).st ≠ .draining ∧ (rayTile false).gen = hGen r.handle ∧
     sparseWfFrom ((0 : W32), false) 0 (rayTile false).words = true) ∧
    (∀ p ∈ [Phase.running, .parked, .faulted], let s := inPhase p (withRay ray0)
      s.groupAt 0 0 = some s.g ∧ s.g.rayOf 0 = some ray0 ∧ s.g.phase = p) ∧
    (∃ t s1, (rayAdvance 0 0 ray0).at (crowded (withRay ray0)) = (.error t, s1) ∧
      (t.cause == cPAGE && !(crowded (withRay ray0)).recordRoom 0 0 (t.pages.take 1)) = true) := by
  refine ⟨by decide +kernel, ?_, by decide +kernel, rd_bad_of (fun t => t.cause == cPAGE && !(crowded (withRay ray0)).recordRoom 0 0 (t.pages.take 1)) (by decide +kernel)⟩
  unfold State.Clean; decide +kernel

/-- A group that has arrived, at an entry that is live, spilled, or gone. -/
theorem witness_Barriers_arrived :
    (let s : State := { barred bar0 true with g := { (barred bar0 true).g with arrived := some 0x3F0000 } }
     s.g.arrived = some 0x3F0000 ∧ s.barPassed 0x3F0000 = false ∧ (s.readBar 0 63).barPassed 0x3F0001 = true ∧ s.barPassed 0x3F0001 = true) := by decide +kernel

/-- A restart that skips one packet, which is JEND and is not; that cannot be read. -/
theorem witness_QueueEvents_skipped :
    let x : Queue := { queue0 with st := 2, widx := 5, eidx := 0 }
    let s (b : Byte) : State := { queued (b :: List.replicate 63 0) with qs := { (queued []).qs with queues := [x] } }
    (s 8).queueAt 0 3 = some x ∧ x.st = 2 ∧ x.eidx < (1 : W64).toNat ∧ (1 : W64).toNat ≤ x.widx ∧ (1 : W64).toNat = x.ridx + 1 ∧
    (∃ b s1, (engineBytes (256 + (s 8).queueDie 0 3) 0 .c (x.slotAt x.ridx) 64).at (s 8) = (.ok b, s1) ∧ (!pkJend b) = true) ∧
    (∃ b s1, (engineBytes (256 + (s 40).queueDie 0 3) 0 .c (x.slotAt x.ridx) 64).at (s 40) = (.ok b, s1) ∧ pkJend b = true) := by
  refine ⟨by decide +kernel, by decide, by decide, by decide, by decide, rd_of (fun b => !pkJend b) (by decide +kernel), rd_of pkJend (by decide +kernel)⟩

/-- A COPY whose ring's descriptor lies outside the address space, cancelled and not. -/
theorem witness_Packets_ring :
    let r := { run0 3 (leBytes 8 3 ++ leBytes 8 0x31400 ++ leBytes 8 0x31500 ++ leBytes 8 4 ++ leBytes 8 (2 ^ 52)) with moved := 4 }
    (running r).runOf 1 = some r ∧ pkNat r.body 24 8 ≤ r.moved ∧ (running r).waitsOn (.copy 1) = false ∧ r.cancelled = false ∧ { r with cancelled := true }.cancelled = true ∧
    (∃ t s1, (engineBytes (256 + (running r).queueDie 0 3) 0 .c (pkNat r.body 32 8) 64).at (running r) = (.error t, s1) ∧ (t.cause != cPAGE) = true) := by
  refine ⟨by decide +kernel, by decide +kernel, by decide +kernel, by decide, by decide, rd_bad_of (fun t => t.cause != cPAGE) (by decide +kernel)⟩

/-- A copy's record that fails when all its bytes have been moved, and when its status is an error's. -/
theorem witness_FaultService_ring :
    let p := { run0 3 (leBytes 8 3 ++ leBytes 8 0x31400 ++ leBytes 8 0x31500 ++ leBytes 8 4) with moved := 4 }
    (rec4 [.copy 1]).reqs = [.copy 1] ∧ (running p).runOf 1 = some p ∧ pkNat p.body 24 8 ≤ p.moved ∧ { p with status := 2 }.status ≠ 0 ∧ p.cancelled = false := by decide +kernel

/-- An image of a group in an idempotent region with tokens and split set, read back. -/
theorem witness_GroupEvents_region :
    let a := groupBlock probeCtx 0 7
    let s : State := poke (a + 8 * 16) (leBytes 8 0x70005) { inPhase .loading base with g := { (inPhase .loading base).g with imaged := some 7 } }
    s.groupAt 0 0 = some s.g ∧ s.g.phase = .loading ∧ s.g.fresh = false ∧ (s.memNat (a + 8 * 16) 8).testBit 16 = true ∧ (s.memNat (a + 8 * 16) 8).testBit 17 = true ∧
    (s.memNat (a + 8 * 16) 8).testBit 18 = true := by decide +kernel

/-- An unbind with a stale sector and a poison mark within its slices, and with a stale sector outside them. -/
theorem witness_Contexts_slices :
    let p : Part := { fsect := 0, psize := 0 }
    let s : State := { base with cx := { base.cx with ctxs := [] }, ms := { base.ms with stale := [0x31000 / 32, 2 ^ 50], poison := [0x31000 / 32] } }
    (s.partOf 0 = some p ∧ s.ctxsOf p = [] ∧ s.ms.mem.wf = true ∧ s.ms.backing.wf = true ∧ p.holds 0x31000 = true ∧
    (∀ b ∈ (ctxIn .preempting base).cs.bars, b.ctx = 0 → b.st ≠ .live)) ∧ s.inSlices p (0x31000 / 128) = true ∧ s.inSlices p (2 ^ 48) = false := by
  refine ⟨by decide +kernel, ?_, by rfl⟩
  have at_ : State.partAt { base with cx := { base.cx with ctxs := [] }, ms := { base.ms with stale := [0x31000 / 32, 2 ^ 50], poison := [0x31000 / 32] } } (128 * (0x31000 / 128)) =
    some { fsect := 0, psize := 0 } := by decide +kernel
  simp only [State.inSlices, State.sliceOf, at_, Bool.and_eq_true, decide_eq_true_eq]
  exact ⟨⟨by decide +kernel, by omega⟩, by omega⟩

/-- An idle device with what a home slice holds, and an encoder whose ring is full. -/
theorem witness_Management_slices :
    let s : State := { State.reset with ms := { State.reset.ms with stale := [5], poison := [5, 6], poisonBack := [6], first := [1], pins := [(1, 0, 0)], owned := [(1, 7)] } }
    s.idle = true ∧ s.mg.leaving = false ∧ s.mg.pstate.toNat < 4 ∧ { State.reset.mg with ltol := 20000 }.ltol.toNat = 20000 := by decide +kernel

end Sys2Proof.Tests
end

/-! # Memory keeps its canonical form, and every step goes on

The invariant of R4 and R387 (`State.MemoryWf`) speaks of the two memories only. The development follows the model's
functions in the order of their definitions: `f_wf` says that the state which `f` gives has the form when the state it starts
from has it, `f_keeps` says the same of a reading (`Rd`). An answer (`Res`) or an outcome (`Out`) has the form when the state
it carries has it. A function that takes a continuation keeps the form if its continuation does. `exec_wf` collects the
instructions and events, `step_wf` follows from it. -/
namespace Sys2Proof.Machine

/-! ## What it is for an answer to keep the form -/

/-- The state that the end of an instruction carries has the canonical form. -/
def Res.Wf : Res → Prop
  | .next s | .jump _ s | .trap _ s | .park s | .stay s => s.MemoryWf

/-- The next state of an outcome has the canonical form. -/
def Out.Wf : Out → Prop
  | .next s => s.MemoryWf
  | _ => True

/-- A reading leaves memory in the form it found it in, whether it answers or stops with a cause. -/
def Rd.Keeps {α : Type} (r : Rd α) : Prop := ∀ s : State, s.MemoryWf → (r.at s).2.MemoryWf

/-- Only the memory system matters. -/
theorem State.MemoryWf.of_ms {s t : State} (h : s.MemoryWf) (e : t.ms = s.ms) : t.MemoryWf := by
  unfold State.MemoryWf; rw [e]; exact h
theorem Res.Wf.state {r : Res} (h : r.Wf) : r.state.MemoryWf := by cases r <;> exact Res.state_wf h
theorem settle_wf {r : Res} (h : r.Wf) : Out.Wf (settle r) := h.state

/-- An event is done with a state. -/
theorem done_wf {s : State} (h : s.MemoryWf) : Out.Wf (done s) := h

/-- Either a cause ends the instruction in the state `s`, or it goes on. -/
theorem orTrap_wf {o : Option Trap} {s : State} {k : Res} (h : s.MemoryWf) (hk : k.Wf) : (orTrap o s k).Wf := by
  cases o with
  | none => exact hk
  | some t => exact h

/-! ## Choices, pairs and lists -/

/-- A choice between two states that have the form has it: the condition is not looked at. -/
theorem ite_wf {c : Prop} [Decidable c] {s t : State} (hs : s.MemoryWf) (ht : t.MemoryWf) : (if c then s else t).MemoryWf := by
  split
  · exact hs
  · exact ht

theorem Res.ite_wf {c : Prop} [Decidable c] {r k : Res} (hr : r.Wf) (hk : k.Wf) : (if c then r else k).Wf := by
  split
  · exact hr
  · exact hk

/-- A state that comes as the first of a pair, at a `match` on the pair. -/
theorem fst_wf {α : Type} {p : State × α} {s : State} {x : α} (hc : p = (s, x)) (h : p.1.MemoryWf) :
    s.MemoryWf := by rwa [hc] at h
theorem snd_wf {α : Type} {p : α × State} {s : State} {x : α} (hc : p = (x, s)) (h : p.2.MemoryWf) :
    s.MemoryWf := by rwa [hc] at h
theorem MemSys.foldl_wf {β : Type} {f : MemSys → β → MemSys} (hf : ∀ m x, m.Wf → (f m x).Wf) {l : List β} {m : MemSys} (h : m.Wf) :
    (l.foldl f m).Wf := List.foldlRecOn l f h fun m w x _ => hf m x w

/-! ## Checks, fetches, causes and what the shared laws say changes -/

theorem checkAccess_ok_wf {s s1 : State} {core ctx a sc accs hits} (hc : checkAccess s core ctx a sc accs = .ok s1 hits) (h : s.MemoryWf) :
    s1.MemoryWf := (checkAccess_ok_walked hc).2 h
theorem checkAccess_bad_wf {s s1 : State} {core ctx a sc accs t} (hc : checkAccess s core ctx a sc accs = .bad t s1) (h : s.MemoryWf) :
    s1.MemoryWf := (checkAccess_bad_walked hc).2 h
theorem checkStore_ok_wf {s s1 : State} {core ctx spec addr n hits} (hc : checkStore s core ctx spec addr n = .ok s1 hits) (h : s.MemoryWf) :
    s1.MemoryWf := checkAccess_ok_wf hc h
theorem checkStore_bad_wf {s s1 : State} {core ctx spec addr n t} (hc : checkStore s core ctx spec addr n = .bad t s1) (h : s.MemoryWf) :
    s1.MemoryWf := checkAccess_bad_wf hc h
theorem State.fetchWord_ok_wf {s s1 : State} {va w} (hc : s.fetchWord va = .ok s1 w) (h : s.MemoryWf) : s1.MemoryWf := by
  have k := (s.fetchWord_walked va).2 h; rwa [hc] at k
theorem State.fetchWord_bad_wf {s s1 : State} {va t} (hc : s.fetchWord va = .bad t s1) (h : s.MemoryWf) : s1.MemoryWf := by
  have k := (s.fetchWord_walked va).2 h; rwa [hc] at k
theorem State.checkHeader_ok_wf {s s1 : State} {va x w} (hc : s.checkHeader va x = .ok s1 w) (h : s.MemoryWf) : s1.MemoryWf := by
  have k := (s.checkHeader_walked va x).2 h; rwa [hc] at k
theorem State.checkHeader_bad_wf {s s1 : State} {va x t} (hc : s.checkHeader va x = .bad t s1) (h : s.MemoryWf) :
    s1.MemoryWf := by
  have k := (s.checkHeader_walked va x).2 h; rwa [hc] at k
theorem State.handlerReady_wf {s : State} (h : s.MemoryWf) : s.handlerReady.2.MemoryWf := s.handlerReady_walked.2 h
theorem State.seen_wf {s : State} {k n} (h : s.MemoryWf) : (s.seen k n).MemoryWf := (s.seen_walked k n).2 h
theorem State.readWindow_wf {s : State} {n} (h : s.MemoryWf) : (s.readWindow n).MemoryWf := (s.readWindow_walked n).2 h
theorem translateAll_wf {s : State} {core c l seen} (h : s.MemoryWf) : (translateAll core c seen l s).1.MemoryWf :=
  (translateAll_walked core c l seen s).2 h
theorem State.beforeAccess_wf {s : State} {a hits} (h : s.MemoryWf) : (s.beforeAccess a hits).MemoryWf :=
  (s.beforeAccess_walked a hits).2 h
theorem State.readBar_wf {s : State} {core idx} (h : s.MemoryWf) : (s.readBar core idx).MemoryWf :=
  (s.readBar_walked core idx).2 h
theorem State.readSaved_wf {s : State} (h : s.MemoryWf) : s.readSaved.MemoryWf := s.readSaved_walked.2 h
theorem State.mapRayWords_wf {s : State} {r f} (h : s.MemoryWf) : (s.mapRayWords r f).MemoryWf := by
  obtain ⟨cs, e⟩ := s.mapRayWords_eq r f; rw [e]; exact h
theorem State.joinAll_wf {s : State} {die ctx q l} (h : s.MemoryWf) : (s.joinAll die ctx q l).1.MemoryWf := by
  obtain ⟨cx, e⟩ := (State.joinAll_spec die ctx q l s).1; rw [e]; exact h

/-- The state that a reading leaves, at a `match` on its answer. -/
theorem Rd.Keeps.at_wf {α : Type} {r : Rd α} {s s1 : State} {x} (hr : r.Keeps) (hc : r.at s = (x, s1)) (h : s.MemoryWf) :
    s1.MemoryWf := by
  have k := hr s h; rwa [hc] at k

/-! ## Readings -/

theorem pure_keeps {α : Type} {a : α} : Rd.Keeps (pure a : Rd α) := fun _ h => h
theorem throw_keeps {α : Type} {t : Trap} : Rd.Keeps (throw t : Rd α) := fun _ h => h

/-- A reading after a reading: a cause ends the whole, and the second one starts from the state that the first one leaves. -/
theorem bind_keeps {α β : Type} {x : Rd α} {f : α → Rd β} (hx : x.Keeps) (hf : ∀ a, (f a).Keeps) : Rd.Keeps (x >>= f) := by
  intro s h
  have k := hx s h
  simp only [Rd.at, ExceptT.run, bind, ExceptT.bind, ExceptT.mk, StateT.bind, StateT.run, ExceptT.bindCont] at k ⊢
  generalize hp : x s = p at k ⊢
  obtain ⟨r, s1⟩ := p
  cases r with
  | ok a => exact hf a s1 k
  | error t => exact k

theorem ite_keeps {α : Type} {c : Prop} [Decidable c] {x y : Rd α} (hx : x.Keeps) (hy : y.Keeps) :
    Rd.Keeps (if c then x else y) := by
  split
  · exact hx
  · exact hy

theorem mapM_keeps {α β : Type} {f : α → Rd β} (hf : ∀ a, (f a).Keeps) (l : List α) : Rd.Keeps (l.mapM f) := by
  induction l with
  | nil => exact pure_keeps
  | cons a r ih =>
    rw [List.mapM_cons]
    exact bind_keeps (hf a) fun _ => bind_keeps ih fun _ => pure_keeps

theorem foldlM_keeps {α β : Type} {f : β → α → Rd β} (hf : ∀ b a, (f b a).Keeps) (l : List α) (b : β) :
    Rd.Keeps (l.foldlM f b) := by
  induction l generalizing b with
  | nil => exact pure_keeps
  | cons a r ih =>
    rw [List.foldlM_cons]
    exact bind_keeps (hf b a) fun _ => ih _

theorem mk_keeps {α : Type} {f : State → Except Trap α × State} (hf : ∀ s, s.MemoryWf → (f s).2.MemoryWf) :
    Rd.Keeps (ExceptT.mk f : Rd α) :=
  hf
theorem engineRead_keeps {core ctx spec addr n} : (engineRead core ctx spec addr n).Keeps :=
  fun _ h => (engineRead_walked rfl).2 h
theorem Rd.at_wf {α : Type} {r : Rd α} {s : State} (hr : r.Keeps) (h : s.MemoryWf) : (r.at s).2.MemoryWf := hr s h

/-! ## Machine/Base: groups, lines of memory and regions -/

theorem State.mapGroup_wf {s : State} {gid f} (h : s.MemoryWf) : (s.mapGroup gid f).MemoryWf := by
  unfold State.mapGroup
  split <;> exact h
theorem MemSys.remoteWrite_wf {ms : MemSys} {k b} (h : ms.Wf) : (ms.remoteWrite k b).Wf :=
  ⟨memSetAll_wf (MemSys.dropCopies_wf _ _ (MemSys.writeBack_wf _ h)).1, memSetAll_wf (MemSys.dropCopies_wf _ _ (MemSys.writeBack_wf _ h)).2⟩
theorem MemSys.writeBackAll_wf {ms : MemSys} (h : ms.Wf) : ms.writeBackAll.Wf := MemSys.writeBack_wf _ h

theorem State.endAtStart_wf {s : State} (h : s.MemoryWf) : s.endAtStart.MemoryWf := by
  unfold State.endAtStart
  split
  · exact h
  · exact State.endRegion_wf h

theorem State.roomFor_wf {s : State} {n} (h : s.MemoryWf) : (s.roomFor n).MemoryWf := drainN_wf _ h

theorem State.ctxWrite_wf {s : State} {c a b} (h : s.MemoryWf) : (s.ctxWrite c a b).MemoryWf := by
  unfold State.ctxWrite
  split
  · exact State.memWrite_wf _ _ h
  · exact h

theorem State.ctxPut_wf {s : State} {c a n v} (h : s.MemoryWf) : (s.ctxPut c a n v).MemoryWf := State.ctxWrite_wf h

/-! ## Machine/Translate: translation, the snare and tokens -/

theorem State.splitRegion_wf {s : State} (h : s.MemoryWf) : s.splitRegion.MemoryWf := by
  unfold State.splitRegion
  split
  · exact h
  · exact State.endRegion_wf h

theorem State.splitHolder_wf {s : State} {t} (h : s.MemoryWf) : (s.splitHolder t).MemoryWf := by
  unfold State.splitHolder
  split
  · exact h
  · exact State.onGroup_wf _ (fun t1 w => State.splitRegion_wf w) h

theorem State.makeRoom_wf {s : State} {sec} (h : s.MemoryWf) : (s.makeRoom sec).MemoryWf := by
  unfold State.makeRoom
  dsimp only
  split
  · exact h
  · split
    · exact h
    · exact State.splitHolder_wf h
    · exact h

theorem State.splitSectors_wf {s : State} {secs} (h : s.MemoryWf) : (s.splitSectors secs).MemoryWf :=
  State.foldl_wf (fun _ _ w => State.splitHolder_wf w) _ h

theorem State.snareOne_wf {s : State} {sec write atomic} (h : s.MemoryWf) : (s.snareOne sec write atomic).1.MemoryWf := by
  have hf : ∀ l : List Token, (l.foldl State.squash s).MemoryWf := fun l => State.foldl_wf (f := State.squash) (fun _ _ w => w) l h
  unfold State.snareOne
  dsimp only
  split
  · exact h
  · exact h
  · split
    · exact hf _
    · exact hf _
  · split
    · exact h
    · split
      · exact State.makeRoom_wf h
      · exact State.makeRoom_wf h

theorem snareAll_wf {write atomic} : ∀ {l : List Hit3} {s : State}, s.MemoryWf → (snareAll write atomic l s).1.MemoryWf
  | [], _, h => h
  | (i, va, l) :: r, s, h => by
    unfold snareAll
    split
    · exact snareAll_wf h
    · exact snareAll_wf (State.snareOne_wf h)

/-- What the snare can answer (R216): it goes on, it waits, or there is a conflict, and in each case the state has the form. -/
theorem State.snare_cases {s : State} {write atomic scalar ts} (h : s.MemoryWf) :
    (∃ s1, s.snare write atomic scalar ts = .ok s1 ∧ s1.MemoryWf) ∨ (∃ s1, s.snare write atomic scalar ts = .wait s1 ∧ s1.MemoryWf) ∨
    ∃ t s1, s.snare write atomic scalar ts = .conflict t s1 ∧ s1.MemoryWf := by
  have k : (snareAll write atomic ts s.dropStale).1.MemoryWf := snareAll_wf h
  unfold State.snare
  dsimp only
  split
  · exact .inr (.inr ⟨_, _, rfl, k⟩)
  · split
    · exact .inr (.inl ⟨_, rfl, k⟩)
    · exact .inl ⟨_, rfl, k⟩

/-! ## Machine/Ops: accesses of a group, stores and the return from the handler -/

theorem returnFromHandler_wf {s : State} {skip} (h : s.MemoryWf) : (returnFromHandler skip s).MemoryWf := by
  unfold returnFromHandler
  extract_lets s1 g epc
  have h1 : s1.MemoryWf := State.endRegion_wf h
  split
  · exact h1
  · split <;> exact h1

theorem State.clearCause_wf {s : State} (h : s.MemoryWf) : s.clearCause.MemoryWf := h
theorem State.replay_wf {s : State} {skip} (h : s.MemoryWf) : (s.replay skip).MemoryWf := State.clearCause_wf h

theorem enterBlock_wf {s : State} (h : s.MemoryWf) : (enterBlock s).MemoryWf := by
  unfold enterBlock
  split
  next hc => exact takeTrap_wf (State.checkHeader_bad_wf hc h)
  next hc => exact State.MemoryWf.of_ms (State.checkHeader_ok_wf hc h) rfl

theorem mustBeLast_wf {s : State} {k} (h : s.MemoryWf) (hk : k.Wf) : (mustBeLast s k).Wf := by
  unfold mustBeLast
  split
  · exact hk
  · exact h

/-- An access of a group: the check, the snare, and what the instruction does with the sectors it reaches. -/
theorem accessG_wf {s : State} {a scalar atomic accs k} (h : s.MemoryWf) (hk : ∀ t hits, t.MemoryWf → (k t hits).Wf) :
    (accessG s a scalar atomic accs k).Wf := by
  unfold accessG
  split
  next hc => exact checkAccess_bad_wf hc h
  next s1 ts hc =>
    have h1 := checkAccess_ok_wf hc h
    split
    · exact h1
    · split
      · exact hk _ _ h1
      · obtain ⟨s2, e, h2⟩ | ⟨s2, e, h2⟩ | ⟨t, s2, e, h2⟩ := State.snare_cases h1 <;> rw [e]
        · exact hk _ _ h2
        · exact h2
        · exact h2

theorem MemSys.hint_wf {ms : MemSys} {cache line} (h : ms.Wf) : (ms.hint cache line).Wf := by
  unfold MemSys.hint
  split
  · exact h
  · split <;> exact h

theorem State.noteHome_wf {s : State} {cache l} (h : s.MemoryWf) : (s.noteHome cache l).MemoryWf := by
  unfold State.noteHome
  split
  · exact h
  · exact MemSys.hint_wf h

theorem State.noteLoad_wf {s : State} {cache l} (h : s.MemoryWf) : (s.noteLoad cache l).MemoryWf := by
  unfold State.noteLoad
  split
  · exact State.noteHome_wf h
  · split
    · exact State.noteHome_wf h
    · split
      · exact State.noteHome_wf h
      · dsimp only
        split <;> exact State.noteHome_wf h

theorem State.noteStore_wf {s : State} {cache l} (h : s.MemoryWf) : (s.noteStore cache l).MemoryWf := by
  unfold State.noteStore
  split <;> exact State.noteHome_wf h
theorem State.noteStores_wf {s : State} {cache hits} (h : s.MemoryWf) : (s.noteStores cache hits).MemoryWf :=
  State.foldl_wf (fun _ _ w => State.noteStore_wf w) _ h

theorem State.queueStores_wf {s : State} {m cache es} (h : s.MemoryWf) : (s.queueStores m cache es).Wf := by
  unfold State.queueStores
  dsimp only
  split
  · split
    · exact h
    · exact State.noteStores_wf h
  · have k := State.noteStores_wf (cache := cache) (hits := es.map (·.1)) (State.roomFor_wf (n := (markClears (es.map fun e =>
      ({ key := e.1.2.2.key, bytes := e.2, seq := s.g.seq, no := s.g.storeNo } : PStore))).length) h)
    exact ite_wf (State.drain_wf (State.MemoryWf.of_ms k rfl)) k

/-! ## Machine/Flags: flags -/

theorem State.orF_wf {s : State} {fl} (h : s.MemoryWf) : (s.orF fl).MemoryWf := h
theorem State.orQ_wf {s : State} {q} (h : s.MemoryWf) : (s.orQ q).MemoryWf := h

theorem State.orSat_wf {s : State} {c} (h : s.MemoryWf) : (s.orSat c).MemoryWf := by
  unfold State.orSat
  split
  · exact State.orQ_wf h
  · exact h

theorem State.advancePhase_wf {s : State} {c} (h : s.MemoryWf) : (s.advancePhase c).MemoryWf := by
  unfold State.advancePhase
  split <;> exact h

/-! ## Machine/Operands: the shapes of scalar and vector operations -/

theorem scalarOp_wf {s : State} {reads d x c} (h : s.MemoryWf) : (scalarOp s reads d x c).Wf := orTrap_wf h (State.orSat_wf h)
theorem s3Write_wf {s : State} {f reads r} (h : s.MemoryWf) : (s3Write s f reads r).Wf := by
  unfold s3Write
  split <;> exact scalarOp_wf h

/-- Writing a run of vector registers leaves memory alone. -/
theorem setV_foldl_wf {s : State} {w m} {d : Nat → Byte} {val : Nat → Nat → Nat} (h : s.MemoryWf) (l : List Nat) :
    (l.foldl (fun s k => s.setV w (d k) m (val k)) s).MemoryWf := State.foldl_wf (f := fun s k => s.setV w (d k) m (val k)) (fun _ _ h => h) l h

theorem vectorOp_wf {s : State} {m reads d wide out} (h : s.MemoryWf) : (vectorOp s m reads d wide out).Wf := by
  unfold vectorOp
  split
  · exact h
  · exact orTrap_wf h (orTrap_wf h (State.orSat_wf (State.orF_wf h)))

/-! ## Machine/Scalar: scalar instructions -/

theorem scalarDiv_wf {s : State} {f r} (h : s.MemoryWf) : (scalarDiv s f r).Wf := orTrap_wf h (orTrap_wf h (State.orF_wf h))
theorem execSadd_wf {s : State} {f} (h : s.MemoryWf) : Out.Wf (execSadd f s) := settle_wf (s3Write_wf h)
theorem execSsub_wf {s : State} {f} (h : s.MemoryWf) : Out.Wf (execSsub f s) := settle_wf (s3Write_wf h)
theorem execSmul_wf {s : State} {f} (h : s.MemoryWf) : Out.Wf (execSmul f s) := settle_wf (s3Write_wf h)
theorem execSmulh_wf {s : State} {f} (h : s.MemoryWf) : Out.Wf (execSmulh f s) := settle_wf (scalarOp_wf h)
theorem execSdiv_wf {s : State} {f} (h : s.MemoryWf) : Out.Wf (execSdiv f s) := settle_wf (scalarDiv_wf h)
theorem execSrem_wf {s : State} {f} (h : s.MemoryWf) : Out.Wf (execSrem f s) := settle_wf (scalarDiv_wf h)
theorem execSmin_wf {s : State} {f} (h : s.MemoryWf) : Out.Wf (execSmin f s) := settle_wf (scalarOp_wf h)
theorem execSmax_wf {s : State} {f} (h : s.MemoryWf) : Out.Wf (execSmax f s) := settle_wf (scalarOp_wf h)
theorem execSabs_wf {s : State} {f} (h : s.MemoryWf) : Out.Wf (execSabs f s) := settle_wf (s3Write_wf h)
theorem execSlea_wf {s : State} {f} (h : s.MemoryWf) : Out.Wf (execSlea f s) := settle_wf (scalarOp_wf h)
theorem execSand_wf {s : State} {f} (h : s.MemoryWf) : Out.Wf (execSand f s) := settle_wf (scalarOp_wf h)
theorem execSor_wf {s : State} {f} (h : s.MemoryWf) : Out.Wf (execSor f s) := settle_wf (scalarOp_wf h)
theorem execSxor_wf {s : State} {f} (h : s.MemoryWf) : Out.Wf (execSxor f s) := settle_wf (scalarOp_wf h)
theorem execSandn_wf {s : State} {f} (h : s.MemoryWf) : Out.Wf (execSandn f s) := settle_wf (scalarOp_wf h)
theorem execSshl_wf {s : State} {f} (h : s.MemoryWf) : Out.Wf (execSshl f s) := settle_wf (scalarOp_wf h)
theorem execSshr_wf {s : State} {f} (h : s.MemoryWf) : Out.Wf (execSshr f s) := settle_wf (scalarOp_wf h)
theorem execSsra_wf {s : State} {f} (h : s.MemoryWf) : Out.Wf (execSsra f s) := settle_wf (scalarOp_wf h)
theorem execSrot_wf {s : State} {f} (h : s.MemoryWf) : Out.Wf (execSrot f s) := settle_wf (scalarOp_wf h)
theorem execSclz_wf {s : State} {f} (h : s.MemoryWf) : Out.Wf (execSclz f s) := settle_wf (scalarOp_wf h)
theorem execSpop_wf {s : State} {f} (h : s.MemoryWf) : Out.Wf (execSpop f s) := settle_wf (scalarOp_wf h)
theorem execSbfx_wf {s : State} {f} (h : s.MemoryWf) : Out.Wf (execSbfx f s) := settle_wf (scalarOp_wf h)
theorem execSbfi_wf {s : State} {f} (h : s.MemoryWf) : Out.Wf (execSbfi f s) := settle_wf (scalarOp_wf h)
theorem execSsel_wf {s : State} {f} (h : s.MemoryWf) : Out.Wf (execSsel f s) := settle_wf (scalarOp_wf h)
theorem execSmov_wf {s : State} {f} (h : s.MemoryWf) : Out.Wf (execSmov f s) := settle_wf (scalarOp_wf h)
theorem execScmp_wf {s : State} {f} (h : s.MemoryWf) : Out.Wf (execScmp f s) := settle_wf (scalarOp_wf h)
theorem execSaddImm_wf {s : State} {f} (h : s.MemoryWf) : Out.Wf (execSaddImm f s) := settle_wf (scalarOp_wf h)
theorem execSmulImm_wf {s : State} {f} (h : s.MemoryWf) : Out.Wf (execSmulImm f s) := settle_wf (scalarOp_wf h)
theorem execSminImm_wf {s : State} {f} (h : s.MemoryWf) : Out.Wf (execSminImm f s) := settle_wf (scalarOp_wf h)
theorem execSmaxImm_wf {s : State} {f} (h : s.MemoryWf) : Out.Wf (execSmaxImm f s) := settle_wf (scalarOp_wf h)
theorem execSandImm_wf {s : State} {f} (h : s.MemoryWf) : Out.Wf (execSandImm f s) := settle_wf (scalarOp_wf h)
theorem execSorImm_wf {s : State} {f} (h : s.MemoryWf) : Out.Wf (execSorImm f s) := settle_wf (scalarOp_wf h)
theorem execSxorImm_wf {s : State} {f} (h : s.MemoryWf) : Out.Wf (execSxorImm f s) := settle_wf (scalarOp_wf h)
theorem execSshlImm_wf {s : State} {f} (h : s.MemoryWf) : Out.Wf (execSshlImm f s) := settle_wf (scalarOp_wf h)
theorem execSshrImm_wf {s : State} {f} (h : s.MemoryWf) : Out.Wf (execSshrImm f s) := settle_wf (scalarOp_wf h)
theorem execSsraImm_wf {s : State} {f} (h : s.MemoryWf) : Out.Wf (execSsraImm f s) := settle_wf (scalarOp_wf h)
theorem execSrotImm_wf {s : State} {f} (h : s.MemoryWf) : Out.Wf (execSrotImm f s) := settle_wf (scalarOp_wf h)
theorem execSli_wf {s : State} {f} (h : s.MemoryWf) : Out.Wf (execSli f s) := settle_wf (scalarOp_wf h)
theorem execSlih_wf {s : State} {f} (h : s.MemoryWf) : Out.Wf (execSlih f s) := settle_wf (scalarOp_wf h)
theorem execScmpImm_wf {s : State} {f} (h : s.MemoryWf) : Out.Wf (execScmpImm f s) := settle_wf (scalarOp_wf h)

/-! ## Machine/Mem: loads, stores and cache control -/

theorem vectorLoad_wf {s : State} {f signed} (h : s.MemoryWf) : (vectorLoad s f signed).Wf := by
  unfold vectorLoad
  extract_lets m n
  split
  · exact h
  · exact orTrap_wf h (accessG_wf h fun _ _ w => State.foldl_wf (fun _ _ w1 => State.noteLoad_wf w1) _ w)

theorem scalarLoad_wf {s : State} {f signed} (h : s.MemoryWf) : (scalarLoad s f signed).Wf := by
  refine orTrap_wf h (accessG_wf h (fun t ts w => ?_))
  split
  · exact State.noteLoad_wf w
  · exact w

theorem execLd_wf {s : State} {f} (h : s.MemoryWf) : Out.Wf (execLd f s) := settle_wf (vectorLoad_wf h)
theorem execLdSigned_wf {s : State} {f} (h : s.MemoryWf) : Out.Wf (execLdSigned f s) := settle_wf (vectorLoad_wf h)
theorem execLdu_wf {s : State} {f} (h : s.MemoryWf) : Out.Wf (execLdu f s) := settle_wf (scalarLoad_wf h)
theorem execLduSigned_wf {s : State} {f} (h : s.MemoryWf) : Out.Wf (execLduSigned f s) := settle_wf (scalarLoad_wf h)

theorem execSt_wf {s : State} {f} (h : s.MemoryWf) : Out.Wf (execSt f s) := by
  refine settle_wf ?_
  split
  · exact h
  · exact orTrap_wf h (accessG_wf h (fun _ _ w => State.queueStores_wf w))

theorem execStu_wf {s : State} {f} (h : s.MemoryWf) : Out.Wf (execStu f s) :=
  settle_wf (orTrap_wf h (accessG_wf h (fun _ _ w => State.queueStores_wf w)))
theorem prefTranslated_wf {s : State} {f} (h : s.MemoryWf) : (prefTranslated f s).1.MemoryWf := by
  unfold prefTranslated
  exact translateAll_wf (State.readWindow_wf h)

theorem prefetchOne_wf {s : State} {f t} (h : s.MemoryWf) : (prefetchOne f s t).MemoryWf := by
  unfold prefetchOne
  split
  · exact h
  · split
    · exact h
    · split
      · exact State.noteLoad_wf (State.beforeAccess_wf h)
      · exact State.noteHome_wf (State.beforeAccess_wf h)

theorem execPref_wf {s : State} {f} (h : s.MemoryWf) : Out.Wf (execPref f s) := by
  refine settle_wf ?_
  split
  · exact h
  · exact orTrap_wf h (State.foldl_wf (fun t x w => prefetchOne_wf w) _ (prefTranslated_wf h))

theorem State.lineAction_wf {s : State} {wb drop ls} (h : s.MemoryWf) : (s.lineAction wb drop ls).MemoryWf := by
  unfold State.lineAction
  extract_lets secs s1 s2 s3
  have h1 : s1.MemoryWf := MemSys.foldl_wf (fun _ _ w => MemSys.recall_wf _ _ w) h
  have h2 : s2.MemoryWf := ite_wf (MemSys.writeBack_wf _ h1) h1
  have h3 : s3.MemoryWf := State.splitSectors_wf h2
  exact ite_wf (MemSys.foldl_wf (fun _ _ w => MemSys.dropCopies_wf _ _ w) (MemSys.discard_wf _ h3)) h2

theorem cacheControl_wf {s : State} {f a drops act} (h : s.MemoryWf) (hk : ∀ t ts, t.MemoryWf → (act t ts).MemoryWf) :
    (cacheControl s f a drops act).Wf := by
  unfold cacheControl
  dsimp only
  split
  · exact h
  · refine orTrap_wf h (accessG_wf h (fun _ _ w => ?_))
    split
    · exact State.splitSectors_wf (State.drain_wf w)
    · exact hk _ _ (State.drain_wf w)

theorem execCwb_wf {s : State} {f} (h : s.MemoryWf) : Out.Wf (execCwb f s) :=
  settle_wf (cacheControl_wf h (fun _ _ w => State.lineAction_wf w))

theorem execCinv_wf {s : State} {f} (h : s.MemoryWf) : Out.Wf (execCinv f s) := by
  refine settle_wf (cacheControl_wf h (fun _ _ w => ?_))
  split
  · exact w
  · exact State.lineAction_wf w

theorem execCwbi_wf {s : State} {f} (h : s.MemoryWf) : Out.Wf (execCwbi f s) := by
  refine settle_wf (cacheControl_wf h (fun _ _ w => ?_))
  split
  · exact w
  · exact State.lineAction_wf w

/-! ## Machine/Atomics: atomics and fences -/

theorem atomicLanes_wf {w aop x cmp} : ∀ {l : List (Nat × Nat)} {s : State}, s.MemoryWf → (atomicLanes w aop x cmp l s).1.MemoryWf
  | [], _, h => h
  | (_, _) :: _, _, h => by
    unfold atomicLanes
    exact atomicLanes_wf (State.atomicAt_wf _ _ _ _ _ h)

theorem State.takePause_wf {s : State} {all} (h : s.MemoryWf) : (s.takePause all).2.MemoryWf := by
  unfold State.takePause
  split <;> exact h

theorem atomicRun_wf {s : State} {w aop x cmp run k} (h : s.MemoryWf) (hk : ∀ t olds, t.MemoryWf → (k t olds).Wf) :
    (atomicRun w aop x cmp run s k).Wf := by
  unfold atomicRun
  split
  next n s1 hp =>
    have h1 : s1.MemoryWf := snd_wf hp (by split; exact h; exact State.takePause_wf h)
    have h2 := atomicLanes_wf (w := w) (aop := aop) (x := x) (cmp := cmp) (l := run.left.take n) h1
    dsimp only
    split
    · exact hk _ _ h2
    · exact h2

theorem State.beforeAtomic_wf {s : State} {ord} (h : s.MemoryWf) : (s.beforeAtomic ord).MemoryWf := by
  unfold State.beforeAtomic
  split
  · exact State.drain_wf h
  · exact State.endRegion_wf (State.drain_wf h)

/-- An atomic goes on where it stopped, or is checked and starts. -/
theorem startedOr_wf {s : State} {go check} (h : s.MemoryWf) (hgo : ∀ t r, t.MemoryWf → (go t r).Wf) (hcheck : (check go).Wf) :
    (startedOr s go check).Wf := by
  unfold startedOr
  split
  · exact hgo _ _ h
  · exact hcheck

theorem vectorAtomic_wf {s : State} {i f olds} (h : s.MemoryWf) (hk : ∀ t m os, t.MemoryWf → (olds t m os).MemoryWf) :
    (vectorAtomic s i f olds).Wf := by
  unfold vectorAtomic
  extract_lets g m w wide val reads
  have hgo : ∀ t r, t.MemoryWf → (atomicRun w f.aop.toNat (val (maOperand f)) (val f.d) r t fun t os => .next (olds t m os)).Wf :=
    fun _ _ ht => atomicRun_wf ht fun _ _ ht1 => hk _ _ _ ht1
  refine startedOr_wf h hgo ?_
  split
  · exact h
  · exact orTrap_wf h (accessG_wf h fun _ _ ht => hgo _ _ (State.beforeAtomic_wf ht))

theorem execAtom_wf {s : State} {f} (h : s.MemoryWf) : Out.Wf (execAtom f s) := settle_wf (vectorAtomic_wf h (fun _ _ _ w => w))
theorem execRed_wf {s : State} {f} (h : s.MemoryWf) : Out.Wf (execRed f s) := settle_wf (vectorAtomic_wf h (fun _ _ _ w => w))
theorem execAtomu_wf {s : State} {f} (h : s.MemoryWf) : Out.Wf (execAtomu f s) := by
  refine settle_wf (startedOr_wf h (fun _ _ w => atomicRun_wf w fun _ _ w1 => w1) ?_)
  exact orTrap_wf h (accessG_wf h fun _ _ w => atomicRun_wf (State.beforeAtomic_wf w) fun _ _ w1 => w1)

theorem execLineOwnershipGrant_wf {s : State} {core line} (h : s.MemoryWf) : Out.Wf (execLineOwnershipGrant core line s) := by
  refine done_wf ?_
  split
  · exact MemSys.recall_wf _ _ h
  · exact h

theorem State.performAt_wf {s : State} {sc} (h : s.MemoryWf) : (s.performAt sc).MemoryWf := by
  unfold State.performAt
  split
  · exact MemSys.writeBackAll_wf (State.drain_wf h)
  · exact State.drain_wf h

theorem execFence_wf {s : State} {f} (h : s.MemoryWf) : Out.Wf (execFence f s) := by
  refine settle_wf (State.endRegion_wf ?_)
  split
  · exact State.performAt_wf h
  · exact h

theorem execXfence_wf {s : State} {f} (h : s.MemoryWf) : Out.Wf (execXfence f s) := by
  have h1 : s.endAtStart.MemoryWf := State.endAtStart_wf h
  refine settle_wf ?_
  split
  · exact h1
  · exact ite_wf (State.performAt_wf h1) (ite_wf (MemSys.writeBackAll_wf h1) h1)

/-! ## Machine/Barrier: barriers -/

theorem State.writeForm_wf {s : State} {b} (h : s.MemoryWf) : (s.writeForm b).MemoryWf := by
  unfold State.writeForm
  split
  · exact State.ctxPut_wf h
  · exact h

theorem State.passWaits_wf {s : State} {q t} (h : s.MemoryWf) : (s.passWaits q t).MemoryWf := h

theorem State.putBar_wf {s : State} {b} (h : s.MemoryWf) : (s.putBar b).MemoryWf := by
  unfold State.putBar
  dsimp only
  split
  · split
    · exact State.passWaits_wf (State.writeForm_wf h)
    · exact State.writeForm_wf h
  · exact State.writeForm_wf h

theorem State.dropBar_wf {s : State} {e} (h : s.MemoryWf) : (s.dropBar e).MemoryWf := by
  unfold State.dropBar
  split
  · exact h
  · dsimp only
    split
    · exact h
    · split
      · exact h
      · split <;> exact State.putBar_wf h

theorem State.dropAllBars_wf {s : State} (h : s.MemoryWf) : s.dropAllBars.MemoryWf :=
  State.foldl_wf (fun _ _ w => State.dropBar_wf w) _ h

theorem State.spillBars_wf {s : State} {ctx core} (h : s.MemoryWf) : (s.spillBars ctx core).MemoryWf := by
  unfold State.spillBars
  split
  · exact h
  · exact State.foldl_wf (fun t x w => State.putBar_wf w) _ h

theorem State.spillIdle_wf {s : State} {ctx} (h : s.MemoryWf) : (s.spillIdle ctx).MemoryWf :=
  State.foldl_wf (fun _ _ w => State.spillBars_wf w) _ h
theorem State.reloadBars_wf {s : State} {ctx core} (h : s.MemoryWf) : (s.reloadBars ctx core).MemoryWf :=
  State.foldl_wf (fun _ _ w => State.readBar_wf w) _ h

theorem State.holdBars_wf {s : State} (h : s.MemoryWf) : s.holdBars.MemoryWf := by
  refine State.foldl_wf (fun t x w => ?_) _ h
  split
  · exact State.putBar_wf w
  · exact w

theorem State.moveBars_wf {s : State} {slot} (h : s.MemoryWf) : (s.moveBars slot).MemoryWf := by
  refine State.foldl_wf (fun t x w => ?_) _ h
  split
  · exact State.putBar_wf w
  · exact w

theorem execBarInit_wf {s : State} {f} (h : s.MemoryWf) : Out.Wf (execBarInit f s) :=
  settle_wf (orTrap_wf h (Res.ite_wf h (Res.ite_wf h (State.endRegion_wf h))))

-- before fst_wf
theorem arriveOp_wf {s : State} {core idx k} (h : s.MemoryWf) (hk : ∀ t b, t.MemoryWf → (k t b).Wf) :
    (arriveOp s core idx k).Wf := by
  unfold arriveOp
  dsimp only
  split
  · exact State.readBar_wf h
  · exact hk _ _ (State.putBar_wf (State.endRegion_wf (State.drain_wf (State.readBar_wf h))))

theorem execBarArr_wf {s : State} {f} (h : s.MemoryWf) : Out.Wf (execBarArr f s) := settle_wf (arriveOp_wf h (fun _ _ w => w))
theorem execBarPeer_wf {s : State} {f} (h : s.MemoryWf) : Out.Wf (execBarPeer f s) := settle_wf (arriveOp_wf h (fun _ _ w => w))

theorem execBarWait_wf {s : State} {f} (h : s.MemoryWf) : Out.Wf (execBarWait f s) := by
  refine settle_wf (orTrap_wf h ?_)
  split
  · exact h
  · dsimp only
    split
    · exact State.readBar_wf h
    · split
      · exact State.readBar_wf h
      · split <;> exact State.endAtStart_wf (State.readBar_wf h)

theorem syncWait_wf {s : State} {t} (h : s.MemoryWf) : (syncWait s t).Wf := by
  unfold syncWait
  dsimp only
  split <;> exact State.readBar_wf h

theorem syncOp_wf {s : State} {core idx} (h : s.MemoryWf) : (syncOp s core idx).Wf := by
  unfold syncOp
  split
  · exact syncWait_wf h
  · exact arriveOp_wf h (fun _ _ w => syncWait_wf w)

theorem execBarSync_wf {s : State} {f} (h : s.MemoryWf) : Out.Wf (execBarSync f s) := settle_wf (syncOp_wf h)
theorem execBarSyncPeer_wf {s : State} {f} (h : s.MemoryWf) : Out.Wf (execBarSyncPeer f s) := settle_wf (syncOp_wf h)

theorem dropOp_wf {s : State} {core idx} (h : s.MemoryWf) : (dropOp s core idx).Wf := by
  unfold dropOp
  dsimp only
  split
  · exact State.readBar_wf h
  · exact State.dropBar_wf (State.endRegion_wf (State.drain_wf (State.readBar_wf h)))

theorem execBarDrop_wf {s : State} {f} (h : s.MemoryWf) : Out.Wf (execBarDrop f s) := settle_wf (dropOp_wf h)
theorem execBarDropPeer_wf {s : State} {f} (h : s.MemoryWf) : Out.Wf (execBarDropPeer f s) := settle_wf (dropOp_wf h)

theorem State.mapGrid_wf {s : State} {e f} (h : s.MemoryWf) : (s.mapGrid e f).MemoryWf := by
  unfold State.mapGrid
  split
  · exact State.passWaits_wf h
  · exact h

theorem execBarGrid_wf {s : State} {f} (h : s.MemoryWf) : Out.Wf (execBarGrid f s) := by
  refine settle_wf ?_
  split
  · exact h
  · split
    · exact h
    · split
      · split <;> exact h
      · dsimp only
        split <;> exact State.mapGrid_wf (State.endRegion_wf (State.drain_wf h))

/-! ## Machine/Tiles: tiles -/

theorem withTile_wf {s : State} {a m ok k} (h : s.MemoryWf) (hk : ∀ t, (k t).Wf) : (withTile s a m ok k).Wf := by
  unfold withTile
  split
  · split <;> exact h
  · exact hk _

theorem State.freeTile_wf {s : State} {t} (h : s.MemoryWf) : (s.freeTile t).MemoryWf := by
  unfold State.freeTile
  split <;> exact h

theorem State.newTile_some_wf {s s1 : State} {t a} (hc : s.newTile t = some (s1, a)) (h : s.MemoryWf) : s1.MemoryWf := by
  obtain ⟨i, -, e⟩ := Option.map_eq_some_iff.1 hc
  cases e
  exact h

theorem execTalloc_wf {s : State} {f} (h : s.MemoryWf) : Out.Wf (execTalloc f s) := by
  unfold execTalloc
  extract_lets g shape base glb skew n t
  refine settle_wf (orTrap_wf h (orTrap_wf h ?_))
  split
  · exact h
  next hc => exact State.MemoryWf.of_ms (State.newTile_some_wf hc h) rfl

theorem execTfree_wf {s : State} {f} (h : s.MemoryWf) : Out.Wf (execTfree f s) :=
  settle_wf (orTrap_wf h (withTile_wf h fun _ => Res.ite_wf h (Res.ite_wf h (State.freeTile_wf h))))
theorem execTinfo_wf {s : State} {f} (h : s.MemoryWf) : Out.Wf (execTinfo f s) := by
  refine settle_wf (orTrap_wf h ?_)
  split <;> exact h

theorem tsetOp_wf {s : State} {full f} (h : s.MemoryWf) : (tsetOp full f s).Wf := by
  unfold tsetOp
  extract_lets g r0 b
  refine orTrap_wf h (withTile_wf h fun _ => ?_)
  extract_lets n
  exact Res.ite_wf h (State.endRegion_wf (State.drain_wf h))

theorem execTsetFull_wf {s : State} {f} (h : s.MemoryWf) : Out.Wf (execTsetFull f s) := settle_wf (tsetOp_wf h)
theorem execTsetEmpty_wf {s : State} {f} (h : s.MemoryWf) : Out.Wf (execTsetEmpty f s) := settle_wf (tsetOp_wf h)
theorem State.parkFull_wf {s : State} {t} (h : s.MemoryWf) : (s.parkFull t).Wf := h
theorem State.passTwaits_wf {s : State} (h : s.MemoryWf) : s.passTwaits.MemoryWf := h
theorem execTwait_wf {s : State} {f} (h : s.MemoryWf) : Out.Wf (execTwait f s) := by
  have h1 := State.endAtStart_wf h
  exact settle_wf (orTrap_wf h (withTile_wf h fun _ => Res.ite_wf h1 (Res.ite_wf h1 (State.parkFull_wf h1))))

/-- The checks that the accesses to words of a tile share. -/
theorem tileAccess_wf {s : State} {f data tagged k} (h : s.MemoryWf) (hk : ∀ m t w, (k m t w).Wf) :
    (tileAccess s f data tagged k).Wf :=
  Res.ite_wf h (orTrap_wf h (withTile_wf h fun _ => orTrap_wf h (hk _ _ _)))
theorem tileRead_wf {s : State} {f m t} (h : s.MemoryWf) : (tileRead s f m t).MemoryWf := h
theorem tileWrite_wf {s : State} {f m t} (h : s.MemoryWf) : (tileWrite s f m t).MemoryWf := h
theorem State.parkOn_wf {s : State} {t ws empty changes} (h : s.MemoryWf) : (s.parkOn t ws empty changes).Wf := by
  unfold State.parkOn
  split <;> exact h

theorem waitWords_wf {s : State} {m t w empty changes k} (h : s.MemoryWf) (hk : ∀ t, t.MemoryWf → (k t).Wf) :
    (waitWords s m t w empty changes k).Wf := by
  have h1 := State.endAtStart_wf h
  exact Res.ite_wf h1 (Res.ite_wf (State.parkOn_wf h1) (hk _ h1))

theorem execTld_wf {s : State} {f} (h : s.MemoryWf) : Out.Wf (execTld f s) :=
  settle_wf (tileAccess_wf h fun _ _ _ => orTrap_wf h (tileRead_wf h))
theorem execTst_wf {s : State} {f} (h : s.MemoryWf) : Out.Wf (execTst f s) :=
  settle_wf (tileAccess_wf h fun _ _ _ => tileWrite_wf (State.endRegion_wf (State.drain_wf h)))
theorem execTldw_wf {s : State} {f} (h : s.MemoryWf) : Out.Wf (execTldw f s) :=
  settle_wf (tileAccess_wf h fun _ _ _ => waitWords_wf h fun _ w => orTrap_wf w (tileRead_wf w))
theorem execTldc_wf {s : State} {f} (h : s.MemoryWf) : Out.Wf (execTldc f s) :=
  settle_wf (tileAccess_wf h fun _ _ _ => waitWords_wf h fun _ w => orTrap_wf w w)
theorem execTstw_wf {s : State} {f} (h : s.MemoryWf) : Out.Wf (execTstw f s) :=
  settle_wf (tileAccess_wf h fun _ _ _ => waitWords_wf h fun _ w => tileWrite_wf (State.drain_wf w))

/-! ## Machine/Copy: copies -/

theorem copyChecks_wf {s : State} {f out k} (h : s.MemoryWf) (hk : ∀ t a b c d, t.MemoryWf → (k t a b c d).Wf) :
    (copyChecks s f out k).Wf := by
  refine orTrap_wf h (withTile_wf h (fun _ => orTrap_wf h ?_))
  split
  next hc => exact checkAccess_bad_wf hc h
  next hc => exact hk _ _ _ _ _ (checkAccess_ok_wf hc h)

theorem execTcpi_wf {s : State} {f} (h : s.MemoryWf) : Out.Wf (execTcpi f s) :=
  settle_wf (copyChecks_wf h (fun _ _ _ _ _ w => State.endRegion_wf w))
theorem execTcpo_wf {s : State} {f} (h : s.MemoryWf) : Out.Wf (execTcpo f s) :=
  settle_wf (copyChecks_wf h (fun _ _ _ _ _ w => State.endRegion_wf w))

theorem execTcpm_wf {s : State} {f} (h : s.MemoryWf) : Out.Wf (execTcpm f s) := by
  refine settle_wf (orTrap_wf h (withTile_wf h fun _ => ?_))
  split
  · exact Res.ite_wf h h
  · exact Res.ite_wf h (State.endRegion_wf h)

theorem Copy.noteBlocked_wf {s : State} {c read vas} (h : s.MemoryWf) : (Copy.noteBlocked s c read vas).MemoryWf := h
theorem Copy.sourceFails_wf {s : State} {c : Copy} (h : s.MemoryWf) : (c.sourceFails s).MemoryWf := ite_wf h h

theorem Copy.recallWord_wf {s : State} {c t} (h : s.MemoryWf) : (Copy.recallWord c s t).Wf := by
  unfold Copy.recallWord
  split
  · exact h
  · exact MemSys.foldl_wf (fun m x w => MemSys.recall_wf _ _ w) h

theorem State.landWord_wf {s : State} {c} (h : s.MemoryWf) : (s.landWord c).MemoryWf := by
  unfold State.landWord
  split
  dsimp only
  split
  · exact Copy.sourceFails_wf h
  · split
    · exact Copy.sourceFails_wf h
    next t _ _ =>
      have h1 : MemSys.Wf (c.recallWord s t) := Copy.recallWord_wf h
      split
      · exact h1
      · exact ite_wf (s := Copy.noteBlocked _ _ _ _) h1 h1

theorem execInboundWrite_wf {s : State} {copy} (h : s.MemoryWf) : Out.Wf (execInboundWrite copy s) := by
  refine done_wf ?_
  split
  · extract_lets may
    exact ite_wf (State.landWord_wf h) h
  · exact h

theorem State.endIn_wf {s : State} {core idx} (h : s.MemoryWf) : (s.endIn core idx).MemoryWf := by
  unfold State.endIn
  split
  · exact h
  · split <;> exact h

theorem State.maybeByte_wf {s : State} {k b} (h : s.MemoryWf) : (s.maybeByte k b).MemoryWf := by
  unfold State.maybeByte
  split
  next hc =>
    split
    · exact State.memWrite_wf _ _ (snd_wf hc h)
    · exact snd_wf hc h

theorem Copy.writeRow_wf {s : State} {c i} (h : s.MemoryWf) : (Copy.writeRow c s i).MemoryWf := by
  unfold Copy.writeRow
  dsimp only
  split
  · refine State.foldl_wf (fun t x w => State.maybeByte_wf w) _ ?_
    split
    · exact Copy.noteBlocked_wf h
    · exact h
  · exact State.foldl_wf (fun t x w => State.memWrite_wf _ _ w) _ h

theorem State.endCopy_wf {s : State} {c} (h : s.MemoryWf) : (s.endCopy c).MemoryWf := by
  unfold State.endCopy
  split
  · exact State.foldl_wf (fun t x w => Copy.writeRow_wf w) _ h
  · exact State.endIn_wf h
  · exact State.endIn_wf h

theorem execCopyComplete_wf {s : State} {copy} (h : s.MemoryWf) : Out.Wf (execCopyComplete copy s) := by
  refine done_wf ?_
  split
  next c _ => exact ite_wf (State.endCopy_wf h) h
  · exact h

/-! ## Machine/Engine: accesses of the engines -/

theorem Rd.once_keeps {α : Type} {r : Rd α} (hk : r.Keeps) : r.once.Keeps := fun s h => hk (s.setReuse (some [])) h
theorem engineBytes_keeps {core ctx cls addr n} : (engineBytes core ctx cls addr n).Keeps := engineRead_keeps
theorem engineNat_keeps {core ctx cls addr n} : (engineNat core ctx cls addr n).Keeps :=
  bind_keeps engineBytes_keeps (fun _ => pure_keeps)

theorem sampleNat_keeps {core ctx addr n} : (sampleNat core ctx addr n).Keeps := by
  refine mk_keeps fun s h => ?_
  split
  next hc => exact checkAccess_bad_wf hc h
  next hc =>
    have h1 := checkAccess_ok_wf hc h
    exact h1

theorem eachLane_keeps {α : Type} {ls : List Nat} {f : Nat → Rd α} (hk : ∀ i, (f i).Keeps) : (eachLane ls f).Keeps := by
  refine mk_keeps fun s h => ?_
  have k := List.foldlRecOn (motive := fun p : List (Nat × Except Trap α) × State => p.2.MemoryWf) ls
    (fun acc i => (acc.1 ++ [(i, ((f i).at acc.2).1)], ((f i).at acc.2).2)) (b := ([], s)) h fun p w i _ => hk i p.2 w
  dsimp only
  split
  · exact k
  · exact k

theorem State.storeHits_wf {s : State} {addr b ts} (h : s.MemoryWf) : (s.storeHits addr b ts).MemoryWf :=
  State.foldl_wf (fun _ _ w => State.memWrite_wf _ _ w) _ h

theorem engineStore_keeps {core ctx spec addr b} : (engineStore core ctx spec addr b).Keeps := by
  refine mk_keeps (fun t w => ?_)
  split
  next hc => exact checkStore_bad_wf hc w
  next hc => exact State.storeHits_wf (checkStore_ok_wf hc w)

/-! ## Machine/Field: fields and bricks -/

theorem readBrick_keeps {core ctx leaf} : (readBrick core ctx leaf).Keeps := by
  refine bind_keeps engineNat_keeps (fun a => ?_)
  split
  · exact pure_keeps
  · exact bind_keeps engineNat_keeps (fun a1 => pure_keeps)

theorem BrickMap.index_keeps {m core ctx b} : (BrickMap.index m core ctx b).Keeps :=
  bind_keeps engineNat_keeps (fun _ => pure_keeps)
theorem BrickMap.sample_keeps {m core ctx q c} : (BrickMap.sample m core ctx q c).Keeps :=
  bind_keeps sampleNat_keeps (fun _ => pure_keeps)

theorem BrickMap.locate_keeps {m core ctx p} : (BrickMap.locate m core ctx p).Keeps := by
  unfold BrickMap.locate
  split
  · exact pure_keeps
  · dsimp only
    split
    · exact pure_keeps
    · refine bind_keeps BrickMap.index_keeps (fun a => ?_)
      split
      · exact pure_keeps
      · exact bind_keeps (mapM_keeps (fun a => BrickMap.sample_keeps) _) (fun a => pure_keeps)

theorem BrickMap.point_keeps {m core ctx p} : (BrickMap.point m core ctx p).Keeps := by
  refine bind_keeps BrickMap.locate_keeps (fun a => ?_)
  split <;> exact pure_keeps
theorem BrickMap.gradient_keeps {m core ctx p} : (BrickMap.gradient m core ctx p).Keeps := by
  refine bind_keeps BrickMap.locate_keeps (fun a => ?_)
  split <;> exact pure_keeps

theorem BrickMap.box_keeps {m core ctx xyz} : (BrickMap.box m core ctx xyz).Keeps := by
  unfold BrickMap.box
  split
  · exact pure_keeps
  · split
    · exact pure_keeps
    · refine bind_keeps (mapM_keeps (fun a => bind_keeps BrickMap.index_keeps (fun a1 => ?_)) _) (fun a => pure_keeps)
      split
      · exact pure_keeps
      · exact mapM_keeps (fun a1 => BrickMap.sample_keeps) _

theorem Src.read_keeps {core ctx src off n} : (Src.read core ctx src off n).Keeps := by
  unfold Src.read
  split
  · exact engineBytes_keeps
  · split
    · exact throw_keeps
    · exact pure_keeps

theorem readOp_keeps {core ctx src len off} : (readOp core ctx src len off).Keeps := by
  unfold readOp
  split
  · exact pure_keeps
  · refine bind_keeps Src.read_keeps (fun a => ?_)
    dsimp only
    split
    · exact pure_keeps
    · exact bind_keeps Src.read_keeps (fun a1 => pure_keeps)

theorem opOk_keeps {core ctx op depth frames} : (opOk core ctx op depth frames).Keeps := by
  unfold opOk
  extract_lets a k depthOk frameOk immOk
  exact ite_keeps pure_keeps (ite_keeps (bind_keeps engineNat_keeps fun _ => pure_keeps) pure_keeps)

/-- A walk through a program of a field, from any place and with any state of its own, keeps the form if its step does. -/
theorem scan_keeps {σ : Type} {core ctx src len} {step : FOp → σ → Rd σ} (hk : ∀ o y, (step o y).Keeps) :
    ∀ {n off depth frames x}, (scan core ctx src len step n off depth frames x).Keeps
  | 0, _, _, _, _ => pure_keeps
  | n + 1, off, depth, frames, x => by
    unfold scan
    refine bind_keeps readOp_keeps fun o => ?_
    split
    · exact pure_keeps
    · refine bind_keeps opOk_keeps fun b => ?_
      split
      · exact pure_keeps
      · refine bind_keeps (hk _ _) fun y => ?_
        dsimp only
        split
        · exact pure_keeps
        · exact scan_keeps hk

theorem readProgram_keeps {core ctx src len} : (readProgram core ctx src len).Keeps :=
  bind_keeps (scan_keeps (fun _ _ => pure_keeps)) (fun _ => pure_keeps)

theorem brickValue_keeps {core ctx mode m xyz} : (brickValue core ctx mode m xyz).Keeps := by
  unfold brickValue
  split
  · split
    · exact pure_keeps
    · exact bind_keeps BrickMap.point_keeps (fun a => pure_keeps)
  · split
    · exact pure_keeps
    · exact bind_keeps BrickMap.box_keeps (fun a => pure_keeps)
  · split
    · exact pure_keeps
    · exact bind_keeps BrickMap.box_keeps (fun a => pure_keeps)

theorem evBrick_keeps {core ctx mode leaf xyz} : (evBrick core ctx mode leaf xyz).Keeps :=
  bind_keeps readBrick_keeps (fun _ => brickValue_keeps)

theorem evStep_keeps {core ctx mode op e} : (evStep core ctx mode op e).Keeps := by
  unfold evStep
  split
  · exact pure_keeps
  · exact pure_keeps
  · exact pure_keeps
  · exact pure_keeps
  · exact pure_keeps
  · exact pure_keeps
  · exact pure_keeps
  · exact pure_keeps
  · exact pure_keeps
  · exact pure_keeps
  · exact pure_keeps
  · exact pure_keeps
  · exact bind_keeps evBrick_keeps (fun a => pure_keeps)
  · exact pure_keeps
  · split <;> exact pure_keeps

theorem evRun_keeps {core ctx mode ops xyz} : (evRun core ctx mode ops xyz).Keeps := foldlM_keeps (fun _ _ => evStep_keeps) _ _

theorem progSource_keeps {core ctx tile addr} : (progSource core ctx tile addr).Keeps := by
  unfold progSource
  split
  · exact pure_keeps
  · exact bind_keeps engineNat_keeps (fun a => pure_keeps)

theorem namedProgram_keeps {core ctx tile addr} : (namedProgram core ctx tile addr).Keeps := by
  refine bind_keeps progSource_keeps (fun a => ?_)
  split
  · exact pure_keeps
  · exact readProgram_keeps

theorem sdfeLane_keeps {core ctx iv ops xyz} : (sdfeLane core ctx iv ops xyz).Keeps := by
  unfold sdfeLane
  split
  · exact pure_keeps
  · exact bind_keeps evRun_keeps (fun a => pure_keeps)

theorem withByteTile_wf {s : State} {a m k} (h : s.MemoryWf) (hk : ∀ t, (k t).Wf) : (withByteTile s a m k).Wf :=
  withTile_wf h (fun _ => hk _)

theorem withSource_wf {s : State} {f m k} (h : s.MemoryWf) (hk : ∀ t, (k t).Wf) : (withSource s f m k).Wf := by
  unfold withSource
  split
  · exact withByteTile_wf h (fun _ => hk _)
  · split
    · exact h
    · exact hk _

theorem execSdfe_wf {s : State} {f} (h : s.MemoryWf) : Out.Wf (execSdfe f s) := by
  unfold execSdfe
  extract_lets g m iv reg coords items
  refine settle_wf (Res.ite_wf h (orTrap_wf h (withSource_wf h fun t => ?_)))
  extract_lets run
  have hr : Rd.Keeps run.once := Rd.once_keeps (bind_keeps namedProgram_keeps fun _ => eachLane_keeps fun _ => sdfeLane_keeps)
  split
  next hc => exact hr.at_wf hc h
  next rs s1 hc =>
    have h1 : s1.MemoryWf := hr.at_wf hc h
    exact ite_wf h1 h1

theorem execSdfprune_wf {s : State} {f} (h : s.MemoryWf) : Out.Wf (execSdfprune f s) := by
  unfold execSdfprune
  extract_lets g form
  refine settle_wf (orTrap_wf h (withSource_wf h fun t => withByteTile_wf h fun d => ?_))
  extract_lets run
  have hr : Rd.Keeps run.once := by
    refine Rd.once_keeps (bind_keeps namedProgram_keeps fun ops => ?_)
    cases ops with
    | none => exact pure_keeps
    | some ops => exact bind_keeps evRun_keeps fun _ => pure_keeps
  split
  next hc => exact hr.at_wf hc h
  next ws out s1 hc =>
    have h1 : s1.MemoryWf := hr.at_wf hc h
    cases out with
    | none => exact h1
    | some b => exact h1

theorem execBsample_wf {s : State} {f} (h : s.MemoryWf) : Out.Wf (execBsample f s) := by
  unfold execBsample
  extract_lets g m addr items point
  refine settle_wf (Res.ite_wf h (orTrap_wf h (orTrap_wf h ?_)))
  rename_i run
  have hr : Rd.Keeps run.once := by
    refine Rd.once_keeps (bind_keeps readBrick_keeps fun b => eachLane_keeps fun i => ?_)
    cases b with
    | none => exact pure_keeps
    | some b => exact BrickMap.gradient_keeps
  split
  next hc => exact hr.at_wf hc h
  next hc => exact setV_foldl_wf (hr.at_wf hc h) _

/-! ## Machine/Ray: rays -/

theorem dropped_keeps {r : Rd Unit} (hk : r.Keeps) : (dropped r).Keeps := hk

theorem shaderEntry_keeps {core ctx sbt k} : (shaderEntry core ctx sbt k).Keeps := by
  refine bind_keeps engineNat_keeps (fun a => ?_)
  split
  · exact pure_keeps
  · refine bind_keeps engineNat_keeps (fun a1 => ?_)
    split
    · exact pure_keeps
    · exact bind_keeps (dropped_keeps engineStore_keeps) (fun a2 => pure_keeps)

theorem offer_keeps {core ctx r rec_ t prim shidx} : (offer core ctx r rec_ t prim shidx).Keeps := by
  unfold offer
  split
  · exact pure_keeps
  · refine bind_keeps shaderEntry_keeps (fun a => ?_)
    split <;> exact pure_keeps

theorem meshLoop_keeps {core ctx fr rec_ vtx idx shidx} : ∀ {n i r}, (meshLoop core ctx fr rec_ vtx idx shidx n i r).Keeps
  | 0, _, _ => pure_keeps
  | n + 1, i, r => by
    unfold meshLoop
    refine bind_keeps engineNat_keeps fun tri => bind_keeps (mapM_keeps (fun _ => bind_keeps engineNat_keeps fun _ => pure_keeps) _) fun vs => ?_
    split
    · exact meshLoop_keeps
    · refine bind_keeps offer_keeps fun o => ?_
      split
      · exact meshLoop_keeps
      · split
        · exact pure_keeps
        · exact meshLoop_keeps
      · exact pure_keeps

theorem leafValue_keeps {core ctx l fr} : (leafValue core ctx l fr).Keeps := by
  unfold leafValue
  split
  next mode xyz _ =>
    extract_lets iv
    exact ite_keeps (bind_keeps readBrick_keeps fun _ => bind_keeps brickValue_keeps fun _ => pure_keeps)
      (bind_keeps engineNat_keeps fun _ => bind_keeps (scan_keeps fun _ _ => evStep_keeps) fun _ => pure_keeps)

theorem afterLeaf_keeps {core ctx r rec_ idx shidx o} : (afterLeaf core ctx r rec_ idx shidx o).Keeps := by
  unfold afterLeaf
  split
  · exact pure_keeps
  · exact pure_keeps
  · exact pure_keeps
  · refine bind_keeps offer_keeps (fun a => ?_)
    split <;> exact pure_keeps

theorem leafStep_keeps {core ctx r l} : (leafStep core ctx r l).Keeps := by
  refine bind_keeps engineNat_keeps fun _ => ?_
  split
  · split
    · exact afterLeaf_keeps
    · refine bind_keeps shaderEntry_keeps fun _ => ?_
      split <;> exact pure_keeps
  · refine bind_keeps readBrick_keeps fun _ => ite_keeps pure_keeps (bind_keeps leafValue_keeps fun _ => ?_)
    split
    · exact pure_keeps
    · exact afterLeaf_keeps

theorem validated_keeps {core ctx leaf a} : (validated core ctx leaf a).Keeps := by
  unfold validated
  split
  · exact pure_keeps
  · split
    · exact pure_keeps
    · exact bind_keeps readProgram_keeps (fun a1 => bind_keeps (dropped_keeps engineStore_keeps) (fun a2 => pure_keeps))

theorem leafBegin_keeps {core ctx r addr inst idx a b} : (leafBegin core ctx r addr inst idx a b).Keeps := by
  refine bind_keeps engineNat_keeps (fun a1 => ?_)
  split
  · exact pure_keeps
  · refine bind_keeps engineNat_keeps (fun a2 => ?_)
    split
    · refine bind_keeps validated_keeps (fun a3 => ?_)
      split
      · exact afterLeaf_keeps
      · exact pure_keeps
    · refine bind_keeps readBrick_keeps (fun a3 => ?_)
      split
      · exact pure_keeps
      · exact afterLeaf_keeps
    · refine bind_keeps engineNat_keeps (fun a3 => bind_keeps meshLoop_keeps (fun a4 => ?_))
      split <;> exact pure_keeps
    · exact afterLeaf_keeps

theorem rayStart_keeps {core ctx r} : (rayStart core ctx r).Keeps := by
  unfold rayStart
  extract_lets ins
  exact ite_keeps pure_keeps (ite_keeps pure_keeps (ite_keeps pure_keeps (bind_keeps engineNat_keeps fun _ => ite_keeps pure_keeps pure_keeps)))

theorem rayAdvance_keeps {core ctx r} : (rayAdvance core ctx r).Keeps := by
  unfold rayAdvance
  refine ite_keeps rayStart_keeps ?_
  split
  · exact leafStep_keeps
  split
  · exact pure_keeps
  refine ite_keeps pure_keeps ?_
  split
  next inst _ _ _ =>
    refine bind_keeps engineNat_keeps fun _ => ?_
    cases inst with
    | none => exact pure_keeps
    | some i => exact bind_keeps engineNat_keeps fun _ => pure_keeps
  · exact bind_keeps engineNat_keeps fun _ => ite_keeps pure_keeps pure_keeps
  · exact leafBegin_keeps

theorem State.landRay_wf {s : State} {r words} (h : s.MemoryWf) : (s.landRay r words).MemoryWf := State.mapRayWords_wf h
theorem State.emptyRay_wf {s : State} {r} (h : s.MemoryWf) : (s.emptyRay r).MemoryWf := State.mapRayWords_wf h
theorem State.detachRay_wf {s : State} {gid lane} (h : s.MemoryWf) : (s.detachRay gid lane).MemoryWf := h

theorem State.cancelRay_wf {s : State} {lane} (h : s.MemoryWf) : (s.cancelRay lane).MemoryWf := by
  unfold State.cancelRay
  split
  · exact h
  next r _ =>
    extract_lets s1
    have h1 : s1.MemoryWf := State.detachRay_wf h
    split
    next s2 hp =>
      have h2 : s2.MemoryWf := snd_wf hp (by split <;> exact h1)
      exact State.MemoryWf.of_ms (ite_wf h2 (State.landRay_wf h2)) rfl

theorem State.cancelRays_wf {s : State} (h : s.MemoryWf) : s.cancelRays.MemoryWf :=
  State.foldl_wf (fun _ _ w => State.cancelRay_wf w) _ h
theorem rayFault_wf {s : State} {r t} (h : s.MemoryWf) : (rayFault r t s).MemoryWf :=
  ite_wf (ite_wf h (State.joinAll_wf h)) (State.landRay_wf h)

theorem execRayStep_wf {s : State} {core slot lane} (h : s.MemoryWf) : Out.Wf (execRayStep core slot lane s) := by
  refine done_wf (State.onSlot_wf _ _ (fun t w => ?_) h)
  split
  · exact w
  · refine ite_wf w ?_
    split
    next hc => exact rayFault_wf (rayAdvance_keeps.at_wf hc w)
    next hc => exact State.MemoryWf.of_ms (rayAdvance_keeps.at_wf hc w) rfl
    next hc => exact State.landRay_wf (rayAdvance_keeps.at_wf hc w)
    next hc => exact State.landRay_wf (rayAdvance_keeps.at_wf hc w)

theorem withResultTile_wf {s : State} {a m rowb k} (h : s.MemoryWf) (hk : ∀ t, (k t).Wf) : (withResultTile s a m rowb k).Wf :=
  withTile_wf h (fun _ => orTrap_wf h (hk _))

theorem execMarch_wf {s : State} {f} (h : s.MemoryWf) : Out.Wf (execMarch f s) := by
  unfold execMarch
  extract_lets g m rowb reg ray items
  refine settle_wf (Res.ite_wf h (orTrap_wf h (withResultTile_wf h fun _ => ?_)))
  refine State.foldl_wf (fun t i w => ?_) _ (t := s.closeIdem) h
  exact State.MemoryWf.of_ms (State.emptyRay_wf (State.cancelRay_wf w)) rfl

theorem execMres_wf {s : State} {f} (h : s.MemoryWf) : Out.Wf (execMres f s) := by
  unfold execMres
  extract_lets g m rowb
  exact settle_wf (Res.ite_wf h (orTrap_wf h (withResultTile_wf h fun _ => Res.ite_wf h (orTrap_wf h (setV_foldl_wf h _)))))

theorem execMresume_wf {s : State} {f} (h : s.MemoryWf) : Out.Wf (execMresume f s) := by
  refine settle_wf (Res.ite_wf h (orTrap_wf h (State.foldl_wf (fun t i w => ?_) _ h)))
  split
  · exact w
  · exact State.emptyRay_wf w

theorem execMcancel_wf {s : State} {f} (h : s.MemoryWf) : Out.Wf (execMcancel f s) :=
  settle_wf (r := .next _) (ite_wf h (State.foldl_wf (fun _ _ w => State.cancelRay_wf w) _ h))

/-! ## Machine/Trap: traps and system registers -/

theorem execMfs_wf {s : State} {f} (h : s.MemoryWf) : Out.Wf (execMfs f s) :=
  settle_wf (r := .next (State.setS _ _ _)) (State.MemoryWf.of_ms (ite_wf h h : State.MemoryWf (if f.imm = 0x11 then s.tick else s)) rfl)

theorem sysWrite_wf {s : State} {n x} (h : s.MemoryWf) : (sysWrite s n x).MemoryWf := by
  unfold sysWrite
  split
  · exact h
  · exact h
  · exact h
  · exact h
  · exact h
  · exact h
  · exact h
  · exact h
  · exact h
  · exact h
  · split <;> exact h
  · exact h

theorem execMts_wf {s : State} {f} (h : s.MemoryWf) : Out.Wf (execMts f s) :=
  settle_wf (orTrap_wf h (orTrap_wf h (sysWrite_wf h)))
theorem execTrap_wf {s : State} {f} (h : s.MemoryWf) : Out.Wf (execTrap f s) := settle_wf h
theorem execBrk_wf {s : State} {f} (h : s.MemoryWf) : Out.Wf (execBrk f s) := settle_wf h
theorem tretOp_wf {s : State} {skip} (h : s.MemoryWf) : (tretOp skip s).Wf :=
  mustBeLast_wf h (Res.ite_wf h (Res.ite_wf h (returnFromHandler_wf h)))
theorem execTret_wf {s : State} {f} (h : s.MemoryWf) : Out.Wf (execTret f s) := settle_wf (tretOp_wf h)
theorem execTretSkip_wf {s : State} {f} (h : s.MemoryWf) : Out.Wf (execTretSkip f s) := settle_wf (tretOp_wf h)

theorem execFwcallSys_wf {s : State} {f} (h : s.MemoryWf) : Out.Wf (execFwcallSys f s) := by
  refine settle_wf ?_
  split
  · exact h
  · exact h
  · exact orTrap_wf h (State.drain_wf h)

theorem execFwcallXz_wf {s : State} {f} (h : s.MemoryWf) : Out.Wf (execFwcallXz f s) :=
  settle_wf (Res.ite_wf h (orTrap_wf h (State.MemoryWf.of_ms h (State.mapR_ms _ _))))
theorem execFwcallReply_wf {s : State} {core slot reply} (h : s.MemoryWf) : Out.Wf (execFwcallReply core slot reply s) := by
  refine done_wf (State.onSlot_wf _ _ (fun t w => ?_) h)
  split <;> exact w
theorem execServe_wf {s : State} {core slot} (h : s.MemoryWf) : Out.Wf (execServe core slot s) :=
  done_wf (State.onSlot_wf _ _ (fun _ w => ite_wf w w) h)

/-! ## Machine/Save: saving and suspending -/

theorem State.setCtxState_wf {s : State} {n st} (h : s.MemoryWf) : (s.setCtxState n st).MemoryWf := State.memPut_wf _ _ _ h
theorem State.bumpPcnt_wf {s : State} {n} (h : s.MemoryWf) : (s.bumpPcnt n).MemoryWf := State.memPut_wf _ _ _ h

theorem State.ctxRuns_wf {s : State} {n} (h : s.MemoryWf) : (s.ctxRuns n).MemoryWf := by
  unfold State.ctxRuns
  split
  · split
    · exact State.setCtxState_wf h
    · exact h
  · exact h

theorem State.ctxRests_wf {s : State} {n} (h : s.MemoryWf) : (s.ctxRests n).MemoryWf := by
  unfold State.ctxRests
  split
  · split
    · exact State.setCtxState_wf h
    · exact h
  · exact h

theorem State.showQueue_wf {s : State} {q} (h : s.MemoryWf) : (s.showQueue q).MemoryWf := by
  unfold State.showQueue
  split
  · exact h
  · exact State.ctxPut_wf (State.ctxPut_wf (State.ctxPut_wf (State.ctxPut_wf h)))

theorem State.mapQueue_wf {s : State} {ctx q f} (h : s.MemoryWf) : (s.mapQueue ctx q f).MemoryWf := by
  unfold State.mapQueue
  split
  · exact h
  · exact State.showQueue_wf h

theorem State.suspendQueues_wf {s : State} {ctx} (h : s.MemoryWf) : (s.suspendQueues ctx).MemoryWf :=
  State.foldl_wf (fun _ _ w => State.mapQueue_wf w) _ h
theorem State.resumeQueues_wf {s : State} {ctx} (h : s.MemoryWf) : (s.resumeQueues ctx).MemoryWf :=
  State.foldl_wf (fun _ _ w => State.mapQueue_wf w) _ h

theorem State.writeImage_wf {s : State} (h : s.MemoryWf) : s.writeImage.MemoryWf := by
  unfold State.writeImage
  split
  · exact h
  · exact State.foldl_wf (fun t x w => State.ctxWrite_wf w) _ h

theorem State.writeTile_wf {s : State} {c t at_} (h : s.MemoryWf) : (s.writeTile c t at_).MemoryWf := by
  unfold State.writeTile
  split
  · exact State.ctxWrite_wf h
  · exact State.foldl_wf (fun t1 x1 w => State.ctxWrite_wf (State.ctxWrite_wf w)) _ (State.ctxWrite_wf h)

theorem State.saveTile_wf {s : State} {image t} (h : s.MemoryWf) : (s.saveTile image t).MemoryWf := by
  unfold State.saveTile
  extract_lets at_ _ s1
  have h1 : s1.MemoryWf := h
  split
  · exact ite_wf (State.writeTile_wf h1) h1
  · exact h1

theorem State.beginSave_wf {s : State} {kill} (h : s.MemoryWf) : (s.beginSave kill).MemoryWf := by
  have hs : s.unreplayable.endRegion.MemoryWf := State.endRegion_wf h
  unfold State.beginSave
  extract_lets g
  split
  · exact ite_wf h (ite_wf h hs)
  · exact ite_wf h (ite_wf h hs)
  · exact ite_wf h (ite_wf h hs)
  · exact h

theorem State.releaseBound_wf {s : State} {g} (h : s.MemoryWf) : (s.releaseBound g).MemoryWf :=
  State.foldl_wf (fun _ _ w => State.endIn_wf w) _ (State.foldl_wf (fun _ _ w => State.freeTile_wf w) _ h)

theorem State.withdraw_wf {s : State} {g} (h : s.MemoryWf) : (s.withdraw g).MemoryWf := by
  unfold State.withdraw
  extract_lets s1 s2
  have h2 : s2.MemoryWf := State.releaseBound_wf h
  split
  · exact h2
  · split
    · exact h2
    · exact State.mapGrid_wf h2

theorem State.saveDraws_wf {s : State} {n} (h : s.MemoryWf) : (s.saveDraws n).MemoryWf := by
  unfold State.saveDraws
  split
  · exact h
  · extract_lets s1 free s2
    have h1 : s1.MemoryWf := State.foldl_wf (fun _ _ w => State.foldl_wf (fun _ _ w => State.ctxPut_wf (State.ctxPut_wf w)) _ w) _ h
    clear_value s1
    exact h1

theorem State.detach_wf {s : State} {gid} (h : s.MemoryWf) : (s.detach gid).MemoryWf := h

theorem State.leaveSlot_wf {s : State} {image} (h : s.MemoryWf) : (s.leaveSlot image).MemoryWf := by
  unfold State.leaveSlot
  extract_lets g s1 s2 _ s3 s4
  have h2 : s2.MemoryWf := State.foldl_wf (fun _ _ w => State.saveTile_wf w) _ (State.detach_wf h)
  have h3 : s3.holdBars.MemoryWf := State.holdBars_wf h2
  exact State.spillBars_wf (ite_wf (State.writeImage_wf h3) h3)

theorem State.abandonLoad_wf {s : State} (h : s.MemoryWf) : s.abandonLoad.MemoryWf := by
  unfold State.abandonLoad
  split
  · exact h
  · exact State.leaveSlot_wf h

theorem State.suspendCtx_wf {s : State} {n kill} (h : s.MemoryWf) : (s.suspendCtx n kill).MemoryWf := by
  unfold State.suspendCtx
  extract_lets s1 s2 s3 s4 s5 s6 s7
  have h3 : s3.MemoryWf := State.suspendQueues_wf h
  have h4 : s4.MemoryWf := State.foldl_wf (fun _ _ w => State.withdraw_wf w) _ h3
  have h5 : s5.MemoryWf := State.foldl_wf (fun _ _ w => State.onGroup_wf _ (fun _ w => State.abandonLoad_wf w) w) _ h4
  have h6 : s6.MemoryWf := State.foldl_wf (fun _ _ w => State.onGroup_wf _ (fun _ w => State.beginSave_wf w) w) _ h5
  have h7 : s7.MemoryWf := State.saveDraws_wf (State.spillIdle_wf h6)
  clear_value s7
  exact h7

theorem State.markFaulted_wf {s : State} {n cause addr} (h : s.MemoryWf) : (s.markFaulted n cause addr).MemoryWf :=
  State.memPut_wf _ _ _ (State.memPut_wf _ _ _ (State.setCtxState_wf h))

theorem State.failCtx_wf {s : State} {n cause addr} (h : s.MemoryWf) : (s.failCtx n cause addr).MemoryWf := by
  unfold State.failCtx
  split
  · exact h
  · exact State.suspendCtx_wf (State.markFaulted_wf h)

theorem State.quarantineCtx_wf {s : State} {n cause addr} (h : s.MemoryWf) : (s.quarantineCtx n cause addr).MemoryWf := by
  unfold State.quarantineCtx
  split
  · exact h
  · split
    · exact State.failCtx_wf h
    · exact State.failCtx_wf h
    · exact State.markFaulted_wf h
    · exact State.markFaulted_wf h
    · exact State.markFaulted_wf h
    · exact State.markFaulted_wf h
    · exact State.markFaulted_wf h
    · exact h

theorem State.endSave_wf {s : State} (h : s.MemoryWf) : s.endSave.MemoryWf :=
  State.ctxRests_wf (ite_wf (State.leaveSlot_wf h) (State.leaveSlot_wf (State.drain_wf h)))
theorem State.endKill_wf {s : State} (h : s.MemoryWf) : s.endKill.MemoryWf := by
  refine State.leaveSlot_wf (State.endRegion_wf (State.drain_wf ?_))
  split <;> exact h

theorem State.dropGroup_wf {s : State} {cancelled} (h : s.MemoryWf) : (s.dropGroup cancelled).MemoryWf := by
  unfold State.dropGroup
  extract_lets s1 g gone s2 s3 s4 _ _ _ s5 s6 _ s7
  have h2 : s2.MemoryWf := State.foldl_wf (fun _ _ w => State.freeTile_wf w) _ (State.drain_wf h)
  have h3 : s3.MemoryWf := State.foldl_wf (fun _ _ w => by exact w) _ h2
  have h4 : s4.MemoryWf := State.dropAllBars_wf (State.detach_wf h3)
  clear_value s4
  have h5 : s5.MemoryWf := h4
  have h6 : s6.MemoryWf := State.settleTokens_wf h5
  clear_value s6
  have h7 : s7.MemoryWf := h6
  exact State.ctxRests_wf h7

theorem State.holdWrite_wf {s : State} {w pages} (h : s.MemoryWf) : (s.holdWrite w pages).MemoryWf := by
  unfold State.holdWrite
  extract_lets w s1
  split
  next s2 ids hp =>
    have h2 : s2.MemoryWf := fst_wf hp (by split; exact State.joinAll_wf h; exact h)
    exact h2

theorem State.writeFails_wf {s : State} {w cause} (h : s.MemoryWf) : (s.writeFails w cause).MemoryWf := by
  unfold State.writeFails
  split <;> split <;> exact State.failCtx_wf h

theorem State.devWrite_wf {s : State} {w} (h : s.MemoryWf) : (s.devWrite w).1.MemoryWf := by
  unfold State.devWrite
  split
  · split
    next hc1 => exact State.memWrite_wf _ _ (checkAccess_ok_wf hc1 h)
    next hc1 => exact checkAccess_ok_wf hc1 h
  next hc =>
    split
    · exact State.holdWrite_wf (checkAccess_bad_wf hc h)
    · exact State.writeFails_wf (checkAccess_bad_wf hc h)

theorem State.devPut_wf {s : State} {w} (h : s.MemoryWf) : (s.devPut w).MemoryWf := State.devWrite_wf h

theorem State.endDraw_wf {s : State} {d} (h : s.MemoryWf) : (s.endDraw d).MemoryWf := by
  unfold State.endDraw
  split
  · exact h
  · exact State.devPut_wf h

/-! ## Machine/Pool: the pool and cancelling -/

theorem State.toAdmissible_wf {s : State} {e} (h : s.MemoryWf) : (s.toAdmissible e).MemoryWf := by
  unfold State.toAdmissible
  split <;> exact h
theorem State.sweepPool_wf {s : State} (h : s.MemoryWf) : s.sweepPool.MemoryWf := h
theorem State.freeJoined_wf {s : State} {e} (h : s.MemoryWf) : (s.freeJoined e).MemoryWf := h
theorem State.dropPlaced_wf {s : State} {t} (h : s.MemoryWf) : (s.dropPlaced t).MemoryWf := h
theorem State.setPos_wf {s : State} {q p} (h : s.MemoryWf) : (s.setPos q p).MemoryWf := by
  unfold State.setPos
  split <;> exact h

theorem State.discardGroup_wf {s : State} {g} (h : s.MemoryWf) : (s.discardGroup g).MemoryWf := by
  unfold State.discardGroup
  split
  · exact State.releaseBound_wf h
  · exact State.onGroup_wf _ (fun t w => State.dropGroup_wf w) h
  · exact State.onGroup_wf _ (fun t w => State.dropGroup_wf w) h
  · exact h
  · split
    · exact State.mapGroup_wf h
    · exact State.mapGroup_wf (State.detach_wf h)

theorem State.cancelEntry_wf {s : State} {e} (h : s.MemoryWf) : (s.cancelEntry e).MemoryWf := by
  unfold State.cancelEntry
  extract_lets s1 s2 s3 left s4
  have h2 : s2.MemoryWf := h
  have h3 : s3.MemoryWf := by
    unfold s3
    split
    · split
      · exact ite_wf (State.freeTile_wf h2) h2
      · exact h2
    · exact h2
  exact State.foldl_wf (fun _ _ w => State.discardGroup_wf w) _ (State.foldl_wf (fun _ _ w => State.freeTile_wf w) _ h3)

theorem State.cancelMark_wf {s : State} {ctx ctr} (h : s.MemoryWf) : (s.cancelMark ctx ctr).MemoryWf := by
  unfold State.cancelMark
  split
  · exact h
  · exact State.devPut_wf h

theorem State.closeRange_wf {s : State} {r} (h : s.MemoryWf) : (s.closeRange r).MemoryWf := by
  unfold State.closeRange
  split <;> exact h

theorem State.countJobs_wf {s : State} {ctx q} (h : s.MemoryWf) : (s.countJobs ctx q).MemoryWf := by
  unfold State.countJobs
  split
  · exact h
  · split
    · exact State.mapQueue_wf h
    · exact State.foldl_wf (fun t x w => State.devPut_wf w) _ (State.mapQueue_wf h)

theorem State.cancelRun_wf {s : State} {r} (h : s.MemoryWf) : (s.cancelRun r).MemoryWf :=
  State.countJobs_wf (State.MemoryWf.of_ms (ite_wf h (State.mapQueue_wf h)) rfl)

theorem State.cancelOne_wf {s : State} {t} (h : s.MemoryWf) : (s.cancelOne t).1.MemoryWf := by
  unfold State.cancelOne
  split
  case h_1 =>
    split
    · exact h
    split
    · exact h
    · exact State.cancelEntry_wf h
  case h_2 =>
    split
    · exact h
    split
    · exact h
    extract_lets s1
    have h1 : s1.MemoryWf := h
    split
    · exact h1
    · exact h1
    · exact State.cancelRun_wf (State.closeRange_wf h1)
    · exact State.cancelRun_wf (State.closeRange_wf h1)
    · exact State.cancelRun_wf h1
    · exact State.cancelRun_wf h1
    · exact State.cancelRun_wf h1
  case h_3 id =>
    split
    · exact h
    split
    · exact h
    extract_lets all _ s1 seq s2
    have h2 : s2.MemoryWf := State.dropPlaced_wf (t := .walk id) h
    exact State.cancelMark_wf h2
  case h_4 id it =>
    split
    · exact h
    split
    · exact h
    extract_lets all s1
    have h1 : s1.MemoryWf := ite_wf h h
    exact State.closeRange_wf (State.dropPlaced_wf h1)
  case h_5 ctx q j =>
    split
    · exact h
    split
    · extract_lets all seq s1 s2 s3
      have h1 : s1.MemoryWf := State.dropPlaced_wf (t := .job ctx q j) h
      exact State.cancelMark_wf (State.mapQueue_wf h1)
    split
    · extract_lets all next_ s1 s2 s3
      have h1 : s1.MemoryWf := State.dropPlaced_wf (t := .job ctx q j) h
      have h2 : s2.MemoryWf := ite_wf h1 h1
      exact State.cancelMark_wf (State.mapQueue_wf h2)
    · exact h
  case h_6 => exact State.dropPlaced_wf h

theorem State.cancelAll_wf : ∀ {n : Nat} {l : List Target} {s : State}, s.MemoryWf → (State.cancelAll n l s).MemoryWf
  | 0, _, _, h => h
  | _ + 1, [], _, h => h
  | n + 1, t :: r, s, h => by
    unfold State.cancelAll
    exact cancelAll_wf (State.cancelOne_wf h)

theorem State.cancel_wf {s : State} {t} (h : s.MemoryWf) : (s.cancel t).MemoryWf := State.sweepPool_wf (State.cancelAll_wf h)

theorem State.becomeReady_wf {s : State} {e} (h : s.MemoryWf) : (s.becomeReady e).MemoryWf := by
  unfold State.becomeReady
  split
  · exact State.toAdmissible_wf h
  · exact State.cancel_wf h

theorem State.decPred_wf {s : State} {ctx t} (h : s.MemoryWf) : (s.decPred ctx t).MemoryWf := by
  unfold State.decPred
  split
  · exact h
  · split
    · exact h
    · split
      · exact State.becomeReady_wf h
      · exact h
    · exact h

theorem State.runSucc_wf {ctx die} : ∀ {l : List W64} {s : State}, s.MemoryWf → (s.runSucc ctx die l).MemoryWf
  | [], _, h => h
  | x :: r, s, h => by
    unfold State.runSucc
    split
    · exact runSucc_wf (State.decPred_wf h)
    · split
      next hc => exact runSucc_wf (fst_wf hc (State.devWrite_wf h))
      next hc => exact fst_wf hc (State.devWrite_wf h)
    · exact runSucc_wf h

theorem State.rangeAction_wf {s : State} {ctx die wb drop va n} (h : s.MemoryWf) :
    (s.rangeAction ctx die wb drop va n).1.MemoryWf := by
  refine List.foldlRecOn (motive := fun p : State × Bool => p.1.MemoryWf) _ _ h fun p w x _ => ?_
  split
  next hc =>
    have h1 := checkAccess_ok_wf hc w
    split
    · exact State.lineAction_wf h1
    · exact h1
  next hc => exact checkAccess_bad_wf hc w

theorem State.wsBefore_wf {s : State} {ctx die w} (h : s.MemoryWf) : (s.wsBefore ctx die w).MemoryWf := by
  unfold State.wsBefore
  split
  · exact State.rangeAction_wf h
  · exact h

theorem State.wsAfter_wf {s : State} {ctx die w} (h : s.MemoryWf) : (s.wsAfter ctx die w).1.MemoryWf := by
  unfold State.wsAfter
  split
  · exact State.rangeAction_wf h
  · exact State.rangeAction_wf h
  · exact State.rangeAction_wf h
  · exact h

theorem State.wsAfterAll_wf {s : State} {ctx die ws} (h : s.MemoryWf) : (s.wsAfterAll ctx die ws).1.MemoryWf :=
  List.foldlRecOn (motive := fun p : State × Bool => p.1.MemoryWf) ws _ h fun _ w _ _ => State.wsAfter_wf w

theorem State.launchEnds_wf {s : State} {die entry} (h : s.MemoryWf) : (s.launchEnds die entry).MemoryWf := by
  unfold State.launchEnds
  split
  · exact h
  · split
    · exact h
    · split
      next s1 down hp =>
        have h1 : s1.MemoryWf := fst_wf hp (State.wsAfterAll_wf h)
        split
        · exact h1
        · extract_lets s2 s3 s4 refs s5
          have h4 : s4.MemoryWf := h1
          refine State.sweepPool_wf ?_
          have h5 : s5.MemoryWf := by
            unfold s5
            split
            · exact State.runSucc_wf h4
            · split
              next hc => exact State.runSucc_wf (fst_wf hc (State.devWrite_wf h4))
              next hc => exact fst_wf hc (State.devWrite_wf h4)
          exact h5

theorem State.endUnit_wf {s : State} (h : s.MemoryWf) : s.endUnit.MemoryWf := by
  unfold State.endUnit
  split
  · exact h
  · extract_lets s1 _ s2
    have h2 : s2.MemoryWf := State.drain_wf h
    split
    · exact h2
    · exact ite_wf h2 (State.devPut_wf h2)

theorem State.afterGroup_wf {s : State} {g} (h : s.MemoryWf) : (s.afterGroup g).MemoryWf := by
  unfold State.afterGroup
  extract_lets own s1 s2 s3
  clear_value own
  cases own with
  | none => exact State.sweepPool_wf (State.foldl_wf (fun _ _ w => State.cancel_wf w) _ h)
  | some e =>
    have h1 : s1.MemoryWf := State.mapGrid_wf h
    exact State.launchEnds_wf (State.sweepPool_wf (State.foldl_wf (fun _ _ w => State.cancel_wf w) _ h1))

/-! ## Machine/Launch: launches -/

theorem groupBytes_keeps {addr n} : (groupBytes addr n).Keeps := by
  refine mk_keeps (fun t w => ?_)
  split
  next hc => exact checkAccess_bad_wf hc w
  next hc =>
    split <;> exact checkAccess_ok_wf hc w

theorem groupNat_keeps {addr n} : (groupNat addr n).Keeps := bind_keeps groupBytes_keeps (fun _ => pure_keeps)
theorem State.endGroup_wf {s : State} (h : s.MemoryWf) : s.endGroup.MemoryWf :=
  State.afterGroup_wf (State.dropGroup_wf (State.endUnit_wf (State.cancelRays_wf h)))
theorem execExit_wf {s : State} {f} (h : s.MemoryWf) : Out.Wf (execExit f s) := by
  have h1 : s.closeIdem.endAtStart.drain.MemoryWf := State.drain_wf (State.endAtStart_wf h)
  exact settle_wf (mustBeLast_wf h (Res.ite_wf h1 (State.endGroup_wf h1)))

theorem execFetch_wf {s : State} {f} (h : s.MemoryWf) : Out.Wf (execFetch f s) := by
  have h1 : s.closeIdem.endUnit.MemoryWf := State.endUnit_wf h
  refine settle_wf ?_
  split
  · exact h1
  · split
    · exact h1
    · split
      · exact ite_wf h h1
      · exact h1

theorem State.enterPool_some_wf {s s1 : State} {core c rc k ws die x m a} (hc : s.enterPool core c rc k ws die x m = some (s1, a)) (h : s.MemoryWf) :
    s1.MemoryWf := by
  obtain ⟨p, -, e⟩ := Option.map_eq_some_iff.1 hc
  cases e
  refine ite_wf (State.becomeReady_wf ?_) ?_ <;> (split <;> exact h)

theorem readLaunch_keeps {cores addr} : (readLaunch cores addr).Keeps := by
  refine bind_keeps groupNat_keeps (fun a => bind_keeps groupNat_keeps (fun a1 => ?_))
  split
  · exact pure_keeps
  · exact bind_keeps (mapM_keeps (fun a2 => groupNat_keeps) _) (fun a2 => pure_keeps)

theorem execLaunch_wf {s : State} {f} (h : s.MemoryWf) : Out.Wf (execLaunch f s) := by
  refine settle_wf (orTrap_wf h ?_)
  split
  · exact h
  · split
    next hc => exact readLaunch_keeps.at_wf hc h
    next hc => exact readLaunch_keeps.at_wf hc h
    next rc kd ws s1 hc =>
      have h1 : s1.MemoryWf := readLaunch_keeps.at_wf hc h
      split
      · exact h1
      · extract_lets s2
        have h2 : s2.MemoryWf := State.endRegion_wf (State.drain_wf h1)
        split
        · exact h2
        next s3 e hd =>
          have h3 : s3.MemoryWf := State.enterPool_some_wf hd h2
          exact h3

theorem State.endJoin_wf {s : State} {f x} (h : s.MemoryWf) : (s.endJoin f x).MemoryWf := h

theorem execJoin_wf {s : State} {f} (h : s.MemoryWf) : Out.Wf (execJoin f s) := by
  have h1 : s.unreplayable.endAtStart.MemoryWf := State.endAtStart_wf h
  have h2 : s.endAtStart.MemoryWf := State.endAtStart_wf h
  refine settle_wf (orTrap_wf h ?_)
  split
  · exact State.endJoin_wf h1
  · exact Res.ite_wf (State.endJoin_wf h1) (Res.ite_wf (State.endJoin_wf h1) (Res.ite_wf (State.freeJoined_wf (State.endJoin_wf h1)) h2))

theorem execHpass_wf {s : State} {f} (h : s.MemoryWf) : Out.Wf (execHpass f s) := by
  refine settle_wf (orTrap_wf h (withTile_wf h fun t => ?_))
  split
  · exact h
  · split
    · exact h
    · extract_lets s1 s2 e s3
      have h1 : s1.MemoryWf := State.endRegion_wf h
      have h3 : s3.MemoryWf := h1
      exact ite_wf (State.becomeReady_wf h3) h3

theorem execLinfo_wf {s : State} {f} (h : s.MemoryWf) : Out.Wf (execLinfo f s) := settle_wf h

/-! ## Machine/Queue: queues and packets -/

theorem execQueueCreate_wf {s : State} {ctx q} (h : s.MemoryWf) : Out.Wf (execQueueCreate ctx q s) := by
  refine done_wf ?_
  split
  · exact h
  · exact ite_wf (State.seen_wf h) (State.showQueue_wf (State.seen_wf h))

theorem State.ringWord_wf {s : State} {c q} (h : s.MemoryWf) : (s.ringWord c q).MemoryWf := by
  unfold State.ringWord
  split
  · exact h
  · exact State.mapQueue_wf (State.seen_wf h)

theorem State.doorbell_wf {s : State} {ctx q value} (h : s.MemoryWf) : (s.doorbell ctx q value).MemoryWf := by
  unfold State.doorbell
  split
  · split
    · exact h
    · exact State.mapQueue_wf (State.ctxPut_wf h)
  · exact h

theorem execDoorbellWrite_wf {s : State} {ctx q value} (h : s.MemoryWf) : Out.Wf (execDoorbellWrite ctx q value s) :=
  done_wf (State.whenAwake_wf _ (fun _ w => State.doorbell_wf w) h)

theorem State.freeQueue_wf {s : State} {ctx q} (h : s.MemoryWf) : (s.freeQueue ctx q).MemoryWf := by
  unfold State.freeQueue
  extract_lets mine _ s1 s2 none_ s3 s4
  have h2 : s2.MemoryWf := State.foldl_wf (fun _ _ w => State.cancel_wf w) _ h
  have h3 : s3.MemoryWf := by
    unfold s3
    split
    · exact State.ctxPut_wf h2
    · exact h2
  exact h3

theorem execQueueDestroy_wf {s : State} {ctx q} (h : s.MemoryWf) : Out.Wf (execQueueDestroy ctx q s) := by
  refine done_wf ?_
  split
  · exact State.freeQueue_wf h
  · exact h

theorem State.nextPacket_keeps {s : State} {q} (_ : s.MemoryWf) : (s.nextPacket q).Keeps := by
  unfold State.nextPacket
  split
  · split
    · split
      · exact pure_keeps
      · exact engineBytes_keeps
    · exact pure_keeps
  · exact pure_keeps

theorem State.consume_wf {s : State} {q b passed} (h : s.MemoryWf) : (s.consume q b passed).MemoryWf := by
  unfold State.consume
  split
  · split
    · exact State.countJobs_wf (State.mapQueue_wf h)
    · exact State.mapQueue_wf h
  · exact State.setPos_wf h

theorem State.reject_wf {s : State} {q index err m run} (h : s.MemoryWf) : (s.reject q index err m run).MemoryWf := by
  unfold State.reject
  extract_lets e s1 s2
  have h1 : s1.MemoryWf := State.cancel_wf (State.mapQueue_wf h)
  have h2 : s2.MemoryWf := ite_wf h1 (State.cancel_wf h1)
  exact ite_wf h2 (State.cancel_wf h2)

theorem State.packetFault_wf {s : State} {q who index m t run} (h : s.MemoryWf) : (s.packetFault q who index m t run).MemoryWf :=
  ite_wf (ite_wf (State.joinAll_wf h) h) (State.reject_wf h)
theorem State.nextFault_wf {s : State} {q t} (h : s.MemoryWf) : (s.nextFault q t).MemoryWf := State.packetFault_wf h
theorem State.runFault_wf {s : State} {r t} (h : s.MemoryWf) : (s.runFault r t).MemoryWf := State.packetFault_wf h

theorem State.loseJob_wf {s : State} {q} (h : s.MemoryWf) : (s.loseJob q).MemoryWf := by
  unfold State.loseJob
  split
  · exact State.mapQueue_wf h
  · exact h

theorem State.startRun_wf {s : State} {q b} (h : s.MemoryWf) : (s.startRun q b).1.MemoryWf := State.consume_wf h

/-- The stages that the packets of a queue share, before `start` does what the packet asks for. -/
theorem packetStep_wf {s : State} {kind q start} (h : s.MemoryWf) (hk : ∀ t b, t.MemoryWf → (start t b).MemoryWf) :
    (packetStep kind q start s).MemoryWf := by
  unfold packetStep
  refine ite_wf h ?_
  split
  next hc => exact State.nextFault_wf ((State.nextPacket_keeps h).at_wf hc h)
  next hc =>
    have h1 := (State.nextPacket_keeps h).at_wf hc h
    exact ite_wf h1 (ite_wf (State.consume_wf (State.loseJob_wf h1)) (ite_wf (State.reject_wf h1) (ite_wf h1 (hk _ _ h1))))

theorem readRecord_keeps {core ctx cores r} : (readRecord core ctx cores r).Keeps := by
  refine bind_keeps engineNat_keeps (fun a => ?_)
  split
  · exact pure_keeps
  · exact bind_keeps (mapM_keeps (fun a1 => engineNat_keeps) _) (fun a1 => pure_keeps)

theorem startRecord_wf {s : State} {q rec_ b} (h : s.MemoryWf) (hk : ∀ core, (rec_ core).Keeps) :
    (startRecord q rec_ s b).MemoryWf := by
  unfold startRecord
  extract_lets die core
  split
  · exact h
  extract_lets read
  have hr : Rd.Keeps read := by
    refine bind_keeps (hk _) fun o => ?_
    cases o with
    | none => exact pure_keeps
    | some r => exact readRecord_keeps
  split
  next hc => exact State.nextFault_wf (hr.at_wf hc h)
  next hc => exact State.reject_wf (hr.at_wf hc h)
  next hc =>
    have h1 := hr.at_wf hc h
    split
    · exact h1
    split
    next s2 r hs =>
      have h2 : s2.MemoryWf := fst_wf hs (State.startRun_wf h1)
      extract_lets s3
      have h3 : s3.MemoryWf := h2
      split
      next he => exact State.enterPool_some_wf he h3
      · exact h3

theorem execLaunchPacket_wf {s : State} {q} (h : s.MemoryWf) : Out.Wf (execLaunchPacket q s) :=
  done_wf (packetStep_wf h (fun _ _ w => startRecord_wf w (fun _ => bind_keeps engineNat_keeps (fun _ => pure_keeps))))
theorem execTaskPacket_wf {s : State} {q} (h : s.MemoryWf) : Out.Wf (execTaskPacket q s) :=
  done_wf (packetStep_wf h (fun _ _ w => startRecord_wf w (fun _ => pure_keeps)))
theorem execCopyPacket_wf {s : State} {q} (h : s.MemoryWf) : Out.Wf (execCopyPacket q s) :=
  done_wf (packetStep_wf h (fun _ _ w => State.consume_wf w))
theorem moveUnit_keeps {core ctx src dst n} : (moveUnit core ctx src dst n).Keeps :=
  bind_keeps engineBytes_keeps (fun _ => bind_keeps engineStore_keeps (fun _ => pure_keeps))

theorem State.countRecord_wf {s : State} {run ctx die ring} (h : s.MemoryWf) : (s.countRecord run ctx die ring).MemoryWf := by
  unfold State.countRecord
  split
  next hc => exact State.MemoryWf.of_ms (fst_wf hc (State.devWrite_wf h)) rfl
  next hc1 => exact fst_wf hc1 (State.devWrite_wf h)

theorem State.ringFails_wf {s : State} {r} (h : s.MemoryWf) : (s.ringFails r).MemoryWf := by
  refine State.cancelRun_wf ?_
  split
  · exact h
  · exact State.reject_wf h

theorem State.copyRecord_wf {s : State} {r} (h : s.MemoryWf) : (s.copyRecord r).MemoryWf := by
  unfold State.copyRecord
  extract_lets ctx die ring
  split
  next t s1 hc =>
    have h1 : s1.MemoryWf := engineBytes_keeps.at_wf hc h
    split
    · exact ite_wf (State.joinAll_wf h1) h1
    · exact State.ringFails_wf h1
  next d s1 hc =>
    have h1 : s1.MemoryWf := engineBytes_keeps.at_wf hc h
    extract_lets w n
    split
    · exact h1
    · split
      next hd => exact State.countRecord_wf (fst_wf hd (State.devWrite_wf h1))
      next hd => exact fst_wf hd (State.devWrite_wf h1)

theorem State.copyStep_wf {s : State} {r} (h : s.MemoryWf) : (s.copyStep r).MemoryWf := by
  unfold State.copyStep
  split
  extract_lets die
  split
  next hc => exact State.MemoryWf.of_ms (moveUnit_keeps.at_wf hc h) rfl
  next hc =>
    have h1 := moveUnit_keeps.at_wf hc h
    exact ite_wf (ite_wf (State.joinAll_wf h1) h1) h1

theorem execCopyRecordWrite_wf {s : State} {run} (h : s.MemoryWf) : Out.Wf (execCopyRecordWrite run s) := by
  refine done_wf ?_
  split
  · exact h
  · exact ite_wf h (ite_wf (State.copyRecord_wf h) (ite_wf (State.copyRecord_wf h) (ite_wf h (State.copyStep_wf h))))

theorem readGraph_keeps {core ctx a} : (readGraph core ctx a).Keeps :=
  bind_keeps engineNat_keeps fun _ => ite_keeps pure_keeps
    (bind_keeps (mapM_keeps (fun _ => engineBytes_keeps) _) fun _ => ite_keeps pure_keeps (ite_keeps pure_keeps pure_keeps))

theorem execGraphPacket_wf {s : State} {q} (h : s.MemoryWf) : Out.Wf (execGraphPacket q s) := by
  refine done_wf (packetStep_wf h fun t b w => ?_)
  dsimp only
  split
  next hc => exact State.nextFault_wf (readGraph_keeps.at_wf hc w)
  next hc => exact State.reject_wf (readGraph_keeps.at_wf hc w)
  next hc => exact State.startRun_wf (readGraph_keeps.at_wf hc w)

theorem testWord_keeps {core ctx b} : (testWord core ctx b).Keeps := bind_keeps engineNat_keeps (fun _ => pure_keeps)
theorem State.openRange_wf {s : State} {q r} (h : s.MemoryWf) : (s.openRange q r).MemoryWf := h

theorem execCondPacket_wf {s : State} {q} (h : s.MemoryWf) : Out.Wf (execCondPacket q s) := by
  refine done_wf (packetStep_wf h fun t b w => ?_)
  dsimp only
  split
  · exact State.reject_wf w
  · split
    next hc => exact State.nextFault_wf (testWord_keeps.at_wf hc w)
    next s1 hc =>
      have h1 : s1.MemoryWf := testWord_keeps.at_wf hc w
      exact State.openRange_wf (State.startRun_wf h1)
    next s1 hc =>
      have h1 : s1.MemoryWf := testWord_keeps.at_wf hc w
      exact State.openRange_wf (State.MemoryWf.of_ms (State.startRun_wf h1) rfl)

theorem execLoopPacket_wf {s : State} {q} (h : s.MemoryWf) : Out.Wf (execLoopPacket q s) := by
  refine done_wf (packetStep_wf h (fun _ _ w => ?_))
  split
  next hc =>
    dsimp only
    split
    · exact State.reject_wf w
    · exact State.openRange_wf (fst_wf hc (State.startRun_wf w))

theorem State.loopTest_wf {s : State} {r} (h : s.MemoryWf) : (s.loopTest r).MemoryWf := by
  unfold State.loopTest
  extract_lets s1 q max
  have h1 : s1.MemoryWf := h
  split
  next hc => exact State.runFault_wf (testWord_keeps.at_wf hc h1)
  next hc =>
    have h2 := testWord_keeps.at_wf hc h1
    split
    · split
      · exact State.setPos_wf h2
      · exact h2
    · exact State.closeRange_wf h2

theorem execLoopIterationEnd_wf {s : State} {run} (h : s.MemoryWf) : Out.Wf (execLoopIterationEnd run s) := by
  refine done_wf ?_
  split
  · exact h
  refine ite_wf h (ite_wf (State.loopTest_wf h) ?_)
  refine ite_wf (State.loopTest_wf h) ?_
  split
  next hc => exact State.loopTest_wf (fst_wf hc (State.devWrite_wf h))
  next hc => exact fst_wf hc (State.devWrite_wf h)

theorem execSignalPacket_wf {s : State} {q} (h : s.MemoryWf) : Out.Wf (execSignalPacket q s) := by
  refine done_wf (packetStep_wf h fun t b w => ?_)
  extract_lets add spec
  split
  next hc => exact State.nextFault_wf (checkAccess_bad_wf hc w)
  next hc =>
    have h1 := checkAccess_ok_wf hc w
    refine State.startRun_wf (ite_wf (MemSys.writeBackAll_wf ?_) ?_) <;> exact State.memPut_wf _ _ _ h1

theorem execWaitPacket_wf {s : State} {q} (h : s.MemoryWf) : Out.Wf (execWaitPacket q s) :=
  done_wf (packetStep_wf h (fun _ _ w => State.startRun_wf w))
theorem State.finishRun_wf {s : State} {r} (h : s.MemoryWf) : (s.finishRun r).MemoryWf := by
  refine State.countJobs_wf ?_
  split <;> exact h

theorem State.graphEnd_wf {s : State} {r} (h : s.MemoryWf) : (s.graphEnd r).MemoryWf := by
  unfold State.graphEnd
  split
  · exact State.finishRun_wf h
  refine ite_wf h (ite_wf (State.finishRun_wf h) ?_)
  split
  next hc => exact State.finishRun_wf (fst_wf hc (State.devWrite_wf h))
  next hc => exact State.MemoryWf.of_ms (fst_wf hc (State.devWrite_wf h)) rfl

theorem State.waitRead_wf {s : State} {r} (h : s.MemoryWf) : (s.waitRead r).MemoryWf := by
  unfold State.waitRead
  split
  next hc => exact State.runFault_wf (engineNat_keeps.at_wf hc h)
  next hc => exact ite_wf (State.finishRun_wf (engineNat_keeps.at_wf hc h)) (engineNat_keeps.at_wf hc h)

theorem execPacketComplete_wf {s : State} {run} (h : s.MemoryWf) : Out.Wf (execPacketComplete run s) := by
  refine done_wf ?_
  split
  · exact h
  refine ite_wf (State.finishRun_wf h) ?_
  split
  · exact ite_wf (State.graphEnd_wf h) h
  · exact ite_wf (State.finishRun_wf (State.closeRange_wf h)) h
  · exact ite_wf h (State.waitRead_wf h)
  · exact h

theorem State.endRanges_wf {s : State} {q ridx} (h : s.MemoryWf) : (s.endRanges q ridx).MemoryWf :=
  State.foldl_wf (fun _ _ w => by exact w) _ (by exact h)

theorem execQueueRestart_wf {s : State} {ctx q ridx} (h : s.MemoryWf) : Out.Wf (execQueueRestart ctx q ridx s) := by
  refine done_wf ?_
  split
  · exact h
  next x _ =>
    split
    · exact h
    · extract_lets die skipped jend
      have hj : ∀ (t : State) k, t.MemoryWf → (jend t k).2.MemoryWf := by
        intro t k w
        unfold jend
        split
        next hc => exact engineBytes_keeps.at_wf hc w
        next hc => exact engineBytes_keeps.at_wf hc w
      split
      next n lost s1 hc =>
        have h1 : s1.MemoryWf := by
          refine (congrArg (fun p : Nat × Bool × State => p.2.2.MemoryWf) hc).mp ?_
          refine List.foldlRecOn (motive := fun p : Nat × Bool × State => p.2.2.MemoryWf) skipped _ h fun p w k _ => ?_
          dsimp only
          split
          · exact hj _ _ w
          · exact hj _ _ w
        exact State.mapQueue_wf (State.endRanges_wf h1)

theorem execEnq_wf {s : State} {f} (h : s.MemoryWf) : Out.Wf (execEnq f s) := by
  refine settle_wf (orTrap_wf h (Res.ite_wf h ?_))
  split
  next hc => exact groupBytes_keeps.at_wf hc h
  next hc =>
    have h1 := groupBytes_keeps.at_wf hc h
    refine Res.ite_wf h1 ?_
    split
    · exact h1
    split
    · exact h1
    · exact h1
    split
    next hd => exact checkStore_bad_wf hd h1
    next hd =>
      have h2 := checkStore_ok_wf hd h1
      extract_lets s3 s4
      have h3 : s3.MemoryWf := State.storeHits_wf (State.endRegion_wf (State.drain_wf h2))
      have h4 : s4.MemoryWf := State.mapQueue_wf h3
      exact h4

theorem execQfence_wf {s : State} {f} (h : s.MemoryWf) : Out.Wf (execQfence f s) := settle_wf (State.endRegion_wf h)

theorem cntOp_wf {s : State} {wait f} (h : s.MemoryWf) : (cntOp wait f s).Wf := by
  unfold cntOp
  extract_lets g a
  refine orTrap_wf h (Res.ite_wf h (Res.ite_wf h ?_))
  split
  next hc => exact groupNat_keeps.at_wf hc h
  next hc =>
    have h1 := State.endAtStart_wf (groupNat_keeps.at_wf hc h)
    exact Res.ite_wf h1 h1

theorem execCnt_wf {s : State} {f} (h : s.MemoryWf) : Out.Wf (execCnt f s) := settle_wf (cntOp_wf h)
theorem execCntWait_wf {s : State} {f} (h : s.MemoryWf) : Out.Wf (execCntWait f s) := settle_wf (cntOp_wf h)

theorem execCancel_wf {s : State} {f} (h : s.MemoryWf) : Out.Wf (execCancel f s) := by
  have h1 : s.unreplayable.endRegion.MemoryWf := State.endRegion_wf h
  refine settle_wf (orTrap_wf h ?_)
  dsimp only
  split
  · exact h1
  · exact State.cancel_wf h1

/-! ## Machine/Sched: admission, staging and dispatch -/

theorem execPolicyWrite_wf {s : State} {ctx p} (h : s.MemoryWf) : Out.Wf (execPolicyWrite ctx p s) := by
  refine done_wf (ite_wf h ?_)
  extract_lets _ s1
  have h1 : s1.MemoryWf := h
  split
  · exact ite_wf (State.setCtxState_wf h1) h1
  · exact h1

theorem execAgeLimit_wf {s : State} {die entry} (h : s.MemoryWf) : Out.Wf (execAgeLimit die entry s) := by
  refine done_wf ?_
  split
  · exact h
  · split <;> exact h

theorem State.stageMap_wf {core ctx} : ∀ {l : List Nat} {s : State}, s.MemoryWf → (s.stageMap core ctx l).1.MemoryWf
  | [], _, h => h
  | a :: r, s, h => by
    unfold State.stageMap
    split
    next s1 p hp =>
      have h1 : s1.MemoryWf := by
        split at hp
        next hc => cases hp; exact checkAccess_ok_wf hc h
        next hc => cases hp; exact checkAccess_bad_wf hc h
      exact stageMap_wf h1

theorem State.stageTile_wf {s : State} {q g w} (h : s.MemoryWf) : (s.stageTile q g w).MemoryWf := by
  unfold State.stageTile
  split
  · exact h
  extract_lets t
  clear_value t
  split
  · exact h
  next s1 a hc =>
    have h1 : s1.MemoryWf := State.newTile_some_wf hc h
    split
    next s2 pages hp =>
      have h2 : s2.MemoryWf := fst_wf hp (State.stageMap_wf h1)
      refine Rd.at_wf engineStore_keeps ?_
      exact State.MemoryWf.of_ms h2 rfl

theorem State.beginReq_wf {s : State} {q} (h : s.MemoryWf) : (s.beginReq q).MemoryWf := by
  unfold State.beginReq
  split
  · extract_lets s1
    have h1 : s1.MemoryWf := ite_wf (State.wsBefore_wf h) h
    clear_value s1
    refine ite_wf h1 ?_
    split
    · split
      · exact State.stageTile_wf h1
      · exact h1
    · exact h1
  · exact h

theorem State.sendReq_wf {s : State} {id} (h : s.MemoryWf) : (s.sendReq id).MemoryWf := by
  unfold State.sendReq
  split
  · exact h
  refine ite_wf h ?_
  extract_lets s1
  have h1 : s1.MemoryWf := ite_wf h (State.beginReq_wf h)
  clear_value s1
  split
  · exact h1
  · exact ite_wf h1 h1

theorem State.sendAll_wf {s : State} (h : s.MemoryWf) : s.sendAll.MemoryWf := State.foldl_wf (fun _ _ w => State.sendReq_wf w) _ h
theorem State.stage_wf {s : State} {first lines e g} (h : s.MemoryWf) : (s.stage first lines e g).MemoryWf := by
  refine State.foldl_wf (fun t x w => ?_) _ h
  split <;> exact w

theorem State.bindCore_wf {s : State} {first die entry core} (h : s.MemoryWf) : (s.bindCore first die entry core).MemoryWf := by
  unfold State.bindCore
  split
  · exact h
  · extract_lets g0 g s1 s2 s3 s4
    have h4 : s4.MemoryWf := by
      unfold s4 s3
      split <;> exact h
    exact State.stage_wf h4

theorem State.reread_wf {s : State} {e} (h : s.MemoryWf) : (s.reread e).MemoryWf := by
  unfold State.reread
  split
  next hc => exact State.MemoryWf.of_ms (Rd.Keeps.at_wf (mapM_keeps (fun _ => engineNat_keeps) _) hc h) rfl
  next hc => exact Rd.Keeps.at_wf (mapM_keeps (fun _ => engineNat_keeps) _) hc h

theorem execAdmission_wf {s : State} {die entry} (h : s.MemoryWf) : Out.Wf (execAdmission die entry s) := by
  refine done_wf ?_
  split
  · exact h
  split
  · exact h
  refine ite_wf (State.launchEnds_wf h) ?_
  extract_lets first s1 s2 e pick
  have h2 : s2.MemoryWf := State.readSaved_wf (ite_wf (State.reread_wf h) h)
  clear_value s2 pick
  refine ite_wf h2 ?_
  rename_i cls s3
  have h3 : s3.MemoryWf := ite_wf h2 h2
  split
  · exact h3
  · exact State.foldl_wf (fun _ _ w => State.bindCore_wf w) _ (State.bindCore_wf h3)

theorem State.landLine_wf {s : State} {q} (h : s.MemoryWf) : (s.landLine q).MemoryWf := by
  unfold State.landLine
  extract_lets a s1
  have h1 : s1.MemoryWf := by
    unfold s1
    split
    next hc => exact checkAccess_bad_wf hc h
    next s2 ts hc =>
      have h2 : s2.MemoryWf := checkAccess_ok_wf hc h
      split
      · dsimp only
        split
        · exact h2
        · exact h2
      · exact h2
  split
  · exact h1
  · exact h1

theorem execStagingLanding_wf {s : State} {req} (h : s.MemoryWf) : Out.Wf (execStagingLanding req s) := by
  refine done_wf ?_
  split
  · exact h
  split
  · exact ite_wf (State.endCopy_wf h) (ite_wf (State.landWord_wf h) h)
  · exact ite_wf (State.landLine_wf h) h

theorem execStagingPromotion_wf {s : State} {req} (h : s.MemoryWf) : Out.Wf (execStagingPromotion req s) := by
  refine done_wf ?_
  split
  · exact h
  · split <;> exact h

theorem State.dispatchGroup_wf {s : State} {g} (h : s.MemoryWf) : (s.dispatchGroup g).MemoryWf := by
  unfold State.dispatchGroup
  split
  · exact h
  · extract_lets s1 s2 s3
    have h1 : s1.MemoryWf := by
      unfold s1
      split <;> exact h
    have h2 : s2.MemoryWf := ite_wf h1 h1
    exact State.ctxRuns_wf (State.reloadBars_wf (State.mapGroup_wf h2))

theorem execDispatch_wf {s : State} {core slot} (h : s.MemoryWf) : Out.Wf (execDispatch core slot s) := by
  refine done_wf ?_
  split
  · exact ite_wf (State.dispatchGroup_wf h) h
  · exact h

theorem State.cutReq_wf {s : State} {g id} (h : s.MemoryWf) : (s.cutReq g id).MemoryWf := by
  unfold State.cutReq
  split
  · exact h
  refine ite_wf h ?_
  extract_lets s1
  have h1 : s1.MemoryWf := ite_wf h (State.beginReq_wf h)
  clear_value s1
  split
  · exact h1
  · exact ite_wf h1 (ite_wf h1 (ite_wf h1 h1))

theorem State.cutRequests_wf {s : State} {g} (h : s.MemoryWf) : (s.cutRequests g).MemoryWf :=
  State.foldl_wf (fun _ _ w => State.cutReq_wf w) _ h

theorem execStagingDeadline_wf {s : State} {core slot} (h : s.MemoryWf) : Out.Wf (execStagingDeadline core slot s) := by
  refine done_wf ?_
  split
  · exact ite_wf (State.dispatchGroup_wf (State.cutRequests_wf h)) h
  · exact h

theorem execIssueStarvation_wf {s : State} {core slot} (h : s.MemoryWf) : Out.Wf (execIssueStarvation core slot s) := by
  refine done_wf ?_
  split
  · split <;> exact h
  · exact h

theorem execYieldExpiry_wf {s : State} {core slot} (h : s.MemoryWf) : Out.Wf (execYieldExpiry core slot s) :=
  done_wf (State.onSlot_wf _ _ (fun _ w => w) h)
theorem execHotFlagSet_wf {s : State} {core} (h : s.MemoryWf) : Out.Wf (execHotFlagSet core s) := by
  refine done_wf ?_
  split <;> exact h
theorem execHotFlagClear_wf {s : State} {core} (h : s.MemoryWf) : Out.Wf (execHotFlagClear core s) := done_wf h
theorem execSensorSample_wf {s : State} (h : s.MemoryWf) : Out.Wf (execSensorSample s) := done_wf h
theorem execPowerCapStep_wf {s : State} {milliwatts} (h : s.MemoryWf) : Out.Wf (execPowerCapStep milliwatts s) := done_wf h

theorem execConditionMet_wf {s : State} {core slot} (h : s.MemoryWf) : Out.Wf (execConditionMet core slot s) := by
  refine done_wf ?_
  split
  · split <;> exact h
  · exact h

theorem State.goOn_wf {s : State} (h : s.MemoryWf) : s.goOn.MemoryWf := by
  unfold State.goOn
  extract_lets s1 _ s2 s3
  have h1 : s1.MemoryWf := by
    unfold s1
    split
    next c slot _ _ =>
      have h2 : (s.seen (groupBlock c s.g.core slot) 0x12800).MemoryWf := State.seen_wf h
      dsimp only
      rw [State.memoryWf_iff] at h2 ⊢
      split
      · exact h2
      · exact h2
    · exact h
  exact ite_wf (State.MemoryWf.of_ms h1 rfl) (State.MemoryWf.of_ms h1 rfl)

theorem execLoadComplete_wf {s : State} {core slot} (h : s.MemoryWf) : Out.Wf (execLoadComplete core slot s) := by
  refine done_wf (State.onSlot_wf _ _ (fun t w => ?_) h)
  refine ite_wf w ?_
  split
  · split <;> exact w
  · exact State.goOn_wf w

theorem execSaveComplete_wf {s : State} {core slot} (h : s.MemoryWf) : Out.Wf (execSaveComplete core slot s) :=
  done_wf (State.onSlot_wf _ _ (fun _ w => ite_wf (State.endSave_wf w) w) h)

theorem execDiscardComplete_wf {s : State} {core slot} (h : s.MemoryWf) : Out.Wf (execDiscardComplete core slot s) := by
  refine done_wf (State.onSlot_wf _ _ (fun t w => ?_) h)
  split
  · exact ite_wf w (State.endKill_wf w)
  · exact State.afterGroup_wf (State.dropGroup_wf w)
  · exact w

theorem State.returnTo_wf {s : State} {g slot} (h : s.MemoryWf) : (s.returnTo g slot).MemoryWf :=
  State.ctxRuns_wf (State.reloadBars_wf (State.onGroup_wf _ (fun _ w => State.moveBars_wf w) h))

theorem execRestore_wf {s : State} {gid slot} (h : s.MemoryWf) : Out.Wf (execRestore gid slot s) := by
  refine done_wf ?_
  split
  · exact h
  have h1 : s.readSaved.MemoryWf := State.readSaved_wf h
  refine ite_wf h1 (State.foldl_wf (fun t x w => ?_) _ (State.returnTo_wf h1))
  split
  · exact State.returnTo_wf w
  · exact w

theorem execSwapOutAtJoin_wf {s : State} {core slot} (h : s.MemoryWf) : Out.Wf (execSwapOutAtJoin core slot s) := by
  refine done_wf ?_
  split
  · exact h
  · extract_lets grid rest wants
    exact ite_wf (State.onGroup_wf _ (fun _ w => State.beginSave_wf w) h) h

/-! ## Machine/Link: the link -/

theorem execPortEnable_wf {s : State} {port} (h : s.MemoryWf) : Out.Wf (execPortEnable port s) := by
  refine done_wf ?_
  split <;> exact h
theorem execPortDisable_wf {s : State} {port} (h : s.MemoryWf) : Out.Wf (execPortDisable port s) := done_wf h
theorem execTrainingAttemptEnd_wf {s : State} {port lanes} (h : s.MemoryWf) : Out.Wf (execTrainingAttemptEnd port lanes s) := by
  refine done_wf ?_
  split <;> exact h
theorem execLaneFailure_wf {s : State} {port lane} (h : s.MemoryWf) : Out.Wf (execLaneFailure port lane s) := by
  refine done_wf ?_
  split <;> exact h
theorem execCrcRetryLimit_wf {s : State} {port} (h : s.MemoryWf) : Out.Wf (execCrcRetryLimit port s) := done_wf h
theorem execFlitRetry_wf {s : State} {port} (h : s.MemoryWf) : Out.Wf (execFlitRetry port s) := done_wf h

theorem execRoutingTableWrite_wf {s : State} {pod peer ports} (h : s.MemoryWf) :
    Out.Wf (execRoutingTableWrite pod peer ports s) := by
  refine done_wf ?_
  split <;> exact h

theorem execHostLinkTraining_wf {s : State} {r} (h : s.MemoryWf) : Out.Wf (execHostLinkTraining r s) := done_wf h
theorem execAccessTableWrite_wf {s : State} {e} (h : s.MemoryWf) : Out.Wf (execAccessTableWrite e s) := done_wf (ite_wf h h)

theorem translateRanges_wf {core c} :
    ∀ {l : List (AccSpec × Bool × Nat × Nat)} {s : State}, s.MemoryWf → (translateRanges core c l s).1.MemoryWf
  | [], _, h => h
  | (_, _, _, _) :: _, s, h => by
    unfold translateRanges
    exact translateRanges_wf (translateAll_wf h)

theorem xferChecks_wf {s : State} {put loc rem len stat} (h : s.MemoryWf) : (xferChecks s put loc rem len stat).1.MemoryWf := by
  have h1 : (s.readWindow s.g.ctx).MemoryWf := State.readWindow_wf h
  unfold xferChecks
  dsimp only
  split
  · exact h1
  · split <;> exact translateRanges_wf h1

theorem xferOp_wf {s : State} {put f} (h : s.MemoryWf) : (xferOp put f s).Wf := by
  refine orTrap_wf h (orTrap_wf h ?_)
  split
  next hc => exact fst_wf hc (xferChecks_wf h)
  next s1 hc =>
    have h1 : s1.MemoryWf := fst_wf hc (xferChecks_wf h)
    exact State.MemoryWf.of_ms (State.endRegion_wf (by exact h1)) rfl

theorem execLput_wf {s : State} {f} (h : s.MemoryWf) : Out.Wf (execLput f s) := settle_wf (xferOp_wf h)
theorem execLget_wf {s : State} {f} (h : s.MemoryWf) : Out.Wf (execLget f s) := settle_wf (xferOp_wf h)

theorem State.endXfer_wf {s : State} {x cause} (h : s.MemoryWf) : (s.endXfer x cause).MemoryWf := by
  unfold State.endXfer
  split
  · exact h
  extract_lets w
  split
  next hc => exact State.MemoryWf.of_ms (fst_wf hc (State.devWrite_wf h)) rfl
  next hc => exact State.MemoryWf.of_ms (fst_wf hc (State.devWrite_wf h)) rfl

theorem xferUnit_keeps {x} : (xferUnit x).Keeps := bind_keeps engineRead_keeps (fun _ => engineStore_keeps)

theorem State.maybeHits_wf {s : State} {addr b ts} (h : s.MemoryWf) : (s.maybeHits addr b ts).MemoryWf := by
  refine State.foldl_wf (fun t x w => ?_) _ h
  split
  · exact State.maybeByte_wf w
  · exact w

theorem strayUnit_wf {s : State} {x} (h : s.MemoryWf) : (strayUnit x s).MemoryWf := by
  unfold strayUnit
  extract_lets n dst
  split
  · exact h
  next hc =>
    split
    · exact h
    next hd => exact State.maybeHits_wf (checkStore_ok_wf hd (engineRead_keeps.at_wf hc h))

theorem State.straysFrom_wf {s : State} {x} (h : s.MemoryWf) : (s.straysFrom x).MemoryWf :=
  State.foldl_wf (fun _ _ w => ite_wf w (strayUnit_wf w)) _ h
theorem State.failXfer_wf {s : State} {x cause} (h : s.MemoryWf) : (s.failXfer x cause).MemoryWf :=
  State.endXfer_wf (State.straysFrom_wf h)

theorem State.xferStep_wf {s : State} {x} (h : s.MemoryWf) : (s.xferStep x).MemoryWf := by
  unfold State.xferStep
  refine ite_wf (State.endXfer_wf h) ?_
  extract_lets n
  split
  next s1 hc =>
    have h1 : s1.MemoryWf := xferUnit_keeps.at_wf hc h
    exact ite_wf (State.endXfer_wf (by exact h1)) (by exact h1)
  next t s1 hc =>
    have h1 : s1.MemoryWf := xferUnit_keeps.at_wf hc h
    exact ite_wf (State.failXfer_wf h1) (ite_wf (State.joinAll_wf h1) h1)

theorem execLinkUnitComplete_wf {s : State} {xfer} (h : s.MemoryWf) : Out.Wf (execLinkUnitComplete xfer s) := by
  refine done_wf ?_
  split
  · exact h
  · exact ite_wf h (State.xferStep_wf h)

theorem execLinkTimeout_wf {s : State} {xfer} (h : s.MemoryWf) : Out.Wf (execLinkTimeout xfer s) := by
  refine done_wf ?_
  split
  · exact h
  · exact ite_wf h (State.failXfer_wf h)

/-! ## Machine/Visib: visibility and drawing -/

theorem State.mergeKey_wf {s : State} {k v} (h : s.MemoryWf) : (s.mergeKey k v).MemoryWf := State.memPut_wf _ _ _ h

theorem execVis_wf {s : State} {f} (h : s.MemoryWf) : Out.Wf (execVis f s) := by
  refine settle_wf (Res.ite_wf h (orTrap_wf h ?_))
  split
  next hc => exact checkAccess_bad_wf hc h
  next hc =>
    refine State.foldl_wf (fun t x w => ?_) _ (checkAccess_ok_wf hc h)
    split <;> exact w

theorem State.performMerges_wf {s : State} {q} (h : s.MemoryWf) : (s.performMerges q).MemoryWf :=
  State.foldl_wf (fun _ _ w => State.mergeKey_wf w) _ h

theorem execVisMerge_wf {s : State} {merge} (h : s.MemoryWf) : Out.Wf (execVisMerge merge s) := by
  refine done_wf ?_
  split
  · exact State.performMerges_wf h
  · exact h

theorem withDesc_wf {s : State} {a m bad k} (h : s.MemoryWf) (hk : ∀ t d, t.MemoryWf → (k t d).Wf) :
    (withDesc s a m bad k).Wf := by
  unfold withDesc
  refine Res.ite_wf h ?_
  split
  next hc => exact engineNat_keeps.at_wf hc h
  next hc =>
    have h1 := engineNat_keeps.at_wf hc h
    exact Res.ite_wf h1 (hk _ _ h1)

theorem execRast_wf {s : State} {f} (h : s.MemoryWf) : Out.Wf (execRast f s) :=
  settle_wf (orTrap_wf h (withDesc_wf h fun _ _ w => Res.ite_wf w w))
theorem drawTriangle_keeps {d n} : (drawTriangle d n).Keeps :=
  mapM_keeps (fun _ => bind_keeps engineNat_keeps (fun _ => mapM_keeps (fun _ => bind_keeps engineNat_keeps (fun _ => pure_keeps)) _)) _

theorem mergeAll_keeps {core ctx ks} : (mergeAll core ctx ks).Keeps := by
  refine mk_keeps (fun t w => ?_)
  split
  next hc => exact checkAccess_bad_wf hc w
  next hc => exact State.foldl_wf (fun t1 x w1 => State.mergeKey_wf w1) _ (checkAccess_ok_wf hc w)

theorem rasterOne_keeps {d} : (rasterOne d).Keeps := bind_keeps drawTriangle_keeps (fun _ => mergeAll_keeps)

theorem State.skipTriangle_wf {s : State} {d cause} (h : s.MemoryWf) : (s.skipTriangle d cause).MemoryWf := by
  unfold State.skipTriangle
  split
  · exact h
  · exact State.devPut_wf h

theorem execTriangleRaster_wf {s : State} {draw} (h : s.MemoryWf) : Out.Wf (execTriangleRaster draw s) := by
  refine done_wf ?_
  split
  · exact h
  refine ite_wf h ?_
  extract_lets past
  split
  next hc => exact State.MemoryWf.of_ms (rasterOne_keeps.at_wf hc h) rfl
  next hc =>
    have h1 := rasterOne_keeps.at_wf hc h
    exact ite_wf (ite_wf (State.joinAll_wf h1) h1) (State.skipTriangle_wf h1)

theorem execDrawComplete_wf {s : State} {draw} (h : s.MemoryWf) : Out.Wf (execDrawComplete draw s) := by
  refine done_wf ?_
  split
  · exact h
  · exact ite_wf h (State.endDraw_wf h)

theorem vWord_keeps {core ctx addr n reads f} : (vWord core ctx addr n reads f).Keeps := by
  refine mk_keeps (fun t w => ?_)
  split
  next hc => exact checkAccess_bad_wf hc w
  · split
    next hc1 => exact State.memPut_wf _ _ _ (checkAccess_ok_wf hc1 w)
    next hc1 => exact checkAccess_ok_wf hc1 w

theorem giveMerge_keeps {core ctx addr key} : (giveMerge core ctx addr key).Keeps := by
  refine mk_keeps (fun t w => ?_)
  split
  next hc => exact checkAccess_bad_wf hc w
  · split
    next hc1 => exact State.MemoryWf.of_ms (checkAccess_ok_wf hc1 w) rfl
    next hc1 => exact checkAccess_ok_wf hc1 w

theorem rprojLane_keeps {core ctx d p} : (rprojLane core ctx d p).Keeps := by
  unfold rprojLane
  refine ite_keeps pure_keeps (bind_keeps engineNat_keeps fun mv => ?_)
  extract_lets f last list max rest
  have hrest : ∀ key, Rd.Keeps (rest key) := fun key => by
    cases key with
    | none => exact bind_keeps vWord_keeps fun _ => ite_keeps (bind_keeps vWord_keeps fun _ => pure_keeps) pure_keeps
    | some pay =>
      dsimp only [rest]
      split
      · exact bind_keeps giveMerge_keeps fun _ => pure_keeps
      · exact pure_keeps
  split
  · exact bind_keeps pure_keeps hrest
  · exact bind_keeps engineNat_keeps fun _ => bind_keeps pure_keeps hrest

theorem State.keepWalks_wf {s : State} {s1 : State} (h : s.MemoryWf) (_ : s1.MemoryWf) : (s.keepWalks s1).MemoryWf :=
  State.foldl_wf (fun _ _ w => State.orEntry_wf _ _ w) _ h

theorem execRproj_wf {s : State} {f} (h : s.MemoryWf) : Out.Wf (execRproj f s) := by
  unfold execRproj
  extract_lets g m
  refine settle_wf (Res.ite_wf h (orTrap_wf h (withDesc_wf h fun t d w => ?_)))
  have hr : Rd.Keeps (eachLane (activeLanes m) fun i => rprojLane g.core g.ctx d (g.vget f.va i).toNat).once :=
    Rd.once_keeps (eachLane_keeps fun _ => rprojLane_keeps)
  split
  next hc => exact State.keepWalks_wf w (hr.at_wf hc w)
  next hc => exact State.MemoryWf.of_ms (hr.at_wf hc w) rfl

/-! ## Machine/Context: contexts and services -/

theorem execBind_wf {s : State} {b} (h : s.MemoryWf) : Out.Wf (execBind b s) := by
  refine done_wf ?_
  split <;> exact h
theorem State.writeBackPart_wf {s : State} {p} (h : s.MemoryWf) : (s.writeBackPart p).MemoryWf := MemSys.writeBack_wf _ h
theorem State.dropLines_wf {s : State} {p} (h : s.MemoryWf) : (s.dropLines p).MemoryWf := MemSys.discard_wf _ h

theorem State.endJob_wf {s : State} {p j d status cause bytes} (h : s.MemoryWf) :
    (s.endJob p j d status cause bytes).MemoryWf := by
  unfold State.endJob
  extract_lets s1 w b a s2 s3
  have h1 : s1.MemoryWf := h
  have h2 : s2.MemoryWf := ite_wf (State.memWrite_wf _ _ h1) h1
  have h3 : s3.MemoryWf := State.memPut_wf _ _ _ h2
  exact State.MemoryWf.of_ms h3 rfl

theorem State.cancelJobs_wf {s : State} {p} (h : s.MemoryWf) : (s.cancelJobs p).MemoryWf := by
  refine State.foldl_wf (fun t x w => ?_) _ h
  dsimp only
  split
  · exact State.endJob_wf (State.seen_wf w)
  · exact State.seen_wf w

theorem execUnbind_wf {s : State} {fsect erase} (h : s.MemoryWf) : Out.Wf (execUnbind fsect erase s) := by
  refine done_wf ?_
  split
  · exact h
  next p _ =>
    refine ite_wf h ?_
    extract_lets s1 s2 s3
    have h2 : s2.MemoryWf := State.dropLines_wf (State.writeBackPart_wf (State.cancelJobs_wf h))
    have h3 : s3.MemoryWf := ite_wf (State.eraseMem_wf _ h2) h2
    exact h3

theorem execCreate_wf {s : State} {ctx} (h : s.MemoryWf) : Out.Wf (execCreate ctx s) := by
  refine done_wf ?_
  split
  · exact h
  · split
    · exact State.seen_wf h
    · exact State.memPut_wf _ _ _ (State.memPut_wf _ _ _ (State.memPut_wf _ _ _ (State.setCtxState_wf (State.seen_wf h))))

theorem execContextBind_wf {s : State} {ctx} (h : s.MemoryWf) : Out.Wf (execContextBind ctx s) := by
  refine done_wf ?_
  split
  · exact h
  extract_lets d s1
  have h1 : s1.MemoryWf := ite_wf (State.seen_wf h) h
  clear_value s1
  split
  · exact ite_wf (State.setCtxState_wf h1) h1
  · exact h1

theorem State.wakeCtx_wf {s : State} {n} (h : s.MemoryWf) : (s.wakeCtx n).MemoryWf :=
  State.resumeQueues_wf (State.setCtxState_wf h)
theorem State.resumeNow_wf {s : State} {n} (h : s.MemoryWf) : (s.resumeNow n).MemoryWf := State.bumpPcnt_wf (State.wakeCtx_wf h)

theorem State.preEmpt_wf {s : State} {n} (h : s.MemoryWf) : (s.preEmpt n).MemoryWf := by
  unfold State.preEmpt
  split
  · exact h
  · split
    · exact State.bumpPcnt_wf (State.setCtxState_wf (State.suspendCtx_wf h))
    · exact State.suspendCtx_wf (State.setCtxState_wf h)
    · exact h

theorem execPreEmpt_wf {s : State} {ctx} (h : s.MemoryWf) : Out.Wf (execPreEmpt ctx s) := done_wf (State.preEmpt_wf h)

theorem execSwitchComplete_wf {s : State} {ctx} (h : s.MemoryWf) : Out.Wf (execSwitchComplete ctx s) := by
  refine done_wf ?_
  split
  · exact h
  refine ite_wf h ?_
  extract_lets s1
  have h1 : s1.MemoryWf := State.bumpPcnt_wf (State.setCtxState_wf (State.spillIdle_wf h))
  clear_value s1
  exact ite_wf (State.resumeNow_wf h1) h1

theorem execResume_wf {s : State} {ctx} (h : s.MemoryWf) : Out.Wf (execResume ctx s) := by
  refine done_wf ?_
  split
  · exact h
  split
  · exact ite_wf h (State.resumeNow_wf h)
  · exact ite_wf h (State.resumeNow_wf h)
  · exact ite_wf h h
  · exact h

theorem State.clearQueues_wf {s : State} {c} (h : s.MemoryWf) : (s.clearQueues c).MemoryWf :=
  State.foldl_wf (fun _ _ w => State.ctxPut_wf w) _ h

theorem State.freeObjects_wf {s : State} {n} (h : s.MemoryWf) : (s.freeObjects n).MemoryWf := by
  unfold State.freeObjects
  extract_lets s1 s2 s3 s4 s5 s6
  have h2 : s2.MemoryWf := State.foldl_wf (fun _ _ w => State.endDraw_wf w) _ (State.performMerges_wf h)
  have h3 : s3.MemoryWf := by
    unfold s3
    split
    · exact State.clearQueues_wf h2
    · exact h2
  have h5 : s5.MemoryWf := State.foldl_wf (fun _ _ w => State.freeTile_wf w) _ (by exact h3)
  have h6 : s6.MemoryWf := State.foldl_wf (fun _ _ w => by exact w) _ h5
  clear_value s6
  exact h6

theorem execTeardownComplete_wf {s : State} {ctx} (h : s.MemoryWf) : Out.Wf (execTeardownComplete ctx s) := by
  refine done_wf ?_
  split
  · exact h
  refine ite_wf h ?_
  extract_lets s1 p
  have h1 : s1.MemoryWf := State.memPut_wf _ _ _ h
  exact State.MemoryWf.of_ms h1 rfl

theorem State.afterWrite_wf {s : State} {w} (h : s.MemoryWf) : (s.afterWrite w).MemoryWf := by
  unfold State.afterWrite
  split
  · exact h
  · exact State.launchEnds_wf h
  · exact State.sweepPool_wf (State.runSucc_wf h)
  · exact h
  · exact State.countRecord_wf h
  · split
    · exact State.loopTest_wf h
    · exact h
  · exact h

theorem State.retryWrite_wf {s : State} {id} (h : s.MemoryWf) : (s.retryWrite id).MemoryWf := by
  unfold State.retryWrite
  split
  · exact h
  dsimp only
  split
  next hc => exact State.afterWrite_wf (fst_wf hc (State.devWrite_wf h))
  next hc => exact fst_wf hc (State.devWrite_wf h)

theorem State.retry_wf {s : State} {id a} (h : s.MemoryWf) : (s.retry id a).MemoryWf := by
  unfold State.retry
  split
  · exact State.onGroup_wf _ (fun _ w => ite_wf (State.replay_wf w) w) h
  · exact State.mapGroup_wf h
  · exact h
  · exact State.retryWrite_wf h
  · exact h
  · exact h
  · exact h
  · exact h

theorem State.retryFree_wf {s : State} (h : s.MemoryWf) : s.retryFree.MemoryWf :=
  State.foldl_wf (fun _ _ w => State.retryWrite_wf w) _ h

theorem execDestroy_wf {s : State} {ctx} (h : s.MemoryWf) : Out.Wf (execDestroy ctx s) := by
  refine done_wf ?_
  split
  · exact h
  · split
    · exact h
    · extract_lets s1 s2 s3
      have h3 : s3.MemoryWf := State.foldl_wf (fun _ _ w => State.discardGroup_wf w) _ (by exact State.setCtxState_wf h)
      clear_value s3
      exact State.retryFree_wf (State.freeObjects_wf h3)

theorem execServiceComplete_wf {s : State} {record} (h : s.MemoryWf) : Out.Wf (execServiceComplete record s) := by
  refine done_wf ?_
  split
  · exact h
  · exact State.retryFree_wf (State.foldl_wf (fun t x w => State.retry_wf w) _ h)

theorem State.takeFailure.rayFailed_wf {s : State} {r} (h : s.MemoryWf) : (State.takeFailure.rayFailed r s).MemoryWf :=
  State.landRay_wf h

theorem State.takeFailure_wf {s : State} {ctx id a} (h : s.MemoryWf) : (s.takeFailure ctx id a).MemoryWf := by
  unfold State.takeFailure
  split
  · split
    · exact State.failCtx_wf h
    · exact h
  · refine State.onGroup_wf _ (fun t w => ?_) h
    split
    · exact ite_wf (State.takeFailure.rayFailed_wf w) w
    · exact w
  · split
    · exact State.skipTriangle_wf h
    · exact h
  · split
    · exact State.writeFails_wf h
    · exact h
  · split
    · exact State.failXfer_wf h
    · exact h
  · exact State.reject_wf h
  · split
    · exact State.reject_wf h
    · exact h
  · split
    · exact ite_wf (State.ringFails_wf h) h
    · exact h

theorem execServiceFails_wf {s : State} {record} (h : s.MemoryWf) : Out.Wf (execServiceFails record s) := by
  refine done_wf ?_
  split
  · exact h
  · exact State.retryFree_wf (State.foldl_wf (fun t x w => State.takeFailure_wf w) _ h)

theorem State.failGroup_wf {s : State} (h : s.MemoryWf) : s.failGroup.MemoryWf := State.failCtx_wf h

theorem execForward_wf {s : State} {core slot} (h : s.MemoryWf) : Out.Wf (execForward core slot s) := by
  refine done_wf (State.onSlot_wf _ _ (fun t w => ?_) h)
  refine ite_wf w (ite_wf (State.failGroup_wf w) ?_)
  split
  next hc => exact State.enterHandler_wf (State.clearCause_wf (snd_wf hc (State.handlerReady_wf w)))
  next hc => exact snd_wf hc (State.handlerReady_wf w)

theorem execFail_wf {s : State} {core slot} (h : s.MemoryWf) : Out.Wf (execFail core slot s) :=
  done_wf (State.onSlot_wf _ _ (fun _ w => ite_wf (State.failGroup_wf w) w) h)
theorem execInvalidation_wf {s : State} {ctx lo len} (h : s.MemoryWf) : Out.Wf (execInvalidation ctx lo len s) := by
  refine done_wf ?_
  split <;> exact h
theorem State.drainCtx_wf {s : State} {ctx} (h : s.MemoryWf) : (s.drainCtx ctx).MemoryWf :=
  State.foldl_wf (fun _ _ w => State.onGroup_wf _ (fun _ w1 => State.drain_wf w1) w) _ h

theorem execInvalidationComplete_wf {s : State} {ctx lo len} (h : s.MemoryWf) :
    Out.Wf (execInvalidationComplete ctx lo len s) := by
  refine done_wf ?_
  split
  · exact h
  · exact MemSys.discard_wf _ (MemSys.writeBack_wf _ (State.performMerges_wf (State.drainCtx_wf h)))

theorem State.setContextTable_wf {s : State} {base} (h : s.MemoryWf) : (s.setContextTable base).MemoryWf := by
  unfold State.setContextTable
  split <;> exact h
theorem execWatchpointSet_wf {s : State} {ctx w} (h : s.MemoryWf) : Out.Wf (execWatchpointSet ctx w s) := by
  refine done_wf ?_
  split <;> exact h

/-! ## Machine/Control: control transfers and masks -/

theorem State.setMask_wf {s : State} {stack mask pend} (h : s.MemoryWf) : (s.setMask stack mask pend).MemoryWf := h
theorem execBr_wf {s : State} {f} (h : s.MemoryWf) : Out.Wf (execBr f s) := settle_wf (mustBeLast_wf h h)
theorem execBrc_wf {s : State} {f} (h : s.MemoryWf) : Out.Wf (execBrc f s) := settle_wf (mustBeLast_wf h (orTrap_wf h h))
theorem execBrm_wf {s : State} {f} (h : s.MemoryWf) : Out.Wf (execBrm f s) := settle_wf (mustBeLast_wf h (orTrap_wf h h))
theorem execCall_wf {s : State} {f} (h : s.MemoryWf) : Out.Wf (execCall f s) := settle_wf (mustBeLast_wf h h)
theorem execRet_wf {s : State} {f} (h : s.MemoryWf) : Out.Wf (execRet f s) := settle_wf (mustBeLast_wf h (orTrap_wf h h))

theorem execJt_wf {s : State} {f} (h : s.MemoryWf) : Out.Wf (execJt f s) := by
  refine settle_wf (mustBeLast_wf h (orTrap_wf h (accessG_wf h fun t ts w => ?_)))
  split
  · exact State.noteLoad_wf w
  · exact w

theorem execMif_wf {s : State} {f} (h : s.MemoryWf) : Out.Wf (execMif f s) :=
  settle_wf (orTrap_wf h (Res.ite_wf h (State.setMask_wf h)))

theorem execMelse_wf {s : State} {f} (h : s.MemoryWf) : Out.Wf (execMelse f s) := by
  refine settle_wf ?_
  split
  · exact h
  · exact Res.ite_wf (State.setMask_wf h) h

theorem execMend_wf {s : State} {f} (h : s.MemoryWf) : Out.Wf (execMend f s) := by
  refine settle_wf ?_
  split
  · exact h
  · exact State.setMask_wf h

theorem loopBack_wf {s : State} {f stack mask} (h : s.MemoryWf) : (loopBack f s stack mask).Wf := State.setMask_wf h

theorem execMloop_wf {s : State} {f} (h : s.MemoryWf) : Out.Wf (execMloop f s) := by
  unfold execMloop
  extract_lets r mask own
  exact settle_wf (mustBeLast_wf h (orTrap_wf h (Res.ite_wf (loopBack_wf h) (Res.ite_wf h (loopBack_wf h)))))

theorem execYield_wf {s : State} {f} (h : s.MemoryWf) : Out.Wf (execYield f s) := settle_wf h
theorem execNop_wf {s : State} {f} (h : s.MemoryWf) : Out.Wf (execNop f s) := settle_wf h

/-! ## Machine/Vector: vector instructions -/

theorem intVector_wf {s : State} {f useB useC el} (h : s.MemoryWf) : Out.Wf (intVector s f useB useC el) :=
  settle_wf (vectorOp_wf h)
theorem intOp_wf {s : State} {f useB useC r} (h : s.MemoryWf) : Out.Wf (intOp s f useB useC r) := intVector_wf h
theorem bitsOp_wf {s : State} {f useB r} (h : s.MemoryWf) : Out.Wf (bitsOp s f useB r) := intVector_wf h
theorem divOp_wf {s : State} {f r} (h : s.MemoryWf) : Out.Wf (divOp s f r) := intVector_wf h
theorem execVadd_wf {s : State} {f} (h : s.MemoryWf) : Out.Wf (execVadd f s) := intOp_wf h
theorem execVsub_wf {s : State} {f} (h : s.MemoryWf) : Out.Wf (execVsub f s) := intOp_wf h
theorem execVmul_wf {s : State} {f} (h : s.MemoryWf) : Out.Wf (execVmul f s) := intOp_wf h
theorem execVmulh_wf {s : State} {f} (h : s.MemoryWf) : Out.Wf (execVmulh f s) := intOp_wf h
theorem execVmad_wf {s : State} {f} (h : s.MemoryWf) : Out.Wf (execVmad f s) := intOp_wf h
theorem execVdiv_wf {s : State} {f} (h : s.MemoryWf) : Out.Wf (execVdiv f s) := divOp_wf h
theorem execVrem_wf {s : State} {f} (h : s.MemoryWf) : Out.Wf (execVrem f s) := divOp_wf h
theorem execVmin_wf {s : State} {f} (h : s.MemoryWf) : Out.Wf (execVmin f s) := intOp_wf h
theorem execVmax_wf {s : State} {f} (h : s.MemoryWf) : Out.Wf (execVmax f s) := intOp_wf h
theorem execVabs_wf {s : State} {f} (h : s.MemoryWf) : Out.Wf (execVabs f s) := intOp_wf h
theorem execVneg_wf {s : State} {f} (h : s.MemoryWf) : Out.Wf (execVneg f s) := intOp_wf h
theorem execVand_wf {s : State} {f} (h : s.MemoryWf) : Out.Wf (execVand f s) := bitsOp_wf h
theorem execVor_wf {s : State} {f} (h : s.MemoryWf) : Out.Wf (execVor f s) := bitsOp_wf h
theorem execVxor_wf {s : State} {f} (h : s.MemoryWf) : Out.Wf (execVxor f s) := bitsOp_wf h
theorem execVandn_wf {s : State} {f} (h : s.MemoryWf) : Out.Wf (execVandn f s) := bitsOp_wf h
theorem execVnot_wf {s : State} {f} (h : s.MemoryWf) : Out.Wf (execVnot f s) := bitsOp_wf h
theorem execVshl_wf {s : State} {f} (h : s.MemoryWf) : Out.Wf (execVshl f s) := bitsOp_wf h
theorem execVshr_wf {s : State} {f} (h : s.MemoryWf) : Out.Wf (execVshr f s) := bitsOp_wf h
theorem execVsra_wf {s : State} {f} (h : s.MemoryWf) : Out.Wf (execVsra f s) := bitsOp_wf h
theorem execVclz_wf {s : State} {f} (h : s.MemoryWf) : Out.Wf (execVclz f s) := bitsOp_wf h
theorem execVpop_wf {s : State} {f} (h : s.MemoryWf) : Out.Wf (execVpop f s) := bitsOp_wf h
theorem execVbrev_wf {s : State} {f} (h : s.MemoryWf) : Out.Wf (execVbrev f s) := bitsOp_wf h
theorem byteSum_wf {s : State} {f term} (h : s.MemoryWf) : Out.Wf (byteSum s f term) := settle_wf (vectorOp_wf h)
theorem execVsad_wf {s : State} {f} (h : s.MemoryWf) : Out.Wf (execVsad f s) := byteSum_wf h
theorem execVdot4_wf {s : State} {f} (h : s.MemoryWf) : Out.Wf (execVdot4 f s) := byteSum_wf h
theorem execVmov_wf {s : State} {f} (h : s.MemoryWf) : Out.Wf (execVmov f s) := settle_wf (vectorOp_wf h)
theorem execVsel_wf {s : State} {f} (h : s.MemoryWf) : Out.Wf (execVsel f s) := settle_wf (vectorOp_wf h)
theorem execVbcast_wf {s : State} {f} (h : s.MemoryWf) : Out.Wf (execVbcast f s) := settle_wf (vectorOp_wf h)
theorem execVlane_wf {s : State} {f} (h : s.MemoryWf) : Out.Wf (execVlane f s) := settle_wf (vectorOp_wf h)
theorem execVlaneGet_wf {s : State} {f} (h : s.MemoryWf) : Out.Wf (execVlaneGet f s) := settle_wf (Res.ite_wf h (orTrap_wf h h))
theorem execVlanePut_wf {s : State} {f} (h : s.MemoryWf) : Out.Wf (execVlanePut f s) := settle_wf (Res.ite_wf h (orTrap_wf h h))
theorem execVli_wf {s : State} {f} (h : s.MemoryWf) : Out.Wf (execVli f s) := settle_wf (vectorOp_wf h)
theorem execVaddImm_wf {s : State} {f} (h : s.MemoryWf) : Out.Wf (execVaddImm f s) := settle_wf (vectorOp_wf h)
theorem execVandImm_wf {s : State} {f} (h : s.MemoryWf) : Out.Wf (execVandImm f s) := settle_wf (vectorOp_wf h)
theorem compareOp_wf {s : State} {m reads d exc q} (h : s.MemoryWf) : (compareOp s m reads d exc q).Wf :=
  Res.ite_wf h (orTrap_wf h (orTrap_wf h (State.orF_wf h)))
theorem execVcmp_wf {s : State} {f} (h : s.MemoryWf) : Out.Wf (execVcmp f s) := settle_wf (compareOp_wf h)
theorem predOp_wf {s : State} {f op} (h : s.MemoryWf) : Out.Wf (predOp f s op) := settle_wf (orTrap_wf h h)
theorem execPand_wf {s : State} {f} (h : s.MemoryWf) : Out.Wf (execPand f s) := predOp_wf h
theorem execPor_wf {s : State} {f} (h : s.MemoryWf) : Out.Wf (execPor f s) := predOp_wf h
theorem execPxor_wf {s : State} {f} (h : s.MemoryWf) : Out.Wf (execPxor f s) := predOp_wf h
theorem execPnot_wf {s : State} {f} (h : s.MemoryWf) : Out.Wf (execPnot f s) := predOp_wf h
theorem execPset_wf {s : State} {f} (h : s.MemoryWf) : Out.Wf (execPset f s) := settle_wf h

/-! ## Machine/FloatArith: floating point -/

theorem fpVector_wf {s : State} {f useB useC el} (h : s.MemoryWf) : Out.Wf (fpVector s f useB useC el) :=
  settle_wf (vectorOp_wf h)
theorem fpOp_wf {s : State} {f useB useC x} (h : s.MemoryWf) : Out.Wf (fpOp s f useB useC x) := by
  unfold fpOp
  exact fpVector_wf h
theorem execFadd_wf {s : State} {f} (h : s.MemoryWf) : Out.Wf (execFadd f s) := fpOp_wf h
theorem execFsub_wf {s : State} {f} (h : s.MemoryWf) : Out.Wf (execFsub f s) := fpOp_wf h
theorem execFmul_wf {s : State} {f} (h : s.MemoryWf) : Out.Wf (execFmul f s) := fpOp_wf h
theorem execFfma_wf {s : State} {f} (h : s.MemoryWf) : Out.Wf (execFfma f s) := fpOp_wf h
theorem execFmin_wf {s : State} {f} (h : s.MemoryWf) : Out.Wf (execFmin f s) := fpVector_wf h
theorem execFmax_wf {s : State} {f} (h : s.MemoryWf) : Out.Wf (execFmax f s) := fpVector_wf h
theorem execFdiv_wf {s : State} {f} (h : s.MemoryWf) : Out.Wf (execFdiv f s) := fpOp_wf h
theorem execFsqrt_wf {s : State} {f} (h : s.MemoryWf) : Out.Wf (execFsqrt f s) := fpOp_wf h
theorem execFrcp_wf {s : State} {f} (h : s.MemoryWf) : Out.Wf (execFrcp f s) := fpOp_wf h
theorem execFrsq_wf {s : State} {f} (h : s.MemoryWf) : Out.Wf (execFrsq f s) := fpOp_wf h
theorem execFexp2_wf {s : State} {f} (h : s.MemoryWf) : Out.Wf (execFexp2 f s) := fpOp_wf h
theorem execFlog2_wf {s : State} {f} (h : s.MemoryWf) : Out.Wf (execFlog2 f s) := fpOp_wf h
theorem execFsin_wf {s : State} {f} (h : s.MemoryWf) : Out.Wf (execFsin f s) := fpOp_wf h
theorem execFcos_wf {s : State} {f} (h : s.MemoryWf) : Out.Wf (execFcos f s) := fpOp_wf h
theorem execFrnd_wf {s : State} {f} (h : s.MemoryWf) : Out.Wf (execFrnd f s) := fpVector_wf h
theorem execFscale_wf {s : State} {f} (h : s.MemoryWf) : Out.Wf (execFscale f s) := settle_wf (vectorOp_wf h)
theorem execFcmp_wf {s : State} {f} (h : s.MemoryWf) : Out.Wf (execFcmp f s) := settle_wf (compareOp_wf h)
theorem execFclass_wf {s : State} {f} (h : s.MemoryWf) : Out.Wf (execFclass f s) := settle_wf (vectorOp_wf h)
theorem execFsgn_wf {s : State} {f} (h : s.MemoryWf) : Out.Wf (execFsgn f s) := by
  unfold execFsgn
  exact fpVector_wf h

/-! ## Machine/Convert: conversions -/

theorem advanceAfter_wf {adv r} (hr : r.Wf) : (advanceAfter adv r).Wf := by
  unfold advanceAfter
  split
  · exact State.advancePhase_wf hr
  · exact hr

theorem execCvt_wf {s : State} {f} (h : s.MemoryWf) : Out.Wf (execCvt f s) := settle_wf (advanceAfter_wf (vectorOp_wf h))
theorem execVpack_wf {s : State} {f} (h : s.MemoryWf) : Out.Wf (execVpack f s) := settle_wf (advanceAfter_wf (vectorOp_wf h))

theorem execVunpk_wf {s : State} {f} (h : s.MemoryWf) : Out.Wf (execVunpk f s) := by
  refine settle_wf (Res.ite_wf h (orTrap_wf h (orTrap_wf h ?_)))
  extract_lets s1 s2
  have h1 : s1.MemoryWf := setV_foldl_wf h _
  clear_value s1
  exact ite_wf h1 h1

theorem execVdith_wf {s : State} {f} (h : s.MemoryWf) : Out.Wf (execVdith f s) := settle_wf (advanceAfter_wf (vectorOp_wf h))

/-! ## Machine/Lanes: lane movement -/

theorem laneMove_wf {s : State} {f more k} (h : s.MemoryWf) : (laneMove s f more k).Wf := vectorOp_wf h
theorem execVshfl_wf {s : State} {f} (h : s.MemoryWf) : Out.Wf (execVshfl f s) := settle_wf (laneMove_wf h)
theorem execVshflXor_wf {s : State} {f} (h : s.MemoryWf) : Out.Wf (execVshflXor f s) := settle_wf (laneMove_wf h)
theorem execVrot_wf {s : State} {f} (h : s.MemoryWf) : Out.Wf (execVrot f s) := settle_wf (laneMove_wf h)
theorem execVred_wf {s : State} {f} (h : s.MemoryWf) : Out.Wf (execVred f s) :=
  settle_wf (Res.ite_wf h (orTrap_wf h (orTrap_wf h (State.orF_wf h))))
theorem execVscan_wf {s : State} {f} (h : s.MemoryWf) : Out.Wf (execVscan f s) :=
  settle_wf (Res.ite_wf h (orTrap_wf h (orTrap_wf h (State.orSat_wf (State.orF_wf h)))))
theorem execVballot_wf {s : State} {f} (h : s.MemoryWf) : Out.Wf (execVballot f s) := settle_wf (Res.ite_wf h (orTrap_wf h h))
theorem execVballotCnt_wf {s : State} {f} (h : s.MemoryWf) : Out.Wf (execVballotCnt f s) :=
  settle_wf (Res.ite_wf h (orTrap_wf h h))
theorem pairedMove_wf {s : State} {f more ps} (h : s.MemoryWf) : (pairedMove s f more ps).Wf := Res.ite_wf h (orTrap_wf h h)
theorem execVcompress_wf {s : State} {f} (h : s.MemoryWf) : Out.Wf (execVcompress f s) := settle_wf (pairedMove_wf h)
theorem execVexpand_wf {s : State} {f} (h : s.MemoryWf) : Out.Wf (execVexpand f s) := settle_wf (pairedMove_wf h)

/-! ## Machine/Matrix: matrix instructions -/

theorem accWrite_wf {s : State} {n m q x} (h : s.MemoryWf) : (accWrite s n m q x).MemoryWf := h
theorem accumulate_wf {s : State} {f m w ecol flags} (h : s.MemoryWf) : (accumulate s f m w ecol flags).MemoryWf :=
  State.orQ_wf (accWrite_wf h)
theorem execMac_wf {s : State} {f} (h : s.MemoryWf) : Out.Wf (execMac f s) :=
  settle_wf (Res.ite_wf h (orTrap_wf h (accumulate_wf h)))

theorem execMacg_wf {s : State} {f} (h : s.MemoryWf) : Out.Wf (execMacg f s) := by
  refine settle_wf (Res.ite_wf h (orTrap_wf h (withTile_wf h fun w => withTile_wf h fun sc => orTrap_wf h ?_)))
  dsimp only
  split
  next hc => exact checkAccess_bad_wf hc h
  next hc => exact accumulate_wf (checkAccess_ok_wf hc h)

theorem execAzero_wf {s : State} {f} (h : s.MemoryWf) : Out.Wf (execAzero f s) :=
  settle_wf (r := .next _) (ite_wf h (accWrite_wf h))
theorem execAmov_wf {s : State} {f} (h : s.MemoryWf) : Out.Wf (execAmov f s) :=
  settle_wf (Res.ite_wf h (orTrap_wf h (accWrite_wf h)))

theorem execAput_wf {s : State} {f} (h : s.MemoryWf) : Out.Wf (execAput f s) := by
  unfold execAput
  extract_lets g m col conv
  refine settle_wf (Res.ite_wf h (orTrap_wf h (orTrap_wf h (orTrap_wf h (orTrap_wf h ?_)))))
  exact ite_wf (State.orQ_wf (State.orF_wf (accWrite_wf h))) (State.orF_wf (accWrite_wf h))

theorem execAread_wf {s : State} {f} (h : s.MemoryWf) : Out.Wf (execAread f s) := by
  unfold execAread
  extract_lets g m c0 w n cols res exc reads
  refine settle_wf (advanceAfter_wf (Res.ite_wf h (orTrap_wf h (orTrap_wf h (orTrap_wf h (orTrap_wf h ?_))))))
  exact State.orSat_wf (State.orF_wf (setV_foldl_wf h _))

/-! ## Machine/MemEvents: events of memory -/

theorem execStoreDrain_wf {s : State} {core slot} (h : s.MemoryWf) : Out.Wf (execStoreDrain core slot s) :=
  done_wf (State.onSlot_wf _ _ (fun _ w => State.drainOne_wf w) h)

theorem State.evictLine_wf {s : State} {line} (h : s.MemoryWf) : (s.evictLine line).MemoryWf := by
  unfold State.evictLine
  refine ite_wf h ?_
  extract_lets secs s1 ms
  have h1 : s1.MemoryWf := State.splitSectors_wf (MemSys.recall_wf _ _ h)
  exact ite_wf h1 (MemSys.discard_wf _ (MemSys.writeBack_wf _ h1))

theorem execLineEviction_wf {s : State} {line} (h : s.MemoryWf) : Out.Wf (execLineEviction line s) :=
  done_wf (State.evictLine_wf h)
theorem State.poisonItem_wf {s : State} {core slot t} (h : s.MemoryWf) : (s.poisonItem core slot t).MemoryWf :=
  State.onSlot_wf _ _ (fun _ w => w) h

theorem execUncorrectableError_wf {s : State} {at_} (h : s.MemoryWf) : Out.Wf (execUncorrectableError at_ s) := by
  refine done_wf ?_
  split
  · exact ite_wf h h
  · exact ite_wf h h
  · exact ite_wf h (State.poisonItem_wf h)
  · exact ite_wf h (State.poisonItem_wf h)
  · exact ite_wf h (State.poisonItem_wf h)
  · exact ite_wf h (State.poisonItem_wf h)
  · exact ite_wf h (State.poisonItem_wf h)
  · exact ite_wf h (State.poisonItem_wf h)
  · exact h
  · exact h
  · exact h

theorem execCorrectableSoftError_wf {s : State} {at_} (h : s.MemoryWf) : Out.Wf (execCorrectableSoftError at_ s) := done_wf h

/-! ## Machine/Outside: the outside world and management -/

theorem State.quarantine_wf {s : State} {p addr} (h : s.MemoryWf) : (s.quarantine p addr).MemoryWf :=
  State.foldl_wf (fun _ _ w => State.quarantineCtx_wf w) _ h

theorem State.raiseAlarm_wf {s : State} {fsect addr} (h : s.MemoryWf) : (s.raiseAlarm fsect addr).MemoryWf := by
  unfold State.raiseAlarm
  split
  · exact h
  extract_lets _ s1 s2 s3
  have h1 : s1.MemoryWf := h
  have h2 : s2.MemoryWf := State.failCheckpoint_wf _ _ h1
  have h3 : s3.MemoryWf := ite_wf h2 (ite_wf h2 (State.quarantine_wf h2))
  clear_value s3
  exact ite_wf h3 h3

theorem execAlarm_wf {s : State} {fsect addr} (h : s.MemoryWf) : Out.Wf (execAlarm fsect addr s) :=
  done_wf (State.whenAwake_wf _ (fun _ w => State.raiseAlarm_wf w) h)
theorem State.raiseDue_wf {s : State} (h : s.MemoryWf) : s.raiseDue.MemoryWf :=
  State.foldl_wf (fun _ _ w => State.raiseAlarm_wf w) _ h

theorem execTamperSensor_wf {s : State} (h : s.MemoryWf) : Out.Wf (execTamperSensor s) := by
  refine done_wf (State.foldl_wf (fun t x w => ?_) _ h)
  split
  · exact State.raiseAlarm_wf w
  · exact w

theorem State.inboundMem_wf {s : State} {a} (h : s.MemoryWf) : (s.inboundMem a).MemoryWf := by
  unfold State.inboundMem
  split
  · exact h
  extract_lets n allowed fabric
  refine ite_wf h (ite_wf (State.raiseAlarm_wf h) (ite_wf h ?_))
  split
  · exact MemSys.recall_wf _ _ h
  · exact State.memWrite_wf _ _ h
  · exact ite_wf h (MemSys.atomic_wf _ _ _ _ _ h)

theorem State.mgmtWrite_wf {s : State} {offset value} (h : s.MemoryWf) : (s.mgmtWrite offset value).MemoryWf := by
  unfold State.mgmtWrite
  split
  · exact h
  · exact ite_wf h h
  · exact h
  · exact h
  · exact h

theorem State.throughWindow_wf {s : State} {m write offset k} (h : s.MemoryWf) (hk : ∀ t, t.MemoryWf → (k t).MemoryWf) :
    (s.throughWindow m write offset k).MemoryWf := by
  unfold State.throughWindow
  split
  · exact hk _ h
  · exact State.foldl_wf (fun t x w => State.raiseAlarm_wf w) _ h

theorem State.mgmtArrives_wf {s : State} {offset value} (h : s.MemoryWf) : (s.mgmtArrives offset value).MemoryWf :=
  State.throughWindow_wf h (fun _ w => State.mgmtWrite_wf w)
theorem State.mgmtWhenAwake_wf {s : State} {offset value} (h : s.MemoryWf) : (s.mgmtWhenAwake offset value).MemoryWf :=
  State.whenAwake_wf _ (fun _ w => State.mgmtArrives_wf w) h
theorem execLtolWrite_wf {s : State} {value} (h : s.MemoryWf) : Out.Wf (execLtolWrite value s) :=
  done_wf (State.mgmtWhenAwake_wf h)
theorem execThotWrite_wf {s : State} {value} (h : s.MemoryWf) : Out.Wf (execThotWrite value s) :=
  done_wf (State.mgmtWhenAwake_wf h)
theorem execAlpolWrite_wf {s : State} {value} (h : s.MemoryWf) : Out.Wf (execAlpolWrite value s) :=
  done_wf (State.mgmtWhenAwake_wf h)
theorem execAlarmWrite_wf {s : State} {ones} (h : s.MemoryWf) : Out.Wf (execAlarmWrite ones s) :=
  done_wf (State.mgmtWhenAwake_wf h)
theorem execMgmtRegisterWrite_wf {s : State} {offset value} (h : s.MemoryWf) : Out.Wf (execMgmtRegisterWrite offset value s) :=
  done_wf (State.mgmtWhenAwake_wf h)

theorem State.inbound_wf {s : State} {a} (h : s.MemoryWf) : (s.inbound a).MemoryWf := by
  unfold State.inbound
  split
  · refine ite_wf h (State.throughWindow_wf h fun t w => ?_)
    split
    · exact State.mgmtWrite_wf w
    · exact w
  · exact State.inboundMem_wf h

theorem execInboundAccess_wf {s : State} {a} (h : s.MemoryWf) : Out.Wf (execInboundAccess a s) :=
  done_wf (State.whenAwake_wf _ (fun _ w => State.inbound_wf w) h)

/-- Both memories of the reset state are empty. -/
theorem reset_wf : State.reset.MemoryWf := ⟨rfl, rfl⟩
theorem execColdReset_wf {s : State} : Out.Wf (execColdReset s) := done_wf (State.MemoryWf.of_ms reset_wf rfl)
theorem execImageCheck_wf {s : State} {image key} (h : s.MemoryWf) : Out.Wf (execImageCheck image key s) :=
  done_wf (State.throughWindow_wf h fun _ w => ite_wf w (ite_wf w w))
theorem execQuote_wf {s : State} {nonce} (h : s.MemoryWf) : Out.Wf (execQuote nonce s) :=
  done_wf (State.throughWindow_wf h fun _ w => State.throughWindow_wf w fun _ w1 => ite_wf w1 w1)

theorem State.finishCheckpoint_wf {s : State} {p target} (h : s.MemoryWf) : (s.finishCheckpoint p target).MemoryWf := by
  unfold State.finishCheckpoint
  split
  · exact State.failCheckpoint_wf _ _ h
  · exact State.endCheckpoint_wf _ _ _ _ _ h

theorem State.checkpointOne_wf {s : State} {fsect target} (h : s.MemoryWf) : (s.checkpointOne fsect target).MemoryWf := by
  unfold State.checkpointOne
  split
  · exact h
  split
  · exact State.foldl_wf (fun _ _ w => State.preEmpt_wf w) _ h
  · exact ite_wf (State.finishCheckpoint_wf h) h

theorem execCheckpoint_wf {s : State} {parts} (h : s.MemoryWf) : Out.Wf (execCheckpoint parts s) :=
  done_wf (State.foldl_wf (fun _ _ w => State.checkpointOne_wf w) _ h)

theorem execCheckpointRestore_wf {s : State} {fsect target} (h : s.MemoryWf) : Out.Wf (execCheckpointRestore fsect target s) := by
  refine done_wf ?_
  split
  · exact h
  next p _ => exact ite_wf h (State.foldl_wf (fun _ _ w => ite_wf (State.writeSy_wf _ _ w) w) _ (State.copyRange_wf _ _ _ h))

theorem execVerticalBlank_wf {s : State} {head} (h : s.MemoryWf) : Out.Wf (execVerticalBlank head s) := by
  refine done_wf ?_
  split
  next p a _ _ =>
    extract_lets d ok hd _ s1 c
    have h1 : s1.MemoryWf := h
    exact ite_wf (State.memPut_wf _ _ _ h1) h1
  · exact h

theorem execHeadDescriptorSet_wf {s : State} {head addr} (h : s.MemoryWf) : Out.Wf (execHeadDescriptorSet head addr s) :=
  done_wf (ite_wf h h)

theorem execEncodeJob_wf {s : State} {sector addr} (h : s.MemoryWf) : Out.Wf (execEncodeJob sector addr s) := by
  refine done_wf ?_
  split
  · exact h
  · exact ite_wf h h

theorem State.rawWrite_wf {s : State} {k b} (h : s.MemoryWf) : (s.rawWrite k b).MemoryWf := by
  refine State.foldl_wf (fun t x w => ?_) _ ⟨h.1, memSetAll_wf h.2⟩
  exact ite_wf w (ite_wf w ⟨memSetAll_wf w.1, w.2⟩)

theorem execEncodeComplete_wf {s : State} {sector bits} (h : s.MemoryWf) : Out.Wf (execEncodeComplete sector bits s) := by
  -- The kernel would evaluate these two functions in every branch: they stand as variables.
  obtain ⟨ring, hring⟩ : ∃ ring, ring = EncJob.ring := ⟨_, rfl⟩
  obtain ⟨holds, hholds⟩ : ∃ holds, holds = Part.holds := ⟨_, rfl⟩
  unfold execEncodeComplete
  rw [← hring, ← hholds]
  refine done_wf ?_
  split
  next j p _ _ =>
    extract_lets s1
    have h1 : s1.MemoryWf := ite_wf (State.seen_wf h) h
    clear_value s1
    split
    · exact h1
    · exact h1
    · exact State.endJob_wf (State.rawWrite_wf h1)
  · exact h

theorem State.emptySlices_wf {s : State} (h : s.MemoryWf) : s.emptySlices.MemoryWf :=
  MemSys.discard_wf _ (MemSys.writeBackAll_wf h)

theorem execPowerStateEntry_wf {s : State} (h : s.MemoryWf) : Out.Wf (execPowerStateEntry s) := by
  unfold execPowerStateEntry
  extract_lets l
  split
  next quiet s1 hq =>
    have h1 : s1.MemoryWf := snd_wf hq h
    extract_lets k
    exact done_wf (ite_wf h (State.MemoryWf.of_ms (ite_wf (State.emptySlices_wf h1) h1) rfl))

theorem execWake_wf {s : State} {held} (h : s.MemoryWf) : Out.Wf (execWake held s) := by
  refine done_wf ?_
  split <;> exact h

theorem State.performHeld_wf {s : State} {a} (h : s.MemoryWf) : (s.performHeld a).MemoryWf := by
  unfold State.performHeld
  split
  · exact State.doorbell_wf h
  · exact State.inbound_wf h
  · exact State.mgmtArrives_wf h
  · exact State.raiseAlarm_wf h
  · exact h

theorem execPowerStateExitComplete_wf {s : State} (h : s.MemoryWf) : Out.Wf (execPowerStateExitComplete s) := by
  refine done_wf ?_
  split <;> exact h

/-! ## Machine/Dispatch: every instruction and event -/

/-- Each instruction and each event keeps the form. -/
theorem exec_wf {s : State} {i} (h : s.MemoryWf) : Out.Wf (exec i s) := by
  cases i with
  | sadd _ => exact execSadd_wf h
  | ssub _ => exact execSsub_wf h
  | smul _ => exact execSmul_wf h
  | smulh _ => exact execSmulh_wf h
  | sdiv _ => exact execSdiv_wf h
  | srem _ => exact execSrem_wf h
  | smin _ => exact execSmin_wf h
  | smax _ => exact execSmax_wf h
  | sabs _ => exact execSabs_wf h
  | slea _ => exact execSlea_wf h
  | sand _ => exact execSand_wf h
  | sor _ => exact execSor_wf h
  | sxor _ => exact execSxor_wf h
  | sandn _ => exact execSandn_wf h
  | sshl _ => exact execSshl_wf h
  | sshr _ => exact execSshr_wf h
  | ssra _ => exact execSsra_wf h
  | srot _ => exact execSrot_wf h
  | sclz _ => exact execSclz_wf h
  | spop _ => exact execSpop_wf h
  | sbfx _ => exact execSbfx_wf h
  | sbfi _ => exact execSbfi_wf h
  | ssel _ => exact execSsel_wf h
  | smov _ => exact execSmov_wf h
  | scmp _ => exact execScmp_wf h
  | saddImm _ => exact execSaddImm_wf h
  | smulImm _ => exact execSmulImm_wf h
  | sminImm _ => exact execSminImm_wf h
  | smaxImm _ => exact execSmaxImm_wf h
  | sandImm _ => exact execSandImm_wf h
  | sorImm _ => exact execSorImm_wf h
  | sxorImm _ => exact execSxorImm_wf h
  | sshlImm _ => exact execSshlImm_wf h
  | sshrImm _ => exact execSshrImm_wf h
  | ssraImm _ => exact execSsraImm_wf h
  | srotImm _ => exact execSrotImm_wf h
  | sli _ => exact execSli_wf h
  | slih _ => exact execSlih_wf h
  | scmpImm _ => exact execScmpImm_wf h
  | br _ => exact execBr_wf h
  | brc _ => exact execBrc_wf h
  | brm _ => exact execBrm_wf h
  | call _ => exact execCall_wf h
  | ret _ => exact execRet_wf h
  | jt _ => exact execJt_wf h
  | mif _ => exact execMif_wf h
  | melse f => exact execMelse_wf (f := f) h
  | mend f => exact execMend_wf (f := f) h
  | mloop _ => exact execMloop_wf h
  | exit f => exact execExit_wf (f := f) h
  | yield f => exact execYield_wf (f := f) h
  | nop f => exact execNop_wf (f := f) h
  | vadd _ => exact execVadd_wf h
  | vsub _ => exact execVsub_wf h
  | vmul _ => exact execVmul_wf h
  | vmulh _ => exact execVmulh_wf h
  | vmad _ => exact execVmad_wf h
  | vdiv _ => exact execVdiv_wf h
  | vrem _ => exact execVrem_wf h
  | vmin _ => exact execVmin_wf h
  | vmax _ => exact execVmax_wf h
  | vabs _ => exact execVabs_wf h
  | vneg _ => exact execVneg_wf h
  | vand _ => exact execVand_wf h
  | vor _ => exact execVor_wf h
  | vxor _ => exact execVxor_wf h
  | vandn _ => exact execVandn_wf h
  | vnot _ => exact execVnot_wf h
  | vshl _ => exact execVshl_wf h
  | vshr _ => exact execVshr_wf h
  | vsra _ => exact execVsra_wf h
  | vclz _ => exact execVclz_wf h
  | vpop _ => exact execVpop_wf h
  | vbrev _ => exact execVbrev_wf h
  | vsad _ => exact execVsad_wf h
  | vdot4 _ => exact execVdot4_wf h
  | vmov _ => exact execVmov_wf h
  | vsel _ => exact execVsel_wf h
  | vbcast _ => exact execVbcast_wf h
  | vlane _ => exact execVlane_wf h
  | vlaneGet _ => exact execVlaneGet_wf h
  | vlanePut _ => exact execVlanePut_wf h
  | vli _ => exact execVli_wf h
  | vaddImm _ => exact execVaddImm_wf h
  | vandImm _ => exact execVandImm_wf h
  | vcmp _ => exact execVcmp_wf h
  | fadd _ => exact execFadd_wf h
  | fsub _ => exact execFsub_wf h
  | fmul _ => exact execFmul_wf h
  | ffma _ => exact execFfma_wf h
  | fmin _ => exact execFmin_wf h
  | fmax _ => exact execFmax_wf h
  | fdiv _ => exact execFdiv_wf h
  | fsqrt _ => exact execFsqrt_wf h
  | frcp _ => exact execFrcp_wf h
  | frsq _ => exact execFrsq_wf h
  | fexp2 _ => exact execFexp2_wf h
  | flog2 _ => exact execFlog2_wf h
  | fsin _ => exact execFsin_wf h
  | fcos _ => exact execFcos_wf h
  | frnd _ => exact execFrnd_wf h
  | fcmp _ => exact execFcmp_wf h
  | fclass _ => exact execFclass_wf h
  | fscale _ => exact execFscale_wf h
  | fsgn _ => exact execFsgn_wf h
  | cvt _ => exact execCvt_wf h
  | vpack _ => exact execVpack_wf h
  | vunpk _ => exact execVunpk_wf h
  | vdith _ => exact execVdith_wf h
  | vshfl _ => exact execVshfl_wf h
  | vshflXor _ => exact execVshflXor_wf h
  | vrot _ => exact execVrot_wf h
  | vred _ => exact execVred_wf h
  | vscan _ => exact execVscan_wf h
  | vballot _ => exact execVballot_wf h
  | vballotCnt _ => exact execVballotCnt_wf h
  | vcompress _ => exact execVcompress_wf h
  | vexpand _ => exact execVexpand_wf h
  | pand _ => exact execPand_wf h
  | por _ => exact execPor_wf h
  | pxor _ => exact execPxor_wf h
  | pnot _ => exact execPnot_wf h
  | pset _ => exact execPset_wf h
  | ld _ => exact execLd_wf h
  | ldSigned _ => exact execLdSigned_wf h
  | ldu _ => exact execLdu_wf h
  | lduSigned _ => exact execLduSigned_wf h
  | st _ => exact execSt_wf h
  | stu _ => exact execStu_wf h
  | pref _ => exact execPref_wf h
  | cwb _ => exact execCwb_wf h
  | cinv _ => exact execCinv_wf h
  | cwbi _ => exact execCwbi_wf h
  | atom _ => exact execAtom_wf h
  | atomu _ => exact execAtomu_wf h
  | red _ => exact execRed_wf h
  | storeDrain _ _ => exact execStoreDrain_wf h
  | lineOwnershipGrant _ _ => exact execLineOwnershipGrant_wf h
  | lineEviction _ => exact execLineEviction_wf h
  | fence _ => exact execFence_wf h
  | xfence _ => exact execXfence_wf h
  | talloc _ => exact execTalloc_wf h
  | tfree _ => exact execTfree_wf h
  | tinfo _ => exact execTinfo_wf h
  | tsetFull _ => exact execTsetFull_wf h
  | tsetEmpty _ => exact execTsetEmpty_wf h
  | twait _ => exact execTwait_wf h
  | tld _ => exact execTld_wf h
  | tst _ => exact execTst_wf h
  | tldw _ => exact execTldw_wf h
  | tldc _ => exact execTldc_wf h
  | tstw _ => exact execTstw_wf h
  | tcpi _ => exact execTcpi_wf h
  | tcpo _ => exact execTcpo_wf h
  | tcpm _ => exact execTcpm_wf h
  | inboundWrite _ => exact execInboundWrite_wf h
  | copyComplete _ => exact execCopyComplete_wf h
  | mac _ => exact execMac_wf h
  | macg _ => exact execMacg_wf h
  | azero _ => exact execAzero_wf h
  | amov _ => exact execAmov_wf h
  | aput _ => exact execAput_wf h
  | aread _ => exact execAread_wf h
  | sdfe _ => exact execSdfe_wf h
  | sdfprune _ => exact execSdfprune_wf h
  | march _ => exact execMarch_wf h
  | mres _ => exact execMres_wf h
  | mresume _ => exact execMresume_wf h
  | mcancel _ => exact execMcancel_wf h
  | bsample _ => exact execBsample_wf h
  | rayStep _ _ _ => exact execRayStep_wf h
  | vis _ => exact execVis_wf h
  | visMerge _ => exact execVisMerge_wf h
  | rast _ => exact execRast_wf h
  | triangleRaster _ => exact execTriangleRaster_wf h
  | drawComplete _ => exact execDrawComplete_wf h
  | rproj _ => exact execRproj_wf h
  | fetch _ => exact execFetch_wf h
  | launch _ => exact execLaunch_wf h
  | join _ => exact execJoin_wf h
  | hpass _ => exact execHpass_wf h
  | linfo _ => exact execLinfo_wf h
  | barInit _ => exact execBarInit_wf h
  | barArr _ => exact execBarArr_wf h
  | barWait _ => exact execBarWait_wf h
  | barSync _ => exact execBarSync_wf h
  | barSyncPeer _ => exact execBarSyncPeer_wf h
  | barDrop _ => exact execBarDrop_wf h
  | barDropPeer _ => exact execBarDropPeer_wf h
  | barPeer _ => exact execBarPeer_wf h
  | barGrid f => exact execBarGrid_wf (f := f) h
  | enq _ => exact execEnq_wf h
  | qfence f => exact execQfence_wf (f := f) h
  | cnt _ => exact execCnt_wf h
  | cntWait _ => exact execCntWait_wf h
  | cancel _ => exact execCancel_wf h
  | mfs _ => exact execMfs_wf h
  | mts _ => exact execMts_wf h
  | trap _ => exact execTrap_wf h
  | brk _ => exact execBrk_wf h
  | tret f => exact execTret_wf (f := f) h
  | tretSkip f => exact execTretSkip_wf (f := f) h
  | fwcallSys _ => exact execFwcallSys_wf h
  | fwcallXz f => exact execFwcallXz_wf (f := f) h
  | fwcallReply _ _ _ => exact execFwcallReply_wf h
  | lput _ => exact execLput_wf h
  | lget _ => exact execLget_wf h
  | linkUnitComplete _ => exact execLinkUnitComplete_wf h
  | serve _ _ => exact execServe_wf h
  | forward _ _ => exact execForward_wf h
  | fail _ _ => exact execFail_wf h
  | conditionMet _ _ => exact execConditionMet_wf h
  | loadComplete _ _ => exact execLoadComplete_wf h
  | saveComplete _ _ => exact execSaveComplete_wf h
  | discardComplete _ _ => exact execDiscardComplete_wf h
  | restore _ _ => exact execRestore_wf h
  | swapOutAtJoin _ _ => exact execSwapOutAtJoin_wf h
  | serviceComplete _ => exact execServiceComplete_wf h
  | serviceFails _ => exact execServiceFails_wf h
  | invalidation _ _ _ => exact execInvalidation_wf h
  | invalidationComplete _ _ _ => exact execInvalidationComplete_wf h
  | watchpointSet _ _ => exact execWatchpointSet_wf h
  | uncorrectableError _ => exact execUncorrectableError_wf h
  | doorbellWrite _ _ _ => exact execDoorbellWrite_wf h
  | queueCreate _ _ => exact execQueueCreate_wf h
  | queueRestart _ _ _ => exact execQueueRestart_wf h
  | queueDestroy _ _ => exact execQueueDestroy_wf h
  | launchPacket _ => exact execLaunchPacket_wf h
  | taskPacket _ => exact execTaskPacket_wf h
  | copyPacket _ => exact execCopyPacket_wf h
  | graphPacket _ => exact execGraphPacket_wf h
  | condPacket _ => exact execCondPacket_wf h
  | loopPacket _ => exact execLoopPacket_wf h
  | loopIterationEnd _ => exact execLoopIterationEnd_wf h
  | signalPacket _ => exact execSignalPacket_wf h
  | waitPacket _ => exact execWaitPacket_wf h
  | copyRecordWrite _ => exact execCopyRecordWrite_wf h
  | packetComplete _ => exact execPacketComplete_wf h
  | policyWrite _ _ => exact execPolicyWrite_wf h
  | admission _ _ => exact execAdmission_wf h
  | ageLimit _ _ => exact execAgeLimit_wf h
  | stagingLanding _ => exact execStagingLanding_wf h
  | stagingPromotion _ => exact execStagingPromotion_wf h
  | dispatch _ _ => exact execDispatch_wf h
  | stagingDeadline _ _ => exact execStagingDeadline_wf h
  | issueStarvation _ _ => exact execIssueStarvation_wf h
  | yieldExpiry _ _ => exact execYieldExpiry_wf h
  | hotFlagSet _ => exact execHotFlagSet_wf h
  | hotFlagClear _ => exact execHotFlagClear_wf h
  | sensorSample => exact execSensorSample_wf h
  | powerCapStep _ => exact execPowerCapStep_wf h
  | bind _ => exact execBind_wf h
  | unbind _ _ => exact execUnbind_wf h
  | create _ => exact execCreate_wf h
  | contextBind _ => exact execContextBind_wf h
  | preEmpt _ => exact execPreEmpt_wf h
  | switchComplete _ => exact execSwitchComplete_wf h
  | resume _ => exact execResume_wf h
  | destroy _ => exact execDestroy_wf h
  | teardownComplete _ => exact execTeardownComplete_wf h
  | portEnable _ => exact execPortEnable_wf h
  | portDisable _ => exact execPortDisable_wf h
  | trainingAttemptEnd _ _ => exact execTrainingAttemptEnd_wf h
  | laneFailure _ _ => exact execLaneFailure_wf h
  | crcRetryLimit _ => exact execCrcRetryLimit_wf h
  | flitRetry port => exact execFlitRetry_wf (port := port) h
  | routingTableWrite _ _ _ => exact execRoutingTableWrite_wf h
  | hostLinkTraining _ => exact execHostLinkTraining_wf h
  | inboundAccess _ => exact execInboundAccess_wf h
  | linkTimeout _ => exact execLinkTimeout_wf h
  | accessTableWrite _ => exact execAccessTableWrite_wf h
  | alarm _ _ => exact execAlarm_wf h
  | tamperSensor => exact execTamperSensor_wf h
  | quote _ => exact execQuote_wf h
  | checkpoint _ => exact execCheckpoint_wf h
  | checkpointRestore _ _ => exact execCheckpointRestore_wf h
  | coldReset => exact execColdReset_wf
  | imageCheck _ _ => exact execImageCheck_wf h
  | ltolWrite _ => exact execLtolWrite_wf h
  | thotWrite _ => exact execThotWrite_wf h
  | alpolWrite _ => exact execAlpolWrite_wf h
  | alarmWrite _ => exact execAlarmWrite_wf h
  | mgmtRegisterWrite _ _ => exact execMgmtRegisterWrite_wf h
  | powerStateEntry => exact execPowerStateEntry_wf h
  | wake _ => exact execWake_wf h
  | powerStateExitComplete => exact execPowerStateExitComplete_wf h
  | verticalBlank _ => exact execVerticalBlank_wf h
  | headDescriptorSet _ _ => exact execHeadDescriptorSet_wf h
  | encodeJob _ _ => exact execEncodeJob_wf h
  | encodeComplete _ _ => exact execEncodeComplete_wf h
  | correctableSoftError at_ => exact execCorrectableSoftError_wf (at_ := at_) h

/-! ## Machine/Run: moves -/

theorem State.serve_wf {s : State} {a} (h : s.MemoryWf) : (s.serve a).MemoryWf := by
  unfold State.serve
  split
  · split
    · exact State.landWord_wf h
    · exact h
  · split
    · exact State.endCopy_wf h
    · exact h
  · split
    · exact State.copyStep_wf h
    · exact h
  · exact State.performMerges_wf h
  · split
    · exact State.xferStep_wf h
    · exact h
  · split
    · refine ite_wf (State.landLine_wf h) ?_
      split
      · exact State.landWord_wf h
      · exact h
    · exact h

theorem serveAhead_wf : ∀ {n : Nat} {s : State}, s.MemoryWf → (serveAhead n s).MemoryWf
  | 0, _, h => h
  | n + 1, s, h => by
    unfold serveAhead
    refine ite_wf h ?_
    split
    · exact h
    · exact serveAhead_wf (State.serve_wf h)

theorem State.clearAhead_wf {s : State} (h : s.MemoryWf) : s.clearAhead.MemoryWf := serveAhead_wf h
theorem State.ahead_wf {s : State} {i} (h : s.MemoryWf) : (s.ahead i).MemoryWf := ite_wf (State.clearAhead_wf h) h

theorem runGroup_wf {s : State} (h : s.MemoryWf) : Out.Wf (runGroup s) := by
  unfold runGroup
  split
  · exact h
  split
  · exact exec_wf (State.ahead_wf h)
  split
  · exact enterBlock_wf h
  split
  next hc => exact takeTrap_wf (State.fetchWord_bad_wf hc h)
  next hc =>
    have h1 := State.fetchWord_ok_wf hc h
    split
    · exact takeTrap_wf h1
    split
    · exact takeTrap_wf h1
    · exact exec_wf (State.ahead_wf h1)

theorem State.remoteWrite_wf {s : State} {key b} (h : s.MemoryWf) : (s.remoteWrite key b).MemoryWf :=
  ite_wf h (MemSys.remoteWrite_wf h)

theorem eventMove_wf {s : State} {i} (h : s.MemoryWf) : Out.Wf (eventMove i s) := by
  unfold eventMove
  split
  · exact h
  split
  · exact exec_wf (State.ahead_wf h)
  split
  · exact h
  split
  · exact exec_wf h
  · exact h

/-- Whatever the next turn is, its move keeps the form. -/
theorem moveOf_wf {s : State} (h : s.MemoryWf) : Out.Wf (moveOf s) := by
  unfold moveOf
  split
  · exact eventMove_wf h
  · split
    · exact runGroup_wf (State.focus_wf _ h)
    · exact h
  · exact h
  · exact State.remoteWrite_wf h
  · exact ite_wf (State.setContextTable_wf h) h
  · exact State.whenAwake_wf _ (fun _ w => State.performHeld_wf w) h
  · split
    · exact runGroup_wf h
    · exact h

theorem State.ringRange_wf {s : State} {c r} (h : s.MemoryWf) : (s.ringRange c r).MemoryWf := by
  unfold State.ringRange
  split
  · exact State.foldl_wf (fun t x w => State.ringWord_wf w) _ h
  · exact h

theorem State.ringDoorbells_wf {s : State} (h : s.MemoryWf) : s.ringDoorbells.MemoryWf := by
  unfold State.ringDoorbells
  split
  · exact h
  · exact State.foldl_wf (fun t x w => State.foldl_wf (fun t1 x1 w1 => State.ringRange_wf w1) _ w) _ h

theorem State.payOne_wf {s : State} {g} (h : s.MemoryWf) : (s.payOne g).MemoryWf := by
  unfold State.payOne
  extract_lets s1 s2
  have h1 : s1.MemoryWf := ite_wf (State.onGroup_wf _ (fun _ w => State.splitRegion_wf w) h) h
  have h2 : s2.MemoryWf := State.mapGroup_wf h1
  split
  · exact State.onGroup_wf _ (fun _ w => State.beginSave_wf w) h2
  · exact State.discardGroup_wf h2
  · exact h2

theorem State.payOwed_wf {s : State} (h : s.MemoryWf) : s.payOwed.MemoryWf := State.foldl_wf (fun _ _ w => State.payOne_wf w) _ h
theorem State.fitSlices_wf {s : State} (h : s.MemoryWf) : s.fitSlices.MemoryWf :=
  ite_wf h (State.foldl_wf (fun _ _ w => ite_wf w (State.evictLine_wf w)) _ h)

theorem State.sendNext_wf {s : State} (h : s.MemoryWf) : s.sendNext.MemoryWf := by
  unfold State.sendNext
  extract_lets t
  exact ite_wf (State.sendAll_wf (State.clearAhead_wf h)) (State.sendAll_wf h)

/-- What follows every move keeps the form. -/
theorem State.afterMove_wf {s : State} (h : s.MemoryWf) : s.afterMove.MemoryWf := by
  unfold State.afterMove
  extract_lets s1
  have h1 : s1.MemoryWf :=
    State.fitSlices_wf (State.ringDoorbells_wf (State.raiseDue_wf (State.sendNext_wf (State.passTwaits_wf (State.payOwed_wf h)))))
  exact State.MemoryWf.of_ms h1 rfl

theorem afterOut_wf {o} (hk : Out.Wf o) : Out.Wf (afterOut o) := by
  cases o with
  | next s => exact State.afterMove_wf hk
  | fault r => exact trivial
  | refused r => exact trivial

/-! ## Machine/Step: the step -/

/-- The invariant: a step from a state whose memory is in canonical form leads to such a state (R4, R387). -/
theorem step_wf {s : State} (h : s.MemoryWf) : Out.Wf (step s) := afterOut_wf (moveOf_wf h)

end Sys2Proof.Machine

namespace Sys2Proof.Machine

/-! ## No step stops the machine -/

/-- An outcome that is a next state, neither a fault nor a refusal. -/
def Out.GoesOn (o : Out) : Prop := ∃ t, o = .next t

theorem Out.goesOn_next (t : State) : Out.GoesOn (.next t) := ⟨t, rfl⟩

/-- Each instruction and each event gives a next state: a cause is taken (R96, R103). -/
theorem exec_goesOn (i : Instr) (s : State) : Out.GoesOn (exec i s) := by cases i <;> exact ⟨_, rfl⟩

theorem eventMove_goesOn (i : Instr) (s : State) : Out.GoesOn (eventMove i s) := by
  unfold eventMove
  split
  · exact Out.goesOn_next _
  split
  · exact exec_goesOn i _
  split
  · exact Out.goesOn_next _
  split
  · exact exec_goesOn i s
  · exact Out.goesOn_next s

theorem runGroup_goesOn (s : State) : Out.GoesOn (runGroup s) := by
  unfold runGroup
  split
  · exact Out.goesOn_next s
  split
  · exact exec_goesOn _ _
  split
  · exact Out.goesOn_next _
  split
  · exact Out.goesOn_next _
  split
  · exact Out.goesOn_next _
  split
  · exact Out.goesOn_next _
  · exact exec_goesOn _ _

theorem moveOf_goesOn (s : State) : Out.GoesOn (moveOf s) := by
  unfold moveOf
  split
  case h_1 => exact eventMove_goesOn _ _
  case h_2 =>
    split
    · exact runGroup_goesOn _
    · exact Out.goesOn_next _
  case h_3 => exact Out.goesOn_next _
  case h_4 => exact Out.goesOn_next _
  case h_5 => exact Out.goesOn_next _
  case h_6 => exact Out.goesOn_next _
  case h_7 =>
    split
    · exact runGroup_goesOn s
    · exact Out.goesOn_next s

theorem step_goesOn (s : State) : Out.GoesOn (step s) := by
  obtain ⟨t, ht⟩ := moveOf_goesOn s
  exact ⟨t.afterMove, by rw [step, ht, afterOut]⟩

end Sys2Proof.Machine

section
open Sys2Proof Sys2Proof.Machine

/-- Settles O6: both memories of the reset state are empty, and the empty memory is in canonical form (R4, R387). -/
theorem resetMemoryWf : Obligations.ResetMemoryWf := reset_wf

/-- Settles O7, by `step_wf`: the chosen move keeps the form, whatever the instruction or event, and so does what follows
every move (R4, R387). -/
theorem stepKeepsMemoryWf : Obligations.StepKeepsMemoryWf := by
  intro s t h e
  have k : Out.Wf (step s) := step_wf h
  rwa [e] at k

/-- Settles O8, by `step_goesOn`: the outcome of every move is a next state, since a cause is taken as a trap (R6, R96, R103). -/
theorem stepAlwaysGoesOn : Obligations.StepAlwaysGoesOn := step_goesOn

end

namespace Sys2Proof.Machine

/-! # Queues

A queue's events change the queue, what memory shows of it, and what a cancel reaches. `State.jobs` is what a cancel leaves of the
queues: which there are, and the job each has come to (R263). The first part says what leaves the queues alone (`f_qs`), in the order of
the model's files; the second what keeps their jobs (`f_jobs`), up to a cancel; the third says what one queue is after its events. -/

/-! ## What leaves the queues alone -/

theorem ite_qs {c : Prop} [Decidable c] {s t u : State} (ht : t.qs = s.qs) (hu : u.qs = s.qs) : (if c then t else u).qs = s.qs := by
  split
  · exact ht
  · exact hu
/-- Updates that leave the queues alone, one for each item of a list. -/
theorem State.foldl_qs {β : Type} {f : State → β → State} (hf : ∀ t x, (f t x).qs = t.qs) (l : List β) (s : State) :
    (l.foldl f s).qs = s.qs :=
  List.foldlRecOn (motive := fun t => t.qs = s.qs) l f rfl fun t h x _ => (hf t x).trans h
theorem State.Walks.qs {s t : State} (h : s.Walks t) : t.qs = s.qs := by obtain ⟨⟨_, _, _, rfl⟩, -⟩ := h; rfl

theorem State.focus_qs (s : State) (gid : Nat) : (s.focus gid).qs = s.qs := by
  unfold State.focus
  split
  · rfl
  · split <;> rfl
theorem State.onGroup_qs {k : State → State} (hk : ∀ t, (k t).qs = t.qs) (s : State) (gid : Nat) : (s.onGroup gid k).qs = s.qs := by
  have hf : (k (s.focus gid)).qs = s.qs := (hk _).trans (s.focus_qs gid)
  unfold State.onGroup
  split
  · exact hk s
  split
  · extract_lets back s1
    split
    · exact hf
    · exact (s1.focus_qs _).trans hf
  · rfl
theorem State.mapGroup_qs (s : State) (gid : Nat) (f : Group → Group) : (s.mapGroup gid f).qs = s.qs := ite_qs rfl rfl
theorem State.settleTokens_qs (s : State) : s.settleTokens.qs = s.qs := by obtain ⟨_, e⟩ := s.settleTokens_eq; rw [e]
theorem State.endRegion_qs (s : State) : s.endRegion.qs = s.qs := by obtain ⟨_, e⟩ := s.endRegion_eq; rw [e]
theorem State.drain_qs (s : State) : s.drain.qs = s.qs := by obtain ⟨_, _, e⟩ := s.drain_changes; rw [e]
theorem State.joinAll_qs (s : State) (die ctx : Nat) (q : Requester) (ps : List (Nat × Nat)) : (s.joinAll die ctx q ps).1.qs = s.qs := by
  obtain ⟨_, e⟩ := (State.joinAll_spec die ctx q ps s).1; rw [e]

/-- A write to a place that a context's record names changes memory at most. -/
theorem State.ctxWrite_eq (s : State) (c : Ctx) (a : Nat) (b : List Byte) : ∃ ms, s.ctxWrite c a b = { s with ms := ms } := by
  unfold State.ctxWrite
  split
  · exact ⟨_, rfl⟩
  · exact ⟨s.ms, rfl⟩
theorem State.ctxWrite_qs (s : State) (c : Ctx) (a : Nat) (b : List Byte) : (s.ctxWrite c a b).qs = s.qs := ite_qs rfl rfl
theorem State.ctxPut_qs (s : State) (c : Ctx) (a n v : Nat) : (s.ctxPut c a n v).qs = s.qs := s.ctxWrite_qs c a _

/-! Barrier entries and tiles -/

theorem State.writeForm_qs (s : State) (b : Barrier) : (s.writeForm b).qs = s.qs := by
  unfold State.writeForm
  split
  · exact s.ctxPut_qs _ _ _ _
  · rfl
theorem State.putBar_qs (s : State) (b : Barrier) : (s.putBar b).qs = s.qs := by
  unfold State.putBar
  extract_lets old _ s1
  have h1 : s1.qs = s.qs := State.writeForm_qs _ b
  clear_value old s1
  cases old with
  | none => exact h1
  | some a => exact ite_qs h1 h1
theorem State.dropBar_qs (s : State) (e : Nat × Nat) : (s.dropBar e).qs = s.qs := by
  unfold State.dropBar
  refine ite_qs rfl ?_
  extract_lets bit _ s1
  split
  · rfl
  refine ite_qs rfl ?_
  next b _ =>
    have hp : (s1.putBar (b.drop bit)).qs = s.qs := s1.putBar_qs _
    exact ite_qs hp hp
theorem State.dropAllBars_qs (s : State) : s.dropAllBars.qs = s.qs := State.foldl_qs State.dropBar_qs _ s
theorem State.spillBars_qs (s : State) (ctx core : Nat) : (s.spillBars ctx core).qs = s.qs :=
  ite_qs rfl (State.foldl_qs (fun t _ => t.putBar_qs _) _ s)
theorem State.spillIdle_qs (s : State) (ctx : Nat) : (s.spillIdle ctx).qs = s.qs := State.foldl_qs (fun t k => t.spillBars_qs ctx k) _ s
theorem State.holdBars_qs (s : State) : s.holdBars.qs = s.qs := by
  refine State.foldl_qs (fun t e => ?_) _ s
  split
  · exact t.putBar_qs _
  · rfl
theorem State.mapGrid_qs (s : State) (e : PoolEntry) (f : PoolEntry → PoolEntry) : (s.mapGrid e f).qs = s.qs := ite_qs rfl rfl
theorem State.freeTile_qs (s : State) (t : Tile) : (s.freeTile t).qs = s.qs := ite_qs rfl rfl
theorem State.endIn_qs (s : State) (core idx : Nat) : (s.endIn core idx).qs = s.qs := by
  unfold State.endIn
  split
  · rfl
  · exact ite_qs rfl rfl

/-! Contexts, saves and discards -/

theorem State.ctxRests_qs (s : State) (n : Nat) : (s.ctxRests n).qs = s.qs := by
  unfold State.ctxRests
  split
  · exact ite_qs rfl rfl
  · rfl
theorem State.writeImage_qs (s : State) : s.writeImage.qs = s.qs := by
  unfold State.writeImage
  split
  · rfl
  · exact State.foldl_qs (fun t p => t.ctxWrite_qs _ _ _) _ _
theorem State.writeTile_qs (s : State) (c : Ctx) (t : Tile) (at_ : Option Nat) : (s.writeTile c t at_).qs = s.qs := by
  have h (v : State) (a : Nat) (b : List Byte) : ({ v.ctxWrite c a b with fresh := v.fresh + 1 } : State).qs = v.qs := v.ctxWrite_qs c a b
  unfold State.writeTile
  split
  · exact h s _ _
  · exact (State.foldl_qs (fun u j => (State.ctxWrite_qs _ _ _ _).trans (State.ctxWrite_qs _ _ _ _)) _ _).trans (h s _ _)
theorem State.saveTile_qs (image : Bool) (s : State) (t : Tile) : (s.saveTile image t).qs = s.qs := by
  unfold State.saveTile
  extract_lets at_ _ s1
  have h1 : s1.qs = s.qs := rfl
  split
  · exact ite_qs (s1.writeTile_qs _ _ _) h1
  · exact h1
theorem State.beginSave_qs (kill : Bool) (s : State) : (s.beginSave kill).qs = s.qs := by
  have hs : s.unreplayable.endRegion.qs = s.qs := State.endRegion_qs _
  unfold State.beginSave
  extract_lets g
  split
  · exact ite_qs rfl (ite_qs rfl hs)
  · exact ite_qs rfl (ite_qs rfl hs)
  · exact ite_qs rfl (ite_qs rfl hs)
  · rfl
theorem State.releaseBound_qs (s : State) (g : Group) : (s.releaseBound g).qs = s.qs :=
  (State.foldl_qs (fun t _ => t.endIn_qs _ _) _ _).trans (State.foldl_qs State.freeTile_qs _ s)
theorem State.withdraw_qs (s : State) (g : Group) : (s.withdraw g).qs = s.qs := by
  unfold State.withdraw
  extract_lets s1 s2
  have h2 : s2.qs = s.qs := s.releaseBound_qs g
  split
  · exact h2
  · split
    · exact h2
    · exact (s2.mapGrid_qs _ _).trans h2
theorem State.saveDraws_qs (s : State) (n : Nat) : (s.saveDraws n).qs = s.qs := by
  unfold State.saveDraws
  split
  · rfl
  next c _ =>
    extract_lets s1 free s2
    have h1 : s1.qs = s.qs :=
      State.foldl_qs (fun t sec => State.foldl_qs (fun u p => (State.ctxPut_qs _ _ _ _ _).trans (u.ctxPut_qs _ _ _ _)) _ t) _ s
    clear_value s1
    exact h1
theorem State.leaveSlot_qs (image : Bool) (s : State) : (s.leaveSlot image).qs = s.qs := by
  unfold State.leaveSlot
  extract_lets g s1 s2 _ s3 s4
  have h2 : s2.qs = s.qs := State.foldl_qs (State.saveTile_qs image) _ s1
  have h3 : s3.holdBars.qs = s.qs := s3.holdBars_qs.trans h2
  exact (State.spillBars_qs _ _ _).trans (ite_qs (s3.holdBars.writeImage_qs.trans h3) h3)
theorem State.abandonLoad_qs (s : State) : s.abandonLoad.qs = s.qs := ite_qs rfl (s.leaveSlot_qs false)
theorem State.dropGroup_qs (cancelled : Bool) (s : State) : (s.dropGroup cancelled).qs = s.qs := by
  unfold State.dropGroup
  extract_lets s1 g gone s2 s3 s4 _ _ _ s5 s6 _ s7
  have h2 : s2.qs = s.qs := (State.foldl_qs State.freeTile_qs _ s1).trans (State.drain_qs _)
  have h3 : s3.qs = s2.qs := State.foldl_qs (by exact fun _ _ => rfl) _ s2
  have h4 : s4.qs = s.qs := (State.dropAllBars_qs _).trans (h3.trans h2)
  clear_value s4
  have h6 : s6.qs = s.qs := s5.settleTokens_qs.trans h4
  clear_value s6
  exact (State.ctxRests_qs _ _).trans h6
theorem State.discardGroup_qs (s : State) (g : Group) : (s.discardGroup g).qs = s.qs := by
  unfold State.discardGroup
  split
  · exact s.releaseBound_qs g
  · exact State.onGroup_qs (State.dropGroup_qs true) s _
  · exact State.onGroup_qs (State.dropGroup_qs true) s _
  · rfl
  · exact ite_qs (s.mapGroup_qs _ _) (State.mapGroup_qs _ _ _)
theorem State.cancelEntry_qs (s : State) (e : PoolEntry) : (s.cancelEntry e).qs = s.qs := by
  unfold State.cancelEntry
  extract_lets s1 s2 s3 left s4
  have h3 : s3.qs = s.qs := by
    unfold s3
    split
    · split
      · exact ite_qs (s2.freeTile_qs _) rfl
      · rfl
    · rfl
  exact (State.foldl_qs State.discardGroup_qs _ s4).trans ((State.foldl_qs State.freeTile_qs _ s3).trans h3)
theorem State.holdWrite_qs (s : State) (w : DevWrite) (pages : List (Nat × Nat)) : (s.holdWrite w pages).qs = s.qs := by
  unfold State.holdWrite
  extract_lets w' _ s1
  split
  next s2 ids hp =>
    show s2.qs = s1.qs
    split at hp
    · rw [← s1.joinAll_qs w'.die w'.ctx (.write w'.id) pages, hp]
    · cases hp; rfl

/-! ## The jobs that the queues have come to -/

/-- A queue's name and the number of the job whose packets are being consumed (R262, R263). -/
def Queue.named (x : Queue) : Nat × Nat × Nat := (x.ctx, x.q, x.job)
/-- The queues that there are, each with its job. -/
def State.jobs (s : State) : List (Nat × Nat × Nat) := s.qs.queues.map Queue.named

theorem State.jobs_of_qs {s t : State} (h : t.qs = s.qs) : t.jobs = s.jobs := by rw [State.jobs, State.jobs, h]
theorem ite_jobs {c : Prop} [Decidable c] {s t u : State} (ht : t.jobs = s.jobs) (hu : u.jobs = s.jobs) : (if c then t else u).jobs = s.jobs := by
  split
  · exact ht
  · exact hu
theorem State.foldl_jobs {β : Type} {f : State → β → State} (hf : ∀ t x, (f t x).jobs = t.jobs) (l : List β) (s : State) :
    (l.foldl f s).jobs = s.jobs :=
  List.foldlRecOn (motive := fun t => t.jobs = s.jobs) l f rfl fun t h x _ => (hf t x).trans h
/-- Changing some queues, their names and jobs apart. -/
theorem map_named {p : Queue → Bool} {f : Queue → Queue} (hf : ∀ x, (f x).named = x.named) (l : List Queue) :
    (l.map fun x => if p x then f x else x).map Queue.named = l.map Queue.named := by
  rw [List.map_map]
  refine List.map_congr_left fun x _ => ?_
  simp only [Function.comp_apply]
  split
  · exact hf x
  · rfl

/-- Showing a queue changes memory at most. -/
theorem State.showQueue_eq (s : State) (x : Queue) : ∃ ms, s.showQueue x = { s with ms := ms } := by
  unfold State.showQueue
  split
  · exact ⟨s.ms, rfl⟩
  next c _ =>
    obtain ⟨m1, e1⟩ := s.ctxWrite_eq c (c.qtab + 64 * x.q + 8) (leBytes 8 x.ridx)
    obtain ⟨m2, e2⟩ := ({ s with ms := m1 } : State).ctxWrite_eq c (c.qtab + 64 * x.q + 16) (leBytes 8 x.widx)
    obtain ⟨m3, e3⟩ := ({ s with ms := m2 } : State).ctxWrite_eq c (c.qtab + 64 * x.q + 24) (leBytes 2 (x.st + 256 * x.err))
    obtain ⟨m4, e4⟩ := ({ s with ms := m3 } : State).ctxWrite_eq c (c.qtab + 64 * x.q + 32) (leBytes 8 x.eidx)
    exact ⟨m4, by simp only [State.ctxPut]; rw [e1, e2, e3, e4]⟩
@[simp] theorem State.showQueue_g (s : State) (x : Queue) : (s.showQueue x).g = s.g := by obtain ⟨_, e⟩ := s.showQueue_eq x; rw [e]
@[simp] theorem State.showQueue_qs (s : State) (x : Queue) : (s.showQueue x).qs = s.qs := by obtain ⟨_, e⟩ := s.showQueue_eq x; rw [e]

theorem State.mapQueue_jobs {f : Queue → Queue} (hf : ∀ x, (f x).named = x.named) (s : State) (ctx q : Nat) :
    (s.mapQueue ctx q f).jobs = s.jobs := by
  unfold State.mapQueue
  split
  · rfl
  · exact (State.jobs_of_qs (State.showQueue_qs _ _)).trans (map_named hf _)
theorem State.suspendQueues_jobs (s : State) (ctx : Nat) : (s.suspendQueues ctx).jobs = s.jobs :=
  State.foldl_jobs (fun t _ => t.mapQueue_jobs (by exact fun _ => rfl) _ _) _ s
theorem State.suspendCtx_jobs (s : State) (n : Nat) (kill : Bool) : (s.suspendCtx n kill).jobs = s.jobs := by
  unfold State.suspendCtx
  extract_lets s1 s2 s3 s4 s5 s6 s7
  have h4 : s4.qs = s3.qs := State.foldl_qs State.withdraw_qs _ s3
  have h5 : s5.qs = s4.qs := State.foldl_qs (fun t g => State.onGroup_qs State.abandonLoad_qs t _) _ s4
  have h6 : s6.qs = s5.qs := State.foldl_qs (fun t g => State.onGroup_qs (State.beginSave_qs kill) t _) _ s5
  have h7 : s7.qs = s6.qs := (State.saveDraws_qs _ n).trans (s6.spillIdle_qs n)
  have hj : s7.jobs = s.jobs := (State.jobs_of_qs (h7.trans (h6.trans (h5.trans h4)))).trans (s.suspendQueues_jobs n)
  clear_value s7
  exact hj
theorem State.failCtx_jobs (s : State) (n : Nat) (cause : Byte) (addr : Nat) : (s.failCtx n cause addr).jobs = s.jobs :=
  ite_jobs rfl (State.suspendCtx_jobs _ n false)
theorem State.writeFails_jobs (s : State) (w : DevWrite) (cause : Byte) : (s.writeFails w cause).jobs = s.jobs := by
  have h := s.failCtx_jobs w.ctx cause w.addr
  unfold State.writeFails
  split <;> split <;> exact h
/-- A write on behalf of work may fail, and its context's queues are then Suspended: it leaves their jobs (R266, R465). -/
theorem State.devPut_jobs (s : State) (w : DevWrite) : (s.devPut w).jobs = s.jobs := by
  unfold State.devPut State.devWrite
  split
  next hc =>
    have h := State.jobs_of_qs (checkAccess_ok_walked hc).qs
    split <;> exact h
  next hc =>
    have h := State.jobs_of_qs (checkAccess_bad_walked hc).qs
    split
    · exact (State.jobs_of_qs (State.holdWrite_qs _ _ _)).trans h
    · exact (State.writeFails_jobs _ _ _).trans h
theorem State.cancelMark_jobs (s : State) (ctx ctr : Nat) : (s.cancelMark ctx ctr).jobs = s.jobs := ite_jobs rfl (s.devPut_jobs _)
theorem State.closeRange_jobs (s : State) (r : PacketRun) : (s.closeRange r).jobs = s.jobs := by
  unfold State.closeRange
  split <;> rfl
theorem State.countJobs_jobs (s : State) (ctx q : Nat) : (s.countJobs ctx q).jobs = s.jobs := by
  unfold State.countJobs
  split
  · rfl
  · extract_lets ended s1
    have h1 : s1.jobs = s.jobs := s.mapQueue_jobs (by exact fun _ => rfl) _ _
    exact ite_jobs h1 ((State.foldl_jobs (fun t _ => t.devPut_jobs _) _ s1).trans h1)
theorem State.cancelRun_jobs (s : State) (r : PacketRun) : (s.cancelRun r).jobs = s.jobs := by
  refine (State.countJobs_jobs _ _ _).trans (ite_jobs (s := s) rfl (s.mapQueue_jobs (fun x => ?_) _ _))
  split <;> rfl
theorem State.cancelOne_jobs (s : State) (t : Target) : (s.cancelOne t).1.jobs = s.jobs := by
  unfold State.cancelOne
  split
  case h_1 d n up =>
    split
    · rfl
    split
    · rfl
    · exact State.jobs_of_qs (s.cancelEntry_qs _)
  case h_2 id =>
    split
    · rfl
    split
    · rfl
    extract_lets s1
    split
    · rfl
    · rfl
    · exact (State.cancelRun_jobs _ _).trans (s1.closeRange_jobs _)
    · exact (State.cancelRun_jobs _ _).trans (s1.closeRange_jobs _)
    · exact s1.cancelRun_jobs _
    · exact s1.cancelRun_jobs _
    · exact s1.cancelRun_jobs _
  case h_3 id =>
    split
    · rfl
    split
    · rfl
    · exact State.cancelMark_jobs _ _ _
  case h_4 id it =>
    split
    · rfl
    split
    · rfl
    extract_lets all s1
    have h1 : s1.jobs = s.jobs := ite_jobs rfl rfl
    exact (State.closeRange_jobs _ _).trans h1
  case h_5 ctx q j =>
    split
    · rfl
    split
    · exact (State.cancelMark_jobs _ _ _).trans (State.mapQueue_jobs (by exact fun _ => rfl) _ _ _)
    split
    · extract_lets all next_ s1 s2 s3
      have h2 : s2.jobs = s.jobs := ite_jobs rfl rfl
      exact (State.cancelMark_jobs _ _ _).trans ((s2.mapQueue_jobs (by exact fun _ => rfl) _ _).trans h2)
    · rfl
  case h_6 => rfl
theorem State.cancelAll_jobs : ∀ (n : Nat) (l : List Target) (s : State), (State.cancelAll n l s).jobs = s.jobs
  | 0, _, _ => rfl
  | _ + 1, [], _ => rfl
  | n + 1, t :: r, s => by
    unfold State.cancelAll
    exact (cancelAll_jobs n _ _).trans (s.cancelOne_jobs t)
/-- A CANCEL makes and frees no queue, and leaves the number of each one's job (R263, R279). -/
theorem State.cancel_jobs (s : State) (t : Target) : (s.cancel t).jobs = s.jobs := State.cancelAll_jobs _ _ s

/-! ## One queue after its events -/

/-- A queue is what a function makes of it. -/
theorem State.queueAt_mapQueue {s : State} {ctx q : Nat} {x : Queue} {f : Queue → Queue} (hf : ∀ y, (f y).ctx = y.ctx ∧ (f y).q = y.q)
    (h : s.queueAt ctx q = some x) : (s.mapQueue ctx q f).queueAt ctx q = some (f x) := by
  let mine (y : Queue) : Bool := y.ctx = ctx && y.q = q
  have found : s.qs.queues.find? mine = some x := h
  have same : (mine ∘ fun y => if mine y then f y else y) = mine := by
    funext y
    simp only [Function.comp_apply]
    split
    · simp [mine, hf y]
    · rfl
  unfold State.mapQueue
  rw [h]
  simp only [State.queueAt, State.showQueue_qs]
  show (s.qs.queues.map fun y => if mine y then f y else y).find? mine = some (f x)
  rw [List.find?_map, same, found, Option.map_some, if_pos (List.find?_some found)]
theorem State.mapQueue_g (s : State) (ctx q : Nat) (f : Queue → Queue) : (s.mapQueue ctx q f).g = s.g := by
  unfold State.mapQueue
  split
  · rfl
  · exact State.showQueue_g _ _
/-- A queue that is there has a job that the list of the jobs names. -/
theorem State.named_mem_jobs {s : State} {ctx q : Nat} {x : Queue} (h : s.queueAt ctx q = some x) : (ctx, q, x.job) ∈ s.jobs := by
  have hx := List.find?_some h
  simp only [Bool.and_eq_true, decide_eq_true_eq] at hx
  exact List.mem_map.2 ⟨x, List.mem_of_find?_eq_some h, by simp [Queue.named, hx]⟩

/-! Doorbell values (R265) -/

/-- Within the ring's room, WIDX follows the value. -/
theorem Queue.ring_within {x : Queue} {v : Nat} (hf : x.feed = false) (hs : x.st = 1) (lo : x.widx ≤ v) (hi : v ≤ x.ridx + 2 ^ (x.log2n + 4)) :
    x.ring v = { x with widx := v } := by
  simp [Queue.ring, Queue.size, hf, hs, Nat.not_lt.2 lo, Nat.not_lt.2 hi]
/-- Any other value stops the queue. -/
theorem Queue.ring_beyond {x : Queue} {v : Nat} (hf : x.feed = false) (hs : x.st = 1) (h : v < x.widx ∨ x.ridx + 2 ^ (x.log2n + 4) < v) :
    x.ring v = { x with st := 2, err := 4, eidx := x.ridx } := by
  simp [Queue.ring, Queue.size, hf, hs, h]
/-- A queue that is not Active holds it. -/
theorem Queue.ring_inactive {x : Queue} {v : Nat} (hf : x.feed = false) (hs : x.st ≠ 1) : x.ring v = { x with bell := some v } := by
  simp [Queue.ring, hf, hs]
/-- What a doorbell value leaves of a queue. -/
theorem Queue.ring_keeps (x : Queue) (v : Nat) :
    (x.ring v).ctx = x.ctx ∧ (x.ring v).q = x.q ∧ (x.ring v).ridx = x.ridx ∧ (x.ring v).pos = x.pos ∧ (x.ring v).job = x.job ∧ (x.ring v).lost = x.lost := by
  unfold Queue.ring
  split_ifs <;> simp
/-- What it leaves of one that becomes Active. -/
theorem Queue.activate_keeps (x : Queue) :
    x.activate.ctx = x.ctx ∧ x.activate.q = x.q ∧ x.activate.ridx = x.ridx ∧ x.activate.pos = x.pos ∧ x.activate.job = x.job ∧
      x.activate.lost = x.lost := by
  unfold Queue.activate
  split
  · exact Queue.ring_keeps _ _
  · simp
theorem Queue.activate_of_no_bell {x : Queue} (h : x.bell = none) : x.activate = { x with st := 1, bell := none } := by
  simp [Queue.activate, h]
/-- A value that it holds, within the ring's room, is its WIDX then. -/
theorem Queue.activate_of_bell {x : Queue} {w : Nat} (h : x.bell = some w) (hf : x.feed = false) (lo : x.widx ≤ w)
    (hi : w ≤ x.ridx + 2 ^ (x.log2n + 4)) : x.activate = { x with st := 1, bell := none, widx := w } := by
  simp only [Queue.activate, h]
  exact Queue.ring_within (x := { x with st := 1, bell := none }) hf rfl lo hi

/-- A doorbell of no queue is dropped. -/
theorem State.doorbell_of_none {s : State} {ctx q : Nat} {v : W64} (h : s.ctxOf ctx = none ∨ s.queueAt ctx q = none) : s.doorbell ctx q v = s := by
  unfold State.doorbell
  split
  next c x hc hx => rw [hc, hx] at h; simp at h
  · rfl
/-- So is one of a device-fed queue, or of a quarantined partition. -/
theorem State.doorbell_of_dropped {s : State} {ctx q : Nat} {v : W64} {c : Ctx} {x : Queue} (hc : s.ctxOf ctx = some c)
    (hx : s.queueAt ctx q = some x) (h : x.feed = true ∨ s.quarantined ctx = true) : s.doorbell ctx q v = s := by
  simp only [State.doorbell, hc, hx]
  exact if_pos (by simpa [or_comm] using h)
/-- Any other is written to its word, and the queue takes its value; the command core does not look for it there again. -/
theorem State.doorbell_of_rung {s : State} {ctx q : Nat} {v : W64} {c : Ctx} {x : Queue} (hc : s.ctxOf ctx = some c)
    (hx : s.queueAt ctx q = some x) (hf : x.feed = false) (hq : s.quarantined ctx = false) :
    let p := s.ctxPut c (c.dbell + 8 * q) 8 v.toNat
    let u : State := { p with ms := { p.ms with wrote := s.ms.wrote } }
    s.doorbell ctx q v = u.mapQueue ctx q fun x => x.ring v.toNat := by
  simp only [State.doorbell, hc, hx]
  exact if_neg (by simp [hf, hq])
theorem execDoorbellWrite_awake {s : State} {ctx q : Nat} {v : W64} (h : s.mg.pstate = 0) :
    execDoorbellWrite ctx q v s = .next (s.doorbell ctx q v) := by
  rw [execDoorbellWrite, State.whenAwake_awake _ _ h, done_eq]

/-! A new queue (R264, R266) -/

/-- The queue that a descriptor, read as a number, makes; job numbers the first of its jobs. -/
def queueOf (ctx q d job : Nat) : Queue :=
  { ctx := ctx, q := q, base := natBits d 0 52, log2n := natBits d 52 4, feed := natBits d 56 1 = 1, jctr := natBits d 320 52
    ridx := natBits d 64 64, widx := natBits d 128 64, st := 1, pos := natBits d 64 64, job := job }
/-- Add a queue to those there are and show it. -/
def State.addQueue (s : State) (x : Queue) : State := ({ s with qs := { s.qs with queues := s.qs.queues ++ [x] } } : State).showQueue x
theorem State.addQueue_g (s : State) (x : Queue) : (s.addQueue x).g = s.g := State.showQueue_g _ _
theorem State.queueAt_addQueue {s : State} {x : Queue} (h : s.queueAt x.ctx x.q = none) : (s.addQueue x).queueAt x.ctx x.q = some x := by
  simp only [State.queueAt] at h
  simp only [State.addQueue, State.queueAt, State.showQueue_qs, List.find?_append, h]
  simp

/-! A restart (R266) -/

/-- A skipped packet of a queue: jobs that have ended so far, whether the present one has lost a packet, and the state that the reading
leaves. -/
def skipPacket (core ctx : Nat) (x : Queue) (p : Nat × Bool × State) (k : Nat) : Nat × Bool × State :=
  let r : Bool × State := match (engineBytes core ctx .c (x.slotAt k) 64).at p.2.2 with
    | (.ok b, s) => (pkJend b, s)
    | (.error _, s) => (false, s)
  if r.1 then (p.1 + 1, false, r.2) else (p.1, true, r.2)
/-- The packets that a restart at a value skips. -/
def State.skipTo (s : State) (ctx q : Nat) (x : Queue) (ridx : Nat) : Nat × Bool × State :=
  ((List.range (ridx - x.ridx)).map (· + x.ridx)).foldl (skipPacket (cmdCore (s.queueDie ctx q)) ctx x) (0, x.lost, s)
/-- The queue whose consumption goes on there, n jobs having ended among them. -/
def Queue.skipped (x : Queue) (ridx n : Nat) (lost : Bool) : Queue :=
  { x with ridx := ridx, pos := ridx, body := [], job := x.job + n, skipJob := x.skipJob && n = 0, lost := lost }
/-- The same, Active again. -/
def Queue.restart (x : Queue) (ridx n : Nat) (lost : Bool) : Queue := (x.skipped ridx n lost).activate
theorem Queue.restart_ctx_q (x : Queue) (ridx n : Nat) (lost : Bool) : (x.restart ridx n lost).ctx = x.ctx ∧ (x.restart ridx n lost).q = x.q := by
  obtain ⟨ctx, q, -⟩ := (x.skipped ridx n lost).activate_keeps
  exact ⟨ctx, q⟩
theorem Queue.restart_fields (x : Queue) (ridx n : Nat) (lost : Bool) :
    (x.restart ridx n lost).ridx = ridx ∧ (x.restart ridx n lost).pos = ridx ∧ (x.restart ridx n lost).job = x.job + n ∧
      (x.restart ridx n lost).lost = lost := by
  obtain ⟨-, -, kept⟩ := (x.skipped ridx n lost).activate_keeps
  exact kept
theorem Queue.restart_of_no_bell {x : Queue} (h : x.bell = none) (ridx n : Nat) (lost : Bool) :
    (x.restart ridx n lost).st = 1 ∧ (x.restart ridx n lost).widx = x.widx := by
  rw [Queue.restart, Queue.activate_of_no_bell (x := x.skipped ridx n lost) h]
  exact ⟨rfl, rfl⟩
theorem Queue.restart_of_bell {x : Queue} {w : Nat} (h : x.bell = some w) (hf : x.feed = false) (lo : x.widx ≤ w) {ridx : Nat}
    (hi : w ≤ ridx + 2 ^ (x.log2n + 4)) (n : Nat) (lost : Bool) : (x.restart ridx n lost).st = 1 ∧ (x.restart ridx n lost).widx = w := by
  rw [Queue.restart, Queue.activate_of_bell (x := x.skipped ridx n lost) h hf lo hi]
  exact ⟨rfl, rfl⟩

theorem execQueueRestart_eq {s : State} {ctx q : Nat} {v : W64} {x : Queue} (h : s.queueAt ctx q = some x) (hs : x.st = 2)
    (lo : x.eidx < v.toNat) (hi : v.toNat ≤ x.widx) :
    execQueueRestart ctx q v s = .next ((((s.skipTo ctx q x v.toNat).2.2.endRanges { ctx := ctx, q := q } v.toNat)).mapQueue ctx q fun y =>
      y.restart v.toNat (s.skipTo ctx q x v.toNat).1 (s.skipTo ctx q x v.toNat).2.1) := by
  unfold execQueueRestart
  rw [h, done_eq]
  simp only [hs, lo, hi]
  rfl
/-- A restart outside its range changes nothing. -/
theorem execQueueRestart_outside {s : State} {ctx q : Nat} {v : W64} {x : Queue} (h : s.queueAt ctx q = some x)
    (out : v.toNat ≤ x.eidx ∨ x.widx < v.toNat) : execQueueRestart ctx q v s = .next s := by
  have hr : ¬ (x.eidx < v.toNat ∧ v.toNat ≤ x.widx) := by omega
  unfold execQueueRestart
  rw [h, done_eq]
  simp [hr]

/-- Skipping a packet changes what its reading changes. -/
theorem skipPacket_walked (core ctx : Nat) (x : Queue) (p : Nat × Bool × State) (k : Nat) : p.2.2.Walks (skipPacket core ctx x p k).2.2 := by
  unfold skipPacket
  cases hr : (engineBytes core ctx .c (x.slotAt k) 64).at p.2.2 with
  | mk r s1 =>
    have w := engineBytes_walked hr
    cases r <;> (simp only; split <;> exact w)
theorem State.skipTo_walked (s : State) (ctx q : Nat) (x : Queue) (ridx : Nat) : s.Walks (s.skipTo ctx q x ridx).2.2 :=
  List.foldlRecOn (motive := fun p : Nat × Bool × State => s.Walks p.2.2) _ _ (.refl s) fun p w k _ => w.trans (skipPacket_walked _ _ _ p k)
/-- One packet skipped: if it is JEND it ends the job, and otherwise the job has lost it (R262). -/
theorem State.skipTo_one {s s1 : State} {ctx q : Nat} {x : Queue} {b : List Byte}
    (h : (engineBytes (256 + s.queueDie ctx q) ctx .c (x.slotAt x.ridx) 64).at s = (.ok b, s1)) :
    s.skipTo ctx q x (x.ridx + 1) = if pkJend b = true then (1, false, s1) else (0, true, s1) := by
  have one : (List.range (x.ridx + 1 - x.ridx)).map (· + x.ridx) = [x.ridx] := by simp
  rw [State.skipTo, one, List.foldl_cons, List.foldl_nil, skipPacket, cmdCore, h]

theorem State.endRanges_g (s : State) (q : SeqRef) (ridx : Nat) : (s.endRanges q ridx).g = s.g := by
  unfold State.endRanges
  exact List.foldlRecOn (motive := fun t : State => t.g = s.g) _ _ rfl fun t h _ _ => h
theorem State.endRanges_queueAt (s : State) (q : SeqRef) (ridx ctx n : Nat) : (s.endRanges q ridx).queueAt ctx n = s.queueAt ctx n := by
  unfold State.endRanges
  exact List.foldlRecOn (motive := fun t : State => t.queueAt ctx n = s.queueAt ctx n) _ _ rfl fun t h _ _ => h

/-! Destroying a queue (R266) -/

/-- No queue that is freed has had a job past the number that the next queue begins at. -/
theorem QueueSys.lt_jobsAfter {qs : QueueSys} {p : Queue → Bool} {x : Queue} (h : x ∈ qs.queues) (hp : p x = true) : x.job < qs.jobsAfter p := by
  have listed : x.job + 1 ∈ (qs.queues.filter p).map fun y => y.job + 1 := List.mem_map.2 ⟨x, List.mem_filter.2 ⟨h, hp⟩, rfl⟩
  rw [QueueSys.jobsAfter, List.foldl_max]
  exact (List.le_max?_getD_of_mem listed).trans (le_max_right _ _)

/-- The state in which a queue is freed: its packets have been cancelled, and its descriptor shows the STATE of Free. -/
theorem State.freeQueue_eq (s : State) (ctx q : Nat) : ∃ v : State, v.jobs = s.jobs ∧ (s.freeQueue ctx q).qs = { v.qs with
    nextWalk := v.qs.nextWalk + 1
    nextJob := v.qs.jobsAfter fun x => x.ctx = ctx && x.q = q
    queues := v.qs.queues.filter fun x => !(x.ctx = ctx && x.q = q)
    runs := (v.qs.runs.filter fun r => !(r.seq.ctx = ctx && r.seq.q = q) || r.kind = 3).map fun r =>
      if r.seq.ctx = ctx && r.seq.q = q then { r with seq := { r.seq with walk := v.qs.nextWalk } } else r
    walks := v.qs.walks.filter fun w => !(w.ctx = ctx && w.q = q)
    ranges := v.qs.ranges.filter fun p => !(p.1.ctx = ctx && p.1.q = q)
    placed := v.qs.placed.filter fun p => !(p.ctx = ctx && p.q = q) } := by
  unfold State.freeQueue
  extract_lets mine _ s1 s2 none_ s3 s4
  have h1 : s1.jobs = s.jobs := map_named (by exact fun _ => rfl) _
  have h2 : s2.jobs = s.jobs := (State.foldl_jobs (by exact fun t r => t.cancel_jobs (.run r.id)) _ s1).trans h1
  have h3 : s3.qs = s2.qs := by
    unfold s3
    split
    · exact s2.ctxPut_qs _ _ _ _
    · rfl
  refine ⟨s4, (State.jobs_of_qs h3).trans h2, ?_⟩
  have walk : none_ = s4.qs.nextWalk := (congrArg QueueSys.nextWalk h3).symm
  rw [← walk]
/-- The freed queue is gone. -/
theorem State.queueAt_freeQueue (s : State) (ctx q : Nat) : (s.freeQueue ctx q).queueAt ctx q = none := by
  obtain ⟨v, -, e⟩ := s.freeQueue_eq ctx q
  rw [State.queueAt, e]
  exact List.find?_eq_none.2 fun x hx => by simpa [imp_iff_not_or] using (List.mem_filter.1 hx).2
/-- A queue made later has no job of it. -/
theorem State.job_lt_freeQueue {s : State} {ctx q : Nat} {x : Queue} (h : s.queueAt ctx q = some x) : x.job < (s.freeQueue ctx q).qs.nextJob := by
  obtain ⟨v, hj, e⟩ := s.freeQueue_eq ctx q
  obtain ⟨y, hy, named⟩ := List.mem_map.1 (hj ▸ State.named_mem_jobs h : (ctx, q, x.job) ∈ v.jobs)
  simp only [Queue.named, Prod.mk.injEq] at named
  obtain ⟨hc, hq, job⟩ := named
  rw [e, ← job]
  exact QueueSys.lt_jobsAfter hy (by simp [hc, hq])
/-- Of its packets only copies are left. -/
theorem State.freeQueue_copies {s : State} {ctx q : Nat} {r : PacketRun} (h : r ∈ (s.freeQueue ctx q).qs.runs) (hc : r.seq.ctx = ctx) (hq : r.seq.q = q) :
    r.kind = 3 := by
  obtain ⟨v, -, e⟩ := s.freeQueue_eq ctx q
  rw [e] at h
  obtain ⟨p, hp, rfl⟩ := List.mem_map.1 h
  have kept := (List.mem_filter.1 hp).2
  by_cases mine : (p.seq.ctx = ctx && p.seq.q = q) = true
  · simpa [mine] using kept
  · rw [if_neg mine] at hc hq
    simp [hc, hq] at mine

/-! The events -/

/-- A valid descriptor makes a queue (R264, R266). -/
theorem execQueueCreate_valid (s : State) (ctx q : Nat) (c : Ctx) (hc : s.ctxOf ctx = some c) :
    let d := s.memNat (c.qtab + 64 * q) 64
    q < 256 → c.inMemory (c.qtab + 64 * q) 64 = true → s.queueAt ctx q = none → c.st ≠ .created → c.st ≠ .destroyed →
    natBits d 0 52 % 64 = 0 → natBits d 57 7 = 0 → natBits d 208 48 = 0 → natBits d 320 52 % 8 = 0 → natBits d 372 140 = 0 →
    Runs (.queueCreate ctx q) s ((s.seen (c.qtab + 64 * q) 64).addQueue (queueOf ctx q d s.qs.nextJob)) := by
  intro d hq hm hn hcr hde h1 h2 h3 h4 h5
  have none_ : (s.seen (c.qtab + 64 * q) 64).queueAt ctx q = none := hn
  show execQueueCreate ctx q s = _
  unfold execQueueCreate
  rw [hc, done_eq]
  refine congrArg Host.Outcome.next (if_neg ?_)
  simp [hq, hm, none_, hcr, hde, h1, h2, h3, h4, h5, d]

/-- A restart within its range makes the queue Active again at the value (R266). -/
theorem execQueueRestart_within {s : State} {ctx q : Nat} {v : W64} {x : Queue} (h : s.queueAt ctx q = some x) (hs : x.st = 2)
    (lo : x.eidx < v.toNat) (hi : v.toNat ≤ x.widx) :
    ∃ u : State, Runs (.queueRestart ctx q v) s u ∧ u.g = s.g ∧
      u.queueAt ctx q = some (x.restart v.toNat (s.skipTo ctx q x v.toNat).1 (s.skipTo ctx q x v.toNat).2.1) := by
  have w := s.skipTo_walked ctx q x v.toNat
  refine ⟨_, execQueueRestart_eq h hs lo hi, ?_, ?_⟩
  · rw [State.mapQueue_g, State.endRanges_g, w.g]
  · refine State.queueAt_mapQueue (fun y => y.restart_ctx_q _ _ _) ?_
    rw [State.endRanges_queueAt, State.queueAt, w.qs]
    exact h

end Sys2Proof.Machine

section
open Sys2Proof Sys2Proof.Machine

/-- Settles O48: doorbells, a new queue and a restart by their equations; a destroy since a cancel leaves every queue its job
(`State.cancel_jobs`), so that the number of the next queue's first job is past it. -/
theorem queueEvents : Obligations.QueueEvents := by
  refine ⟨?doorbell, fun x v hf => ⟨Queue.ring_within hf, Queue.ring_beyond hf, Queue.ring_inactive hf⟩, ?create, ?restart, ?destroy⟩
  case doorbell =>
    intro s ctx q v awake
    have runs {t : State} (h : s.doorbell ctx q v = t) : Runs (.doorbellWrite ctx q v) s t := h ▸ execDoorbellWrite_awake awake
    exact ⟨fun h => runs (State.doorbell_of_none h), fun c x hc hx =>
      ⟨fun h => runs (State.doorbell_of_dropped hc hx h), fun hf hq => runs (State.doorbell_of_rung hc hx hf hq)⟩⟩
  case create =>
    intro s ctx q c hc d hq hm hn hcr hde h1 h2 h3 h4 h5
    exact ⟨_, execQueueCreate_valid s ctx q c hc hq hm hn hcr hde h1 h2 h3 h4 h5, State.addQueue_g _ _,
      State.queueAt_addQueue (x := queueOf ctx q d s.qs.nextJob) hn⟩
  case restart =>
    intro s ctx q v x hx hs
    refine ⟨fun lo hi => ?_, execQueueRestart_outside hx⟩
    obtain ⟨u, runs, g, at_⟩ := execQueueRestart_within hx hs lo hi
    obtain ⟨ridx, pos, job, lost⟩ := x.restart_fields v.toNat (s.skipTo ctx q x v.toNat).1 (s.skipTo ctx q x v.toNat).2.1
    refine ⟨u, _, runs, g, at_, ridx, pos, fun hb => Queue.restart_of_no_bell hb _ _ _,
      fun w hb hf hw hr => Queue.restart_of_bell hb hf hw hr _ _, fun hv b s1 hr => ?_⟩
    rw [job, lost, hv, State.skipTo_one hr]
    exact ⟨fun j => by simp [j], fun j => by simp [j]⟩
  case destroy =>
    intro s ctx q x hx
    refine ⟨s.freeQueue ctx q, ?_, s.queueAt_freeQueue ctx q, State.job_lt_freeQueue hx, fun r hr => State.freeQueue_copies hr⟩
    show execQueueDestroy ctx q s = _
    rw [execQueueDestroy, hx, done_eq]
    rfl

end

namespace Sys2Proof.Machine

/-! # The start of a transfer at the last word of a block

`Obligations.LinkEvents` asks that the start of an lput or lget leaves every register of the group, its pending point among
them (`u.g.r = s.g.r`). At the last word of a block the pending point goes (R57, R64), so the statement fails for a transfer
that stands last in a reconverging block. `Obligations.LinkTransfers` says the same of the state before the instruction
retires, which is what R439 gives. -/

/-- An instruction that retires at the last word of its block leaves no pending point (R57, R64). -/
theorem State.retire_pend_of_last {s : State} (h : s.g.atLast = true) : s.retire.g.r.pend = none := by
  have hb : s.g.pc + 8 = s.g.blkEnd := by simpa [Group.atLast] using h
  show Arch.pend (Group.r (if s.g.pc + 8 = s.g.blkEnd then _ else _)) = none
  rw [if_pos hb]

/-- A group at the last word of a reconverging block (KIND 10, R60): its header at 0x1000 has left the pending point 0x1040. -/
def atReconvergingEnd : State :=
  { g := { gid := 1, phase := .running, pc := 0x1008, blkHdr := 0x1000, blkEnd := 0x1010, r := { pend := some 0x1040 } } }

/-- Its lput of no bytes, without a status word, passes every check (R439), and the checks change nothing. -/
theorem xferChecks_atReconvergingEnd : xferChecks atReconvergingEnd true 0 0 0 none = (atReconvergingEnd, none) := rfl

/-- That lput starts its transfer, the group still at the last word of its block. -/
theorem xferOp_atReconvergingEnd : ∃ t, xferOp true {} atReconvergingEnd = .next t ∧ t.g.atLast = true := ⟨_, rfl, rfl⟩

/-- So it retires at the last word, and the pending point goes. -/
theorem lput_pend_atReconvergingEnd {u : State} (h : Runs (.lput {}) atReconvergingEnd u) : u.g.r.pend = none := by
  obtain ⟨t, starts, last⟩ := xferOp_atReconvergingEnd
  have retires : exec (.lput {}) atReconvergingEnd = .next t.retire := congrArg settle starts
  obtain rfl : t.retire = u := by injection retires.symm.trans h
  exact State.retire_pend_of_last last

end Sys2Proof.Machine

section
open Sys2Proof Sys2Proof.Machine

/-- Refutes O58: an lput of no bytes at the last word of a reconverging block starts its transfer and retires, and with the
block the pending point goes (R57, R64), though the statement has every register kept. -/
theorem not_linkEvents : ¬ Obligations.LinkEvents := by
  rintro ⟨starts, -⟩
  obtain ⟨u, x, runs, -, -, -, -, -, regs, -⟩ := starts {} atReconvergingEnd atReconvergingEnd rfl rfl rfl rfl
    (fun _ h => by cases h) (true, .lput {}) (by simp) xferChecks_atReconvergingEnd
  have gone : u.g.r.pend = none := lput_pend_atReconvergingEnd runs
  rw [regs] at gone
  cases gone

end

namespace Sys2Proof.Machine

/-! # Numbers

The rules that the statements about number formats share: lane masks and flags, how an instruction that may meet an enabled
exception ends, and the common forms of vector instructions. -/

/-! ## Bits and bounds -/

theorem natBits_toNat_eq {n : Nat} (x : BitVec n) (lo len : Nat) : natBits x.toNat lo len = (x.extractLsb' lo len).toNat := by
  rw [natBits, BitVec.extractLsb'_toNat, Nat.shiftRight_eq_div_pow]

/-- Reading a pattern of len bits as a signed number, by its top bit. -/
theorem toInt_eq_ite_ge {len : Nat} (hl : 0 < len) (x : BitVec len) :
    x.toInt = if x.toNat ≥ 2 ^ (len - 1) then (x.toNat : Int) - 2 ^ len else x.toNat := by
  have two : 2 ^ len = 2 * 2 ^ (len - 1) := by rw [← Nat.pow_succ', Nat.succ_eq_add_one, Nat.sub_add_cancel hl]
  rw [BitVec.toInt_eq_toNat_cond]
  by_cases big : x.toNat ≥ 2 ^ (len - 1)
  · rw [if_pos big, if_neg (by omega)]; norm_cast
  · rw [if_neg big, if_pos (by omega)]

/-- Clamping to an interval, in closed form. -/
theorem clamp_eq {lo hi : Int} (h : lo ≤ hi) (x : Int) : clamp lo hi x = (max lo (min hi x), decide (x < lo) || decide (hi < x)) := by
  unfold clamp
  split_ifs with below above
  · rw [max_eq_left ((min_le_right hi x).trans below.le), decide_eq_true below, Bool.true_or]
  · rw [min_eq_left above.le, max_eq_right h, decide_eq_true above, Bool.or_true]
  · rw [min_eq_right (not_lt.1 above), max_eq_right (not_lt.1 below), decide_eq_false below, decide_eq_false above, Bool.or_false]

/-! Types of set W: one element of 32 bits a lane (R132). -/

theorem tyW_iff {t : BitVec 4} : tyW t = true ↔ t = 2 ∨ t = 6 := by simp [tyW]

theorem tyBits_of_tyW {t : BitVec 4} (h : tyW t = true) : tyBits t = 32 := by
  rcases tyW_iff.1 h with rfl | rfl <;> rfl
theorem elemN_of_tyW {t : BitVec 4} (h : tyW t = true) : elemN t = 1 := by
  rcases tyW_iff.1 h with rfl | rfl <;> rfl
theorem is64_of_tyW {t : BitVec 4} (h : tyW t = true) : is64 t = false := by
  rcases tyW_iff.1 h with rfl | rfl <;> rfl

/-! ## Lanes and flags -/

/-- Bit k of a mask that is built lane by lane. -/
theorem getLsbD_foldl_twoPow (q : Nat → Bool) (k : Nat) (l : List Nat) (m : W32) :
    (l.foldl (fun m i => if q i then m ||| BitVec.twoPow 32 i else m) m).getLsbD k =
      (m.getLsbD k || (decide (k < 32) && (decide (k ∈ l) && q k))) := by
  induction l generalizing m with
  | nil => simp
  | cons i r ih =>
    rw [List.foldl_cons, ih]
    by_cases hk : k = i
    · subst hk; by_cases hr : k ∈ r <;> by_cases h32 : k < 32 <;> cases hq : q k <;> simp [hr, h32]
    · cases hq : q i <;> simp [hk, Ne.symm hk]

theorem getLsbD_maskOf (q : Nat → Bool) (k : Nat) : (maskOf q).getLsbD k = (decide (k < 32) && q k) := by
  rw [maskOf, getLsbD_foldl_twoPow]
  by_cases h : k < 32 <;> simp [lanes, h]

theorem maskOf_congr {p q : Nat → Bool} (h : ∀ k < 32, p k = q k) : maskOf p = maskOf q := by
  refine BitVec.eq_of_getLsbD_eq fun k hk => ?_
  rw [getLsbD_maskOf, getLsbD_maskOf, h k hk]

theorem maskOf_eq_zero {q : Nat → Bool} : maskOf q = 0 ↔ ∀ k < 32, q k = false := by
  constructor
  · intro h k hk
    have := getLsbD_maskOf q k
    simpa [h, hk] using this.symm
  · intro h
    refine BitVec.eq_of_getLsbD_eq fun k hk => ?_
    simp [getLsbD_maskOf, h k hk]

/-- Whether a lane of m satisfies q, over the lane numbers. -/
theorem anyLane_eq (m : W32) (q : Nat → Bool) : anyLane m q = (List.range 32).any fun k => m.getLsbD k && q k := by
  simp [anyLane, activeLanes, lanes, List.any_filter]

@[simp] theorem anyLane_false (m : W32) : (anyLane m fun _ => false) = false := by simp [anyLane]

theorem maskOf_and_eq_zero {m : W32} {q : Nat → Bool} : maskOf (fun k => m.getLsbD k && q k) = 0 ↔ anyLane m q = false := by
  rw [maskOf_eq_zero, anyLane_eq]
  simp

@[simp] theorem orLanes_zero {n : Nat} (m : W32) : (orLanes m fun _ => (0 : BitVec n)) = 0 := by
  have h (l : List Nat) : l.foldl (fun (a : BitVec n) _ => a ||| 0) 0 = 0 := by
    induction l with
    | nil => rfl
    | cons i r ih => simp
  exact h _

/-- One exception c, met in the lanes that p holds of. -/
theorem orLanes_ite {n : Nat} (m : W32) (p : Nat → Bool) (c : BitVec n) :
    (orLanes m fun k => if p k then c else 0) = if anyLane m p then c else 0 := by
  have h (l : List Nat) (a : BitVec n) :
      l.foldl (fun a k => a ||| if p k then c else 0) a = a ||| if l.any p then c else 0 := by
    induction l generalizing a with
    | nil => simp
    | cons i r ih => rw [List.foldl_cons, ih]; cases hp : p i <;> cases hr : r.any p <;> simp [hp, hr, BitVec.or_assoc]
  rw [orLanes, h, anyLane]
  exact BitVec.zero_or

@[simp] theorem State.orF_zero (s : State) : s.orF 0 = s := by
  show s.mapR (fun r => { r with fflags := r.fflags ||| 0 }) = s
  have h (x : BitVec 5) : x ||| 0 = x := BitVec.or_zero
  simp only [h]
  rfl
@[simp] theorem State.orSat_false (s : State) : s.orSat false = s := rfl

/-! ## Exceptions (R55) -/

@[simp] theorem State.clean_nil (s : State) : s.Clean [] := by
  simp [State.Clean, Group.poisoned]

theorem State.clean_append {s : State} {l r : List Item} : s.Clean (l ++ r) ↔ s.Clean l ∧ s.Clean r := by
  simp only [State.Clean, Group.poisoned]
  split_ifs <;> simp [List.filter_append]

theorem State.clean_cons {s : State} {a : Item} {l : List Item} : s.Clean (a :: l) ↔ s.Clean [a] ∧ s.Clean l :=
  State.clean_append (l := [a])

theorem trapIf_of_not {p : Prop} [Decidable p] (h : ¬ p) (t : Trap) : trapIf (decide p) t = none := by simp [trapIf, h]
theorem trapIf_of {p : Prop} [Decidable p] (h : p) (t : Trap) : trapIf (decide p) t = some t := by simp [trapIf, h]

theorem State.untrapped_zero (s : State) (m : W32) : s.Untrapped m fun _ => 0 := fun _ _ _ => BitVec.zero_and

/-- The lanes that FPEXC names are none exactly when no enabled exception is met. -/
theorem State.untrapped_iff_maskOf {s : State} {m : W32} {exc : Nat → BitVec 5} :
    s.Untrapped m exc ↔ maskOf (fun k => m.getLsbD k && exc k &&& s.g.r.fenable != 0) = 0 := by
  rw [maskOf_eq_zero]
  simp only [State.Untrapped, Bool.and_eq_false_imp, bne_eq_false_iff_eq]

theorem fpTrap_of_untrapped {s : State} {m : W32} {exc : Nat → BitVec 5} (h : s.Untrapped m exc) : fpTrap s.g m exc = none := by
  have bad := State.untrapped_iff_maskOf.1 h
  simp only [fpTrap, bad, decide_true, Bool.or_true, if_true]

theorem fpTrap_of_trapped {s : State} {m : W32} {exc : Nat → BitVec 5} (h : ¬ s.Untrapped m exc) :
    fpTrap s.g m exc = some { cause := cFPEXC, elanes := maskOf fun k => m.getLsbD k && exc k &&& s.g.r.fenable != 0,
                              einfo := (orLanes m exc).setWidth 64 } := by
  have enabled : s.g.r.fenable ≠ 0 := fun e => h fun _ _ _ => by rw [e]; exact BitVec.and_zero
  have bad := mt State.untrapped_iff_maskOf.2 h
  simp only [fpTrap, enabled, bad, decide_false, Bool.or_false, Bool.false_eq_true, if_false]

/-- An instruction that only an enabled exception keeps from retiring ends as R55 says. -/
theorem FpEnds.of_exec {i : Instr} {s u : State} {m : W32} {exc : Nat → BitVec 5}
    (h : exec i s = settle (orTrap (fpTrap s.g m exc) s (.next u))) : FpEnds i s m exc u.retire := by
  constructor
  · intro free
    rw [Runs, h, fpTrap_of_untrapped free]
    rfl
  · intro met
    rw [Runs, h, fpTrap_of_trapped met]
    rfl

/-- One that meets no exception retires. -/
theorem runs_of_fpEnds {i : Instr} {s t : State} {m : W32} (h : FpEnds i s m (fun _ => 0) t) : Runs i s t :=
  h.1 (s.untrapped_zero m)

theorem advanceAfter_orTrap (adv : Bool) (o : Option Trap) (s u : State) :
    advanceAfter adv (orTrap o s (.next u)) = orTrap o s (.next (u.advancePhase adv)) := by
  cases o <;> rfl

/-- The same of an instruction that advances the phase as it retires (R45). -/
theorem FpEnds.of_advance {i : Instr} {s u : State} {m : W32} {exc : Nat → BitVec 5} {adv : Bool}
    (h : exec i s = settle (advanceAfter adv (orTrap (fpTrap s.g m exc) s (.next u)))) : FpEnds i s m exc (u.advancePhase adv).retire :=
  FpEnds.of_exec (advanceAfter_orTrap .. ▸ h)

/-! ## The common forms of vector instructions (R105, R131, R133) -/

/-- With an active lane and clean sources an instruction goes on. -/
theorem active_of_clean {s : State} {m : W32} {reads : List Item} (hm : m ≠ 0) (hc : s.Clean reads) (k : Res) :
    (if m = 0 then .next s else orTrap (readPoison s.g reads) s k) = k := by
  rw [if_neg hm, readPoison_of_clean hc, orTrap_none]

theorem vectorOp_of_clean {s : State} {m : W32} {reads : List Item} (hm : m ≠ 0) (hc : s.Clean reads) (d : Byte) (wide : Bool)
    (out : Nat → LaneOut) :
    vectorOp s m reads d wide out = orTrap (fpTrap s.g m fun i => (out i).exc) s
      (.next (((s.setV wide d m fun i => (out i).val).orF (orLanes m fun i => (out i).exc)).orSat (anyLane m fun i => (out i).sat))) :=
  active_of_clean hm hc _

theorem compareOp_of_clean {s : State} {m : W32} {reads : List Item} (hm : m ≠ 0) (hc : s.Clean reads) (d : BitVec 4)
    (exc : Nat → BitVec 5) (q : Nat → Bool) :
    compareOp s m reads d exc q =
      orTrap (fpTrap s.g m exc) s (.next ((s.setP d (maskOf fun i => m.getLsbD i && q i)).orF (orLanes m exc))) :=
  active_of_clean hm hc _

/-- A lane of floating-point elements, none of which clamps. -/
theorem laneOf_out (t : BitVec 4) {r : Nat → Rounded} (h : ∀ e, (r e).sat = false) :
    laneOf t (fun e => (r e).out) =
      { val := joinElems (tyBits t) ((List.range (elemN t)).map fun e => (r e).bits)
        exc := (List.range (elemN t)).foldl (fun x e => x ||| (r e).fl) 0 } := by
  simp [laneOf, Rounded.out, List.foldl_map, Function.comp_def, h]

end Sys2Proof.Machine

namespace Sys2Proof.Machine

/-! ## Scalar fields and division (R27, R113, R117) -/

theorem scalarOp_of_clean {s : State} {reads : List (BitVec 6)} (hc : s.Clean (reads.map s.g.sitem)) (d : BitVec 6) (x : W64) :
    scalarOp s reads d x = .next (s.setS d x) := by
  rw [scalarOp, readPoison_of_clean hc, orTrap_none, State.orSat_false]

/-- The field of len bits that starts at bit lo, sign- or zero-extended. -/
def fieldOf (signed : Bool) (x : W64) (lo len : Nat) : W64 :=
  if signed then (x.extractLsb' lo len).signExtend 64 else (x.extractLsb' lo len).setWidth 64

theorem getLsbD_fieldOf {signed : Bool} {x : W64} {lo len k : Nat} (hl : 0 < len) (hk : k < 64) :
    (fieldOf signed x lo len).getLsbD k = if k < len then x.getLsbD (lo + k) else (signed && x.getLsbD (lo + len - 1)) := by
  have last : lo + (len - 1) = lo + len - 1 := by omega
  cases signed with
  | false => simp [fieldOf, hk]
  | true =>
    rw [fieldOf, if_pos rfl, BitVec.getLsbD_signExtend, BitVec.msb_eq_getLsbD_last, BitVec.getLsbD_extractLsb', BitVec.getLsbD_extractLsb', last]
    by_cases h : k < len <;> simp [h, hk, hl]

/-- The field length is never 0: F2 = 0 means 64. -/
theorem s3len_pos (f : S3) : 0 < s3len f := by
  unfold s3len
  split
  case isTrue => decide
  case isFalse h => exact Nat.pos_of_ne_zero fun e => h (BitVec.eq_of_toNat_eq e)

theorem execSbfx_eq (f : S3) (s : State) :
    execSbfx f s = settle (scalarOp s [f.a] f.d (fieldOf (f.ty == 3) (s.g.sget f.a) f.f1.toNat (s3len f))) := by
  refine congrArg (fun x => settle (scalarOp s [f.a] f.d x)) ?_
  rw [s3xa, natBits_toNat_eq]
  by_cases h : f.ty = 3
  · rw [fieldOf, if_pos (beq_iff_eq.2 h), BitVec.signExtend, toInt_eq_ite_ge (s3len_pos f)]
    simp only [h, decide_true, Bool.true_and, decide_eq_true_eq, w64]
  · rw [fieldOf, if_neg (mt beq_iff_eq.1 h)]
    simp only [h, decide_false, Bool.false_and, Bool.false_eq_true, if_false, w64, BitVec.ofInt_natCast]
    exact BitVec.ofNat_toNat ..

/-- What sbfi writes, bit by bit: b with the field replaced by the low bits of a. -/
theorem getLsbD_insert {a b : W64} {lo len k : Nat} (fits : lo + len ≤ 64) (hk : k < 64) :
    ((b &&& ~~~ (BitVec.ofNat 64 (2 ^ len - 1) <<< lo)) ||| ((a &&& BitVec.ofNat 64 (2 ^ len - 1)) <<< lo)).getLsbD k =
      if lo ≤ k ∧ k < lo + len then a.getLsbD (k - lo) else b.getLsbD k := by
  have ones : (BitVec.ofNat 64 (2 ^ len - 1)).getLsbD (k - lo) = decide (k - lo < len) := by
    rw [BitVec.getLsbD_ofNat, Nat.testBit_two_pow_sub_one]
    simp; omega
  simp only [BitVec.getLsbD_or, BitVec.getLsbD_and, BitVec.getLsbD_not, BitVec.getLsbD_shiftLeft, ones, hk, decide_true, Bool.true_and]
  by_cases below : k < lo
  · simp [below]
  · by_cases inside : k - lo < len
    · simp [below, inside, show k < lo + len by omega, show lo ≤ k by omega]
    · simp [below, inside, show ¬ k < lo + len by omega]

theorem sbfi_runs {f : S3} {s : State} (hc : s.Clean [s.g.sitem f.a, s.g.sitem f.b]) :
    Runs (.sbfi f) s (s.setS f.d ((s.g.sget f.b &&& ~~~ (BitVec.ofNat 64 (2 ^ s3len f - 1) <<< f.f1.toNat)) |||
      ((s.g.sget f.a &&& BitVec.ofNat 64 (2 ^ s3len f - 1)) <<< f.f1.toNat))).retire :=
  congrArg settle (scalarOp_of_clean (reads := [f.a, f.b]) hc f.d _)

/-- Division whose exception is not enabled retires (R117). -/
theorem scalarDiv_of_untrapped {s : State} {f : S3} {r : Int} {exc : BitVec 5} (hc : s.Clean [s.g.sitem f.a, s.g.sitem f.b])
    (hx : (if s.g.sget f.b = 0 then fDZ else 0) = exc) (off : exc &&& s.g.r.fenable = 0) :
    scalarDiv s f r = .next ((s.setS f.d (w64 r)).orF exc) := by
  subst hx
  rw [scalarDiv, readPoison_of_clean hc, orTrap_none, s3xb, fpTrapScalar, if_pos off, orTrap_none]

theorem scalarDiv_of_trapped {s : State} {f : S3} {r : Int} (hc : s.Clean [s.g.sitem f.a, s.g.sitem f.b]) (hb : s.g.sget f.b = 0)
    (on : s.g.r.fenable &&& fDZ ≠ 0) : scalarDiv s f r = .trap { cause := cFPEXC, einfo := 8 } s := by
  rw [BitVec.and_comm] at on
  rw [scalarDiv, readPoison_of_clean hc, orTrap_none, s3xb, fpTrapScalar, if_pos hb, if_neg on]
  rfl

/-- val of a scalar is 0 only for the pattern 0. -/
theorem sval_eq_zero {ty : BitVec 4} {x : W64} : sval ty x = 0 ↔ x = 0 := by
  unfold sval
  split_ifs
  · exact ⟨fun h => BitVec.eq_of_toInt_eq h, fun h => h ▸ rfl⟩
  · exact ⟨fun h => BitVec.eq_of_toNat_eq (Int.natCast_eq_zero.1 h), fun h => h ▸ rfl⟩

theorem w64_sval (ty : BitVec 4) (x : W64) : w64 (sval ty x) = x := by
  unfold sval w64
  split_ifs
  · exact BitVec.ofInt_toInt
  · rw [BitVec.ofInt_natCast]; exact BitVec.ofNat_toNat ..

/-- A division by 0 with DZ not enabled: r is the answer (R27). -/
theorem scalarDiv_zero {s : State} {f : S3} {r : Int} (hc : s.Clean [s.g.sitem f.a, s.g.sitem f.b]) (hb : s.g.sget f.b = 0)
    (off : s.g.r.fenable &&& fDZ = 0) : scalarDiv s f r = .next ((s.setS f.d (w64 r)).orF fDZ) :=
  scalarDiv_of_untrapped hc (if_pos hb) (BitVec.and_comm .. ▸ off)

theorem scalarDiv_ne_zero {s : State} {f : S3} {r : Int} (hc : s.Clean [s.g.sitem f.a, s.g.sitem f.b]) (hb : s.g.sget f.b ≠ 0) :
    scalarDiv s f r = .next (s.setS f.d (w64 r)) := by
  rw [scalarDiv_of_untrapped hc (if_neg hb) BitVec.zero_and, State.orF_zero]

end Sys2Proof.Machine

section
open Sys2Proof Sys2Proof.Machine

/-- Settles O15: the fields bit by bit, and the three cases of a division: a divisor other than 0, and 0 with DZ off and on. -/
theorem scalarFields : Obligations.ScalarFields := by
  refine ⟨⟨?sbfx, ?sbfi⟩, ?division⟩
  case sbfx =>
    intro f s len fits hc
    exact ⟨_, (execSbfx_eq f s).trans (congrArg settle (scalarOp_of_clean (reads := [f.a]) hc _ _)),
      fun k hk => getLsbD_fieldOf (s3len_pos f) hk⟩
  case sbfi =>
    intro f s len fits hc
    exact ⟨_, sbfi_runs hc, fun k hk => getLsbD_insert fits hk⟩
  case division =>
    intro f s hc
    refine ⟨fun hb => ⟨?_, ?_⟩, fun hb off => ⟨?_, ?_⟩, fun hb on => ⟨?_, ?_⟩⟩
    · have q : quotient (s3va f s) (s3vb f s) = (s3va f s).tdiv (s3vb f s) := if_neg (mt sval_eq_zero.1 hb)
      exact q ▸ congrArg settle (scalarDiv_ne_zero hc hb)
    · have r : remainder (s3va f s) (s3vb f s) = (s3va f s).tmod (s3vb f s) := if_neg (mt sval_eq_zero.1 hb)
      exact r ▸ congrArg settle (scalarDiv_ne_zero hc hb)
    · have q : quotient (s3va f s) (s3vb f s) = -1 := if_pos (sval_eq_zero.2 hb)
      exact (congrArg (fun x => settle (scalarDiv s f x)) q).trans (congrArg settle (scalarDiv_zero hc hb off))
    · have r : remainder (s3va f s) (s3vb f s) = s3va f s := if_pos (sval_eq_zero.2 hb)
      have wr : w64 (s3va f s) = s.g.sget f.a := w64_sval f.ty _
      exact wr ▸ (congrArg (fun x => settle (scalarDiv s f x)) r).trans (congrArg settle (scalarDiv_zero hc hb off))
    · exact congrArg settle (scalarDiv_of_trapped hc hb on)
    · exact congrArg settle (scalarDiv_of_trapped hc hb on)

end

namespace Sys2Proof.Machine

/-! ## Integer elements -/

/-- A lane of 32 bits is its one element. -/
theorem elemOf_of_tyW {t : BitVec 4} (h : tyW t = true) (x : W32) : elemOf t x.toNat 0 = x.toNat := by
  rw [elemOf, tyBits_of_tyW h, natBits, Nat.mul_zero, Nat.pow_zero, Nat.div_one, Nat.mod_eq_of_lt x.isLt]

theorem laneOf_of_tyW {t : BitVec 4} (h : tyW t = true) (el : Nat → LaneOut) :
    laneOf t el = { el 0 with exc := 0 ||| (el 0).exc } := by
  simp [laneOf, elemN_of_tyW h, joinElems]

/-! ## Vector division (R27, R137) -/

/-- The lanes of m whose divisor is 0. -/
def zeroLanes (f : V3) (s : State) : W32 := maskOf fun k => (v3mask f s.g).getLsbD k && s.g.vget f.b k == 0

/-- What a lane of vdiv or vrem writes. -/
def divVal (f : V3) (s : State) (r : Int → Int → Int) (k : Nat) : Nat :=
  (r (elemInt f.ty (s.g.vget f.a k).toNat) (elemInt f.ty (s.g.vget f.b k).toNat) % 2 ^ 32).toNat

theorem divOp_of_clean {f : V3} {s : State} (h : tyW f.ty = true) (hm : v3mask f s.g ≠ 0) (hc : s.Clean (vectorSources f s [f.a, f.b]))
    (r : Int → Int → Int) :
    let exc (k : Nat) : BitVec 5 := if s.g.vget f.b k == 0 then fDZ else 0
    divOp s f r = settle (orTrap (fpTrap s.g (v3mask f s.g) exc) s
      (.next ((s.setV false f.d (v3mask f s.g) (divVal f s r)).orF (orLanes (v3mask f s.g) exc)))) := by
  intro exc
  have narrow := is64_of_tyW h
  have hc : s.Clean (s.g.vitems (is64 f.ty) (v3mask f s.g) f.a ++ s.g.vitems (is64 f.ty) (v3mask f s.g) f.b ++ []) := by
    simpa [vectorSources] using hc
  have lane (k : Nat) : laneOf f.ty (fun e => { intElem f.ty false (r (elemInt f.ty (elemOf f.ty (s.g.lane f.ty f.a k) e))
      (elemInt f.ty (elemOf f.ty (s.g.lane f.ty f.b k) e))) with exc := if elemOf f.ty (s.g.lane f.ty f.b k) e = 0 then fDZ else 0 }) =
      { val := divVal f s r k, exc := exc k } := by
    have zero : (s.g.vget f.b k).toNat = 0 ↔ s.g.vget f.b k = 0 := BitVec.toNat_inj (y := 0)
    simp [laneOf_of_tyW h, Group.lane, narrow, elemOf_of_tyW h, intElem, tyBits_of_tyW h, divVal, exc, zero]
  refine (congrArg settle (vectorOp_of_clean hm hc _ _ _)).trans ?_
  simp only [if_true, lane, narrow, anyLane_false, State.orSat_false]

theorem divVal_eq {f : V3} {s : State} (r : Int → Int → Int) (k : Nat) :
    (divVal f s r k : Int) = r (elemInt f.ty (s.g.vget f.a k).toNat) (elemInt f.ty (s.g.vget f.b k).toNat) % 2 ^ 32 :=
  Int.toNat_of_nonneg (Int.emod_nonneg _ (by decide))

theorem fDZ_and_eq_zero_or {p : Bool} {x : BitVec 5} : (if p then fDZ else 0) &&& x = 0 ↔ p = false ∨ x &&& fDZ = 0 := by
  cases p with
  | false => exact ⟨fun _ => .inl rfl, fun _ => BitVec.zero_and⟩
  | true => rw [if_pos rfl, BitVec.and_comm]; simp

/-- An enabled DZ is met exactly when it is enabled and an active divisor is 0. -/
theorem untrapped_div {f : V3} {s : State} : s.Untrapped (v3mask f s.g) (fun k => if s.g.vget f.b k == 0 then fDZ else 0) ↔
    zeroLanes f s = 0 ∨ s.g.r.fenable &&& fDZ = 0 := by
  simp only [State.Untrapped, fDZ_and_eq_zero_or, zeroLanes, maskOf_eq_zero, Bool.and_eq_false_imp]
  by_cases off : s.g.r.fenable &&& fDZ = 0
  · simp only [off, or_true, implies_true]
  · simp only [off, or_false]

theorem zeroLanes_eq_zero {f : V3} {s : State} : zeroLanes f s = 0 ↔ anyLane (v3mask f s.g) (fun k => s.g.vget f.b k == 0) = false :=
  maskOf_and_eq_zero

theorem orLanes_div (f : V3) (s : State) :
    (orLanes (v3mask f s.g) fun k => if s.g.vget f.b k == 0 then fDZ else 0) = if zeroLanes f s = 0 then 0 else fDZ := by
  rw [orLanes_ite]
  by_cases h : zeroLanes f s = 0
  · rw [if_pos h, zeroLanes_eq_zero.1 h, if_neg Bool.false_ne_true]
  · rw [if_neg h, if_pos (Bool.not_eq_false _ ▸ mt zeroLanes_eq_zero.2 h)]

/-- A division ends as R55 says, naming the lanes whose divisor is 0. -/
theorem div_ends {i : Instr} {f : V3} {s : State} {r : Int → Int → Int} (runs : exec i s = divOp s f r) (h : tyW f.ty = true)
    (hm : v3mask f s.g ≠ 0) (hc : s.Clean (vectorSources f s [f.a, f.b])) :
    (zeroLanes f s = 0 ∨ s.g.r.fenable &&& fDZ = 0 →
      Runs i s ((s.setV false f.d (v3mask f s.g) (divVal f s r)).orF (if zeroLanes f s = 0 then 0 else fDZ)).retire) ∧
    (zeroLanes f s ≠ 0 → s.g.r.fenable &&& fDZ ≠ 0 →
      Runs i s (takeTrap { cause := cFPEXC, elanes := zeroLanes f s, einfo := 8 } s)) := by
  obtain ⟨retires, raises⟩ := FpEnds.of_exec (runs.trans (divOp_of_clean h hm hc r))
  rw [untrapped_div] at retires raises
  rw [orLanes_div] at retires raises
  refine ⟨retires, fun some on => ?_⟩
  have lanes : (maskOf fun k => (v3mask f s.g).getLsbD k && (if s.g.vget f.b k == 0 then fDZ else 0) &&& s.g.r.fenable != 0) = zeroLanes f s := by
    refine maskOf_congr fun k _ => ?_
    have met : ((if s.g.vget f.b k == 0 then fDZ else 0) &&& s.g.r.fenable != 0) = (s.g.vget f.b k == 0) := by
      rw [Bool.eq_iff_iff, bne_iff_ne, ne_eq, fDZ_and_eq_zero_or, or_iff_left on, Bool.not_eq_false]
    rw [met]
  have := raises (not_or.2 ⟨some, on⟩)
  rw [lanes, if_neg some] at this
  exact this

/-! ## Sums of bytes (R138) -/

theorem elemInt_of_signed {t : BitVec 4} (signed : isSigned t = true) (x : BitVec (tyBits t)) (h : 0 < tyBits t) : elemInt t x.toNat = x.toInt := by
  rw [elemInt, toInt_eq_ite_ge h]
  simp only [signed, Bool.true_and, decide_eq_true_eq]

/-- Byte j of lane k of a register, as TYPE reads it. -/
def laneByte (f : V3) (s : State) (n : Byte) (k j : Nat) : Int :=
  let x := ((s.g.vget n k).extractLsb' (8 * j) 8 : Byte)
  if f.ty = 0 then x.toInt else x.toNat
/-- The accumulator of lane k. -/
def laneAcc (f : V3) (s : State) (k : Nat) : Int := if f.ty = 0 then (s.g.vget f.c k).toInt else (s.g.vget f.c k).toNat
/-- The accumulator with the four terms of a lane added. -/
def laneTotal (f : V3) (s : State) (term : Int → Int → Int) (k : Nat) : Int :=
  laneAcc f s k + term (laneByte f s f.a k 0) (laneByte f s f.b k 0) + term (laneByte f s f.a k 1) (laneByte f s f.b k 1) +
    term (laneByte f s f.a k 2) (laneByte f s f.b k 2) + term (laneByte f s f.a k 3) (laneByte f s f.b k 3)

/-- The type of the accumulator. -/
def accTy (f : V3) : BitVec 4 := if f.ty = 0 then 2 else 6

theorem elemInt_byte {f : V3} (h : f.ty = 0 ∨ f.ty = 4) (s : State) (n : Byte) (k j : Nat) :
    elemInt f.ty (elemOf f.ty (s.g.vget n k).toNat j) = laneByte f s n k j := by
  rw [elemOf, natBits_toNat_eq, laneByte]
  rcases h with h | h <;> rw [h]
  · exact elemInt_of_signed (t := 0) rfl _ (by decide)
  · rfl

theorem elemInt_acc {f : V3} (h : f.ty = 0 ∨ f.ty = 4) (s : State) (k : Nat) : elemInt (accTy f) (s.g.vget f.c k).toNat = laneAcc f s k := by
  rw [accTy, laneAcc]
  rcases h with h | h <;> rw [h]
  · exact elemInt_of_signed (t := 2) rfl _ (by decide)
  · rfl

theorem byteSum_eq {f : V3} (h : f.ty = 0 ∨ f.ty = 4) (s : State) (term : Int → Int → Int) :
    byteSum s f term = settle (vectorOp s (v3mask f s.g)
      (s.g.vitems false (v3mask f s.g) f.a ++ s.g.vitems false (v3mask f s.g) f.b ++ s.g.vitems false (v3mask f s.g) f.c) f.d false
      fun k => intElem (accTy f) (f.sat == 1) (laneTotal f s term k)) := by
  unfold byteSum
  simp only [elemInt_byte h]
  refine congrArg (fun out => settle (vectorOp s _ _ f.d false out)) (funext fun k => ?_)
  show intElem (accTy f) _ (List.foldl _ (elemInt (accTy f) _) _) = _
  rw [elemInt_acc h]
  rfl

theorem byteSum_runs {i : Instr} {f : V3} {s : State} {term : Int → Int → Int} (runs : exec i s = byteSum s f term)
    (h : f.ty = 0 ∨ f.ty = 4) (hm : v3mask f s.g ≠ 0)
    (hc : s.Clean (([f.a, f.b, f.c]).flatMap fun n => s.g.vitems false (v3mask f s.g) n)) :
    Runs i s ((s.setV false f.d (v3mask f s.g) fun k => (intElem (accTy f) (f.sat == 1) (laneTotal f s term k)).val).orSat
      (anyLane (v3mask f s.g) fun k => (intElem (accTy f) (f.sat == 1) (laneTotal f s term k)).sat)).retire := by
  have hc : s.Clean (s.g.vitems false (v3mask f s.g) f.a ++ s.g.vitems false (v3mask f s.g) f.b ++ s.g.vitems false (v3mask f s.g) f.c) := by
    simpa using hc
  have exc (x : Int) : (intElem (accTy f) (f.sat == 1) x).exc = 0 := by unfold intElem; dsimp only; split <;> rfl
  have ends := (runs.trans (byteSum_eq h s term)).trans (congrArg settle (vectorOp_of_clean hm hc _ _ _))
  simp only [exc, orLanes_zero, State.orF_zero] at ends
  exact runs_of_fpEnds (FpEnds.of_exec ends)

/-- Without .sat the sum wraps. -/
theorem byteSum_wraps {i : Instr} {f : V3} {s : State} {term : Int → Int → Int} (runs : exec i s = byteSum s f term)
    (h : f.ty = 0 ∨ f.ty = 4) (hm : v3mask f s.g ≠ 0)
    (hc : s.Clean (([f.a, f.b, f.c]).flatMap fun n => s.g.vitems false (v3mask f s.g) n)) (hs : f.sat = 0) :
    Runs i s (s.setV false f.d (v3mask f s.g) fun k => (laneTotal f s term k % 2 ^ 32).toNat).retire := by
  have bits : tyBits (accTy f) = 32 := by rcases h with h | h <;> rw [accTy, h] <;> rfl
  have wraps (x : Int) : intElem (accTy f) (f.sat == 1) x = { val := (x % 2 ^ 32).toNat } := by
    rw [hs, intElem, bits]; rfl
  have ends := byteSum_runs runs h hm hc
  simpa only [wraps, anyLane_false, State.orSat_false] using ends

/-- Under .sat it clamps, and a clamp sets SAT. -/
theorem byteSum_clamps {i : Instr} {f : V3} {s : State} {term : Int → Int → Int} (runs : exec i s = byteSum s f term)
    (h : f.ty = 0 ∨ f.ty = 4) (hm : v3mask f s.g ≠ 0)
    (hc : s.Clean (([f.a, f.b, f.c]).flatMap fun n => s.g.vitems false (v3mask f s.g) n)) (hs : f.sat = 1) :
    let lo : Int := if f.ty = 0 then -2 ^ 31 else 0
    let hi : Int := if f.ty = 0 then 2 ^ 31 - 1 else 2 ^ 32 - 1
    Runs i s ((s.setV false f.d (v3mask f s.g) fun k => (max lo (min hi (laneTotal f s term k)) % 2 ^ 32).toNat).orSat
      ((List.range 32).any fun k => (v3mask f s.g).getLsbD k && (decide (laneTotal f s term k < lo) || decide (hi < laneTotal f s term k)))).retire := by
  intro lo hi
  have clamps (x : Int) : intElem (accTy f) (f.sat == 1) x =
      { val := (max lo (min hi x) % 2 ^ 32).toNat, sat := decide (x < lo) || decide (hi < x) } := by
    have le : lo ≤ hi := by rcases h with h | h <;> simp [lo, hi, h]
    have bounds : intLo (isSigned (accTy f)) 32 = lo ∧ intHi (isSigned (accTy f)) 32 = hi ∧ tyBits (accTy f) = 32 := by
      rcases h with h | h <;> simp only [lo, hi, accTy, h] <;> decide
    obtain ⟨hlo, hhi, bits⟩ := bounds
    simp only [intElem, hs, bits, hlo, hhi, clamp_eq le, beq_self_eq_true, if_true]
  have ends := byteSum_runs runs h hm hc
  simpa only [clamps, anyLane_eq] using ends

end Sys2Proof.Machine

section
open Sys2Proof Sys2Proof.Machine

/-- Settles O22: a division meets DZ in the lanes whose divisor is 0; a sum of bytes meets no exception, and wraps or clamps. -/
theorem vectorDivision : Obligations.VectorDivision := by
  refine ⟨?division, ?bytes⟩
  case division =>
    intro f s h hm hc a b zeros
    obtain ⟨divides, divTraps⟩ := div_ends (i := .vdiv f) (r := quotient) rfl h hm hc
    obtain ⟨leaves, remTraps⟩ := div_ends (i := .vrem f) (r := remainder) rfl h hm hc
    refine ⟨fun off => ⟨_, _, divides off, leaves off, fun k _ _ => ⟨?_, ?_⟩⟩, fun some on => ⟨divTraps some on, remTraps some on⟩⟩
    · rw [divVal_eq, quotient]
      split_ifs <;> rfl
    · rw [divVal_eq, remainder]
      split_ifs <;> rfl
  case bytes =>
    intro f s h hm hc byte acc lo hi sad dot
    have abs (k : Nat) : laneTotal f s (fun a b => (a - b).natAbs) k = sad k := by
      simp only [laneTotal, ← Int.abs_eq_natAbs]
      rfl
    refine ⟨fun hs => ?_, byteSum_wraps (i := .vdot4 f) (term := fun a b => a * b) rfl h hm hc,
      byteSum_clamps (i := .vdot4 f) (term := fun a b => a * b) rfl h hm hc⟩
    have wraps := byteSum_wraps (i := .vsad f) (term := fun a b => (a - b).natAbs) rfl h hm hc hs
    simpa only [abs] using wraps

end

namespace Sys2Proof.Machine

/-! ## Comparisons (R142, R147) -/

/-- The six conditions of vcmp, by the code in SUB. -/
theorem compareInt_eq (c : BitVec 5) (a b : Int) :
    compareInt c.toNat a b = decide ((c = 0 ∧ a = b) ∨ (c = 1 ∧ a ≠ b) ∨ (c = 2 ∧ a < b) ∨ (c = 3 ∧ a ≤ b) ∨ (c = 4 ∧ a > b) ∨
      (5 ≤ c.toNat ∧ a ≥ b)) := by
  simp only [BitVec.ofNat_eq_ofNat, ← BitVec.toNat_inj, BitVec.toNat_ofNat]
  rw [Bool.eq_iff_iff]
  rcases h : c.toNat with _ | _ | _ | _ | _ | n <;> simp [compareInt]

theorem vcmp_runs {f : V3} {s : State} (hm : v3mask f s.g ≠ 0) (hc : s.Clean (vectorSources f s [f.a, f.b])) :
    Runs (.vcmp f) s (s.setP (pnum f.d) (maskOf fun k => (v3mask f s.g).getLsbD k &&
      compareInt f.sub.toNat (elemInt f.ty (s.g.lane f.ty f.a k)) (elemInt f.ty (s.g.lane f.ty f.b k)))).retire := by
  have hc : s.Clean (s.g.vitems (is64 f.ty) (v3mask f s.g) f.a ++ s.g.vitems (is64 f.ty) (v3mask f s.g) f.b) := by
    simpa [vectorSources] using hc
  have ends := FpEnds.of_exec (i := .vcmp f) (congrArg settle (compareOp_of_clean hm hc _ (fun _ => 0) _))
  rw [orLanes_zero, State.orF_zero] at ends
  exact runs_of_fpEnds ends

theorem fcmp_ends {f : V3} {s : State} (hm : v3mask f s.g ≠ 0)
    (hc : s.Clean (([f.a, f.b]).flatMap fun n => s.g.vitems false (v3mask f s.g) n)) :
    let r (k : Nat) : Bool × BitVec 5 := fcmpCond f.sub.toNat (f32.read (modOf f.md 0 f32 (s.g.vget f.a k).toNat))
      (f32.read (modOf f.md 1 f32 (s.g.vget f.b k).toNat))
    FpEnds (.fcmp f) s (v3mask f s.g) (fun k => (r k).2)
      ((s.setP (pnum f.d) (maskOf fun k => (v3mask f s.g).getLsbD k && (r k).1)).orF (orLanes (v3mask f s.g) fun k => (r k).2)).retire := by
  have hc : s.Clean (s.g.vitems false (v3mask f s.g) f.a ++ s.g.vitems false (v3mask f s.g) f.b) := by simpa using hc
  exact FpEnds.of_exec (congrArg settle (compareOp_of_clean hm hc _ _ _))

end Sys2Proof.Machine

section
open Sys2Proof Sys2Proof.Machine

/-- Settles O24: both comparisons are the form of R142, vcmp with no exception; the conditions agree code by code. -/
theorem comparisons : Obligations.Comparisons := by
  constructor
  · intro f s hm hc
    simp only [← compareInt_eq]
    exact vcmp_runs hm hc
  · intro f s hm hc
    have ends := fcmp_ends hm hc
    unfold fcmpCond at ends
    exact ends

end

namespace Sys2Proof.Machine

/-! ## Floating-point arithmetic (R143 to R150) -/

/-- Without .sat no rounding clamps. -/
theorem Fmt.roundVal_sat (f : Fmt) (mode th : Nat) (neg : Bool) (num den : Nat) : (f.roundVal mode th false neg num den).sat = false := by
  simp only [Fmt.roundVal, Bool.false_eq_true, if_false]
  split_ifs <;> rfl

theorem Fmt.round_sat (f : Fmt) (mode th : Nat) (x : Exact) : (f.round mode th false x).sat = false := by
  cases x with
  | nan => rfl
  | zero neg => rfl
  | inf neg => simp only [Fmt.round, Bool.false_eq_true, if_false]; split_ifs <;> rfl
  | val neg n d => exact f.roundVal_sat mode th neg n d

theorem finishFp_sat (f : V3) (x : Ex) : (finishFp f x).sat = false := Fmt.round_sat _ _ _ _

theorem fmtMinMax_sat (f : Fmt) (max : Bool) (a b : Nat) : (fmtMinMax f max a b).sat = false := by
  simp only [fmtMinMax]
  split_ifs <;> rfl

theorem fmtRndInt_sat (f : Fmt) (mode bits : Nat) : (fmtRndInt f mode bits).sat = false := by
  unfold fmtRndInt
  split
  · rfl
  · rfl
  · dsimp only; split_ifs <;> rfl

/-- A vector instruction whose element e of lane k is r k e, with none that clamps, ends as R133 and R55 say. -/
theorem FpEnds.of_vectorOp {i : Instr} {f : V3} {s : State} {reads : List Item} {r : Nat → Nat → Rounded} (hm : v3mask f s.g ≠ 0)
    (hc : s.Clean reads) (sat : ∀ k e, (r k e).sat = false)
    (runs : exec i s = settle (vectorOp s (v3mask f s.g) reads f.d false fun k => laneOf f.ty fun e => (r k e).out)) :
    FpEnds i s (v3mask f s.g) (fun k => laneExc f (r k))
      ((s.setV false f.d (v3mask f s.g) fun k => joinElems (tyBits f.ty) ((List.range (elemN f.ty)).map fun e => (r k e).bits)).orF
        (orLanes (v3mask f s.g) fun k => laneExc f (r k))).retire := by
  rw [vectorOp_of_clean hm hc] at runs
  simp only [fun k => laneOf_out f.ty (sat k), anyLane_false, State.orSat_false] at runs
  exact FpEnds.of_exec runs

/-- An instruction of the form of R133 is one of FloatResult: useB and useC say which of B and C it reads. -/
theorem FloatResult.of_fpVector {i : V3 → Instr} {el : V3 → Nat → Nat → Nat → Rounded} (useB useC : Bool)
    (runs : ∀ f s, exec (i f) s = fpVector s f useB useC (el f))
    (sat : ∀ f a b c, (el f a b c).sat = false)
    (unusedB : useB = false → ∀ f a b b' c, el f a b c = el f a b' c)
    (unusedC : useC = false → ∀ f a b c c', el f a b c = el f a b c') :
    FloatResult i (fun f => f.a :: ((if useB then [f.b] else []) ++ if useC then [f.c] else [])) el := by
  intro f s hm hc
  refine FpEnds.of_vectorOp hm (reads := s.g.vitems false (v3mask f s.g) f.a ++ (if useB then s.g.vitems false (v3mask f s.g) f.b else []) ++
    (if useC then s.g.vitems false (v3mask f s.g) f.c else [])) ?_ (fun k e => sat f _ _ _) ?_
  · cases useB <;> cases useC <;> simpa using hc
  · have used (k e : Nat) : el f (fpElem f s 0 f.a k e) (fpElem f s 1 f.b k e) (fpElem f s 2 f.c k e) =
        el f (fpElem f s 0 f.a k e) (modOf f.md 1 (fmtOf f.ty) (elemOf f.ty (if useB then (s.g.vget f.b k).toNat else 0) e))
          (modOf f.md 2 (fmtOf f.ty) (elemOf f.ty (if useC then (s.g.vget f.c k).toNat else 0) e)) := by
      cases useB with
      | true => cases useC with
        | true => rfl
        | false => exact unusedC rfl _ _ _ _ _
      | false => cases useC with
        | true => exact unusedB rfl _ _ _ _ _
        | false => exact (unusedB rfl _ _ _ _ _).trans (unusedC rfl _ _ _ _ _)
    simp only [used]
    exact runs f s

/-- An instruction of two operands whose exact result is rounded once. -/
theorem FloatResult.of_binary {i : V3 → Instr} {el : V3 → Nat → Nat → Rounded}
    (runs : ∀ f s, exec (i f) s = fpVector s f true false fun a b _ => el f a b) (sat : ∀ f a b, (el f a b).sat = false) :
    FloatResult i (fun f => [f.a, f.b]) fun f a b _ => el f a b :=
  FloatResult.of_fpVector true false runs (fun f a b _ => sat f a b) (fun h => nomatch h) (fun _ _ _ _ _ _ => rfl)

theorem FloatResult.of_unary {i : V3 → Instr} {el : V3 → Nat → Rounded}
    (runs : ∀ f s, exec (i f) s = fpVector s f false false fun a _ _ => el f a) (sat : ∀ f a, (el f a).sat = false) :
    FloatResult i (fun f => [f.a]) fun f a _ _ => el f a :=
  FloatResult.of_fpVector false false runs (fun f a _ _ => sat f a) (fun _ _ _ _ _ _ => rfl) (fun _ _ _ _ _ _ => rfl)

/-- A unary function of R143: its exact value, rounded once. -/
theorem FloatResult.of_function {i : V3 → Instr} {x : FV → Ex} (runs : ∀ f s, exec (i f) s = fpOp s f false false fun a _ _ => x a) :
    FloatResult i (fun f => [f.a]) fun f a _ _ => finishFp f (x ((fmtOf f.ty).read a)) :=
  .of_unary runs fun f _ => finishFp_sat f _

/-- A vector instruction without exceptions retires with the lanes it computes. -/
theorem LaneResult.of_vectorOp {i : V3 → Instr} {reads : V3 → State → List Item} {wide : V3 → Bool} {val : V3 → State → Nat → Nat}
    (runs : ∀ f s, exec (i f) s = settle (vectorOp s (v3mask f s.g) (reads f s) f.d (wide f) fun k => { val := val f s k })) :
    LaneResult i reads wide val := by
  intro f s hm hc
  have ends := runs f s
  rw [vectorOp_of_clean hm hc, orLanes_zero, State.orF_zero, anyLane_false, State.orSat_false] at ends
  exact runs_of_fpEnds (FpEnds.of_exec ends)

/-- The element of fsgn: the magnitude of a under the sign that SUB chooses (R150). -/
def fsgnElem (f : V3) (a b : Nat) : Rounded := { bits :=
  let sign := (fmtOf f.ty).sign
  let sa : Bool := decide (sign ≤ a)
  let sb : Bool := decide (sign ≤ b)
  a % sign + if (f.sub = 0 ∧ sb) ∨ (f.sub = 1 ∧ ¬ sb) ∨ (2 ≤ f.sub.toNat ∧ sa ≠ sb) then sign else 0 }

theorem execFsgn_eq (f : V3) (s : State) : execFsgn f s = fpVector s f true false fun a b _ => fsgnElem f a b := by
  unfold execFsgn
  refine congrArg (fpVector s f true false) (funext₃ fun a b _ => ?_)
  simp only [fsgnElem, BitVec.ofNat_eq_ofNat, ← BitVec.toNat_inj, BitVec.toNat_ofNat]
  rcases f.sub.toNat with _ | _ | n <;> simp

theorem fsgn_result : FloatResult .fsgn (fun f => [f.a, f.b]) fun f a b _ => fsgnElem f a b :=
  .of_binary execFsgn_eq fun _ _ _ => rfl

/-- fscale: the exponent is the matching integer element of B (R149). -/
theorem fscale_ends {f : V3} {s : State} (hm : v3mask f s.g ≠ 0)
    (hc : s.Clean (([f.a, f.b]).flatMap fun n => s.g.vitems false (v3mask f s.g) n)) :
    let ity : BitVec 4 := if f.ty = 8 then 2 else 1
    let r (k e : Nat) : Rounded := finishFp f (fvScale ((fmtOf f.ty).read (fpElem f s 0 f.a k e)) (elemInt ity (elemOf ity (s.g.vget f.b k).toNat e)))
    FpEnds (.fscale f) s (v3mask f s.g) (fun k => laneExc f (r k))
      ((s.setV false f.d (v3mask f s.g) fun k => joinElems (tyBits f.ty) ((List.range (elemN f.ty)).map fun e => (r k e).bits)).orF
        (orLanes (v3mask f s.g) fun k => laneExc f (r k))).retire := by
  have hc : s.Clean (s.g.vitems false (v3mask f s.g) f.a ++ s.g.vitems false (v3mask f s.g) f.b) := by simpa using hc
  exact FpEnds.of_vectorOp hm hc (fun k e => finishFp_sat f _) rfl

end Sys2Proof.Machine

section
open Sys2Proof Sys2Proof.Machine

/-- Settles O26: each instruction has the form of R133, and none of its elements clamps; the exact results are the model's
own, rounded by `finishFp`. -/
theorem floatArithmetic : Obligations.FloatArithmetic := by
  refine ⟨?fadd, ?fsub, ?fmul, ?ffma, ?fmin, ?fmax, ?fdiv, .of_function fun _ _ => rfl, .of_function fun _ _ => rfl,
    .of_function fun _ _ => rfl, .of_function fun _ _ => rfl, .of_function fun _ _ => rfl, .of_function fun _ _ => rfl,
    .of_function fun _ _ => rfl, ?frnd, fsgn_result, fun f s => fscale_ends, ?fclass⟩
  case fadd => exact .of_binary (fun _ _ => rfl) fun f _ _ => finishFp_sat f _
  case fsub => exact .of_binary (fun _ _ => rfl) fun f _ _ => finishFp_sat f _
  case fmul => exact .of_binary (fun _ _ => rfl) fun f _ _ => finishFp_sat f _
  case ffma => exact .of_fpVector true true (fun _ _ => rfl) (fun f _ _ _ => finishFp_sat f _) (fun h => nomatch h) (fun h => nomatch h)
  case fmin => exact .of_binary (fun _ _ => rfl) fun f _ _ => fmtMinMax_sat _ _ _ _
  case fmax => exact .of_binary (fun _ _ => rfl) fun f _ _ => fmtMinMax_sat _ _ _ _
  case fdiv => exact .of_binary (fun _ _ => rfl) fun f _ _ => finishFp_sat f _
  case frnd => exact .of_unary (fun _ _ => rfl) fun f _ => fmtRndInt_sat _ _ _
  case fclass => exact .of_vectorOp fun _ _ => rfl

end

namespace Sys2Proof.Machine

/-! ## Conversions (R151 to R156) -/

/-- A conversion of clean sources: it ends as R55 says, and the phase advances only as it retires (R45). -/
theorem FpEnds.of_conversion {i : Instr} {s : State} {m : W32} {reads : List Item} {d : Byte} {wide adv : Bool} {out : Nat → LaneOut}
    (hm : m ≠ 0) (hc : s.Clean reads) (runs : exec i s = settle (advanceAfter adv (vectorOp s m reads d wide out))) :
    FpEnds i s m (fun k => (out k).exc) (((((s.setV wide d m fun k => (out k).val).orF (orLanes m fun k => (out k).exc)).orSat
      (anyLane m fun k => (out k).sat))).advancePhase adv).retire := by
  rw [vectorOp_of_clean hm hc] at runs
  exact FpEnds.of_advance runs

/-- Writing a vector register leaves the active masks. -/
theorem Group.active_vput (g : Group) (n : Byte) (m : W32) (x : Nat → W32) (p : BitVec 4) (neg : BitVec 1) :
    (g.vput n m x).active p neg = g.active p neg := by
  unfold Group.vput
  dsimp only
  split <;> rfl

theorem v3mask_setV (f : V3) (s : State) (d : Byte) (m : W32) (x : Nat → Nat) : v3mask f (s.setV false d m x).g = v3mask f s.g := by
  have h : (s.setV false d m x).g = s.g.vput d m fun i => BitVec.ofNat 32 (x i) := rfl
  rw [v3mask, h, Group.active_vput, v3mask]

/-- Registers written one after another, each under the mask as it then stands, when no write changes that mask. -/
theorem foldl_setV_mask {mask : State → W32} (keeps : ∀ s d m x, mask (s.setV false d m x) = mask s) (d : Nat → Byte)
    (x : Nat → Nat → Nat) (l : List Nat) (s : State) :
    l.foldl (fun s e => s.setV false (d e) (mask s) (x e)) s = l.foldl (fun u e => u.setV false (d e) (mask s) (x e)) s := by
  induction l generalizing s with
  | nil => simp only [List.foldl_nil]
  | cons e r ih => simp only [List.foldl_cons, ih, keeps]

/-- vunpk writes one register for each element (R154). -/
theorem execVunpk_of_clean {f : V3} {s : State} (hm : v3mask f s.g ≠ 0) (hc : s.Clean (s.g.vitems false (v3mask f s.g) f.a)) :
    let el (e k : Nat) : Rounded × Bool := unpack (srcTy f) f.ty (s.g.vget f.a k).toNat e
    let n := packN (srcTy f)
    let exc (k : Nat) : BitVec 5 := (List.range n).foldl (fun x e => x ||| (el e k).1.fl) 0
    let s1 := ((List.range n).foldl (fun s e => s.setV false (f.d + BitVec.ofNat 8 e) (v3mask f s.g) fun k => (el e k).1.bits) s).orF
      (orLanes (v3mask f s.g) exc)
    execVunpk f s = settle (orTrap (fpTrap s.g (v3mask f s.g) exc) s
      (.next (if anyLane (v3mask f s.g) (fun k => (List.range n).any fun e => (el e k).2) then s1.orQ qRSV else s1))) := by
  dsimp only
  rw [foldl_setV_mask (mask := fun s => v3mask f s.g) (v3mask_setV f) fun e => f.d + BitVec.ofNat 8 e]
  exact congrArg settle (active_of_clean hm hc _)

end Sys2Proof.Machine

section
open Sys2Proof Sys2Proof.Machine

/-- Settles O27: cvt, vpack and vdith are the form of R133 with the phase advanced as they retire; vunpk writes its elements' registers
one after another, under the same mask. -/
theorem conversions : Obligations.Conversions := by
  refine ⟨?cvt, ?vpack, ?vunpk, ?vdith⟩
  case cvt => intro f s hm hc; exact FpEnds.of_conversion (i := .cvt f) hm hc rfl
  case vpack => intro f s hm hc; exact FpEnds.of_conversion (i := .vpack f) hm hc rfl
  case vunpk => intro f s hm hc; exact FpEnds.of_exec (i := .vunpk f) (execVunpk_of_clean hm hc)
  case vdith => intro f s hm hc; exact FpEnds.of_conversion (i := .vdith f) hm hc rfl

end

namespace Sys2Proof.Machine

/-! ## Reductions and scans (R158, R159) -/

theorem redTrap_zero (g : Group) (m : W32) (val : Nat → Nat) : redTrap g m val 0 = none := if_pos BitVec.zero_and

/-- What lane k of vscan comes to (R159). -/
def scanOut (f : V3) (g : Group) (k : Nat) : LaneOut :=
  let xs := (scanSet (v3mask f g) (f.sub.getLsbD 3) k).map (redVal f g)
  if f.ty = 8 then (reduceFp (f.sub.toNat % 8) f.rnd.toNat xs).out
  else if f.sub.toNat % 8 = 0 then intElem f.ty (f.sat == 1) (reduceInt f.ty 0 xs)
  else { val := (reduceInt f.ty (f.sub.toNat % 8) xs % 2 ^ 32).toNat }

theorem execVscan_of_clean {f : V3} {s : State} (hm : v3mask f s.g ≠ 0)
    (hc : s.Clean (s.g.vitems false (scanReads (v3mask f s.g) (f.sub.getLsbD 3)) f.a)) :
    let m := v3mask f s.g
    let exc := orLanes m fun k => (scanOut f s.g k).exc
    execVscan f s = settle (orTrap (redTrap s.g m (redVal f s.g) exc) s
      (.next (((s.setV false f.d m fun k => (scanOut f s.g k).val).orF exc).orSat (anyLane m fun k => (scanOut f s.g k).sat)))) :=
  congrArg settle (active_of_clean hm hc _)

/-- Without .sat an integer type of R159 takes the sum modulo 2^32, as the other forms. -/
theorem scanOut_of_tyW {f : V3} (h : tyW f.ty = true) (hs : f.sat = 0) (g : Group) (k : Nat) : scanOut f g k =
    { val := (reduceInt f.ty (f.sub.toNat % 8) ((scanSet (v3mask f g) (f.sub.getLsbD 3) k).map fun j => (g.vget f.a j).toNat) % 2 ^ 32).toNat } := by
  have int : f.ty ≠ 8 := by rcases tyW_iff.1 h with e | e <;> rw [e] <;> decide
  have off : (f.sat == 1) = false := by rw [hs]; rfl
  have val : redVal f g = fun j => (g.vget f.a j).toNat := funext fun j => if_neg int
  by_cases sum : f.sub.toNat % 8 = 0
  · simp only [scanOut, int, if_false, sum, if_true, off, intElem, tyBits_of_tyW h, val, Bool.false_eq_true]
  · simp only [scanOut, int, if_false, sum, val]

/-- A vscan of 32-bit integers without .sat retires with the running forms: what `Obligations.LaneReductions` asks of every TYPE but .f32
holds of the integer types that R159 accepts. -/
theorem vscan_runs_of_tyW {f : V3} {s : State} (h : tyW f.ty = true) (hm : v3mask f s.g ≠ 0) (hs : f.sat = 0)
    (hc : s.Clean (s.g.vitems false (scanReads (v3mask f s.g) (f.sub.getLsbD 3)) f.a)) :
    Runs (.vscan f) s (s.setV false f.d (v3mask f s.g) fun k =>
      (reduceInt f.ty (f.sub.toNat % 8) ((scanSet (v3mask f s.g) (f.sub.getLsbD 3) k).map fun j => (s.g.vget f.a j).toNat) % 2 ^ 32).toNat).retire := by
  have ends := execVscan_of_clean hm hc
  simp only [scanOut_of_tyW h hs, orLanes_zero, redTrap_zero, State.orF_zero, anyLane_false, State.orSat_false] at ends
  exact ends

/-! A vscan.add whose TYPE is .n8. The model narrows a running sum to the width of TYPE, and `Obligations.LaneReductions` asks for the sum
modulo 2^32 of every TYPE but .f32. R159 accepts 32-bit types only, so no word decodes to this instruction. -/

/-- vscan.add.n8 v1, v0 over every active lane. -/
def byteScan : V3 := { d := 1, ty := 4 }
/-- A group whose lane 0 alone is active, with 256 in v0[0]. -/
def byteScanState : State :=
  { g := { gid := 1, r := { mask := 1, v := (Vector.replicate 256 (Vector.replicate 32 0)).set 0 (Vector.replicate 32 256) } } }

/-- The model writes 256 modulo 2^8. -/
theorem byteScan_vget : ∃ t, exec (.vscan byteScan) byteScanState = .next t ∧ t.g.vget 1 0 = 0 := ⟨_, rfl, by decide +kernel⟩

end Sys2Proof.Machine

section
open Sys2Proof Sys2Proof.Machine

/-- Refutes O29: a vscan.add.n8 of the element 256 writes 0, the sum modulo 2^8, where the statement, which shuts out no TYPE but .f32, has
256; R159 accepts 32-bit types only, and for those the clause holds (`vscan_runs_of_tyW`). -/
theorem not_laneReductions : ¬ Obligations.LaneReductions := by
  rintro ⟨-, -, scans, -⟩
  obtain ⟨t, runs, written⟩ := byteScan_vget
  have claimed := scans byteScan byteScanState (by decide) (by decide) rfl rfl
  rw [Runs, runs] at claimed
  injection claimed with same
  rw [same] at written
  exact absurd written (by decide +kernel)

end

namespace Sys2Proof.Machine

/-! ## The signed-digit recoding (R38) -/

/-- The digits of a recoding that begins at bit k, each one place up. -/
def shiftDigits (l : List (Int × Nat)) : List (Int × Nat) := l.map fun p => (p.1, p.2 + 1)

theorem nafDigits_zero (fuel k : Nat) : nafDigits fuel k 0 = [] := by cases fuel <;> rfl

theorem nafDigits_even {fuel k : Nat} {n : Int} (h : n % 2 = 0) : nafDigits (fuel + 1) k n = nafDigits fuel (k + 1) (n / 2) := by
  rw [nafDigits]
  by_cases z : n = 0
  · rw [if_pos z, z]; exact (nafDigits_zero fuel (k + 1)).symm
  · rw [if_neg z, if_neg (by omega)]

theorem nafDigits_odd {fuel k : Nat} {n : Int} (h : n % 2 = 1) :
    nafDigits (fuel + 1) k n = (2 - n % 4, k) :: nafDigits fuel (k + 1) ((n - (2 - n % 4)) / 2) := by
  rw [nafDigits, if_neg (by omega), if_pos h]

/-- Where the recoding begins only shifts its digits. -/
theorem nafDigits_succ (fuel k : Nat) (n : Int) : nafDigits fuel (k + 1) n = shiftDigits (nafDigits fuel k n) := by
  induction fuel generalizing k n with
  | zero => rfl
  | succ fuel ih =>
    rcases Int.emod_two_eq n with h | h
    · rw [nafDigits_even h, nafDigits_even h, ih]
    · rw [nafDigits_odd h, nafDigits_odd h, ih]; rfl

theorem two_mul_abs_le {n b : Int} : 2 * |n| ≤ b ↔ -b ≤ 2 * n ∧ 2 * n ≤ b := by
  rcases abs_cases n with ⟨h, _⟩ | ⟨h, _⟩ <;> rw [h] <;> omega

/-- Induction along the recoding of a weight of at most 2^j / 2: its half, or half of what its lowest digit leaves, is at most
2^(j - 1) / 2. -/
theorem weight_induction {P : ∀ (j : Nat) (n : Int), 2 * |n| ≤ 2 ^ j → Prop} (zero : ∀ j hn, P j 0 hn)
    (even : ∀ j n hn, n % 2 = 0 → ∀ hm, P j (n / 2) hm → P (j + 1) n hn)
    (odd : ∀ j n hn, n % 2 = 1 → (n - (2 - n % 4)) / 2 % 2 = 0 → ∀ hm, P j ((n - (2 - n % 4)) / 2) hm → P (j + 1) n hn) :
    ∀ (j : Nat) (n : Int) (hn : 2 * |n| ≤ 2 ^ j), P j n hn := by
  intro j
  induction j with
  | zero =>
    intro n hn
    obtain rfl : n = 0 := abs_nonpos_iff.1 (by omega)
    exact zero 0 hn
  | succ j ih =>
    intro n hn
    have hn' := two_mul_abs_le.1 hn
    rw [pow_succ] at hn'
    have bound : (2 : Int) ^ j = 1 ∨ (2 : Int) ^ j % 2 = 0 := by
      cases j with
      | zero => exact .inl rfl
      | succ i => exact .inr (by rw [pow_succ]; omega)
    rcases Int.emod_two_eq n with h | h
    · exact even j n hn h (two_mul_abs_le.2 (by omega)) (ih _ _)
    · exact odd j n hn h (by omega) (two_mul_abs_le.2 (by omega)) (ih _ _)

theorem nafDigits_fuel {j : Nat} {n : Int} (hn : 2 * |n| ≤ 2 ^ j) :
    ∀ fuel k, j ≤ fuel → nafDigits (fuel + 1) k n = nafDigits fuel k n := by
  induction j, n, hn using weight_induction with
  | zero j hn => intro fuel k _; rw [nafDigits_zero, nafDigits_zero]
  | even j n hn h hm ih =>
    intro fuel k hf
    obtain ⟨fuel, rfl⟩ : ∃ i, fuel = i + 1 := ⟨fuel - 1, by omega⟩
    rw [nafDigits_even h, nafDigits_even h, ih fuel (k + 1) (by omega)]
  | odd j n hn h _ hm ih =>
    intro fuel k hf
    obtain ⟨fuel, rfl⟩ : ∃ i, fuel = i + 1 := ⟨fuel - 1, by omega⟩
    rw [nafDigits_odd h, nafDigits_odd h, ih fuel (k + 1) (by omega)]

/-- The digits times the activation sum to the product. -/
theorem foldl_nafDigits {j : Nat} {n : Int} (hn : 2 * |n| ≤ 2 ^ j) (a : Int) :
    ∀ fuel k x, j ≤ fuel → (nafDigits fuel k n).foldl (fun x p => x + a * p.1 * 2 ^ p.2) x = x + a * n * 2 ^ k := by
  induction j, n, hn using weight_induction with
  | zero j hn => intro fuel k x _; rw [nafDigits_zero]; simp
  | even j n hn h hm ih =>
    intro fuel k x hf
    obtain ⟨fuel, rfl⟩ : ∃ i, fuel = i + 1 := ⟨fuel - 1, by omega⟩
    obtain ⟨m, rfl⟩ : ∃ m, n = 2 * m := ⟨n / 2, by omega⟩
    rw [nafDigits_even h, ih fuel (k + 1) x (by omega), Int.mul_ediv_cancel_left m two_ne_zero]
    ring
  | odd j n hn h _ hm ih =>
    intro fuel k x hf
    obtain ⟨fuel, rfl⟩ : ∃ i, fuel = i + 1 := ⟨fuel - 1, by omega⟩
    obtain ⟨m, hm⟩ : ∃ m, n - (2 - n % 4) = 2 * m := ⟨(n - (2 - n % 4)) / 2, by omega⟩
    rw [nafDigits_odd h, List.foldl_cons, ih fuel (k + 1) _ (by omega), hm, Int.mul_ediv_cancel_left m two_ne_zero,
      show 2 - n % 4 = n - 2 * m by omega]
    ring

/-- The passes of a weight of any format give the exact product. -/
theorem passSum_eq (a : Int) {w : Int} (h : -128 ≤ w ∧ w ≤ 127) : passSum a w = a * w :=
  (foldl_nafDigits (j := 8) (two_mul_abs_le.2 (by omega)) a 10 0 0 (by decide)).trans (by ring)

theorem nafDigits_shift_lt {j : Nat} {n : Int} (hn : 2 * |n| ≤ 2 ^ j) : ∀ fuel k, ∀ p ∈ nafDigits fuel k n, p.2 < k + j := by
  induction j, n, hn using weight_induction with
  | zero j hn => intro fuel k p hp; rw [nafDigits_zero] at hp; cases hp
  | even j n hn h hm ih =>
    intro fuel k p hp
    cases fuel with
    | zero => cases hp
    | succ fuel => rw [nafDigits_even h] at hp; have := ih fuel (k + 1) p hp; omega
  | odd j n hn h _ hm ih =>
    intro fuel k p hp
    cases fuel with
    | zero => cases hp
    | succ fuel =>
      rw [nafDigits_odd h, List.mem_cons] at hp
      rcases hp with rfl | hp
      · dsimp only; omega
      · have := ih fuel (k + 1) p hp; omega

/-- At most every other of j bits is a digit. -/
theorem nafDigits_length_le {j : Nat} {n : Int} (hn : 2 * |n| ≤ 2 ^ j) :
    ∀ fuel k, 2 * (nafDigits fuel k n).length ≤ j + 1 ∧ (n % 2 = 0 → 2 * (nafDigits fuel k n).length ≤ j) := by
  induction j, n, hn using weight_induction with
  | zero j hn => intro fuel k; rw [nafDigits_zero]; simp
  | even j n hn h hm ih =>
    intro fuel k
    cases fuel with
    | zero => simp [nafDigits]
    | succ fuel => rw [nafDigits_even h]; have := (ih fuel (k + 1)).1; omega
  | odd j n hn h even hm ih =>
    intro fuel k
    cases fuel with
    | zero => simp [nafDigits]
    | succ fuel => rw [nafDigits_odd h, List.length_cons]; have := (ih fuel (k + 1)).2 even; omega

/-- Every digit is +1 or -1, at or above the bit where the recoding begins. -/
theorem nafDigits_digit (fuel k : Nat) (n : Int) : ∀ p ∈ nafDigits fuel k n, (p.1 = 1 ∨ p.1 = -1) ∧ k ≤ p.2 := by
  induction fuel generalizing k n with
  | zero => intro p hp; cases hp
  | succ fuel ih =>
    intro p hp
    rcases Int.emod_two_eq n with h | h
    · rw [nafDigits_even h] at hp
      have := ih (k + 1) _ p hp
      omega
    · rw [nafDigits_odd h, List.mem_cons] at hp
      rcases hp with rfl | hp
      · dsimp only; omega
      · have := ih (k + 1) _ p hp; omega

/-- The digit after a digit is 0 (R38). -/
theorem nafDigits_nonadjacent (fuel k : Nat) (n : Int) : (nafDigits fuel k n).IsChain fun p q => p.2 + 2 ≤ q.2 := by
  induction fuel generalizing k n with
  | zero => exact .nil
  | succ fuel ih =>
    rcases Int.emod_two_eq n with h | h
    · rw [nafDigits_even h]; exact ih _ _
    · rw [nafDigits_odd h]
      refine List.isChain_cons.2 ⟨fun q hq => ?_, ih _ _⟩
      have rest : (n - (2 - n % 4)) / 2 % 2 = 0 := by omega
      cases fuel with
      | zero => cases hq
      | succ fuel =>
        rw [nafDigits_even rest] at hq
        exact (nafDigits_digit _ _ _ q (List.mem_of_mem_head? hq)).2

end Sys2Proof.Machine

section
open Sys2Proof Sys2Proof.Machine

/-- Settles O40, by induction along the recoding: a weight of .i8 is at most 2^8 / 2 in size, one of .q4 at most 2^4 / 2, and one of
.t and .t5 at most 2^1 / 2. -/
theorem signedDigits : Obligations.SignedDigits := by
  intro a w hlo hhi next
  have half (n : Int) (h : -128 ≤ n ∧ n ≤ 128) : nafDigits 9 1 n = next (passes n) := by
    have hn : 2 * |n| ≤ 2 ^ 8 := two_mul_abs_le.2 (by omega)
    rw [nafDigits_succ, ← nafDigits_fuel hn 9 0 (by decide)]
    rfl
  have w8 : 2 * |w| ≤ 2 ^ 8 := two_mul_abs_le.2 (by omega)
  refine ⟨?zero, ?even, ?odd, ?sum, ?digit, ?length, ?q4, ?t, ?nonadjacent⟩
  case zero => rintro rfl; exact nafDigits_zero 10 0
  case even => intro _ h; exact (nafDigits_even h).trans (half _ (by omega))
  case odd => intro h; exact (nafDigits_odd h).trans (congrArg _ (half _ (by omega)))
  case sum => exact passSum_eq a ⟨hlo, hhi⟩
  case digit => exact fun p hp => ⟨(nafDigits_digit 10 0 w p hp).1, by simpa using nafDigits_shift_lt w8 10 0 p hp⟩
  case length => have := (nafDigits_length_le w8 10 0).1; unfold passes; omega
  case q4 =>
    intro h1 h2
    have w4 : 2 * |w| ≤ 2 ^ 4 := two_mul_abs_le.2 (by omega)
    have := (nafDigits_length_le w4 10 0).1
    exact ⟨by unfold passes; omega, fun p hp => by simpa using nafDigits_shift_lt w4 10 0 p hp⟩
  case t =>
    intro h1 h2
    have w1 : 2 * |w| ≤ 2 ^ 1 := two_mul_abs_le.2 (by omega)
    have := (nafDigits_length_le w1 10 0).1
    exact ⟨by unfold passes; omega, fun p hp => by simpa using nafDigits_shift_lt w1 10 0 p hp⟩
  case nonadjacent =>
    intro j p q hp hq
    obtain ⟨h1, rfl⟩ := List.getElem?_eq_some_iff.1 hq
    obtain ⟨h0, rfl⟩ := List.getElem?_eq_some_iff.1 hp
    exact List.isChain_iff_getElem.1 (nafDigits_nonadjacent 10 0 w) j h1

end

namespace Sys2Proof.Machine

/-! ## System registers (R416, R425) -/

/-- mfs of any register but sys.clock changes nothing but S[D]. -/
theorem mfs_runs {f : FY} {s : State} {n : Nat} {x : W64} (hn : f.imm.toNat = n) (h : n ≠ 17) (hx : sysRead s n = x) :
    Runs (.mfs f) s (s.setS f.d x).retire := by
  subst hn hx
  have other : f.imm ≠ 0x11 := fun e => h (congrArg BitVec.toNat e)
  show execMfs f s = _
  simp only [execMfs, other, if_false]
  rfl

/-- A reading of sys.clock lets time pass first (R425). -/
theorem mfs_clock_runs {f : FY} (s : State) (hn : f.imm = 0x11) :
    Runs (.mfs f) s (s.tick.setS f.d (BitVec.ofNat 64 s.tick.clock)).retire := by
  show execMfs f s = _
  simp only [execMfs, hn, if_true]
  rfl

/-- mts of a register that cannot be written here raises PRIV with its code. -/
theorem mts_priv {f : FY} {s : State} {n code : Nat} (hn : f.imm.toNat = n) (h : mtsPriv s.g n = some code) :
    Runs (.mts f) s (takeTrap (trapCode cPRIV code) s) := by
  subst hn
  show settle (orTrap ((mtsPriv s.g f.imm.toNat).map (trapCode cPRIV)) s _) = _
  rw [h]
  rfl

theorem mts_runs {f : FY} {s t : State} {n : Nat} (hc : s.Clean [s.g.sitem f.a]) (hn : f.imm.toNat = n) (h : mtsPriv s.g n = none)
    (ht : sysWrite s n (s.g.sget f.a) = t) : Runs (.mts f) s t.retire := by
  subst hn ht
  show settle (orTrap ((mtsPriv s.g f.imm.toNat).map (trapCode cPRIV)) s _) = _
  rw [h, readPoison_of_clean hc]
  rfl

/-- A write of sys.region clears SPLT or changes nothing (R217). -/
theorem sysWrite_region (s : State) (x : W64) :
    sysWrite s 16 x = { s with g := { s.g with splt := s.g.splt && !x.getLsbD 18 } } := by
  show (if x.getLsbD 18 then { s with g := { s.g with splt := false } } else s) = _
  cases x.getLsbD 18
  case false => rw [Bool.not_false, Bool.and_true]; rfl
  case true => rw [Bool.not_true, Bool.and_false]; rfl

end Sys2Proof.Machine

section
open Sys2Proof Sys2Proof.Machine

/-- Settles O50, register by register: each reads and is written by the model's tables, and the tables say which writes raise PRIV. -/
theorem systemRegisters : Obligations.SystemRegisters := by
  refine ⟨?reads, ?clock, ?writes⟩
  case reads =>
    intro f s c region x hx hn
    simp only [List.mem_cons, List.not_mem_nil, or_false] at hx
    rcases hx with rfl | rfl | rfl | rfl | rfl | rfl | rfl | rfl | rfl | rfl | rfl | rfl | rfl | rfl | rfl | rfl | rfl <;>
      exact mfs_runs hn (Nat.ne_of_beq_eq_false rfl) rfl
  case clock =>
    intro f s hn
    exact ⟨s.tick, mfs_clock_runs s hn, Nat.le_add_right .., rfl⟩
  case writes =>
    intro f s n x put
    refine ⟨?fixed, ?handlers, fun hc => ⟨?user, ?handler⟩⟩
    case fixed =>
      intro hn
      simp only [List.mem_cons, List.not_mem_nil, or_false] at hn
      rcases hn with hn | hn | hn | hn | hn | hn | hn <;> exact mts_priv hn rfl
    case handlers =>
      intro hn hm
      simp only [List.mem_cons, List.not_mem_nil, or_false] at hn
      rcases hn with hn | hn | hn | hn | hn <;> exact mts_priv hn (by simp [mtsPriv, hm])
    case user =>
      intro y hy hn
      simp only [List.mem_cons, List.not_mem_nil, or_false] at hy
      rcases hy with rfl | rfl | rfl | rfl | rfl | rfl
      case inr.inr.inr.inr.inr => exact mts_runs hc hn rfl (sysWrite_region s x)
      all_goals exact mts_runs hc hn rfl rfl
    case handler =>
      intro hm y hy hn
      simp only [List.mem_cons, List.not_mem_nil, or_false] at hy
      rcases hy with rfl | rfl | rfl | rfl | rfl <;>
        exact mts_runs hc hn (by simp [mtsPriv, hm]) rfl

end

namespace Sys2Proof.Machine

/-! ## Accumulators (R40, R316, R317) -/

theorem matrixPoison_of_clean {s : State} {items : List Item} (hc : s.Clean items) (m : W32) : matrixPoison s.g m items = none := by
  rw [matrixPoison, readPoison_of_clean hc, Option.map_none]

/-- With an active row and clean sources a matrix instruction goes on. -/
theorem activeMatrix_of_clean {s : State} {m : W32} {items : List Item} (hm : m ≠ 0) (hc : s.Clean items) (k : Res) :
    (if m = 0 then .next s else orTrap (matrixPoison s.g m items) s k) = k := by
  rw [if_neg hm, matrixPoison_of_clean hc, orTrap_none]

/-- Items that are listed only where some item is poisoned. -/
theorem State.clean_of_poisoned {s : State} {l : List Item} (h : s.Clean l) : s.Clean (if s.g.r.poison = [] then [] else l) := by
  split
  · exact s.clean_nil
  · exact h

/-- Writing an accumulator reads its values in the rows of m and the columns of q alone. -/
theorem Group.aput_congr (g : Group) (n : BitVec 2) {m : W32} {q : Nat → Bool} {x y : Nat → Nat → W128}
    (h : ∀ i < 32, m.getLsbD i = true → ∀ c < 16, q c = true → x i c = y i c) : g.aput n m q x = g.aput n m q y := by
  have rows (old : ATile) : (Vector.ofFn fun i : Fin 32 =>
      if m.getLsbD i.val then Vector.ofFn fun c : Fin 16 => if q c.val then x i.val c.val else (old[i])[c] else old[i]) =
      Vector.ofFn fun i : Fin 32 =>
      if m.getLsbD i.val then Vector.ofFn fun c : Fin 16 => if q c.val then y i.val c.val else (old[i])[c] else old[i] := by
    refine congrArg Vector.ofFn (funext fun i => ite_congr rfl (fun hi => ?_) fun _ => rfl)
    exact congrArg Vector.ofFn (funext fun c => ite_congr rfl (fun hc => h i i.isLt hi c c.isLt hc) fun _ => rfl)
  unfold Group.aput
  dsimp only
  rw [rows]

theorem accWrite_congr (s : State) (n : BitVec 2) {m : W32} {q : Nat → Bool} {x y : Nat → Nat → W128}
    (h : ∀ i < 32, m.getLsbD i = true → ∀ c < 16, q c = true → x i c = y i c) : accWrite s n m q x = accWrite s n m q y := by
  unfold accWrite
  dsimp only
  rw [Group.aput_congr _ n h]

/-! ## Weights (R34 to R37) -/

/-- The weights of a column, none longer than K and each of 8 bits, with flags of reserved codes alone. -/
def IsColumn (k : Nat) (p : List Int × BitVec 6) : Prop :=
  p.1.length ≤ k ∧ (∀ w ∈ p.1, -128 ≤ w ∧ w ≤ 127) ∧ p.2 &&& 0x38 = 0

theorem weightOf_range (wf : BitVec 4) {b : Nat} (hb : b < 256) (e : Nat) :
    (-128 ≤ (weightOf wf b e).1 ∧ (weightOf wf b e).1 ≤ 127) ∧ (weightOf wf b e).2 &&& 0x38 = 0 := by
  unfold weightOf
  split
  next =>
    have signed : isSigned 0 = true := rfl
    have bits : tyBits 0 = 8 := rfl
    refine ⟨?_, BitVec.zero_and⟩
    simp only [elemInt, signed, bits, Bool.true_and, decide_eq_true_eq]
    split_ifs <;> omega
  next =>
    have : natBits b (4 * e) 4 < 16 := Nat.mod_lt _ (by decide)
    dsimp only
    split_ifs
    · exact ⟨by decide, by decide⟩
    · refine ⟨?_, BitVec.zero_and⟩; dsimp only; omega
    · refine ⟨?_, BitVec.zero_and⟩; dsimp only; omega
  next => split <;> exact ⟨by decide, by decide⟩
  next =>
    split_ifs
    · exact ⟨by decide, by decide⟩
    · refine ⟨?_, BitVec.zero_and⟩; dsimp only; omega

/-- Flags gathered from a list keep to the reserved codes when each of them does. -/
theorem foldl_or_and_eq_zero {α : Type} (fl : α → BitVec 6) (l : List α) (h : ∀ x ∈ l, fl x &&& 0x38 = 0) {a : BitVec 6}
    (ha : a &&& 0x38 = 0) : l.foldl (fun a x => a ||| fl x) a &&& 0x38 = 0 := by
  induction l generalizing a with
  | nil => exact ha
  | cons x r ih =>
    refine ih (fun y hy => h y (List.mem_cons_of_mem x hy)) ?_
    rw [BitVec.and_or_distrib_right, ha, h x List.mem_cons_self]
    rfl

theorem columnOf_isColumn (wf : BitVec 4) (k e0 limit : Nat) {bytes : List Nat} (hb : ∀ b ∈ bytes, b < 256) :
    IsColumn k (columnOf wf k e0 limit bytes) := by
  have byte (i : Nat) : bytes.getD i 0 < 256 := by
    by_cases h : i < bytes.length
    · rw [List.getD_eq_getElem _ _ h]; exact hb _ (List.getElem_mem h)
    · rw [List.getD_eq_default _ _ (by omega)]; decide
  refine ⟨by simp [columnOf], fun w hw => ?_, foldl_or_and_eq_zero id _ (fun x hx => ?_) rfl⟩
  · obtain ⟨j, -, rfl⟩ := List.mem_map.1 hw
    exact (weightOf_range wf (byte _) _).1
  · obtain ⟨b, -, hx⟩ := List.mem_flatMap.1 hx
    obtain ⟨e, -, rfl⟩ := List.mem_map.1 hx
    dsimp only [id]
    split
    · exact (weightOf_range wf (byte _) _).2
    · rfl

/-- A column past the last row of the weights. -/
theorem replicate_isColumn (k : Nat) : IsColumn k (List.replicate k 0, 0) :=
  ⟨(List.length_replicate ..).le, fun w hw => by rw [List.eq_of_mem_replicate hw]; decide, BitVec.zero_and⟩

theorem IsColumn.getD {k : Nat} {cols : List (List Int × BitVec 6)} (h : ∀ p ∈ cols, IsColumn k p) (c : Nat) : IsColumn k (cols.getD c ([], 0)) := by
  by_cases hc : c < cols.length
  · rw [List.getD_eq_getElem _ _ hc]; exact h _ (List.getElem_mem hc)
  · rw [List.getD_eq_default _ _ (by omega)]; exact ⟨Nat.zero_le k, fun w hw => absurd hw List.not_mem_nil, BitVec.zero_and⟩

/-- The passes of a column's weights for the activations of a row give the exact dot product (R38, R322). -/
theorem foldl_zip_passSum (act : Nat → Int) {w : List Int} (hw : ∀ x ∈ w, -128 ≤ x ∧ x ≤ 127) {k : Nat} (hk : w.length ≤ k) (x : Int) :
    (((List.range k).map act).zip w).foldl (fun x p => x + passSum p.1 p.2) x = x + ((List.range k).map fun j => act j * w.getD j 0).sum := by
  induction w generalizing act k x with
  | nil => simp
  | cons v r ih =>
    obtain ⟨k, rfl⟩ : ∃ i, k = i + 1 := ⟨k - 1, by rw [List.length_cons] at hk; omega⟩
    rw [List.range_succ_eq_map, List.map_cons, List.zip_cons_cons, List.foldl_cons, List.map_map,
      ih (act ∘ Nat.succ) (fun y hy => hw y (List.mem_cons_of_mem v hy)) (Nat.le_of_succ_le_succ hk), passSum_eq _ (hw v List.mem_cons_self),
      List.map_cons, List.sum_cons, List.map_map, add_assoc]
    rfl

/-! ## mac and macg (R322) -/

/-- The exponent of a row's scale, and whether its byte is out of range (R39). -/
def rowScale (f : FX) (g : Group) (i : Nat) : Int × Bool := scaleExp (byteOf (g.vget f.vs i) f.bsel.toNat)

/-- The exact sum of R322 for row i and column c. -/
def macSum (f : FX) (g : Group) (cols : List (List Int × BitVec 6)) (scales : List (Int × Bool)) (i c : Nat) : Int :=
  (g.aget f.ad i c).toInt +
    ((List.range (f.km1.toNat + 1)).map fun j => activation g f.va i j * (cols.getD c ([], 0)).1.getD j 0).sum *
      2 ^ ((rowScale f g i).1 + (scales.getD c (0, false)).1 + 64).toNat

/-- Whether a sum of an active row lies beyond the accumulator's range. -/
def macBeyond (f : FX) (g : Group) (m : W32) (cols : List (List Int × BitVec 6)) (scales : List (Int × Bool)) : Bool :=
  ((List.range 32).map fun i => if m.getLsbD i then cols16.map (macSum f g cols scales i) else []).any fun r =>
    r.any fun x => x < accLo || accHi < x

theorem macBeyond_iff {f : FX} {g : Group} {m : W32} {cols : List (List Int × BitVec 6)} {scales : List (Int × Bool)} :
    macBeyond f g m cols scales = true ↔ ∃ i < 32, m.getLsbD i = true ∧ ∃ c < 16,
      macSum f g cols scales i c < -2 ^ 127 ∨ 2 ^ 127 - 1 < macSum f g cols scales i c := by
  simp only [macBeyond, List.any_map, List.any_eq_true, List.mem_range, Function.comp_apply]
  refine exists_congr fun i => and_congr_right fun _ => ?_
  split
  next h => 
    simp only [h, cols16, List.mem_map, exists_exists_and_eq_and, List.mem_range, Bool.or_eq_true, decide_eq_true_eq, true_and]
    rfl
  next h => simp [h]

/-- The accumulation of R322, with the sums in closed form. -/
theorem accumulate_eq {f : FX} {s : State} {cols : List (List Int × BitVec 6)} (hcols : ∀ p ∈ cols, IsColumn (f.km1.toNat + 1) p)
    (scales : List (Int × Bool)) (m : W32) (flags : BitVec 6) :
    accumulate s f m (cols.map (·.1)) (scales.map (·.1)) flags =
      (accWrite s f.ad m (fun _ => true) fun i c => BitVec.ofInt 128 (max (-2 ^ 127) (min (2 ^ 127 - 1) (macSum f s.g cols scales i c)))).orQ
        (flags ||| (if macBeyond f s.g m cols scales then qACCOV else 0) ||| (if anyLane m fun i => (rowScale f s.g i).2 then qSCRNG else 0)) := by
  have sum (i c : Nat) : (s.g.aget f.ad i c).toInt +
      (((List.range (f.km1.toNat + 1)).map (activation s.g f.va i)).zip ((cols.map (·.1)).getD c [])).foldl (fun x p => x + passSum p.1 p.2) 0 *
        2 ^ ((rowScale f s.g i).1 + (scales.map (·.1)).getD c 0 + 64).toNat = macSum f s.g cols scales i c := by
    obtain ⟨len, range, -⟩ := IsColumn.getD hcols c
    have w : (cols.map (·.1)).getD c [] = (cols.getD c ([], 0)).1 := List.getD_map cols ([], 0) Prod.fst
    have e : (scales.map (·.1)).getD c 0 = (scales.getD c (0, false)).1 := List.getD_map scales (0, false) Prod.fst
    rw [w, e, foldl_zip_passSum _ range len, zero_add, macSum]
  have scale (i : Nat) : scaleExp (byteOf (s.g.vget f.vs i) f.bsel.toNat) = rowScale f s.g i := rfl
  unfold accumulate
  simp only [scale, sum]
  refine congrArg₂ State.orQ (accWrite_congr s f.ad fun i hi active c hc _ => ?_) rfl
  have row : ((List.range 32).map fun i => if m.getLsbD i then cols16.map (macSum f s.g cols scales i) else []).getD i [] =
      cols16.map (macSum f s.g cols scales i) := by
    rw [List.getD_eq_getElem _ _ (by simpa using hi), List.getElem_map, List.getElem_range, if_pos active]
  have col : (cols16.map (macSum f s.g cols scales i)).getD c 0 = macSum f s.g cols scales i c := by
    rw [List.getD_eq_getElem _ _ (by simpa [cols16] using hc), List.getElem_map]
    simp only [cols16, List.getElem_range]
  rw [row, col, clamp_eq (by decide)]
  rfl

/-- Which of the flags that an accumulation sets come from where. -/
theorem macFlags {fl : BitVec 6} (h : fl &&& 0x38 = 0) (scale beyond row : Bool) :
    let q := (fl ||| if scale then qSCRNG else 0) ||| (if beyond then qACCOV else 0) ||| (if row then qSCRNG else 0)
    (q &&& qACCOV ≠ 0 ↔ beyond = true) ∧ (q &&& qSCRNG ≠ 0 ↔ scale = true ∨ row = true) ∧ q &&& 7 = fl &&& 7 ∧ q &&& qSAT = 0 := by
  revert fl
  revert scale beyond row
  decide

/-- An instruction that comes to the accumulation of R322. -/
theorem MatrixResult.of_accumulate {i : Instr} {f : FX} {s s1 : State} {cols : List (List Int × BitVec 6)} {scales : List (Int × Bool)}
    (hg : s1.g = s.g) (hcols : ∀ p ∈ cols, IsColumn (f.km1.toNat + 1) p)
    (runs : exec i s = settle (.next (accumulate s1 f (fxMask f s.g) (cols.map (·.1)) (scales.map (·.1))
      (cols.foldl (fun x c => x ||| c.2) 0 ||| if scales.any (·.2) then qSCRNG else 0)))) : MatrixResult i f s s1 cols scales := by
  have codes : cols.foldl (fun x c => x ||| c.2) 0 &&& 0x38 = 0 := foldl_or_and_eq_zero _ cols (fun p hp => (hcols p hp).2.2) rfl
  obtain ⟨accov, scrng, reserved, sat⟩ := macFlags codes (scales.any (·.2)) (macBeyond f s.g (fxMask f s.g) cols scales)
    (anyLane (fxMask f s.g) fun i => (rowScale f s.g i).2)
  rw [accumulate_eq hcols, hg] at runs
  refine ⟨_, runs, accov.trans macBeyond_iff, scrng.trans ?_, reserved, sat⟩
  rw [anyLane_eq]
  simp [rowScale]

end Sys2Proof.Machine

namespace Sys2Proof.Machine

theorem byteOf_lt (x : W32) (e : Nat) : byteOf x e < 256 := Nat.mod_lt _ (by decide)

theorem withTile_of_ok {s : State} {h : W64} {ok : Tile → Bool} {t : Tile} (ht : s.checkHandle s.g.core s.g.ctx h ok = .ok t) (m : W32)
    (k : Tile → Res) : withTile s h m ok k = k t := by
  rw [withTile, ht]

/-- mac, from the fragment that its registers hold (R310 to R312). -/
theorem mac_result (f : FX) (s : State) : 
    let m := fxMask f s.g
    let k := f.km1.toNat + 1
    let n := fetchedBytes f.wf k 0
    let at_ (c b : Nat) : Byte × Nat × Nat := ((f.vb + BitVec.ofNat 8 (fragByte f.wf c b).1), (fragByte f.wf c b).2)
    m ≠ 0 → s.Clean (macItems f s.g m ++ cols16.flatMap (fun c => (List.range n).map fun b => s.g.vitem (at_ c b).1 (at_ c b).2.1) ++
      cols16.map fun c => s.g.vitem (f.vs + 1) c) →
    MatrixResult (.mac f) f s s
      (cols16.map fun c => columnOf f.wf k 0 (n * perByte f.wf) ((List.range n).map fun b => byteOf (s.g.vget (at_ c b).1 (at_ c b).2.1) (at_ c b).2.2))
      (cols16.map fun c => scaleExp (byteOf (s.g.vget (f.vs + 1) c) f.bsel.toNat)) := by
  intro m k n at_ hm hc
  rw [List.append_assoc, State.clean_append] at hc
  have reads := State.clean_append.2 ⟨hc.1, State.clean_of_poisoned hc.2⟩
  refine .of_accumulate rfl (fun p hp => ?_) ?_
  · obtain ⟨c, -, rfl⟩ := List.mem_map.1 hp
    refine columnOf_isColumn _ _ _ _ fun b hb => ?_
    obtain ⟨b, -, rfl⟩ := List.mem_map.1 hb
    exact byteOf_lt _ _
  · rw [List.map_map, List.foldl_map]
    exact congrArg settle (activeMatrix_of_clean hm reads _)

/-- The accesses of macg: the sectors of the weights, and the scales, of the columns that the weight tile has (R313, R314). -/
def macgAccs (f : FX) (s : State) (w sc : Tile) : List (Nat × Int) :=
  let p := s.g.sget (f.sh + 2)
  let n := fetchedBytes f.wf (f.km1.toNat + 1) (posK0 p % perByte f.wf)
  let rowAt (c : Nat) : Nat := w.base + (posN0 p + c) * w.stride + posK0 p / perByte f.wf
  let scaleAt (c : Nat) : Nat := sc.base + (posN0 p + c) * sc.stride + posK0 p / 32
  let live := cols16.filter fun c => posN0 p + c < w.rows
  ((live.flatMap (fun c => sectorStarts (rowAt c) n) ++ live.map scaleAt).foldl (fun l a => insertAddr a l) []).map fun a => (0, (a : Int))

/-- The weights and flags of column c of a weight tile, as the access left them. -/
def macgCol (f : FX) (s s1 : State) (w : Tile) (ts : List Hit3) (c : Nat) : List Int × BitVec 6 :=
  let k := f.km1.toNat + 1
  let p := s.g.sget (f.sh + 2)
  let e0 := posK0 p % perByte f.wf
  let rowAt (c : Nat) : Nat := w.base + (posN0 p + c) * w.stride + posK0 p / perByte f.wf
  if posN0 p + c < w.rows
  then columnOf f.wf k e0 (w.cols - posK0 p + e0) ((List.range (fetchedBytes f.wf k e0)).map fun b => (hitByte s1 ts (rowAt c + b)).toNat)
  else (List.replicate k 0, 0)

/-- The scale of column c of a scale tile, which only a row of the weights has. -/
def macgScale (f : FX) (s s1 : State) (w sc : Tile) (ts : List Hit3) (c : Nat) : Int × Bool :=
  let p := s.g.sget (f.sh + 2)
  if posN0 p + c < w.rows then scaleExp (hitByte s1 ts (sc.base + (posN0 p + c) * sc.stride + posK0 p / 32)).toNat else (0, false)

theorem execMacg_of_ok {f : FX} {s s1 : State} {w sc : Tile} {ts : List Hit3} (hm : fxMask f s.g ≠ 0)
    (hc : s.Clean ([s.g.sitem f.sh, s.g.sitem (f.sh + 1), s.g.sitem (f.sh + 2)] ++ macItems f s.g (fxMask f s.g)))
    (hw : s.checkHandle s.g.core s.g.ctx (s.g.sget f.sh) (fun _ => true) = .ok w)
    (hsc : s.checkHandle s.g.core s.g.ctx (s.g.sget (f.sh + 1)) (fun _ => true) = .ok sc)
    (bounds : macgBounds f w sc (s.g.sget (f.sh + 2)) = none)
    (access : checkAccess s s.g.core s.g.ctx { AccSpec.eread .x 1 with exact := true } true (macgAccs f s w sc) = .ok s1 ts) :
    execMacg f s = settle (.next (accumulate s1 f (fxMask f s.g) (cols16.map fun c => (macgCol f s s1 w ts c).1)
      ((cols16.map (macgScale f s s1 w sc ts)).map (·.1))
      (cols16.foldl (fun x c => x ||| (macgCol f s s1 w ts c).2) 0 ||| if (cols16.map (macgScale f s s1 w sc ts)).any (·.2) then qSCRNG else 0))) := by
  refine congrArg settle ((activeMatrix_of_clean hm hc _).trans ?_)
  rw [withTile_of_ok hw, withTile_of_ok hsc, bounds, Option.map_none, orTrap_none]
  show (match checkAccess s s.g.core s.g.ctx { AccSpec.eread .x 1 with exact := true } true (macgAccs f s w sc) with
    | .bad t s => Res.trap (t.lanes_ _) s | .ok s ts => _) = _
  rw [access]
  rfl

theorem macgCol_isColumn (f : FX) (s s1 : State) (w : Tile) (ts : List Hit3) (c : Nat) : IsColumn (f.km1.toNat + 1) (macgCol f s s1 w ts c) := by
  unfold macgCol
  dsimp only
  split
  · refine columnOf_isColumn _ _ _ _ fun b hb => ?_
    obtain ⟨b, -, rfl⟩ := List.mem_map.1 hb
    exact (hitByte _ _ _).isLt
  · exact replicate_isColumn _

/-- macg, from the tiles that its handles name, once every check has passed (R313, R314). -/
theorem macg_result {f : FX} {s s1 : State} {w sc : Tile} {ts : List Hit3} (hm : fxMask f s.g ≠ 0)
    (hc : s.Clean ([s.g.sitem f.sh, s.g.sitem (f.sh + 1), s.g.sitem (f.sh + 2)] ++ macItems f s.g (fxMask f s.g)))
    (hw : s.checkHandle s.g.core s.g.ctx (s.g.sget f.sh) (fun _ => true) = .ok w)
    (hsc : s.checkHandle s.g.core s.g.ctx (s.g.sget (f.sh + 1)) (fun _ => true) = .ok sc)
    (bounds : macgBounds f w sc (s.g.sget (f.sh + 2)) = none)
    (access : checkAccess s s.g.core s.g.ctx { AccSpec.eread .x 1 with exact := true } true (macgAccs f s w sc) = .ok s1 ts) :
    MatrixResult (.macg f) f s s1 (cols16.map (macgCol f s s1 w ts)) (cols16.map (macgScale f s s1 w sc ts)) := by
  refine .of_accumulate (checkAccess_ok_walked access).g (fun p hp => ?_) ?_
  · obtain ⟨c, -, rfl⟩ := List.mem_map.1 hp
    exact macgCol_isColumn ..
  · rw [List.map_map (f := macgCol f s s1 w ts), List.foldl_map]
    exact execMacg_of_ok hm hc hw hsc bounds access

/-! ## Setting rows (R323, R324) -/

/-- With no active row a matrix instruction retires. -/
theorem matrix_idle {f : FX} {s : State} (hm : fxMask f s.g = 0) :
    ∀ i ∈ [Instr.mac f, .macg f, .azero f, .amov f, .aput f], Runs i s s.retire := by
  have idle {k : Res} : settle (if fxMask f s.g = 0 then .next s else k) = .next s.retire := by rw [if_pos hm]; rfl
  intro i hi
  simp only [List.mem_cons, List.not_mem_nil, or_false] at hi
  rcases hi with rfl | rfl | rfl | rfl | rfl
  case inr.inr.inl => exact congrArg (fun s : State => settle (.next s)) (if_pos hm)
  all_goals exact idle

theorem azero_runs {f : FX} {s : State} (hm : fxMask f s.g ≠ 0) :
    Runs (.azero f) s (accWrite s f.ad (fxMask f s.g) (fun _ => true) fun _ _ => 0).retire :=
  congrArg (fun s : State => settle (.next s)) (if_neg hm)

theorem amov_runs {f : FX} {s : State} (hm : fxMask f s.g ≠ 0) (hc : s.Clean (s.g.accItems f.as_ (fxMask f s.g) cols16)) :
    Runs (.amov f) s (accWrite s f.ad (fxMask f s.g) (fun _ => true) fun i c => s.g.aget f.as_ i c).retire :=
  congrArg settle (activeMatrix_of_clean hm hc _)

/-- aput of a column that the accumulator has (R324). -/
theorem aput_ends {f : FX} {s : State} (hm : fxMask f s.g ≠ 0) (hc : s.Clean (s.g.sitem f.sh :: s.g.vitems false (fxMask f s.g) f.va))
    (col : (s.g.sget f.sh).toNat < 16) :
    let m := fxMask f s.g
    let r (i : Nat) : Int × BitVec 5 × Bool := toAcc f.wf f.rnd.toNat (s.g.vget f.va i).toNat
    let u := (accWrite s f.ad m (fun c => c = (s.g.sget f.sh).toNat) fun i _ => BitVec.ofInt 128 (r i).1).orF (orLanes m fun i => (r i).2.1)
    FpEnds (.aput f) s m (fun i => (r i).2.1) (State.retire (if anyLane m (fun i => (r i).2.2) then u.orQ qACCOV else u)) := by
  obtain ⟨ch, cv⟩ := State.clean_cons.1 hc
  refine FpEnds.of_exec (congrArg settle ((activeMatrix_of_clean hm ch _).trans ?_))
  rw [trapIf_of_not (Nat.not_le.2 col), matrixPoison_of_clean cv]
  rfl

theorem aput_beyond {f : FX} {s : State} (hm : fxMask f s.g ≠ 0) (hc : s.Clean [s.g.sitem f.sh]) (col : 16 ≤ (s.g.sget f.sh).toNat) :
    Runs (.aput f) s (takeTrap (tileBnd 2 (fxMask f s.g)) s) := by
  refine show execAput f s = settle (.trap _ s) from congrArg settle ((activeMatrix_of_clean hm hc _).trans ?_)
  rw [trapIf_of col, orTrap_some]

/-- An integer lane is exact and within range (R324). -/
theorem toAcc_of_int {ty : BitVec 4} (h : isFl ty = false) (mode bits : Nat) : toAcc ty mode bits = (elemInt ty bits * 2 ^ 64, 0, false) := by
  rw [toAcc, h, if_neg Bool.false_ne_true]

/-! ## Read-out (R325, R326) -/

/-- Result j of row i: the element in column S[SH] + j times its outer scale, rounded once. -/
def areadAt (f : FX) (g : Group) (i j : Nat) : Rounded :=
  let c0 := (g.sget f.sh).toNat
  areadElem f.wf f.rnd.toNat (g.threshold (i + (c0 + j))) (f.sat == 1)
    (outerProduct (g.aget f.ad i (c0 + j)).toInt (if f.osc = 1 then f32.read (g.vget f.vs (c0 + j)).toNat else .fin false 1 1))
/-- The exceptions of a row. -/
def areadExc (f : FX) (g : Group) (i : Nat) : BitVec 5 := (List.range 8).foldl (fun x j => x ||| (areadAt f g i j).fl) 0
/-- The eight columns from S[SH] on. -/
def areadCols (f : FX) (g : Group) : List Nat := (List.range 8).map (· + (g.sget f.sh).toNat)

/-- Columns that the accumulator has are lanes too. -/
theorem areadCols_filter {f : FX} {g : Group} (h : (g.sget f.sh).toNat ≤ 8) : (areadCols f g).filter (· < 32) = areadCols f g := by
  refine List.filter_eq_self.2 fun c hc => ?_
  obtain ⟨j, hj, rfl⟩ := List.mem_map.1 hc
  have := List.mem_range.1 hj
  exact decide_eq_true (by omega)

theorem aread_ends {f : FX} {s : State} (hm : fxMask f s.g ≠ 0) (hh : s.Clean [s.g.sitem f.sh]) (col : (s.g.sget f.sh).toNat ≤ 8)
    (hc : s.Clean (s.g.accItems f.ad (fxMask f s.g) (areadCols f s.g) ++ if f.osc = 1 then s.g.vitems false (maskOfList (areadCols f s.g)) f.vs else [])) :
    let m := fxMask f s.g
    let n := 32 / tyBits f.wf
    let u := (List.range (8 / n)).foldl (fun t q => t.setV false (f.vb + BitVec.ofNat 8 q) m
      fun i => joinElems (tyBits f.wf) ((List.range n).map fun e => (areadAt f s.g i (q * n + e)).bits)) s
    FpEnds (.aread f) s m (areadExc f s.g) (((u.orF (orLanes m (areadExc f s.g))).orSat
      (anyLane m fun i => (List.range 8).any fun j => (areadAt f s.g i j).sat)).advancePhase (f.adv == 1)).retire := by
  have reads : s.Clean (s.g.accItems f.ad (fxMask f s.g) (areadCols f s.g) ++
      if f.osc = 1 then s.g.vitems false (maskOfList ((areadCols f s.g).filter (· < 32))) f.vs else []) := by
    rw [areadCols_filter col]; exact hc
  refine FpEnds.of_advance (congrArg (fun r => settle (advanceAfter (f.adv == 1) r)) ((activeMatrix_of_clean hm hh _).trans ?_))
  rw [trapIf_of_not (Nat.not_lt.2 col)]
  exact congrArg (orTrap · s _) (matrixPoison_of_clean reads _)

theorem aread_beyond {f : FX} {s : State} (hm : fxMask f s.g ≠ 0) (hc : s.Clean [s.g.sitem f.sh]) (col : 8 < (s.g.sget f.sh).toNat) :
    Runs (.aread f) s (takeTrap (tileBnd 2 (fxMask f s.g)) s) := by
  refine show execAread f s = settle (advanceAfter (f.adv == 1) (.trap _ s)) from
    congrArg (fun r => settle (advanceAfter (f.adv == 1) r)) ((activeMatrix_of_clean hm hc _).trans ?_)
  rw [trapIf_of col, orTrap_some]

theorem aread_idle {f : FX} {s : State} (hm : fxMask f s.g = 0) : Runs (.aread f) s (s.advancePhase (f.adv == 1)).retire :=
  congrArg (fun r => settle (advanceAfter (f.adv == 1) r)) (if_pos hm)

end Sys2Proof.Machine

section
open Sys2Proof Sys2Proof.Machine

/-- Settles O41: mac and macg come to one accumulation, whose passes give the exact dot products; azero, amov and aput write rows of the
target over its shadow; aread converts eight columns. -/
theorem matrixInstructions : Obligations.MatrixInstructions := by
  refine ⟨mac_result, ?macg, ?set, ?aread⟩
  case macg =>
    intro f s s1 w sc ts m k p e0 n rowAt scaleAt live hm hc hw hsc bounds access
    exact macg_result hm hc hw hsc bounds access
  case set =>
    intro f s m put
    refine ⟨matrix_idle, aread_idle, azero_runs, amov_runs, ?aputInt, aput_ends, ?aputBeyond⟩
    case aputInt =>
      intro hm hc col int
      have ends := aput_ends hm hc col
      simp only [toAcc_of_int int, orLanes_zero, State.orF_zero, anyLane_false, Bool.false_eq_true, if_false] at ends
      exact runs_of_fpEnds ends
    case aputBeyond => exact aput_beyond
  case aread =>
    intro f s m c0 n cols r exc hm hh
    exact ⟨aread_beyond hm hh, aread_ends hm hh⟩

end

/-! # Encoding and decoding

A format reads its fields from a word and writes them under an opcode, and the two undo each other (`Format`). Stage 1 of R91, `select`,
gives an instruction that holds the fields of its word, so that encoding it gives the word back (`encode_of_select`); and the word of an
instruction whose selecting field passes its check selects that instruction (`select_encode`). -/
namespace Sys2Proof

/-! ## Formats (R71 to R80) -/

/-- Reading fields from a word and writing fields under an opcode undo each other: the opcode and the fields cover the word, each bit
once. -/
structure Format {F : Type} (read : W64 → F) (write : Byte → F → W64) : Prop where
  opcode (op : Byte) (f : F) : (write op f).extractLsb' 56 8 = op
  read_write (op : Byte) (f : F) : read (write op f) = f
  write_read (w : W64) : write (w.extractLsb' 56 8) (read w) = w

section
open BitVec (extractLsb'_append_eq_of_le extractLsb'_append_eq_of_add_le extractLsb'_append_extractLsb'_eq_extractLsb')

/-! A field read from the fields written is the part of the word at its place; fields read side by side are one stretch of the word.
The widths stay the sums that those lemmas speak of, so no addition is evaluated. -/
theorem V3.format : Format V3.ofWord V3.toWord := by
  constructor <;> intros <;> simp [V3.ofWord, V3.toWord, extractLsb'_append_eq_of_le, extractLsb'_append_eq_of_add_le,
    extractLsb'_append_extractLsb'_eq_extractLsb', -Nat.reduceAdd]
theorem VI.format : Format VI.ofWord VI.toWord := by
  constructor <;> intros <;> simp [VI.ofWord, VI.toWord, extractLsb'_append_eq_of_le, extractLsb'_append_eq_of_add_le,
    extractLsb'_append_extractLsb'_eq_extractLsb', -Nat.reduceAdd]
theorem S3.format : Format S3.ofWord S3.toWord := by
  constructor <;> intros <;> simp [S3.ofWord, S3.toWord, extractLsb'_append_eq_of_le, extractLsb'_append_eq_of_add_le,
    extractLsb'_append_extractLsb'_eq_extractLsb', -Nat.reduceAdd]
theorem SI.format : Format SI.ofWord SI.toWord := by
  constructor <;> intros <;> simp [SI.ofWord, SI.toWord, extractLsb'_append_eq_of_le, extractLsb'_append_eq_of_add_le,
    extractLsb'_append_extractLsb'_eq_extractLsb', -Nat.reduceAdd]
theorem FB.format : Format FB.ofWord FB.toWord := by
  constructor <;> intros <;> simp [FB.ofWord, FB.toWord, extractLsb'_append_eq_of_le, extractLsb'_append_eq_of_add_le,
    extractLsb'_append_extractLsb'_eq_extractLsb', -Nat.reduceAdd]
theorem FM.format : Format FM.ofWord FM.toWord := by
  constructor <;> intros <;> simp [FM.ofWord, FM.toWord, extractLsb'_append_eq_of_le, extractLsb'_append_eq_of_add_le,
    extractLsb'_append_extractLsb'_eq_extractLsb', -Nat.reduceAdd]
theorem MA.format : Format MA.ofWord MA.toWord := by
  constructor <;> intros <;> simp [MA.ofWord, MA.toWord, extractLsb'_append_eq_of_le, extractLsb'_append_eq_of_add_le,
    extractLsb'_append_extractLsb'_eq_extractLsb', -Nat.reduceAdd]
theorem FT.format : Format FT.ofWord FT.toWord := by
  constructor <;> intros <;> simp [FT.ofWord, FT.toWord, extractLsb'_append_eq_of_le, extractLsb'_append_eq_of_add_le,
    extractLsb'_append_extractLsb'_eq_extractLsb', -Nat.reduceAdd]
theorem FX.format : Format FX.ofWord FX.toWord := by
  constructor <;> intros <;> simp [FX.ofWord, FX.toWord, extractLsb'_append_eq_of_le, extractLsb'_append_eq_of_add_le,
    extractLsb'_append_extractLsb'_eq_extractLsb', -Nat.reduceAdd]
theorem FK.format : Format FK.ofWord FK.toWord := by
  constructor <;> intros <;> simp [FK.ofWord, FK.toWord, extractLsb'_append_eq_of_le, extractLsb'_append_eq_of_add_le,
    extractLsb'_append_extractLsb'_eq_extractLsb', -Nat.reduceAdd]
theorem FY.format : Format FY.ofWord FY.toWord := by
  constructor <;> intros <;> simp [FY.ofWord, FY.toWord, extractLsb'_append_eq_of_le, extractLsb'_append_eq_of_add_le,
    extractLsb'_append_extractLsb'_eq_extractLsb', -Nat.reduceAdd]

end

/-- The fields of a word, written under its opcode. -/
theorem Format.write_read_of {F : Type} {read : W64 → F} {write : Byte → F → W64} (fmt : Format read write) {w : W64} {op : Byte}
    (h : (w.extractLsb' 56 8).toNat = op.toNat) : write op (read w) = w := by
  rw [← BitVec.eq_of_toNat_eq h, fmt.write_read]

/-- The word of an instruction selects it when every word with its opcode and its fields does. -/
theorem Format.select_write {F : Type} {read : W64 → F} {write : Byte → F → W64} (fmt : Format read write) {op : Byte} {f : F}
    {mk : F → Instr} (h : ∀ w : W64, w.extractLsb' 56 8 = op → read w = f → select w = .ok (mk (read w))) :
    select (write op f) = .ok (mk f) := by
  have k := h (write op f) (fmt.opcode op f) (fmt.read_write op f)
  rwa [fmt.read_write] at k

/-! ## Checks of the fields that select an instruction (R81 to R91) -/

theorem firstBad_eq_none {l : List (Nat × Bool)} (h : firstBad l = none) : ∀ c ∈ l, c.2 = true := by
  induction l with
  | nil => simp
  | cons c r ih =>
    obtain ⟨b, ok⟩ := c
    cases ok with
    | false => simp [firstBad] at h
    | true => simpa using ih h

theorem chkS3_fn {f : S3} {a b c ty fn sat f1 f2} (h : firstBad (chkS3 f a b c ty fn sat f1 f2) = none) : fn = true :=
  firstBad_eq_none h (24, fn) (by simp [chkS3])
theorem chkSI_fn (f : SI) {a fn imm} (h : firstBad (chkSI f a fn imm) = none) : fn = true :=
  firstBad_eq_none h (40, fn) (by simp [chkSI])
theorem chkV3_sub {f : V3} {pr d a b c ty rnd sat md sub} (h : firstBad (chkV3 f pr d a b c ty rnd sat md sub) = none) : sub = true :=
  firstBad_eq_none h (0, sub) (by simp [chkV3])
theorem chkFT_imm {f : FT} {pr d h i j ty mode lvl b imm} (e : firstBad (chkFT f pr d h i j ty mode lvl b imm) = none) : imm = true :=
  firstBad_eq_none e (0, imm) (by simp [chkFT])
theorem chkFY_fn (f : FY) {d a b scope fn cls1 cls2 ord imm} (h : firstBad (chkFY f d a b scope fn cls1 cls2 ord imm) = none) :
    fn = true := firstBad_eq_none h (30, fn) (by simp [chkFY])
theorem chkFY_imm (f : FY) {d a b scope fn cls1 cls2 ord imm} (h : firstBad (chkFY f d a b scope fn cls1 cls2 ord imm) = none) :
    imm = true := firstBad_eq_none h (0, imm) (by simp [chkFY])

/-- Bit 3 of a word, which tells cnt.wait from cnt, is that of IMM16 under the mask of its check (R281). -/
theorem FY.bit3_imm (w : W64) : ((FY.ofWord w).imm &&& 8).extractLsb' 3 1 = w.extractLsb' 3 1 := by
  have m : (8 : BitVec 16).extractLsb' 3 1 = BitVec.allOnes 1 := by decide
  have e : (FY.ofWord w).imm.extractLsb' 3 1 = w.extractLsb' 3 1 := BitVec.extractLsb'_extractLsb'_of_le (by decide)
  rw [BitVec.extractLsb'_and, m, BitVec.and_allOnes, e]

/-! ## Selecting (R91) -/

/-- In each branch of `select` the instruction holds the fields that its format reads from the word, and the branch fixes the opcode. -/
theorem encode_of_select {w : W64} {i : Instr} (h : select w = .ok i) : encode i = w ∧ i.isEvent = false := by
  unfold select at h
  repeat' split at h
  all_goals cases h
  all_goals
    simp [encode, Instr.isEvent, V3.format.write_read_of, VI.format.write_read_of, S3.format.write_read_of,
      SI.format.write_read_of, FB.format.write_read_of, FM.format.write_read_of, MA.format.write_read_of,
      FT.format.write_read_of, FX.format.write_read_of, FK.format.write_read_of, FY.format.write_read_of, *]

/-- Instructions that have their opcode to themselves are selected by it alone; of those that share one, the check of the selecting field
gives the value that selects. -/
theorem select_encode {i : Instr} (ev : i.isEvent = false) (ok : i.badField = none) : select (encode i) = .ok i := by
  cases i with
  | vadd f | vsub f | vmul f | vmulh f | vmad f | vdiv f | vrem f | vmin f | vmax f | vabs f | vneg f | vand f | vor f | vxor f
  | vandn f | vnot f | vshl f | vshr f | vsra f | vclz f | vpop f | vbrev f | vsad f | vdot4 f | vmov f | vsel f | vbcast f | vcmp f
  | fadd f | fsub f | fmul f | ffma f | fmin f | fmax f | fdiv f | fsqrt f | frcp f | frsq f | fexp2 f | flog2 f | fsin f | fcos f
  | frnd f | fcmp f | fclass f | fscale f | fsgn f | cvt f | vpack f | vunpk f | vdith f | vrot f | vred f | vscan f | vcompress f
  | vexpand f =>
    exact V3.format.select_write fun w h _ => by rw [select, h]; rfl
  | vlane f | vlaneGet f | vlanePut f | vshfl f | vshflXor f | vballot f | vballotCnt f | pand f | por f | pxor f | pnot f =>
    refine V3.format.select_write fun w h e => ?_
    have k : w.extractLsb' 0 5 = _ := (congrArg V3.sub e).trans (eq_of_beq (chkV3_sub ok))
    rw [select, h, k]; rfl
  | vli f | vaddImm f | vandImm f | pset f =>
    exact VI.format.select_write fun w h _ => by rw [select, h]; rfl
  | sadd f | ssub f | smul f | smulh f | sdiv f | srem f | smin f | smax f | sabs f | slea f | sand f | sor f | sxor f | sandn f
  | sshl f | sshr f | ssra f | srot f | sclz f | spop f | sbfx f | sbfi f | ssel f | smov f =>
    refine S3.format.select_write fun w h e => ?_
    have k : w.extractLsb' 24 4 = _ := (congrArg S3.fn e).trans (eq_of_beq (chkS3_fn ok))
    rw [select, h, k]; rfl
  | scmp f =>
    refine S3.format.select_write fun w h e => ?_
    have k : w.extractLsb' 24 4 = f.fn := congrArg S3.fn e
    rw [select, h, k]
    exact if_pos (of_decide_eq_true (chkS3_fn ok))
  | saddImm f | smulImm f | sminImm f | smaxImm f | sandImm f | sorImm f | sxorImm f | sshlImm f | sshrImm f | ssraImm f | srotImm f
  | sli f | slih f =>
    refine SI.format.select_write fun w h e => ?_
    have k : w.extractLsb' 40 4 = _ := (congrArg SI.fn e).trans (eq_of_beq (chkSI_fn f ok))
    rw [select, h, k]; rfl
  | scmpImm f =>
    refine SI.format.select_write fun w h e => ?_
    have k : w.extractLsb' 40 4 = f.fn := congrArg SI.fn e
    rw [select, h, k]
    exact if_pos (of_decide_eq_true (chkSI_fn f ok))
  | br f | brc f | brm f | call f | ret f | jt f | mif f | melse f | mend f | mloop f | exit f | yield f | nop f =>
    exact FB.format.select_write fun w h _ => by rw [select, h]; rfl
  | ld f | ldSigned f | ldu f | lduSigned f | st f | stu f | pref f | cwb f | cinv f | cwbi f =>
    exact FM.format.select_write fun w h _ => by rw [select, h]; rfl
  | atom f | atomu f | red f =>
    exact MA.format.select_write fun w h _ => by rw [select, h]; rfl
  | talloc f | tfree f | tinfo f | twait f | tld f | tst f | tldw f | tldc f | tstw f | tcpi f | tcpo f | tcpm f | lput f | lget f =>
    exact FT.format.select_write fun w h _ => by rw [select, h]; rfl
  | tsetFull f | tsetEmpty f =>
    refine FT.format.select_write fun w h e => ?_
    have k : w.extractLsb' 0 11 = _ := (congrArg FT.imm e).trans (eq_of_beq (chkFT_imm ok))
    have b := congrArg (BitVec.extractLsb' 0 1) k
    rw [BitVec.extractLsb'_extractLsb'_of_le (by decide)] at b
    rw [select, h, b]; rfl
  | mac f | macg f | azero f | amov f | aput f | aread f =>
    exact FX.format.select_write fun w h _ => by rw [select, h]; rfl
  | sdfe f | sdfprune f | march f | mres f | mresume f | mcancel f | bsample f | vis f | rast f | rproj f =>
    exact FK.format.select_write fun w h _ => by rw [select, h]; rfl
  | fence f | xfence f | fetch f | launch f | join f | hpass f | linfo f | barInit f | barArr f | barWait f | enq f | qfence f | mfs f
  | mts f | trap f | brk f =>
    exact FY.format.select_write fun w h _ => by rw [select, h]; rfl
  | barSync f | barSyncPeer f | barDrop f | barDropPeer f | barPeer f | barGrid f | cancel f | tret f | tretSkip f =>
    refine FY.format.select_write fun w h e => ?_
    have k : w.extractLsb' 30 4 = _ := (congrArg FY.fn e).trans (eq_of_beq (chkFY_fn f ok))
    rw [select, h, k]; rfl
  | cnt f | cntWait f =>
    refine FY.format.select_write fun w h e => ?_
    have k : w.extractLsb' 30 4 = _ := (congrArg FY.fn e).trans (eq_of_beq (chkFY_fn f ok))
    have b := FY.bit3_imm w
    rw [e, eq_of_beq ((Bool.and_eq_true _ _).mp (chkFY_imm f ok)).2] at b
    rw [select, h, k, ← b]; rfl
  | fwcallSys f | fwcallXz f =>
    refine FY.format.select_write fun w h e => ?_
    have k : w.extractLsb' 0 16 = _ := (congrArg FY.imm e).trans (eq_of_beq (chkFY_imm f ok))
    rw [select, h, k]; rfl
  | _ => exact Bool.noConfusion ev

/-! ## Decoding -/

/-- A word decodes to the instruction that it selects, if no field of it fails. -/
theorem decode_eq_ok_iff {w : W64} {i : Instr} : decode w = .ok i ↔ select w = .ok i ∧ i.badField = none := by
  unfold decode
  cases select w with
  | error b => simp
  | ok j =>
    constructor
    · intro h
      cases hj : j.badField with
      | some b => simp [hj] at h
      | none => simp only [hj, Except.ok.injEq] at h; subst h; exact ⟨rfl, hj⟩
    · rintro ⟨h, ok⟩
      cases h; simp [ok]

/-- A word that selects no instruction fails at the field that names none. -/
theorem decode_of_select_error {w : W64} {b : Nat} (h : select w = .error b) : decode w = .error b := by rw [decode, h]

/-- The opcodes that no table assigns (R81 to R90) reach the last branch of `select`. -/
theorem select_unassigned {w : W64} {lo hi : Nat}
    (r : (lo, hi) ∈ [(0x07, 0x0F), (0x1D, 0x1F), (0x6A, 0x6F), (0x73, 0x77), (0x8F, 0x8F),
      (0x96, 0x9F), (0xA7, 0xAF), (0xB3, 0xB7), (0xC6, 0xFF)])
    (h1 : lo ≤ (w.extractLsb' 56 8).toNat) (h2 : (w.extractLsb' 56 8).toNat ≤ hi) : select w = .error 56 := by
  simp only [List.mem_cons, Prod.mk.injEq, List.not_mem_nil, or_false] at r
  rw [select]
  generalize (w.extractLsb' 56 8).toNat = op at h1 h2 ⊢
  rcases r with ⟨rfl, rfl⟩ | ⟨rfl, rfl⟩ | ⟨rfl, rfl⟩ | ⟨rfl, rfl⟩ | ⟨rfl, rfl⟩ | ⟨rfl, rfl⟩ | ⟨rfl, rfl⟩ | ⟨rfl, rfl⟩ | ⟨rfl, rfl⟩
  all_goals interval_cases op <;> rfl

theorem wellFormed_iff {i : Instr} : WellFormed i = true ↔ i.badField = none ∧ i.isEvent = false := by simp [WellFormed]

end Sys2Proof

section
open Sys2Proof Sys2Proof.Machine

/-- Settles O3: the word of a well-formed instruction selects it, and no field fails. -/
theorem decodeOfEncode : Obligations.DecodeOfEncode := by
  unfold Obligations.DecodeOfEncode
  intro i wf
  obtain ⟨ok, ev⟩ := wellFormed_iff.1 wf
  exact decode_eq_ok_iff.2 ⟨select_encode ev ok, ok⟩

/-- Settles O4: a word that decodes selects its instruction, which holds every field of the word. -/
theorem encodeOfDecode : Obligations.EncodeOfDecode := by
  unfold Obligations.EncodeOfDecode
  intro w i h
  obtain ⟨sel, ok⟩ := decode_eq_ok_iff.1 h
  obtain ⟨enc, ev⟩ := encode_of_select sel
  exact ⟨enc, wellFormed_iff.2 ⟨ok, ev⟩⟩

/-- Settles O2: each printed word is evaluated; an unassigned opcode selects no instruction. -/
theorem printedWords : Obligations.PrintedWords := by
  refine ⟨?printed, ?unassigned⟩
  case printed => exact ⟨rfl, rfl, rfl, rfl, rfl, rfl, rfl, rfl, rfl, rfl, rfl⟩
  case unassigned =>
    rintro w ⟨⟨lo, hi⟩, r, h1, h2⟩
    exact decode_of_select_error (select_unassigned r h1 h2)

end

/-! # Register writes (R57, R64, R66, R67, R98, R131, R418)

Each register file has an equation for a read and for a write, in each mode that gives its numbers their names; the laws of reading after
writing follow from those equations. -/
namespace Sys2Proof.Machine

/-! ## Scalar registers -/

@[simp] theorem Group.sget_zero (g : Group) : g.sget 0 = 0 := rfl
@[simp] theorem Group.sput_zero (g : Group) (x : W64) : g.sput 0 x = g := rfl

theorem Group.sget_z {g : Group} {n : BitVec 6} (h : n ≠ 0) (a : g.zAlias n = true) : g.sget n = g.r.z[(n.toNat - 56) % 8]! := by
  rw [sget, if_neg h, if_pos a]
theorem Group.sget_s {g : Group} {n : BitVec 6} (h : n ≠ 0) (a : g.zAlias n = false) : g.sget n = g.r.s[n.toNat]'n.isLt := by
  rw [sget, if_neg h, if_neg (Bool.eq_false_iff.1 a)]
theorem Group.sput_z {g : Group} {n : BitVec 6} (h : n ≠ 0) (a : g.zAlias n = true) (x : W64) :
    g.sput n x = { g with r := { g.r with
      z := g.r.z.set! (n.toNat - 56) x, poison := g.r.poison.filter (· ≠ .z (n.toNat - 56)) } } := by
  rw [sput, if_neg h, if_pos a]
theorem Group.sput_s {g : Group} {n : BitVec 6} (h : n ≠ 0) (a : g.zAlias n = false) (x : W64) :
    g.sput n x = { g with r := { g.r with
      s := g.r.s.set n.toNat x n.isLt, poison := g.r.poison.filter (· ≠ .s n.toNat) } } := by
  rw [sput, if_neg h, if_neg (Bool.eq_false_iff.1 a)]

/-- A scalar write changes the scalar files and poison marks only. -/
theorem Group.sput_frame (g : Group) (n : BitVec 6) (x : W64) :
    ∃ a z p, g.sput n x = { g with r := { g.r with s := a, z := z, poison := p } } := by
  by_cases h : n = 0
  · subst h; exact ⟨_, _, _, rfl⟩
  cases a : g.zAlias n with
  | true => exact ⟨_, _, _, sput_z h a x⟩
  | false => exact ⟨_, _, _, sput_s h a x⟩

@[simp] theorem Group.zAlias_sput (g : Group) (n m : BitVec 6) (x : W64) : (g.sput n x).zAlias m = g.zAlias m := by
  obtain ⟨a, z, p, e⟩ := g.sput_frame n x
  rw [e]; rfl

/-- The numbers that name z0 to z7. -/
theorem Group.zAlias_le {g : Group} {n : BitVec 6} (a : g.zAlias n = true) : 56 ≤ n.toNat ∧ n.toNat < 64 :=
  ⟨of_decide_eq_true ((Bool.and_eq_true _ _).mp a).2, n.isLt⟩

theorem Group.sget_sput_self (g : Group) {n : BitVec 6} (h : n ≠ 0) (x : W64) : (g.sput n x).sget n = x := by
  cases a : g.zAlias n with
  | true =>
    have b := zAlias_le a
    have lt : n.toNat - 56 < 8 := by omega
    rw [sget_z h (by rw [zAlias_sput, a]), sput_z h a, Nat.mod_eq_of_lt lt]
    simp [lt]
  | false =>
    rw [sget_s h (by rw [zAlias_sput, a])]
    simp only [sput_s h a, Vector.getElem_set_self]

theorem Group.sget_sput_ne (g : Group) {n m : BitVec 6} (h : m ≠ n) (x : W64) : (g.sput n x).sget m = g.sget m := by
  by_cases hn : n = 0
  · rw [hn, sput_zero]
  by_cases hm : m = 0
  · rw [hm, sget_zero, sget_zero]
  have ne : n.toNat ≠ m.toNat := fun e => h (BitVec.eq_of_toNat_eq e.symm)
  cases am : g.zAlias m with
  | true =>
    rw [sget_z hm (by rw [zAlias_sput, am]), sget_z hm am]
    cases an : g.zAlias n with
    | true =>
      have bm := zAlias_le am
      have bn := zAlias_le an
      have lt : m.toNat - 56 < 8 := by omega
      have ne' : n.toNat - 56 ≠ m.toNat - 56 := by omega
      rw [sput_z hn an, Nat.mod_eq_of_lt lt]
      simp [lt, ne']
    | false => rw [sput_s hn an]
  | false =>
    rw [sget_s hm (by rw [zAlias_sput, am]), sget_s hm am]
    cases an : g.zAlias n with
    | true => simp only [sput_z hn an]
    | false => simp only [sput_s hn an, Vector.getElem_set_ne _ _ ne]

/-- In handler mode numbers 56 to 63 are z0 to z7, apart from s56 to s63 (R418). -/
theorem Group.sput_s_of_handler {g : Group} {n : BitVec 6} (hm : g.hmode = true) (hn : 56 ≤ n.toNat) (x : W64) :
    (g.sput n x).r.s = g.r.s := by
  have a : g.zAlias n = true := by simp [zAlias, hm, hn]
  have h : n ≠ 0 := by rintro rfl; simp at hn
  rw [sput_z h a]

/-- Outside handler mode no number names z0 to z7. -/
theorem Group.sput_z_of_user {g : Group} (n : BitVec 6) (hm : g.hmode = false) (x : W64) : (g.sput n x).r.z = g.r.z := by
  have a : g.zAlias n = false := by simp [zAlias, hm]
  by_cases h : n = 0
  · rw [h, sput_zero]
  · rw [sput_s h a]

/-! ## Predicates -/

@[simp] theorem Group.pget_zero (g : Group) : g.pget 0 = 0xFFFFFFFF := rfl
@[simp] theorem Group.pput_zero (g : Group) (x : W32) : g.pput 0 x = g := rfl

theorem Group.pput_of_ne {g : Group} {n : BitVec 4} (h : n ≠ 0) (x : W32) :
    g.pput n x = { g with r := { g.r with p := g.r.p.set n.toNat x n.isLt, poison := g.r.poison.filter (· ≠ .p n.toNat) } } := by
  rw [pput, if_neg h]

/-- A predicate write changes the predicates and poison marks only. -/
theorem Group.pput_frame (g : Group) (n : BitVec 4) (x : W32) :
    ∃ p q, g.pput n x = { g with r := { g.r with p := p, poison := q } } := by
  by_cases h : n = 0
  · subst h; exact ⟨_, _, rfl⟩
  · exact ⟨_, _, pput_of_ne h x⟩

theorem Group.pget_pput_self (g : Group) {n : BitVec 4} (h : n ≠ 0) (x : W32) : (g.pput n x).pget n = x := by
  rw [pget, if_neg h]
  simp only [pput_of_ne h, Vector.getElem_set_self]

theorem Group.pget_pput_ne (g : Group) {n m : BitVec 4} (h : m ≠ n) (x : W32) : (g.pput n x).pget m = g.pget m := by
  by_cases hn : n = 0
  · rw [hn, pput_zero]
  by_cases hm : m = 0
  · rw [hm, pget_zero, pget_zero]
  have ne : n.toNat ≠ m.toNat := fun e => h (BitVec.eq_of_toNat_eq e.symm)
  rw [pget, pget, if_neg hm, if_neg hm]
  simp only [pput_of_ne hn, Vector.getElem_set_ne _ _ ne]

/-! ## Vector registers -/

/-- A vector register whose lanes in m are written. -/
def writeLanes (old : VReg) (m : W32) (f : Nat → W32) : VReg := Vector.ofFn fun i => if m.getLsbD i.val then f i.val else old[i]

theorem writeLanes_get (old : VReg) (m : W32) (f : Nat → W32) {i : Nat} (h : i < 32) :
    (writeLanes old m f)[i % 32]! = if m.getLsbD i then f i else old[i % 32]! := by
  rw [Nat.mod_eq_of_lt h]
  simp [writeLanes, h]

theorem Group.vreg_zv {g : Group} {n : Byte} (a : g.zvAlias n = true) : g.vreg n = g.r.zv[(n.toNat - 252) % 4]! := by
  rw [vreg, if_pos a]
theorem Group.vreg_v {g : Group} {n : Byte} (a : g.zvAlias n = false) : g.vreg n = g.r.v[n.toNat]'n.isLt := by
  rw [vreg, if_neg (Bool.eq_false_iff.1 a)]
theorem Group.vput_zv {g : Group} {n : Byte} (a : g.zvAlias n = true) (m : W32) (f : Nat → W32) :
    ∃ p, g.vput n m f = { g with r := { g.r with zv := g.r.zv.set! (n.toNat - 252) (writeLanes (g.vreg n) m f), poison := p } } :=
  ⟨_, by rw [vput, if_pos a]; rfl⟩
theorem Group.vput_v {g : Group} {n : Byte} (a : g.zvAlias n = false) (m : W32) (f : Nat → W32) :
    ∃ p, g.vput n m f = { g with r := { g.r with v := g.r.v.set n.toNat (writeLanes (g.vreg n) m f) n.isLt, poison := p } } :=
  ⟨_, by rw [vput, if_neg (Bool.eq_false_iff.1 a)]; rfl⟩

/-- A vector write changes the vector files and poison marks only. -/
theorem Group.vput_frame (g : Group) (n : Byte) (m : W32) (f : Nat → W32) :
    ∃ v zv p, g.vput n m f = { g with r := { g.r with v := v, zv := zv, poison := p } } := by
  cases a : g.zvAlias n with
  | true =>
    obtain ⟨p, e⟩ := vput_zv a m f
    exact ⟨_, _, _, e⟩
  | false =>
    obtain ⟨p, e⟩ := vput_v a m f
    exact ⟨_, _, _, e⟩

theorem Group.vputPair_frame (g : Group) (n : Byte) (m : W32) (f : Nat → W64) :
    ∃ v zv p, g.vputPair n m f = { g with r := { g.r with v := v, zv := zv, poison := p } } := by
  obtain ⟨v, zv, p, e⟩ := g.vput_frame n m fun i => (f i).setWidth 32
  obtain ⟨v', zv', p', e'⟩ := (g.vput n m fun i => (f i).setWidth 32).vput_frame (n + 1) m fun i => (f i).extractLsb' 32 32
  refine ⟨v', zv', p', e'.trans ?_⟩
  rw [e]

@[simp] theorem Group.zvAlias_vput (g : Group) (n k : Byte) (m : W32) (f : Nat → W32) : (g.vput n m f).zvAlias k = g.zvAlias k := by
  obtain ⟨v, zv, p, e⟩ := g.vput_frame n m f
  rw [e]; rfl

/-- The numbers that name zv0 to zv3. -/
theorem Group.zvAlias_le {g : Group} {n : Byte} (a : g.zvAlias n = true) : 252 ≤ n.toNat ∧ n.toNat < 256 :=
  ⟨of_decide_eq_true ((Bool.and_eq_true _ _).mp a).2, n.isLt⟩

theorem Group.vreg_vput_self (g : Group) (n : Byte) (m : W32) (f : Nat → W32) : (g.vput n m f).vreg n = writeLanes (g.vreg n) m f := by
  cases a : g.zvAlias n with
  | true =>
    have b := zvAlias_le a
    have lt : n.toNat - 252 < 4 := by omega
    obtain ⟨p, e⟩ := vput_zv a m f
    rw [vreg_zv (by rw [zvAlias_vput, a]), e, Nat.mod_eq_of_lt lt]
    simp [lt]
  | false =>
    obtain ⟨p, e⟩ := vput_v a m f
    rw [vreg_v (by rw [zvAlias_vput, a])]
    simp only [e, Vector.getElem_set_self]

theorem Group.vreg_vput_ne (g : Group) {n k : Byte} (h : k ≠ n) (m : W32) (f : Nat → W32) : (g.vput n m f).vreg k = g.vreg k := by
  have ne : n.toNat ≠ k.toNat := fun e => h (BitVec.eq_of_toNat_eq e.symm)
  cases ak : g.zvAlias k with
  | true =>
    rw [vreg_zv (by rw [zvAlias_vput, ak]), vreg_zv ak]
    cases an : g.zvAlias n with
    | true =>
      have bk := zvAlias_le ak
      have bn := zvAlias_le an
      have lt : k.toNat - 252 < 4 := by omega
      have ne' : n.toNat - 252 ≠ k.toNat - 252 := by omega
      obtain ⟨p, e⟩ := vput_zv an m f
      rw [e, Nat.mod_eq_of_lt lt]
      simp [lt, ne']
    | false =>
      obtain ⟨p, e⟩ := vput_v an m f
      rw [e]
  | false =>
    rw [vreg_v (by rw [zvAlias_vput, ak]), vreg_v ak]
    cases an : g.zvAlias n with
    | true =>
      obtain ⟨p, e⟩ := vput_zv an m f
      simp only [e]
    | false =>
      obtain ⟨p, e⟩ := vput_v an m f
      simp only [e, Vector.getElem_set_ne _ _ ne]

theorem Group.vget_vput_self (g : Group) (n : Byte) (m : W32) (f : Nat → W32) {i : Nat} (h : i < 32) :
    (g.vput n m f).vget n i = if m.getLsbD i then f i else g.vget n i := by
  rw [vget, vreg_vput_self, writeLanes_get _ _ _ h, vget]

theorem Group.vget_vput_ne (g : Group) {n k : Byte} (h : k ≠ n) (m : W32) (f : Nat → W32) (i : Nat) :
    (g.vput n m f).vget k i = g.vget k i := by rw [vget, vreg_vput_ne g h, vget]

/-- The registers of a pair differ. -/
theorem succ_register_ne (n : Byte) : n + 1 ≠ n := by bv_omega

theorem Group.vpair_vputPair_self (g : Group) (n : Byte) (m : W32) (f : Nat → W64) {i : Nat} (h : i < 32) :
    (g.vputPair n m f).vpair n i = if m.getLsbD i then f i else g.vpair n i := by
  rw [vpair, vputPair, vget_vput_self _ _ _ _ h, vget_vput_ne _ (succ_register_ne n).symm, vget_vput_self _ _ _ _ h, vget_vput_ne _ (succ_register_ne n)]
  split
  · rw [BitVec.setWidth_eq_extractLsb' (by decide)]
    exact BitVec.extractLsb'_append_extractLsb' (w := 32) (len := 32)
  · rw [vpair]

theorem Group.vget_vputPair_ne (g : Group) {n k : Byte} (h : k ≠ n) (h1 : k ≠ n + 1) (m : W32) (f : Nat → W64) (i : Nat) :
    (g.vputPair n m f).vget k i = g.vget k i := by
  rw [vputPair, vget_vput_ne _ h1, vget_vput_ne _ h]

theorem State.setV_single (s : State) (n : Byte) (m : W32) (val : Nat → Nat) :
    s.setV false n m val = { s with g := s.g.vput n m fun i => BitVec.ofNat 32 (val i) } := by
  simp only [setV, Bool.false_eq_true, if_false]
theorem State.setV_pair (s : State) (n : Byte) (m : W32) (val : Nat → Nat) :
    s.setV true n m val = { s with g := s.g.vputPair n m fun i => BitVec.ofNat 64 (val i) } := by
  simp only [setV, if_true]

/-! ## Retiring (R57, R64) -/

theorem Group.advance_inside {g : Group} (h : g.pc + 8 ≠ g.blkEnd) :
    g.advance = { g.restart with pc := g.pc + 8, phase := g.phase.go } := by
  have k : g.pc + 8 ≠ g.restart.blkEnd := h
  simp only [advance, if_neg k]
theorem Group.advance_past {g : Group} (h : g.pc + 8 = g.blkEnd) :
    g.advance = { g.restart with
      pc := g.pc + 8, entering := true, xferFrom := g.pc, phase := g.phase.go, r := { g.r with pend := none } } := by
  have k : g.pc + 8 = g.restart.blkEnd := h
  simp only [advance, if_pos k]
  rfl

end Sys2Proof.Machine

section
open Sys2Proof Sys2Proof.Machine

/-- Settles O12: reading after writing, file by file, and what the writes and retiring leave. -/
theorem registerWrites : Obligations.RegisterWrites := by
  unfold Obligations.RegisterWrites
  refine ⟨⟨?same, ?zero, ?other, ?handler, ?user, ?pred, ?pzero, ?pother, ?vector, ?vother, ?pair, ?pairOther⟩,
    ⟨?frameS, ?frameP, ?frameV, ?inside, ?past, fun _ => rfl⟩⟩
  case same => exact fun s n x h => s.g.sget_sput_self h x
  case zero => exact fun s n x => ⟨rfl, rfl, fun h => s.g.sget_sput_ne h.symm x⟩
  case other => exact fun s n m x h => s.g.sget_sput_ne h x
  case handler => exact fun s n x hm hn => Group.sput_s_of_handler hm hn x
  case user => exact fun s n x hm => Group.sput_z_of_user n hm x
  case pred => exact fun s n x h => s.g.pget_pput_self h x
  case pzero => exact fun s x => ⟨rfl, rfl⟩
  case pother => exact fun s n m x h => s.g.pget_pput_ne h x
  case vector => exact fun s n m val i hi => by rw [State.setV_single, Group.vget_vput_self _ _ _ _ hi]
  case vother => exact fun s n n' m val i h => by rw [State.setV_single, Group.vget_vput_ne _ h]
  case pair => exact fun s n m val _ i hi => by rw [State.setV_pair, Group.vpair_vputPair_self _ _ _ _ hi]
  case pairOther => exact fun s n m val n' i _ h h1 => by rw [State.setV_pair, Group.vget_vputPair_ne _ h h1]
  case frameS =>
    intro s n x
    obtain ⟨a, z, p, e⟩ := s.g.sput_frame n x
    exact ⟨a, z, p, congrArg (fun g => { s with g := g }) e⟩
  case frameP =>
    intro s n x
    obtain ⟨p, q, e⟩ := s.g.pput_frame n x
    exact ⟨p, q, congrArg (fun g => { s with g := g }) e⟩
  case frameV =>
    intro s w n m val
    cases w with
    | true =>
      obtain ⟨v, zv, p, e⟩ := s.g.vputPair_frame n m fun i => BitVec.ofNat 64 (val i)
      exact ⟨v, zv, p, by rw [State.setV_pair, e]⟩
    | false =>
      obtain ⟨v, zv, p, e⟩ := s.g.vput_frame n m fun i => BitVec.ofNat 32 (val i)
      exact ⟨v, zv, p, by rw [State.setV_single, e]⟩
  case inside => exact fun s h => congrArg (fun g => { s with g := g }) (Group.advance_inside h)
  case past => exact fun s h => congrArg (fun g => { s with g := g }) (Group.advance_past h)

end

/-! # Moves (R56, R57, R61, R91, R103, R195, R298, R422, R448)

Whose move a step is (`moveOf`), what the move of a group is (`runGroup`), and which of the things that follow every move
(`State.afterMove`) have nothing to do. -/
namespace Sys2Proof.Machine

/-! ## Whose move it is -/

theorem moveOf_nil {s : State} (h : s.turns = []) (awake : s.mg.pstate = 0) : moveOf s = runGroup s := by
  simp only [moveOf, h, if_pos awake]

theorem moveOf_group {s : State} {gid : Nat} {r : List Turn} (h : s.turns = .group gid :: r) :
    moveOf s = if s.mg.pstate = 0 then runGroup (State.focus { s with turns := r } gid) else .next { s with turns := r } := by
  simp only [moveOf, h]

theorem moveOf_event {s : State} {i : Instr} {r : List Turn} (h : s.turns = .event i :: r) : moveOf s = eventMove i { s with turns := r } := by
  simp only [moveOf, h]

theorem eventMove_awake {i : Instr} {s : State} (ev : i.isEvent = true) (awake : s.mg.pstate = 0) : eventMove i s = exec i (s.ahead i) := by
  simp only [eventMove, ev, Bool.not_true, Bool.false_eq_true, if_false, if_pos awake]

/-- A request of system software that finds the device asleep is held. -/
theorem eventMove_held {i : Instr} {s : State} (ev : i.isEvent = true) (asleep : s.mg.pstate ≠ 0) (asks : asksDevice i = true) :
    eventMove i s = .next (s.hold (.event i)) := by
  simp only [eventMove, ev, Bool.not_true, Bool.false_eq_true, if_false, if_neg asleep, if_pos asks]

theorem eventMove_works {i : Instr} {s : State} (ev : i.isEvent = true) (asleep : s.mg.pstate ≠ 0) (asks : asksDevice i = false)
    (works : worksAsleep s.mg.pstate.toNat i = true) : eventMove i s = exec i s := by
  simp only [eventMove, ev, Bool.not_true, Bool.false_eq_true, if_false, if_neg asleep, asks, if_pos works]

theorem eventMove_waits {i : Instr} {s : State} (ev : i.isEvent = true) (asleep : s.mg.pstate ≠ 0) (asks : asksDevice i = false)
    (waits : worksAsleep s.mg.pstate.toNat i = false) : eventMove i s = .next s := by
  simp only [eventMove, ev, Bool.not_true, Bool.false_eq_true, if_false, if_neg asleep, asks, waits]

/-! ## What is served before an access (R298) -/

/-- With no staging request promoted, nothing stands before an access. -/
theorem State.clearAhead_of_none {s : State} (h : ∀ q ∈ s.ls.staging, s.isPromoted q = false) : s.clearAhead = s := by
  have noneIs : s.ls.staging.any s.isPromoted = false := by
    rw [List.any_eq_false]
    exact fun q hq => Bool.eq_false_iff.1 (h q hq)
  rw [clearAhead]
  cases s.waiting with
  | zero => rfl
  | succ n => simp only [serveAhead, noneIs, Bool.not_false, if_true]

theorem State.ahead_of_none {s : State} (h : ∀ q ∈ s.ls.staging, s.isPromoted q = false) (i : Instr) : s.ahead i = s := by
  rw [ahead, clearAhead_of_none h, ite_self]

/-! ## What follows a move -/

/-- No group owes a save, a discard or a split. -/
theorem State.payOwed_of_none {s : State} (h : ∀ g ∈ s.groups, g.owes = none ∧ g.splitDue = false) : s.payOwed = s := by
  have empty : (s.groups.filter fun g => (g.owes.isSome || g.splitDue) && g.atomic.isNone) = [] := by
    rw [List.filter_eq_nil_iff]
    intro g hg
    obtain ⟨owes, split⟩ := h g hg
    simp [owes, split]
  rw [payOwed, empty, List.foldl_nil]

theorem State.mem_groups_of_others {s : State} {g : Group} (h : g ∈ s.others) : g ∈ s.groups := by
  unfold groups
  split
  · exact h
  · exact List.mem_cons_of_mem _ h

/-- A map that leaves every group alone leaves the state alone; without a group in the turn, the placeholder stays. -/
theorem State.mapGroups_of_fixed {s : State} {f : Group → Group} (h : ∀ g ∈ s.groups, f g = g) : s.mapGroups f = s := by
  have others : s.others.map f = s.others :=
    (List.map_congr_left fun g hg => h g (mem_groups_of_others hg)).trans (List.map_id _)
  have turn : (if s.g.gid = 0 then s.g else f s.g) = s.g := by
    split
    · rfl
    · next gid => exact h s.g (by rw [groups, if_neg gid]; exact List.mem_cons_self)
  rw [mapGroups, others, turn]

theorem State.passTwaits_of_none {s : State} (h : ∀ g ∈ s.groups, g.twait = none) : s.passTwaits = s := by
  refine mapGroups_of_fixed fun g hg => ?_
  have full : g.tileFull s = false := by simp [Group.tileFull, h g hg]
  rw [full, if_neg Bool.false_ne_true]

theorem State.sendNext_of_nil {s : State} (h : s.ls.staging = []) : s.sendNext = s := by
  simp only [sendNext, sendAll, h, List.foldl_nil, List.any_nil, Bool.false_eq_true, if_false]

theorem State.raiseDue_of_nil {s : State} (h : s.lk.due = []) : s.raiseDue = s := by
  rw [raiseDue, h, List.foldl_nil, ← h]

theorem State.ringDoorbells_of_nil {s : State} (h : s.ms.wrote = []) : s.ringDoorbells = s := if_pos h

theorem State.fitSlices_of_fits {s : State} (h : s.ms.dirty.length + s.ms.stale.length + s.ms.pins.length ≤ 32768) : s.fitSlices = s :=
  if_pos h

/-- A move that leaves nothing due is followed by the count of moves alone. -/
theorem State.afterMove_of_quiet {s : State} (wrote : s.ms.wrote = [])
    (quiet : ∀ g ∈ s.groups, g.owes = none ∧ g.splitDue = false ∧ g.twait = none) (due : s.lk.due = [])
    (staging : s.ls.staging = []) (fits : s.ms.dirty.length + s.ms.stale.length + s.ms.pins.length ≤ 32768) :
    s.afterMove = { s with moves := s.moves + 1 } := by
  have owed : ∀ g ∈ s.groups, g.owes = none ∧ g.splitDue = false := fun g hg =>
    let ⟨owes, split, _⟩ := quiet g hg
    ⟨owes, split⟩
  have twaits : ∀ g ∈ s.groups, g.twait = none := fun g hg =>
    let ⟨_, _, twait⟩ := quiet g hg
    twait
  rw [afterMove, payOwed_of_none owed, passTwaits_of_none twaits,
    sendNext_of_nil staging, raiseDue_of_nil due, ringDoorbells_of_nil wrote, fitSlices_of_fits fits]

/-! ## The move of a group -/

section
variable {s : State} (gid : s.g.gid ≠ 0) (ready : s.g.phase = .running ∨ s.g.phase = .parked)
include gid ready

/-- A group that is Running or Parked makes a move: the guard of `runGroup` does not hold it back. -/
theorem runGroup_guard : (decide (s.g.gid = 0) || !(decide (s.g.phase = .running) || decide (s.g.phase = .parked))) = false := by
  rcases ready with h | h <;> simp [gid, h]

theorem runGroup_atomic {a : AtomicRun} (h : s.g.atomic = some a) : runGroup s = exec a.i (s.ahead a.i) := by
  simp only [runGroup, runGroup_guard gid ready, Bool.false_eq_true, if_false, h]

theorem runGroup_entering (h : s.g.atomic = none) (e : s.g.entering = true) : runGroup s = .next (enterBlock s) := by
  simp only [runGroup, runGroup_guard gid ready, Bool.false_eq_true, if_false, h, if_pos e]

variable (idle : s.g.atomic = none) (inside : s.g.entering = false)
include idle inside

theorem runGroup_fetch_bad {t : Trap} {s1 : State} (h : s.fetchWord s.g.pc = .bad t s1) : runGroup s = .next (takeTrap t s1) := by
  simp only [runGroup, runGroup_guard gid ready, Bool.false_eq_true, if_false, idle, inside, h]

theorem runGroup_illegal {s1 : State} {w : W64} {bit : Nat} (h : s.fetchWord s.g.pc = .ok s1 w) (d : decode w = .error bit) :
    runGroup s = .next (takeTrap ((illegal bit).lanes_ (recordedMask s1.g w)) s1) := by
  simp only [runGroup, runGroup_guard gid ready, Bool.false_eq_true, if_false, idle, inside, h, d]

theorem runGroup_poison {s1 : State} {w : W64} {i : Instr} {t : Trap} (h : s.fetchWord s.g.pc = .ok s1 w) (d : decode w = .ok i)
    (p : predPoison s1.g w = some t) : runGroup s = .next (takeTrap t s1) := by
  simp only [runGroup, runGroup_guard gid ready, Bool.false_eq_true, if_false, idle, inside, h, d, p]

theorem runGroup_runs {s1 : State} {w : W64} {i : Instr} (h : s.fetchWord s.g.pc = .ok s1 w) (d : decode w = .ok i)
    (p : predPoison s1.g w = none) : runGroup s = exec i (s1.ahead i) := by
  simp only [runGroup, runGroup_guard gid ready, Bool.false_eq_true, if_false, idle, inside, h, d, p]

end

/-! ## The predicate that names an instruction's lanes (R422) -/

theorem predPoison_of_clean {s : State} {w : W64} (h : s.Clean (pitem (predOf w))) : predPoison s.g w = none := by
  rw [predPoison, readPoison_of_clean h, Option.map_none]

/-- A predicate is no lane's item. -/
theorem itemLane_pitem {n : BitVec 4} : ∀ t ∈ pitem n, itemLane t = none := by
  intro t ht
  unfold pitem at ht
  split at ht
  · simp at ht
  · rw [List.mem_singleton.1 ht]; rfl

theorem Group.mem_of_poisoned {g : Group} {items : List Item} {t : Item} (h : t ∈ g.poisoned items) : t ∈ items := by
  unfold poisoned at h
  split at h
  · simp at h
  · exact List.mem_of_mem_filter h

/-- Poisoned items that belong to no lane name none. -/
theorem readPoison_of_marked {s : State} {items : List Item} (h : ¬ s.Clean items) (noLane : ∀ t ∈ items, itemLane t = none) :
    readPoison s.g items = some { cause := cPOISON, elanes := 0, einfo := 2 } := by
  have lanes : (s.g.poisoned items).filterMap itemLane = [] :=
    List.filterMap_eq_nil_iff.2 fun t ht => noLane t (Group.mem_of_poisoned ht)
  unfold readPoison
  split
  · next clean => exact absurd clean h
  · rw [lanes]; rfl

theorem predPoison_of_marked {s : State} {w : W64} (h : ¬ s.Clean (pitem (predOf w))) :
    predPoison s.g w = some { cause := cPOISON, elanes := if isMatrix w then recordedMask s.g w else 0, einfo := 2 } := by
  rw [predPoison, readPoison_of_marked h itemLane_pitem, Option.map_some]
  split <;> rfl

end Sys2Proof.Machine

section
open Sys2Proof Sys2Proof.Machine

/-- Settles O1: the turn at the head decides whose move it is, what the group fetches decides what its move is, and what follows a move
has nothing to do in a quiet state. -/
theorem stepRunsDecoded : Obligations.StepRunsDecoded := by
  unfold Obligations.StepRunsDecoded
  refine ⟨?noTurn, ?group, ?groupAsleep, ?event, ?ahead, ?quiet, ?move⟩
  case noTurn => exact fun s h awake => congrArg afterOut (moveOf_nil h awake)
  case group => exact fun s gid r h awake => congrArg afterOut ((moveOf_group h).trans (if_pos awake))
  case groupAsleep => exact fun s gid r h asleep => congrArg afterOut ((moveOf_group h).trans (if_neg asleep))
  case event =>
    intro s i r h ev u
    have move : moveOf s = eventMove i u := moveOf_event h
    refine ⟨?awake, ?held, ?works, ?waits⟩
    case awake => exact fun awake => congrArg afterOut (move.trans (eventMove_awake ev awake))
    case held => exact fun asleep asks => congrArg afterOut (move.trans (eventMove_held ev asleep asks))
    case works => exact fun asleep asks works => congrArg afterOut (move.trans (eventMove_works ev asleep asks works))
    case waits => exact fun asleep asks waits => congrArg afterOut (move.trans (eventMove_waits ev asleep asks waits))
  case ahead => exact fun s i h => State.ahead_of_none h i
  case quiet => exact fun s wrote quiet due staging fits => congrArg Host.Outcome.next (State.afterMove_of_quiet wrote quiet due staging fits)
  case move =>
    intro s gid ready
    refine ⟨fun a h => runGroup_atomic gid ready h, fun h e => runGroup_entering gid ready h e,
      fun idle inside => ⟨?bad, ?illegal, ?decoded⟩⟩
    case bad => exact fun t s1 h => runGroup_fetch_bad gid ready idle inside h
    case illegal => exact fun w s1 bit h d => runGroup_illegal gid ready idle inside h d
    case decoded =>
      intro w s1 i h d
      exact ⟨fun clean => runGroup_runs gid ready idle inside h d (predPoison_of_clean clean),
        fun marked => runGroup_poison gid ready idle inside h d (predPoison_of_marked marked)⟩

end

/-! # Integer, bit and lane operations of vectors (R132 to R141, R157, R161 to R164)

An integer form writes each lane as its elements joined; reading an element of such a lane gives that element back, so a statement about
elements follows from the equation of one element. -/
namespace Sys2Proof.Machine

/-! ## Elements of a lane (R132) -/

theorem tyBits_pos (t : BitVec 4) : 0 < tyBits t := by
  revert t
  decide

theorem elemOf_lt (t : BitVec 4) (x e : Nat) : elemOf t x e < 2 ^ tyBits t := Nat.mod_lt _ (Nat.two_pow_pos _)

/-- Reading element e of joined elements gives that element, when each fits its width. -/
theorem natBits_joinElems {w e : Nat} {xs : List Nat} (fits : ∀ x ∈ xs, x < 2 ^ w) (he : e < xs.length) :
    natBits (joinElems w xs) (w * e) w = xs[e] := by
  induction xs generalizing e with
  | nil => exact absurd he (Nat.not_lt_zero e)
  | cons x xs ih =>
    have hx : x < 2 ^ w := fits x List.mem_cons_self
    cases e with
    | zero => rw [natBits, joinElems, Nat.mul_zero, pow_zero, Nat.div_one, Nat.add_mul_mod_self_left, Nat.mod_eq_of_lt hx, List.getElem_cons_zero]
    | succ e =>
      have drop : (x + 2 ^ w * joinElems w xs) / 2 ^ (w * (e + 1)) = joinElems w xs / 2 ^ (w * e) := by
        rw [show w * (e + 1) = w + w * e by ring, pow_add, ← Nat.div_div_eq_div_mul, Nat.add_mul_div_left _ _ (Nat.two_pow_pos w),
          Nat.div_eq_of_lt hx, Nat.zero_add]
      rw [natBits, joinElems, drop, List.getElem_cons_succ]
      exact ih (fun y hy => fits y (List.mem_cons_of_mem x hy)) (Nat.lt_of_succ_lt_succ he)

theorem elemOf_laneOf {t : BitVec 4} {el : Nat → LaneOut} (fits : ∀ e, (el e).val < 2 ^ tyBits t) {e : Nat} (he : e < elemN t) :
    elemOf t (laneOf t el).val e = (el e).val := by
  have fit : ∀ x ∈ ((List.range (elemN t)).map el).map (·.val), x < 2 ^ tyBits t := by
    simp only [List.map_map, List.forall_mem_map]
    exact fun e _ => fits e
  exact (natBits_joinElems fit (by simpa using he)).trans (by simp)

theorem laneOf_exc {t : BitVec 4} {el : Nat → LaneOut} (h : ∀ e, (el e).exc = 0) : (laneOf t el).exc = 0 := by
  have zero (l : List LaneOut) (hl : ∀ o ∈ l, o.exc = 0) : l.foldl (fun x o => x ||| o.exc) 0 = 0 := by
    induction l with
    | nil => rfl
    | cons o r ih =>
      rw [List.foldl_cons, hl o List.mem_cons_self]
      exact ih fun o ho => hl o (List.mem_cons_of_mem _ ho)
  exact zero _ (by simpa using fun e _ => h e)

/-! ## Vector instructions without exceptions (R105, R131, R133) -/

/-- With an active lane, clean sources and no exception, a vector instruction writes its lanes and retires. -/
theorem runs_of_vectorOp {i : Instr} {s : State} {m : W32} {reads : List Item} {d : Byte} {wide : Bool} {out : Nat → LaneOut}
    (runs : exec i s = settle (vectorOp s m reads d wide out)) (hm : m ≠ 0) (hc : s.Clean reads) (exc : ∀ k, (out k).exc = 0) :
    Runs i s ((s.setV wide d m fun k => (out k).val).orSat (anyLane m fun k => (out k).sat)).retire := by
  simp only [vectorOp_of_clean hm hc, exc, orLanes_zero, State.orF_zero] at runs
  exact runs_of_fpEnds (FpEnds.of_exec runs)

/-- What lane k comes to when el makes each element of those of A, B and C. -/
def elementLane (f : V3) (s : State) (el : Nat → Nat → Nat → LaneOut) (k : Nat) : LaneOut :=
  laneOf f.ty fun e => el (elemOf f.ty (s.g.lane f.ty f.a k) e) (elemOf f.ty (s.g.lane f.ty f.b k) e) (elemOf f.ty (s.g.lane f.ty f.c k) e)

theorem elemOf_elementLane {f : V3} {s : State} {el : Nat → Nat → Nat → LaneOut} (fits : ∀ a b c, (el a b c).val < 2 ^ tyBits f.ty) (k : Nat)
    {e : Nat} (he : e < elemN f.ty) : elemOf f.ty (elementLane f s el k).val e =
      (el (elemOf f.ty (s.g.lane f.ty f.a k) e) (elemOf f.ty (s.g.lane f.ty f.b k) e) (elemOf f.ty (s.g.lane f.ty f.c k) e)).val :=
  elemOf_laneOf (fun _ => fits _ _ _) he

/-- The registers an integer form reads: useB and useC say whether B and C are among them. -/
def sourceRegs (useB useC : Bool) (f : V3) : List Byte := f.a :: ((if useB then [f.b] else []) ++ if useC then [f.c] else [])

theorem intVector_runs {i : Instr} {f : V3} {s : State} {el : Nat → Nat → Nat → LaneOut} {useB useC : Bool}
    (runs : exec i s = intVector s f useB useC el) (hm : v3mask f s.g ≠ 0) (hc : s.Clean (vectorSources f s (sourceRegs useB useC f)))
    (exc : ∀ a b c, (el a b c).exc = 0) (unusedB : useB = false → ∀ a b b' c, el a b c = el a b' c)
    (unusedC : useC = false → ∀ a b c c', el a b c = el a b c') :
    Runs i s ((s.setV (is64 f.ty) f.d (v3mask f s.g) fun k => (elementLane f s el k).val).orSat
      (anyLane (v3mask f s.g) fun k => (elementLane f s el k).sat)).retire := by
  have used (k e : Nat) : el (elemOf f.ty (s.g.lane f.ty f.a k) e) (elemOf f.ty (if useB then s.g.lane f.ty f.b k else 0) e)
      (elemOf f.ty (if useC then s.g.lane f.ty f.c k else 0) e) =
      el (elemOf f.ty (s.g.lane f.ty f.a k) e) (elemOf f.ty (s.g.lane f.ty f.b k) e) (elemOf f.ty (s.g.lane f.ty f.c k) e) := by
    cases useB with
    | true => cases useC with
      | true => rfl
      | false => exact unusedC rfl _ _ _ _
    | false => cases useC with
      | true => exact unusedB rfl _ _ _ _
      | false => exact (unusedB rfl _ _ _ _).trans (unusedC rfl _ _ _ _)
  have clean : s.Clean (s.g.vitems (is64 f.ty) (v3mask f s.g) f.a ++ (if useB then s.g.vitems (is64 f.ty) (v3mask f s.g) f.b else []) ++
      (if useC then s.g.vitems (is64 f.ty) (v3mask f s.g) f.c else [])) := by
    cases useB <;> cases useC <;> simpa [vectorSources, sourceRegs] using hc
  simp only [intVector, used] at runs
  exact runs_of_vectorOp runs hm clean fun k => laneOf_exc fun e => exc _ _ _

/-! ## Integer element arithmetic (R133, R136, R137) -/

theorem intLo_le_intHi (signed : Bool) (w : Nat) : intLo signed w ≤ intHi signed w := by
  have pos (n : Nat) : (0 : Int) < 2 ^ n := by positivity
  have h := pos (w - 1)
  have k := pos w
  cases signed <;> simp only [intLo, intHi, Bool.false_eq_true, if_false, if_true] <;> omega

/-- One integer element in closed form: the exact result, under SAT the nearest bound, narrowed. -/
theorem intElem_eq (t : BitVec 4) (sat : Bool) (x : Int) :
    let lo := intLo (isSigned t) (tyBits t)
    let hi := intHi (isSigned t) (tyBits t)
    intElem t sat x = { val := ((if sat then max lo (min hi x) else x) % 2 ^ tyBits t).toNat
                        sat := sat && (decide (x < lo) || decide (hi < x)) } := by
  intro lo hi
  rw [intElem, clamp_eq (intLo_le_intHi _ _)]
  cases sat <;> rfl

theorem intElem_val (t : BitVec 4) (sat : Bool) (x : Int) :
    ((intElem t sat x).val : Int) =
      (if sat then max (intLo (isSigned t) (tyBits t)) (min (intHi (isSigned t) (tyBits t)) x) else x) % 2 ^ tyBits t := by
  rw [intElem_eq]
  exact Int.toNat_of_nonneg (Int.emod_nonneg _ (by positivity))

theorem intElem_val_lt (t : BitVec 4) (sat : Bool) (x : Int) : (intElem t sat x).val < 2 ^ tyBits t := by
  have h := Int.emod_lt_of_pos (if sat then max (intLo (isSigned t) (tyBits t)) (min (intHi (isSigned t) (tyBits t)) x) else x)
    (show (0 : Int) < 2 ^ tyBits t by positivity)
  rw [← intElem_val] at h
  exact_mod_cast h

/-- The element of an instruction whose exact result r is a function of the typed elements. -/
def intElement (f : V3) (r : Int → Int → Int → Int) (a b c : Nat) : LaneOut :=
  intElem f.ty (f.sat == 1) (r (elemInt f.ty a) (elemInt f.ty b) (elemInt f.ty c))

/-- An instruction whose element is an exact integer of the typed elements is one of ElementResult. -/
theorem ElementResult.of_intOp {i : V3 → Instr} {r : V3 → Int → Int → Int → Int} (useB useC : Bool)
    (runs : ∀ f s, exec (i f) s = intOp s f useB useC (r f))
    (unusedB : useB = false → ∀ f a b b' c, r f a b c = r f a b' c)
    (unusedC : useC = false → ∀ f a b c c', r f a b c = r f a b c') : ElementResult i (sourceRegs useB useC) r := by
  intro f s hm hc el x lo hi
  have ends := intVector_runs (el := intElement f (r f)) (runs f s) hm hc (fun _ _ _ => by rw [intElement, intElem_eq])
    (fun h _ _ _ _ => congrArg (intElem f.ty _) (unusedB h f _ _ _ _)) (fun h _ _ _ _ => congrArg (intElem f.ty _) (unusedC h f _ _ _ _))
  refine ⟨fun k => (elementLane f s (intElement f (r f)) k).val, ?runs, fun k _ _ e he => ?value⟩
  case runs =>
    have sat : (anyLane (v3mask f s.g) fun k => (elementLane f s (intElement f (r f)) k).sat) =
        (f.sat == 1 && (List.range 32).any fun k => (v3mask f s.g).getLsbD k &&
          (List.range (elemN f.ty)).any fun e => decide (x k e < lo) || decide (hi < x k e)) := by
      simp only [anyLane_eq, elementLane, laneOf, intElement, intElem_eq, List.any_map, Function.comp_def]
      cases f.sat == 1 with
      | false => simp
      | true => simp only [Bool.true_and]; rfl
    rw [← sat]
    exact ends
  case value =>
    refine (congrArg Nat.cast (elemOf_elementLane (fun _ _ _ => intElem_val_lt _ _ _) k he)).trans ?_
    refine (intElem_val ..).trans ?_
    simp only [beq_iff_eq]
    rfl

theorem ElementResult.of_binary {i : V3 → Instr} {r : V3 → Int → Int → Int}
    (runs : ∀ f s, exec (i f) s = intOp s f true false fun a b _ => r f a b) :
    ElementResult i (fun f => [f.a, f.b]) fun f a b _ => r f a b :=
  .of_intOp true false runs (fun h => nomatch h) fun _ _ _ _ _ _ => rfl

theorem ElementResult.of_unary {i : V3 → Instr} {r : V3 → Int → Int} (runs : ∀ f s, exec (i f) s = intOp s f false false fun a _ _ => r f a) :
    ElementResult i (fun f => [f.a]) fun f a _ _ => r f a :=
  .of_intOp false false runs (fun _ _ _ _ _ _ => rfl) fun _ _ _ _ _ _ => rfl

/-! ## Element logic, shifts and counts (R136) -/

/-- The element of an instruction that makes q of the raw bits of two elements and narrows it. -/
def bitsElement (f : V3) (q : Nat → Nat → Nat → Nat) (a b _c : Nat) : LaneOut := { val := q (tyBits f.ty) a b % 2 ^ tyBits f.ty }

/-- An instruction on the raw bits of elements is one of BitsResult, when what the model narrows is r. -/
theorem BitsResult.of_bitsOp {i : V3 → Instr} {q r : Nat → Nat → Nat → Nat} (useB : Bool)
    (runs : ∀ f s, exec (i f) s = bitsOp s f useB q) (unusedB : useB = false → ∀ w a b b', q w a b = q w a b')
    (value : ∀ w a b, 0 < w → a < 2 ^ w → b < 2 ^ w → q w a b % 2 ^ w = r w a b) : BitsResult i (sourceRegs useB false) r := by
  intro f s hm hc
  have ends := intVector_runs (el := bitsElement f q) (runs f s) hm hc (fun _ _ _ => rfl)
    (fun h a b b' _ => by rw [bitsElement, unusedB h _ a b b', bitsElement]) (fun _ _ _ _ _ => rfl)
  refine ⟨fun k => (elementLane f s (bitsElement f q) k).val, ?runs, fun k _ _ e he => ?value⟩
  case runs =>
    have sat (k : Nat) : (elementLane f s (bitsElement f q) k).sat = false := by
      simp [elementLane, laneOf, bitsElement, List.any_map, Function.comp_def]
    simp only [sat, anyLane_false, State.orSat_false] at ends
    exact ends
  case value =>
    refine (elemOf_elementLane (fun _ _ _ => Nat.mod_lt _ (Nat.two_pow_pos _)) k he).trans ?_
    exact value _ _ _ (tyBits_pos _) (elemOf_lt _ _ _) (elemOf_lt _ _ _)

theorem BitsResult.of_binary {i : V3 → Instr} {q r : Nat → Nat → Nat → Nat} (runs : ∀ f s, exec (i f) s = bitsOp s f true q)
    (value : ∀ w a b, 0 < w → a < 2 ^ w → b < 2 ^ w → q w a b % 2 ^ w = r w a b) : BitsResult i (fun f => [f.a, f.b]) r :=
  .of_bitsOp true runs (fun h => nomatch h) value

theorem BitsResult.of_unary {i : V3 → Instr} {q r : Nat → Nat → Nat} (runs : ∀ f s, exec (i f) s = bitsOp s f false fun w a _ => q w a)
    (value : ∀ w a, a < 2 ^ w → q w a % 2 ^ w = r w a) : BitsResult i (fun f => [f.a]) fun w a _ => r w a :=
  .of_bitsOp false runs (fun _ _ _ _ _ => rfl) fun w a _ _ ha _ => value w a ha

/-- A negative number above -n wraps to what n more gives. -/
theorem natCast_sub_emod {x y n : Nat} (h : x < y) (hy : y ≤ n) : ((x : Int) - y) % n = (x + (n - y) : Nat) := by
  rw [← Int.add_emod_right, Int.emod_eq_of_lt] <;> omega

/-- The arithmetic shift right by k of a as a signed number of w bits, narrowed to w bits. -/
def shiftRightSigned (w a k : Nat) : Nat := ((if a ≥ 2 ^ (w - 1) then (a : Int) - 2 ^ w else a) / 2 ^ k % 2 ^ w).toNat

/-- An arithmetic shift, in natural numbers: the quotient, with ones above it when the top bit of a is 1. -/
theorem shiftRightSigned_eq {w a k : Nat} (ha : a < 2 ^ w) (hk : k < w) :
    shiftRightSigned w a k = a / 2 ^ k + if a < 2 ^ (w - 1) then 0 else 2 ^ w - 2 ^ (w - k) := by
  have split : 2 ^ w = 2 ^ (w - k) * 2 ^ k := by rw [← pow_add, Nat.sub_add_cancel hk.le]
  have quotient : a / 2 ^ k < 2 ^ (w - k) := Nat.div_lt_of_lt_mul (by rwa [Nat.mul_comm, ← split])
  have le : 2 ^ (w - k) ≤ 2 ^ w := Nat.pow_le_pow_right (by decide) (Nat.sub_le w k)
  rw [shiftRightSigned]
  by_cases neg : a < 2 ^ (w - 1)
  · rw [if_neg (Nat.not_le.2 neg), if_pos neg, Nat.add_zero]
    have cast : (a : Int) / 2 ^ k % 2 ^ w = ((a / 2 ^ k % 2 ^ w : Nat) : Int) := by push_cast; rfl
    rw [cast, Int.toNat_natCast, Nat.mod_eq_of_lt (quotient.trans_le le)]
  · rw [if_pos (Nat.not_lt.1 neg), if_neg neg]
    have shifted : ((a : Int) - 2 ^ w) / 2 ^ k = (a / 2 ^ k : Nat) - (2 ^ (w - k) : Nat) := by
      have : (a : Int) - 2 ^ w = a + -(2 ^ (w - k) : Nat) * 2 ^ k := by
        rw [show (2 : Int) ^ w = (2 ^ w : Nat) by push_cast; rfl, split]; push_cast; ring
      rw [this, Int.add_mul_ediv_right _ _ (by positivity)]
      push_cast; ring
    have wrapped := natCast_sub_emod quotient le
    rw [shifted, ← Int.toNat_natCast (a / 2 ^ k + _), ← wrapped]
    push_cast
    rfl

theorem shiftRightSigned_lt (w a k : Nat) : shiftRightSigned w a k < 2 ^ w := by
  rw [shiftRightSigned, Int.toNat_lt (Int.emod_nonneg _ (by positivity))]
  exact_mod_cast Int.emod_lt_of_pos _ (show (0 : Int) < 2 ^ w by positivity)

theorem clz_le (w x : Nat) : clz w x ≤ w := by
  unfold clz
  split_ifs <;> omega

/-- The count of ones, over the bit numbers. -/
theorem popCount_eq (w x : Nat) : popCount w x = ((List.range w).filter fun k => x.testBit k).length := by
  induction w generalizing x with
  | zero => rfl
  | succ w ih =>
    rw [popCount, ih, List.range_succ_eq_map, List.filter_cons, List.filter_map, Nat.testBit_zero]
    simp only [Function.comp_def, Nat.succ_eq_add_one, Nat.testBit_add_one]
    rcases Nat.mod_two_eq_zero_or_one x with h | h <;> simp [h, Nat.add_comm]

theorem popCount_le (w x : Nat) : popCount w x ≤ w := by
  rw [popCount_eq]
  exact (List.length_filter_le ..).trans_eq List.length_range

/-- The bits in reverse order, over the bit numbers. -/
theorem bitRev_eq (w x : Nat) : bitRev w x = ((List.range w).map fun k => if x.testBit k then 2 ^ (w - 1 - k) else 0).sum := by
  induction w generalizing x with
  | zero => rfl
  | succ w ih =>
    have shift (k : Nat) : w + 1 - 1 - (k + 1) = w - 1 - k := by omega
    rw [bitRev, ih, List.range_succ_eq_map, List.map_cons, List.map_map, List.sum_cons, Nat.testBit_zero]
    simp only [Function.comp_def, Nat.succ_eq_add_one, Nat.testBit_add_one, shift]
    rcases Nat.mod_two_eq_zero_or_one x with h | h <;> simp [h]

theorem bitRev_lt (w x : Nat) : bitRev w x < 2 ^ w := by
  induction w generalizing x with
  | zero => exact Nat.one_pos
  | succ w ih =>
    have h := ih (x / 2)
    rw [bitRev, pow_succ]
    rcases Nat.mod_two_eq_zero_or_one x with p | p <;> rw [p] <;> omega

end Sys2Proof.Machine

section
open Sys2Proof Sys2Proof.Machine

/-- Settles O20: each instruction's element is an exact integer of the typed elements, clamped or narrowed by `intElem`. -/
theorem vectorIntegers : Obligations.VectorIntegers := by
  unfold Obligations.VectorIntegers
  refine ⟨?vadd, ?vsub, ?vmul, ?vmulh, ?vmad, ?vmin, ?vmax, ?vabs, ?vneg⟩
  case vadd => exact .of_binary fun _ _ => rfl
  case vsub => exact .of_binary fun _ _ => rfl
  case vmul => exact .of_binary fun _ _ => rfl
  case vmulh =>
    have high (f : V3) (a b : Int) : (a * b).fdiv (2 ^ tyBits f.ty) = a * b / 2 ^ tyBits f.ty :=
      Int.fdiv_eq_ediv_of_nonneg _ (by positivity)
    simp only [high]
    exact .of_binary fun _ _ => rfl
  case vmad => exact .of_intOp true true (fun _ _ => rfl) (fun h => nomatch h) fun h => nomatch h
  case vmin =>
    simp only [← min_def]
    exact .of_binary fun _ _ => rfl
  case vmax =>
    simp only [← max_def]
    exact .of_binary fun _ _ => rfl
  case vabs =>
    simp only [Int.abs_eq_natAbs]
    exact .of_unary fun _ _ => rfl
  case vneg => exact .of_unary fun _ _ => rfl

/-- Settles O21: what each instruction makes of two elements fits their width, or is narrowed to it; shifts, counts and the reversal
by their equations over the bit numbers. -/
theorem vectorBits : Obligations.VectorBits := by
  unfold Obligations.VectorBits
  refine ⟨?vand, ?vor, ?vxor, ?vandn, ?vnot, ?vshl, ?vshr, ?vsra, ?vclz, ?vpop, ?vbrev⟩
  case vand =>
    exact .of_binary (q := fun _ a b => a &&& b) (fun _ _ => rfl) fun w a b _ _ hb => Nat.mod_eq_of_lt (Nat.and_lt_two_pow a hb)
  case vor =>
    exact .of_binary (q := fun _ a b => a ||| b) (fun _ _ => rfl) fun w a b _ ha hb => Nat.mod_eq_of_lt (Nat.or_lt_two_pow ha hb)
  case vxor =>
    exact .of_binary (q := fun _ a b => a ^^^ b) (fun _ _ => rfl) fun w a b _ ha hb => Nat.mod_eq_of_lt (Nat.xor_lt_two_pow ha hb)
  case vandn =>
    exact .of_binary (q := fun w a b => a &&& (2 ^ w - 1 - b)) (fun _ _ => rfl) fun w a b _ ha hb =>
      Nat.mod_eq_of_lt (Nat.and_lt_two_pow a (by omega))
  case vnot => exact .of_unary (q := fun w a => 2 ^ w - 1 - a) (fun _ _ => rfl) fun w a ha => Nat.mod_eq_of_lt (by omega)
  case vshl => exact .of_binary (q := fun w a b => a * 2 ^ (b % w)) (fun _ _ => rfl) fun w a b _ _ _ => rfl
  case vshr =>
    exact .of_binary (q := fun w a b => a / 2 ^ (b % w)) (fun _ _ => rfl) fun w a b _ ha _ =>
      Nat.mod_eq_of_lt ((Nat.div_le_self _ _).trans_lt ha)
  case vsra =>
    refine .of_binary (q := fun w a b => shiftRightSigned w a (b % w)) (fun _ _ => rfl) fun w a b hw ha _ => ?_
    rw [Nat.mod_eq_of_lt (shiftRightSigned_lt ..), shiftRightSigned_eq ha (Nat.mod_lt b hw)]
  case vclz => exact .of_unary (q := clz) (fun _ _ => rfl) fun w a _ => Nat.mod_eq_of_lt ((clz_le w a).trans_lt Nat.lt_two_pow_self)
  case vpop =>
    refine .of_unary (q := popCount) (fun _ _ => rfl) fun w a _ => ?_
    rw [Nat.mod_eq_of_lt ((popCount_le w a).trans_lt Nat.lt_two_pow_self), popCount_eq]
  case vbrev =>
    refine .of_unary (q := bitRev) (fun _ _ => rfl) fun w a _ => ?_
    rw [Nat.mod_eq_of_lt (bitRev_lt w a), bitRev_eq]

end

namespace Sys2Proof.Machine

/-! ## Moves and immediates (R139 to R141) -/

/-- With an active lane, clean sources and neither an exception nor a clamp, a vector instruction writes val in its lanes and retires. -/
theorem runs_of_lanes {i : Instr} {s : State} {m : W32} {reads : List Item} {d : Byte} {wide : Bool} {val : Nat → Nat}
    (runs : exec i s = settle (vectorOp s m reads d wide fun k => { val := val k })) (hm : m ≠ 0) (hc : s.Clean reads) :
    Runs i s (s.setV wide d m val).retire := by
  have ends := runs_of_vectorOp runs hm hc fun _ => rfl
  rwa [anyLane_false, State.orSat_false] at ends

theorem is64_of_isFl {t : BitVec 4} : isFl t = true → is64 t = false := by
  revert t
  decide

/-- vmov changes only sign bits, and those of floating-point elements (R139). -/
theorem modLane_eq (f : V3) (s : State) (k : Nat) : modLane f.ty f.md 0 (s.g.lane f.ty f.a k) =
    if isFl f.ty then joinElems (tyBits f.ty) ((List.range (elemN f.ty)).map fun e => fpElem f s 0 f.a k e) else s.g.lane f.ty f.a k := by
  unfold modLane
  split_ifs with h
  · simp only [Group.lane, is64_of_isFl h, Bool.false_eq_true, if_false]
    rfl
  · rfl

theorem vlaneGet_runs {f : V3} {s : State} (hm : v3mask f s.g ≠ 0)
    (hc : s.Clean [s.g.sitem (snum f.b), s.g.vitem f.a ((s.g.sget (snum f.b)).toNat % 32)]) : Runs (.vlaneGet f) s
      (s.setS (snum f.d) ((s.g.vget f.a ((s.g.sget (snum f.b)).toNat % 32)).setWidth 64)).retire :=
  congrArg settle (active_of_clean hm hc _)

theorem vlanePut_runs {f : V3} {s : State} (hm : v3mask f s.g ≠ 0)
    (hc : s.Clean (s.g.sitem (snum f.b) :: if (v3mask f s.g).getLsbD ((s.g.sget (snum f.b)).toNat % 32) then [s.g.sitem (snum f.a)] else [])) :
    Runs (.vlanePut f) s (s.setV false f.d (v3mask f s.g &&& BitVec.twoPow 32 ((s.g.sget (snum f.b)).toNat % 32))
      fun _ => (s.g.sget (snum f.a)).toNat).retire :=
  congrArg settle (active_of_clean hm hc _)

/-- What lane k of vaddImm comes to: the elements of A and of the immediate, added modulo their width (R141). -/
def addImmLane (f : VI) (s : State) (k : Nat) : LaneOut :=
  laneOf f.ty fun e => { val := (elemOf f.ty (s.g.vget f.a k).toNat e + elemOf f.ty f.imm.toNat e) % 2 ^ tyBits f.ty }

theorem vaddImm_runs {f : VI} {s : State} (hm : viMask f s.g ≠ 0) (hc : s.Clean (s.g.vitems false (viMask f s.g) f.a)) :
    Runs (.vaddImm f) s (s.setV false f.d (viMask f s.g) fun k => (addImmLane f s k).val).retire := by
  have ends := runs_of_vectorOp (i := .vaddImm f) (out := addImmLane f s) rfl hm hc fun k => laneOf_exc fun _ => rfl
  have sat (k : Nat) : (addImmLane f s k).sat = false := by simp [addImmLane, laneOf, List.any_map, Function.comp_def]
  simpa only [sat, anyLane_false, State.orSat_false] using ends

end Sys2Proof.Machine

section
open Sys2Proof Sys2Proof.Machine

/-- Settles O23: the moves and immediates have the form of R133 without exceptions; the single lanes have a check of their own. -/
theorem vectorMoves : Obligations.VectorMoves := by
  unfold Obligations.VectorMoves
  refine ⟨?vmov, ?vsel, ?vbcast, ?vlane, ?vlaneGet, ?vlanePut, ?vli, ?vandImm, ?vaddImm⟩
  case vmov =>
    simp only [← modLane_eq]
    refine .of_vectorOp fun f s => ?_
    rw [show vectorSources f s [f.a] = s.g.vitems (is64 f.ty) (v3mask f s.g) f.a from List.append_nil _]
    rfl
  case vsel => exact .of_vectorOp fun _ _ => rfl
  case vbcast => exact .of_vectorOp fun _ _ => rfl
  case vlane => exact .of_vectorOp fun _ _ => rfl
  case vlaneGet => exact fun f s hm => vlaneGet_runs hm
  case vlanePut => exact fun f s hm hc => vlanePut_runs hm hc
  case vli => exact fun f s hm => runs_of_lanes (i := .vli f) rfl hm s.clean_nil
  case vandImm => exact fun f s hm hc => runs_of_lanes (i := .vandImm f) rfl hm hc
  case vaddImm =>
    intro f s _ hm hc
    exact ⟨_, vaddImm_runs hm hc, fun k _ _ e he => elemOf_laneOf (fun _ => Nat.mod_lt _ (Nat.two_pow_pos _)) he⟩

end

namespace Sys2Proof.Machine

/-! ## Lane movement (R157, R161, R162) -/

theorem getLsbD_maskOfList (l : List Nat) (k : Nat) : (maskOfList l).getLsbD k = (decide (k < 32) && decide (k ∈ l)) := by
  have h := getLsbD_foldl_twoPow (fun _ => true) k l 0
  simpa [maskOfList] using h

theorem nodup_activeLanes (m : W32) : (activeLanes m).Nodup := List.nodup_range.filter _

/-! Pairing stops with the shorter list. -/
theorem lanePairs_dst (ds ss : List Nat) : (lanePairs ds ss).map (·.1) = ds.take ss.length := by
  induction ds generalizing ss with
  | nil => cases ss <;> rfl
  | cons d ds ih =>
    cases ss with
    | nil => rfl
    | cons c ss => simp [lanePairs, ih]

theorem lanePairs_src (ds ss : List Nat) : (lanePairs ds ss).map (·.2) = ss.take ds.length := by
  induction ds generalizing ss with
  | nil => cases ss <;> rfl
  | cons d ds ih =>
    cases ss with
    | nil => rfl
    | cons c ss => simp [lanePairs, ih]

/-- A destination lane is found with the source lane at its place. -/
theorem find?_lanePairs {ds ss : List Nat} (distinct : ds.Nodup) {j d c : Nat} (hd : ds[j]? = some d) (hs : ss[j]? = some c) :
    (lanePairs ds ss).find? (·.1 = d) = some (d, c) := by
  induction ds generalizing ss j with
  | nil => simp at hd
  | cons d' ds ih =>
    obtain ⟨fresh, distinct⟩ := List.nodup_cons.1 distinct
    cases ss with
    | nil => simp at hs
    | cons c' ss =>
      cases j with
      | zero =>
        obtain rfl : d' = d := by simpa using hd
        obtain rfl : c' = c := by simpa using hs
        simp [lanePairs]
      | succ j =>
        have other : d' ≠ d := fun e => fresh (e ▸ List.mem_of_getElem? (by simpa using hd))
        rw [lanePairs, List.find?_cons_of_neg (by simpa using other)]
        exact ih distinct (by simpa using hd) (by simpa using hs)

/-- The form of vcompress and vexpand: the active lanes, in ascending order, take the lanes of src, pairwise. -/
theorem pairedMove_runs {i : Instr} {f : V3} {s : State} {more : List Item} {src : List Nat} (hm : v3mask f s.g ≠ 0)
    (runs : exec i s = settle (pairedMove s f more (lanePairs (activeLanes (v3mask f s.g)) src)))
    (hc : s.Clean (more ++ s.g.vitems (is64 f.ty) (maskOfList (src.take (activeLanes (v3mask f s.g)).length)) f.a)) :
    let dst := activeLanes (v3mask f s.g)
    ∃ t : State, Runs i s t ∧ ∃ (w : W32) (val : Nat → Nat), t = (s.setV (is64 f.ty) f.d w val).retire ∧
      (∀ k < 32, w.getLsbD k = true ↔ k ∈ dst.take src.length) ∧
      ∀ (j d c : Nat), dst[j]? = some d → src[j]? = some c → val d = s.g.lane f.ty f.a c := by
  rw [← lanePairs_src] at hc
  refine ⟨_, runs.trans (congrArg settle (active_of_clean hm hc _)), _, _, rfl, fun k hk => ?written, fun j d c hd hs => ?moved⟩
  case written => rw [lanePairs_dst, getLsbD_maskOfList]; simp [hk]
  case moved => rw [find?_lanePairs (nodup_activeLanes _) hd hs]; rfl

end Sys2Proof.Machine

section
open Sys2Proof Sys2Proof.Machine

/-- Settles O28: shuffles and rotation have the form of R133; compression and expansion pair the lanes of two lists, the destinations
distinct. -/
theorem laneMovement : Obligations.LaneMovement := by
  unfold Obligations.LaneMovement
  refine ⟨?vshfl, ?vshflXor, ?vrot, ?pairwise⟩
  case vshfl => exact .of_vectorOp fun _ _ => rfl
  case vshflXor => exact .of_vectorOp fun _ _ => rfl
  case vrot => exact .of_vectorOp fun _ _ => rfl
  case pairwise =>
    intro f s hm dst moves chosen
    exact ⟨fun hc => pairedMove_runs (i := .vcompress f) hm rfl hc, fun hc => pairedMove_runs (i := .vexpand f) (more := []) hm rfl hc⟩

end

namespace Sys2Proof

/-! ## The words of predicate logic and pset (R91, R163, R164) -/

theorem firstBad_eq_none_iff {l : List (Nat × Bool)} : firstBad l = none ↔ ∀ c ∈ l, c.2 = true := by
  refine ⟨firstBad_eq_none, fun h => ?_⟩
  induction l with
  | nil => rfl
  | cons c r ih =>
    obtain ⟨b, ok⟩ := c
    obtain rfl : ok = true := h (b, ok) List.mem_cons_self
    exact ih fun c hc => h c (List.mem_cons_of_mem _ hc)

theorem beq_iff_toNat {n k : Nat} {x : BitVec n} (hk : k < 2 ^ n) : (x == BitVec.ofNat n k) = true ↔ x.toNat = k := by
  rw [beq_iff_eq, ← BitVec.toNat_inj, BitVec.toNat_ofNat, Nat.mod_eq_of_lt hk]

/-- A field of eight bits names a predicate when its upper four bits are 0 (R66). -/
theorem isP_field (w : W64) (lo : Nat) : isP (w.extractLsb' lo 8) = true ↔ (w.extractLsb' (lo + 4) 4).toNat = 0 := by
  simp only [isP, BitVec.extractLsb'_toNat, Nat.shiftRight_add, Nat.shiftRight_eq_div_pow _ 4, decide_eq_true_eq]
  omega

theorem isP_of_z8 {x : Byte} (h : z8 x = true) : isP x = true := by
  rw [beq_iff_eq.1 h]
  rfl

/-- The instruction that a word of opcode 0x5C selects by its SUB. -/
def predicateLogicOf (w : W64) : Instr :=
  let f := V3.ofWord w
  let sub := (w.extractLsb' 0 5).toNat
  if sub = 0 then .pand f else if sub = 1 then .por f else if sub = 2 then .pxor f else .pnot f

theorem select_predicateLogic {w : W64} (op : (w.extractLsb' 56 8).toNat = 0x5C) :
    select w = if (w.extractLsb' 0 5).toNat < 4 then .ok (predicateLogicOf w) else .error 0 := by
  rw [select, op]
  unfold predicateLogicOf
  rcases (w.extractLsb' 0 5).toNat with _ | _ | _ | _ | n <;> rfl

theorem select_pset {w : W64} (op : (w.extractLsb' 56 8).toNat = 0x5D) : select w = .ok (.pset (.ofWord w)) := by
  rw [select, op]
  rfl

/-- The checks of a word of predicate logic that hold for each SUB, where b checks B. -/
theorem chkV3_predicates (w : W64) (b : Bool) :
    let f := V3.ofWord w
    let n (lo k : Nat) : Nat := (w.extractLsb' lo k).toNat
    firstBad (chkV3 f false (isP f.d) (isP f.a) b (z8 f.c) (f.ty == 0) (f.rnd == 0) (f.sat == 0) (f.md == 0) true) = none ↔
      n 52 4 = 0 ∧ n 51 1 = 0 ∧ n 47 4 = 0 ∧ n 39 4 = 0 ∧ b = true ∧ n 19 8 = 0 ∧ n 15 4 = 0 ∧ n 12 3 = 0 ∧ n 11 1 = 0 ∧ n 5 6 = 0 := by
  have zero {k : Nat} (x : BitVec k) : (x == 0) = true ↔ x.toNat = 0 := beq_iff_toNat (Nat.two_pow_pos k)
  simp only [firstBad_eq_none_iff, chkV3, List.forall_mem_cons, List.not_mem_nil, V3.ofWord, z8, isP_field, zero, Bool.false_or,
    false_imp_iff, implies_true, and_true]

/-- The instruction that SUB selects passes the check of SUB; pnot, SUB = 3, has no B. -/
theorem badField_predicateLogicOf_eq {w : W64} (h : (w.extractLsb' 0 5).toNat < 4) :
    let f := V3.ofWord w
    (predicateLogicOf w).badField = firstBad (chkV3 f false (isP f.d) (isP f.a) (if (w.extractLsb' 0 5).toNat = 3 then z8 f.b else isP f.b)
      (z8 f.c) (f.ty == 0) (f.rnd == 0) (f.sat == 0) (f.md == 0) true) := by
  have sub : (V3.ofWord w).sub = BitVec.ofNat 5 (w.extractLsb' 0 5).toNat := BitVec.eq_of_toNat_eq (by simp [V3.ofWord])
  unfold predicateLogicOf
  generalize (w.extractLsb' 0 5).toNat = k at h sub ⊢
  interval_cases k <;> simp [Instr.badField, sub]

theorem badField_predicateLogicOf {w : W64} (h : (w.extractLsb' 0 5).toNat < 4) :
    let n (lo k : Nat) : Nat := (w.extractLsb' lo k).toNat
    (predicateLogicOf w).badField = none ↔ n 52 4 = 0 ∧ n 51 1 = 0 ∧ n 47 4 = 0 ∧ n 39 4 = 0 ∧ n 31 4 = 0 ∧ n 19 8 = 0 ∧ n 15 4 = 0 ∧
      n 12 3 = 0 ∧ n 11 1 = 0 ∧ n 5 6 = 0 ∧ (n 0 5 = 3 → n 27 8 = 0) := by
  intro n
  have named : isP (V3.ofWord w).b = true ↔ n 31 4 = 0 := isP_field w 27
  have zero : z8 (V3.ofWord w).b = true ↔ n 27 8 = 0 := beq_iff_toNat (by decide)
  have upper : n 27 8 = 0 → n 31 4 = 0 := fun h => named.1 (isP_of_z8 (zero.2 h))
  rw [badField_predicateLogicOf_eq h]
  refine (chkV3_predicates w _).trans ?_
  by_cases pnot : n 0 5 = 3
  · rw [if_pos pnot, zero]
    tauto
  · rw [if_neg pnot, named]
    tauto

theorem decode_predicateLogic {w : W64} {i : Instr} (op : (w.extractLsb' 56 8).toNat = 0x5C) :
    decode w = .ok i ↔ ((w.extractLsb' 0 5).toNat < 4 ∧ (predicateLogicOf w).badField = none) ∧ i = predicateLogicOf w := by
  rw [decode_eq_ok_iff, select_predicateLogic op]
  by_cases sub : (w.extractLsb' 0 5).toNat < 4
  · rw [if_pos sub, Except.ok.injEq]
    exact ⟨fun ⟨same, ok⟩ => ⟨⟨sub, same ▸ ok⟩, same.symm⟩, fun ⟨⟨_, ok⟩, same⟩ => ⟨same.symm, same ▸ ok⟩⟩
  · rw [if_neg sub]
    exact ⟨fun ⟨same, _⟩ => (nomatch same), fun ⟨⟨selected, _⟩, _⟩ => absurd selected sub⟩

theorem badField_pset {w : W64} :
    let n (lo k : Nat) : Nat := (w.extractLsb' lo k).toNat
    (Instr.pset (.ofWord w)).badField = none ↔ n 52 4 = 0 ∧ n 48 4 = 0 ∧ n 36 8 = 0 ∧ n 32 4 = 0 := by
  have zero {k : Nat} (x : BitVec k) : (x == 0) = true ↔ x.toNat = 0 := beq_iff_toNat (Nat.two_pow_pos k)
  simp only [Instr.badField, firstBad_eq_none_iff, chkVI, List.forall_mem_cons, List.not_mem_nil, VI.ofWord, z8, isP_field, zero,
    Bool.false_or, false_imp_iff, implies_true, and_true]

theorem decode_pset {w : W64} {i : Instr} (op : (w.extractLsb' 56 8).toNat = 0x5D) :
    decode w = .ok i ↔ (Instr.pset (.ofWord w)).badField = none ∧ i = .pset (.ofWord w) := by
  rw [decode_eq_ok_iff, select_pset op, Except.ok.injEq]
  exact ⟨fun ⟨same, ok⟩ => ⟨same ▸ ok, same.symm⟩, fun ⟨ok, same⟩ => ⟨same.symm, same ▸ ok⟩⟩

end Sys2Proof

namespace Sys2Proof.Machine

/-! ## Predicate logic (R163) -/

/-- Predicate logic does not look at the active mask: with clean sources it writes P[D] and retires. -/
theorem predOp_runs {i : Instr} {f : V3} {s : State} {op : W32 → W32 → W32} (runs : exec i s = predOp f s op)
    (hc : s.Clean (pitem (pnum f.a) ++ pitem (pnum f.b))) :
    Runs i s (s.setP (pnum f.d) (op (s.g.pget (pnum f.a)) (s.g.pget (pnum f.b)))).retire := by
  rw [predOp, readPoison_of_clean hc, orTrap_none] at runs
  exact runs

end Sys2Proof.Machine

section
open Sys2Proof Sys2Proof.Machine

/-- Settles O25: the results through the form of R163; the words by what each opcode selects and the checks of its fields. -/
theorem predicateLogic : Obligations.PredicateLogic := by
  unfold Obligations.PredicateLogic
  refine ⟨?logic, ?pnot, ?pset, ?p0, ?words, ?illegal⟩
  case logic =>
    exact fun f s hc => ⟨predOp_runs (i := .pand f) rfl hc, predOp_runs (i := .por f) rfl hc, predOp_runs (i := .pxor f) rfl hc⟩
  case pnot =>
    intro f s hb hc
    have unread : pitem (pnum f.b) = [] := by rw [hb]; rfl
    exact predOp_runs (i := .pnot f) (op := fun a _ => ~~~ a) rfl (by rwa [unread, List.append_nil])
  case pset => exact fun f s => rfl
  case p0 => exact fun s x => congrArg (fun g => { s with g := g }) (Group.pput_zero s.g x)
  case words =>
    intro w n
    refine ⟨fun op => ?logicWords, fun op => ?psetWords, fun i h => ⟨fun op => ((decode_predicateLogic op).1 h).2,
      fun op => ((decode_pset op).1 h).2⟩⟩
    case logicWords =>
      simp only [decode_predicateLogic op, exists_and_left, exists_eq, and_true]
      exact and_congr_right badField_predicateLogicOf
    case psetWords =>
      simp only [decode_pset op, exists_and_left, exists_eq, and_true]
      exact badField_pset
  case illegal =>
    exact fun s w s1 bit gid running inside idle fetched bad => runGroup_illegal gid (.inl running) idle inside fetched bad

end

namespace Sys2Proof.Machine

/-! # Accesses to memory (R165 to R186)

Two relations say what the memory operations leave alone. `State.Reads`: only the memory system and the choices between translations
change, as a translation changes them. `State.Caches`: only the memory system changes, and no byte of either memory, as a cache, an
ownership or a token changes. `State.Marks` adds to the first which bytes a translation writes: those that hold A and D of a leaf. -/

/-! ## What an access leaves alone -/

/-- t is s but for the memory system and the choices between translations. -/
def State.Reads (s t : State) : Prop := ∃ ms ch, t = { s with ms := ms, choices := ch }
/-- t is s but for what the memory system holds beside its bytes. -/
def State.Caches (s t : State) : Prop := ∃ ms, t = { s with ms := ms } ∧ ms.mem = s.ms.mem ∧ ms.backing = s.ms.backing

theorem State.Reads.refl (s : State) : s.Reads s := ⟨s.ms, s.choices, rfl⟩
theorem State.Reads.trans {s t u : State} (h : s.Reads t) (k : t.Reads u) : s.Reads u := by
  obtain ⟨ms, ch, rfl⟩ := h
  obtain ⟨ms', ch', rfl⟩ := k
  exact ⟨ms', ch', rfl⟩
theorem State.Reads.g {s t : State} (h : s.Reads t) : t.g = s.g := by obtain ⟨_, _, rfl⟩ := h; rfl
theorem State.Reads.pauses {s t : State} (h : s.Reads t) : t.pauses = s.pauses := by obtain ⟨_, _, rfl⟩ := h; rfl
theorem State.reads_ms (s : State) (ms : MemSys) : s.Reads { s with ms := ms } := ⟨ms, s.choices, rfl⟩

theorem State.Caches.refl (s : State) : s.Caches s := ⟨s.ms, rfl, rfl, rfl⟩
theorem State.Caches.trans {s t u : State} (h : s.Caches t) (k : t.Caches u) : s.Caches u := by
  obtain ⟨ms, rfl, m, b⟩ := h
  obtain ⟨ms', rfl, m', b'⟩ := k
  exact ⟨ms', rfl, m'.trans m, b'.trans b⟩
theorem State.Caches.reads {s t : State} (h : s.Caches t) : s.Reads t := by obtain ⟨ms, rfl, _, _⟩ := h; exact s.reads_ms ms
theorem State.Caches.mem {s t : State} (h : s.Caches t) : t.ms.mem = s.ms.mem := by obtain ⟨_, rfl, m, _⟩ := h; exact m
theorem State.Caches.backing {s t : State} (h : s.Caches t) : t.ms.backing = s.ms.backing := by obtain ⟨_, rfl, _, b⟩ := h; exact b
theorem State.Caches.g {s t : State} (h : s.Caches t) : t.g = s.g := h.reads.g
theorem State.Caches.others {s t : State} (h : s.Caches t) : t.others = s.others := by obtain ⟨_, rfl, _, _⟩ := h; rfl
theorem State.Caches.sameMemory {s t : State} (h : s.Caches t) : SameMemory s t := fun k => by rw [h.mem]
theorem State.Caches.wf {s t : State} (h : s.Caches t) (w : s.MemoryWf) : t.MemoryWf := by
  unfold State.MemoryWf
  rwa [h.mem, h.backing]
theorem State.Caches.ite {c : Prop} [Decidable c] {s t u : State} (ht : s.Caches t) (hu : s.Caches u) : s.Caches (if c then t else u) := by
  split
  · exact ht
  · exact hu
/-- Steps that each leave the bytes alone, one for each item of a list. -/
theorem State.Caches.foldl {β : Type} {f : State → β → State} (hf : ∀ (t : State) x, t.Caches (f t x)) (l : List β) (s : State) : s.Caches (l.foldl f s) :=
  List.foldlRecOn l f (State.Caches.refl s) fun _ h x _ => State.Caches.trans h (hf _ x)

/-- Recalling lines, one for each item of a list, leaves the bytes alone. -/
theorem State.recalls_caches {α : Type} (s : State) (f : α → Nat) (n : Nat) (l : List α) :
    s.Caches { s with ms := l.foldl (fun ms a => ms.recall (f a) n) s.ms } :=
  ⟨_, rfl, (MemSys.recalls f n l s.ms).1, (MemSys.recalls f n l s.ms).2⟩
theorem State.recall_caches (s : State) (k n : Nat) : s.Caches { s with ms := s.ms.recall k n } :=
  ⟨_, rfl, MemSys.recall_mem _ _ _, MemSys.recall_backing _ _ _⟩
theorem State.readWindow_caches (s : State) (n : Nat) : s.Caches (s.readWindow n) := s.recall_caches _ _
theorem State.walked_caches (s : State) (va lvl table : Nat) (es : List (Nat × Nat × Nat)) :
    s.Caches { s with ms := s.ms.walked va lvl table es } := ⟨_, rfl, s.ms.walked_bytes va lvl table es⟩
theorem State.cacheOne_caches (s : State) (t : TlbEntry) : s.Caches { s with ms := s.ms.cacheOne t } :=
  ⟨_, rfl, MemSys.cacheOne_mem _ _, MemSys.cacheOne_backing _ _⟩
theorem State.reuse_caches (s : State) (l : Option (List Seen)) : s.Caches { s with ms := { s.ms with reuse := l } } := ⟨_, rfl, rfl, rfl⟩
theorem State.cacheTables_caches (s : State) (core ctx va : Nat) (es : List (Nat × Nat × Nat)) : s.Caches (s.cacheTables core ctx va es) :=
  have bytes : ∀ (es : List (Nat × Nat × Nat)) (ms : MemSys), let ms' := es.foldl (fun ms e => ms.cacheOne (tlbOf core ctx va e.1 e.2.1 e.2.2)) ms
      ms'.mem = ms.mem ∧ ms'.backing = ms.backing := by
    intro es
    induction es with
    | nil => exact fun ms => ⟨rfl, rfl⟩
    | cons e es ih => exact fun ms => by simpa only [List.foldl_cons, MemSys.cacheOne_mem, MemSys.cacheOne_backing] using ih (ms.cacheOne (tlbOf core ctx va e.1 e.2.1 e.2.2))
  ⟨_, rfl, bytes es s.ms⟩

/-! ## The bits A and D of a leaf entry (R391) -/

/-- Adding below the top of its byte 6 to a number of 8 bytes changes that byte alone. -/
theorem leBytes_add_byteSix (b0 b1 b2 b3 b4 b5 b6 b7 c : Byte) (fits : b6.toNat + c.toNat < 256) :
    leBytes 8 (leNat [b0, b1, b2, b3, b4, b5, b6, b7] + 2 ^ 48 * c.toNat) = [b0, b1, b2, b3, b4, b5, b6 + c, b7] := by
  simp only [leBytes, leNat, List.cons.injEq, and_true, ← BitVec.toNat_inj, BitVec.toNat_ofNat, BitVec.toNat_add]
  omega

/-- The bytes that an entry is read from. -/
theorem memRead_eight (m : Memory) (k : Nat) : memRead m k 8 =
    [memGet m k, memGet m (k + 1), memGet m (k + 2), memGet m (k + 3), memGet m (k + 4), memGet m (k + 5), memGet m (k + 6), memGet m (k + 7)] := rfl

/-- A bit of an entry's byte 6. -/
theorem natBits_byteSix (b0 b1 b2 b3 b4 b5 b6 b7 : Byte) {j : Nat} (hj : j < 8) :
    natBits (leNat [b0, b1, b2, b3, b4, b5, b6, b7]) (48 + j) 1 = 1 ↔ b6.getLsbD j = true := by
  have low : leNat [b0, b1, b2, b3, b4, b5] < 2 ^ 48 := by simp only [leNat]; omega
  have split : leNat [b0, b1, b2, b3, b4, b5, b6, b7] = 2 ^ 48 * (2 ^ 8 * b7.toNat + b6.toNat) + leNat [b0, b1, b2, b3, b4, b5] := by
    simp only [leNat]; omega
  have bit : (leNat [b0, b1, b2, b3, b4, b5, b6, b7]).testBit (48 + j) = b6.getLsbD j := by
    rw [split, Nat.testBit_two_pow_mul_add _ low, if_neg (by omega), Nat.add_sub_cancel_left,
      Nat.testBit_two_pow_mul_add _ b6.isLt, if_pos hj, BitVec.testBit_toNat]
  rw [← bit, Nat.testBit_eq_decide_div_mod_eq, decide_eq_true_eq, natBits, Nat.pow_one]

/-- Setting a bit of an entry's byte 6, where A and D are, changes that bit and no other. -/
theorem State.orEntry_get {s : State} (h : s.ms.mem.wf = true) (a : Nat) {j : Nat} (hj : j < 8) (k : Nat) :
    memGet (s.orEntry a (48 + j)).ms.mem k = if k = a + 6 then memGet s.ms.mem k ||| BitVec.twoPow 8 j else memGet s.ms.mem k := by
  have entry : s.memNat a 8 = leNat (memRead s.ms.mem a 8) := rfl
  simp only [State.orEntry, entry, memRead_eight, natBits_byteSix _ _ _ _ _ _ _ _ hj]
  by_cases set : (memGet s.ms.mem (a + 6)).getLsbD j = true
  case pos =>
    rw [if_pos set]
    split
    next here =>
      subst here
      rw [eq_comm]
      ext i hi
      rcases eq_or_ne j i with rfl | other
      · simp_all
      · simp [other.symm]
    next => rfl
  case neg =>
    have clear : memGet s.ms.mem (a + 6) &&& BitVec.twoPow 8 j = 0#8 := by
      ext i hi
      rcases eq_or_ne j i with rfl | other
      · simp_all
      · simp [other.symm]
    have small : (BitVec.twoPow 8 j).toNat = 2 ^ j := by
      rw [BitVec.toNat_twoPow, Nat.mod_eq_of_lt (Nat.pow_lt_pow_right (by decide) hj)]
    have fits : (memGet s.ms.mem (a + 6)).toNat + (BitVec.twoPow 8 j).toNat < 256 := by
      have := BitVec.toNat_add_of_and_eq_zero clear
      omega
    rw [if_neg set, State.memPut, State.memWrite_mem, Nat.pow_add, ← small, leBytes_add_byteSix _ _ _ _ _ _ _ _ _ fits,
      BitVec.add_eq_or_of_and_eq_zero _ _ clear, memGet_memSetAll _ _ _ h]
    simp only [List.length_cons, List.length_nil, Nat.reduceAdd]
    by_cases inside : a ≤ k ∧ k < a + 8
    · obtain ⟨i, rfl⟩ := Nat.exists_eq_add_of_le inside.1
      have hi : i < 8 := by omega
      rw [if_pos inside, Nat.add_sub_cancel_left]
      interval_cases i <;> simp
    · rw [if_neg inside, if_neg (by omega)]

/-- t is s but for the memory system and the choices between translations; of the bytes, at most those that hold A and D of the leaf entries
at the places in p are written, by an OR with a bit. -/
def State.Marks (bit : Byte) (p : Nat → Prop) (s t : State) : Prop :=
  s.Reads t ∧ (s.MemoryWf → t.MemoryWf ∧
    ∀ k, memGet t.ms.mem k = memGet s.ms.mem k ∨ (memGet t.ms.mem k = memGet s.ms.mem k ||| bit ∧ ∃ a, p a ∧ k = a + 6))

theorem State.Caches.marks {s t : State} (h : s.Caches t) (bit : Byte) (p : Nat → Prop) : s.Marks bit p t :=
  ⟨h.reads, fun w => ⟨h.wf w, fun k => .inl (h.sameMemory k)⟩⟩
theorem State.Marks.refl (bit : Byte) (p : Nat → Prop) (s : State) : s.Marks bit p s := (State.Caches.refl s).marks bit p
theorem State.Marks.mono {bit : Byte} {p q : Nat → Prop} {s t : State} (h : s.Marks bit p t) (pq : ∀ a, p a → q a) : s.Marks bit q t :=
  ⟨h.1, fun w => ⟨(h.2 w).1, fun k => ((h.2 w).2 k).imp_right fun ⟨e, a, ha, hk⟩ => ⟨e, a, pq a ha, hk⟩⟩⟩
theorem State.Marks.trans {bit : Byte} {p : Nat → Prop} {s t u : State} (h : s.Marks bit p t) (k : t.Marks bit p u) : s.Marks bit p u := by
  refine ⟨h.1.trans k.1, fun w => ⟨(k.2 (h.2 w).1).1, fun i => ?_⟩⟩
  obtain e | ⟨e, at_⟩ := (h.2 w).2 i <;> obtain e' | ⟨e', at'⟩ := (k.2 (h.2 w).1).2 i
  · exact .inl (e'.trans e)
  · exact .inr ⟨by rw [e', e], at'⟩
  · exact .inr ⟨e'.trans e, at_⟩
  · exact .inr ⟨by rw [e', e, BitVec.or_assoc, BitVec.or_self], at_⟩
/-- A byte that no such entry has A and D in reads as before. -/
theorem State.Marks.outside {bit : Byte} {p : Nat → Prop} {s t : State} (h : s.Marks bit p t) (w : s.MemoryWf) {k : Nat} (out : ∀ a, p a → k ≠ a + 6) :
    memGet t.ms.mem k = memGet s.ms.mem k :=
  ((h.2 w).2 k).resolve_right fun ⟨_, a, ha, hk⟩ => out a ha hk
/-- Steps that each write such bytes, one for each item of a list. -/
theorem State.Marks.foldl {β : Type} {bit : Byte} {p : Nat → Prop} {f : State → β → State} {l : List β} (s : State)
    (hf : ∀ t : State, ∀ x ∈ l, t.Marks bit p (f t x)) : s.Marks bit p (l.foldl f s) :=
  List.foldlRecOn l f (State.Marks.refl bit p s) fun t h x hx => State.Marks.trans h (hf t x hx)

theorem State.orEntry_marks (s : State) (a : Nat) {j : Nat} (hj : j < 8) : s.Marks (BitVec.twoPow 8 j) (· = a) (s.orEntry a (48 + j)) := by
  refine ⟨?_, fun w => ⟨State.orEntry_wf _ _ w, fun k => ?_⟩⟩
  · simp only [State.orEntry]
    split
    · exact .refl s
    · exact s.reads_ms _
  · rw [State.orEntry_get w.1 a hj]
    split
    next here => exact .inr ⟨rfl, a, rfl, here⟩
    next => exact .inl rfl

/-! ## Translation (R386, R390) -/

/-- Where the leaves lie that translations ended at. -/
def LeafAt (ts : List (Nat × Int × Except (Nat × Nat) Leaf)) (a : Nat) : Prop := ∃ t ∈ ts, ∃ l, t.2.2 = .ok l ∧ l.leafAt = a

theorem State.cacheLeaf_marks (s : State) (core ctx va e a lvl : Nat) : s.Marks 0x10 (· = a) (s.cacheLeaf core ctx va e a lvl) :=
  (s.orEntry_marks a (show 4 < 8 by decide)).trans ((State.cacheOne_caches _ _).marks _ _)
theorem State.walk_marks (s : State) (core : Nat) (c : Ctx) (va lvl table : Nat) :
    s.Marks 0x10 (fun a => ∃ l, (s.walk core c va lvl table).2 = .ok l ∧ l.leafAt = a) (s.walk core c va lvl table).1 := by
  have read := (s.walked_caches va lvl table (walkFrom s c va lvl table).2).trans (State.cacheTables_caches _ core c.n va (walkFrom s c va lvl table).2)
  simp only [State.walk]
  split
  case h_1 => exact read.marks _ _
  case h_2 _ e a lvl' _ =>
    exact ((read.marks _ _).trans (State.cacheLeaf_marks _ core c.n va e a lvl')).mono fun b hb => ⟨_, rfl, hb.symm⟩

theorem State.choose_marks (s : State) (bit : Byte) (p : Nat → Prop) (ch : List Bool) : s.Marks bit p { s with choices := ch } :=
  ⟨⟨s.ms, ch, rfl⟩, fun w => ⟨w, fun _ => .inl rfl⟩⟩

theorem State.translateNew_marks (s : State) (core : Nat) (c : Ctx) (va : Nat) :
    s.Marks 0x10 (fun a => ∃ l, (s.translateNew core c va).2 = .ok l ∧ l.leafAt = a) (s.translateNew core c va).1 := by
  simp only [State.translateNew]
  split
  · exact s.choose_marks _ _ _
  all_goals exact (s.choose_marks _ _ _).trans (State.walk_marks _ _ _ _ _ _)

/-- A translation writes at most A of the leaf that it ends at. -/
theorem State.translate_marks (s : State) (core : Nat) (c : Ctx) (va : Nat) :
    s.Marks 0x10 (fun a => ∃ l, (s.translate core c va).2 = .ok l ∧ l.leafAt = a) (s.translate core c va).1 := by
  unfold State.translate
  split
  · exact s.translateNew_marks core c va
  · split
    · exact .refl _ _ s
    · exact (s.translateNew_marks core c va).trans ((State.reuse_caches _ _).marks _ _)

/-- The translations of an access write at most A of the leaves that they end at. -/
theorem translateAll_marks (core : Nat) (c : Ctx) : ∀ (l : List (Nat × Int)) (seen : List (Nat × Except (Nat × Nat) Leaf)) (s : State),
    s.Marks 0x10 (LeafAt (translateAll core c seen l s).2) (translateAll core c seen l s).1
  | [], _, s => .refl _ _ s
  | (i, va) :: r, seen, s => by
    unfold translateAll
    split
    · exact (translateAll_marks core c r seen s).mono fun a ⟨t, ht, l⟩ => ⟨t, List.mem_cons_of_mem _ ht, l⟩
    · exact ((s.translate_marks core c va.toNat).mono fun a hl => ⟨_, List.mem_cons_self, hl⟩).trans
        ((translateAll_marks core c r _ _).mono fun a ⟨t, ht, l⟩ => ⟨t, List.mem_cons_of_mem _ ht, l⟩)

/-- What an access does before it is performed writes at most D of the leaves found. -/
theorem State.beforeAccess_marks (s : State) (a : AccSpec) (hits : List Hit3) :
    s.Marks 0x20 (fun k => ∃ h ∈ hits, h.2.2.leafAt = k) (s.beforeAccess a hits) := by
  unfold State.beforeAccess
  refine State.Marks.trans ?_ ((State.recalls_caches _ _ _ _).marks _ _)
  split
  · exact State.Marks.foldl s fun t h hh => (t.orEntry_marks h.2.2.leafAt (show 5 < 8 by decide)).mono fun k hk => ⟨h, hh, hk.symm⟩
  · exact .refl _ _ s
/-- A read that sets no D changes no byte before it is performed. -/
theorem State.beforeAccess_caches (s : State) {a : AccSpec} (h : a.acc = 0) (hits : List Hit3) : s.Caches (s.beforeAccess a hits) := by
  simp only [State.beforeAccess, h]
  exact State.recalls_caches _ _ _ _

end Sys2Proof.Machine

namespace Sys2Proof.Machine

/-! ## The checks of R170, stage by stage -/

/-- The cause that names the lanes of l: their mask, but for a scalar form, and the address of the lowest. -/
def lanesTrap (sc : Bool) (cause : Byte) (info : Nat) (l : List (Nat × Int)) : Trap :=
  { cause := cause, elanes := if sc then 0 else maskOfList (l.map (·.1)), eaddr := w64 ((l.map (·.2)).headD 0), einfo := BitVec.ofNat 64 info }

@[simp] theorem failed_nil (sc : Bool) (cause : Byte) (info : Nat) : failed sc cause info [] = none := rfl
theorem failed_of_ne_nil (sc : Bool) (cause : Byte) (info : Nat) : ∀ {l : List (Nat × Int)}, l ≠ [] →
    failed sc cause info l = some (lanesTrap sc cause info l)
  | [], h => absurd rfl h
  | _ :: _, _ => rfl

/-- The lanes that stages 1 to 3 stop: misaligned ones, those outside the address space, and those in the ungrown window. -/
def AccSpec.odd (a : AccSpec) (accs : List (Nat × Int)) : List (Nat × Int) :=
  accs.filter fun t => match a.align with | some n => t.2 % (n : Int) != 0 | none => false
def outOfSpace (accs : List (Nat × Int)) : List (Nat × Int) := accs.filter fun t => decide (t.2 < 0) || decide ((2 : Int) ^ 52 ≤ t.2)
def State.ungrown (s : State) (ctx : Nat) (accs : List (Nat × Int)) : List (Nat × Int) :=
  accs.filter fun t => decide (((s.priv ctx).2.1 : Int) ≤ t.2) && decide (t.2 < ((s.priv ctx).2.2 : Int))

theorem checkEarly_eq (s : State) (ctx : Nat) (a : AccSpec) (sc : Bool) (accs : List (Nat × Int)) : checkEarly s ctx a sc accs =
    (failed sc cALIGN 0 (a.odd accs) <|> failed sc cPROT (2 + 64 * a.acc) (outOfSpace accs) <|> failed sc cSTACK (1 + 64 * a.acc) (s.ungrown ctx accs)) := by
  unfold checkEarly AccSpec.odd
  cases a.align with
  | none => simp only [List.filter_false]; rfl
  | some n => rfl

section
variable {s : State} {core ctx : Nat} {a : AccSpec} {sc : Bool} {accs : List (Nat × Int)}

theorem checkAccess_of_early {t : Trap} (h : checkEarly s ctx a sc accs = some t) : checkAccess s core ctx a sc accs = .bad t (s.readWindow ctx) := by
  unfold checkAccess
  rw [h]

theorem checkAccess_odd (h : a.odd accs ≠ []) :
    checkAccess s core ctx a sc accs = .bad (lanesTrap sc cALIGN 0 (a.odd accs)) (s.readWindow ctx) :=
  checkAccess_of_early (by rw [checkEarly_eq, failed_of_ne_nil _ _ _ h]; rfl)
theorem checkAccess_outOfSpace (h : a.odd accs = []) (out : outOfSpace accs ≠ []) :
    checkAccess s core ctx a sc accs = .bad (lanesTrap sc cPROT (2 + 64 * a.acc) (outOfSpace accs)) (s.readWindow ctx) :=
  checkAccess_of_early (by rw [checkEarly_eq, h, failed_of_ne_nil _ _ _ out]; rfl)
theorem checkAccess_ungrown (h : a.odd accs = []) (out : outOfSpace accs = []) (low : s.ungrown ctx accs ≠ []) :
    checkAccess s core ctx a sc accs = .bad (lanesTrap sc cSTACK (1 + 64 * a.acc) (s.ungrown ctx accs)) (s.readWindow ctx) :=
  checkAccess_of_early (by rw [checkEarly_eq, h, out, failed_of_ne_nil _ _ _ low]; rfl)
theorem checkEarly_eq_none : checkEarly s ctx a sc accs = none ↔ a.odd accs = [] ∧ outOfSpace accs = [] ∧ s.ungrown ctx accs = [] := by
  rw [checkEarly_eq]
  by_cases h : a.odd accs = []
  · by_cases out : outOfSpace accs = []
    · by_cases low : s.ungrown ctx accs = []
      · simp [h, out, low]
      · simp [h, out, low, failed_of_ne_nil _ _ _ low]
    · simp [h, out, failed_of_ne_nil _ _ _ out]
  · simp [h, failed_of_ne_nil _ _ _ h]

end

/-- The translations of an access. -/
def State.translated (s : State) (core ctx : Nat) (accs : List (Nat × Int)) : State × List (Nat × Int × Except (Nat × Nat) Leaf) :=
  translateAll core ((s.ctxOf ctx).getD default) [] accs (s.readWindow ctx)
/-- The lanes whose walk stopped, with its level and code; and the others, with their leaves. -/
def lostLanes (ts : List (Nat × Int × Except (Nat × Nat) Leaf)) : List (Nat × Int × (Nat × Nat)) :=
  ts.filterMap fun t => match t.2.2 with | .error (lvl, code) => some (t.1, t.2.1, lvl, code) | .ok _ => none
def hitLanes (ts : List (Nat × Int × Except (Nat × Nat) Leaf)) : List Hit3 :=
  ts.filterMap fun t => match t.2.2 with | .ok l => some (t.1, t.2.1, l) | .error _ => none

/-- What the late checks of R170 make of lanes that all have a leaf. -/
def lateChecked (u : State) (a : AccSpec) (sc : Bool) (hits : List Hit3) : Checked :=
  match checkLate u a sc hits with
  | some t =>
    if t.cause == cPROT && t.einfo.extractLsb' 0 4 == 4 then .bad t (u.noteRefused (a.acc = 0 || a.acc = 2) (a.acc != 0) (hits.map (·.2.2)))
    else .bad t u
  | none => .ok (u.beforeAccess a hits) hits

/-- An access that no check before translation stops raises PAGE, or comes to the late checks. -/
theorem checkAccess_of_translated {s : State} {core ctx : Nat} {a : AccSpec} {sc : Bool} {accs : List (Nat × Int)}
    (early : checkEarly s ctx a sc accs = none) : checkAccess s core ctx a sc accs =
      match lostLanes (s.translated core ctx accs).2 with
      | (_, _, lvl, code) :: _ => .bad { ((failed sc cPAGE (code + 16 * lvl + 64 * a.acc)
          ((lostLanes (s.translated core ctx accs).2).map fun t => (t.1, t.2.1))).getD default) with
          pages := failedPages (s.translated core ctx accs).2 } (s.translated core ctx accs).1
      | [] => lateChecked (s.translated core ctx accs).1 a sc (hitLanes (s.translated core ctx accs).2) := by
  unfold checkAccess
  rw [early]
  rfl

theorem checkAccess_lost {s : State} {core ctx : Nat} {a : AccSpec} {sc : Bool} {accs : List (Nat × Int)}
    (early : checkEarly s ctx a sc accs = none) {i : Nat} {va : Int} {lvl code : Nat} {rest : List (Nat × Int × (Nat × Nat))}
    (h : lostLanes (s.translated core ctx accs).2 = (i, va, lvl, code) :: rest) : checkAccess s core ctx a sc accs =
      .bad { lanesTrap sc cPAGE (code + 16 * lvl + 64 * a.acc) ((lostLanes (s.translated core ctx accs).2).map fun t => (t.1, t.2.1)) with
        pages := failedPages (s.translated core ctx accs).2 } (s.translated core ctx accs).1 := by
  rw [checkAccess_of_translated early, h]
  rfl
theorem checkAccess_hit {s : State} {core ctx : Nat} {a : AccSpec} {sc : Bool} {accs : List (Nat × Int)}
    (early : checkEarly s ctx a sc accs = none) (h : lostLanes (s.translated core ctx accs).2 = []) :
    checkAccess s core ctx a sc accs = lateChecked (s.translated core ctx accs).1 a sc (hitLanes (s.translated core ctx accs).2) := by
  rw [checkAccess_of_translated early, h]

/-! The late checks: the kind of the page, its rights, a refusal, and last what the lowest lane that meets one meets. -/

/-- How far an access reaches, whether poison stops it, and whether a link does. -/
def AccSpec.reachOf (a : AccSpec) (u : State) (l : Leaf) : Reach := u.reach l a.size (decide (a.acc = 0 ∨ a.acc = 2)) (decide (a.acc ≠ 0))
def AccSpec.marked (a : AccSpec) (u : State) (l : Leaf) : Bool := a.reads && if a.cls = .g then u.ownPoisoned l.key a.size else u.isPoisoned l.key a.size
def AccSpec.cut (a : AccSpec) (u : State) (l : Leaf) : Bool :=
  !a.marked u l && a.link && match a.reachOf u l with | .link _ _ => true | _ => false
def AccSpec.refused (a : AccSpec) (u : State) (hits : List Hit3) : List (Nat × Int) :=
  if a.reach = true then lanesWhere hits fun l => decide (a.reachOf u l = .refused) else []
def AccSpec.hurt (a : AccSpec) (u : State) (hits : List Hit3) : List Hit3 :=
  if a.reach = true then hits.filter fun h => a.marked u h.2.2 || a.cut u h.2.2 else []

/-- What stops a lane last, in the form of the model: a cause with its sys.einfo, and whether the page is the host's. -/
def AccSpec.stop (a : AccSpec) (u : State) (t : Hit3) : Option (Nat × Int × Byte × Nat × Bool) :=
  if a.marked u t.2.2 then some (t.1, t.2.1, cPOISON, 1, false)
  else match a.reachOf u t.2.2 with
    | .link code peer => if a.link then some (t.1, t.2.1, cLINK, code + 256 * peer, t.2.2.kind = 1) else none
    | _ => none
/-- The cause of the lowest stopped lane, which names the lanes stopped by the same. -/
def lastTrap (a : AccSpec) (sc : Bool) (last : List (Nat × Int × Byte × Nat × Bool)) : Option Trap :=
  match last with
  | [] => none
  | (_, va, cause, info, host) :: _ =>
    (failed sc cause info ((last.filter fun t => t.2.2.1 == cause).map fun t => (t.1, t.2.1))).map fun t =>
      if cause == cPOISON then (if a.exact then t else { t with eaddr := w64 (va / 32 * 32) }) else { t with viaHost := host }

theorem checkLate_eq (u : State) (a : AccSpec) (sc : Bool) (hits : List Hit3) : checkLate u a sc hits =
    (failed sc cPROT (3 + 64 * a.acc) (lanesWhere hits fun l => !a.admits l.kind) <|>
      failed sc cPROT (1 + 64 * a.acc) (lanesWhere hits fun l => !a.granted l.e) <|>
      failed sc cPROT (4 + 64 * a.acc) (a.refused u hits) <|>
      lastTrap a sc (if a.reach then hits.filterMap (a.stop u) else [])) := by
  have acc : (decide (a.acc = 0) || decide (a.acc = 2)) = decide (a.acc = 0 ∨ a.acc = 2) := by simp
  have write : (a.acc != 0) = decide (a.acc ≠ 0) := by rw [Bool.eq_iff_iff]; simp
  unfold checkLate AccSpec.refused AccSpec.stop AccSpec.marked AccSpec.reachOf lastTrap
  rw [acc, write]
  cases a.reach <;> rfl

/-- A cause that does not say that the access table refused it leaves no alarm due. -/
theorem lateChecked_of_some {u : State} {a : AccSpec} {sc : Bool} {hits : List Hit3} {t : Trap} (h : checkLate u a sc hits = some t)
    (other : t.cause ≠ cPROT ∨ t.einfo.extractLsb' 0 4 ≠ 4) : lateChecked u a sc hits = .bad t u := by
  unfold lateChecked
  rw [h]
  exact if_neg (by simpa [or_iff_not_imp_left] using other)

/-- The low hexadecimal digit of sys.einfo is the code of R395. -/
theorem einfo_code (acc code : Nat) : (BitVec.ofNat 64 (code + 64 * acc)).extractLsb' 0 4 = BitVec.ofNat 4 code := by
  apply BitVec.eq_of_toNat_eq
  simp only [BitVec.extractLsb'_toNat, BitVec.toNat_ofNat, Nat.shiftRight_zero]
  omega

section
variable {u : State} {a : AccSpec} {sc : Bool} {hits : List Hit3}

theorem lateChecked_kind (h : lanesWhere hits (fun l => !a.admits l.kind) ≠ []) :
    lateChecked u a sc hits = .bad (lanesTrap sc cPROT (3 + 64 * a.acc) (lanesWhere hits fun l => !a.admits l.kind)) u :=
  lateChecked_of_some (by rw [checkLate_eq, failed_of_ne_nil _ _ _ h]; rfl) (.inr (by rw [lanesTrap, einfo_code]; decide))

theorem lateChecked_right (kind : lanesWhere hits (fun l => !a.admits l.kind) = []) (h : lanesWhere hits (fun l => !a.granted l.e) ≠ []) :
    lateChecked u a sc hits = .bad (lanesTrap sc cPROT (1 + 64 * a.acc) (lanesWhere hits fun l => !a.granted l.e)) u :=
  lateChecked_of_some (by rw [checkLate_eq, kind, failed_of_ne_nil _ _ _ h]; rfl) (.inr (by rw [lanesTrap, einfo_code]; decide))

variable (kind : lanesWhere hits (fun l => !a.admits l.kind) = []) (right : lanesWhere hits (fun l => !a.granted l.e) = [])
include kind right

theorem lateChecked_refused (h : a.refused u hits ≠ []) : ∃ due, lateChecked u a sc hits =
    .bad (lanesTrap sc cPROT (4 + 64 * a.acc) (a.refused u hits)) { u with lk := { u.lk with due := u.lk.due ++ due } } := by
  have e : checkLate u a sc hits = some (lanesTrap sc cPROT (4 + 64 * a.acc) (a.refused u hits)) := by
    rw [checkLate_eq, kind, right, failed_of_ne_nil _ _ _ h]; rfl
  unfold lateChecked
  rw [e]
  exact ⟨_, if_pos (by simp [lanesTrap, einfo_code])⟩

variable (free : a.refused u hits = [])
include free

theorem checkLate_last : checkLate u a sc hits = lastTrap a sc (if a.reach then hits.filterMap (a.stop u) else []) := by
  rw [checkLate_eq, kind, right, free]; rfl

end

/-! The lanes that are stopped last: those of `hurt`, the marked ones by POISON and the others by LINK. -/

theorem AccSpec.stop_of_marked {a : AccSpec} {u : State} {t : Hit3} (h : a.marked u t.2.2 = true) : a.stop u t = some (t.1, t.2.1, cPOISON, 1, false) := by
  rw [AccSpec.stop, if_pos h]
theorem AccSpec.stop_of_link {a : AccSpec} {u : State} {t : Hit3} {code peer : Nat} (h : a.marked u t.2.2 = false) (link : a.link = true)
    (r : a.reachOf u t.2.2 = .link code peer) : a.stop u t = some (t.1, t.2.1, cLINK, code + 256 * peer, decide (t.2.2.kind = 1)) := by
  rw [AccSpec.stop, h, r, link]; rfl
theorem AccSpec.cut_iff {a : AccSpec} {u : State} {l : Leaf} :
    a.cut u l = true ↔ a.marked u l = false ∧ a.link = true ∧ ∃ code peer, a.reachOf u l = .link code peer := by
  unfold AccSpec.cut
  cases a.reachOf u l <;> simp
theorem AccSpec.stop_of_free {a : AccSpec} {u : State} {t : Hit3} (h : a.marked u t.2.2 = false) (cut : a.cut u t.2.2 = false) : a.stop u t = none := by
  unfold AccSpec.cut at cut
  rw [AccSpec.stop, h]
  cases r : a.reachOf u t.2.2 <;> simp_all

theorem AccSpec.hurt_of_reach {a : AccSpec} (h : a.reach = true) (u : State) (hits : List Hit3) :
    a.hurt u hits = hits.filter fun t => a.marked u t.2.2 || a.cut u t.2.2 := if_pos h
/-- The lanes that are stopped are those of hurt. -/
theorem AccSpec.filterMap_stop (a : AccSpec) (u : State) (hits : List Hit3) :
    (if a.reach then hits.filterMap (a.stop u) else []) = (a.hurt u hits).filterMap (a.stop u) := by
  by_cases h : a.reach = true
  case neg => rw [if_neg h, AccSpec.hurt, if_neg h, List.filterMap_nil]
  case pos =>
    rw [if_pos h, AccSpec.hurt_of_reach h, List.filterMap_filter]
    refine List.filterMap_congr fun t _ => ?_
    split
    next => rfl
    next free =>
      rw [Bool.not_eq_true, Bool.or_eq_false_iff] at free
      exact AccSpec.stop_of_free free.1 free.2

/-- The lanes stopped by one cause are those that a condition names, when it says of each whether its stop is by that cause. -/
theorem AccSpec.lanes_stopped {a : AccSpec} {u : State} {c : Byte} {q : Leaf → Bool}
    (hq : ∀ t, ((a.stop u t).filter (·.2.2.1 == c)).map (fun x => (x.1, x.2.1)) = if q t.2.2 then some (t.1, t.2.1) else none) (hits : List Hit3) :
    ((hits.filterMap (a.stop u)).filter (·.2.2.1 == c)).map (fun x => (x.1, x.2.1)) = lanesWhere hits q := by
  rw [List.filter_filterMap, List.map_filterMap, lanesWhere, ← List.filterMap_eq_map, List.filterMap_filter]
  exact List.filterMap_congr fun t _ => hq t
theorem AccSpec.lanes_poison (a : AccSpec) (u : State) (hits : List Hit3) :
    ((hits.filterMap (a.stop u)).filter (·.2.2.1 == cPOISON)).map (fun x => (x.1, x.2.1)) = lanesWhere hits (a.marked u) := by
  refine AccSpec.lanes_stopped (fun t => ?_) hits
  by_cases marked : a.marked u t.2.2 = true
  · rw [AccSpec.stop_of_marked marked, if_pos marked]; rfl
  · rw [if_neg marked]
    by_cases cut : a.cut u t.2.2 = true
    · obtain ⟨-, link, code, peer, r⟩ := AccSpec.cut_iff.1 cut
      rw [AccSpec.stop_of_link (by simpa using marked) link r]; rfl
    · rw [AccSpec.stop_of_free (by simpa using marked) (by simpa using cut)]; rfl
theorem AccSpec.lanes_link (a : AccSpec) (u : State) (hits : List Hit3) :
    ((hits.filterMap (a.stop u)).filter (·.2.2.1 == cLINK)).map (fun x => (x.1, x.2.1)) = lanesWhere hits (a.cut u) := by
  refine AccSpec.lanes_stopped (fun t => ?_) hits
  by_cases cut : a.cut u t.2.2 = true
  · obtain ⟨clean, link, code, peer, r⟩ := AccSpec.cut_iff.1 cut
    rw [AccSpec.stop_of_link clean link r, if_pos cut]; rfl
  · rw [if_neg cut]
    by_cases marked : a.marked u t.2.2 = true
    · rw [AccSpec.stop_of_marked marked]; rfl
    · rw [AccSpec.stop_of_free (by simpa using marked) (by simpa using cut)]; rfl

/-- The lowest lane that is stopped says by what; the cause names it and the others stopped by the same. -/
theorem lastTrap_cons {a : AccSpec} {sc : Bool} {last rest : List (Nat × Int × Byte × Nat × Bool)} {i : Nat} {va : Int} {c : Byte} {info : Nat} {host : Bool}
    (h : last = (i, va, c, info, host) :: rest) :
    let t := lanesTrap sc c info ((last.filter (·.2.2.1 == c)).map fun x => (x.1, x.2.1))
    t.eaddr = w64 va ∧ lastTrap a sc last = some (if c == cPOISON then (if a.exact then t else { t with eaddr := w64 (va / 32 * 32) }) else { t with viaHost := host }) := by
  subst h
  have here : ((i, va, c, info, host) :: rest).filter (·.2.2.1 == c) = (i, va, c, info, host) :: rest.filter (·.2.2.1 == c) :=
    List.filter_cons_of_pos (by simp)
  unfold lastTrap
  dsimp only
  rw [here]
  exact ⟨rfl, rfl⟩

theorem AccSpec.hurt_cons {a : AccSpec} {u : State} {hits rest : List Hit3} {t : Hit3} (h : a.hurt u hits = t :: rest) :
    a.reach = true ∧ (a.marked u t.2.2 = true ∨ a.cut u t.2.2 = true) ∧
    ∀ x, a.stop u t = some x → hits.filterMap (a.stop u) = x :: rest.filterMap (a.stop u) := by
  have reach : a.reach = true := by
    by_contra no
    rw [AccSpec.hurt, if_neg no] at h
    cases h
  have e := a.filterMap_stop u hits
  have here : t ∈ hits.filter fun t => a.marked u t.2.2 || a.cut u t.2.2 := by
    rw [← AccSpec.hurt_of_reach reach, h]
    exact List.mem_cons_self
  rw [if_pos reach, h] at e
  exact ⟨reach, by simpa using (List.mem_filter.1 here).2, fun x hx => by rw [e, List.filterMap_cons_some hx]⟩

section
variable {u : State} {a : AccSpec} {sc : Bool} {hits : List Hit3}
  (kind : lanesWhere hits (fun l => !a.admits l.kind) = []) (right : lanesWhere hits (fun l => !a.granted l.e) = []) (free : a.refused u hits = [])
include kind right free

/-- Where no lane is stopped the access passes. -/
theorem lateChecked_pass (h : a.hurt u hits = []) : lateChecked u a sc hits = .ok (u.beforeAccess a hits) hits := by
  unfold lateChecked
  rw [checkLate_last kind right free, AccSpec.filterMap_stop, h]
  rfl

variable {i : Nat} {va : Int} {l : Leaf} {rest : List Hit3} (h : a.hurt u hits = (i, va, l) :: rest)
include h

theorem lateChecked_poison (marked : a.marked u l = true) : lateChecked u a sc hits =
    .bad { lanesTrap sc cPOISON 1 (lanesWhere hits (a.marked u)) with eaddr := w64 (if a.exact = true then va else va / 32 * 32) } u := by
  obtain ⟨reach, -, first⟩ := AccSpec.hurt_cons h
  obtain ⟨addr, last⟩ := lastTrap_cons (a := a) (sc := sc) (first _ (AccSpec.stop_of_marked marked))
  rw [AccSpec.lanes_poison] at addr last
  refine lateChecked_of_some ?_ (.inl (by simp [lanesTrap, cPOISON, cPROT]))
  rw [checkLate_last kind right free, if_pos reach, last, if_pos (beq_self_eq_true _)]
  split
  next => rw [← addr]
  next => rfl

theorem lateChecked_link (clean : a.marked u l = false) {code peer : Nat} (r : a.reachOf u l = .link code peer) : lateChecked u a sc hits =
    .bad { lanesTrap sc cLINK (code + 256 * peer) (lanesWhere hits (a.cut u)) with viaHost := decide (l.kind = 1) } u := by
  obtain ⟨reach, stopped, first⟩ := AccSpec.hurt_cons h
  obtain ⟨-, link, -⟩ := AccSpec.cut_iff.1 (stopped.resolve_left (by rw [clean]; decide))
  obtain ⟨-, last⟩ := lastTrap_cons (a := a) (sc := sc) (first _ (AccSpec.stop_of_link clean link r))
  rw [AccSpec.lanes_link] at last
  refine lateChecked_of_some ?_ (.inl (by simp [lanesTrap, cLINK, cPROT]))
  rw [checkLate_last kind right free, if_pos reach, last]
  rfl

end

/-! ## Accesses that pass -/

/-- The lanes that no check stops are those of the access, with their addresses. -/
theorem hitLanes_keys : ∀ {ts : List (Nat × Int × Except (Nat × Nat) Leaf)}, lostLanes ts = [] →
    (hitLanes ts).map (fun h => (h.1, h.2.1)) = ts.map fun t => (t.1, t.2.1)
  | [], _ => rfl
  | (i, va, .error e) :: r, h => by simp [lostLanes] at h
  | (i, va, .ok l) :: r, h => by
    have ih := hitLanes_keys (ts := r) (by simpa [lostLanes] using h)
    simpa [hitLanes] using ih
theorem mem_hitLanes {ts : List (Nat × Int × Except (Nat × Nat) Leaf)} {i : Nat} {va : Int} {l : Leaf} :
    (i, va, l) ∈ hitLanes ts ↔ (i, va, .ok l) ∈ ts := by
  unfold hitLanes
  rw [List.mem_filterMap]
  constructor
  · rintro ⟨⟨j, a, e | l'⟩, ht, eq⟩
    · cases eq
    · cases eq; exact ht
  · exact fun h => ⟨_, h, rfl⟩
theorem leafAt_iff_hitLanes {ts : List (Nat × Int × Except (Nat × Nat) Leaf)} {k : Nat} : LeafAt ts k ↔ ∃ h ∈ hitLanes ts, h.2.2.leafAt = k := by
  constructor
  · rintro ⟨⟨i, va, _⟩, ht, l, rfl, e⟩
    exact ⟨(i, va, l), mem_hitLanes.2 ht, e⟩
  · rintro ⟨⟨i, va, l⟩, hh, e⟩
    exact ⟨_, mem_hitLanes.1 hh, l, rfl, e⟩

/-- What an access that passes has been through. -/
theorem checkAccess_ok {s s1 : State} {core ctx : Nat} {a : AccSpec} {sc : Bool} {accs : List (Nat × Int)} {hits : List Hit3}
    (h : checkAccess s core ctx a sc accs = .ok s1 hits) : let r := s.translated core ctx accs
    checkEarly s ctx a sc accs = none ∧ lostLanes r.2 = [] ∧ hits = hitLanes r.2 ∧ s1 = r.1.beforeAccess a hits ∧ checkLate r.1 a sc hits = none := by
  intro r
  have early : checkEarly s ctx a sc accs = none := by
    by_contra some
    obtain ⟨t, e⟩ := Option.ne_none_iff_exists'.1 some
    rw [checkAccess_of_early e] at h
    cases h
  have found : lostLanes r.2 = [] := by
    by_contra lost
    obtain ⟨⟨i, va, lvl, code⟩, rest, e⟩ := List.exists_cons_of_ne_nil lost
    rw [checkAccess_lost early e] at h
    cases h
  rw [checkAccess_hit early found, lateChecked] at h
  split at h
  · split at h <;> cases h
  case h_2 passes =>
    cases h
    exact ⟨early, found, rfl, rfl, passes⟩

theorem lanesWhere_eq_nil {hits : List Hit3} {q : Leaf → Bool} : lanesWhere hits q = [] ↔ ∀ h ∈ hits, q h.2.2 = false := by
  simp [lanesWhere]
theorem outOfSpace_eq_nil {accs : List (Nat × Int)} : outOfSpace accs = [] ↔ ∀ t ∈ accs, 0 ≤ t.2 ∧ t.2 < 2 ^ 52 := by
  simp [outOfSpace]
/-- Lanes that pass the late checks lie in pages of a kind that the access reaches, with the rights it needs. -/
theorem checkLate_none {u : State} {a : AccSpec} {sc : Bool} {hits : List Hit3} (h : checkLate u a sc hits = none) :
    lanesWhere hits (fun l => !a.admits l.kind) = [] ∧ lanesWhere hits (fun l => !a.granted l.e) = [] := by
  rw [checkLate_eq] at h
  by_cases kind : lanesWhere hits (fun l => !a.admits l.kind) = []
  · by_cases right : lanesWhere hits (fun l => !a.granted l.e) = []
    · exact ⟨kind, right⟩
    · rw [kind, failed_of_ne_nil _ _ _ right] at h
      cases h
  · rw [failed_of_ne_nil _ _ _ kind] at h
    cases h

/-- The hits of an access that passes are its lanes and addresses, each within the address space, every right granted. -/
theorem checkAccess_hits {s s1 : State} {core ctx : Nat} {a : AccSpec} {sc : Bool} {accs : List (Nat × Int)} {hits : List Hit3}
    (h : checkAccess s core ctx a sc accs = .ok s1 hits) :
    hits.map (fun h => (h.1, h.2.1)) = accs ∧
    ∀ h ∈ hits, 0 ≤ h.2.1 ∧ h.2.1 < 2 ^ 52 ∧ a.granted h.2.2.e = true ∧ a.admits h.2.2.kind = true := by
  obtain ⟨early, found, rfl, -, late⟩ := checkAccess_ok h
  have keys : (hitLanes (s.translated core ctx accs).2).map (fun h => (h.1, h.2.1)) = accs :=
    (hitLanes_keys found).trans (translateAll_keys core _ accs [] _)
  refine ⟨keys, fun t ht => ?_⟩
  obtain ⟨-, space, -⟩ := checkEarly_eq_none.1 early
  obtain ⟨kind, right⟩ := checkLate_none late
  obtain ⟨lo, hi⟩ := outOfSpace_eq_nil.1 space _ (keys ▸ List.mem_map_of_mem ht)
  exact ⟨lo, hi, by simpa using lanesWhere_eq_nil.1 right t ht, by simpa using lanesWhere_eq_nil.1 kind t ht⟩

/-- The walks of an access write at most A of the leaves that they end at. -/
theorem State.translated_marks (s : State) (core ctx : Nat) (accs : List (Nat × Int)) :
    s.Marks 0x10 (LeafAt (s.translated core ctx accs).2) (s.translated core ctx accs).1 :=
  ((s.readWindow_caches ctx).marks _ _).trans (translateAll_marks core _ accs [] _)

/-- An access that passes changes the memory system and the choices it used, and of the bytes at most those that hold A and D of its leaves. -/
theorem checkAccess_ok_reads {s s1 : State} {core ctx : Nat} {a : AccSpec} {sc : Bool} {accs : List (Nat × Int)} {hits : List Hit3}
    (h : checkAccess s core ctx a sc accs = .ok s1 hits) :
    s.Reads s1 ∧ (s.MemoryWf → ∀ k, (∀ h ∈ hits, k ≠ h.2.2.leafAt + 6) → memGet s1.ms.mem k = memGet s.ms.mem k) := by
  obtain ⟨-, -, rfl, rfl, -⟩ := checkAccess_ok h
  have walks := s.translated_marks core ctx accs
  have before := (s.translated core ctx accs).1.beforeAccess_marks a (hitLanes (s.translated core ctx accs).2)
  refine ⟨walks.1.trans before.1, fun w k out => ?_⟩
  have outside : ∀ b, (∃ h ∈ hitLanes (s.translated core ctx accs).2, h.2.2.leafAt = b) → k ≠ b + 6 := by
    rintro b ⟨h, hh, rfl⟩
    exact out h hh
  exact (before.outside (walks.2 w).1 outside).trans (walks.outside w fun b hb => outside b (leafAt_iff_hitLanes.1 hb))

end Sys2Proof.Machine

section
open Sys2Proof Sys2Proof.Machine

/-- Settles O31, stage by stage: what no earlier stage stops comes to the next, and what no stage stops passes. -/
theorem accessChecks : Obligations.AccessChecks := by
  unfold Obligations.AccessChecks
  intro s core ctx a sc accs odd out low names r u lost hits those reach marked cut kind right refused hurt early
  have noEarly : early → checkEarly s ctx a sc accs = none := fun h => checkEarly_eq_none.2 h
  have lostEq : lost = lostLanes (s.translated core ctx accs).2 :=
    List.filterMap_congr fun t _ => by rcases t.2.2 with ⟨lvl, code⟩ | l <;> rfl
  have walks := s.translated_marks core ctx accs
  refine ⟨fun h => checkAccess_odd h, fun h h' => checkAccess_outOfSpace h h', fun h h' h'' => checkAccess_ungrown h h' h'', ?page, ?late,
    walks.1, fun w k away => walks.outside w ?outside, ?passes⟩
  case page =>
    intro e i va lvl code rest h
    rw [lostEq] at h ⊢
    exact checkAccess_lost (noEarly e) h
  case late =>
    intro e h
    rw [checkAccess_hit (noEarly e) (lostEq ▸ h)]
    exact ⟨fun h => lateChecked_kind h, fun k h => lateChecked_right k h, fun k r h => lateChecked_refused k r h,
      fun k r f i va l rest h => ⟨fun m => lateChecked_poison k r f h m, fun code peer m c => lateChecked_link k r f h m c⟩,
      fun k r f h => ⟨_, lateChecked_pass k r f h⟩⟩
  case outside =>
    intro b hb
    obtain ⟨h, hh, rfl⟩ := leafAt_iff_hitLanes.1 hb
    exact away h hh
  case passes =>
    intro s1 hits h
    obtain ⟨keys, granted⟩ := checkAccess_hits h
    obtain ⟨reads, bytes⟩ := checkAccess_ok_reads h
    exact ⟨keys, reads, granted, bytes⟩

end

namespace Sys2Proof.Machine

/-! ## Accesses of a group (R170, R218, R423) -/

/-- An access that passes every check is performed by k. -/
theorem accessG_of_passes {s s2 : State} {a : AccSpec} {scalar atomic : Bool} {accs : List (Nat × Int)} {hits : List Hit3}
    (h : s.Passes a scalar atomic accs s2 hits) (k : State → List Hit3 → Res) : accessG s a scalar atomic accs k = k s2 hits := by
  obtain ⟨s1, check, watch, snare⟩ := h
  have free : (a.cacheCtl || hits.all fun t => !t.2.2.rc) = true ↔ a.cacheCtl = true ∨ ∀ h ∈ hits, h.2.2.rc = false := by simp
  simp only [accessG, check, watch]
  split at snare
  next pass => rw [if_pos (free.2 pass), snare]
  next met => rw [if_neg (mt free.1 met), snare]

theorem State.Passes.keys {s s2 : State} {a : AccSpec} {scalar atomic : Bool} {accs : List (Nat × Int)} {hits : List Hit3}
    (h : s.Passes a scalar atomic accs s2 hits) : hits.map (fun h => (h.1, h.2.1)) = accs := by
  obtain ⟨s1, check, -⟩ := h
  exact (checkAccess_hits check).1

theorem State.Passes.wf {s s2 : State} {a : AccSpec} {scalar atomic : Bool} {accs : List (Nat × Int)} {hits : List Hit3}
    (h : s.Passes a scalar atomic accs s2 hits) (w : s.MemoryWf) : s2.MemoryWf := by
  obtain ⟨s1, check, -, snare⟩ := h
  have w1 := checkAccess_ok_wf check w
  split at snare
  next => exact snare ▸ w1
  next =>
    obtain ⟨s', e, w'⟩ | ⟨s', e, -⟩ | ⟨t, s', e, -⟩ := s1.snare_cases (write := decide (a.acc = 1)) (atomic := atomic) (scalar := scalar) (ts := hits) w1
      <;> rw [e] at snare <;> cases snare
    exact w'

/-- The lanes of a vector access are apart. -/
theorem State.Passes.lanes_nodup {s s2 : State} {a : AccSpec} {scalar atomic : Bool} {g : Group} {m : W32} {sb vx : BitVec 6} {scale : BitVec 2}
    {off : Int} {hits : List Hit3} (h : s.Passes a scalar atomic (laneAccs g m sb vx scale off) s2 hits) : (hits.map (·.1)).Nodup := by
  have e : hits.map (·.1) = activeLanes m := by
    have := congrArg (List.map Prod.fst) h.keys
    simpa [laneAccs, Function.comp_def] using this
  rw [e]
  exact nodup_activeLanes m

/-- What is listed for a lane, once. -/
theorem laneValue_of_mem {vs : List (Nat × Nat)} (once : (vs.map (·.1)).Nodup) {i v : Nat} (h : (i, v) ∈ vs) : laneValue vs i = v := by
  have find : vs.find? (·.1 = i) = some (i, v) := by
    induction vs with
    | nil => cases h
    | cons x r ih =>
      rw [List.map_cons, List.nodup_cons] at once
      obtain rfl | h := List.mem_cons.1 h
      · simp
      · have other : x.1 ≠ i := fun e => once.1 (e ▸ List.mem_map_of_mem (f := (·.1)) h)
        rw [List.find?_cons_of_neg (by simpa using other)]
        exact ih once.2 h
  rw [laneValue, find]
  rfl

/-! ## What caches keep of an access (R172, R188, R189) -/

theorem State.fitL1_caches (s : State) (core : Nat) : s.Caches (s.fitL1 core) := ⟨_, rfl, rfl, rfl⟩
theorem State.noteHome_caches (s : State) (cache : BitVec 2) (l : Leaf) : s.Caches (s.noteHome cache l) := by
  unfold State.noteHome MemSys.hint
  split
  · exact .refl s
  · refine ⟨_, rfl, ?_⟩
    split
    · exact ⟨rfl, rfl⟩
    · split <;> exact ⟨rfl, rfl⟩
theorem State.noteLoad_caches (s : State) (cache : BitVec 2) (l : Leaf) : s.Caches (s.noteLoad cache l) := by
  refine (s.noteHome_caches cache l).trans ?_
  simp only [State.noteLoad]
  refine .ite ⟨_, rfl, rfl, rfl⟩ (.ite (.refl _) (.ite ⟨_, rfl, rfl, rfl⟩ (.ite (.refl _) ?_)))
  exact State.Caches.trans ⟨_, rfl, rfl, rfl⟩ (State.fitL1_caches _ _)

/-! ## Loads (R173, R174) -/

/-- The element that a load reads, as it stands or sign-extended to w bits. -/
def extended (signed : Bool) (n w v : Nat) : Nat := if signed then signExt n w v else v
theorem extended_eq (signed : Bool) (n w v : Nat) :
    extended signed n w v = if signed = true ∧ 2 ^ (8 * n - 1) ≤ v then v + 2 ^ w - 2 ^ (8 * n) else v := by
  cases signed <;> simp [extended, signExt]

/-- A vector load that passes its checks gives each active lane its element; the caches keep what the access leaves there. -/
theorem vectorLoad_of_passes {s s2 : State} {f : FM} {hits : List Hit3} (signed : Bool) (active : fmMask f s.g ≠ 0)
    (clean : s.Clean (addrItems s.g (fmMask f s.g) f.sb f.vx)) (pass : s.Passes (.load (fmBytes f)) false false (fmAccs f s.g) s2 hits) :
    vectorLoad s f signed = .next ((hits.foldl (fun s t => s.noteLoad f.cache t.2.2) s2).setV (fmBytes f = 8) f.d (fmMask f s.g)
      (laneValue (hits.map fun t => (t.1, extended signed (fmBytes f) 32 (leNat (s2.ownBytes t.2.2.key (fmBytes f))))))) := by
  simp only [vectorLoad, if_neg active, readPoison_of_clean clean, orTrap_none, accessG_of_passes pass, extended]
theorem vectorLoad_runs {s s2 : State} {f : FM} {hits : List Hit3} {i : Instr} {signed : Bool} (runs : exec i s = settle (vectorLoad s f signed))
    (active : fmMask f s.g ≠ 0) (clean : s.Clean (addrItems s.g (fmMask f s.g) f.sb f.vx))
    (pass : s.Passes (.load (fmBytes f)) false false (fmAccs f s.g) s2 hits) :
    ∃ (val : Nat → Nat) (ms : MemSys), Runs i s (({ s2 with ms := ms } : State).setV (fmBytes f = 8) f.d (fmMask f s.g) val).retire ∧
      SameMemory s2 { s2 with ms := ms } ∧
      ∀ h ∈ hits, val h.1 = extended signed (fmBytes f) 32 (leNat (s2.ownBytes h.2.2.key (fmBytes f))) := by
  have noted := State.Caches.foldl (fun (t : State) (h : Hit3) => t.noteLoad_caches f.cache h.2.2) hits s2
  rw [vectorLoad_of_passes signed active clean pass] at runs
  obtain ⟨ms, e, mem, -⟩ := noted
  rw [e] at runs
  refine ⟨_, ms, runs, fun k => congrArg (memGet · k) mem, fun h hh => laneValue_of_mem ?_ (List.mem_map.2 ⟨h, hh, rfl⟩)⟩
  rw [List.map_map]
  exact pass.lanes_nodup

/-- A scalar load that passes its checks writes S[D]. -/
theorem scalarLoad_runs {s s2 : State} {f : FM} {h : Hit3} {rest : List Hit3} {i : Instr} {signed : Bool} (runs : exec i s = settle (scalarLoad s f signed))
    (clean : s.Clean [s.g.sitem f.sb])
    (pass : s.Passes (.load (fmBytes f)) true false [(0, ((s.g.sget f.sb).toNat : Int) + f.off.toInt)] s2 (h :: rest)) :
    ∃ ms : MemSys, Runs i s (({ s2 with ms := ms } : State).setS (snum f.d)
      (BitVec.ofNat 64 (extended signed (fmBytes f) 64 (leNat (s2.ownBytes h.2.2.key (fmBytes f)))))).retire ∧ SameMemory s2 { s2 with ms := ms } := by
  obtain ⟨ms, e, mem, -⟩ := s2.noteLoad_caches f.cache h.2.2
  simp only [scalarLoad, scalarAddr, readPoison_of_clean clean, orTrap_none, accessG_of_passes pass, e] at runs
  exact ⟨ms, runs, fun k => congrArg (memGet · k) mem⟩

/-! ## Prefetch (R179) -/

/-- A prefetch of a lane fills caches. -/
theorem prefetchOne_caches (f : FM) (s : State) (t : Nat × Int × Except (Nat × Nat) Leaf) : s.Caches (prefetchOne f s t) := by
  unfold prefetchOne
  split
  · exact .refl s
  · exact .ite (.refl s) ((s.beforeAccess_caches rfl _).trans (.ite (State.noteLoad_caches _ _ _) (State.noteHome_caches _ _ _)))

/-- A prefetch retires, and writes at most A of the leaves that its translations end at. -/
theorem pref_runs {f : FM} {s : State} (clean : s.Clean (addrItems s.g (fmMask f s.g) f.sb f.vx)) :
    ∃ t, Runs (.pref f) s t.retire ∧ s.Marks 0x10 (LeafAt (prefTranslated f s).2) t := by
  by_cases idle : fmMask f s.g = 0
  case pos =>
    refine ⟨s, ?_, .refl _ _ s⟩
    show settle _ = _
    rw [if_pos idle]
    rfl
  case neg =>
    have walks : s.Marks 0x10 (LeafAt (prefTranslated f s).2) (prefTranslated f s).1 :=
      ((s.readWindow_caches _).marks _ _).trans (translateAll_marks _ _ _ [] _)
    refine ⟨(prefTranslated f s).2.foldl (prefetchOne f) (prefTranslated f s).1, ?_,
      walks.trans ((State.Caches.foldl (prefetchOne_caches f) _ _).marks _ _)⟩
    show settle _ = _
    rw [if_neg idle, readPoison_of_clean clean]
    rfl

end Sys2Proof.Machine

section
open Sys2Proof Sys2Proof.Machine

/-- Settles O32: a load that passes its checks reads its elements in the state that they leave, and the caches keep what it read. -/
theorem loads : Obligations.Loads := by
  unfold Obligations.Loads
  refine ⟨?pref, ?vector, ?scalar⟩
  case pref =>
    intro f s clean
    obtain ⟨t, runs, ⟨ms, ch, rfl⟩, -⟩ := pref_runs clean
    exact ⟨ms, ch, runs⟩
  case vector =>
    intro f s s2 hits m active clean pass r hr
    have runs : exec r.1 s = settle (vectorLoad s f r.2) := by
      rcases List.mem_pair.1 hr with rfl | rfl <;> rfl
    obtain ⟨val, ms, done, same, lanes⟩ := vectorLoad_runs runs active clean pass
    exact ⟨val, ms, done, same, fun h hh => (lanes h hh).trans (extended_eq _ _ _ _)⟩
  case scalar =>
    intro f s s2 h rest clean pass r hr
    have runs : exec r.1 s = settle (scalarLoad s f r.2) := by
      rcases List.mem_pair.1 hr with rfl | rfl <;> rfl
    obtain ⟨ms, done, same⟩ := scalarLoad_runs runs clean pass
    rw [extended_eq] at done
    exact ⟨ms, done, same⟩

end

namespace Sys2Proof.Machine

/-! ## Sectors written back and dropped (R180, R181) -/

/-- Reading a sector after several were copied from another memory. -/
theorem memRead_copySectors (src : Memory) (x : Nat) : ∀ (l : List Nat) {m : Memory}, m.wf = true →
    memRead (l.foldl (fun m y => memSetAll m (32 * y) (memRead src (32 * y) 32)) m) (32 * x) 32 =
      if x ∈ l then memRead src (32 * x) 32 else memRead m (32 * x) 32
  | [], _, _ => by simp
  | y :: r, m, w => by
    rw [List.foldl_cons, memRead_copySectors src x r (memSetAll_wf w)]
    by_cases later : x ∈ r
    · rw [if_pos later, if_pos (List.mem_cons_of_mem _ later)]
    · rw [if_neg later]
      by_cases now : x = y
      · subst now
        have back := memRead_memSetAll w (32 * x) (memRead src (32 * x) 32)
        rw [memRead_length] at back
        rw [back, if_pos List.mem_cons_self]
      · rw [if_neg (by simp [now, later]), memRead_memSetAll_apart w]
        rw [memRead_length]
        omega

theorem MemSys.mem_writeBack_dirty {ms : MemSys} {l : List Nat} {x : Nat} : x ∈ (ms.writeBack l).dirty ↔ x ∈ ms.dirty ∧ x ∉ l := by
  simp [MemSys.writeBack]
theorem MemSys.mem_discard_dirty {ms : MemSys} {l : List Nat} {x : Nat} : x ∈ (ms.discard l).dirty ↔ x ∈ ms.dirty ∧ x ∉ l := by
  simp [MemSys.discard]
/-- Behind a write-back the dirty sectors named hold what reads see. -/
theorem MemSys.writeBack_sector {ms : MemSys} (w : ms.backing.wf = true) (l : List Nat) (x : Nat) :
    memRead (ms.writeBack l).backing (32 * x) 32 = if x ∈ ms.dirty ∧ x ∈ l then memRead ms.mem (32 * x) 32 else memRead ms.backing (32 * x) 32 := by
  have e := memRead_copySectors ms.mem x (ms.dirty.filter fun x => l.contains x) w
  simpa [MemSys.writeBack] using e
/-- What is dropped reads as the backing memory holds it. -/
theorem MemSys.discard_sector {ms : MemSys} (w : ms.mem.wf = true) (l : List Nat) (x : Nat) :
    memRead (ms.discard l).mem (32 * x) 32 =
      if (x ∈ ms.dirty ∨ x ∈ ms.stale) ∧ x ∈ l then memRead ms.backing (32 * x) 32 else memRead ms.mem (32 * x) 32 := by
  have e := memRead_copySectors ms.backing x ((ms.dirty ++ ms.stale).filter fun x => l.contains x) w
  simpa [MemSys.discard, or_and_right] using e
/-- Dropping clean sectors of which no older copy is held changes no byte. -/
theorem MemSys.discard_writeBack_mem {ms : MemSys} {l : List Nat} (h : ∀ x ∈ ms.stale, x ∉ l) : ((ms.writeBack l).discard l).mem = ms.mem := by
  have none : ((ms.writeBack l).dirty ++ (ms.writeBack l).stale).filter (fun x => l.contains x) = [] := by
    refine List.filter_eq_nil_iff.2 fun x hx => ?_
    obtain hx | hx := List.mem_append.1 hx
    · simpa using (MemSys.mem_writeBack_dirty.1 hx).2
    · simpa using h x hx
  show (List.filter _ _).foldl _ _ = _
  rw [none]
  rfl

/-- Dropping copies of lines from the caches leaves the home slices alone. -/
theorem MemSys.dropLines_keeps (ms : MemSys) (ls : List Nat) : let ms' := ls.foldl (fun ms l => ms.dropCopies (128 * l) 128) ms
    ms'.mem = ms.mem ∧ ms'.backing = ms.backing ∧ ms'.dirty = ms.dirty :=
  List.foldlRecOn (motive := fun ms' : MemSys => ms'.mem = ms.mem ∧ ms'.backing = ms.backing ∧ ms'.dirty = ms.dirty) ls _ ⟨rfl, rfl, rfl⟩
    fun _ h _ _ => h
/-- Recalling lines leaves the home slices alone. -/
theorem MemSys.recall_dirty (ms : MemSys) (k n : Nat) : (ms.recall k n).dirty = ms.dirty ∧ (ms.recall k n).stale = ms.stale := by
  unfold MemSys.recall
  split <;> exact ⟨rfl, rfl⟩
theorem MemSys.recallLines_keeps (ms : MemSys) (ls : List Nat) : let ms' := ls.foldl (fun ms l => ms.recall (128 * l) 128) ms
    ms'.mem = ms.mem ∧ ms'.backing = ms.backing ∧ ms'.dirty = ms.dirty ∧ ms'.tokens = ms.tokens := by
  refine List.foldlRecOn (motive := fun ms' : MemSys => ms'.mem = ms.mem ∧ ms'.backing = ms.backing ∧ ms'.dirty = ms.dirty ∧ ms'.tokens = ms.tokens) ls _
    ⟨rfl, rfl, rfl, rfl⟩ fun ms' h l _ => ?_
  rw [MemSys.recall_mem, MemSys.recall_backing, (ms'.recall_dirty _ _).1, show (ms'.recall (128 * l) 128).tokens = ms'.tokens by unfold MemSys.recall; split <;> rfl]
  exact h

theorem mem_lineSectors {x l : Nat} : x ∈ lineSectors l ↔ x / 4 = l := by
  simp only [lineSectors, List.mem_cons, List.not_mem_nil, or_false]
  omega
/-- The sectors of the named lines. -/
theorem mem_namedSectors {hits : List Hit3} {x : Nat} :
    x ∈ (namedLines hits).flatMap lineSectors ↔ ∃ h ∈ hits, h.2.2.key / 128 = x / 4 := by
  simp only [List.mem_flatMap, namedLines, List.mem_eraseDups, List.mem_map, mem_lineSectors]
  constructor
  · rintro ⟨_, ⟨h, hh, rfl⟩, e⟩
    exact ⟨h, hh, e.symm⟩
  · rintro ⟨h, hh, e⟩
    exact ⟨_, ⟨h, hh, rfl⟩, e.symm⟩
theorem namedLines_contains (hits : List Hit3) (l : Nat) : (namedLines hits).contains l = hits.any fun h => h.2.2.key / 128 = l := by
  rw [Bool.eq_iff_iff]
  simp [namedLines]

/-! ## Regions that split (R223) -/

/-- The memory system of t is that of s but for its tokens. -/
def State.KeepsMs (s t : State) : Prop := ∃ l, t.ms = { s.ms with tokens := l }
theorem State.KeepsMs.refl (s : State) : s.KeepsMs s := ⟨s.ms.tokens, rfl⟩
theorem State.KeepsMs.trans {s t u : State} (h : s.KeepsMs t) (k : t.KeepsMs u) : s.KeepsMs u := by
  obtain ⟨l, e⟩ := h
  obtain ⟨l', e'⟩ := k
  exact ⟨l', by rw [e', e]⟩
theorem State.KeepsMs.of_eq {s t : State} (h : t.ms = s.ms) : s.KeepsMs t := ⟨s.ms.tokens, h⟩

theorem State.focus_ms (s : State) (gid : Nat) : (s.focus gid).ms = s.ms := by
  unfold State.focus
  split
  · rfl
  · split <;> rfl
theorem State.onGroup_keepsMs {k : State → State} (hk : ∀ t : State, t.KeepsMs (k t)) (s : State) (gid : Nat) : s.KeepsMs (s.onGroup gid k) := by
  have focused : s.KeepsMs (k (s.focus gid)) := (State.KeepsMs.of_eq (s.focus_ms gid)).trans (hk _)
  unfold State.onGroup
  split
  · exact hk s
  · split
    · extract_lets back s1
      split
      · exact focused
      · exact focused.trans (.of_eq (s1.focus_ms _))
    · exact .refl s
theorem State.endRegion_keepsMs (s : State) : s.KeepsMs s.endRegion := by
  obtain ⟨l, e⟩ := s.endRegion_eq
  exact ⟨l, by rw [e]⟩
theorem State.splitRegion_keepsMs (s : State) : s.KeepsMs s.splitRegion := by
  unfold State.splitRegion
  split
  · exact .refl s
  · exact s.endRegion_keepsMs
theorem State.splitHolder_keepsMs (s : State) (t : Token) : s.KeepsMs (s.splitHolder t) := by
  unfold State.splitHolder
  split
  · exact .refl s
  · exact State.onGroup_keepsMs State.splitRegion_keepsMs s _
/-- Splitting changes no memory and no cache. -/
theorem State.splitSectors_keepsMs (s : State) (secs : List Nat) : s.KeepsMs (s.splitSectors secs) :=
  List.foldlRecOn _ _ (State.KeepsMs.refl s) fun _ h t _ => h.trans (State.splitHolder_keepsMs _ t)
/-- Where no token is held nothing splits, and nothing waits. -/
theorem State.splitSectors_of_no_tokens {s : State} (h : s.ms.tokens = []) (secs : List Nat) : s.splitSectors secs = s := by
  simp [State.splitSectors, h]
theorem State.splitWaits_of_no_tokens {s : State} (h : s.ms.tokens = []) (secs : List Nat) : s.splitWaits secs = false := by
  simp [State.splitWaits, h]

/-- No split of the group is due, and none becomes due, since it is inside no atomic. -/
def Group.Unsplit (g : Group) : Prop := g.atomic = none ∧ g.splitDue = false
/-- The same of every group there is. -/
def State.Unsplit (s : State) : Prop := (s.g.gid ≠ 0 → s.g.Unsplit) ∧ ∀ g ∈ s.others, g.Unsplit

theorem State.unsplit_iff {s : State} : s.Unsplit ↔ ∀ g ∈ s.groups, g.Unsplit := by
  unfold State.Unsplit State.groups
  split <;> simp_all
theorem mem_insertGroup {g h : Group} {l : List Group} : h ∈ insertGroup g l ↔ h = g ∨ h ∈ l := by
  induction l with
  | nil => simp [insertGroup]
  | cons x r ih =>
    unfold insertGroup
    split
    · simp only [List.mem_cons, ih]
      tauto
    · simp
theorem mem_keepGroup {g h : Group} {l : List Group} (hh : h ∈ keepGroup g l) : (h = g ∧ g.gid ≠ 0) ∨ h ∈ l := by
  unfold keepGroup at hh
  split at hh
  next => exact .inr hh
  next kept =>
    have : g.gid ≠ 0 := by simp_all
    exact (mem_insertGroup.1 hh).imp_left fun e => ⟨e, this⟩
theorem State.keepGroup_unsplit {g : Group} {l : List Group} (hg : g.gid ≠ 0 → g.Unsplit) (hl : ∀ h ∈ l, h.Unsplit) : ∀ h ∈ keepGroup g l, h.Unsplit := by
  intro h hh
  obtain ⟨rfl, named⟩ | hh := mem_keepGroup hh
  · exact hg named
  · exact hl h hh
theorem State.focus_unsplit {s : State} (h : s.Unsplit) (gid : Nat) : (s.focus gid).Unsplit := by
  unfold State.focus
  split
  · exact h
  · split
    next => exact h
    next g found =>
      exact ⟨fun _ => h.2 g (List.mem_of_find?_eq_some found), State.keepGroup_unsplit h.1 fun x hx => h.2 x (List.mem_filter.1 hx).1⟩
theorem State.splitRegion_unsplit {s : State} (h : s.Unsplit) : s.splitRegion.Unsplit := by
  obtain ⟨l, e⟩ := s.endRegion_eq
  unfold State.splitRegion
  split
  next inside =>
    refine ⟨fun named => ?_, h.2⟩
    have := (h.1 named).1
    simp_all
  next => 
    rw [e]
    exact ⟨fun named => ⟨(h.1 named).1, rfl⟩, h.2⟩
theorem State.splitHolder_unsplit {s : State} (h : s.Unsplit) (t : Token) : (s.splitHolder t).Unsplit := by
  unfold State.splitHolder
  split
  · exact h
  next g _ =>
    have done := State.splitRegion_unsplit (State.focus_unsplit h g.gid)
    unfold State.onGroup
    split
    · exact State.splitRegion_unsplit h
    · split
      · extract_lets back s1
        split
        next no => exact ⟨fun named => absurd no named, State.keepGroup_unsplit done.1 done.2⟩
        next => exact State.focus_unsplit done _
      · exact h
/-- Where no group is inside a started atomic every split is made at once. -/
theorem State.splitWaits_splitSectors {s : State} (h : s.Unsplit) (secs : List Nat) : (s.splitSectors secs).splitWaits secs = false := by
  have after : (s.splitSectors secs).Unsplit :=
    List.foldlRecOn (motive := State.Unsplit) _ _ h fun _ h t _ => State.splitHolder_unsplit h t
  simp only [State.splitWaits, List.any_eq_false, Bool.and_eq_true, not_and, List.any_eq_true, not_exists, Bool.not_eq_true]
  exact fun t _ _ g hg _ => (State.unsplit_iff.1 after g hg).2

/-! ## Line actions (R180, R181) -/

/-- Lines are dropped: the regions with tokens on them split first. -/
def State.splitAndDrop (s : State) (ls : List Nat) : State :=
  let t := s.splitSectors (ls.flatMap lineSectors)
  { t with ms := ls.foldl (fun ms l => ms.dropCopies (128 * l) 128) (t.ms.discard (ls.flatMap lineSectors)) }
theorem State.splitAndDrop_ms (s : State) (ls : List Nat) : ∃ l, let ms : MemSys := { s.ms with tokens := l }
    (s.splitAndDrop ls).ms.mem = (ms.discard (ls.flatMap lineSectors)).mem ∧ (s.splitAndDrop ls).ms.backing = s.ms.backing ∧
    (s.splitAndDrop ls).ms.dirty = (ms.discard (ls.flatMap lineSectors)).dirty := by
  obtain ⟨l, e⟩ := s.splitSectors_keepsMs (ls.flatMap lineSectors)
  have dropped := ((s.splitSectors (ls.flatMap lineSectors)).ms.discard (ls.flatMap lineSectors)).dropLines_keeps ls
  rw [e] at dropped
  refine ⟨l, ?_⟩
  simp only [State.splitAndDrop, e]
  exact dropped
theorem State.splitAndDrop_g {s : State} (h : s.ms.tokens = []) (ls : List Nat) : (s.splitAndDrop ls).g = s.g := by
  simp only [State.splitAndDrop, State.splitSectors_of_no_tokens h]
theorem State.lineAction_discard_eq (s : State) (ls : List Nat) :
    s.lineAction false true ls = ({ s with ms := ls.foldl (fun ms l => ms.recall (128 * l) 128) s.ms } : State).splitAndDrop ls := rfl
theorem State.lineAction_both_eq (s : State) (ls : List Nat) : s.lineAction true true ls =
    ({ s with ms := (ls.foldl (fun ms l => ms.recall (128 * l) 128) s.ms).writeBack (ls.flatMap lineSectors) } : State).splitAndDrop ls := rfl

section
variable {s : State} (ls : List Nat)

/-- A write-back of lines: the backing memory holds their dirty sectors, and they are dirty no more. -/
theorem State.lineAction_writeBack (w : s.MemoryWf) : let u := s.lineAction true false ls
    u.g = s.g ∧ u.ms.mem = s.ms.mem ∧ (∀ x, x ∈ u.ms.dirty ↔ x ∈ s.ms.dirty ∧ x ∉ ls.flatMap lineSectors) ∧
    ∀ x, memRead u.ms.backing (32 * x) 32 =
      if x ∈ s.ms.dirty ∧ x ∈ ls.flatMap lineSectors then memRead s.ms.mem (32 * x) 32 else memRead s.ms.backing (32 * x) 32 := by
  intro u
  obtain ⟨mem, backing, dirty, -⟩ := s.ms.recallLines_keeps ls
  refine ⟨rfl, mem, fun x => ?_, fun x => ?_⟩
  · rw [← dirty]
    exact MemSys.mem_writeBack_dirty
  · rw [← dirty, ← mem, ← backing]
    exact MemSys.writeBack_sector (by rw [backing]; exact w.2) _ x

/-- A drop of lines: what was dirty in them reads as the backing memory holds it. -/
theorem State.lineAction_discard (w : s.MemoryWf) : let u := s.lineAction false true ls
    (s.ms.tokens = [] → u.g = s.g) ∧ u.ms.backing = s.ms.backing ∧ ∀ x,
      (x ∈ ls.flatMap lineSectors → x ∉ u.ms.dirty ∧ (x ∈ s.ms.dirty → memRead u.ms.mem (32 * x) 32 = memRead s.ms.backing (32 * x) 32)) ∧
      (x ∉ ls.flatMap lineSectors → memRead u.ms.mem (32 * x) 32 = memRead s.ms.mem (32 * x) 32) := by
  intro u
  obtain ⟨mem, backing, dirty, tokens⟩ := s.ms.recallLines_keeps ls
  obtain ⟨l, umem, uback, udirty⟩ := State.splitAndDrop_ms { s with ms := ls.foldl (fun ms l => ms.recall (128 * l) 128) s.ms } ls
  rw [← s.lineAction_discard_eq] at umem uback udirty
  refine ⟨fun h => State.splitAndDrop_g (tokens.trans h) ls, uback.trans backing, fun x => ?_⟩
  have read := MemSys.discard_sector (ms := { ls.foldl (fun ms l => ms.recall (128 * l) 128) s.ms with tokens := l }) (by rw [mem]; exact w.1)
    (ls.flatMap lineSectors) x
  rw [umem, udirty]
  refine ⟨fun here => ⟨fun h => (MemSys.mem_discard_dirty.1 h).2 here, fun h => ?_⟩, fun away => ?_⟩
  · rw [← backing]
    exact read.trans (if_pos ⟨.inl (dirty ▸ h), here⟩)
  · rw [← mem]
    exact read.trans (if_neg fun h => away h.2)

/-- A write-back and drop of lines. -/
theorem State.lineAction_both (w : s.MemoryWf) : let u := s.lineAction true true ls
    (s.ms.tokens = [] → u.g = s.g) ∧ ∀ x,
      (x ∈ ls.flatMap lineSectors → x ∉ u.ms.dirty ∧ (x ∈ s.ms.dirty →
        memRead u.ms.backing (32 * x) 32 = memRead s.ms.mem (32 * x) 32 ∧ memRead u.ms.mem (32 * x) 32 = memRead s.ms.mem (32 * x) 32)) ∧
      (x ∉ ls.flatMap lineSectors →
        memRead u.ms.mem (32 * x) 32 = memRead s.ms.mem (32 * x) 32 ∧ memRead u.ms.backing (32 * x) 32 = memRead s.ms.backing (32 * x) 32) := by
  intro u
  obtain ⟨mem, backing, dirty, tokens⟩ := s.ms.recallLines_keeps ls
  obtain ⟨l, umem, uback, udirty⟩ := State.splitAndDrop_ms
    { s with ms := (ls.foldl (fun ms l => ms.recall (128 * l) 128) s.ms).writeBack (ls.flatMap lineSectors) } ls
  rw [← s.lineAction_both_eq] at umem uback udirty
  refine ⟨fun h => State.splitAndDrop_g (tokens.trans h) ls, fun x => ?_⟩
  have back := MemSys.writeBack_sector (ms := ls.foldl (fun ms l => ms.recall (128 * l) 128) s.ms) (by rw [backing]; exact w.2) (ls.flatMap lineSectors) x
  have read := MemSys.discard_sector (ms := { (ls.foldl (fun ms l => ms.recall (128 * l) 128) s.ms).writeBack (ls.flatMap lineSectors) with tokens := l })
    (by rw [MemSys.writeBack_mem, mem]; exact w.1) (ls.flatMap lineSectors) x
  rw [umem, udirty, uback]
  refine ⟨fun here => ⟨fun h => (MemSys.mem_discard_dirty.1 h).2 here, fun h => ?_⟩, fun away => ?_⟩
  · have written : memRead ((ls.foldl (fun ms l => ms.recall (128 * l) 128) s.ms).writeBack (ls.flatMap lineSectors)).backing (32 * x) 32 =
        memRead s.ms.mem (32 * x) 32 := by rw [back, if_pos ⟨dirty ▸ h, here⟩, mem]
    refine ⟨written, read.trans ?_⟩
    split
    · exact written
    · rw [MemSys.writeBack_mem, mem]
  · exact ⟨(read.trans (if_neg fun h => away h.2)).trans (by rw [MemSys.writeBack_mem, mem]), by rw [← backing]; exact back.trans (if_neg fun h => away h.2)⟩

end

/-- Cache control that passes its checks performs the group's stores, and makes its action on the lines; one that drops lines first waits
while a split is due. -/
theorem cacheControl_of_passes {s s2 : State} {f : FM} {hits : List Hit3} {a : AccSpec} (active : fmMask f s.g ≠ 0)
    (clean : s.Clean (addrItems s.g (fmMask f s.g) f.sb f.vx)) (pass : s.Passes a false false (fmAccs f s.g) s2 hits) (drops : Bool)
    (act : State → List Nat → State) : let s3 := s2.unreplayable.drain
    let secs := (namedLines hits).flatMap lineSectors
    cacheControl s f a drops act = if drops && (s3.splitSectors secs).splitWaits secs then .stay (s3.splitSectors secs) else .next (act s3 (namedLines hits)) := by
  simp only [cacheControl, if_neg active, readPoison_of_clean clean, orTrap_none, accessG_of_passes pass]

end Sys2Proof.Machine

namespace Sys2Proof.Machine

/-! ## Eviction (R181, R223, R296) -/

theorem State.evictLine_pinned {s : State} {line : Nat} (h : ∃ p ∈ s.ms.pins, p.1 = line) : s.evictLine line = s :=
  if_pos (by simpa using h)

section
variable {s : State} {line : Nat} (free : ∀ p ∈ s.ms.pins, p.1 ≠ line)
include free

/-- The state after the split that an eviction makes first. -/
theorem State.evictLine_of_free : let split := State.splitSectors { s with ms := s.ms.recall (128 * line) 128 } (lineSectors line)
    s.evictLine line = if split.splitWaits (lineSectors line) then split else
      let ms := (split.ms.writeBack (lineSectors line)).discard (lineSectors line)
      { split with ms := { ms with first := ms.first.filter (· ≠ line) } } := by
  refine if_neg fun h => ?_
  obtain ⟨p, hp, e⟩ := List.any_eq_true.1 h
  exact free p hp (by simpa using e)

/-- An eviction that does not wait writes the line's dirty sectors back and drops them. -/
theorem State.evictLine_done
    (now : (State.splitSectors { s with ms := s.ms.recall (128 * line) 128 } (lineSectors line)).splitWaits (lineSectors line) = false) :
    let t := s.evictLine line
    (s.ms.tokens = [] → t.g = s.g ∧ t.others = s.others) ∧ (∀ x, x ∈ t.ms.dirty ↔ x ∈ s.ms.dirty ∧ x / 4 ≠ line) ∧
    (s.MemoryWf → ∀ x, x / 4 = line → x ∈ s.ms.dirty → memRead t.ms.backing (32 * x) 32 = memRead s.ms.mem (32 * x) 32) ∧
    ((∀ x ∈ s.ms.stale, x / 4 ≠ line) → t.ms.mem = s.ms.mem) := by
  intro t
  obtain ⟨l, e⟩ := State.splitSectors_keepsMs { s with ms := s.ms.recall (128 * line) 128 } (lineSectors line)
  have recalled := s.ms.recall_dirty (128 * line) 128
  have eq := (State.evictLine_of_free free).trans (if_neg (by rw [now]; decide))
  have ms : t.ms.dirty = ((({ s.ms.recall (128 * line) 128 with tokens := l } : MemSys).writeBack (lineSectors line)).discard (lineSectors line)).dirty ∧
      t.ms.backing = (({ s.ms.recall (128 * line) 128 with tokens := l } : MemSys).writeBack (lineSectors line)).backing ∧
      t.ms.mem = ((({ s.ms.recall (128 * line) 128 with tokens := l } : MemSys).writeBack (lineSectors line)).discard (lineSectors line)).mem := by
    rw [show t = _ from eq, e]
    exact ⟨rfl, rfl, rfl⟩
  obtain ⟨dirty, backing, mem⟩ := ms
  refine ⟨fun none => ?_, fun x => ?_, fun w x here d => ?_, fun fresh => ?_⟩
  · have tokens : (s.ms.recall (128 * line) 128).tokens = [] := by rw [← none]; unfold MemSys.recall; split <;> rfl
    rw [show t = _ from eq, State.splitSectors_of_no_tokens tokens]
    exact ⟨rfl, rfl⟩
  · rw [dirty, MemSys.mem_discard_dirty, MemSys.mem_writeBack_dirty, and_assoc, and_self, mem_lineSectors]
    rw [show ({ s.ms.recall (128 * line) 128 with tokens := l } : MemSys).dirty = s.ms.dirty from recalled.1]
  · rw [backing, MemSys.writeBack_sector (by rw [MemSys.recall_backing]; exact w.2), if_pos ⟨recalled.1.symm ▸ d, mem_lineSectors.2 here⟩, MemSys.recall_mem]
  · rw [mem, MemSys.discard_writeBack_mem, MemSys.recall_mem]
    intro x hx
    rw [mem_lineSectors]
    exact fresh x (recalled.2 ▸ hx)

end

/-! ## Ownership (R186) -/

theorem mem_of_mem_keepFirst {α : Type} {q : α → Bool} {x : α} : ∀ {n : Nat} {l : List α}, x ∈ keepFirst q n l → x ∈ l
  | _, [], h => h
  | n, y :: r, h => by
    unfold keepFirst at h
    split at h
    · cases n with
      | zero => exact List.mem_cons_of_mem _ (mem_of_mem_keepFirst h)
      | succ n => exact (List.mem_cons.1 h).elim (fun e => e ▸ List.mem_cons_self) fun h => List.mem_cons_of_mem _ (mem_of_mem_keepFirst h)
    · exact (List.mem_cons.1 h).elim (fun e => e ▸ List.mem_cons_self) fun h => List.mem_cons_of_mem _ (mem_of_mem_keepFirst h)
/-- An entry that is not counted stays. -/
theorem mem_keepFirst_of_not {α : Type} {q : α → Bool} {x : α} (hx : q x = false) : ∀ {n : Nat} {l : List α}, x ∈ l → x ∈ keepFirst q n l
  | _, [], h => h
  | n, y :: r, h => by
    unfold keepFirst
    split
    next counted =>
      have h := (List.mem_cons.1 h).resolve_left fun e => by simp [e, counted] at hx
      cases n with
      | zero => exact mem_keepFirst_of_not hx h
      | succ n => exact List.mem_cons_of_mem _ (mem_keepFirst_of_not hx h)
    next => exact (List.mem_cons.1 h).elim (fun e => e ▸ List.mem_cons_self) fun h => List.mem_cons_of_mem _ (mem_keepFirst_of_not hx h)
/-- The first entry stays where any does. -/
theorem mem_keepFirst_head {α : Type} {q : α → Bool} {x : α} {n : Nat} {l : List α} (hn : 0 < n) : x ∈ keepFirst q n (x :: l) := by
  obtain ⟨k, rfl⟩ := Nat.exists_eq_add_of_lt hn
  unfold keepFirst
  split <;> exact List.mem_cons_self

theorem linesOf_line (line : Nat) : linesOf (128 * line) 128 = [line] := by
  have one : (128 * line + 128 - 1) / 128 - 128 * line / 128 + 1 = 1 := by omega
  rw [linesOf, if_neg (by decide), one]
  simp
theorem MemSys.mem_recall_owned {ms : MemSys} {line : Nat} {o : Nat × Nat} : o ∈ (ms.recall (128 * line) 128).owned ↔ o ∈ ms.owned ∧ o.1 ≠ line := by
  unfold MemSys.recall
  split
  next none => simp [none]
  next => simp [linesOf_line]

/-- A grant that is none: no core, no line of device memory, a line that the core owns already or that is pod-mapped. -/
theorem lineOwnershipGrant_none {core line : Nat} {s : State} (h : 256 ≤ core ∨ 2 ^ 52 ≤ 128 * line ∨ (line, core) ∈ s.ms.owned ∨ s.podMapped line = true) :
    Runs (.lineOwnershipGrant core line) s s := by
  show done (if _ then _ else _) = _
  rw [if_neg]
  · rfl
  · simp only [Bool.and_eq_true, decide_eq_true_eq, Bool.not_eq_true', List.contains_eq_mem, decide_eq_false_iff_not]
    rintro ⟨⟨⟨hl, hc⟩, hp⟩, ho⟩
    rcases h with h | h | h | h
    · omega
    · exact absurd hl (Nat.not_lt.2 h)
    · exact ho h
    · rw [hp] at h; cases h

/-- A grant makes the core the line's only owner; its cache may give up other lines. -/
theorem lineOwnershipGrant_runs {core line : Nat} {s : State} (hc : core < 256) (hl : 128 * line < 2 ^ 52) (ho : (line, core) ∉ s.ms.owned)
    (hp : s.podMapped line = false) (room : s.usedBanks core < 96) :
    ∃ ow l1, Runs (.lineOwnershipGrant core line) s { s with ms := { s.ms with owned := ow, l1 := l1 } } ∧ (line, core) ∈ ow ∧
      (∀ o ∈ ow, o.1 = line → o.2 = core) ∧ (∀ o ∈ ow, o = (line, core) ∨ o ∈ s.ms.owned) ∧
      (∀ o ∈ s.ms.owned, o.1 ≠ line → o.2 ≠ core → o ∈ ow) ∧ (∀ o ∈ l1, o ∈ s.ms.l1) := by
  refine ⟨keepFirst (fun o => o.2 = core) (s.l1Lines core) ((line, core) :: (s.ms.recall (128 * line) 128).owned),
    keepFirst (fun o => o.1 = core) (s.l1Lines core) s.ms.l1, ?runs, mem_keepFirst_head ?room, ?only, ?from_, ?others, fun o h => mem_of_mem_keepFirst h⟩
  case runs =>
    have granted : (decide (128 * line < spaceSize) && decide (core < 256) && !s.podMapped line && !s.ms.owned.contains (line, core)) = true := by
      simp [show 128 * line < spaceSize from hl, hc, ho, hp]
    show done (if _ then _ else _) = _
    rw [if_pos granted]
    unfold MemSys.recall
    split <;> rfl
  case room => 
    show 0 < 128 * (96 - s.usedBanks core)
    omega
  case only =>
    intro o h same
    obtain rfl | h := List.mem_cons.1 (mem_of_mem_keepFirst h)
    · rfl
    · exact absurd same (MemSys.mem_recall_owned.1 h).2
  case from_ =>
    exact fun o h => (List.mem_cons.1 (mem_of_mem_keepFirst h)).imp_right fun h => (MemSys.mem_recall_owned.1 h).1
  case others =>
    exact fun o h line' core' => mem_keepFirst_of_not (by simpa using core') (List.mem_cons_of_mem _ (MemSys.mem_recall_owned.2 ⟨h, line'⟩))

/-! ## Cache control that drops lines (R180) -/

/-- cinv and cwbi: at co the first-level copies go; at de the lines go, once no split is due. -/
theorem dropControl_runs {i : Instr} {s s2 : State} {f : FM} {hits : List Hit3} {a : AccSpec} {wb : Bool}
    (runs : exec i s = settle (cacheControl s f a (f.scope != 2) fun s ls => if f.scope = 2 then s.dropL1 ls else s.lineAction wb true ls))
    (active : fmMask f s.g ≠ 0) (clean : s.Clean (addrItems s.g (fmMask f s.g) f.sb f.vx)) (pass : s.Passes a false false (fmAccs f s.g) s2 hits) :
    let s3 := s2.unreplayable.drain
    let secs := (namedLines hits).flatMap lineSectors
    (f.scope = 2 → Runs i s (s3.dropL1 (namedLines hits)).retire) ∧
    (f.scope ≠ 2 → (s3.splitSectors secs).splitWaits secs = true → Runs i s (s3.splitSectors secs)) ∧
    (f.scope ≠ 2 → (s3.splitSectors secs).splitWaits secs = false → Runs i s (s3.lineAction wb true (namedLines hits)).retire) := by
  intro s3 secs
  have ends : exec i s = settle (if (f.scope != 2) && (s3.splitSectors secs).splitWaits secs then .stay (s3.splitSectors secs)
      else .next (if f.scope = 2 then s3.dropL1 (namedLines hits) else s3.lineAction wb true (namedLines hits))) :=
    runs.trans (congrArg settle (cacheControl_of_passes active clean pass _ _))
  refine ⟨fun co => ?_, fun de waits => ?_, fun de now => ?_⟩
  · rw [Runs, ends, if_neg (by simp [co]), if_pos co]; rfl
  · rw [Runs, ends, if_pos (by rw [waits, Bool.and_true]; exact bne_iff_ne.2 de)]; rfl
  · rw [Runs, ends, if_neg (by simp [now]), if_neg de]; rfl

end Sys2Proof.Machine

section
open Sys2Proof Sys2Proof.Machine

/-- Settles O34: what passes its checks makes its line action, whose effect on each sector is said once; a split is made at once where no group
is inside a started atomic. -/
theorem cacheActions : Obligations.CacheActions := by
  unfold Obligations.CacheActions
  refine ⟨?pref, ?control, fun s secs h => State.splitWaits_splitSectors (State.unsplit_iff.2 h) secs,
    fun core line s => ⟨lineOwnershipGrant_none, fun hc hl ho hp room => lineOwnershipGrant_runs hc hl ho hp room⟩, ?evict⟩
  case pref =>
    intro f s w active clean p
    obtain ⟨t, runs, ⟨ms, ch, rfl⟩, bytes⟩ := pref_runs clean
    refine ⟨ms, ch, runs, fun k => ((bytes w).2 k).imp_right ?_⟩
    rintro ⟨e, a, ⟨⟨i, va, _⟩, ht, l, rfl, rfl⟩, rfl⟩
    exact ⟨e, i, va, l, ht, rfl⟩
  case control =>
    intro f s s2 hits w active clean s3 here sector secs split first
    have w3 (a : AccSpec) (pass : s.Passes a false false (fmAccs f s.g) s2 hits) : s3.MemoryWf := State.drain_wf (pass.wf w)
    have named (x : Nat) : x ∈ secs ↔ here x := mem_namedSectors
    have dropped : s3.dropL1 (namedLines hits) = first := by simp only [State.dropL1, namedLines_contains, first]
    refine ⟨fun pass => ⟨?cwb, ?cwbi⟩, fun pass => ?cinv⟩
    case cwb =>
      have runs : exec (.cwb f) s = _ := congrArg settle (cacheControl_of_passes active clean pass false fun s ls => s.lineAction true false ls)
      obtain ⟨same, mem, dirty, backing⟩ := State.lineAction_writeBack (namedLines hits) (w3 _ pass)
      refine ⟨_, runs, same, fun k => congrArg (memGet · k) mem, fun x => ⟨fun h => ?_, fun h => ?_⟩⟩
      · have hx := (named x).2 h
        exact ⟨fun d => ((dirty x).1 d).2 hx, fun d => (backing x).trans (if_pos ⟨d, hx⟩)⟩
      · have hx := mt (named x).1 h
        exact ⟨(dirty x).trans (and_iff_left hx), (backing x).trans (if_neg fun d => hx d.2)⟩
    case cwbi =>
      obtain ⟨co, waits, de⟩ := dropControl_runs (i := .cwbi f) (wb := true) rfl active clean pass
      obtain ⟨same, sectors⟩ := State.lineAction_both (namedLines hits) (w3 _ pass)
      exact ⟨fun h => dropped ▸ co h, waits, fun h now => ⟨_, de h now, same, fun x =>
        ⟨fun h => (sectors x).1 ((named x).2 h), fun h => (sectors x).2 (mt (named x).1 h)⟩⟩⟩
    case cinv =>
      obtain ⟨co, waits, de⟩ := dropControl_runs (i := .cinv f) (wb := false) rfl active clean pass
      obtain ⟨same, backing, sectors⟩ := State.lineAction_discard (namedLines hits) (w3 _ pass)
      exact ⟨fun h => dropped ▸ co h, waits, fun h now => ⟨_, de h now, same, backing, fun x =>
        ⟨fun h => (sectors x).1 ((named x).2 h), fun h => (sectors x).2 (mt (named x).1 h)⟩⟩⟩
  case evict =>
    intro line s w
    refine ⟨fun pinned => congrArg done (State.evictLine_pinned pinned), ?_⟩
    intro secs split
    refine ⟨fun free waits => congrArg done ((State.evictLine_of_free free).trans (if_pos waits)), fun free now => ?_⟩
    obtain ⟨same, dirty, backing, mem⟩ := State.evictLine_done free now
    exact ⟨_, rfl, same, fun x here => ⟨fun d => ((dirty x).1 d).2 here, backing w x here⟩, fun fresh k => congrArg (memGet · k) (mem fresh)⟩

end

namespace Sys2Proof.Machine

/-! ## The snare of a store or an atomic (R218, R219) -/

theorem State.tokens_caches (s : State) (l : List Token) : s.Caches { s with ms := { s.ms with tokens := l } } := ⟨_, rfl, rfl, rfl⟩
/-- What asks for more than to read makes no room for a reader, so no region splits. -/
theorem State.snareOne_caches (s : State) (sec : Nat) {write atomic : Bool} (h : (write || atomic) = true) : s.Caches (s.snareOne sec write atomic).1 := by
  have squashed (l : List Token) : s.Caches (l.foldl State.squash s) := State.Caches.foldl (fun t _ => t.tokens_caches _) l s
  simp only [State.snareOne, h]
  split
  · exact .refl s
  · exact .refl s
  · split
    · exact squashed _
    · exact (squashed _).trans ((State.tokens_caches _ _).trans (State.tokens_caches _ _))
  · contradiction
theorem snareAll_caches {write atomic : Bool} (h : (write || atomic) = true) : ∀ (l : List Hit3) (s : State), s.Caches (snareAll write atomic l s).1
  | [], s => .refl s
  | (_, _, l) :: r, s => by
    unfold snareAll
    split
    · exact snareAll_caches h r s
    · exact (s.snareOne_caches (l.key / 32) h).trans (snareAll_caches h r _)
theorem State.snare_caches {s s2 : State} {write atomic scalar : Bool} {ts : List Hit3} (h : (write || atomic) = true)
    (ok : s.snare write atomic scalar ts = .ok s2) : s.Caches s2 := by
  have all := (s.tokens_caches _).trans (snareAll_caches h ts s.dropStale)
  unfold State.snare at ok
  dsimp only at ok
  split at ok
  · cases ok
  · split at ok
    · cases ok
    · cases ok
      exact all.trans (State.tokens_caches _ _)
/-- A store or an atomic that passes its checks has changed the memory system and the choices alone. -/
theorem State.Passes.reads {s s2 : State} {a : AccSpec} {scalar atomic : Bool} {accs : List (Nat × Int)} {hits : List Hit3}
    (h : s.Passes a scalar atomic accs s2 hits) (firm : (decide (a.acc = 1) || atomic) = true) : s.Reads s2 := by
  obtain ⟨s1, check, -, snare⟩ := h
  have walks := (checkAccess_ok_reads check).1
  split at snare
  · exact snare ▸ walks
  · exact walks.trans (State.snare_caches firm snare).reads

/-! ## One read-modify-write (R182 to R184) -/

theorem leNat_lt : ∀ l : List Byte, leNat l < 2 ^ (8 * l.length)
  | [] => by decide
  | b :: r => by
    have := leNat_lt r
    have := b.isLt
    rw [leNat, List.length_cons, Nat.mul_succ, Nat.pow_add]
    omega
theorem leNat_memRead_lt (m : Memory) (k w : Nat) : leNat (memRead m k w) < 2 ^ (8 * w) := by
  simpa using leNat_lt (memRead m k w)

/-- The value that an operation leaves in w bytes (R87, R183, R184). -/
def atomicValue (w aop old x cmp : Nat) : Nat :=
  match aop with
  | 0 => (old + x) % 2 ^ (8 * w)
  | 1 => if signedOf w x < signedOf w old then x else old
  | 2 => if signedOf w old < signedOf w x then x else old
  | 3 => if x < old then x else old
  | 4 => if old < x then x else old
  | 5 => old &&& x
  | 6 => old ||| x
  | 7 => old ^^^ x
  | 8 => x
  | 9 => if old = cmp then x else old
  | 10 => (f32.round 0 0 false (fvAdd 0 (f32.read old) (f32.read x)).x).bits % 2 ^ 32
  | 11 => (fmtMinMax f32 false old x).bits % 2 ^ 32
  | _ => (fmtMinMax f32 true old x).bits % 2 ^ 32

/-- A choice between two values that fit does. -/
theorem ite_mod_of_lt {c : Prop} [Decidable c] {x y n : Nat} (hx : x < n) (hy : y < n) : (if c then x else y) % n = if c then x else y := by
  split <;> exact Nat.mod_eq_of_lt ‹_›
theorem aopNew_mod {w aop old x cmp : Nat} (ho : old < 2 ^ (8 * w)) (hx : x < 2 ^ (8 * w)) (range : aop < 10 ∨ (w = 4 ∧ aop < 13)) :
    aopNew aop w old x cmp % 2 ^ (8 * w) = atomicValue w aop old x cmp := by
  have least : min old x = if x < old then x else old := by rw [min_def]; split_ifs <;> omega
  have greatest : max old x = if old < x then x else old := by rw [max_def]; split_ifs <;> omega
  match aop, range with
  | 0, _ => exact Nat.mod_mod _ _
  | 1, _ | 2, _ | 9, _ => exact ite_mod_of_lt hx ho
  | 3, _ => exact (congrArg (· % _) least).trans (ite_mod_of_lt hx ho)
  | 4, _ => exact (congrArg (· % _) greatest).trans (ite_mod_of_lt hx ho)
  | 5, _ => exact Nat.mod_eq_of_lt (Nat.and_lt_two_pow _ hx)
  | 6, _ => exact Nat.mod_eq_of_lt (Nat.or_lt_two_pow ho hx)
  | 7, _ => exact Nat.mod_eq_of_lt (Nat.xor_lt_two_pow ho hx)
  | 8, _ => exact Nat.mod_eq_of_lt hx
  | 10, .inr ⟨h, _⟩ | 11, .inr ⟨h, _⟩ | 12, .inr ⟨h, _⟩ => subst h; rfl

theorem State.atomicAt_mem (s : State) (k w aop x cmp : Nat) : let old := leNat (memRead s.ms.mem k w)
    (s.atomicAt k w aop x cmp).1.ms.mem = if aop = 9 ∧ old ≠ cmp then s.ms.mem else memSetAll s.ms.mem k (leBytes w (aopNew aop w old x cmp)) := by
  intro old
  have mem : (s.ms.atomic k w aop x cmp).mem = if aop = 9 ∧ old ≠ cmp then s.ms.mem else memSetAll s.ms.mem k (leBytes w (aopNew aop w old x cmp)) := by
    have cond : (decide (aop = 9) && leNat (memRead s.ms.mem k w) != cmp) = true ↔ aop = 9 ∧ old ≠ cmp := by simp [old]
    simp only [MemSys.atomic]
    by_cases failed : aop = 9 ∧ old ≠ cmp
    · rw [if_pos (cond.2 failed), if_pos failed]
      exact MemSys.recall_mem _ _ _
    · rw [if_neg (mt cond.1 failed), if_neg failed, MemSys.write_mem]
  rw [← mem]
  unfold State.atomicAt
  dsimp only
  split <;> rfl

theorem State.atomicAt_reads (s : State) (k w aop x cmp : Nat) : s.Reads (s.atomicAt k w aop x cmp).1 := s.reads_ms _

/-- The new value stands in the bytes of the element. -/
theorem State.atomicAt_value {s : State} (h : s.MemoryWf) {w aop x cmp : Nat} (hx : x < 2 ^ (8 * w)) (range : aop < 10 ∨ (w = 4 ∧ aop < 13)) (k : Nat) :
    leNat (memRead (s.atomicAt k w aop x cmp).1.ms.mem k w) = atomicValue w aop (leNat (memRead s.ms.mem k w)) x cmp := by
  rw [State.atomicAt_mem]
  split
  next failed =>
    obtain ⟨rfl, other⟩ := failed
    exact (if_neg other).symm
  next =>
    have back := memRead_memSetAll h.1 k (leBytes w (aopNew aop w (leNat (memRead s.ms.mem k w)) x cmp))
    rw [leBytes_length] at back
    rw [back, leNat_leBytes, aopNew_mod (leNat_memRead_lt _ _ _) hx range]
theorem State.atomicAt_outside {s : State} (h : s.MemoryWf) (k w aop x cmp : Nat) : SameMemoryOutside k w s (s.atomicAt k w aop x cmp).1 := by
  intro a out
  rw [State.atomicAt_mem]
  split
  · rfl
  · rw [memGet_memSetAll _ _ _ h.1, leBytes_length, if_neg (by omega)]

/-! ## The lanes of an atomic (R183, R185) -/

section
variable (w aop : Nat) (x cmp : Nat → Nat)

theorem atomicLanes_reads : ∀ (l : List (Nat × Nat)) (s : State), s.Reads (atomicLanes w aop x cmp l s).1
  | [], s => .refl s
  | (i, k) :: r, s => (s.atomicAt_reads k w aop (x i) (cmp i)).trans (atomicLanes_reads r _)
theorem atomicLanes_lanes : ∀ (l : List (Nat × Nat)) (s : State), (atomicLanes w aop x cmp l s).2.map (·.1) = l.map (·.1)
  | [], _ => rfl
  | (i, _) :: r, _ => congrArg (List.cons i) (atomicLanes_lanes r _)
/-- A lane sees what the lanes below it have left. -/
theorem atomicLanes_append (i k : Nat) : ∀ (l : List (Nat × Nat)) (s : State), let r := atomicLanes w aop x cmp l s
    let q := r.1.atomicAt k w aop (x i) (cmp i)
    atomicLanes w aop x cmp (l ++ [(i, k)]) s = (q.1, r.2 ++ [(i, q.2)])
  | [], _ => rfl
  | (j, a) :: r, s => by
    have ih := atomicLanes_append i k r (s.atomicAt a w aop (x j) (cmp j)).1
    simp only [List.cons_append, atomicLanes, ih]

variable {w aop x cmp}

/-- An atomic whose lanes nothing comes between performs the lanes that are left. -/
theorem atomicRun_whole {run : AtomicRun} {s : State} (h : s.pauses = [] ∨ run.whole = true) (k : State → List (Nat × Nat) → Res) :
    let q := atomicLanes w aop x cmp (run.left.take run.left.length) s
    atomicRun w aop x cmp run s k = k { q.1 with g := { q.1.g with atomic := none } } (run.olds ++ q.2) := by
  have all : (if run.whole then (run.left.length, s) else s.takePause run.left.length) = (run.left.length, s) := by
    by_cases whole : run.whole = true
    · exact if_pos whole
    · rw [if_neg whole, State.takePause, h.resolve_right whole]
  unfold atomicRun
  rw [all]
  exact if_pos (Nat.le_refl _)
/-- One that pauses performs lanes up to the pause. -/
theorem atomicRun_pause {run : AtomicRun} {s : State} {n : Nat} {rest : List Nat} (part : run.whole = false) (h : s.pauses = n :: rest)
    (hn : n < run.left.length) (k : State → List (Nat × Nat) → Res) : let q := atomicLanes w aop x cmp (run.left.take n) { s with pauses := rest }
    atomicRun w aop x cmp run s k =
      .stay { q.1 with g := { q.1.g with atomic := some { run with left := run.left.drop n, olds := run.olds ++ q.2 } } } := by
  have some : (if run.whole then (run.left.length, s) else s.takePause run.left.length) = (n, { s with pauses := rest }) := by
    rw [part, if_neg (by decide), State.takePause, h]
  unfold atomicRun
  rw [some]
  exact if_neg (by omega)

end

theorem State.beforeAtomic_keeps (s : State) (ord : BitVec 2) : (s.beforeAtomic ord).pauses = s.pauses ∧ (s.beforeAtomic ord).g.atomic = s.g.atomic := by
  obtain ⟨q, ms, e⟩ := s.unreplayable.drain_changes
  obtain ⟨l, e'⟩ := s.unreplayable.drain.endRegion_eq
  simp only [State.beforeAtomic]
  split
  · rw [e]; exact ⟨rfl, rfl⟩
  · rw [e', e]; exact ⟨rfl, rfl⟩

/-! ## atom, red and atomu (R182, R185) -/

theorem State.no_atomic {s : State} (h : s.g.atomic = none) : { s with g := { s.g with atomic := none } } = s := by rw [← h]

/-- The operand and the compare value of a lane. -/
def atomicOperand (f : MA) (g : Group) (n : Byte) (i : Nat) : Nat := if decide (maBytes f = 8) then (g.vpair n i).toNat else (g.vget n i).toNat

theorem atomicOperand_eq (f : MA) (g : Group) (n : Byte) :
    (fun i => if maBytes f = 8 then (g.vpair n i).toNat else (g.vget n i).toNat) = atomicOperand f g n := by
  funext i
  simp only [atomicOperand, decide_eq_true_eq]

/-- An atomic that has started goes on with the lanes left. -/
theorem vectorAtomic_started {s : State} {run : AtomicRun} (h : s.g.atomic = some run) (i : Instr) (f : MA) (olds : State → W32 → List (Nat × Nat) → State) :
    vectorAtomic s i f olds = atomicRun (maBytes f) f.aop.toNat (atomicOperand f s.g (maOperand f)) (atomicOperand f s.g f.d) run s
      fun t os => .next (olds t (maMask f s.g) os) := by
  dsimp only [vectorAtomic, startedOr]
  rw [h, atomicOperand_eq, atomicOperand_eq]

/-- An atomic that passes its checks, and that nothing comes between the lanes of, performs them all and retires. -/
theorem atomicRun_starts {s s2 : State} {a : AccSpec} {scalar : Bool} {accs : List (Nat × Int)} {hits : List Hit3} (idle : s.g.atomic = none)
    (whole : s.pauses = [] ∨ ∃ h ∈ hits, h.2.2.rc = true) (pass : s.Passes a scalar true accs s2 hits) (w aop : Nat) (x cmp : Nat → Nat) (ord : BitVec 2)
    (i : Instr) (k : State → List (Nat × Nat) → Res) : let r := atomicLanes w aop x cmp (hits.map fun h => (h.1, h.2.2.key)) (s2.beforeAtomic ord)
    atomicRun w aop x cmp (runOf i hits) (s2.beforeAtomic ord) k = k r.1 r.2 := by
  intro r
  have reads := pass.reads (Bool.or_true _)
  obtain ⟨pauses, atomic⟩ := s2.beforeAtomic_keeps ord
  have run : (s2.beforeAtomic ord).pauses = [] ∨ (runOf i hits).whole = true := by
    rw [pauses, reads.pauses]
    exact whole.imp_right fun h => by simpa [runOf] using h
  have none : r.1.g.atomic = none := by rw [(atomicLanes_reads w aop x cmp _ _).g, atomic, reads.g, idle]
  rw [atomicRun_whole run, List.take_length]
  exact congrArg (fun t => k t r.2) (State.no_atomic none)

theorem vectorAtomic_starts {s s2 : State} {f : MA} {hits : List Hit3} (active : maMask f s.g ≠ 0) (idle : s.g.atomic = none)
    (whole : s.pauses = [] ∨ ∃ h ∈ hits, h.2.2.rc = true)
    (clean : s.Clean (addrItems s.g (maMask f s.g) f.sb f.vx ++ s.g.vitems (decide (maBytes f = 8)) (maMask f s.g) f.d ++
      s.g.vitems (decide (maBytes f = 8)) (maMask f s.g) (maOperand f)))
    (pass : s.Passes (.atomic (maBytes f)) false true (laneAccs s.g (maMask f s.g) f.sb f.vx f.scale f.off.toInt) s2 hits) (i : Instr)
    (olds : State → W32 → List (Nat × Nat) → State) :
    let r := atomicLanes (maBytes f) f.aop.toNat (atomicOperand f s.g (maOperand f)) (atomicOperand f s.g f.d) (hits.map fun h => (h.1, h.2.2.key))
      (s2.beforeAtomic f.ord)
    vectorAtomic s i f olds = .next (olds r.1 (maMask f s.g) r.2) := by
  intro r
  dsimp only [vectorAtomic, startedOr]
  rw [idle]
  dsimp only
  rw [if_neg active, readPoison_of_clean clean, orTrap_none, accessG_of_passes pass, atomicOperand_eq, atomicOperand_eq]
  exact atomicRun_starts idle whole pass _ _ _ _ _ i _

/-- What a lane read, found among the lanes of a list. -/
theorem laneValue_of_find {vs : List (Nat × Nat)} {i : Nat} {o : Nat × Nat} (h : vs.find? (·.1 = i) = some o) : laneValue vs i = o.2 := by
  rw [laneValue, h]
  rfl

end Sys2Proof.Machine

section
open Sys2Proof Sys2Proof.Machine

/-- Settles O35: one read-modify-write is said once; an atomic performs its lanes in order, up to a pause where one may come. -/
theorem atomics : Obligations.Atomics := by
  unfold Obligations.Atomics
  refine ⟨?grant, ?one, fun w aop x cmp l i k s => atomicLanes_append w aop x cmp i k l s, ?started, ?vector, ?scalar⟩
  case grant =>
    intro core line s hc hl free hp room
    obtain ⟨ow, l1, runs, mine, -⟩ := lineOwnershipGrant_runs hc hl (fun h => free _ h rfl) hp room
    exact ⟨_, runs, mine, rfl, rfl, rfl⟩
  case one =>
    intro s k w aop x cmp wf hx _ _ range old new r
    exact ⟨rfl, rfl, State.atomicAt_value wf hx range k, State.atomicAt_outside wf k w aop x cmp⟩
  case started =>
    intro f s run m wide val r after started
    have goes (i : Instr) (olds : State → W32 → List (Nat × Nat) → State) := vectorAtomic_started started i f olds
    refine ⟨fun whole => ?whole, fun n rest part pauses hn => ?pause⟩
    case whole =>
      exact ⟨⟨_, fun k o h => laneValue_of_find h, congrArg settle ((goes (.atom f) _).trans (atomicRun_whole whole _))⟩,
        congrArg settle ((goes (.red f) _).trans (atomicRun_whole whole _))⟩
    case pause =>
      intro q i hi
      rcases List.mem_pair.1 hi with rfl | rfl
      · exact congrArg settle ((goes (.atom f) _).trans (atomicRun_pause part pauses hn _))
      · exact congrArg settle ((goes (.red f) _).trans (atomicRun_pause part pauses hn _))
  case vector =>
    intro f s s2 hits m wide val active idle whole clean pass r
    have goes (i : Instr) (olds : State → W32 → List (Nat × Nat) → State) := vectorAtomic_starts active idle whole clean pass i olds
    refine ⟨⟨laneValue r.2, fun o h => laneValue_of_mem ?_ h, congrArg settle (goes (.atom f) _)⟩, congrArg settle (goes (.red f) _)⟩
    rw [atomicLanes_lanes, List.map_map]
    exact pass.lanes_nodup
  case scalar =>
    intro f s s2 h idle whole clean pass x r
    have lane : h.1 = 0 := congrArg Prod.fst (List.singleton_inj.1 pass.keys)
    have starts : exec (.atomu f) s = settle (.next (r.1.setS (snum f.d) (BitVec.ofNat 64 (laneValue [(h.1, r.2)] 0)))) := by
      show settle (startedOr s _ _) = _
      rw [startedOr, idle]
      dsimp only
      rw [readPoison_of_clean clean, orTrap_none]
      exact congrArg settle ((accessG_of_passes pass _).trans
        (atomicRun_starts idle (whole.imp_right fun rc => ⟨h, List.mem_singleton_self h, rc⟩) pass _ _ (fun _ => x) _ _ _ _))
    rwa [lane] at starts

end

namespace Sys2Proof.Machine

/-! ## Performing stores (R178, R211, R225) -/

theorem State.settleTokens_mem (s : State) : s.settleTokens.ms.mem = s.ms.mem := by
  obtain ⟨l, e⟩ := s.settleTokens_eq
  rw [e]
theorem State.drainOne_mem {s : State} (h : s.g.relBuf = []) {p : PStore} {r : List PStore} (q : s.g.storeQ = p :: r) :
    s.drainOne.ms.mem = memSetAll s.ms.mem p.key p.bytes := by
  simp only [State.drainOne, q, Group.blocked_of_empty h]
  exact (State.settleTokens_mem _).trans (MemSys.write_mem _ _ _ _)
/-- The oldest stores are performed in program order, when the release buffer holds none. -/
theorem drainN_mem : ∀ (n : Nat) {s : State}, s.g.relBuf = [] →
    (drainN n s).ms.mem = (s.g.storeQ.take n).foldl (fun m p => memSetAll m p.key p.bytes) s.ms.mem
  | 0, _, _ => rfl
  | n + 1, s, h => by
    rw [drainN, drainN_mem n (by rw [s.drainOne_relBuf, h]), State.drainOne_storeQ h]
    cases q : s.g.storeQ with
    | nil => simp [State.drainOne, q]
    | cons p r => rw [State.drainOne_mem h q]; rfl
theorem State.drain_mem {s : State} (h : s.g.relBuf = []) : s.drain.ms.mem = s.g.storeQ.foldl (fun m p => memSetAll m p.key p.bytes) s.ms.mem := by
  rw [State.drain, drainN_mem _ h, List.take_length]
theorem MemSys.writeBackAll_dirty (ms : MemSys) : ms.writeBackAll.dirty = [] := by
  simp [MemSys.writeBackAll, MemSys.writeBack]

/-- Every store of the group is performed; at sy the backing memory holds what is dirty. -/
theorem State.performAt_eq {s : State} (h : s.g.relBuf = []) (sc : BitVec 4) : ∃ ms, s.performAt sc = { s with g := { s.g with storeQ := [] }, ms := ms } ∧
    ms.mem = s.g.storeQ.foldl (fun m p => memSetAll m p.key p.bytes) s.ms.mem ∧ (sc = 11 → ms.dirty = []) := by
  obtain ⟨ms, e⟩ := State.drain_eq h
  have mem := State.drain_mem h
  simp only [State.performAt]
  by_cases sy : sc = 11
  · refine ⟨ms.writeBackAll, by rw [if_pos sy, e], ?_, fun _ => ms.writeBackAll_dirty⟩
    rw [← mem, e]
    rfl
  · exact ⟨ms, by rw [if_neg sy, e], by rw [← mem, e], fun h => absurd h sy⟩

/-! ## Fences (R216, R225, R226) -/

/-- u is s past a fence: the registers stand, the stores q of the group are performed if all holds, and wait in the queue otherwise. -/
def State.Fenced (s u : State) (q : List PStore) (all sy : Prop) : Prop :=
  u.g.r = s.g.r ∧ u.g.pc = s.g.pc ∧ u.others = s.others ∧
  (all → u.g.storeQ = [] ∧ u.ms.mem = q.foldl (fun m p => memSetAll m p.key p.bytes) s.ms.mem ∧ (sy → u.ms.dirty = [])) ∧
  (¬ all → u.g.storeQ = q ∧ u.ms.mem = s.ms.mem)

/-- A fence performs the stores at co or wider with .rel or .ar, and then ends the region. -/
theorem execFence_runs (f : FY) (s : State) : ∃ u : State, Runs (.fence f) s u.retire ∧ u.g.seq = s.g.seq + 1 ∧
    s.Fenced u s.unreplayable.g.storeQ (2 ≤ f.scope.toNat ∧ f.ord.toNat ≠ 1) (f.scope = 11) := by
  have cond : (scopeCo f.scope && f.ord.toNat != 1) = true ↔ 2 ≤ f.scope.toNat ∧ f.ord.toNat ≠ 1 := by simp [scopeCo]
  refine ⟨_, rfl, ?_⟩
  by_cases all : 2 ≤ f.scope.toNat ∧ f.ord.toNat ≠ 1
  · rw [if_pos (cond.2 all)]
    obtain ⟨l, e⟩ := (s.unreplayable.performAt f.scope).endRegion_eq
    obtain ⟨ms, e', mem, dirty⟩ := State.performAt_eq (s := s.unreplayable) rfl f.scope
    rw [e, e']
    exact ⟨rfl, rfl, rfl, rfl, fun _ => ⟨rfl, mem, dirty⟩, fun no => absurd all no⟩
  · rw [if_neg (mt cond.1 all)]
    obtain ⟨l, e⟩ := s.unreplayable.endRegion_eq
    rw [e]
    exact ⟨rfl, rfl, rfl, rfl, fun h => absurd h all, fun _ => ⟨rfl, rfl⟩⟩

theorem State.endAtStart_of_begun {s : State} (h : s.g.begun = true) : s.endAtStart = s := if_pos h
theorem State.endAtStart_of_not {s : State} (h : s.g.begun = false) : s.endAtStart = { s.endRegion with g := { s.endRegion.g with begun := true } } :=
  if_neg (by rw [h]; decide)
theorem State.endRegion_g (s : State) : s.endRegion.g = { s.g with seq := s.g.seq + 1 } := by
  obtain ⟨l, e⟩ := s.endRegion_eq
  rw [e]
/-- Ending the region at the start changes the region's number, at most, beside tokens. -/
theorem State.endAtStart_eq (s : State) : ∃ n l, s.endAtStart = { s with g := { s.g with seq := n, begun := true }, ms := { s.ms with tokens := l } } ∧
    (s.g.begun = false → n = s.g.seq + 1) ∧ (s.g.begun = true → n = s.g.seq) := by
  cases h : s.g.begun with
  | true => exact ⟨s.g.seq, s.ms.tokens, by rw [State.endAtStart_of_begun h, ← h], nofun, fun _ => rfl⟩
  | false =>
    obtain ⟨l, e⟩ := s.endRegion_eq
    exact ⟨_, l, by rw [State.endAtStart_of_not h, e], fun _ => rfl, nofun⟩

theorem execXfence_waits {f : FY} {s : State} (h : s.pendingOn f.cls1 = true) : Runs (.xfence f) s s.endAtStart := by
  obtain ⟨n, l, e, -⟩ := s.endAtStart_eq
  have pending : s.endAtStart.pendingOn f.cls1 = true := by rw [e]; exact h
  exact congrArg settle (if_pos pending)
theorem execXfence_runs {f : FY} {s : State} (h : s.pendingOn f.cls1 = false) : ∃ u : State, Runs (.xfence f) s u.retire ∧
    (s.g.begun = false → u.g.seq = s.g.seq + 1) ∧ (s.g.begun = true → u.g.seq = s.g.seq) ∧
    s.Fenced u s.unreplayable.g.storeQ (f.cls1.getLsbD 5 = true) (f.scope = 11) := by
  obtain ⟨n, l, e, fresh, begun⟩ := s.endAtStart_eq
  have free : s.endAtStart.pendingOn f.cls1 = false := by rw [e]; exact h
  refine ⟨_, congrArg settle (if_neg (by rw [free]; decide)), ?_⟩
  rw [e]
  by_cases all : f.cls1.getLsbD 5 = true
  · rw [if_pos all]
    obtain ⟨ms, e', mem, dirty⟩ := State.performAt_eq
      (s := State.unreplayable { s with g := { s.g with seq := n, begun := true }, ms := { s.ms with tokens := l } }) rfl f.scope
    rw [e']
    exact ⟨fresh, begun, rfl, rfl, rfl, fun _ => ⟨rfl, mem, dirty⟩, fun no => absurd all no⟩
  · rw [if_neg all]
    split <;> exact ⟨fresh, begun, rfl, rfl, rfl, fun h => absurd h all, fun _ => ⟨rfl, rfl⟩⟩

/-! ## Conflicts (R218, R219, R222) -/

theorem State.tokens_self {s : State} {l : List Token} (h : s.ms.tokens = l) : { s with ms := { s.ms with tokens := l } } = s := by rw [← h]

/-- A store that meets another region's writer token meets a conflict with it. -/
theorem State.snareOne_of_writer {s : State} {sec : Nat} {tok : Token} (only : s.ms.tokens = [tok]) (here : tok.sector = sec)
    (foreign : tok.heldBy s.g = false) (writer : tok.writer = true) (firm : tok.tentative = false) :
    s.snareOne sec true false = (s, .conflict (conflictInfo s.g tok true)) := by
  simp [State.snareOne, only, here, foreign, writer, firm]
/-- It names the token, and nothing else changes. -/
theorem State.snare_of_writer {s : State} {scalar : Bool} {i : Nat} {va : Int} {l : Leaf} {tok : Token} (rc : l.rc = true) (only : s.ms.tokens = [tok])
    (here : tok.sector = l.key / 32) (foreign : tok.heldBy s.g = false) (writer : tok.writer = true) (firm : tok.tentative = false) :
    s.snare true false scalar [(i, va, l)] = .conflict (lanesTrap scalar cCONFLICT (conflictInfo s.g tok true) [(i, va)]) s := by
  have kept : s.dropStale = s := by
    unfold State.dropStale
    rw [only]
    exact State.tokens_self (by simp [only, firm])
  have firmed : s.firmTokens = s := by
    unfold State.firmTokens
    rw [only]
    exact State.tokens_self (by simp [only, firm])
  have met : snareAll true false [(i, va, l)] s = (s, [(i, va, .conflict (conflictInfo s.g tok true))]) := by
    simp [snareAll, rc, State.snareOne_of_writer only here foreign writer firm]
  unfold State.snare
  rw [kept, met]
  dsimp only
  rw [firmed]
  rfl

/-- At a sector without a token the access is granted its own, and an atomic needs none. -/
theorem State.snareOne_of_none {s : State} {sec : Nat} (none : ∀ t ∈ s.ms.tokens, t.sector ≠ sec) (w : Bool) :
    s.snareOne sec w false = ({ s with ms := { s.ms with tokens := s.ms.tokens ++
      [{ sector := sec, ctx := s.g.ctx, core := s.g.core, slot := s.g.slot, seq := s.g.seq, writer := w, tentative := !w }] } }, .ok) ∧
    s.snareOne sec true true = (s, .ok) := by
  have here : s.ms.tokens.filter (fun t => t.sector = sec) = [] := List.filter_eq_nil_iff.2 fun t ht => by simpa using none t ht
  have writers : s.ms.tokens.filter (fun t => t.sector = sec && t.writer) = [] :=
    List.filter_eq_nil_iff.2 fun t ht => by simp [none t ht]
  have readers : s.readers sec = [] := List.filter_eq_nil_iff.2 fun t ht => by simp [none t ht]
  constructor
  · cases w with
    | true => simpa [State.snareOne, here, writers] using fun t ht => .inl (none t ht)
    | false => simp [State.snareOne, here, State.makeRoom, readers]
  · simp [State.snareOne, here]
/-- A store that meets only the tentative token of a waiting load squashes that load. -/
theorem State.snareOne_of_tentative {s : State} {sec : Nat} {tok : Token} (only : s.ms.tokens = [tok]) (here : tok.sector = sec)
    (foreign : tok.heldBy s.g = false) (tentative : tok.tentative = true) :
    s.snareOne sec true false = ({ s with ms := { s.ms with tokens :=
      [{ sector := sec, ctx := s.g.ctx, core := s.g.core, slot := s.g.slot, seq := s.g.seq, writer := true }] } }, .ok) := by
  simp [State.snareOne, State.squash, only, here, foreign, tentative]

/-- A scalar store that meets another region's writer token raises CONFLICT. -/
theorem stu_conflict {f : FM} {s s1 : State} {h : Hit3} {tok : Token} (clean : s.Clean [s.g.sitem f.sb, s.g.sitem (snum f.d)])
    (check : checkAccess s s.g.core s.g.ctx (.store (fmBytes f)) true [(0, ((s.g.sget f.sb).toNat : Int) + f.off.toInt)] = .ok s1 [h])
    (watch : checkWatch s1 s1.g (.store (fmBytes f)) true [(0, ((s.g.sget f.sb).toNat : Int) + f.off.toInt)] = none)
    (rc : h.2.2.rc = true) (only : s1.ms.tokens = [tok]) (here : tok.sector = h.2.2.key / 32) (foreign : tok.heldBy s1.g = false)
    (writer : tok.writer = true) (firm : tok.tentative = false) :
    Runs (.stu f) s (takeTrap (lanesTrap true cCONFLICT (conflictInfo s1.g tok true) [(h.1, h.2.1)]) s1) := by
  have met : s1.snare true false true [h] = _ := State.snare_of_writer rc only here foreign writer firm
  have raises (k : State → List Hit3 → Res) : accessG s (.store (fmBytes f)) true false [(0, scalarAddr s.g f.sb f.off.toInt)] k =
      .trap (lanesTrap true cCONFLICT (conflictInfo s1.g tok true) [(h.1, h.2.1)]) s1 := by
    unfold accessG
    rw [scalarAddr, check]
    dsimp only
    rw [watch]
    dsimp only
    rw [if_neg (by simp [AccSpec.store, rc]), show decide ((AccSpec.store (fmBytes f)).acc = 1) = true from rfl, met]
  show settle (orTrap (readPoison s.g [s.g.sitem f.sb, s.g.sitem (snum f.d)]) s (accessG s _ _ _ _ _)) = _
  rw [readPoison_of_clean clean, orTrap_none, raises]
  rfl

end Sys2Proof.Machine

section
open Sys2Proof Sys2Proof.Machine

/-- Settles O36: fences by what they do to the group's stores, conflicts by what the snare answers one lane. -/
theorem fencesAndConflicts : Obligations.FencesAndConflicts := by
  unfold Obligations.FencesAndConflicts
  refine ⟨?evict, ?fences, fun f s h => execXfence_waits h, ?again, fun s => ⟨State.endAtStart_of_begun, State.endAtStart_of_not, s.endRegion_g⟩,
    fun f s s1 h tok clean check watch rc only here foreign writer firm => stu_conflict clean check watch rc only here foreign writer firm,
    fun s sec w none => State.snareOne_of_none none w,
    fun s sec tok only here foreign tentative => State.snareOne_of_tentative only here foreign tentative⟩
  case evict =>
    intro line s none free
    have tokens : ({ s with ms := s.ms.recall (128 * line) 128 } : State).ms.tokens = [] := (s.ms.recallLines_keeps [line]).2.2.2.trans none
    have now := State.splitWaits_of_no_tokens tokens (lineSectors line)
    rw [← State.splitSectors_of_no_tokens tokens (lineSectors line)] at now
    obtain ⟨same, dirty, -⟩ := State.evictLine_done free now
    exact ⟨_, rfl, (same none).1, (same none).2, fun x here d => ((dirty x).1 d).2 here, fun x away => (dirty x).trans (and_iff_left away)⟩
  case fences =>
    intro f s i q all
    rintro (rfl | ⟨rfl, fresh, free⟩)
    · obtain ⟨u, runs, seq, r, pc, others, performed, held⟩ := execFence_runs f s
      have which : all ↔ 2 ≤ f.scope.toNat ∧ f.ord.toNat ≠ 1 := by simp [all]
      exact ⟨u, runs, r, pc, seq, others, fun h => performed (which.1 h), fun h => held (mt which.2 h)⟩
    · obtain ⟨u, runs, seq, -, r, pc, others, performed, held⟩ := execXfence_runs free
      have which : all ↔ f.cls1.getLsbD 5 = true := by simp [all]
      exact ⟨u, runs, r, pc, seq fresh, others, fun h => performed (which.1 h), fun h => held (mt which.2 h)⟩
  case again =>
    intro f s begun free
    obtain ⟨u, runs, -, seq, r, pc, -, performed, -⟩ := execXfence_runs free
    exact ⟨u, runs, r, pc, seq begun, fun all => (performed all).1⟩

end

namespace Sys2Proof.Machine

/-! # Barriers (R251 to R261) -/

/-! ## Entries of the table (R251, R254, R255) -/

/-- An entry that is not Spilled stands as it is. -/
theorem State.barNow_live {s : State} {b : Barrier} (h : b.st = .live) : s.barNow b = b := by
  unfold State.barNow
  rw [h]
theorem State.barNow_st (s : State) (b : Barrier) : (s.barNow b).st = b.st := by
  unfold State.barNow
  split
  · split <;> rfl
  · rfl
/-- A Live entry of the table. -/
theorem State.barAt_live {s : State} {core idx : Nat} {b : Barrier} (h : s.barAt core idx = some b) (live : b.st = .live) :
    (s.cs.bars.find? fun b => b.core = core && b.idx = idx) = some b ∧ b.core = core ∧ b.idx = idx := by
  obtain ⟨x, hx, rfl⟩ := Option.map_eq_some_iff.1 h
  have same : s.barNow x = x := State.barNow_live (by rw [← live, s.barNow_st])
  rw [same]
  have here := List.find?_some hx
  simp only [Bool.and_eq_true, decide_eq_true_eq] at here
  exact ⟨hx, here⟩
theorem State.barAt_of_find {s : State} {core idx : Nat} {b : Barrier} (h : (s.cs.bars.find? fun b => b.core = core && b.idx = idx) = some b)
    (live : b.st = .live) : s.barAt core idx = some b := by
  rw [State.barAt, h, Option.map_some, State.barNow_live live]
/-- What the table says of an entry depends on the table, the contexts and memory. -/
theorem State.barAt_congr {s t : State} (bars : t.cs.bars = s.cs.bars) (ctxs : t.cx.ctxs = s.cx.ctxs) (mem : t.ms.mem = s.ms.mem) (core idx : Nat) :
    t.barAt core idx = s.barAt core idx := by
  have now : t.barNow = s.barNow := by
    funext b
    simp only [State.barNow, State.ctxOf, State.memNat, State.memBytes, ctxs, mem]
  rw [State.barAt, bars, now]
  rfl

/-- Reading an entry recalls the line of its form, at most. -/
theorem State.readBar_caches (s : State) (core idx : Nat) : s.Caches (s.readBar core idx) := by
  unfold State.readBar
  split
  · split
    · exact s.recall_caches _ _
    · exact .refl s
  · exact .refl s
theorem State.readBar_live {s : State} {core idx : Nat} {b : Barrier} (h : s.barAt core idx = some b) (live : b.st = .live) : s.readBar core idx = s := by
  unfold State.readBar
  rw [(State.barAt_live h live).1]
  simp only [live]
theorem State.Caches.barAt {s t : State} (h : s.Caches t) (core idx : Nat) : t.barAt core idx = s.barAt core idx := by
  have mem := h.mem
  obtain ⟨ms, rfl, -⟩ := h
  have bars : ({ s with ms := ms } : State).cs.bars = s.cs.bars := rfl
  have ctxs : ({ s with ms := ms } : State).cx.ctxs = s.cx.ctxs := rfl
  exact State.barAt_congr bars ctxs mem core idx

/-- Whether a phase is past, by the entry that the token names. -/
theorem State.barPassed_of_barAt {s : State} {t : W64} {b : Barrier} (h : s.barAt (t.extractLsb' 32 9).toNat (t.extractLsb' 16 6).toNat = some b) :
    s.barPassed t = (b.phase != t.extractLsb' 0 16) := by
  rw [State.barPassed, h]
theorem State.barPassed_congr {s t : State} (h : ∀ core idx, t.barAt core idx = s.barAt core idx) (x : W64) : t.barPassed x = s.barPassed x := by
  unfold State.barPassed
  rw [h]

/-- A token of a core and an entry within their bounds says them, and its phase (R253). -/
theorem token_fields (phase : BitVec 16) {core idx : Nat} (hc : core < 512) (hi : idx < 64) :
    let t := BitVec.ofNat 64 (phase.toNat + 2 ^ 16 * idx + 2 ^ 32 * core)
    (t.extractLsb' 32 9).toNat = core ∧ (t.extractLsb' 16 6).toNat = idx ∧ t.extractLsb' 0 16 = phase := by
  have hp := phase.isLt
  refine ⟨?_, ?_, BitVec.eq_of_toNat_eq ?_⟩ <;>
    simp only [BitVec.extractLsb'_toNat, BitVec.toNat_ofNat, Nat.shiftRight_eq_div_pow] <;> omega

/-! ## Replacing an entry (R252, R256) -/

/-- Put an entry in the place of the one that has its core and number. -/
def State.setBar (s : State) (b : Barrier) : State :=
  { s with cs := { s.cs with bars := s.cs.bars.map fun x => if x.core = b.core && x.idx = b.idx then b else x } }

theorem State.barAt_setBar {s : State} {a b : Barrier} (h : s.barAt b.core b.idx = some a) (live : b.st = .live) : (s.setBar b).barAt b.core b.idx = some b := by
  obtain ⟨x, hx, -⟩ := Option.map_eq_some_iff.1 h
  refine State.barAt_of_find ?_ live
  have stays : ∀ y : Barrier, (decide ((if y.core = b.core && y.idx = b.idx then b else y).core = b.core) &&
      decide ((if y.core = b.core && y.idx = b.idx then b else y).idx = b.idx)) = (decide (y.core = b.core) && decide (y.idx = b.idx)) := by
    intro y
    split <;> simp_all
  have here := List.find?_some hx
  simp only [State.setBar, List.find?_map, Function.comp_def, stays, hx, Option.map_some]
  exact congrArg some (if_pos here)

theorem Group.waitsOn_and_iff {g : Group} {t : W64} {q : Group → Bool} :
    (g.waitsOn t && q g) = true ↔ g.phase = .parked ∧ (g.arrived = some t ∨ g.awaits = some t) ∧ q g = true := by
  simp [Group.waitsOn, and_assoc]
/-- The parked waits on a token retire. -/
theorem State.passWaits_eq (s : State) (q : Group → Bool) (t : W64) : s.passWaits q t = s.mapGroups fun g =>
    if g.phase = .parked ∧ (g.arrived = some t ∨ g.awaits = some t) ∧ q g = true then ({ g.unreplayable with arrived := none, awaits := none } : Group).advance else g := by
  unfold State.passWaits
  congr 1
  funext g
  exact if_congr Group.waitsOn_and_iff rfl rfl

/-- A Live entry replaced: where its phase passes, the parked waits on it retire. -/
theorem State.putBar_live {s : State} {a b : Barrier} (h : s.barAt b.core b.idx = some a) (live : b.st = .live) :
    s.putBar b = if a.phase != b.phase then (s.setBar b).passWaits (fun g => g.ctx = a.ctx) a.token else s.setBar b := by
  unfold State.putBar State.writeForm
  simp only [h, live]
  rfl
theorem State.barAt_putBar {s : State} {a b : Barrier} (h : s.barAt b.core b.idx = some a) (live : b.st = .live) :
    (s.putBar b).barAt b.core b.idx = some b := by
  rw [State.putBar_live h live]
  split
  · exact (State.barAt_congr rfl rfl rfl _ _).trans (State.barAt_setBar h live)
  · exact State.barAt_setBar h live

/-! ## The checks of an arrival or a drop (R259) -/

theorem State.checkBar_ok {s : State} {core idx : Nat} {arrival : Bool} {b : Barrier} (h : s.checkBar core idx arrival = .ok b) :
    s.barAt core idx = some b ∧ b.ctx = s.g.ctx := by
  unfold State.checkBar at h
  split at h
  · cases h
  next x hx =>
    dsimp only at h
    split at h
    · cases h
    next same =>
      split at h
      · cases h
      · split at h
        · cases h
        · split at h
          · cases h
          · cases h
            exact ⟨hx, by simpa using same⟩

end Sys2Proof.Machine

namespace Sys2Proof.Machine

/-! ## What an arrival or a drop does first (R257) -/

/-- Every store is performed and the region ends: beside memory, only the group's stores and its region's number change. -/
theorem State.performedEnd_eq (s : State) : ∃ ms, s.unreplayable.drain.endRegion =
    { s with g := { s.unreplayable.g with storeQ := [], seq := s.g.seq + 1 }, ms := ms } := by
  obtain ⟨ms, e⟩ := State.drain_eq (s := s.unreplayable) rfl
  obtain ⟨l, e'⟩ := s.unreplayable.drain.endRegion_eq
  rw [e', e]
  exact ⟨_, rfl⟩
theorem State.performedEnd_barBit (s : State) (core : Nat) : s.unreplayable.drain.endRegion.g.barBit core = s.g.barBit core := by
  obtain ⟨ms, e⟩ := s.performedEnd_eq
  rw [e]
  rfl
/-- A Live entry stands in the table, whatever becomes of memory. -/
theorem State.barAt_of_cs {s u : State} {core idx : Nat} {b : Barrier} (cs : u.cs = s.cs) (h : s.barAt core idx = some b) (live : b.st = .live) :
    u.barAt core idx = some b :=
  State.barAt_of_find (by rw [cs]; exact (State.barAt_live h live).1) live
theorem State.performedEnd_barAt {s : State} {core idx : Nat} {b : Barrier} (h : s.barAt core idx = some b) (live : b.st = .live) :
    s.unreplayable.drain.endRegion.barAt core idx = some b := by
  obtain ⟨ms, e⟩ := s.performedEnd_eq
  exact State.barAt_of_cs (by rw [e]) h live

/-! ## Arrivals (R252, R253) -/

/-- An entry after an arrival: the last of a phase advances it. -/
theorem Barrier.arrive_eq (b : Barrier) (bit : BitVec 16) : b.arrive bit = { b with
    memb := b.memb ||| bit, arr := if b.cnt + 1 = b.exp then 0 else b.arr ||| bit
    cnt := if b.cnt + 1 = b.exp then 0 else b.cnt + 1, phase := if b.cnt + 1 = b.exp then b.phase + 1 else b.phase } := by
  unfold Barrier.arrive Barrier.complete
  by_cases last : b.cnt + 1 = b.exp <;> simp [last]
theorem Barrier.arrive_place (b : Barrier) (bit : BitVec 16) : (b.arrive bit).core = b.core ∧ (b.arrive bit).idx = b.idx ∧ (b.arrive bit).st = b.st := by
  rw [b.arrive_eq]
  exact ⟨rfl, rfl, rfl⟩

/-- The state after an arrival. -/
def State.arrived (s : State) (core idx : Nat) (b : Barrier) : State :=
  { s.unreplayable.drain.endRegion.putBar (b.arrive (s.g.barBit core)) with g := s.unreplayable.drain.endRegion.g.joinBar core idx }

/-- An arrival at a Live entry that passes its checks. -/
theorem arriveOp_live {s : State} {core idx : Nat} {b : Barrier} (ok : s.checkBar core idx true = .ok b) (live : b.st = .live) (k : State → W64 → Res) :
    arriveOp s core idx k = k (s.arrived core idx b) (BitVec.ofNat 64 (b.phase.toNat + 2 ^ 16 * idx + 2 ^ 32 * core)) := by
  have here := (State.checkBar_ok ok).1
  obtain ⟨-, hc, hi⟩ := State.barAt_live here live
  simp only [arriveOp, State.readBar_live here live, ok, State.performedEnd_barBit, Barrier.token, hc, hi]
  rfl
/-- The entry stands as the arrival leaves it. -/
theorem State.arrived_barAt {s : State} {core idx : Nat} {b : Barrier} (h : s.barAt core idx = some b) (live : b.st = .live) :
    (s.arrived core idx b).barAt core idx = some (b.arrive (s.g.barBit core)) := by
  obtain ⟨-, hc, hi⟩ := State.barAt_live h live
  obtain ⟨pc, pi, ps⟩ := b.arrive_place (s.g.barBit core)
  have stands := State.barAt_putBar (s := s.unreplayable.drain.endRegion) (b := b.arrive (s.g.barBit core)) (a := b)
    (by rw [pc, pi, hc, hi]; exact State.performedEnd_barAt h live) (ps.trans live)
  rw [pc, pi, hc, hi] at stands
  exact (State.barAt_congr rfl rfl rfl core idx).trans stands
/-- A wait goes on once the phase of its token is past, as the table that it has read says. -/
theorem syncWait_of_read {s r : State} {t : W64} (read : s.readBar (t.extractLsb' 32 9).toNat (t.extractLsb' 16 6).toNat = r) :
    syncWait s t = if r.barPassed t = true then .next { r with g := { r.g with arrived := none } } else .park { r with g := { r.g with arrived := some t } } := by
  subst read
  rfl
/-- The wait on the token of an arrival just made goes on exactly when the arrival was the last. -/
theorem syncWait_arrived {s : State} {core idx : Nat} {b : Barrier} (h : s.barAt core idx = some b) (live : b.st = .live) (hc : core < 512) (hi : idx < 64) :
    let token := BitVec.ofNat 64 (b.phase.toNat + 2 ^ 16 * idx + 2 ^ 32 * core)
    let after := s.arrived core idx b
    syncWait after token = if b.cnt + 1 = b.exp then .next { after with g := { after.g with arrived := none } }
      else .park { after with g := { after.g with arrived := some token } } := by
  intro token after
  obtain ⟨tc, ti, tp⟩ := token_fields b.phase hc hi
  have stands := State.arrived_barAt h live
  have read : after.readBar core idx = after := State.readBar_live stands ((b.arrive_place _).2.2.trans live)
  have passed : after.barPassed token = decide (b.cnt + 1 = b.exp) := by
    rw [State.barPassed_of_barAt (b := b.arrive (s.g.barBit core)) (by rw [tc, ti]; exact stands), tp, b.arrive_eq]
    by_cases last : b.cnt + 1 = b.exp <;> simp [last]
  rw [syncWait_of_read (t := token) (r := after) (by rw [tc, ti]; exact read), passed]
  simp only [decide_eq_true_eq]

theorem syncOp_of_none {s : State} (h : s.g.arrived = none) (core idx : Nat) : syncOp s core idx = arriveOp s core idx syncWait := by rw [syncOp, h]
theorem syncOp_of_some {s : State} {t : W64} (h : s.g.arrived = some t) (core idx : Nat) : syncOp s core idx = syncWait s t := by rw [syncOp, h]
/-- A wait on the token of an arrival made before. -/
theorem syncWait_again {s : State} {t : W64} (h : s.g.arrived = some t) :
    let r := s.readBar (t.extractLsb' 32 9).toNat (t.extractLsb' 16 6).toNat
    syncWait s t = if s.barPassed t then .next { r with g := { r.g with arrived := none } } else .park r := by
  intro r
  have read : s.Caches r := s.readBar_caches _ _
  have stands : ({ r with g := { r.g with arrived := some t } } : State) = r := by rw [← h, ← read.g]
  rw [syncWait_of_read (r := r) rfl, State.barPassed_congr read.barAt, stands]

/-! ## Waits (R253, R258) -/

/-- Ending the region at the start changes no entry of the table. -/
theorem State.barPassed_endAtStart (s : State) (t : W64) : s.endAtStart.barPassed t = s.barPassed t := by
  obtain ⟨n, l, e, -⟩ := s.endAtStart_eq
  refine State.barPassed_congr (fun core idx => ?_) t
  rw [e]
  exact State.barAt_congr rfl rfl rfl core idx

/-- What bar.wait does with a token whose reserved bits and core suit. -/
theorem execBarWait_of_good {f : FY} {s : State} (clean : s.Clean [s.g.sitem f.a]) {t : W64} (ht : s.g.sget f.a = t) {core : Nat}
    (hc : (t.extractLsb' 32 9).toNat = core) (good : ¬ (t.extractLsb' 22 10 ≠ 0 ∨ t.extractLsb' 41 23 ≠ 0 ∨ (core ≠ s.g.core ∧ core ≠ corePeer s.g.core))) :
    let r := s.readBar core (t.extractLsb' 16 6).toNat
    execBarWait f s = settle (match s.barAt core (t.extractLsb' 16 6).toNat with
      | none => .trap (barrier 2) r
      | some b => if b.ctx != s.g.ctx then .trap (barrier 2) r
        else if b.phase != t.extractLsb' 0 16 then .next { r.endAtStart.unreplayable with g := { r.endAtStart.unreplayable.g with awaits := none } }
        else .park { r.endAtStart with g := { r.endAtStart.g with awaits := some t } }) := by
  intro r
  subst hc ht
  have read := (s.readBar_caches ((s.g.sget f.a).extractLsb' 32 9).toNat ((s.g.sget f.a).extractLsb' 16 6).toNat).barAt
  show settle (orTrap (readPoison s.g [s.g.sitem f.a]) s _) = _
  rw [readPoison_of_clean clean, orTrap_none, if_neg (by simpa [not_or, and_assoc] using good)]
  cases h : s.barAt ((s.g.sget f.a).extractLsb' 32 9).toNat ((s.g.sget f.a).extractLsb' 16 6).toNat with
  | none => simp only [read, h, r]
  | some b => simp only [read, h, r, State.barPassed_endAtStart, State.barPassed_congr read, State.barPassed_of_barAt h]

theorem execBarWait_of_bad {f : FY} {s : State} (clean : s.Clean [s.g.sitem f.a])
    (bad : (s.g.sget f.a).extractLsb' 22 10 ≠ 0 ∨ (s.g.sget f.a).extractLsb' 41 23 ≠ 0 ∨
      (((s.g.sget f.a).extractLsb' 32 9).toNat ≠ s.g.core ∧ ((s.g.sget f.a).extractLsb' 32 9).toNat ≠ corePeer s.g.core)) :
    Runs (.barWait f) s (takeTrap { cause := cBARRIER, einfo := 7 } s) := by
  show settle (orTrap (readPoison s.g [s.g.sitem f.a]) s _) = _
  rw [readPoison_of_clean clean, orTrap_none, if_pos (by simpa [or_assoc] using bad)]
  rfl

end Sys2Proof.Machine

namespace Sys2Proof.Machine

/-! ## Creation (R254, R258) -/

/-- bar.init, by the state of the entry and the count that it asks for. -/
theorem execBarInit_eq {f : FY} {s : State} (clean : s.Clean [s.g.sitem f.a]) {n idx most : Nat} (hn : (s.g.sget f.a).toNat = n) (hi : barIdx f = idx)
    (hm : (if f.scope = 3 then 16 else 8) = most) : execBarInit f s = settle (
      if (s.barAt s.g.core idx).isSome then .trap (barrier 1) s
      else if n = 0 || n > most then .trap (barrier 5) s
      else .next { s.unreplayable.endRegion with cs := { s.cs with
        bars := s.cs.bars ++ [{ core := s.g.core, idx := idx, st := .live, ctx := s.g.ctx, cl := f.scope == 3, exp := n }] } }) := by
  subst hn hi hm
  have cs : s.unreplayable.endRegion.cs = s.cs := by
    obtain ⟨l, e⟩ := s.unreplayable.endRegion_eq
    rw [e]
    rfl
  show settle (orTrap (readPoison s.g [s.g.sitem f.a]) s _) = _
  simp only [readPoison_of_clean clean, orTrap_none, cs, beq_iff_eq]

/-! ## Drops (R252, R258) -/

/-- An entry that a member has left: it arrived first if it had not, and one fewer is expected. -/
def Barrier.left (b : Barrier) (bit : BitVec 16) : Barrier :=
  let a := if b.arr &&& bit = 0 then b.arrive bit else b
  { a with memb := a.memb &&& ~~~ bit, held := a.held &&& ~~~ bit, exp := a.exp - 1 }
/-- One whose arrival was the last of its phase advances it as it leaves. -/
theorem Barrier.left_eq (b : Barrier) (bit : BitVec 16) : b.left bit =
    let a := if b.arr &&& bit ≠ 0 then b else if b.arr &&& bit == 0 && b.cnt + 1 == b.exp then { b with memb := b.memb ||| bit, arr := 0, cnt := 0, phase := b.phase + 1 }
      else { b with memb := b.memb ||| bit, arr := b.arr ||| bit, cnt := b.cnt + 1 }
    { a with memb := a.memb &&& ~~~ bit, held := a.held &&& ~~~ bit, exp := a.exp - 1 } := by
  unfold Barrier.left
  by_cases new : b.arr &&& bit = 0
  · rw [if_pos new, if_neg (not_not.2 new), b.arrive_eq]
    by_cases last : b.cnt + 1 = b.exp
    · simp only [new, last, beq_self_eq_true, Bool.and_self, if_true]
    · simp only [new, last, beq_eq_false_iff_ne.2 last, Bool.and_false, Bool.false_eq_true, if_false]
  · rw [if_neg new, if_pos new]
/-- A drop completes the phase when those that are left have all arrived. -/
theorem Barrier.drop_eq (b : Barrier) (bit : BitVec 16) : b.drop bit = if (b.left bit).exp ≠ 0 ∧ (b.left bit).cnt ≠ 0 ∧ (b.left bit).cnt = (b.left bit).exp
    then { b.left bit with phase := (b.left bit).phase + 1, cnt := 0, arr := 0 } else b.left bit := by
  show (if (b.left bit).exp != 0 && (b.left bit).cnt > 0 then (b.left bit).complete else b.left bit) = _
  unfold Barrier.complete
  by_cases all : (b.left bit).cnt = (b.left bit).exp <;> simp [all, Nat.pos_iff_ne_zero]
theorem Barrier.drop_exp (b : Barrier) (bit : BitVec 16) : (b.drop bit).exp = (b.left bit).exp := by
  rw [b.drop_eq]
  split <;> rfl

/-- The group whose turn it is leaves an entry. -/
def State.leaves (s : State) (core idx : Nat) : State := { s with g := { s.g with bars := s.g.bars.filter (· ≠ (core, idx)) } }

theorem State.checkBar_of_some {s : State} {core idx : Nat} {b : Barrier} (h : s.barAt core idx = some b) (arrival : Bool) :
    s.checkBar core idx arrival = if b.ctx != s.g.ctx then .error 2
      else if core != s.g.core && !b.cl then .error 6
      else if arrival && s.g.bars.contains (core, idx) && b.arr &&& s.g.barBit core != 0 then .error 3
      else if arrival && !s.g.bars.contains (core, idx) && (ones16 b.memb = b.exp || b.held &&& s.g.barBit core != 0) then .error 4 else .ok b := by
  rw [State.checkBar, h]

theorem State.dropBar_of_stranger {s : State} {core idx : Nat} (h : s.g.bars.contains (core, idx) = false) : s.dropBar (core, idx) = s :=
  if_pos (by rw [h]; rfl)
theorem State.dropBar_of_member {s : State} {core idx : Nat} {b : Barrier} (h : s.g.bars.contains (core, idx) = true) (here : s.barAt core idx = some b)
    (same : b.ctx = s.g.ctx) : s.dropBar (core, idx) = if (b.left (s.g.barBit core)).exp = 0
      then ((s.leaves core idx).putBar (b.drop (s.g.barBit core))).freeBar core idx else (s.leaves core idx).putBar (b.drop (s.g.barBit core)) := by
  have stands : (s.leaves core idx).barAt core idx = some b := (State.barAt_congr rfl rfl rfl core idx).trans here
  have own : (b.ctx != (s.leaves core idx).g.ctx) = false := bne_eq_false_iff_eq.2 same
  rw [← b.drop_exp]
  refine (if_neg (by rw [h]; decide)).trans ?_
  show (match (s.leaves core idx).barAt core idx with
    | none => s.leaves core idx
    | some b => if b.ctx != (s.leaves core idx).g.ctx then s.leaves core idx
      else if (b.drop (s.g.barBit core)).exp = 0 then ((s.leaves core idx).putBar (b.drop (s.g.barBit core))).freeBar core idx
        else (s.leaves core idx).putBar (b.drop (s.g.barBit core))) = _
  simp only [stands, own, Bool.false_eq_true, if_false]

/-- A drop at a Live entry that passes its checks. -/
theorem dropOp_live {s : State} {core idx : Nat} {b : Barrier} (ok : s.checkBar core idx false = .ok b) (live : b.st = .live) :
    let u := s.unreplayable.drain.endRegion
    dropOp s core idx = .next (u.dropBar (core, idx)) ∧ u.barAt core idx = some b ∧ b.ctx = u.g.ctx ∧ u.g.bars = s.g.bars := by
  intro u
  obtain ⟨here, same⟩ := State.checkBar_ok ok
  obtain ⟨ms, e⟩ := s.performedEnd_eq
  refine ⟨?_, State.performedEnd_barAt here live, ?_, ?_⟩
  · simp only [dropOp, State.readBar_live here live, ok, u]
  · rw [same, show u = _ from e]; rfl
  · rw [show u = _ from e]; rfl

/-! ## The grid barrier (R260) -/

/-- A pool entry after an arrival at its grid barrier. -/
def PoolEntry.gridArrive (e : PoolEntry) : PoolEntry := ({ e with gridCnt := e.gridCnt + 1 } : PoolEntry).gridComplete
theorem PoolEntry.gridArrive_of_last {e : PoolEntry} (h : e.gridCnt + 1 = e.bound - e.ended) :
    e.gridArrive = { e with gridCnt := 0, gridPhase := e.gridPhase + 1 } :=
  have awaited : 0 < e.bound - e.ended := by omega
  if_pos (by simp only [PoolEntry.gridExp, h, awaited, decide_true, Bool.and_self])
theorem PoolEntry.gridArrive_of_not {e : PoolEntry} (h : e.gridCnt + 1 ≠ e.bound - e.ended) : e.gridArrive = { e with gridCnt := e.gridCnt + 1 } :=
  if_neg (by simp [PoolEntry.gridExp, h])
theorem PoolEntry.gridArrive_place (e : PoolEntry) : e.gridArrive.die = e.die ∧ e.gridArrive.entry = e.entry := by
  unfold PoolEntry.gridArrive PoolEntry.gridComplete
  split <;> exact ⟨rfl, rfl⟩

/-- The entry of the group's launch stands in the pool. -/
theorem State.poolAt_of_ownEntry {s : State} {e : PoolEntry} (h : s.ownEntry = some e) : s.poolAt e.die e.entry = some e := by
  obtain ⟨found, -⟩ := Option.filter_eq_some_iff.1 h
  obtain ⟨⟨die, entry⟩, -, stands⟩ := Option.bind_eq_some_iff.1 found
  have place := List.find?_some stands
  simp only [Bool.and_eq_true, decide_eq_true_eq] at place
  rw [place.1, place.2]
  exact stands
/-- A pool entry changed in its place. -/
theorem State.poolAt_mapPool {s : State} {e : PoolEntry} {f : PoolEntry → PoolEntry} (h : s.poolAt e.die e.entry = some e)
    (hf : ∀ x, (f x).die = x.die ∧ (f x).entry = x.entry) : (s.mapPool e.die e.entry f).poolAt e.die e.entry = some (f e) := by
  have stays : ∀ x : PoolEntry, (decide ((if x.die = e.die && x.entry = e.entry then f x else x).die = e.die) &&
      decide ((if x.die = e.die && x.entry = e.entry then f x else x).entry = e.entry)) = (decide (x.die = e.die) && decide (x.entry = e.entry)) := by
    intro x
    split
    · rw [(hf x).1, (hf x).2]
    · rfl
  have found : s.ls.pool.find? (fun x => x.die = e.die && x.entry = e.entry) = some e := h
  simp only [State.mapPool, State.poolAt, List.find?_map, Function.comp_def, stays, found, Option.map_some]
  simp
/-- Where the phase stands, changing a pool entry is all. -/
theorem State.mapGrid_of_same {s : State} {e : PoolEntry} {f : PoolEntry → PoolEntry} (h : (f e).gridPhase = e.gridPhase) :
    s.mapGrid e f = s.mapPool e.die e.entry f := if_neg (by simp [h])
/-- Where it passes, the parked waits on it retire. -/
theorem State.mapGrid_of_passed {s : State} {e : PoolEntry} {f : PoolEntry → PoolEntry} (h : (f e).gridPhase ≠ e.gridPhase) :
    s.mapGrid e f = (s.mapPool e.die e.entry f).passWaits (fun g => g.ofEntry e) e.gridToken := if_pos (by simpa using h)
/-- A group that waits on no token is left alone when a phase passes. -/
theorem State.passWaits_g {s : State} (q : Group → Bool) (t : W64) (arrived : s.g.arrived = none) (awaits : s.g.awaits = none) : (s.passWaits q t).g = s.g := by
  rw [s.passWaits_eq]
  show (if s.g.gid = 0 then s.g else _) = s.g
  simp [arrived, awaits]

/-- The stores performed, the entry stands, and the group waits on what it waited on. -/
theorem State.performedEnd_grid {s : State} {e : PoolEntry} (own : s.ownEntry = some e) : let u := s.unreplayable.drain.endRegion
    u.poolAt e.die e.entry = some e ∧ u.g.arrived = s.g.arrived ∧ u.g.awaits = s.g.awaits := by
  obtain ⟨ms, eu⟩ := s.performedEnd_eq
  rw [eu]
  exact ⟨State.poolAt_of_ownEntry own, rfl, rfl⟩

theorem execBarGrid_of_none {f : FY} {s : State} (h : s.ownEntry = none) : Runs (.barGrid f) s (takeTrap { cause := cGRIDRES } s) := by
  show settle (match s.ownEntry with | none => _ | some e => _) = _
  rw [h]
  rfl
section
variable {f : FY} {s : State} {e : PoolEntry} (own : s.ownEntry = some e)
include own

/-- A group of a launch that is no GRID launch. -/
theorem execBarGrid_of_plain (plain : e.rc.grid = false) : Runs (.barGrid f) s (takeTrap { cause := cGRIDRES } s) := by
  show execBarGrid f s = _
  unfold execBarGrid
  rw [own]
  exact congrArg settle (if_pos (by rw [plain]; rfl))
/-- One that has arrived goes on once the phase is past. -/
theorem execBarGrid_of_arrived (grid : e.rc.grid = true) {t : W64} (old : s.g.arrived = some t) :
    execBarGrid f s = settle (if e.gridToken != t then .next { s with g := { s.g with arrived := none } } else .park s) := by
  unfold execBarGrid
  rw [own, old]
  exact congrArg settle (if_neg (by rw [grid]; decide))
/-- One that has not arrived arrives. -/
theorem execBarGrid_of_new (grid : e.rc.grid = true) (new : s.g.arrived = none) {v : State}
    (hv : s.unreplayable.drain.endRegion.mapGrid e PoolEntry.gridArrive = v) : execBarGrid f s = settle (
      if e.gridArrive.gridPhase != e.gridPhase then .next v else .park { v with g := { v.g with arrived := some e.gridToken } }) := by
  subst hv
  unfold execBarGrid
  rw [own, new]
  exact congrArg settle (if_neg (by rw [grid]; decide))

end

end Sys2Proof.Machine

section
open Sys2Proof Sys2Proof.Machine

/-- Settles O46: each barrier instruction by what it does to its entry of the table, and the parked waits by the token they name. -/
theorem barriers : Obligations.Barriers := by
  unfold Obligations.Barriers
  refine ⟨?init, ?checks, ?arrive, ?again, ?wait, ?read, ?put, ?drop, ?grid, fun f s h => execBarGrid_of_none h⟩
  case init =>
    intro f s clean n idx most
    have runs (r : Res) (h : _ = r) : Runs (.barInit f) s r.state := (execBarInit_eq clean (n := n) (idx := idx) (most := most) rfl rfl rfl).trans (congrArg settle h)
    refine ⟨fun taken => ?_, fun free bad => ?_, fun free one few => ?_⟩
    · exact runs _ (if_pos (Option.isSome_iff_ne_none.2 taken))
    · exact runs _ ((if_neg (by rw [free]; decide)).trans (if_pos (by simpa using bad)))
    · exact runs _ ((if_neg (by rw [free]; decide)).trans (if_neg (by simp; omega)))
  case checks =>
    intro s core idx arrival
    refine ⟨fun none => by rw [State.checkBar, none], fun b here => ?_⟩
    intro bit member
    refine ⟨fun other => ?_, fun own away home => ?_, fun own near => ?_⟩
    · rw [State.checkBar_of_some here]
      exact if_pos (by simpa using other)
    · rw [State.checkBar_of_some here]
      exact (if_neg (by simpa using own)).trans (if_pos (by simpa [home] using away))
    · have reach : ¬ (core != s.g.core && !b.cl) = true := by obtain near | near := near <;> simp [near]
      simp only [State.checkBar_of_some here, if_neg reach, own, bne_self_eq_false, Bool.false_eq_true, if_false]
      refine ⟨by simp, if_congr ?_ rfl (if_congr ?_ rfl rfl)⟩
      · simp [member, bit]
      · simp [member, bit, show popCount 16 b.memb.toNat = ones16 b.memb from rfl]
  case arrive =>
    intro f s b peer core idx bit u last b' after token ok live hc
    have here := (State.checkBar_ok ok).1
    have whole : after = s.arrived core idx b := by
      show ({ u.putBar b' with g := u.g.joinBar core idx } : State) = _
      rw [State.arrived, b.arrive_eq]
    have op (k : State → W64 → Res) : arriveOp s core idx k = k after token := by rw [arriveOp_live ok live, whole]
    refine ⟨fun h => ?_, fun h => ?_, fun new i hi => ?_⟩
    · subst h
      exact congrArg settle (op _)
    · subst h
      exact congrArg settle (op _)
    · have runs : exec i s = settle (syncWait after token) := by
        rw [← op syncWait]
        obtain ⟨rfl, rfl⟩ | ⟨rfl, rfl⟩ := hi <;> exact congrArg settle (syncOp_of_none new _ _)
      unfold Runs
      rw [runs, whole, syncWait_arrived here live hc (f.imm.extractLsb' 0 6).isLt]
      exact ⟨fun h => by rw [if_pos h]; rfl, fun h => by rw [if_neg h]; rfl⟩
  case again =>
    intro f s t arrived r i hi
    have runs : exec i s = settle (syncWait s t) := by
      obtain rfl | rfl : i = .barSync f ∨ i = .barSyncPeer f := by simpa using hi
      all_goals exact congrArg settle (syncOp_of_some arrived _ _)
    unfold Runs
    rw [runs, syncWait_again arrived]
    exact ⟨fun h => by rw [h]; rfl, fun h => by rw [h]; rfl⟩
  case wait =>
    intro f s clean t core r bad
    refine ⟨execBarWait_of_bad clean, fun good none => ?_, fun b good here => ⟨fun other => ?_, fun own past => ?_, fun own now => ?_⟩⟩
    all_goals
      unfold Runs
      refine (execBarWait_of_good clean rfl rfl good).trans ?_
    · rw [none]
      rfl
    · rw [here]
      exact congrArg settle (if_pos (by simpa using other))
    · rw [here]
      exact congrArg settle ((if_neg (by simpa using own)).trans (if_pos (by simpa using past)))
    · rw [here]
      exact congrArg settle ((if_neg (by simpa using own)).trans (if_neg (by simpa using now)))
  case read => exact fun s core idx => ⟨s.readBar_caches core idx, fun b here live => State.readBar_live here live⟩
  case put =>
    intro s a b here live u
    rw [State.putBar_live here live]
    refine ⟨fun same => if_neg (by simp [same]), fun passed => (if_pos (by simpa using passed.symm)).trans ?_⟩
    refine (State.passWaits_eq _ _ _).trans (congrArg u.mapGroups (funext fun g => if_congr ?_ rfl rfl))
    rw [decide_eq_true_iff]
  case drop =>
    intro f s b peer core idx bit u i v all a d ok live
    obtain ⟨op, here, own, bars⟩ := dropOp_live ok live
    have runs : exec i s = .next (u.dropBar (core, idx)).retire := by
      show exec (if peer then Instr.barDropPeer f else .barDrop f) s = _
      have same : exec i s = settle (dropOp s core idx) := by cases peer <;> rfl
      exact same.trans (congrArg settle op)
    have ubit : u.g.barBit core = bit := s.performedEnd_barBit core
    have left : b.left bit = d := b.left_eq bit
    have member (h : s.g.bars.contains (core, idx) = true) : u.dropBar (core, idx) = if d.exp = 0 then (v.putBar (b.drop bit)).freeBar core idx
        else v.putBar (b.drop bit) :=
      (State.dropBar_of_member (s := u) (bars ▸ h) here own).trans (by rw [ubit, left]; rfl)
    have drops := b.drop_eq bit
    rw [left] at drops
    unfold Runs
    rw [runs]
    refine ⟨fun out => ?_, fun mem last => ?_, fun mem more none => ?_, fun mem more some full => ?_⟩
    · rw [State.dropBar_of_stranger (bars ▸ out)]
    · rw [member mem, if_pos last, drops, if_neg fun h => h.1 last]
    · rw [member mem, if_neg more, drops, if_neg (by tauto)]
    · rw [member mem, if_neg more, drops, if_pos ⟨more, some, full⟩]
  case grid =>
    intro f s e own
    refine ⟨execBarGrid_of_plain own, fun grid new idle => ?_, fun t grid old => ?_⟩
    · intro u token
      obtain ⟨pool, arrived, awaits⟩ := State.performedEnd_grid own
      have placed := State.poolAt_mapPool pool PoolEntry.gridArrive_place
      refine ⟨fun last => ?_, fun more => ?_⟩
      · have passes : e.gridArrive.gridPhase ≠ e.gridPhase := by rw [PoolEntry.gridArrive_of_last last]; simp
        refine ⟨_, (execBarGrid_of_new (f := f) own grid new (State.mapGrid_of_passed passes)).trans (congrArg settle (if_pos (by simpa using passes))), ?_⟩
        rw [← PoolEntry.gridArrive_of_last last]
        refine ⟨State.passWaits_g _ _ (arrived.trans new) (awaits.trans idle), rfl, placed, ?_⟩
        rw [State.passWaits_eq]
        rfl
      · have stands : e.gridArrive.gridPhase = e.gridPhase := by rw [PoolEntry.gridArrive_of_not more]
        refine ⟨_, (execBarGrid_of_new (f := f) own grid new (State.mapGrid_of_same stands)).trans (congrArg settle (if_neg (by simpa using stands))), ?_⟩
        rw [← PoolEntry.gridArrive_of_not more]
        exact ⟨rfl, rfl, rfl, placed⟩
    · intro token
      have runs := execBarGrid_of_arrived (f := f) own grid old
      exact ⟨fun past => runs.trans (congrArg settle (if_pos (bne_iff_ne.2 past))), fun now => runs.trans (congrArg settle (if_neg (fun h => bne_iff_ne.1 h now)))⟩

end
